-- ==== Sys2Proof/Word.lean ====
section
/-! DEFINITION. The word types of the Lumvin L8 and their plainest arithmetic (R1, R3, R6). -/

namespace Sys2Proof

/-- One byte of storage. -/
abbrev Byte := BitVec 8

/-- A 32-bit register value of one lane. -/
abbrev Half := BitVec 32

/-- A 64-bit instruction word, clause header, register pair or address. -/
abbrev Word := BitVec 64

end Sys2Proof
end

