-- ==== Sys2Proof/Config.lean ====
section
/-! DEFINITION. What an implementation fixes and the spec leaves open: free values, which have no body, so that
nothing can be proved of the value they take. Each is named in a log entry of notes/assumptions. -/

namespace Sys2Proof.Config

/-- Time of the `n`-th step: clk that pass and, for the time-stamp, the same clk in ns (DESIGN CHOICE, log 3). -/
opaque stepClk : Nat → Nat

/-- The home of a tile of a sparse region (R74, DESIGN CHOICE, log 15). -/
opaque tileHome : (region tile : Nat) → Nat

/-- Which of a partition's base stacks holds a 64 KiB frame (R57, DESIGN CHOICE, log 13). -/
opaque stackOf : (frame : Nat) → Nat

/-- The fixed hash that picks the slice of a line (R57, R58, DESIGN CHOICE, log 13). -/
opaque lineHash : (line : Nat) → Nat

/-- Which of `n` choices the device makes at the `draw`-th choice (DESIGN CHOICE, log 13, 15). -/
opaque choice : (draw n : Nat) → Nat

/-- The candidate result of an approximate function (R258): function number 0-5, argument, fmt.flush (DESIGN CHOICE, log 12). -/
opaque approx : (fn : Nat) → Half → Bool → Half

/-- A byte of scratch that a stash window covers, which no longer holds its earlier contents (R312; DESIGN CHOICE, log 26). -/
opaque stashByte : (draw off : Nat) → BitVec 8

/-- A retry hint in µs (R100, DESIGN CHOICE, log 31). -/
opaque retryHint : Nat → Nat

/-- Bytes that a cryptographic derivation gives: its number, its inputs, the length (R387-R391, PRESUMED, log 30). -/
opaque derive : (what : Nat) → List Byte → (len : Nat) → List Byte

/-- Whether an image or a signature verifies (R391, PRESUMED, log 30). -/
opaque verifies : (what : Nat) → List Byte → Bool

end Sys2Proof.Config
end

