-- ==== Sys2Proof/Syntax.lean ====
section
/-! DEFINITION. The instructions of the Carler set (R201-R209) and the steps the machine takes that no
instruction word encodes: one constructor of `Instr` for each row of spec/opcode_table.json. -/

namespace Sys2Proof

/-- The execution scopes of R201, in field order. -/
inductive Scope where
  | lane | warp | set | block
  deriving DecidableEq, Repr

/-- The flag select of R201; the fourth code is no instruction. -/
inductive Flag where
  | none | a | b
  deriving DecidableEq, Repr

/-- A register of the name space of R207. -/
inductive Reg where
  | v (i : Fin 192)
  | s (i : Fin 48)
  | lid | wid | bid | sid | bnd | kw | fmt | fst | zero | ones | lit | gid | clk
  deriving DecidableEq, Repr

/-- A predicate p0-p7. -/
abbrev Pred := Fin 8

/-- A tile handle m0-m63. -/
abbrev Tile := Fin 64

/-- The fields every instruction word carries (R201): scope, flag select, guard, negate, last-use bits. -/
structure Head where
  scope : Scope
  flag  : Flag
  guard : Pred
  neg   : Bool
  luA   : Bool
  luB   : Bool
  luC   : Bool
  deriving DecidableEq, Repr

/-! ## Modifier values -/

/-- Types of ADD and SUB (R229). -/
inductive AddTy where
  | i32 | i64 | i16x2 | i8x4
  deriving DecidableEq, Repr

/-- Types of ADDSAT and SUBSAT (R229). -/
inductive SatTy where
  | i32 | n32 | i16x2 | i8x4
  deriving DecidableEq, Repr

/-- Types of MIN and MAX (R229). -/
inductive MinTy where
  | i32 | n32 | i64 | n64 | i16x2 | i8x4
  deriving DecidableEq, Repr

/-- Types of ABS (R229). -/
inductive AbsTy where
  | i32 | i16x2
  deriving DecidableEq, Repr

/-- Signed or unsigned 32-bit reading (R228). -/
inductive Sgn where
  | i32 | n32
  deriving DecidableEq, Repr

/-- Types of DOT4 (R231). -/
inductive Dot4Ty where
  | i8 | n8 | i8n8
  deriving DecidableEq, Repr

/-- Types of SHR (R233). -/
inductive ShrTy where
  | n32 | i32 | n64 | i64
  deriving DecidableEq, Repr

/-- Types of CMP (R235). -/
inductive CmpTy where
  | i32 | n32 | i64 | n64 | i16x2
  deriving DecidableEq, Repr

/-- Conditions of CMP (R235). -/
inductive Cond where
  | eq | ne | lt | le | gt | ge
  deriving DecidableEq, Repr

/-- Conditions of FCMP (R256). -/
inductive FCond where
  | eq | ne | lt | le | gt | ge | ord | uno
  deriving DecidableEq, Repr

/-- Results of PACK (R239). -/
inductive PackTy where
  | i16x2 | i8x4
  deriving DecidableEq, Repr

/-- Modes of SHFL (R241). -/
inductive ShflMode where
  | idx | up | down | xor
  deriving DecidableEq, Repr

/-- The votes of R243 with their destinations; `.ballot` carries `.cnt`. -/
inductive VoteOp where
  | any (d : Pred) | all (d : Pred) | ballot (d : Reg) (cnt : Bool)
  deriving DecidableEq, Repr

/-- Types of REDUCE (R244). -/
inductive RedTy where
  | i32 | n32 | f32 | i64
  deriving DecidableEq, Repr

/-- Types of SCAN (R245). -/
inductive ScanTy where
  | i32 | f32
  deriving DecidableEq, Repr

/-- The combining operations of REDUCE, SCAN and TRED. -/
inductive RedOp where
  | add | min | max
  deriving DecidableEq, Repr

/-- Float types of the three-type cards (R253). -/
inductive FTy where
  | f32 | f16x2 | bf16x2
  deriving DecidableEq, Repr

/-- Float types of FMIN, FMAX and FCMP (R255, R256). -/
inductive FTy2 where
  | f32 | f16x2
  deriving DecidableEq, Repr

/-- The rounding field of R252. -/
inductive Rm where
  | fmt | rne | rz | ru | rd
  deriving DecidableEq, Repr

/-- The format FCLASS reads (R257). -/
inductive ClassTy where
  | f32 | f16 | bf16
  deriving DecidableEq, Repr

/-- Types of FDOT2 (R259). -/
inductive FDot2Ty where
  | f16 | bf16
  deriving DecidableEq, Repr

/-- Types of FDOT4 (R259). -/
inductive FDot4Ty where
  | e4m3 | e5m2
  deriving DecidableEq, Repr

/-- The conversions of R260 with the modifiers each defines. -/
inductive CvtTy where
  | f32i32 (rm : Rm) | f32n32 (rm : Rm) | i32f32 (rm : Rm) | n32f32 (rm : Rm)
  | f16x2f32 (rm : Rm) | f32f16 (hi : Bool) | bf16x2f32 (rm : Rm) | f32bf16 (hi : Bool)
  | f32i16 (hi : Bool) | f32i8 (n : Fin 4)
  deriving DecidableEq, Repr

/-- Values of a lane in QSCALE (R262). -/
inductive QK where
  | x1 | x2 | x4
  deriving DecidableEq, Repr

/-- Access sizes of LD and ST (R271, R275). -/
inductive LdTy where
  | b8 | b16 | b32 | b64 | b128
  deriving DecidableEq, Repr

/-- Access sizes of LDC (R272). -/
inductive LdcTy where
  | b32 | b64 | b128
  deriving DecidableEq, Repr

/-- Access sizes of LDG, SCAT, LDE, LDR and FETCH. -/
inductive W2 where
  | b32 | b64
  deriving DecidableEq, Repr

/-- Operations of ATOM, in opcode order (R279). -/
inductive AtomOp where
  | addI32 | addI64 | addF32 | addF16x2 | addBf16x2
  | minI32 | minN32 | minI64 | minN64 | maxI32 | maxN32 | maxI64 | maxN64
  | andB32 | orB32 | xorB32 | andB64 | orB64 | incN32 | decN32 | exchB32 | exchB64 | casB32 | casB64
  deriving DecidableEq, Repr

/-- Memory scopes of R36. -/
inductive MScope where
  | warp | core | gang | die | pkg | sys
  deriving DecidableEq, Repr

/-- Orderings of R36. -/
inductive Order where
  | plain | acq | rel | acqrel
  deriving DecidableEq, Repr

/-- Cache policies of R36 and R63. -/
inductive Policy where
  | normal | stream | retain | bypass
  deriving DecidableEq, Repr

/-- Index mode and index register of R36. -/
inductive Index where
  | none
  | n16 (r : Reg) | i16 (r : Reg) | n32 (r : Reg) | i32 (r : Reg) | n64 (r : Reg)
  deriving DecidableEq, Repr

/-- The address fields of the M form (R36), without the offset. -/
structure Addr where
  base    : Reg
  index   : Index
  mscope  : MScope
  order   : Order
  policy  : Policy
  scale   : Fin 4
  fromLit : Bool
  deriving DecidableEq, Repr

/-- Directions of CPY (R314). -/
inductive CpyDir where
  | g2s | s2g | g2t | t2g | s2t | t2s
  deriving DecidableEq, Repr

/-- Operand of CPY that is a register or a tile. -/
inductive CpyOpd where
  | reg (r : Reg) | tile (m : Tile) | queue
  deriving DecidableEq, Repr

/-- A formats of MMA, in opcode order (R168, R330). -/
inductive MmaTy where
  | f32 | f16 | bf16 | e5m2 | e4m3 | e3m2 | e2m3 | e2m1 | i16 | i8 | n8 | i4 | n4 | oi4 | fx16 | fx32
  deriving DecidableEq, Repr

/-- A formats of MMAS, in opcode order (R333). -/
inductive MmasTy where
  | f16 | bf16 | e5m2 | e4m3 | e3m2 | e2m3 | e2m1 | i8
  deriving DecidableEq, Repr

/-- Source kinds of TCVT (R335) and TRED (R337). -/
inductive TSrc where
  | f32 | i32 | fx32
  deriving DecidableEq, Repr

/-- Types of TADD (R337). -/
inductive TAddTy where
  | f32 | i32 | i32sat | fx32
  deriving DecidableEq, Repr

/-! ## Operands of the steps that no word encodes -/

/-- A corrected error and where it is (R25, R357): in the pool of a core, an L2 slice, an LLC slice, the HBM behind an LLC
slice, a link of the package at an L2 slice, or the host link. -/
inductive Corrected where
  | pool (core : Nat) | l2 (slice : Nat) | llc (slice : Nat) | hbm (slice : Nat) | linkCrc (slice : Nat) | hostLink
  deriving DecidableEq, Repr

/-- What a parity extension finds of a damaged flit (R377, R378): the erroneous symbols, and whether the tag of the repaired
flit is correct. -/
structure Repair where
  symbols : Nat
  tagOk   : Bool
  deriving DecidableEq, Repr

/-- A direction of a link: what it sends, or what it receives (R378). -/
structure LinkEnd where
  link : Nat
  tx   : Bool
  deriving DecidableEq, Repr

/-- Which of the algorithms of R387 a request offers. -/
structure Offer where
  hash : Bool
  asym : Bool
  dhe  : Bool
  aead : Bool
  deriving DecidableEq, Repr

/-- What a request from another package asks for (R100). -/
inductive RemoteOp where
  | read (len : Nat) | own | write (data : List Byte) | atom (op : AtomOp) (v new : Word)
  deriving DecidableEq, Repr

/-- An update of an incumbent: value and witness (R299). -/
abbrev Upd := Half × Half

/-- What a peer sends about a line (R58, R100, R373, R374): the bytes a message asked for, a retry hint in µs, a cause,
PROTECTION or PAGE_FAULT, or the recall of a line the local LLC holds, with or without its invalidation; that an answer has
arrived; and that it has given up a line this package recalled, with the bytes where it had written them. -/
inductive PeerAnswer where
  | data (line : List Byte) | retry (us : Nat) | fault (protection : Bool) | recall (invalidate : Bool)
  | ack | released (data : Option (List Byte))
  deriving DecidableEq, Repr

/-- The instructions and steps of the machine. `h` holds the fields common to every word; register operands stand
in the order D, A, B, C of the word, then modifiers. The constructors after `tupd` have no word. -/
inductive Instr where
  -- integer, logic, packed (R229-R239)
  | add (h : Head) (t : AddTy) (d a b : Reg)
  | sub (h : Head) (t : AddTy) (d a b : Reg)
  | addsat (h : Head) (t : SatTy) (d a b : Reg)
  | subsat (h : Head) (t : SatTy) (d a b : Reg)
  | min (h : Head) (t : MinTy) (d a b : Reg)
  | max (h : Head) (t : MinTy) (d a b : Reg)
  | abs (h : Head) (t : AbsTy) (d a : Reg)
  | mul (h : Head) (d a b : Reg)
  | mulhi (h : Head) (t : Sgn) (d a b : Reg)
  | mad (h : Head) (d a b c : Reg)
  | madw (h : Head) (t : Sgn) (d a b c : Reg)
  | idiv (h : Head) (t : Sgn) (d a b : Reg)
  | irem (h : Head) (t : Sgn) (d a b : Reg)
  | dot2 (h : Head) (d a b c : Reg) (sat : Bool)
  | dot4 (h : Head) (t : Dot4Ty) (d a b c : Reg) (sat : Bool)
  | sad (h : Head) (d a b c : Reg)
  | lop3 (h : Head) (d a b c : Reg) (lut : BitVec 8)
  | shl (h : Head) (wide : Bool) (d a b : Reg)
  | shr (h : Head) (t : ShrTy) (d a b : Reg)
  | rot (h : Head) (d a b : Reg)
  | fsh (h : Head) (d a b c : Reg) (right : Bool)
  | shrr (h : Head) (d a b : Reg)
  | bfx (h : Head) (t : Sgn) (d a b c : Reg)
  | bfi (h : Head) (d a b c : Reg)
  | popc (h : Head) (d a : Reg)
  | clz (h : Head) (d a : Reg)
  | brev (h : Head) (d a : Reg)
  | ffs (h : Head) (d a : Reg)
  | cmp (h : Head) (t : CmpTy) (d : Pred) (a b : Reg) (cond : Cond) (e : Pred)
  | sel (h : Head) (d a b : Reg) (p : Pred) (neg : Bool)
  | plop (h : Head) (d a b c : Pred) (lut : BitVec 8)
  | pmovGet (h : Head) (d : Reg)
  | pmovSet (h : Head) (a : Reg) (mask : BitVec 7)
  | mov (h : Head) (d a : Reg)
  | movi (h : Head) (d : Reg) (imm : BitVec 28)
  | movu (h : Head) (d : Reg) (imm : BitVec 28)
  | lea (h : Head) (t : Sgn) (d a b : Reg) (s : Fin 4)
  | pack (h : Head) (t : PackTy) (d a b : Reg)
  | unpack (h : Head) (d a : Reg)
  -- lane exchange (R241-R249)
  | shfl (h : Head) (m : ShflMode) (d a b c : Reg) (keep : Bool) (e : Fin 6) (pd : Pred)
  | slide (h : Head) (half : Bool) (d a b c : Reg) (down : Bool) (pd : Pred)
  | vote (h : Head) (t : VoteOp) (a : Pred) (neg : Bool)
  | matchLanes (h : Head) (d a : Reg) (pd : Pred)
  | reduce (h : Head) (t : RedTy) (d a : Reg) (op : RedOp) (mem : Bool)
  | scan (h : Head) (t : ScanTy) (d a : Reg) (op : RedOp) (excl mem : Bool)
  | intersect (h : Head) (d a b c : Reg)
  | compact (h : Head) (d a b c : Reg) (p : Pred) (neg : Bool)
  | xpair (h : Head) (d a : Reg)
  | xswap (h : Head) (d a : Reg) (pd : Pred)
  -- floating point and conversion (R253-R265)
  | fadd (h : Head) (t : FTy) (d a b : Reg) (rm : Rm)
  | fsub (h : Head) (t : FTy) (d a b : Reg) (rm : Rm)
  | fmul (h : Head) (t : FTy) (d a b : Reg) (rm : Rm)
  | ffma (h : Head) (t : FTy) (d a b c : Reg) (rm : Rm)
  | ffmaw (h : Head) (d a b c : Reg) (rm : Rm) (bf16 hi : Bool)
  | fmin (h : Head) (t : FTy2) (d a b : Reg)
  | fmax (h : Head) (t : FTy2) (d a b : Reg)
  | fcmp (h : Head) (t : FTy2) (d : Pred) (a b : Reg) (cond : FCond) (e : Pred)
  | frnd (h : Head) (d a : Reg) (rm : Rm)
  | fscale (h : Head) (d a b : Reg) (rm : Rm)
  | fclass (h : Head) (d a : Reg) (t : ClassTy)
  | frcp (h : Head) (d a : Reg) (rm : Rm)
  | fsqrt (h : Head) (d a : Reg) (rm : Rm)
  | frsq (h : Head) (d a : Reg)
  | fexp2 (h : Head) (d a : Reg)
  | flog2 (h : Head) (d a : Reg)
  | fsin (h : Head) (d a : Reg)
  | fcos (h : Head) (d a : Reg)
  | ftanh (h : Head) (d a : Reg)
  | fdot2 (h : Head) (t : FDot2Ty) (d a b c : Reg) (rm : Rm)
  | fdot4 (h : Head) (t : FDot4Ty) (d a b c : Reg) (rm : Rm)
  | cvt (h : Head) (t : CvtTy) (d a b : Reg)
  | fxcvtTo (h : Head) (d a : Reg) (fx16 : Bool)
  | fxcvtFrom (h : Head) (d a : Reg) (fx16 : Bool) (rm : Rm)
  | qscale (h : Head) (k : QK) (d a b : Reg)
  | qpack (h : Head) (d a b c : Reg) (rm : Rm) (h1 : Bool)
  | qunpack (h : Head) (d a b : Reg) (n : Fin 4) (rm : Rm)
  | setfmt (h : Head) (d a b : Reg)
  -- memory, existence, atomics, residency (R267-R286, R80-R82)
  | ld (h : Head) (t : LdTy) (d : Reg) (m : Addr) (off : BitVec 7)
  | ldc (h : Head) (t : LdcTy) (d : Reg) (m : Addr) (off : BitVec 7)
  | ldg (h : Head) (t : W2) (d : Reg) (pd : Pred) (m : Addr) (off : BitVec 4)
  | ldr (h : Head) (t : W2) (d : Reg) (pd : Pred) (m : Addr) (off : BitVec 4)
  | st (h : Head) (t : LdTy) (d : Reg) (m : Addr) (off : BitVec 7)
  | scat (h : Head) (t : W2) (d : Reg) (m : Addr) (off : BitVec 7)
  | lde (h : Head) (t : W2) (d : Reg) (pd : Pred) (m : Addr) (off : BitVec 4)
  | ealloc (h : Head) (d : Reg) (m : Addr) (off : BitVec 7)
  | erase (h : Head) (m : Addr) (off : BitVec 7)
  | eraser (h : Head) (d : Reg) (m : Addr) (off : BitVec 7)
  | etest (h : Head) (d : Reg) (m : Addr) (off : BitVec 7)
  | atom (h : Head) (op : AtomOp) (d : Reg) (m : Addr) (off : BitVec 7)
  | fence (h : Head) (order : Order) (s : MScope)
  | tokenTake (h : Head)
  | tokenPass (h : Head)
  | prefetch (h : Head) (m : Addr) (off : BitVec 7)
  | reserve (h : Head) (d : Reg) (m : Addr) (off : BitVec 7)
  | discard (h : Head) (m : Addr) (off : BitVec 7)
  | reqpage (h : Head) (m : Addr) (off : BitVec 7)
  -- control, spawning, incumbents, synchronisation (R289-R306)
  | bra (h : Head) (target reconv : BitVec 14)
  | brx (h : Head) (a : Reg) (reconv : BitVec 12)
  | call (h : Head) (d : Reg) (target reconv : BitVec 14)
  | callx (h : Head) (d a : Reg) (reconv : BitVec 12)
  | ret (h : Head) (a : Reg)
  | exit (h : Head)
  | rejoin (h : Head)
  | join (h : Head) (a : Reg)
  | leave (h : Head)
  | nop (h : Head)
  | spawn (h : Head) (a b c : Reg) (pd : Pred) (n : Fin 9)
  | launch (h : Head) (d a : Reg) (pd : Pred)
  | lwait (h : Head) (d a : Reg) (pd : Pred) (test : Bool)
  | kinit (h : Head) (a : Reg) (k : Fin 16) (dirMin f32 : Bool)
  | kupd (h : Head) (f32 : Bool) (a b : Reg) (k : Fin 16) (rel : Bool)
  | kread (h : Head) (d : Reg) (k : Fin 16) (acq : Bool)
  | check (h : Head) (d : Pred) (a : Reg)
  | abinit (h : Head) (a b c : Reg)
  | abarrive (h : Head) (d a b : Reg)
  | abwait (h : Head) (a b : Reg) (gen : Bool)
  | qinit (h : Head) (a b c : Reg) (q : Fin 8)
  | qacqFree (h : Head) (d : Reg) (q : Fin 8)
  | qacqFull (h : Head) (d : Reg) (q : Fin 8)
  | qrelFull (h : Head) (q : Fin 8)
  | qrelFree (h : Head) (q : Fin 8)
  | trap (h : Head) (a : Reg) (code : BitVec 12)
  | tret (h : Head)
  | getsr (h : Head) (d : Reg) (sr : BitVec 12)
  | setsr (h : Head) (a : Reg) (sr : BitVec 12)
  | yield (h : Head) (a : Reg)
  | prio (h : Head) (a : Reg)
  -- pool, stash, copy engine, binning, fetch unit (R309-R326)
  | poolset (h : Head) (d a : Reg)
  | poolq (h : Head) (d : Reg) (n : Fin 32)
  | talloc (h : Head) (m : Tile)
  | tfree (h : Head) (m : Tile)
  | stash (h : Head) (a b c : Reg) (w : Fin 4)
  | unstash (h : Head) (w : Fin 4)
  | cpy (h : Head) (dir : CpyDir) (d a : CpyOpd) (b c : Reg) (twoD ab : Bool) (q : Fin 8) (s : MScope)
  | cpyh (h : Head) (d a b c : Reg) (size : Fin 8) (s : MScope)
  | binc (h : Head) (a b c : Reg)
  | binp (h : Head)
  | crel (h : Head)
  | fhnd (h : Head) (a : Reg) (n : Fin 8)
  | fetch (h : Head) (t : W2) (d a b : Reg) (n : Fin 8) (pd : Pred)
  -- matrix engine and solver (R330-R343)
  | mma (h : Head) (t : MmaTy) (d a b c : Tile) (sat bs : Bool)
  | mmas (h : Head) (t : MmasTy) (d a b c : Tile) (sat bs : Bool)
  | tzero (h : Head) (d : Tile)
  | tfill (h : Head) (d : Tile) (a : Reg)
  | tcvt (h : Head) (d a : Tile) (p : Fin 8) (src : TSrc)
  | ttrans (h : Head) (d a : Tile) (w : Fin 4)
  | tadd (h : Head) (d a b : Tile) (t : TAddTy)
  | tred (h : Head) (d : Reg) (a : Tile) (col : Bool) (op : RedOp) (t : TSrc)
  | ttov (h : Head) (d : Reg) (a : Tile) (b : Reg)
  | vtot (h : Head) (d : Tile) (a b : Reg)
  | tlu (h : Head) (d : Tile) (a b : Reg) (n : Fin 32) (fx16 : Bool)
  | ttrsLower (h : Head) (d a : Tile) (b : Reg) (n : Fin 32) (fx16 p : Bool)
  | ttrsUpper (h : Head) (d a : Tile) (n : Fin 32) (fx16 : Bool)
  | tjac (h : Head) (d : Reg) (a : Tile) (b c : Reg) (n : Fin 32) (fx16 : Bool) (pd : Pred)
  | tupd (h : Head) (d : Tile) (a b : Reg) (fx16 : Bool)
  -- completions of commands in flight, named by their number
  | xswapCompletion (id : Nat)
  | loadCompletion (id : Nat)
  | existenceCompletion (id : Nat)
  | atomPerform (id : Nat)
  | launchCompletion (id : Nat)
  | kreadCompletion (id : Nat)
  | unstashCompletion (id : Nat)
  | cpyQueueSlotTake (id : Nat)
  | copyCommandCompletion (id : Nat)
  | binCommandCompletion (id : Nat)
  | fetchCompletion (id : Nat)
  | tjacSweepEnd (id : Nat)
  | matrixCommandCompletion (id : Nat)
  | matrixTransientError (id : Nat)
  | invalidationComplete (id : Nat)
  | descriptorReloadComplete (id : Nat)
  -- steps of cores, of the packer and of placement
  | packWarp (core : Nat)
  | incumbentUpdateArrival (part k : Nat) (f32 : Bool) (ups : List Upd)
  | incumbentCopyUpdate (core : Nat)
  | yieldExpiry (warp idx : Nat)
  | splitDrainEnd (core : Nat)
  | splitRelocateEnd (core : Nat)
  | splitRemapEnd (core : Nat)
  | stashWriteback (block window : Nat)
  | clauseHeaderFetch
  | splitAged (warp idx : Nat)
  | warpPreempt (warp : Nat)
  | launchSlotArm (part slot : Nat) (arm : Half)
  | blockPlacement (part : Nat)
  | blockRetire (kernel : Nat)
  -- translation, migration, lines and errors
  | pageWalk (part asid : Nat) (va : Word)
  | pageMigration (part asid : Nat) (va : Word)
  | lineEviction (core line : Nat)
  | correctedError (part : Nat) (c : Corrected)
  | uncorrectableError (part line : Nat) (dirty : Bool)
  -- the fabric
  | remoteRequest (part spkg spart : Nat) (va : Word) (op : RemoteOp)
  | remoteResend (n : Nat)
  | fabricPeerResponse (line : Nat) (answer : PeerAnswer)
  | fabricDeliveryTimeout (line : Nat) (dirty : Bool)
  | flitReceive (part link : Nat) (payload : List Byte) (keyBit : Nat) (crcOk tagOk : Bool)
  | parityExtensionReceive (link : Nat) (repair : Repair)
  | planeRemap (plane : Nat) (up : Bool)
  | remapAcknowledge
  | routeUpdate (dest version : Nat)
  | keyRotation (link : LinkEnd)
  -- the host, the mailbox, SPDM, keys and reset
  | hostCxlWrite (addr : Word) (data : List Byte)
  | hostCxlRead (addr : Word) (len : Nat)
  | create (arg0 arg1 : Half)
  | destroy (arg0 : Half)
  | swapout (arg0 : Half)
  | haltComplete (part : Nat)
  | haltTimeout (part : Nat)
  | swapin (arg0 : Half)
  | fwstage (arg0 arg1 : Half) (image : List Byte)
  | getVersion (inst : Nat)
  | getCapabilities (inst : Nat)
  | negotiateAlgorithms (inst : Nat) (offered : Offer)
  | getDigests (inst : Nat)
  | getCertificate (inst slot : Nat)
  | challenge (inst slot : Nat) (nonce : List Byte)
  | getMeasurements (inst index : Nat) (nonce : List Byte)
  | keyExchange (inst : Nat) (exchange : List Byte)
  | finish (inst : Nat) (verify : List Byte)
  | endSession (inst : Nat)
  | unsupportedRequest (inst : Nat)
  | sealRequest (inst : Nat) (record : List Byte)
  | keyload (inst : Nat) (record : List Byte)
  | keydrop (inst : Nat) (record : List Byte)
  | packageReset
  | clockStepChange (clk : Nat) (therm power : Bool)
  -- register-side steps
  | tlbinvAddress (part : Nat) (value : Half)
  | tlbinvAsid (part : Nat) (value : Half)
  | tlbinvPartition (part : Nat) (value : Half)
  | qpost (part : Nat) (frame : Half)
  | qpop (warp : Nat) (d : Reg)
  | rgnselWrite (part : Nat) (value : Half)
  | reservationRangeWrite (part reg : Nat) (value : Half)
  | tscloRead (warp : Nat) (d : Reg)
  | systemRegisterWrite (warp idx : Nat) (sr : BitVec 12) (value : Half)
  -- a word whose opcode is unassigned (R209)
  | illegalOpcode (w : Word)
  deriving DecidableEq, Repr

end Sys2Proof
end

