-- ==== Sys2Proof/Machine/Encoding.lean ====
section
/-! DEFINITION. The encoding tables of R201 to R209: register codes, modifier codes, the opcode map with its class
and scopes, and the operand fields of every instruction's word. -/

namespace Sys2Proof

/-! ## Bit fields -/

/-- The word whose fields, lowest first, have the given widths and values. -/
def glue : List (Nat × Nat) → Nat
  | [] => 0
  | (w, x) :: r => x + 2 ^ w * glue r

/-- The fields of a number, lowest first, by width; the last item is what remains above them. -/
def cut : List Nat → Nat → List Nat
  | [], n => [n]
  | w :: ws, n => n % 2 ^ w :: cut ws (n / 2 ^ w)

/-! ## Registers -/

/-- The register name of R207. -/
def Reg.code : Reg → Nat
  | .v i => i.val
  | .s i => 0xC0 + i.val
  | .lid => 0xF0 | .wid => 0xF1 | .bid => 0xF2 | .sid => 0xF3 | .bnd => 0xF4 | .kw => 0xF5 | .fmt => 0xF6
  | .fst => 0xF7 | .zero => 0xF8 | .ones => 0xF9 | .lit => 0xFA | .gid => 0xFB | .clk => 0xFC

/-- The register a name of R207 stands for; 0xFD-0xFF name none. -/
def Reg.ofCode (n : Nat) : Option Reg :=
  if h : n < 192 then some (.v ⟨n, h⟩)
  else if h : n - 192 < 48 then some (.s ⟨n - 192, h⟩)
  else match n - 0xF0 with
    | 0 => some .lid | 1 => some .wid | 2 => some .bid | 3 => some .sid | 4 => some .bnd | 5 => some .kw
    | 6 => some .fmt | 7 => some .fst | 8 => some .zero | 9 => some .ones | 10 => some .lit | 11 => some .gid
    | 12 => some .clk | _ => none

/-- What a card accepts in a register position (R207, R208, R268, R36). -/
inductive RegClass where
  /-- any name that can be read -/
  | read
  /-- any name that can be written -/
  | write
  /-- a 64-bit operand (R208) -/
  | pair
  /-- a 128-bit operand, or a pair of pairs (R268, R278) -/
  | quad
  /-- four consecutive registers read one by one (R314) -/
  | quadReg
  /-- a 4-byte D of a memory instruction (R268) -/
  | dest4
  /-- an M-form base, or where a call leaves its return address (R36, R289) -/
  | base
  /-- an M-form 32-bit index (R36) -/
  | index
  /-- an even v or s register: an M-form 64-bit index, a branch target, a record or entry address (R36, R289, R294, R296) -/
  | evenReg
  /-- an even s register (R246, R342) -/
  | sPair
  /-- an s register or zero (R247) -/
  | sZero
  /-- an s register (R339) -/
  | sReg
  /-- a vector register (R339, R342) -/
  | vReg
  /-- `n` consecutive v or s registers (R294) -/
  | run (n : Nat)
  deriving DecidableEq, Repr

/-- Whether a position of this class accepts the register. -/
def RegClass.ok : RegClass → Reg → Bool
  | .read, _ => true
  | .write, r => match r with
    | .v _ | .s _ | .bnd | .kw | .fmt | .fst | .zero | .ones => true
    | _ => false
  | .pair, r => match r with
    | .v i => i.val % 2 == 0 | .s i => i.val % 2 == 0 | .zero | .ones => true
    | _ => false
  | .quad, r => match r with
    | .v i => i.val % 4 == 0 | .s i => i.val % 4 == 0 | .zero | .ones => true
    | _ => false
  | .quadReg, r => match r with
    | .v i => i.val % 4 == 0 | .s i => i.val % 4 == 0
    | _ => false
  | .dest4, r => match r with
    | .v _ | .s _ | .zero | .ones => true
    | _ => false
  | .base, r => match r with
    | .v i => i.val % 2 == 0 | .s i => i.val % 2 == 0 | .zero => true
    | _ => false
  | .index, r => match r with
    | .v _ | .s _ | .lid | .wid | .bid | .sid | .gid => true
    | _ => false
  | .evenReg, r => match r with
    | .v i => i.val % 2 == 0 | .s i => i.val % 2 == 0
    | _ => false
  | .sPair, r => match r with
    | .s i => i.val % 2 == 0
    | _ => false
  | .sZero, r => match r with
    | .s _ | .zero => true
    | _ => false
  | .sReg, r => match r with
    | .s _ => true
    | _ => false
  | .vReg, r => match r with
    | .v _ => true
    | _ => false
  | .run n, r => n == 0 || match r with
    | .v i => decide (i.val + n ≤ 192) | .s i => decide (i.val + n ≤ 48)
    | _ => false

/-- A last-use bit may mark only a vector register (R204). -/
def Reg.isVector : Reg → Bool
  | .v _ => true
  | _ => false

/-! ## Modifier codes -/

/-- The code of each value (R229). -/
def AddTy.code : AddTy → Nat
  | .i32 => 0
  | .i64 => 1
  | .i16x2 => 2
  | .i8x4 => 3
/-- The value of each code (R229). -/
def AddTy.of : Nat → AddTy
  | 0 => .i32
  | 1 => .i64
  | 2 => .i16x2
  | _ => .i8x4

/-- The code of each value (R229). -/
def SatTy.code : SatTy → Nat
  | .i32 => 0
  | .n32 => 1
  | .i16x2 => 2
  | .i8x4 => 3
/-- The value of each code (R229). -/
def SatTy.of : Nat → SatTy
  | 0 => .i32
  | 1 => .n32
  | 2 => .i16x2
  | _ => .i8x4

/-- The code of each value (R229). -/
def MinTy.code : MinTy → Nat
  | .i32 => 0
  | .n32 => 1
  | .i64 => 2
  | .n64 => 3
  | .i16x2 => 4
  | .i8x4 => 5
/-- The value of each code (R229). -/
def MinTy.of : Nat → MinTy
  | 0 => .i32
  | 1 => .n32
  | 2 => .i64
  | 3 => .n64
  | 4 => .i16x2
  | _ => .i8x4

/-- The code of each value (R229). -/
def AbsTy.code : AbsTy → Nat
  | .i32 => 0
  | .i16x2 => 1
/-- The value of each code (R229). -/
def AbsTy.of : Nat → AbsTy
  | 0 => .i32
  | _ => .i16x2

/-- The code of each value (R228). -/
def Sgn.code : Sgn → Nat
  | .i32 => 0
  | .n32 => 1
/-- The value of each code (R228). -/
def Sgn.of : Nat → Sgn
  | 0 => .i32
  | _ => .n32

/-- The code of each value (R231). -/
def Dot4Ty.code : Dot4Ty → Nat
  | .i8 => 0
  | .n8 => 1
  | .i8n8 => 2
/-- The value of each code (R231). -/
def Dot4Ty.of : Nat → Dot4Ty
  | 0 => .i8
  | 1 => .n8
  | _ => .i8n8

/-- The code of each value (R233). -/
def ShrTy.code : ShrTy → Nat
  | .n32 => 0
  | .i32 => 1
  | .n64 => 2
  | .i64 => 3
/-- The value of each code (R233). -/
def ShrTy.of : Nat → ShrTy
  | 0 => .n32
  | 1 => .i32
  | 2 => .n64
  | _ => .i64

/-- The code of each value (R235). -/
def CmpTy.code : CmpTy → Nat
  | .i32 => 0
  | .n32 => 1
  | .i64 => 2
  | .n64 => 3
  | .i16x2 => 4
/-- The value of each code (R235). -/
def CmpTy.of : Nat → CmpTy
  | 0 => .i32
  | 1 => .n32
  | 2 => .i64
  | 3 => .n64
  | _ => .i16x2

/-- The code of each value (R239). -/
def PackTy.code : PackTy → Nat
  | .i16x2 => 0
  | .i8x4 => 1
/-- The value of each code (R239). -/
def PackTy.of : Nat → PackTy
  | 0 => .i16x2
  | _ => .i8x4

/-- The code of each value (R241). -/
def ShflMode.code : ShflMode → Nat
  | .idx => 0
  | .up => 1
  | .down => 2
  | .xor => 3
/-- The value of each code (R241). -/
def ShflMode.of : Nat → ShflMode
  | 0 => .idx
  | 1 => .up
  | 2 => .down
  | _ => .xor

/-- The code of each value (R244). -/
def RedTy.code : RedTy → Nat
  | .i32 => 0
  | .n32 => 1
  | .f32 => 2
  | .i64 => 3
/-- The value of each code (R244). -/
def RedTy.of : Nat → RedTy
  | 0 => .i32
  | 1 => .n32
  | 2 => .f32
  | _ => .i64

/-- The code of each value (R245). -/
def ScanTy.code : ScanTy → Nat
  | .i32 => 0
  | .f32 => 1
/-- The value of each code (R245). -/
def ScanTy.of : Nat → ScanTy
  | 0 => .i32
  | _ => .f32

/-- The code of each value (R253). -/
def FTy.code : FTy → Nat
  | .f32 => 0
  | .f16x2 => 1
  | .bf16x2 => 2
/-- The value of each code (R253). -/
def FTy.of : Nat → FTy
  | 0 => .f32
  | 1 => .f16x2
  | _ => .bf16x2

/-- The code of each value (R255). -/
def FTy2.code : FTy2 → Nat
  | .f32 => 0
  | .f16x2 => 1
/-- The value of each code (R255). -/
def FTy2.of : Nat → FTy2
  | 0 => .f32
  | _ => .f16x2

/-- The code of each value (R259). -/
def FDot2Ty.code : FDot2Ty → Nat
  | .f16 => 0
  | .bf16 => 1
/-- The value of each code (R259). -/
def FDot2Ty.of : Nat → FDot2Ty
  | 0 => .f16
  | _ => .bf16

/-- The code of each value (R259). -/
def FDot4Ty.code : FDot4Ty → Nat
  | .e4m3 => 0
  | .e5m2 => 1
/-- The value of each code (R259). -/
def FDot4Ty.of : Nat → FDot4Ty
  | 0 => .e4m3
  | _ => .e5m2

/-- The code of each value (R267). -/
def LdTy.code : LdTy → Nat
  | .b8 => 0
  | .b16 => 1
  | .b32 => 2
  | .b64 => 3
  | .b128 => 4
/-- The value of each code (R267). -/
def LdTy.of : Nat → LdTy
  | 0 => .b8
  | 1 => .b16
  | 2 => .b32
  | 3 => .b64
  | _ => .b128

/-- The code of each value (R267). -/
def LdcTy.code : LdcTy → Nat
  | .b32 => 0
  | .b64 => 1
  | .b128 => 2
/-- The value of each code (R267). -/
def LdcTy.of : Nat → LdcTy
  | 0 => .b32
  | 1 => .b64
  | _ => .b128

/-- The code of each value (R267). -/
def W2.code : W2 → Nat
  | .b32 => 0
  | .b64 => 1
/-- The value of each code (R267). -/
def W2.of : Nat → W2
  | 0 => .b32
  | _ => .b64

/-- The code of each value (R279). -/
def AtomOp.code : AtomOp → Nat
  | .addI32 => 0
  | .addI64 => 1
  | .addF32 => 2
  | .addF16x2 => 3
  | .addBf16x2 => 4
  | .minI32 => 5
  | .minN32 => 6
  | .minI64 => 7
  | .minN64 => 8
  | .maxI32 => 9
  | .maxN32 => 10
  | .maxI64 => 11
  | .maxN64 => 12
  | .andB32 => 13
  | .orB32 => 14
  | .xorB32 => 15
  | .andB64 => 16
  | .orB64 => 17
  | .incN32 => 18
  | .decN32 => 19
  | .exchB32 => 20
  | .exchB64 => 21
  | .casB32 => 22
  | .casB64 => 23
/-- The value of each code (R279). -/
def AtomOp.of : Nat → AtomOp
  | 0 => .addI32
  | 1 => .addI64
  | 2 => .addF32
  | 3 => .addF16x2
  | 4 => .addBf16x2
  | 5 => .minI32
  | 6 => .minN32
  | 7 => .minI64
  | 8 => .minN64
  | 9 => .maxI32
  | 10 => .maxN32
  | 11 => .maxI64
  | 12 => .maxN64
  | 13 => .andB32
  | 14 => .orB32
  | 15 => .xorB32
  | 16 => .andB64
  | 17 => .orB64
  | 18 => .incN32
  | 19 => .decN32
  | 20 => .exchB32
  | 21 => .exchB64
  | 22 => .casB32
  | _ => .casB64

/-- The code of each value (R36). -/
def Order.code : Order → Nat
  | .plain => 0
  | .acq => 1
  | .rel => 2
  | .acqrel => 3
/-- The value of each code (R36). -/
def Order.of : Nat → Order
  | 0 => .plain
  | 1 => .acq
  | 2 => .rel
  | _ => .acqrel

/-- The code of each value (R36). -/
def Policy.code : Policy → Nat
  | .normal => 0
  | .stream => 1
  | .retain => 2
  | .bypass => 3
/-- The value of each code (R36). -/
def Policy.of : Nat → Policy
  | 0 => .normal
  | 1 => .stream
  | 2 => .retain
  | _ => .bypass

/-- The code of each value (R314). -/
def CpyDir.code : CpyDir → Nat
  | .g2s => 0
  | .s2g => 1
  | .g2t => 2
  | .t2g => 3
  | .s2t => 4
  | .t2s => 5
/-- The value of each code (R314). -/
def CpyDir.of : Nat → CpyDir
  | 0 => .g2s
  | 1 => .s2g
  | 2 => .g2t
  | 3 => .t2g
  | 4 => .s2t
  | _ => .t2s

/-- The code of each value (R330). -/
def MmaTy.code : MmaTy → Nat
  | .f32 => 0
  | .f16 => 1
  | .bf16 => 2
  | .e5m2 => 3
  | .e4m3 => 4
  | .e3m2 => 5
  | .e2m3 => 6
  | .e2m1 => 7
  | .i16 => 8
  | .i8 => 9
  | .n8 => 10
  | .i4 => 11
  | .n4 => 12
  | .oi4 => 13
  | .fx16 => 14
  | .fx32 => 15
/-- The value of each code (R330). -/
def MmaTy.of : Nat → MmaTy
  | 0 => .f32
  | 1 => .f16
  | 2 => .bf16
  | 3 => .e5m2
  | 4 => .e4m3
  | 5 => .e3m2
  | 6 => .e2m3
  | 7 => .e2m1
  | 8 => .i16
  | 9 => .i8
  | 10 => .n8
  | 11 => .i4
  | 12 => .n4
  | 13 => .oi4
  | 14 => .fx16
  | _ => .fx32

/-- The code of each value (R333). -/
def MmasTy.code : MmasTy → Nat
  | .f16 => 0
  | .bf16 => 1
  | .e5m2 => 2
  | .e4m3 => 3
  | .e3m2 => 4
  | .e2m3 => 5
  | .e2m1 => 6
  | .i8 => 7
/-- The value of each code (R333). -/
def MmasTy.of : Nat → MmasTy
  | 0 => .f16
  | 1 => .bf16
  | 2 => .e5m2
  | 3 => .e4m3
  | 4 => .e3m2
  | 5 => .e2m3
  | 6 => .e2m1
  | _ => .i8

/-- The code of each value (R334). -/
def TAddTy.code : TAddTy → Nat
  | .f32 => 0
  | .i32 => 1
  | .i32sat => 2
  | .fx32 => 3
/-- The value of each code (R334). -/
def TAddTy.of : Nat → TAddTy
  | 0 => .f32
  | 1 => .i32
  | 2 => .i32sat
  | _ => .fx32

/-- The code of each value (R201). -/
def Scope.code : Scope → Nat
  | .lane => 0
  | .warp => 1
  | .set => 2
  | .block => 3
/-- The value of each code (R201). -/
def Scope.of : Nat → Scope
  | 0 => .lane
  | 1 => .warp
  | 2 => .set
  | _ => .block

/-- The code of each value (R235). -/
def Cond.code : Cond → Nat
  | .eq => 0
  | .ne => 1
  | .lt => 2
  | .le => 3
  | .gt => 4
  | .ge => 5
/-- The value of a code, if it is legal (R235). -/
def Cond.of : Nat → Option Cond
  | 0 => some .eq
  | 1 => some .ne
  | 2 => some .lt
  | 3 => some .le
  | 4 => some .gt
  | 5 => some .ge
  | _ => Option.none

/-- The code of each value (R256). -/
def FCond.code : FCond → Nat
  | .eq => 0
  | .ne => 1
  | .lt => 2
  | .le => 3
  | .gt => 4
  | .ge => 5
  | .ord => 6
  | .uno => 7
/-- The value of a code, if it is legal (R256). -/
def FCond.of : Nat → Option FCond
  | 0 => some .eq
  | 1 => some .ne
  | 2 => some .lt
  | 3 => some .le
  | 4 => some .gt
  | 5 => some .ge
  | 6 => some .ord
  | 7 => some .uno
  | _ => Option.none

/-- The code of each value (R244). -/
def RedOp.code : RedOp → Nat
  | .add => 0
  | .min => 1
  | .max => 2
/-- The value of a code, if it is legal (R244). -/
def RedOp.of : Nat → Option RedOp
  | 0 => some .add
  | 1 => some .min
  | 2 => some .max
  | _ => Option.none

/-- The code of each value (R252). -/
def Rm.code : Rm → Nat
  | .fmt => 0
  | .rne => 4
  | .rz => 5
  | .ru => 6
  | .rd => 7
/-- The value of a code, if it is legal (R252). -/
def Rm.of : Nat → Option Rm
  | 0 => some .fmt
  | 4 => some .rne
  | 5 => some .rz
  | 6 => some .ru
  | 7 => some .rd
  | _ => Option.none

/-- The code of each value (R257). -/
def ClassTy.code : ClassTy → Nat
  | .f32 => 0
  | .f16 => 1
  | .bf16 => 2
/-- The value of a code, if it is legal (R257). -/
def ClassTy.of : Nat → Option ClassTy
  | 0 => some .f32
  | 1 => some .f16
  | 2 => some .bf16
  | _ => Option.none

/-- The code of each value (R262). -/
def QK.code : QK → Nat
  | .x1 => 0
  | .x2 => 1
  | .x4 => 2
/-- The value of a code, if it is legal (R262). -/
def QK.of : Nat → Option QK
  | 0 => some .x1
  | 1 => some .x2
  | 2 => some .x4
  | _ => Option.none

/-- The code of each value (R36). -/
def MScope.code : MScope → Nat
  | .warp => 0
  | .core => 1
  | .gang => 2
  | .die => 3
  | .pkg => 4
  | .sys => 5
/-- The value of a code, if it is legal (R36). -/
def MScope.of : Nat → Option MScope
  | 0 => some .warp
  | 1 => some .core
  | 2 => some .gang
  | 3 => some .die
  | 4 => some .pkg
  | 5 => some .sys
  | _ => Option.none

/-- The code of each value (R335). -/
def TSrc.code : TSrc → Nat
  | .f32 => 0
  | .i32 => 1
  | .fx32 => 2
/-- The value of a code, if it is legal (R335). -/
def TSrc.of : Nat → Option TSrc
  | 0 => some .f32
  | 1 => some .i32
  | 2 => some .fx32
  | _ => Option.none

/-- The code of each value (R201). -/
def Flag.code : Flag → Nat
  | .none => 0
  | .a => 1
  | .b => 2
/-- The value of a code, if it is legal (R201). -/
def Flag.of : Nat → Option Flag
  | 0 => some .none
  | 1 => some .a
  | 2 => some .b
  | _ => Option.none

/-- Whether the element is a register pair (R228). -/
def AddTy.wide (t : AddTy) : Bool := t == .i64
/-- Whether the element is a register pair (R228). -/
def MinTy.wide (t : MinTy) : Bool := t == .i64 || t == .n64
/-- Whether the element is a register pair (R233). -/
def ShrTy.wide (t : ShrTy) : Bool := t == .i64 || t == .n64
/-- Whether the element is a register pair (R235). -/
def CmpTy.wide (t : CmpTy) : Bool := t == .i64 || t == .n64
/-- Whether the element is a register pair (R244). -/
def RedTy.wide (t : RedTy) : Bool := t == .i64
/-- Whether the access is 8 bytes. -/
def W2.wide (t : W2) : Bool := t == .b64
/-- The formats whose MMA accepts .sat (R330). -/
def MmaTy.isInt (t : MmaTy) : Bool := t == .i16 || t == .i8 || t == .n8 || t == .i4 || t == .n4
/-- The formats whose MMAS accepts .sat (R333). -/
def MmasTy.isInt (t : MmasTy) : Bool := t == .i8

/-- The register class of D by access size (R268). -/
def LdTy.dcls : LdTy → RegClass
  | .b8 | .b16 | .b32 => .dest4
  | .b64 => .pair
  | .b128 => .quad
/-- The register class of D by access size (R268). -/
def LdcTy.dcls : LdcTy → RegClass
  | .b32 => .dest4
  | .b64 => .pair
  | .b128 => .quad
/-- The register class of D by access size (R268). -/
def W2.dcls : W2 → RegClass
  | .b32 => .dest4
  | .b64 => .pair
/-- The register class of D by operation (R278). -/
def AtomOp.dcls : AtomOp → RegClass
  | .addI64 | .minI64 | .minN64 | .maxI64 | .maxN64 | .andB64 | .orB64 | .exchB64 | .casB32 => .pair
  | .casB64 => .quad
  | _ => .dest4

/-- Bit [2] of LEA's modifier (R238). -/
def Sgn.leaBit : Sgn → Nat
  | .n32 => 0
  | .i32 => 1
/-- The sign of LEA's index by its modifier bit (R238). -/
def Sgn.ofLeaBit (n : Nat) : Sgn := if n = 1 then .i32 else .n32

/-- The opcode offset of a vote (R243). -/
def VoteOp.code : VoteOp → Nat
  | .any _ => 0 | .all _ => 1 | .ballot _ _ => 2
/-- The D field of a vote (R243). -/
def VoteOp.dCode : VoteOp → Nat
  | .any d => d.val | .all d => d.val | .ballot d _ => d.code
/-- The .cnt bit of a vote (R243). -/
def VoteOp.cnt : VoteOp → Bool
  | .ballot _ c => c
  | _ => false
/-- The destination rule of a vote (R243). -/
def VoteOp.ok : VoteOp → Bool
  | .ballot d _ => RegClass.ok .write d
  | _ => true

/-- The opcode offset of a conversion (R260). -/
def CvtTy.code : CvtTy → Nat
  | .f32i32 _ => 0 | .f32n32 _ => 1 | .i32f32 _ => 2 | .n32f32 _ => 3 | .f16x2f32 _ => 4
  | .f32f16 _ => 5 | .bf16x2f32 _ => 6 | .f32bf16 _ => 7 | .f32i16 _ => 8 | .f32i8 _ => 9
/-- Whether the conversion reads B (R260). -/
def CvtTy.two : CvtTy → Bool
  | .f16x2f32 _ | .bf16x2f32 _ => true
  | _ => false
/-- The modifier of a conversion (R260). -/
def CvtTy.modifier : CvtTy → Nat
  | .f32i32 rm | .f32n32 rm | .i32f32 rm | .n32f32 rm | .f16x2f32 rm | .bf16x2f32 rm =>
    glue [(3, rm.code), (9, 0), (8, 0)]
  | .f32f16 hi | .f32bf16 hi | .f32i16 hi => glue [(4, 0), (1, hi.toNat), (7, 0), (8, 0)]
  | .f32i8 n => glue [(4, 0), (2, n.val), (6, 0), (8, 0)]
/-- The conversion an opcode offset and modifier name, if the modifier is legal (R260). -/
def CvtTy.of (op m : Nat) : Option CvtTy :=
  if op == 5 || op == 7 || op == 8 then
    match cut [4, 1] m with
    | [0, x, 0] =>
      let hi := x == 1
      some (if op == 5 then .f32f16 hi else if op == 7 then .f32bf16 hi else .f32i16 hi)
    | _ => none
  else if op == 9 then
    match cut [4, 2] m with
    | [0, x, 0] => some (.f32i8 (Fin.ofNat 4 x))
    | _ => none
  else
    match cut [3] m with
    | [x, 0] => (Rm.of x).map fun rm =>
      if op == 0 then .f32i32 rm else if op == 1 then .f32n32 rm else if op == 2 then .i32f32 rm
      else if op == 3 then .n32f32 rm else if op == 4 then .f16x2f32 rm else .bf16x2f32 rm
    | _ => none

/-! ## The M form (R36) -/

/-- The index mode field. -/
def Index.mode : Index → Nat
  | .none => 0 | .n16 _ => 1 | .i16 _ => 2 | .n32 _ => 3 | .i32 _ => 4 | .n64 _ => 5
/-- The index register, if one is read. -/
def Index.reg : Index → Option Reg
  | .none => Option.none | .n16 r | .i16 r | .n32 r | .i32 r | .n64 r => some r
/-- The B field. -/
def Index.code : Index → Nat
  | .none => 0 | .n16 r | .i16 r | .n32 r | .i32 r | .n64 r => r.code
/-- The index register rule of R36. -/
def Index.ok : Index → Bool
  | .none => true | .n64 r => RegClass.ok .evenReg r
  | .n16 r | .i16 r | .n32 r | .i32 r => RegClass.ok .index r

/-- The orderings a card allows (R267). -/
inductive OrdSet where
  | plain | acq | rel | any
  deriving DecidableEq, Repr
/-- Whether a card of this kind allows the ordering. -/
def OrdSet.ok : OrdSet → Order → Bool
  | _, .plain => true
  | .acq, .acq => true
  | .rel, .rel => true
  | .any, _ => true
  | _, _ => false

/-- How the offset bits of an M-form card are laid out: R36; R273 (LDG); R276 (SCAT); R80 and R274. -/
inductive MKind where
  | plain | bounded | boundedStore | pred
  deriving DecidableEq, Repr
/-- The rules of bit [7], the offset bits and the index mode for each layout. -/
def MKind.ok (k : MKind) (fromLit : Bool) (off mode : Nat) : Bool :=
  match k with
  | .plain => !fromLit || off == 0
  | .pred => !fromLit || off % 16 == 0
  | .bounded | .boundedStore => !fromLit && mode != 0

/-- The M-form rules an address obeys in a card. -/
def Addr.ok (m : Addr) (o : OrdSet) (k : MKind) (off : Nat) : Bool :=
  o.ok m.order && (!(m.order == .plain) || m.mscope == .warp) && k.ok m.fromLit off m.index.mode
    && RegClass.ok .base m.base && m.index.ok
/-- The form field of an address with its seven low bits. -/
def Addr.form (m : Addr) (off : Nat) : Nat :=
  glue [(7, off), (1, m.fromLit.toNat), (2, m.scale.val), (3, m.index.mode), (2, m.policy.code), (2, m.order.code),
    (3, m.mscope.code)]

/-! ## Copy operands (R314) -/

/-- What an operand of CPY names. -/
inductive CpyKind where
  | scratch | global | tile
  deriving DecidableEq, Repr
/-- What D names. -/
def CpyDir.dKind : CpyDir → CpyKind
  | .g2s | .t2s => .scratch
  | .s2g | .t2g => .global
  | .g2t | .s2t => .tile
/-- What A names. -/
def CpyDir.aKind : CpyDir → CpyKind
  | .g2s | .g2t => .global
  | .s2g | .s2t => .scratch
  | .t2g | .t2s => .tile
/-- Whether A is a tile. -/
def CpyDir.aTile (d : CpyDir) : Bool := d.aKind == .tile
/-- The directions .q is legal with. -/
def CpyDir.queueOk (d : CpyDir) : Bool := d == .g2s || d == .t2s
/-- Whether an operand is what a kind requires. -/
def CpyKind.ok : CpyKind → CpyOpd → Bool
  | .scratch, .reg r => RegClass.ok .read r
  | .global, .reg r => RegClass.ok .pair r
  | .tile, .tile _ => true
  | _, _ => false
/-- The D rule of CPY. -/
def CpyDir.dOk (dir : CpyDir) (d : CpyOpd) : Bool :=
  if d == .queue then dir.queueOk else dir.dKind.ok d
/-- The A rule of CPY. -/
def CpyDir.aOk (dir : CpyDir) (a : CpyOpd) : Bool := dir.aKind.ok a
/-- The field of a CPY operand. -/
def CpyOpd.code : CpyOpd → Nat
  | .reg r => r.code | .tile m => m.val | .queue => 0
/-- The register of a CPY operand. -/
def CpyOpd.theReg : CpyOpd → Option Reg
  | .reg r => some r
  | _ => none

/-! ## System register numbers (R210) -/

/-- The numbers that name a system register: R347, R65, R68, R71, R86, R92, R93, R96, R99, R159, R198, R341, R42,
R56, R180, R357, R371, R372, R396, R399, R397. -/
def srKnown (n : Nat) : Bool :=
  decide (0x010 ≤ n ∧ n ≤ 0x016) || decide (0x018 ≤ n ∧ n ≤ 0x01F) || decide (0x0A0 ≤ n ∧ n ≤ 0x0C0)
    || decide (0x0C4 ≤ n ∧ n ≤ 0x0D8) || decide (n = 0x0E0 ∨ n = 0x0E1) || decide (0x0E4 ≤ n ∧ n ≤ 0x0E9)
    || decide (0x0F0 ≤ n ∧ n ≤ 0x0F3) || decide (n = 0x0F8 ∨ n = 0x0FA ∨ n = 0x0FB)
    || decide (0x100 ≤ n ∧ n ≤ 0x10F)

/-- The system registers user code reaches (R210). -/
def srUser (n : Nat) : Bool :=
  decide (n = 0x0E0 ∨ n = 0x0E1 ∨ n = 0x0E4 ∨ n = 0x0E6 ∨ n = 0x0E7 ∨ n = 0x0F0 ∨ n = 0x0F1 ∨ n = 0x0F8
    ∨ n = 0x0FA ∨ n = 0x0FB) || decide (0x100 ≤ n ∧ n ≤ 0x10F)

/-! ## The opcode map -/

/-- The scopes an opcode accepts (R203). -/
inductive ScopeSet where
  | all | laneWarp | warp | warpSet | warpSetBlock | warpBlock
  deriving DecidableEq, Repr

/-- Whether the set holds a scope. -/
def ScopeSet.has : ScopeSet → Scope → Bool
  | .all, _ => true
  | .laneWarp, s => s == .lane || s == .warp
  | .warp, s => s == .warp
  | .warpSet, s => s == .warp || s == .set
  | .warpSetBlock, s => !(s == .lane)
  | .warpBlock, s => s == .warp || s == .block

/-- What the opcode map gives an opcode: whether it is of class A (R209) and the scopes it accepts (R203). -/
structure Row where
  async  : Bool
  scopes : ScopeSet
  deriving DecidableEq, Repr

/-- The opcode map of R209 with the scopes of R203; `none` for an unassigned opcode. -/
def rowOf (op : Nat) : Option Row :=
  if op ≤ 0x04C then some ⟨false, .all⟩
  else if op < 0x050 then none
  else if op ≤ 0x055 then some ⟨false, .laneWarp⟩
  else if op ≤ 0x059 then some ⟨false, .warp⟩
  else if op ≤ 0x05F then some ⟨false, .warpSet⟩
  else if op = 0x060 then some ⟨false, .warp⟩
  else if op = 0x061 then some ⟨true, .warp⟩
  else if op ≤ 0x063 then some ⟨false, .warpSet⟩
  else if op < 0x080 then none
  else if op ≤ 0x0A1 then some ⟨false, .all⟩
  else if op < 0x0B0 then none
  else if op ≤ 0x0BF then some ⟨false, .all⟩
  else if op ≤ 0x0C4 then some ⟨true, .all⟩
  else if op ≤ 0x0C9 then some ⟨false, .all⟩
  else if op ≤ 0x0CE then some ⟨true, .all⟩
  else if op ≤ 0x0D0 then some ⟨false, .all⟩
  else if op ≤ 0x0D5 then some ⟨true, .all⟩
  else if op ≤ 0x0D7 then some ⟨false, .all⟩
  else if op ≤ 0x0F0 then some ⟨true, .all⟩
  else if op ≤ 0x0F6 then some ⟨false, .all⟩
  else if op < 0x100 then none
  else if op ≤ 0x106 then some ⟨false, .all⟩
  else if op ≤ 0x108 then some ⟨false, .warp⟩
  else if op ≤ 0x10A then some ⟨false, .all⟩
  else if op = 0x10B then some ⟨true, .all⟩
  else if op ≤ 0x10F then some ⟨false, .all⟩
  else if op = 0x110 then some ⟨true, .all⟩
  else if op = 0x111 then some ⟨false, .all⟩
  else if op = 0x112 then some ⟨false, .warpBlock⟩
  else if op ≤ 0x114 then some ⟨false, .all⟩
  else if op = 0x115 then some ⟨false, .warpBlock⟩
  else if op ≤ 0x11D then some ⟨false, .all⟩
  else if op < 0x140 then none
  else if op = 0x140 then some ⟨true, .warpBlock⟩
  else if op ≤ 0x142 then some ⟨false, .warpBlock⟩
  else if op = 0x143 then some ⟨true, .warpBlock⟩
  else if op ≤ 0x145 then some ⟨false, .warpBlock⟩
  else if op ≤ 0x14B then some ⟨true, .warpSetBlock⟩
  else if op ≤ 0x14F then some ⟨true, .warpBlock⟩
  else if op = 0x150 then some ⟨false, .warpBlock⟩
  else if op ≤ 0x152 then some ⟨true, .warpBlock⟩
  else if op < 0x180 then none
  else if op ≤ 0x197 then some ⟨true, .warpSetBlock⟩
  else if op ≤ 0x1A4 then some ⟨true, .warpBlock⟩
  else none

/-- The control transfers that must end their clause (R193): BRA, BRX, CALL, CALLX, RET, EXIT, REJOIN, TRAP, TRET. -/
def endsClause (op : Nat) : Bool := decide (0x100 ≤ op ∧ op ≤ 0x106) || op == 0x118 || op == 0x119

/-- The operand fields of a word: D [46:39], A [38:31], B [30:23], the form field [19:0], and what a B-form target
puts into [22:20]. -/
structure Opds where
  d  : Nat
  a  : Nat
  b  : Nat
  f  : Nat
  lu : Nat
  deriving DecidableEq, Repr

/-- The opcode of an instruction (R209); a step without a word has none (the answer is the unused value 512). -/
def Instr.opcode : Instr → Nat
  | .add _ t _ _ _ => 0x0 + t.code
  | .sub _ t _ _ _ => 0x4 + t.code
  | .addsat _ t _ _ _ => 0x8 + t.code
  | .subsat _ t _ _ _ => 0xc + t.code
  | .mul _ _ _ _ => 0x10
  | .mulhi _ t _ _ _ => 0x11 + t.code
  | .mad _ _ _ _ _ => 0x13
  | .madw _ t _ _ _ _ => 0x14 + t.code
  | .idiv _ t _ _ _ => 0x16 + t.code
  | .irem _ t _ _ _ => 0x18 + t.code
  | .min _ t _ _ _ => 0x1a + t.code
  | .max _ t _ _ _ => 0x20 + t.code
  | .abs _ t _ _ => 0x26 + t.code
  | .sad _ _ _ _ _ => 0x28
  | .lop3 _ _ _ _ _ _ => 0x29
  | .shl _ wide _ _ _ => 0x2a + wide.toNat
  | .shr _ t _ _ _ => 0x2c + t.code
  | .rot _ _ _ _ => 0x30
  | .fsh _ _ _ _ _ _ => 0x31
  | .bfx _ t _ _ _ _ => 0x32 + t.code
  | .bfi _ _ _ _ _ => 0x34
  | .popc _ _ _ => 0x35
  | .clz _ _ _ => 0x36
  | .brev _ _ _ => 0x37
  | .ffs _ _ _ => 0x38
  | .cmp _ t _ _ _ _ _ => 0x39 + t.code
  | .sel _ _ _ _ _ _ => 0x3e
  | .plop _ _ _ _ _ _ => 0x3f
  | .pmovGet _ _ => 0x40
  | .pmovSet _ _ _ => 0x40
  | .mov _ _ _ => 0x41
  | .movi _ _ _ => 0x42
  | .movu _ _ _ => 0x43
  | .lea _ _ _ _ _ _ => 0x44
  | .dot2 _ _ _ _ _ _ => 0x45
  | .dot4 _ t _ _ _ _ _ => 0x46 + t.code
  | .shrr _ _ _ _ => 0x49
  | .pack _ t _ _ _ => 0x4a + t.code
  | .unpack _ _ _ => 0x4c
  | .shfl _ m _ _ _ _ _ _ _ => 0x50 + m.code
  | .slide _ half _ _ _ _ _ _ => 0x54 + half.toNat
  | .vote _ t _ _ => 0x56 + t.code
  | .matchLanes _ _ _ _ => 0x59
  | .reduce _ t _ _ _ _ => 0x5a + t.code
  | .scan _ t _ _ _ _ _ => 0x5e + t.code
  | .xpair _ _ _ => 0x60
  | .xswap _ _ _ _ => 0x61
  | .intersect _ _ _ _ _ => 0x62
  | .compact _ _ _ _ _ _ _ => 0x63
  | .fadd _ t _ _ _ _ => 0x80 + t.code
  | .fsub _ t _ _ _ _ => 0x83 + t.code
  | .fmul _ t _ _ _ _ => 0x86 + t.code
  | .ffma _ t _ _ _ _ _ => 0x89 + t.code
  | .ffmaw _ _ _ _ _ _ _ _ => 0x8c
  | .fmin _ t _ _ _ => 0x8d + t.code
  | .fmax _ t _ _ _ => 0x8f + t.code
  | .fcmp _ t _ _ _ _ _ => 0x91 + t.code
  | .frnd _ _ _ _ => 0x93
  | .fscale _ _ _ _ _ => 0x94
  | .fclass _ _ _ _ => 0x95
  | .frcp _ _ _ _ => 0x96
  | .frsq _ _ _ => 0x97
  | .fsqrt _ _ _ _ => 0x98
  | .fexp2 _ _ _ => 0x99
  | .flog2 _ _ _ => 0x9a
  | .fsin _ _ _ => 0x9b
  | .fcos _ _ _ => 0x9c
  | .ftanh _ _ _ => 0x9d
  | .fdot2 _ t _ _ _ _ _ => 0x9e + t.code
  | .fdot4 _ t _ _ _ _ _ => 0xa0 + t.code
  | .cvt _ t _ _ _ => 0xb0 + t.code
  | .qpack _ _ _ _ _ _ _ => 0xba
  | .qunpack _ _ _ _ _ _ => 0xbb
  | .qscale _ _ _ _ _ => 0xbc
  | .fxcvtTo _ _ _ _ => 0xbd
  | .fxcvtFrom _ _ _ _ _ => 0xbe
  | .setfmt _ _ _ _ => 0xbf
  | .ld _ t _ _ _ => 0xc0 + t.code
  | .st _ t _ _ _ => 0xc5 + t.code
  | .ldc _ t _ _ _ => 0xca + t.code
  | .ldg _ t _ _ _ _ => 0xcd + t.code
  | .scat _ t _ _ _ => 0xcf + t.code
  | .lde _ t _ _ _ _ => 0xd1 + t.code
  | .ldr _ t _ _ _ _ => 0xd3 + t.code
  | .ealloc _ _ _ _ => 0xd5
  | .erase _ _ _ => 0xd6
  | .eraser _ _ _ _ => 0xd7
  | .etest _ _ _ _ => 0xd8
  | .atom _ op _ _ _ => 0xd9 + op.code
  | .fence _ _ _ => 0xf1
  | .tokenTake _ => 0xf2
  | .tokenPass _ => 0xf2
  | .prefetch _ _ _ => 0xf3
  | .reserve _ _ _ _ => 0xf4
  | .discard _ _ _ => 0xf5
  | .reqpage _ _ _ => 0xf6
  | .bra _ _ _ => 0x100
  | .brx _ _ _ => 0x101
  | .call _ _ _ _ => 0x102
  | .callx _ _ _ _ => 0x103
  | .ret _ _ => 0x104
  | .exit _ => 0x105
  | .rejoin _ => 0x106
  | .join _ _ => 0x107
  | .leave _ => 0x108
  | .nop _ => 0x109
  | .spawn _ _ _ _ _ _ => 0x10a
  | .launch _ _ _ _ => 0x10b
  | .lwait _ _ _ _ _ => 0x10c
  | .kinit _ _ _ _ _ => 0x10d
  | .kupd _ f32 _ _ _ _ => 0x10e + f32.toNat
  | .kread _ _ _ _ => 0x110
  | .check _ _ _ => 0x111
  | .abinit _ _ _ _ => 0x112
  | .abarrive _ _ _ _ => 0x113
  | .abwait _ _ _ _ => 0x114
  | .qinit _ _ _ _ _ => 0x115
  | .qacqFree _ _ _ => 0x116
  | .qacqFull _ _ _ => 0x116
  | .qrelFull _ _ => 0x117
  | .qrelFree _ _ => 0x117
  | .trap _ _ _ => 0x118
  | .tret _ => 0x119
  | .getsr _ _ _ => 0x11a
  | .setsr _ _ _ => 0x11b
  | .yield _ _ => 0x11c
  | .prio _ _ => 0x11d
  | .poolset _ _ _ => 0x140
  | .poolq _ _ _ => 0x141
  | .stash _ _ _ _ _ => 0x142
  | .unstash _ _ => 0x143
  | .talloc _ _ => 0x144
  | .tfree _ _ => 0x145
  | .cpy _ dir _ _ _ _ _ _ _ _ => 0x146 + dir.code
  | .cpyh _ _ _ _ _ _ _ => 0x14c
  | .binc _ _ _ _ => 0x14d
  | .binp _ => 0x14e
  | .crel _ => 0x14f
  | .fhnd _ _ _ => 0x150
  | .fetch _ t _ _ _ _ _ => 0x151 + t.code
  | .mma _ t _ _ _ _ _ _ => 0x180 + t.code
  | .mmas _ t _ _ _ _ _ _ => 0x190 + t.code
  | .tzero _ _ => 0x198
  | .tfill _ _ _ => 0x199
  | .tcvt _ _ _ _ _ => 0x19a
  | .ttrans _ _ _ _ => 0x19b
  | .tadd _ _ _ _ _ => 0x19c
  | .tred _ _ _ _ _ _ => 0x19d
  | .ttov _ _ _ _ => 0x19e
  | .vtot _ _ _ _ => 0x19f
  | .tlu _ _ _ _ _ _ => 0x1a0
  | .ttrsLower _ _ _ _ _ _ _ => 0x1a1
  | .ttrsUpper _ _ _ _ _ => 0x1a2
  | .tjac _ _ _ _ _ _ _ _ => 0x1a3
  | .tupd _ _ _ _ _ => 0x1a4
  | .illegalOpcode w => w.toNat / 2 ^ 55
  | .xswapCompletion _ => 512
  | .loadCompletion _ => 512
  | .existenceCompletion _ => 512
  | .atomPerform _ => 512
  | .launchCompletion _ => 512
  | .kreadCompletion _ => 512
  | .unstashCompletion _ => 512
  | .cpyQueueSlotTake _ => 512
  | .copyCommandCompletion _ => 512
  | .binCommandCompletion _ => 512
  | .fetchCompletion _ => 512
  | .tjacSweepEnd _ => 512
  | .matrixCommandCompletion _ => 512
  | .matrixTransientError _ => 512
  | .invalidationComplete _ => 512
  | .descriptorReloadComplete _ => 512
  | .packWarp _ => 512
  | .incumbentUpdateArrival _ _ _ _ => 512
  | .incumbentCopyUpdate _ => 512
  | .yieldExpiry _ _ => 512
  | .splitDrainEnd _ => 512
  | .splitRelocateEnd _ => 512
  | .splitRemapEnd _ => 512
  | .stashWriteback _ _ => 512
  | .clauseHeaderFetch => 512
  | .splitAged _ _ => 512
  | .warpPreempt _ => 512
  | .launchSlotArm _ _ _ => 512
  | .blockPlacement _ => 512
  | .blockRetire _ => 512
  | .pageWalk _ _ _ => 512
  | .pageMigration _ _ _ => 512
  | .lineEviction _ _ => 512
  | .correctedError _ _ => 512
  | .uncorrectableError _ _ _ => 512
  | .remoteRequest _ _ _ _ _ => 512
  | .remoteResend _ => 512
  | .fabricPeerResponse _ _ => 512
  | .fabricDeliveryTimeout _ _ => 512
  | .flitReceive _ _ _ _ _ _ => 512
  | .parityExtensionReceive _ _ => 512
  | .planeRemap _ _ => 512
  | .remapAcknowledge => 512
  | .routeUpdate _ _ => 512
  | .keyRotation _ => 512
  | .hostCxlWrite _ _ => 512
  | .hostCxlRead _ _ => 512
  | .create _ _ => 512
  | .destroy _ => 512
  | .swapout _ => 512
  | .haltComplete _ => 512
  | .haltTimeout _ => 512
  | .swapin _ => 512
  | .fwstage _ _ _ => 512
  | .getVersion _ => 512
  | .getCapabilities _ => 512
  | .negotiateAlgorithms _ _ => 512
  | .getDigests _ => 512
  | .getCertificate _ _ => 512
  | .challenge _ _ _ => 512
  | .getMeasurements _ _ _ => 512
  | .keyExchange _ _ => 512
  | .finish _ _ => 512
  | .endSession _ => 512
  | .unsupportedRequest _ => 512
  | .sealRequest _ _ => 512
  | .keyload _ _ => 512
  | .keydrop _ _ => 512
  | .packageReset => 512
  | .clockStepChange _ _ _ => 512
  | .tlbinvAddress _ _ => 512
  | .tlbinvAsid _ _ => 512
  | .tlbinvPartition _ _ => 512
  | .qpost _ _ => 512
  | .qpop _ _ => 512
  | .rgnselWrite _ _ => 512
  | .reservationRangeWrite _ _ _ => 512
  | .tscloRead _ _ => 512
  | .systemRegisterWrite _ _ _ _ => 512

/-- The fields common to every word, for an instruction that has one. -/
def Instr.head : Instr → Option Head
  | .add h _ _ _ _ => some h
  | .sub h _ _ _ _ => some h
  | .addsat h _ _ _ _ => some h
  | .subsat h _ _ _ _ => some h
  | .min h _ _ _ _ => some h
  | .max h _ _ _ _ => some h
  | .abs h _ _ _ => some h
  | .mul h _ _ _ => some h
  | .mulhi h _ _ _ _ => some h
  | .mad h _ _ _ _ => some h
  | .madw h _ _ _ _ _ => some h
  | .idiv h _ _ _ _ => some h
  | .irem h _ _ _ _ => some h
  | .dot2 h _ _ _ _ _ => some h
  | .dot4 h _ _ _ _ _ _ => some h
  | .sad h _ _ _ _ => some h
  | .lop3 h _ _ _ _ _ => some h
  | .shl h _ _ _ _ => some h
  | .shr h _ _ _ _ => some h
  | .rot h _ _ _ => some h
  | .fsh h _ _ _ _ _ => some h
  | .shrr h _ _ _ => some h
  | .bfx h _ _ _ _ _ => some h
  | .bfi h _ _ _ _ => some h
  | .popc h _ _ => some h
  | .clz h _ _ => some h
  | .brev h _ _ => some h
  | .ffs h _ _ => some h
  | .cmp h _ _ _ _ _ _ => some h
  | .sel h _ _ _ _ _ => some h
  | .plop h _ _ _ _ _ => some h
  | .pmovGet h _ => some h
  | .pmovSet h _ _ => some h
  | .mov h _ _ => some h
  | .movi h _ _ => some h
  | .movu h _ _ => some h
  | .lea h _ _ _ _ _ => some h
  | .pack h _ _ _ _ => some h
  | .unpack h _ _ => some h
  | .shfl h _ _ _ _ _ _ _ _ => some h
  | .slide h _ _ _ _ _ _ _ => some h
  | .vote h _ _ _ => some h
  | .matchLanes h _ _ _ => some h
  | .reduce h _ _ _ _ _ => some h
  | .scan h _ _ _ _ _ _ => some h
  | .intersect h _ _ _ _ => some h
  | .compact h _ _ _ _ _ _ => some h
  | .xpair h _ _ => some h
  | .xswap h _ _ _ => some h
  | .fadd h _ _ _ _ _ => some h
  | .fsub h _ _ _ _ _ => some h
  | .fmul h _ _ _ _ _ => some h
  | .ffma h _ _ _ _ _ _ => some h
  | .ffmaw h _ _ _ _ _ _ _ => some h
  | .fmin h _ _ _ _ => some h
  | .fmax h _ _ _ _ => some h
  | .fcmp h _ _ _ _ _ _ => some h
  | .frnd h _ _ _ => some h
  | .fscale h _ _ _ _ => some h
  | .fclass h _ _ _ => some h
  | .frcp h _ _ _ => some h
  | .fsqrt h _ _ _ => some h
  | .frsq h _ _ => some h
  | .fexp2 h _ _ => some h
  | .flog2 h _ _ => some h
  | .fsin h _ _ => some h
  | .fcos h _ _ => some h
  | .ftanh h _ _ => some h
  | .fdot2 h _ _ _ _ _ _ => some h
  | .fdot4 h _ _ _ _ _ _ => some h
  | .cvt h _ _ _ _ => some h
  | .fxcvtTo h _ _ _ => some h
  | .fxcvtFrom h _ _ _ _ => some h
  | .qscale h _ _ _ _ => some h
  | .qpack h _ _ _ _ _ _ => some h
  | .qunpack h _ _ _ _ _ => some h
  | .setfmt h _ _ _ => some h
  | .ld h _ _ _ _ => some h
  | .ldc h _ _ _ _ => some h
  | .ldg h _ _ _ _ _ => some h
  | .ldr h _ _ _ _ _ => some h
  | .st h _ _ _ _ => some h
  | .scat h _ _ _ _ => some h
  | .lde h _ _ _ _ _ => some h
  | .ealloc h _ _ _ => some h
  | .erase h _ _ => some h
  | .eraser h _ _ _ => some h
  | .etest h _ _ _ => some h
  | .atom h _ _ _ _ => some h
  | .fence h _ _ => some h
  | .tokenTake h => some h
  | .tokenPass h => some h
  | .prefetch h _ _ => some h
  | .reserve h _ _ _ => some h
  | .discard h _ _ => some h
  | .reqpage h _ _ => some h
  | .bra h _ _ => some h
  | .brx h _ _ => some h
  | .call h _ _ _ => some h
  | .callx h _ _ _ => some h
  | .ret h _ => some h
  | .exit h => some h
  | .rejoin h => some h
  | .join h _ => some h
  | .leave h => some h
  | .nop h => some h
  | .spawn h _ _ _ _ _ => some h
  | .launch h _ _ _ => some h
  | .lwait h _ _ _ _ => some h
  | .kinit h _ _ _ _ => some h
  | .kupd h _ _ _ _ _ => some h
  | .kread h _ _ _ => some h
  | .check h _ _ => some h
  | .abinit h _ _ _ => some h
  | .abarrive h _ _ _ => some h
  | .abwait h _ _ _ => some h
  | .qinit h _ _ _ _ => some h
  | .qacqFree h _ _ => some h
  | .qacqFull h _ _ => some h
  | .qrelFull h _ => some h
  | .qrelFree h _ => some h
  | .trap h _ _ => some h
  | .tret h => some h
  | .getsr h _ _ => some h
  | .setsr h _ _ => some h
  | .yield h _ => some h
  | .prio h _ => some h
  | .poolset h _ _ => some h
  | .poolq h _ _ => some h
  | .talloc h _ => some h
  | .tfree h _ => some h
  | .stash h _ _ _ _ => some h
  | .unstash h _ => some h
  | .cpy h _ _ _ _ _ _ _ _ _ => some h
  | .cpyh h _ _ _ _ _ _ => some h
  | .binc h _ _ _ => some h
  | .binp h => some h
  | .crel h => some h
  | .fhnd h _ _ => some h
  | .fetch h _ _ _ _ _ _ => some h
  | .mma h _ _ _ _ _ _ _ => some h
  | .mmas h _ _ _ _ _ _ _ => some h
  | .tzero h _ => some h
  | .tfill h _ _ => some h
  | .tcvt h _ _ _ _ => some h
  | .ttrans h _ _ _ => some h
  | .tadd h _ _ _ _ => some h
  | .tred h _ _ _ _ _ => some h
  | .ttov h _ _ _ => some h
  | .vtot h _ _ _ => some h
  | .tlu h _ _ _ _ _ => some h
  | .ttrsLower h _ _ _ _ _ _ => some h
  | .ttrsUpper h _ _ _ _ => some h
  | .tjac h _ _ _ _ _ _ _ => some h
  | .tupd h _ _ _ _ => some h
  | .xswapCompletion _ => none
  | .loadCompletion _ => none
  | .existenceCompletion _ => none
  | .atomPerform _ => none
  | .launchCompletion _ => none
  | .kreadCompletion _ => none
  | .unstashCompletion _ => none
  | .cpyQueueSlotTake _ => none
  | .copyCommandCompletion _ => none
  | .binCommandCompletion _ => none
  | .fetchCompletion _ => none
  | .tjacSweepEnd _ => none
  | .matrixCommandCompletion _ => none
  | .matrixTransientError _ => none
  | .invalidationComplete _ => none
  | .descriptorReloadComplete _ => none
  | .packWarp _ => none
  | .incumbentUpdateArrival _ _ _ _ => none
  | .incumbentCopyUpdate _ => none
  | .yieldExpiry _ _ => none
  | .splitDrainEnd _ => none
  | .splitRelocateEnd _ => none
  | .splitRemapEnd _ => none
  | .stashWriteback _ _ => none
  | .clauseHeaderFetch => none
  | .splitAged _ _ => none
  | .warpPreempt _ => none
  | .launchSlotArm _ _ _ => none
  | .blockPlacement _ => none
  | .blockRetire _ => none
  | .pageWalk _ _ _ => none
  | .pageMigration _ _ _ => none
  | .lineEviction _ _ => none
  | .correctedError _ _ => none
  | .uncorrectableError _ _ _ => none
  | .remoteRequest _ _ _ _ _ => none
  | .remoteResend _ => none
  | .fabricPeerResponse _ _ => none
  | .fabricDeliveryTimeout _ _ => none
  | .flitReceive _ _ _ _ _ _ => none
  | .parityExtensionReceive _ _ => none
  | .planeRemap _ _ => none
  | .remapAcknowledge => none
  | .routeUpdate _ _ => none
  | .keyRotation _ => none
  | .hostCxlWrite _ _ => none
  | .hostCxlRead _ _ => none
  | .create _ _ => none
  | .destroy _ => none
  | .swapout _ => none
  | .haltComplete _ => none
  | .haltTimeout _ => none
  | .swapin _ => none
  | .fwstage _ _ _ => none
  | .getVersion _ => none
  | .getCapabilities _ => none
  | .negotiateAlgorithms _ _ => none
  | .getDigests _ => none
  | .getCertificate _ _ => none
  | .challenge _ _ _ => none
  | .getMeasurements _ _ _ => none
  | .keyExchange _ _ => none
  | .finish _ _ => none
  | .endSession _ => none
  | .unsupportedRequest _ => none
  | .sealRequest _ _ => none
  | .keyload _ _ => none
  | .keydrop _ _ => none
  | .packageReset => none
  | .clockStepChange _ _ _ => none
  | .tlbinvAddress _ _ => none
  | .tlbinvAsid _ _ => none
  | .tlbinvPartition _ _ => none
  | .qpost _ _ => none
  | .qpop _ _ => none
  | .rgnselWrite _ _ => none
  | .reservationRangeWrite _ _ _ => none
  | .tscloRead _ _ => none
  | .systemRegisterWrite _ _ _ _ => none
  | .illegalOpcode _ => none

/-- The registers a last-use bit of A, B and C (or of M-form store data) may mark: those the instruction reads
(R204). -/
def Instr.sources : Instr → Option Reg × Option Reg × Option Reg
  | .add _ _ _ a b => (some a, some b, none)
  | .sub _ _ _ a b => (some a, some b, none)
  | .addsat _ _ _ a b => (some a, some b, none)
  | .subsat _ _ _ a b => (some a, some b, none)
  | .mul _ _ a b => (some a, some b, none)
  | .mulhi _ _ _ a b => (some a, some b, none)
  | .mad _ _ a b c => (some a, some b, some c)
  | .madw _ _ _ a b c => (some a, some b, some c)
  | .idiv _ _ _ a b => (some a, some b, none)
  | .irem _ _ _ a b => (some a, some b, none)
  | .min _ _ _ a b => (some a, some b, none)
  | .max _ _ _ a b => (some a, some b, none)
  | .abs _ _ _ a => (some a, none, none)
  | .sad _ _ a b c => (some a, some b, some c)
  | .lop3 _ _ a b c _ => (some a, some b, some c)
  | .shl _ _ _ a b => (some a, some b, none)
  | .shr _ _ _ a b => (some a, some b, none)
  | .rot _ _ a b => (some a, some b, none)
  | .fsh _ _ a b c _ => (some a, some b, some c)
  | .bfx _ _ _ a b c => (some a, some b, some c)
  | .bfi _ _ a b c => (some a, some b, some c)
  | .popc _ _ a => (some a, none, none)
  | .clz _ _ a => (some a, none, none)
  | .brev _ _ a => (some a, none, none)
  | .ffs _ _ a => (some a, none, none)
  | .cmp _ _ _ a b _ _ => (some a, some b, none)
  | .sel _ _ a b _ _ => (some a, some b, none)
  | .plop _ _ _ _ _ _ => (none, none, none)
  | .pmovGet _ _ => (none, none, none)
  | .pmovSet _ a _ => (some a, none, none)
  | .mov _ _ a => (some a, none, none)
  | .movi _ _ _ => (none, none, none)
  | .movu _ _ _ => (none, none, none)
  | .lea _ _ _ a b _ => (some a, some b, none)
  | .dot2 _ _ a b c _ => (some a, some b, some c)
  | .dot4 _ _ _ a b c _ => (some a, some b, some c)
  | .shrr _ _ a b => (some a, some b, none)
  | .pack _ _ _ a b => (some a, some b, none)
  | .unpack _ _ a => (some a, none, none)
  | .shfl _ _ _ a b c keep _ _ => (some a, some b, (if keep then none else some c))
  | .slide _ _ _ a b c _ _ => (some a, some b, some c)
  | .vote _ _ _ _ => (none, none, none)
  | .matchLanes _ _ a _ => (some a, none, none)
  | .reduce _ _ _ a _ _ => (some a, none, none)
  | .scan _ _ _ a _ _ _ => (some a, none, none)
  | .xpair _ _ a => (some a, none, none)
  | .xswap _ _ a _ => (some a, none, none)
  | .intersect _ _ a b _ => (some a, some b, none)
  | .compact _ _ a _ c _ _ => (some a, none, some c)
  | .fadd _ _ _ a b _ => (some a, some b, none)
  | .fsub _ _ _ a b _ => (some a, some b, none)
  | .fmul _ _ _ a b _ => (some a, some b, none)
  | .ffma _ _ _ a b c _ => (some a, some b, some c)
  | .ffmaw _ _ a b c _ _ _ => (some a, some b, some c)
  | .fmin _ _ _ a b => (some a, some b, none)
  | .fmax _ _ _ a b => (some a, some b, none)
  | .fcmp _ _ _ a b _ _ => (some a, some b, none)
  | .frnd _ _ a _ => (some a, none, none)
  | .fscale _ _ a b _ => (some a, some b, none)
  | .fclass _ _ a _ => (some a, none, none)
  | .frcp _ _ a _ => (some a, none, none)
  | .frsq _ _ a => (some a, none, none)
  | .fsqrt _ _ a _ => (some a, none, none)
  | .fexp2 _ _ a => (some a, none, none)
  | .flog2 _ _ a => (some a, none, none)
  | .fsin _ _ a => (some a, none, none)
  | .fcos _ _ a => (some a, none, none)
  | .ftanh _ _ a => (some a, none, none)
  | .fdot2 _ _ _ a b c _ => (some a, some b, some c)
  | .fdot4 _ _ _ a b c _ => (some a, some b, some c)
  | .cvt _ t _ a b => (some a, (if t.two then some b else none), none)
  | .qpack _ _ a b c _ _ => (some a, some b, some c)
  | .qunpack _ _ a b _ _ => (some a, some b, none)
  | .qscale _ k _ a b => (some a, (if k == .x4 then some b else none), none)
  | .fxcvtTo _ _ a _ => (some a, none, none)
  | .fxcvtFrom _ _ a _ _ => (some a, none, none)
  | .setfmt _ _ a b => (some a, some b, none)
  | .ld _ _ _ m _ => (some m.base, m.index.reg, none)
  | .st _ _ d m _ => (some m.base, m.index.reg, some d)
  | .ldc _ _ _ m _ => (some m.base, m.index.reg, none)
  | .ldg _ _ _ _ m _ => (some m.base, m.index.reg, none)
  | .scat _ _ d m _ => (some m.base, m.index.reg, some d)
  | .lde _ _ _ _ m _ => (some m.base, m.index.reg, none)
  | .ldr _ _ _ _ m _ => (some m.base, m.index.reg, none)
  | .ealloc _ _ m _ => (some m.base, m.index.reg, none)
  | .erase _ m _ => (some m.base, m.index.reg, none)
  | .eraser _ d m _ => (some m.base, m.index.reg, some d)
  | .etest _ _ m _ => (some m.base, m.index.reg, none)
  | .atom _ _ d m _ => (some m.base, m.index.reg, some d)
  | .fence _ _ _ => (none, none, none)
  | .tokenTake _ => (none, none, none)
  | .tokenPass _ => (none, none, none)
  | .prefetch _ m _ => (some m.base, m.index.reg, none)
  | .reserve _ d m _ => (some m.base, m.index.reg, some d)
  | .discard _ m _ => (some m.base, m.index.reg, none)
  | .reqpage _ m _ => (some m.base, m.index.reg, none)
  | .bra _ _ _ => (none, none, none)
  | .brx _ a _ => (some a, none, none)
  | .call _ _ _ _ => (none, none, none)
  | .callx _ _ a _ => (some a, none, none)
  | .ret _ a => (some a, none, none)
  | .exit _ => (none, none, none)
  | .rejoin _ => (none, none, none)
  | .join _ a => (some a, none, none)
  | .leave _ => (none, none, none)
  | .nop _ => (none, none, none)
  | .spawn _ a b c _ n => (some a, (if n == 0 then none else some b), some c)
  | .launch _ _ a _ => (some a, none, none)
  | .lwait _ _ a _ _ => (some a, none, none)
  | .kinit _ a _ _ _ => (some a, none, none)
  | .kupd _ _ a b _ _ => (some a, some b, none)
  | .kread _ _ _ _ => (none, none, none)
  | .check _ _ a => (some a, none, none)
  | .abinit _ a b c => (some a, some b, some c)
  | .abarrive _ _ a b => (some a, some b, none)
  | .abwait _ a b _ => (some a, some b, none)
  | .qinit _ a b c _ => (some a, some b, some c)
  | .qacqFree _ _ _ => (none, none, none)
  | .qacqFull _ _ _ => (none, none, none)
  | .qrelFull _ _ => (none, none, none)
  | .qrelFree _ _ => (none, none, none)
  | .trap _ a _ => (some a, none, none)
  | .tret _ => (none, none, none)
  | .getsr _ _ _ => (none, none, none)
  | .setsr _ a _ => (some a, none, none)
  | .yield _ a => (some a, none, none)
  | .prio _ a => (some a, none, none)
  | .poolset _ _ a => (some a, none, none)
  | .poolq _ _ _ => (none, none, none)
  | .stash _ a b c _ => (some a, some b, some c)
  | .unstash _ _ => (none, none, none)
  | .talloc _ _ => (none, none, none)
  | .tfree _ _ => (none, none, none)
  | .cpy _ _ _ a b c _ ab _ _ => (a.theReg, some b, (if ab then some c else none))
  | .cpyh _ _ a b c _ _ => (some a, some b, some c)
  | .binc _ a b c => (some a, some b, some c)
  | .binp _ => (none, none, none)
  | .crel _ => (none, none, none)
  | .fhnd _ a _ => (some a, none, none)
  | .fetch _ _ _ a b _ _ => (some a, some b, none)
  | .mma _ _ _ _ _ _ _ _ => (none, none, none)
  | .mmas _ _ _ _ _ _ _ _ => (none, none, none)
  | .tzero _ _ => (none, none, none)
  | .tfill _ _ a => (some a, none, none)
  | .tcvt _ _ _ _ _ => (none, none, none)
  | .ttrans _ _ _ _ => (none, none, none)
  | .tadd _ _ _ _ _ => (none, none, none)
  | .tred _ _ _ _ _ _ => (none, none, none)
  | .ttov _ _ _ b => (none, some b, none)
  | .vtot _ _ a b => (some a, some b, none)
  | .tlu _ _ _ _ _ _ => (none, none, none)
  | .ttrsLower _ _ _ b _ _ p => (none, (if p then some b else none), none)
  | .ttrsUpper _ _ _ _ _ => (none, none, none)
  | .tjac _ _ _ b _ _ _ _ => (none, some b, none)
  | .tupd _ _ a b _ => (some a, some b, none)
  | .xswapCompletion _ => (none, none, none)
  | .loadCompletion _ => (none, none, none)
  | .existenceCompletion _ => (none, none, none)
  | .atomPerform _ => (none, none, none)
  | .launchCompletion _ => (none, none, none)
  | .kreadCompletion _ => (none, none, none)
  | .unstashCompletion _ => (none, none, none)
  | .cpyQueueSlotTake _ => (none, none, none)
  | .copyCommandCompletion _ => (none, none, none)
  | .binCommandCompletion _ => (none, none, none)
  | .fetchCompletion _ => (none, none, none)
  | .tjacSweepEnd _ => (none, none, none)
  | .matrixCommandCompletion _ => (none, none, none)
  | .matrixTransientError _ => (none, none, none)
  | .invalidationComplete _ => (none, none, none)
  | .descriptorReloadComplete _ => (none, none, none)
  | .packWarp _ => (none, none, none)
  | .incumbentUpdateArrival _ _ _ _ => (none, none, none)
  | .incumbentCopyUpdate _ => (none, none, none)
  | .yieldExpiry _ _ => (none, none, none)
  | .splitDrainEnd _ => (none, none, none)
  | .splitRelocateEnd _ => (none, none, none)
  | .splitRemapEnd _ => (none, none, none)
  | .stashWriteback _ _ => (none, none, none)
  | .clauseHeaderFetch => (none, none, none)
  | .splitAged _ _ => (none, none, none)
  | .warpPreempt _ => (none, none, none)
  | .launchSlotArm _ _ _ => (none, none, none)
  | .blockPlacement _ => (none, none, none)
  | .blockRetire _ => (none, none, none)
  | .pageWalk _ _ _ => (none, none, none)
  | .pageMigration _ _ _ => (none, none, none)
  | .lineEviction _ _ => (none, none, none)
  | .correctedError _ _ => (none, none, none)
  | .uncorrectableError _ _ _ => (none, none, none)
  | .remoteRequest _ _ _ _ _ => (none, none, none)
  | .remoteResend _ => (none, none, none)
  | .fabricPeerResponse _ _ => (none, none, none)
  | .fabricDeliveryTimeout _ _ => (none, none, none)
  | .flitReceive _ _ _ _ _ _ => (none, none, none)
  | .parityExtensionReceive _ _ => (none, none, none)
  | .planeRemap _ _ => (none, none, none)
  | .remapAcknowledge => (none, none, none)
  | .routeUpdate _ _ => (none, none, none)
  | .keyRotation _ => (none, none, none)
  | .hostCxlWrite _ _ => (none, none, none)
  | .hostCxlRead _ _ => (none, none, none)
  | .create _ _ => (none, none, none)
  | .destroy _ => (none, none, none)
  | .swapout _ => (none, none, none)
  | .haltComplete _ => (none, none, none)
  | .haltTimeout _ => (none, none, none)
  | .swapin _ => (none, none, none)
  | .fwstage _ _ _ => (none, none, none)
  | .getVersion _ => (none, none, none)
  | .getCapabilities _ => (none, none, none)
  | .negotiateAlgorithms _ _ => (none, none, none)
  | .getDigests _ => (none, none, none)
  | .getCertificate _ _ => (none, none, none)
  | .challenge _ _ _ => (none, none, none)
  | .getMeasurements _ _ _ => (none, none, none)
  | .keyExchange _ _ => (none, none, none)
  | .finish _ _ => (none, none, none)
  | .endSession _ => (none, none, none)
  | .unsupportedRequest _ => (none, none, none)
  | .sealRequest _ _ => (none, none, none)
  | .keyload _ _ => (none, none, none)
  | .keydrop _ _ => (none, none, none)
  | .packageReset => (none, none, none)
  | .clockStepChange _ _ _ => (none, none, none)
  | .tlbinvAddress _ _ => (none, none, none)
  | .tlbinvAsid _ _ => (none, none, none)
  | .tlbinvPartition _ _ => (none, none, none)
  | .qpost _ _ => (none, none, none)
  | .qpop _ _ => (none, none, none)
  | .rgnselWrite _ _ => (none, none, none)
  | .reservationRangeWrite _ _ _ => (none, none, none)
  | .tscloRead _ _ => (none, none, none)
  | .systemRegisterWrite _ _ _ _ => (none, none, none)
  | .illegalOpcode _ => (none, none, none)

/-- The operand fields of the word of an instruction (R201, R206). -/
def Instr.operands : Instr → Opds
  | .add _ _ d a b => ⟨d.code, a.code, b.code, glue [(12, 0), (8, 0)], 0⟩
  | .sub _ _ d a b => ⟨d.code, a.code, b.code, glue [(12, 0), (8, 0)], 0⟩
  | .addsat _ _ d a b => ⟨d.code, a.code, b.code, glue [(12, 0), (8, 0)], 0⟩
  | .subsat _ _ d a b => ⟨d.code, a.code, b.code, glue [(12, 0), (8, 0)], 0⟩
  | .mul _ d a b => ⟨d.code, a.code, b.code, glue [(12, 0), (8, 0)], 0⟩
  | .mulhi _ _ d a b => ⟨d.code, a.code, b.code, glue [(12, 0), (8, 0)], 0⟩
  | .mad _ d a b c => ⟨d.code, a.code, b.code, glue [(12, 0), (8, c.code)], 0⟩
  | .madw _ _ d a b c => ⟨d.code, a.code, b.code, glue [(12, 0), (8, c.code)], 0⟩
  | .idiv _ _ d a b => ⟨d.code, a.code, b.code, glue [(12, 0), (8, 0)], 0⟩
  | .irem _ _ d a b => ⟨d.code, a.code, b.code, glue [(12, 0), (8, 0)], 0⟩
  | .min _ _ d a b => ⟨d.code, a.code, b.code, glue [(12, 0), (8, 0)], 0⟩
  | .max _ _ d a b => ⟨d.code, a.code, b.code, glue [(12, 0), (8, 0)], 0⟩
  | .abs _ _ d a => ⟨d.code, a.code, 0, glue [(12, 0), (8, 0)], 0⟩
  | .sad _ d a b c => ⟨d.code, a.code, b.code, glue [(12, 0), (8, c.code)], 0⟩
  | .lop3 _ d a b c lut => ⟨d.code, a.code, b.code, glue [(8, lut.toNat), (4, 0), (8, c.code)], 0⟩
  | .shl _ _ d a b => ⟨d.code, a.code, b.code, glue [(12, 0), (8, 0)], 0⟩
  | .shr _ _ d a b => ⟨d.code, a.code, b.code, glue [(12, 0), (8, 0)], 0⟩
  | .rot _ d a b => ⟨d.code, a.code, b.code, glue [(12, 0), (8, 0)], 0⟩
  | .fsh _ d a b c right => ⟨d.code, a.code, b.code, glue [(1, right.toNat), (11, 0), (8, c.code)], 0⟩
  | .bfx _ _ d a b c => ⟨d.code, a.code, b.code, glue [(12, 0), (8, c.code)], 0⟩
  | .bfi _ d a b c => ⟨d.code, a.code, b.code, glue [(12, 0), (8, c.code)], 0⟩
  | .popc _ d a => ⟨d.code, a.code, 0, glue [(12, 0), (8, 0)], 0⟩
  | .clz _ d a => ⟨d.code, a.code, 0, glue [(12, 0), (8, 0)], 0⟩
  | .brev _ d a => ⟨d.code, a.code, 0, glue [(12, 0), (8, 0)], 0⟩
  | .ffs _ d a => ⟨d.code, a.code, 0, glue [(12, 0), (8, 0)], 0⟩
  | .cmp _ _ d a b cond e => ⟨d.val, a.code, b.code, glue [(3, cond.code), (1, 0), (3, e.val), (5, 0), (8, 0)], 0⟩
  | .sel _ d a b p neg => ⟨d.code, a.code, b.code, glue [(3, p.val), (1, neg.toNat), (8, 0), (8, 0)], 0⟩
  | .plop _ d a b c lut => ⟨d.val, a.val, b.val, glue [(8, lut.toNat), (4, 0), (8, c.val)], 0⟩
  | .pmovGet _ d => ⟨d.code, 0, 0, 0, 0⟩
  | .pmovSet _ a mask => ⟨0, a.code, 0, glue [(1, 1), (7, mask.toNat), (4, 0), (8, 0)], 0⟩
  | .mov _ d a => ⟨d.code, a.code, 0, glue [(12, 0), (8, 0)], 0⟩
  | .movi _ d imm => ⟨d.code, 0, imm.toNat / 2 ^ 20, imm.toNat % 2 ^ 20, 0⟩
  | .movu _ d imm => ⟨d.code, 0, imm.toNat / 2 ^ 20, imm.toNat % 2 ^ 20, 0⟩
  | .lea _ t d a b s => ⟨d.code, a.code, b.code, glue [(2, s.val), (1, t.leaBit), (9, 0), (8, 0)], 0⟩
  | .dot2 _ d a b c sat => ⟨d.code, a.code, b.code, glue [(1, sat.toNat), (11, 0), (8, c.code)], 0⟩
  | .dot4 _ _ d a b c sat => ⟨d.code, a.code, b.code, glue [(1, sat.toNat), (11, 0), (8, c.code)], 0⟩
  | .shrr _ d a b => ⟨d.code, a.code, b.code, glue [(12, 0), (8, 0)], 0⟩
  | .pack _ _ d a b => ⟨d.code, a.code, b.code, glue [(12, 0), (8, 0)], 0⟩
  | .unpack _ d a => ⟨d.code, a.code, 0, glue [(12, 0), (8, 0)], 0⟩
  | .shfl _ _ d a b c keep e pd => ⟨d.code, a.code, b.code, glue [(3, pd.val), (3, e.val), (1, keep.toNat), (5, 0), (8, c.code)], 0⟩
  | .slide _ _ d a b c down pd => ⟨d.code, a.code, b.code, glue [(1, down.toNat), (3, pd.val), (8, 0), (8, c.code)], 0⟩
  | .vote _ t a neg => ⟨t.dCode, a.val, 0, glue [(1, neg.toNat), (1, t.cnt.toNat), (10, 0), (8, 0)], 0⟩
  | .matchLanes _ d a pd => ⟨d.code, a.code, 0, glue [(3, pd.val), (9, 0), (8, 0)], 0⟩
  | .reduce _ _ d a op mem => ⟨d.code, a.code, 0, glue [(2, op.code), (1, mem.toNat), (9, 0), (8, 0)], 0⟩
  | .scan _ _ d a op excl mem => ⟨d.code, a.code, 0, glue [(2, op.code), (1, excl.toNat), (1, mem.toNat), (8, 0), (8, 0)], 0⟩
  | .xpair _ d a => ⟨d.code, a.code, 0, glue [(12, 0), (8, 0)], 0⟩
  | .xswap _ d a pd => ⟨d.code, a.code, 0, glue [(3, pd.val), (9, 0), (8, 0)], 0⟩
  | .intersect _ d a b c => ⟨d.code, a.code, b.code, glue [(12, 0), (8, c.code)], 0⟩
  | .compact _ d a b c p neg => ⟨d.code, a.code, b.code, glue [(3, p.val), (1, neg.toNat), (8, 0), (8, c.code)], 0⟩
  | .fadd _ _ d a b rm => ⟨d.code, a.code, b.code, glue [(3, rm.code), (9, 0), (8, 0)], 0⟩
  | .fsub _ _ d a b rm => ⟨d.code, a.code, b.code, glue [(3, rm.code), (9, 0), (8, 0)], 0⟩
  | .fmul _ _ d a b rm => ⟨d.code, a.code, b.code, glue [(3, rm.code), (9, 0), (8, 0)], 0⟩
  | .ffma _ _ d a b c rm => ⟨d.code, a.code, b.code, glue [(3, rm.code), (9, 0), (8, c.code)], 0⟩
  | .ffmaw _ d a b c rm bf16 hi => ⟨d.code, a.code, b.code, glue [(3, rm.code), (1, bf16.toNat), (1, hi.toNat), (7, 0), (8, c.code)], 0⟩
  | .fmin _ _ d a b => ⟨d.code, a.code, b.code, glue [(12, 0), (8, 0)], 0⟩
  | .fmax _ _ d a b => ⟨d.code, a.code, b.code, glue [(12, 0), (8, 0)], 0⟩
  | .fcmp _ _ d a b cond e => ⟨d.val, a.code, b.code, glue [(3, cond.code), (1, 0), (3, e.val), (5, 0), (8, 0)], 0⟩
  | .frnd _ d a rm => ⟨d.code, a.code, 0, glue [(3, rm.code), (9, 0), (8, 0)], 0⟩
  | .fscale _ d a b rm => ⟨d.code, a.code, b.code, glue [(3, rm.code), (9, 0), (8, 0)], 0⟩
  | .fclass _ d a t => ⟨d.code, a.code, 0, glue [(2, t.code), (10, 0), (8, 0)], 0⟩
  | .frcp _ d a rm => ⟨d.code, a.code, 0, glue [(3, rm.code), (9, 0), (8, 0)], 0⟩
  | .frsq _ d a => ⟨d.code, a.code, 0, glue [(12, 0), (8, 0)], 0⟩
  | .fsqrt _ d a rm => ⟨d.code, a.code, 0, glue [(3, rm.code), (9, 0), (8, 0)], 0⟩
  | .fexp2 _ d a => ⟨d.code, a.code, 0, glue [(12, 0), (8, 0)], 0⟩
  | .flog2 _ d a => ⟨d.code, a.code, 0, glue [(12, 0), (8, 0)], 0⟩
  | .fsin _ d a => ⟨d.code, a.code, 0, glue [(12, 0), (8, 0)], 0⟩
  | .fcos _ d a => ⟨d.code, a.code, 0, glue [(12, 0), (8, 0)], 0⟩
  | .ftanh _ d a => ⟨d.code, a.code, 0, glue [(12, 0), (8, 0)], 0⟩
  | .fdot2 _ _ d a b c rm => ⟨d.code, a.code, b.code, glue [(3, rm.code), (9, 0), (8, c.code)], 0⟩
  | .fdot4 _ _ d a b c rm => ⟨d.code, a.code, b.code, glue [(3, rm.code), (9, 0), (8, c.code)], 0⟩
  | .cvt _ t d a b => ⟨d.code, a.code, b.code, t.modifier, 0⟩
  | .qpack _ d a b c rm h1 => ⟨d.code, a.code, b.code, glue [(3, rm.code), (1, h1.toNat), (8, 0), (8, c.code)], 0⟩
  | .qunpack _ d a b n rm => ⟨d.code, a.code, b.code, glue [(3, rm.code), (1, 0), (2, n.val), (6, 0), (8, 0)], 0⟩
  | .qscale _ k d a b => ⟨d.code, a.code, b.code, glue [(2, k.code), (10, 0), (8, 0)], 0⟩
  | .fxcvtTo _ d a fx16 => ⟨d.code, a.code, 0, glue [(3, 0), (1, fx16.toNat), (8, 0), (8, 0)], 0⟩
  | .fxcvtFrom _ d a fx16 rm => ⟨d.code, a.code, 0, glue [(3, rm.code), (1, fx16.toNat), (8, 0), (8, 0)], 0⟩
  | .setfmt _ d a b => ⟨d.code, a.code, b.code, glue [(12, 0), (8, 0)], 0⟩
  | .ld _ _ d m off => ⟨d.code, m.base.code, m.index.code, m.form off.toNat, 0⟩
  | .st _ _ d m off => ⟨d.code, m.base.code, m.index.code, m.form off.toNat, 0⟩
  | .ldc _ _ d m off => ⟨d.code, m.base.code, m.index.code, m.form off.toNat, 0⟩
  | .ldg _ _ d pd m off => ⟨d.code, m.base.code, m.index.code, m.form (off.toNat + 16 * pd.val), 0⟩
  | .scat _ _ d m off => ⟨d.code, m.base.code, m.index.code, m.form off.toNat, 0⟩
  | .lde _ _ d pd m off => ⟨d.code, m.base.code, m.index.code, m.form (off.toNat + 16 * pd.val), 0⟩
  | .ldr _ _ d pd m off => ⟨d.code, m.base.code, m.index.code, m.form (off.toNat + 16 * pd.val), 0⟩
  | .ealloc _ d m off => ⟨d.code, m.base.code, m.index.code, m.form off.toNat, 0⟩
  | .erase _ m off => ⟨0, m.base.code, m.index.code, m.form off.toNat, 0⟩
  | .eraser _ d m off => ⟨d.code, m.base.code, m.index.code, m.form off.toNat, 0⟩
  | .etest _ d m off => ⟨d.code, m.base.code, m.index.code, m.form off.toNat, 0⟩
  | .atom _ _ d m off => ⟨d.code, m.base.code, m.index.code, m.form off.toNat, 0⟩
  | .fence _ order s => ⟨0, 0, 0, glue [(15, 0), (2, order.code), (3, s.code)], 0⟩
  | .tokenTake _ => ⟨0, 0, 0, 0, 0⟩
  | .tokenPass _ => ⟨0, 0, 0, 1, 0⟩
  | .prefetch _ m off => ⟨0, m.base.code, m.index.code, m.form off.toNat, 0⟩
  | .reserve _ d m off => ⟨d.code, m.base.code, m.index.code, m.form off.toNat, 0⟩
  | .discard _ m off => ⟨0, m.base.code, m.index.code, m.form off.toNat, 0⟩
  | .reqpage _ m off => ⟨0, m.base.code, m.index.code, m.form off.toNat, 0⟩
  | .bra _ target reconv => ⟨0, 0, target.toNat / 2 ^ 9, target.toNat % 2 ^ 6 * 2 ^ 14 + reconv.toNat, target.toNat / 2 ^ 6 % 2 ^ 3⟩
  | .brx _ a reconv => ⟨0, a.code, 0, glue [(12, reconv.toNat), (8, 0)], 0⟩
  | .call _ d target reconv => ⟨d.code, 0, target.toNat / 2 ^ 9, target.toNat % 2 ^ 6 * 2 ^ 14 + reconv.toNat, target.toNat / 2 ^ 6 % 2 ^ 3⟩
  | .callx _ d a reconv => ⟨d.code, a.code, 0, glue [(12, reconv.toNat), (8, 0)], 0⟩
  | .ret _ a => ⟨0, a.code, 0, glue [(12, 0), (8, 0)], 0⟩
  | .exit _ => ⟨0, 0, 0, glue [(12, 0), (8, 0)], 0⟩
  | .rejoin _ => ⟨0, 0, 0, glue [(12, 0), (8, 0)], 0⟩
  | .join _ a => ⟨0, a.code, 0, glue [(12, 0), (8, 0)], 0⟩
  | .leave _ => ⟨0, 0, 0, glue [(12, 0), (8, 0)], 0⟩
  | .nop _ => ⟨0, 0, 0, glue [(12, 0), (8, 0)], 0⟩
  | .spawn _ a b c pd n => ⟨0, a.code, b.code, glue [(3, pd.val), (4, n.val), (5, 0), (8, c.code)], 0⟩
  | .launch _ d a pd => ⟨d.code, a.code, 0, glue [(3, pd.val), (9, 0), (8, 0)], 0⟩
  | .lwait _ d a pd test => ⟨d.code, a.code, 0, glue [(3, pd.val), (1, test.toNat), (8, 0), (8, 0)], 0⟩
  | .kinit _ a k dirMin f32 => ⟨0, a.code, 0, glue [(4, k.val), (1, dirMin.toNat), (1, f32.toNat), (6, 0), (8, 0)], 0⟩
  | .kupd _ _ a b k rel => ⟨0, a.code, b.code, glue [(4, k.val), (1, rel.toNat), (7, 0), (8, 0)], 0⟩
  | .kread _ d k acq => ⟨d.code, 0, 0, glue [(4, k.val), (1, acq.toNat), (7, 0), (8, 0)], 0⟩
  | .check _ d a => ⟨d.val, a.code, 0, glue [(12, 0), (8, 0)], 0⟩
  | .abinit _ a b c => ⟨0, a.code, b.code, glue [(12, 0), (8, c.code)], 0⟩
  | .abarrive _ d a b => ⟨d.code, a.code, b.code, glue [(12, 0), (8, 0)], 0⟩
  | .abwait _ a b gen => ⟨0, a.code, b.code, glue [(1, gen.toNat), (11, 0), (8, 0)], 0⟩
  | .qinit _ a b c q => ⟨0, a.code, b.code, glue [(3, q.val), (9, 0), (8, c.code)], 0⟩
  | .qacqFree _ d q => ⟨d.code, 0, 0, glue [(3, q.val), (1, 0), (8, 0), (8, 0)], 0⟩
  | .qacqFull _ d q => ⟨d.code, 0, 0, glue [(3, q.val), (1, 1), (8, 0), (8, 0)], 0⟩
  | .qrelFull _ q => ⟨0, 0, 0, glue [(3, q.val), (1, 0), (8, 0), (8, 0)], 0⟩
  | .qrelFree _ q => ⟨0, 0, 0, glue [(3, q.val), (1, 1), (8, 0), (8, 0)], 0⟩
  | .trap _ a code => ⟨0, a.code, 0, glue [(12, code.toNat), (8, 0)], 0⟩
  | .tret _ => ⟨0, 0, 0, glue [(12, 0), (8, 0)], 0⟩
  | .getsr _ d sr => ⟨d.code, 0, 0, glue [(12, sr.toNat), (8, 0)], 0⟩
  | .setsr _ a sr => ⟨0, a.code, 0, glue [(12, sr.toNat), (8, 0)], 0⟩
  | .yield _ a => ⟨0, a.code, 0, glue [(12, 0), (8, 0)], 0⟩
  | .prio _ a => ⟨0, a.code, 0, glue [(12, 0), (8, 0)], 0⟩
  | .poolset _ d a => ⟨d.code, a.code, 0, glue [(12, 0), (8, 0)], 0⟩
  | .poolq _ d n => ⟨d.code, 0, 0, glue [(5, n.val), (7, 0), (8, 0)], 0⟩
  | .stash _ a b c w => ⟨0, a.code, b.code, glue [(2, w.val), (10, 0), (8, c.code)], 0⟩
  | .unstash _ w => ⟨0, 0, 0, glue [(2, w.val), (10, 0), (8, 0)], 0⟩
  | .talloc _ m => ⟨m.val, 0, 0, glue [(12, 0), (8, 0)], 0⟩
  | .tfree _ m => ⟨m.val, 0, 0, glue [(12, 0), (8, 0)], 0⟩
  | .cpy _ _ d a b c twoD ab q s => ⟨d.code, a.code, b.code, glue [(1, twoD.toNat), (1, ab.toNat), (1, (d == .queue).toNat), (3, q.val), (3, s.code), (3, 0), (8, c.code)], 0⟩
  | .cpyh _ d a b c size s => ⟨d.code, a.code, b.code, glue [(3, size.val), (3, 0), (3, s.code), (3, 0), (8, c.code)], 0⟩
  | .binc _ a b c => ⟨0, a.code, b.code, glue [(12, 0), (8, c.code)], 0⟩
  | .binp _ => ⟨0, 0, 0, glue [(12, 0), (8, 0)], 0⟩
  | .crel _ => ⟨0, 0, 0, glue [(12, 0), (8, 0)], 0⟩
  | .fhnd _ a n => ⟨0, a.code, 0, glue [(3, n.val), (9, 0), (8, 0)], 0⟩
  | .fetch _ _ d a b n pd => ⟨d.code, a.code, b.code, glue [(3, n.val), (3, pd.val), (6, 0), (8, 0)], 0⟩
  | .mma _ _ d a b c sat bs => ⟨d.val, a.val, b.val, glue [(1, sat.toNat), (1, bs.toNat), (10, 0), (8, c.val)], 0⟩
  | .mmas _ _ d a b c sat bs => ⟨d.val, a.val, b.val, glue [(1, sat.toNat), (1, bs.toNat), (10, 0), (8, c.val)], 0⟩
  | .tzero _ d => ⟨d.val, 0, 0, glue [(12, 0), (8, 0)], 0⟩
  | .tfill _ d a => ⟨d.val, a.code, 0, glue [(12, 0), (8, 0)], 0⟩
  | .tcvt _ d a p src => ⟨d.val, a.val, 0, glue [(3, p.val), (2, src.code), (7, 0), (8, 0)], 0⟩
  | .ttrans _ d a w => ⟨d.val, a.val, 0, glue [(2, w.val), (10, 0), (8, 0)], 0⟩
  | .tadd _ d a b t => ⟨d.val, a.val, b.val, glue [(2, t.code), (10, 0), (8, 0)], 0⟩
  | .tred _ d a col op t => ⟨d.code, a.val, 0, glue [(1, col.toNat), (2, op.code), (2, t.code), (7, 0), (8, 0)], 0⟩
  | .ttov _ d a b => ⟨d.code, a.val, b.code, glue [(12, 0), (8, 0)], 0⟩
  | .vtot _ d a b => ⟨d.val, a.code, b.code, glue [(12, 0), (8, 0)], 0⟩
  | .tlu _ d a b n fx16 => ⟨d.val, a.code, b.code, glue [(5, n.val), (1, fx16.toNat), (6, 0), (8, 0)], 0⟩
  | .ttrsLower _ d a b n fx16 p => ⟨d.val, a.val, b.code, glue [(5, n.val), (1, fx16.toNat), (1, p.toNat), (5, 0), (8, 0)], 0⟩
  | .ttrsUpper _ d a n fx16 => ⟨d.val, a.val, 0, glue [(5, n.val), (1, fx16.toNat), (6, 0), (8, 0)], 0⟩
  | .tjac _ d a b c n fx16 pd => ⟨d.code, a.val, b.code, glue [(5, n.val), (1, fx16.toNat), (3, pd.val), (3, 0), (8, c.code)], 0⟩
  | .tupd _ d a b fx16 => ⟨d.val, a.code, b.code, glue [(5, 0), (1, fx16.toNat), (6, 0), (8, 0)], 0⟩
  | .xswapCompletion _ => ⟨0, 0, 0, 0, 0⟩
  | .loadCompletion _ => ⟨0, 0, 0, 0, 0⟩
  | .existenceCompletion _ => ⟨0, 0, 0, 0, 0⟩
  | .atomPerform _ => ⟨0, 0, 0, 0, 0⟩
  | .launchCompletion _ => ⟨0, 0, 0, 0, 0⟩
  | .kreadCompletion _ => ⟨0, 0, 0, 0, 0⟩
  | .unstashCompletion _ => ⟨0, 0, 0, 0, 0⟩
  | .cpyQueueSlotTake _ => ⟨0, 0, 0, 0, 0⟩
  | .copyCommandCompletion _ => ⟨0, 0, 0, 0, 0⟩
  | .binCommandCompletion _ => ⟨0, 0, 0, 0, 0⟩
  | .fetchCompletion _ => ⟨0, 0, 0, 0, 0⟩
  | .tjacSweepEnd _ => ⟨0, 0, 0, 0, 0⟩
  | .matrixCommandCompletion _ => ⟨0, 0, 0, 0, 0⟩
  | .matrixTransientError _ => ⟨0, 0, 0, 0, 0⟩
  | .invalidationComplete _ => ⟨0, 0, 0, 0, 0⟩
  | .descriptorReloadComplete _ => ⟨0, 0, 0, 0, 0⟩
  | .packWarp _ => ⟨0, 0, 0, 0, 0⟩
  | .incumbentUpdateArrival _ _ _ _ => ⟨0, 0, 0, 0, 0⟩
  | .incumbentCopyUpdate _ => ⟨0, 0, 0, 0, 0⟩
  | .yieldExpiry _ _ => ⟨0, 0, 0, 0, 0⟩
  | .splitDrainEnd _ => ⟨0, 0, 0, 0, 0⟩
  | .splitRelocateEnd _ => ⟨0, 0, 0, 0, 0⟩
  | .splitRemapEnd _ => ⟨0, 0, 0, 0, 0⟩
  | .stashWriteback _ _ => ⟨0, 0, 0, 0, 0⟩
  | .clauseHeaderFetch => ⟨0, 0, 0, 0, 0⟩
  | .splitAged _ _ => ⟨0, 0, 0, 0, 0⟩
  | .warpPreempt _ => ⟨0, 0, 0, 0, 0⟩
  | .launchSlotArm _ _ _ => ⟨0, 0, 0, 0, 0⟩
  | .blockPlacement _ => ⟨0, 0, 0, 0, 0⟩
  | .blockRetire _ => ⟨0, 0, 0, 0, 0⟩
  | .pageWalk _ _ _ => ⟨0, 0, 0, 0, 0⟩
  | .pageMigration _ _ _ => ⟨0, 0, 0, 0, 0⟩
  | .lineEviction _ _ => ⟨0, 0, 0, 0, 0⟩
  | .correctedError _ _ => ⟨0, 0, 0, 0, 0⟩
  | .uncorrectableError _ _ _ => ⟨0, 0, 0, 0, 0⟩
  | .remoteRequest _ _ _ _ _ => ⟨0, 0, 0, 0, 0⟩
  | .remoteResend _ => ⟨0, 0, 0, 0, 0⟩
  | .fabricPeerResponse _ _ => ⟨0, 0, 0, 0, 0⟩
  | .fabricDeliveryTimeout _ _ => ⟨0, 0, 0, 0, 0⟩
  | .flitReceive _ _ _ _ _ _ => ⟨0, 0, 0, 0, 0⟩
  | .parityExtensionReceive _ _ => ⟨0, 0, 0, 0, 0⟩
  | .planeRemap _ _ => ⟨0, 0, 0, 0, 0⟩
  | .remapAcknowledge => ⟨0, 0, 0, 0, 0⟩
  | .routeUpdate _ _ => ⟨0, 0, 0, 0, 0⟩
  | .keyRotation _ => ⟨0, 0, 0, 0, 0⟩
  | .hostCxlWrite _ _ => ⟨0, 0, 0, 0, 0⟩
  | .hostCxlRead _ _ => ⟨0, 0, 0, 0, 0⟩
  | .create _ _ => ⟨0, 0, 0, 0, 0⟩
  | .destroy _ => ⟨0, 0, 0, 0, 0⟩
  | .swapout _ => ⟨0, 0, 0, 0, 0⟩
  | .haltComplete _ => ⟨0, 0, 0, 0, 0⟩
  | .haltTimeout _ => ⟨0, 0, 0, 0, 0⟩
  | .swapin _ => ⟨0, 0, 0, 0, 0⟩
  | .fwstage _ _ _ => ⟨0, 0, 0, 0, 0⟩
  | .getVersion _ => ⟨0, 0, 0, 0, 0⟩
  | .getCapabilities _ => ⟨0, 0, 0, 0, 0⟩
  | .negotiateAlgorithms _ _ => ⟨0, 0, 0, 0, 0⟩
  | .getDigests _ => ⟨0, 0, 0, 0, 0⟩
  | .getCertificate _ _ => ⟨0, 0, 0, 0, 0⟩
  | .challenge _ _ _ => ⟨0, 0, 0, 0, 0⟩
  | .getMeasurements _ _ _ => ⟨0, 0, 0, 0, 0⟩
  | .keyExchange _ _ => ⟨0, 0, 0, 0, 0⟩
  | .finish _ _ => ⟨0, 0, 0, 0, 0⟩
  | .endSession _ => ⟨0, 0, 0, 0, 0⟩
  | .unsupportedRequest _ => ⟨0, 0, 0, 0, 0⟩
  | .sealRequest _ _ => ⟨0, 0, 0, 0, 0⟩
  | .keyload _ _ => ⟨0, 0, 0, 0, 0⟩
  | .keydrop _ _ => ⟨0, 0, 0, 0, 0⟩
  | .packageReset => ⟨0, 0, 0, 0, 0⟩
  | .clockStepChange _ _ _ => ⟨0, 0, 0, 0, 0⟩
  | .tlbinvAddress _ _ => ⟨0, 0, 0, 0, 0⟩
  | .tlbinvAsid _ _ => ⟨0, 0, 0, 0, 0⟩
  | .tlbinvPartition _ _ => ⟨0, 0, 0, 0, 0⟩
  | .qpost _ _ => ⟨0, 0, 0, 0, 0⟩
  | .qpop _ _ => ⟨0, 0, 0, 0, 0⟩
  | .rgnselWrite _ _ => ⟨0, 0, 0, 0, 0⟩
  | .reservationRangeWrite _ _ _ => ⟨0, 0, 0, 0, 0⟩
  | .tscloRead _ _ => ⟨0, 0, 0, 0, 0⟩
  | .systemRegisterWrite _ _ _ _ => ⟨0, 0, 0, 0, 0⟩
  | .illegalOpcode _ => ⟨0, 0, 0, 0, 0⟩

end Sys2Proof
end

