-- ==== Sys2Proof/WellFormed.lean ====
section
/-! DEFINITION. Well-formed instructions: the static rules of R198, R203 to R208 and of each card. -/

namespace Sys2Proof

/-- A last-use bit stands only on a vector register that is read (R204). -/
def lastUseOk (bit : Bool) (r : Option Reg) : Bool :=
  !bit || match r with
    | some r => r.isVector
    | none => false

/-- The rules of the fields common to every word: the flag select fits the class (R198), the scope is one the
opcode accepts (R203), and last-use bits follow R204. -/
def Instr.headOk (i : Instr) (h : Head) : Bool :=
  (match rowOf i.opcode with
    | some row => (row.async == !(h.flag == .none)) && row.scopes.has h.scope
    | none => false)
  && lastUseOk h.luA i.sources.1 && lastUseOk h.luB i.sources.2.1 && lastUseOk h.luC i.sources.2.2

/-- The operand rules of each card: register classes, and the combinations a card admits. -/
def Instr.operandsOk : Instr → Bool
  | .add _ t d a b => RegClass.ok (if t.wide then .pair else .write) d && RegClass.ok (if t.wide then .pair else .read) a && RegClass.ok (if t.wide then .pair else .read) b
  | .sub _ t d a b => RegClass.ok (if t.wide then .pair else .write) d && RegClass.ok (if t.wide then .pair else .read) a && RegClass.ok (if t.wide then .pair else .read) b
  | .addsat _ _ d _ _ => RegClass.ok .write d
  | .subsat _ _ d _ _ => RegClass.ok .write d
  | .mul _ d _ _ => RegClass.ok .write d
  | .mulhi _ _ d _ _ => RegClass.ok .write d
  | .mad _ d _ _ _ => RegClass.ok .write d
  | .madw _ _ d _ _ c => RegClass.ok .pair d && RegClass.ok .pair c
  | .idiv _ _ d _ _ => RegClass.ok .write d
  | .irem _ _ d _ _ => RegClass.ok .write d
  | .min _ t d a b => RegClass.ok (if t.wide then .pair else .write) d && RegClass.ok (if t.wide then .pair else .read) a && RegClass.ok (if t.wide then .pair else .read) b
  | .max _ t d a b => RegClass.ok (if t.wide then .pair else .write) d && RegClass.ok (if t.wide then .pair else .read) a && RegClass.ok (if t.wide then .pair else .read) b
  | .abs _ _ d _ => RegClass.ok .write d
  | .sad _ d _ _ _ => RegClass.ok .write d
  | .lop3 _ d _ _ _ _ => RegClass.ok .write d
  | .shl _ wide d a _ => RegClass.ok (if wide then .pair else .write) d && RegClass.ok (if wide then .pair else .read) a
  | .shr _ t d a _ => RegClass.ok (if t.wide then .pair else .write) d && RegClass.ok (if t.wide then .pair else .read) a
  | .rot _ d _ _ => RegClass.ok .write d
  | .fsh _ d _ _ _ _ => RegClass.ok .write d
  | .bfx _ _ d _ _ _ => RegClass.ok .write d
  | .bfi _ d _ _ _ => RegClass.ok .write d
  | .popc _ d _ => RegClass.ok .write d
  | .clz _ d _ => RegClass.ok .write d
  | .brev _ d _ => RegClass.ok .write d
  | .ffs _ d _ => RegClass.ok .write d
  | .cmp _ t _ a b _ e => RegClass.ok (if t.wide then .pair else .read) a && RegClass.ok (if t.wide then .pair else .read) b && (t == .i16x2 || e == 0)
  | .sel _ d _ _ _ _ => RegClass.ok .write d
  | .plop _ _ _ _ _ _ => true
  | .pmovGet _ d => RegClass.ok .write d
  | .pmovSet _ _ _ => true
  | .mov _ d _ => RegClass.ok .write d
  | .movi _ d _ => RegClass.ok .write d
  | .movu _ d _ => RegClass.ok .write d
  | .lea _ _ d a _ _ => RegClass.ok .pair d && RegClass.ok .pair a
  | .dot2 _ d _ _ _ _ => RegClass.ok .write d
  | .dot4 _ _ d _ _ _ _ => RegClass.ok .write d
  | .shrr _ d _ _ => RegClass.ok .write d
  | .pack _ _ d _ _ => RegClass.ok .write d
  | .unpack _ d _ => RegClass.ok .pair d
  | .shfl _ _ d _ _ c keep _ _ => RegClass.ok .write d && (!keep || c == .v 0)
  | .slide _ _ d _ _ _ _ _ => RegClass.ok .write d
  | .vote _ t _ _ => t.ok
  | .matchLanes _ d _ _ => RegClass.ok .write d
  | .reduce h t d a _ mem => RegClass.ok (if t.wide then .pair else .write) d && RegClass.ok (if t.wide then .pair else .read) a && !(mem && h.scope == .warp)
  | .scan h t d _ op _ mem => RegClass.ok .write d && !(mem && h.scope == .warp) && (t == .i32 || op == .add)
  | .xpair _ d _ => RegClass.ok .write d
  | .xswap _ d _ _ => RegClass.ok .write d
  | .intersect _ d _ _ c => RegClass.ok .write d && RegClass.ok .sPair c
  | .compact _ d _ b _ _ _ => RegClass.ok .write d && RegClass.ok .sZero b
  | .fadd _ _ d _ _ _ => RegClass.ok .write d
  | .fsub _ _ d _ _ _ => RegClass.ok .write d
  | .fmul _ _ d _ _ _ => RegClass.ok .write d
  | .ffma _ _ d _ _ _ _ => RegClass.ok .write d
  | .ffmaw _ d _ _ _ _ _ _ => RegClass.ok .write d
  | .fmin _ _ d _ _ => RegClass.ok .write d
  | .fmax _ _ d _ _ => RegClass.ok .write d
  | .fcmp _ t _ _ _ _ e => (t == .f16x2 || e == 0)
  | .frnd _ d _ _ => RegClass.ok .write d
  | .fscale _ d _ _ _ => RegClass.ok .write d
  | .fclass _ d _ _ => RegClass.ok .write d
  | .frcp _ d _ _ => RegClass.ok .write d
  | .frsq _ d _ => RegClass.ok .write d
  | .fsqrt _ d _ _ => RegClass.ok .write d
  | .fexp2 _ d _ => RegClass.ok .write d
  | .flog2 _ d _ => RegClass.ok .write d
  | .fsin _ d _ => RegClass.ok .write d
  | .fcos _ d _ => RegClass.ok .write d
  | .ftanh _ d _ => RegClass.ok .write d
  | .fdot2 _ _ d _ _ _ _ => RegClass.ok .write d
  | .fdot4 _ _ d _ _ _ _ => RegClass.ok .write d
  | .cvt _ t d _ b => RegClass.ok .write d && (t.two || b == .v 0)
  | .qpack _ d a b _ _ _ => RegClass.ok .write d && RegClass.ok .pair a && RegClass.ok .pair b
  | .qunpack _ d _ _ _ _ => RegClass.ok .pair d
  | .qscale _ k d a b => RegClass.ok .write d && RegClass.ok (if k == .x1 then .read else .pair) a && RegClass.ok (if k == .x4 then .pair else .read) b && (k == .x4 || b == .v 0)
  | .fxcvtTo _ d _ _ => RegClass.ok .write d
  | .fxcvtFrom _ d _ _ _ => RegClass.ok .write d
  | .setfmt _ d _ _ => RegClass.ok .write d
  | .ld _ t d m off => m.ok .acq .plain off.toNat && RegClass.ok (t.dcls) d
  | .st _ t d m off => m.ok .rel .plain off.toNat && RegClass.ok (t.dcls) d
  | .ldc _ t d m off => m.ok .acq .plain off.toNat && RegClass.ok (t.dcls) d
  | .ldg _ t d pd m off => m.ok .acq .bounded (off.toNat + 16 * pd.val) && RegClass.ok (t.dcls) d
  | .scat _ t d m off => m.ok .rel .boundedStore off.toNat && RegClass.ok (t.dcls) d
  | .lde _ t d pd m off => m.ok .acq .pred (off.toNat + 16 * pd.val) && RegClass.ok (t.dcls) d
  | .ldr _ t d pd m off => m.ok .acq .pred (off.toNat + 16 * pd.val) && RegClass.ok (t.dcls) d
  | .ealloc _ d m off => m.ok .rel .plain off.toNat && RegClass.ok .dest4 d
  | .erase _ m off => m.ok .rel .plain off.toNat
  | .eraser _ d m off => m.ok .rel .plain off.toNat && RegClass.ok .dest4 d
  | .etest _ d m off => m.ok .acq .plain off.toNat && RegClass.ok .dest4 d
  | .atom _ op d m off => m.ok .any .plain off.toNat && RegClass.ok (op.dcls) d
  | .fence _ order _ => !(order == .plain)
  | .tokenTake _ => true
  | .tokenPass _ => true
  | .prefetch _ m off => m.ok .plain .plain off.toNat
  | .reserve _ d m off => m.ok .plain .plain off.toNat && RegClass.ok .dest4 d
  | .discard _ m off => m.ok .rel .plain off.toNat
  | .reqpage _ m off => m.ok .plain .plain off.toNat
  | .bra _ _ _ => true
  | .brx _ a _ => RegClass.ok .evenReg a
  | .call _ d _ _ => RegClass.ok .base d
  | .callx _ d a _ => RegClass.ok .base d && RegClass.ok .evenReg a
  | .ret _ a => RegClass.ok .evenReg a
  | .exit _ => true
  | .rejoin _ => true
  | .join _ _ => true
  | .leave _ => true
  | .nop _ => true
  | .spawn _ a b _ _ n => RegClass.ok .evenReg a && RegClass.ok (.run n.val) b && (n != 0 || b == .v 0)
  | .launch _ d a _ => RegClass.ok .dest4 d && RegClass.ok .evenReg a
  | .lwait _ d _ _ _ => RegClass.ok .dest4 d
  | .kinit _ a _ _ _ => RegClass.ok .pair a
  | .kupd _ _ _ _ _ _ => true
  | .kread _ d _ _ => RegClass.ok .pair d
  | .check _ _ _ => true
  | .abinit _ _ _ _ => true
  | .abarrive _ d _ _ => RegClass.ok .write d
  | .abwait _ _ _ _ => true
  | .qinit _ _ _ _ _ => true
  | .qacqFree _ d _ => RegClass.ok .write d
  | .qacqFull _ d _ => RegClass.ok .write d
  | .qrelFull _ _ => true
  | .qrelFree _ _ => true
  | .trap _ _ _ => true
  | .tret _ => true
  | .getsr _ d sr => RegClass.ok .write d && srKnown sr.toNat
  | .setsr _ _ sr => srKnown sr.toNat
  | .yield _ _ => true
  | .prio _ _ => true
  | .poolset _ d _ => RegClass.ok .dest4 d
  | .poolq _ d _ => RegClass.ok .write d
  | .stash _ a _ _ _ => RegClass.ok .pair a
  | .unstash _ _ => true
  | .talloc _ _ => true
  | .tfree _ _ => true
  | .cpy _ dir d a b c twoD ab q _ => dir.dOk d && dir.aOk a && RegClass.ok (if twoD then .quadReg else .read) b && (ab || c == .v 0) && (d == .queue || q == 0)
  | .cpyh _ d _ _ _ size _ => RegClass.ok .pair d && decide (2 ≤ size.val)
  | .binc _ _ _ _ => true
  | .binp _ => true
  | .crel _ => true
  | .fhnd _ a _ => RegClass.ok .pair a
  | .fetch _ t d _ _ _ _ => RegClass.ok (if t.wide then .pair else .dest4) d
  | .mma _ t _ _ _ c sat bs => (!sat || t.isInt) && (bs || c == 0)
  | .mmas _ t _ _ _ c sat bs => (!sat || t.isInt) && (bs || c == 0)
  | .tzero _ _ => true
  | .tfill _ _ _ => true
  | .tcvt _ _ _ _ _ => true
  | .ttrans _ _ _ _ => true
  | .tadd _ _ _ _ _ => true
  | .tred _ d _ _ _ _ => RegClass.ok .write d
  | .ttov _ d _ _ => RegClass.ok .write d
  | .vtot _ _ _ _ => true
  | .tlu _ _ a b _ _ => RegClass.ok .vReg a && RegClass.ok .sReg b
  | .ttrsLower _ _ _ b _ _ p => (p || b == .v 0)
  | .ttrsUpper _ _ _ _ _ => true
  | .tjac _ d _ b c _ _ _ => RegClass.ok .vReg d && RegClass.ok .vReg b && RegClass.ok .sPair c
  | .tupd _ _ _ _ _ => true
  | .illegalOpcode w => (rowOf (w.toNat / 2 ^ 55)).isNone
  | .xswapCompletion _ => true
  | .loadCompletion _ => true
  | .existenceCompletion _ => true
  | .atomPerform _ => true
  | .launchCompletion _ => true
  | .kreadCompletion _ => true
  | .unstashCompletion _ => true
  | .cpyQueueSlotTake _ => true
  | .copyCommandCompletion _ => true
  | .binCommandCompletion _ => true
  | .fetchCompletion _ => true
  | .tjacSweepEnd _ => true
  | .matrixCommandCompletion _ => true
  | .matrixTransientError _ => true
  | .invalidationComplete _ => true
  | .descriptorReloadComplete _ => true
  | .packWarp _ => true
  | .incumbentUpdateArrival _ _ _ _ => true
  | .incumbentCopyUpdate _ => true
  | .yieldExpiry _ _ => true
  | .splitDrainEnd _ => true
  | .splitRelocateEnd _ => true
  | .splitRemapEnd _ => true
  | .stashWriteback _ _ => true
  | .clauseHeaderFetch => true
  | .splitAged _ _ => true
  | .warpPreempt _ => true
  | .launchSlotArm _ _ _ => true
  | .blockPlacement _ => true
  | .blockRetire _ => true
  | .pageWalk _ _ _ => true
  | .pageMigration _ _ _ => true
  | .lineEviction _ _ => true
  | .correctedError _ _ => true
  | .uncorrectableError _ _ _ => true
  | .remoteRequest _ _ _ _ _ => true
  | .remoteResend _ => true
  | .fabricPeerResponse _ _ => true
  | .fabricDeliveryTimeout _ _ => true
  | .flitReceive _ _ _ _ _ _ => true
  | .parityExtensionReceive _ _ => true
  | .planeRemap _ _ => true
  | .remapAcknowledge => true
  | .routeUpdate _ _ => true
  | .keyRotation _ => true
  | .hostCxlWrite _ _ => true
  | .hostCxlRead _ _ => true
  | .create _ _ => true
  | .destroy _ => true
  | .swapout _ => true
  | .haltComplete _ => true
  | .haltTimeout _ => true
  | .swapin _ => true
  | .fwstage _ _ _ => true
  | .getVersion _ => true
  | .getCapabilities _ => true
  | .negotiateAlgorithms _ _ => true
  | .getDigests _ => true
  | .getCertificate _ _ => true
  | .challenge _ _ _ => true
  | .getMeasurements _ _ _ => true
  | .keyExchange _ _ => true
  | .finish _ _ => true
  | .endSession _ => true
  | .unsupportedRequest _ => true
  | .sealRequest _ _ => true
  | .keyload _ _ => true
  | .keydrop _ _ => true
  | .packageReset => true
  | .clockStepChange _ _ _ => true
  | .tlbinvAddress _ _ => true
  | .tlbinvAsid _ _ => true
  | .tlbinvPartition _ _ => true
  | .qpost _ _ => true
  | .qpop _ _ => true
  | .rgnselWrite _ _ => true
  | .reservationRangeWrite _ _ _ => true
  | .tscloRead _ _ => true
  | .systemRegisterWrite _ _ _ _ => true

/-- The well-formed instructions. A step without a word, and the unassigned word, have no common fields. -/
def Instr.wf (i : Instr) : Bool :=
  (match i.head with
    | some h => i.headOk h
    | none => true)
  && i.operandsOk

end Sys2Proof
end

