-- ==== Sys2Proof/Decode.lean ====
section
/-! DEFINITION. Decoding of instruction words and clause headers, total on any word and rejecting by name (R191,
R201-R211), and the encoder. -/

namespace Sys2Proof

/-- Why a word is no instruction (steps 4, 5 and 7 of R211); `operand` carries tinfo0 and tinfo3 of R349. -/
inductive Reject where
  | form
  | scope
  | operand (value field : Nat)
  deriving DecidableEq, Repr

/-- The fields of an instruction word as numbers (R201). -/
structure Raw where
  f     : Nat
  lu    : Nat
  b     : Nat
  a     : Nat
  d     : Nat
  neg   : Nat
  guard : Nat
  flag  : Nat
  scope : Nat
  op    : Nat
  deriving DecidableEq, Repr

/-- The fields of a word (R201). -/
def Raw.of (w : Nat) : Raw :=
  match cut [20, 3, 8, 8, 8, 1, 3, 2, 2] w with
  | [f, lu, b, a, d, neg, guard, flag, scope, op] => ⟨f, lu, b, a, d, neg, guard, flag, scope, op⟩
  | _ => ⟨0, 0, 0, 0, 0, 0, 0, 0, 0, 0⟩

/-- Field C, bits [19:12] of the R and X forms (R206). -/
def Raw.c (r : Raw) : Nat := r.f / 2 ^ 12
/-- The modifier, bits [11:0] of the R and X forms (R206). -/
def Raw.m (r : Raw) : Nat := r.f % 2 ^ 12
/-- Last-use bit of A, bit [22]. -/
def Raw.luA (r : Raw) : Bool := r.lu / 4 == 1
/-- Last-use bit of B, bit [21]. -/
def Raw.luB (r : Raw) : Bool := r.lu / 2 % 2 == 1
/-- Last-use bit of C, or of M-form store data, bit [20]. -/
def Raw.luC (r : Raw) : Bool := r.lu % 2 == 1

/-- The last-use rule of R204 on the fields of an R or X word; each argument says that the card reads the field. -/
def Raw.lastUseOk (r : Raw) (a b c : Bool) : Bool :=
  (!r.luA || (a && decide (r.a < 192))) && (!r.luB || (b && decide (r.b < 192)))
    && (!r.luC || (c && decide (r.c < 192)))

/-- Operand fields decoded: `none` where the form is illegal (step 4 of R211). -/
abbrev Body := Option (Except Reject Instr)

/-- A check of step 4 of R211. -/
def chk (b : Bool) : Option Unit := if b then some () else none

/-- A value below `n`, if it is one. -/
def finOf (n : Nat) (x : Nat) : Option (Fin n) := if h : x < n then some ⟨x, h⟩ else none

/-- A field that names a predicate (R206). -/
def predOf (x : Nat) : Option Pred := finOf 8 x

/-- A field that names a register of a class; `k` is the field's code of R349. -/
def regField (cls : RegClass) (x k : Nat) : Except Reject Reg :=
  match Reg.ofCode x with
  | some r => if cls.ok r then .ok r else .error (.operand x k)
  | none => .error (.operand x k)

/-- A field that names a tile (R206). -/
def tileField (x k : Nat) : Except Reject Tile :=
  if h : x < 64 then .ok ⟨x, h⟩ else .error (.operand x k)

/-- A modifier that names a system register (R210). -/
def srField (x : Nat) : Except Reject Unit := if srKnown x then .ok () else .error (.operand x 5)

/-- A field of CPY (R314). -/
def cpyField (k : CpyKind) (x i : Nat) : Except Reject CpyOpd :=
  match k with
  | .scratch => (regField .read x i).map .reg
  | .global => (regField .pair x i).map .reg
  | .tile => (tileField x i).map .tile

/-- The index operand of an M-form word (R36). -/
def indexField (mode x : Nat) : Except Reject Index :=
  match mode with
  | 0 => .ok .none
  | 1 => (regField .index x 2).map .n16
  | 2 => (regField .index x 2).map .i16
  | 3 => (regField .index x 2).map .n32
  | 4 => (regField .index x 2).map .i32
  | _ => (regField .evenReg x 2).map .n64

/-- The address fields of an M-form word (R36): its seven low bits and the address. `dSrc` says that the card reads
D as store data or operand. Every cache policy is accepted, for DISCARD and REQPAGE too, whose cards name none
(DEDUCED, log 19). -/
def memBody (r : Raw) (o : OrdSet) (k : MKind) (dSrc : Bool) : Option (Nat × Except Reject Addr) :=
  match cut [7, 1, 2, 3, 2, 2] r.f with
  | [off, lit, sc, im, cp, od, ms] => do
    let mscope ← MScope.of ms
    let order := Order.of od
    let fromLit := lit == 1
    chk (decide (im < 6))
    chk (o.ok order && (!(order == .plain) || mscope == .warp))
    chk (k.ok fromLit off im)
    chk (im != 0 || r.b == 0)
    chk (!r.luA || decide (r.a < 192))
    chk (!r.luB || (im != 0 && decide (r.b < 192)))
    chk (!r.luC || (dSrc && decide (r.d < 192)))
    some (off, do
      let base ← regField .base r.a 1
      let index ← indexField im r.b
      pure ⟨base, index, mscope, order, Policy.of cp, Fin.ofNat 4 sc, fromLit⟩)
  | _ => none

/-- Operand fields of opcodes 0x000-0x04C: integer, logic, packed, predicates and moves (R229-R239). -/
def bodyInt (op : Nat) (h : Head) (r : Raw) : Body :=
  if op < 0x4 then do
    let t := AddTy.of (op - 0x0)
    chk (r.c == 0)
    chk (r.lastUseOk true true false)
    chk (r.m == 0)
    some (do
      let d ← regField (if t.wide then .pair else .write) r.d 0
      let a ← regField (if t.wide then .pair else .read) r.a 1
      let b ← regField (if t.wide then .pair else .read) r.b 2
      pure (.add h t d a b))
  else
  if op < 0x8 then do
    let t := AddTy.of (op - 0x4)
    chk (r.c == 0)
    chk (r.lastUseOk true true false)
    chk (r.m == 0)
    some (do
      let d ← regField (if t.wide then .pair else .write) r.d 0
      let a ← regField (if t.wide then .pair else .read) r.a 1
      let b ← regField (if t.wide then .pair else .read) r.b 2
      pure (.sub h t d a b))
  else
  if op < 0xc then do
    let t := SatTy.of (op - 0x8)
    chk (r.c == 0)
    chk (r.lastUseOk true true false)
    chk (r.m == 0)
    some (do
      let d ← regField .write r.d 0
      let a ← regField .read r.a 1
      let b ← regField .read r.b 2
      pure (.addsat h t d a b))
  else
  if op < 0x10 then do
    let t := SatTy.of (op - 0xc)
    chk (r.c == 0)
    chk (r.lastUseOk true true false)
    chk (r.m == 0)
    some (do
      let d ← regField .write r.d 0
      let a ← regField .read r.a 1
      let b ← regField .read r.b 2
      pure (.subsat h t d a b))
  else
  if op < 0x11 then do
    chk (r.c == 0)
    chk (r.lastUseOk true true false)
    chk (r.m == 0)
    some (do
      let d ← regField .write r.d 0
      let a ← regField .read r.a 1
      let b ← regField .read r.b 2
      pure (.mul h d a b))
  else
  if op < 0x13 then do
    let t := Sgn.of (op - 0x11)
    chk (r.c == 0)
    chk (r.lastUseOk true true false)
    chk (r.m == 0)
    some (do
      let d ← regField .write r.d 0
      let a ← regField .read r.a 1
      let b ← regField .read r.b 2
      pure (.mulhi h t d a b))
  else
  if op < 0x14 then do
    chk (r.lastUseOk true true true)
    chk (r.m == 0)
    some (do
      let d ← regField .write r.d 0
      let a ← regField .read r.a 1
      let b ← regField .read r.b 2
      let c ← regField .read r.c 3
      pure (.mad h d a b c))
  else
  if op < 0x16 then do
    let t := Sgn.of (op - 0x14)
    chk (r.lastUseOk true true true)
    chk (r.m == 0)
    some (do
      let d ← regField .pair r.d 0
      let a ← regField .read r.a 1
      let b ← regField .read r.b 2
      let c ← regField .pair r.c 3
      pure (.madw h t d a b c))
  else
  if op < 0x18 then do
    let t := Sgn.of (op - 0x16)
    chk (r.c == 0)
    chk (r.lastUseOk true true false)
    chk (r.m == 0)
    some (do
      let d ← regField .write r.d 0
      let a ← regField .read r.a 1
      let b ← regField .read r.b 2
      pure (.idiv h t d a b))
  else
  if op < 0x1a then do
    let t := Sgn.of (op - 0x18)
    chk (r.c == 0)
    chk (r.lastUseOk true true false)
    chk (r.m == 0)
    some (do
      let d ← regField .write r.d 0
      let a ← regField .read r.a 1
      let b ← regField .read r.b 2
      pure (.irem h t d a b))
  else
  if op < 0x20 then do
    let t := MinTy.of (op - 0x1a)
    chk (r.c == 0)
    chk (r.lastUseOk true true false)
    chk (r.m == 0)
    some (do
      let d ← regField (if t.wide then .pair else .write) r.d 0
      let a ← regField (if t.wide then .pair else .read) r.a 1
      let b ← regField (if t.wide then .pair else .read) r.b 2
      pure (.min h t d a b))
  else
  if op < 0x26 then do
    let t := MinTy.of (op - 0x20)
    chk (r.c == 0)
    chk (r.lastUseOk true true false)
    chk (r.m == 0)
    some (do
      let d ← regField (if t.wide then .pair else .write) r.d 0
      let a ← regField (if t.wide then .pair else .read) r.a 1
      let b ← regField (if t.wide then .pair else .read) r.b 2
      pure (.max h t d a b))
  else
  if op < 0x28 then do
    let t := AbsTy.of (op - 0x26)
    chk (r.b == 0)
    chk (r.c == 0)
    chk (r.lastUseOk true false false)
    chk (r.m == 0)
    some (do
      let d ← regField .write r.d 0
      let a ← regField .read r.a 1
      pure (.abs h t d a))
  else
  if op < 0x29 then do
    chk (r.lastUseOk true true true)
    chk (r.m == 0)
    some (do
      let d ← regField .write r.d 0
      let a ← regField .read r.a 1
      let b ← regField .read r.b 2
      let c ← regField .read r.c 3
      pure (.sad h d a b c))
  else
  if op < 0x2a then do
    chk (r.lastUseOk true true true)
    match cut [8] r.m with
    | [x0, y] => do
        chk (y == 0)
        let lut := BitVec.ofNat 8 x0
        some (do
          let d ← regField .write r.d 0
          let a ← regField .read r.a 1
          let b ← regField .read r.b 2
          let c ← regField .read r.c 3
          pure (.lop3 h d a b c lut))
    | _ => none
  else
  if op < 0x2c then do
    let wide := op == 0x2b
    chk (r.c == 0)
    chk (r.lastUseOk true true false)
    chk (r.m == 0)
    some (do
      let d ← regField (if wide then .pair else .write) r.d 0
      let a ← regField (if wide then .pair else .read) r.a 1
      let b ← regField .read r.b 2
      pure (.shl h wide d a b))
  else
  if op < 0x30 then do
    let t := ShrTy.of (op - 0x2c)
    chk (r.c == 0)
    chk (r.lastUseOk true true false)
    chk (r.m == 0)
    some (do
      let d ← regField (if t.wide then .pair else .write) r.d 0
      let a ← regField (if t.wide then .pair else .read) r.a 1
      let b ← regField .read r.b 2
      pure (.shr h t d a b))
  else
  if op < 0x31 then do
    chk (r.c == 0)
    chk (r.lastUseOk true true false)
    chk (r.m == 0)
    some (do
      let d ← regField .write r.d 0
      let a ← regField .read r.a 1
      let b ← regField .read r.b 2
      pure (.rot h d a b))
  else
  if op < 0x32 then do
    chk (r.lastUseOk true true true)
    match cut [1] r.m with
    | [x0, y] => do
        chk (y == 0)
        let right := x0 == 1
        some (do
          let d ← regField .write r.d 0
          let a ← regField .read r.a 1
          let b ← regField .read r.b 2
          let c ← regField .read r.c 3
          pure (.fsh h d a b c right))
    | _ => none
  else
  if op < 0x34 then do
    let t := Sgn.of (op - 0x32)
    chk (r.lastUseOk true true true)
    chk (r.m == 0)
    some (do
      let d ← regField .write r.d 0
      let a ← regField .read r.a 1
      let b ← regField .read r.b 2
      let c ← regField .read r.c 3
      pure (.bfx h t d a b c))
  else
  if op < 0x35 then do
    chk (r.lastUseOk true true true)
    chk (r.m == 0)
    some (do
      let d ← regField .write r.d 0
      let a ← regField .read r.a 1
      let b ← regField .read r.b 2
      let c ← regField .read r.c 3
      pure (.bfi h d a b c))
  else
  if op < 0x36 then do
    chk (r.b == 0)
    chk (r.c == 0)
    chk (r.lastUseOk true false false)
    chk (r.m == 0)
    some (do
      let d ← regField .write r.d 0
      let a ← regField .read r.a 1
      pure (.popc h d a))
  else
  if op < 0x37 then do
    chk (r.b == 0)
    chk (r.c == 0)
    chk (r.lastUseOk true false false)
    chk (r.m == 0)
    some (do
      let d ← regField .write r.d 0
      let a ← regField .read r.a 1
      pure (.clz h d a))
  else
  if op < 0x38 then do
    chk (r.b == 0)
    chk (r.c == 0)
    chk (r.lastUseOk true false false)
    chk (r.m == 0)
    some (do
      let d ← regField .write r.d 0
      let a ← regField .read r.a 1
      pure (.brev h d a))
  else
  if op < 0x39 then do
    chk (r.b == 0)
    chk (r.c == 0)
    chk (r.lastUseOk true false false)
    chk (r.m == 0)
    some (do
      let d ← regField .write r.d 0
      let a ← regField .read r.a 1
      pure (.ffs h d a))
  else
  if op < 0x3e then do
    let t := CmpTy.of (op - 0x39)
    let d ← predOf r.d
    chk (r.c == 0)
    chk (r.lastUseOk true true false)
    match cut [3, 1, 3] r.m with
    | [x0, x1, x2, y] => do
        chk (y == 0)
        let cond ← Cond.of x0
        chk (x1 == 0)
        let e := Fin.ofNat 8 x2
        chk (t == .i16x2 || e == 0)
        some (do
          let a ← regField (if t.wide then .pair else .read) r.a 1
          let b ← regField (if t.wide then .pair else .read) r.b 2
          pure (.cmp h t d a b cond e))
    | _ => none
  else
  if op < 0x3f then do
    chk (r.c == 0)
    chk (r.lastUseOk true true false)
    match cut [3, 1] r.m with
    | [x0, x1, y] => do
        chk (y == 0)
        let p := Fin.ofNat 8 x0
        let neg := x1 == 1
        some (do
          let d ← regField .write r.d 0
          let a ← regField .read r.a 1
          let b ← regField .read r.b 2
          pure (.sel h d a b p neg))
    | _ => none
  else
  if op < 0x40 then do
    let d ← predOf r.d
    let a ← predOf r.a
    let b ← predOf r.b
    let c ← predOf r.c
    chk (r.lastUseOk false false false)
    match cut [8] r.m with
    | [x0, y] => do
        chk (y == 0)
        let lut := BitVec.ofNat 8 x0
        some (.ok (.plop h d a b c lut))
    | _ => none
  else
  if op < 0x41 then do
    chk (r.b == 0)
    chk (r.c == 0)
    match cut [1, 7] r.m with
    | [x0, x1, y] => do
        chk (y == 0)
        if x0 == 0 then do
          chk (x1 == 0)
          chk (r.a == 0)
          chk (r.lastUseOk false false false)
          some (do
            let d ← regField .write r.d 0
            pure (.pmovGet h d))
        else do
          chk (r.d == 0)
          chk (r.lastUseOk true false false)
          some (do
            let a ← regField .read r.a 1
            pure (.pmovSet h a (BitVec.ofNat 7 x1)))
    | _ => none
  else
  if op < 0x42 then do
    chk (r.b == 0)
    chk (r.c == 0)
    chk (r.lastUseOk true false false)
    chk (r.m == 0)
    some (do
      let d ← regField .write r.d 0
      let a ← regField .read r.a 1
      pure (.mov h d a))
  else
  if op < 0x43 then do
    chk (r.a == 0)
    chk (r.lastUseOk false false false)
    some (do
      let d ← regField .write r.d 0
      pure (.movi h d (BitVec.ofNat 28 (r.b * 2 ^ 20 + r.f))))
  else
  if op < 0x44 then do
    chk (r.a == 0)
    chk (r.lastUseOk false false false)
    some (do
      let d ← regField .write r.d 0
      pure (.movu h d (BitVec.ofNat 28 (r.b * 2 ^ 20 + r.f))))
  else
  if op < 0x45 then do
    chk (r.c == 0)
    chk (r.lastUseOk true true false)
    match cut [2, 1] r.m with
    | [x0, x1, y] => do
        chk (y == 0)
        let s := Fin.ofNat 4 x0
        let t := Sgn.ofLeaBit x1
        some (do
          let d ← regField .pair r.d 0
          let a ← regField .pair r.a 1
          let b ← regField .read r.b 2
          pure (.lea h t d a b s))
    | _ => none
  else
  if op < 0x46 then do
    chk (r.lastUseOk true true true)
    match cut [1] r.m with
    | [x0, y] => do
        chk (y == 0)
        let sat := x0 == 1
        some (do
          let d ← regField .write r.d 0
          let a ← regField .read r.a 1
          let b ← regField .read r.b 2
          let c ← regField .read r.c 3
          pure (.dot2 h d a b c sat))
    | _ => none
  else
  if op < 0x49 then do
    let t := Dot4Ty.of (op - 0x46)
    chk (r.lastUseOk true true true)
    match cut [1] r.m with
    | [x0, y] => do
        chk (y == 0)
        let sat := x0 == 1
        some (do
          let d ← regField .write r.d 0
          let a ← regField .read r.a 1
          let b ← regField .read r.b 2
          let c ← regField .read r.c 3
          pure (.dot4 h t d a b c sat))
    | _ => none
  else
  if op < 0x4a then do
    chk (r.c == 0)
    chk (r.lastUseOk true true false)
    chk (r.m == 0)
    some (do
      let d ← regField .write r.d 0
      let a ← regField .read r.a 1
      let b ← regField .read r.b 2
      pure (.shrr h d a b))
  else
  if op < 0x4c then do
    let t := PackTy.of (op - 0x4a)
    chk (r.c == 0)
    chk (r.lastUseOk true true false)
    chk (r.m == 0)
    some (do
      let d ← regField .write r.d 0
      let a ← regField .read r.a 1
      let b ← regField .read r.b 2
      pure (.pack h t d a b))
  else
  if op < 0x4d then do
    chk (r.b == 0)
    chk (r.c == 0)
    chk (r.lastUseOk true false false)
    chk (r.m == 0)
    some (do
      let d ← regField .pair r.d 0
      let a ← regField .read r.a 1
      pure (.unpack h d a))
  else
  none

/-- Operand fields of opcodes 0x050-0x063: lane exchange (R241-R249). -/
def bodyLane (op : Nat) (h : Head) (r : Raw) : Body :=
  if op < 0x54 then do
    let m := ShflMode.of (op - 0x50)
    chk (r.lastUseOk true true true)
    match cut [3, 3, 1] r.m with
    | [x0, x1, x2, y] => do
        chk (y == 0)
        let pd := Fin.ofNat 8 x0
        let e ← finOf 6 x1
        let keep := x2 == 1
        chk (!keep || r.c == 0)
        chk (!keep || !r.luC)
        some (do
          let d ← regField .write r.d 0
          let a ← regField .read r.a 1
          let b ← regField .read r.b 2
          let c ← regField .read r.c 3
          pure (.shfl h m d a b c keep e pd))
    | _ => none
  else
  if op < 0x56 then do
    let half := op == 0x55
    chk (r.lastUseOk true true true)
    match cut [1, 3] r.m with
    | [x0, x1, y] => do
        chk (y == 0)
        let down := x0 == 1
        let pd := Fin.ofNat 8 x1
        some (do
          let d ← regField .write r.d 0
          let a ← regField .read r.a 1
          let b ← regField .read r.b 2
          let c ← regField .read r.c 3
          pure (.slide h half d a b c down pd))
    | _ => none
  else
  if op < 0x59 then do
    chk (r.b == 0)
    chk (r.c == 0)
    chk (r.lastUseOk false false false)
    let a ← predOf r.a
    match cut [1, 1] r.m with
    | [x0, x1, y] => do
        chk (y == 0)
        let neg := x0 == 1
        let cnt := x1 == 1
        if op == 0x58 then
          some (do
            let d ← regField .write r.d 0
            pure (.vote h (.ballot d cnt) a neg))
        else do
          chk (!cnt)
          let d ← predOf r.d
          some (.ok (.vote h (if op == 0x56 then .any d else .all d) a neg))
    | _ => none
  else
  if op < 0x5a then do
    chk (r.b == 0)
    chk (r.c == 0)
    chk (r.lastUseOk true false false)
    match cut [3] r.m with
    | [x0, y] => do
        chk (y == 0)
        let pd := Fin.ofNat 8 x0
        some (do
          let d ← regField .write r.d 0
          let a ← regField .read r.a 1
          pure (.matchLanes h d a pd))
    | _ => none
  else
  if op < 0x5e then do
    let t := RedTy.of (op - 0x5a)
    chk (r.b == 0)
    chk (r.c == 0)
    chk (r.lastUseOk true false false)
    match cut [2, 1] r.m with
    | [x0, x1, y] => do
        chk (y == 0)
        let op ← RedOp.of x0
        let mem := x1 == 1
        chk (!(mem && h.scope == .warp))
        some (do
          let d ← regField (if t.wide then .pair else .write) r.d 0
          let a ← regField (if t.wide then .pair else .read) r.a 1
          pure (.reduce h t d a op mem))
    | _ => none
  else
  if op < 0x60 then do
    let t := ScanTy.of (op - 0x5e)
    chk (r.b == 0)
    chk (r.c == 0)
    chk (r.lastUseOk true false false)
    match cut [2, 1, 1] r.m with
    | [x0, x1, x2, y] => do
        chk (y == 0)
        let op ← RedOp.of x0
        let excl := x1 == 1
        let mem := x2 == 1
        chk (!(mem && h.scope == .warp))
        chk (t == .i32 || op == .add)
        some (do
          let d ← regField .write r.d 0
          let a ← regField .read r.a 1
          pure (.scan h t d a op excl mem))
    | _ => none
  else
  if op < 0x61 then do
    chk (r.b == 0)
    chk (r.c == 0)
    chk (r.lastUseOk true false false)
    chk (r.m == 0)
    some (do
      let d ← regField .write r.d 0
      let a ← regField .read r.a 1
      pure (.xpair h d a))
  else
  if op < 0x62 then do
    chk (r.b == 0)
    chk (r.c == 0)
    chk (r.lastUseOk true false false)
    match cut [3] r.m with
    | [x0, y] => do
        chk (y == 0)
        let pd := Fin.ofNat 8 x0
        some (do
          let d ← regField .write r.d 0
          let a ← regField .read r.a 1
          pure (.xswap h d a pd))
    | _ => none
  else
  if op < 0x63 then do
    chk (r.lastUseOk true true false)
    chk (r.m == 0)
    some (do
      let d ← regField .write r.d 0
      let a ← regField .read r.a 1
      let b ← regField .read r.b 2
      let c ← regField .sPair r.c 3
      pure (.intersect h d a b c))
  else
  if op < 0x64 then do
    chk (r.lastUseOk true false true)
    match cut [3, 1] r.m with
    | [x0, x1, y] => do
        chk (y == 0)
        let p := Fin.ofNat 8 x0
        let neg := x1 == 1
        some (do
          let d ← regField .write r.d 0
          let a ← regField .read r.a 1
          let b ← regField .sZero r.b 2
          let c ← regField .read r.c 3
          pure (.compact h d a b c p neg))
    | _ => none
  else
  none

/-- Operand fields of opcodes 0x080-0x0BF: floating point and conversion (R253-R265). -/
def bodyFloat (op : Nat) (h : Head) (r : Raw) : Body :=
  if op < 0x83 then do
    let t := FTy.of (op - 0x80)
    chk (r.c == 0)
    chk (r.lastUseOk true true false)
    match cut [3] r.m with
    | [x0, y] => do
        chk (y == 0)
        let rm ← Rm.of x0
        some (do
          let d ← regField .write r.d 0
          let a ← regField .read r.a 1
          let b ← regField .read r.b 2
          pure (.fadd h t d a b rm))
    | _ => none
  else
  if op < 0x86 then do
    let t := FTy.of (op - 0x83)
    chk (r.c == 0)
    chk (r.lastUseOk true true false)
    match cut [3] r.m with
    | [x0, y] => do
        chk (y == 0)
        let rm ← Rm.of x0
        some (do
          let d ← regField .write r.d 0
          let a ← regField .read r.a 1
          let b ← regField .read r.b 2
          pure (.fsub h t d a b rm))
    | _ => none
  else
  if op < 0x89 then do
    let t := FTy.of (op - 0x86)
    chk (r.c == 0)
    chk (r.lastUseOk true true false)
    match cut [3] r.m with
    | [x0, y] => do
        chk (y == 0)
        let rm ← Rm.of x0
        some (do
          let d ← regField .write r.d 0
          let a ← regField .read r.a 1
          let b ← regField .read r.b 2
          pure (.fmul h t d a b rm))
    | _ => none
  else
  if op < 0x8c then do
    let t := FTy.of (op - 0x89)
    chk (r.lastUseOk true true true)
    match cut [3] r.m with
    | [x0, y] => do
        chk (y == 0)
        let rm ← Rm.of x0
        some (do
          let d ← regField .write r.d 0
          let a ← regField .read r.a 1
          let b ← regField .read r.b 2
          let c ← regField .read r.c 3
          pure (.ffma h t d a b c rm))
    | _ => none
  else
  if op < 0x8d then do
    chk (r.lastUseOk true true true)
    match cut [3, 1, 1] r.m with
    | [x0, x1, x2, y] => do
        chk (y == 0)
        let rm ← Rm.of x0
        let bf16 := x1 == 1
        let hi := x2 == 1
        some (do
          let d ← regField .write r.d 0
          let a ← regField .read r.a 1
          let b ← regField .read r.b 2
          let c ← regField .read r.c 3
          pure (.ffmaw h d a b c rm bf16 hi))
    | _ => none
  else
  if op < 0x8f then do
    let t := FTy2.of (op - 0x8d)
    chk (r.c == 0)
    chk (r.lastUseOk true true false)
    chk (r.m == 0)
    some (do
      let d ← regField .write r.d 0
      let a ← regField .read r.a 1
      let b ← regField .read r.b 2
      pure (.fmin h t d a b))
  else
  if op < 0x91 then do
    let t := FTy2.of (op - 0x8f)
    chk (r.c == 0)
    chk (r.lastUseOk true true false)
    chk (r.m == 0)
    some (do
      let d ← regField .write r.d 0
      let a ← regField .read r.a 1
      let b ← regField .read r.b 2
      pure (.fmax h t d a b))
  else
  if op < 0x93 then do
    let t := FTy2.of (op - 0x91)
    let d ← predOf r.d
    chk (r.c == 0)
    chk (r.lastUseOk true true false)
    match cut [3, 1, 3] r.m with
    | [x0, x1, x2, y] => do
        chk (y == 0)
        let cond ← FCond.of x0
        chk (x1 == 0)
        let e := Fin.ofNat 8 x2
        chk (t == .f16x2 || e == 0)
        some (do
          let a ← regField .read r.a 1
          let b ← regField .read r.b 2
          pure (.fcmp h t d a b cond e))
    | _ => none
  else
  if op < 0x94 then do
    chk (r.b == 0)
    chk (r.c == 0)
    chk (r.lastUseOk true false false)
    match cut [3] r.m with
    | [x0, y] => do
        chk (y == 0)
        let rm ← Rm.of x0
        some (do
          let d ← regField .write r.d 0
          let a ← regField .read r.a 1
          pure (.frnd h d a rm))
    | _ => none
  else
  if op < 0x95 then do
    chk (r.c == 0)
    chk (r.lastUseOk true true false)
    match cut [3] r.m with
    | [x0, y] => do
        chk (y == 0)
        let rm ← Rm.of x0
        some (do
          let d ← regField .write r.d 0
          let a ← regField .read r.a 1
          let b ← regField .read r.b 2
          pure (.fscale h d a b rm))
    | _ => none
  else
  if op < 0x96 then do
    chk (r.b == 0)
    chk (r.c == 0)
    chk (r.lastUseOk true false false)
    match cut [2] r.m with
    | [x0, y] => do
        chk (y == 0)
        let t ← ClassTy.of x0
        some (do
          let d ← regField .write r.d 0
          let a ← regField .read r.a 1
          pure (.fclass h d a t))
    | _ => none
  else
  if op < 0x97 then do
    chk (r.b == 0)
    chk (r.c == 0)
    chk (r.lastUseOk true false false)
    match cut [3] r.m with
    | [x0, y] => do
        chk (y == 0)
        let rm ← Rm.of x0
        some (do
          let d ← regField .write r.d 0
          let a ← regField .read r.a 1
          pure (.frcp h d a rm))
    | _ => none
  else
  if op < 0x98 then do
    chk (r.b == 0)
    chk (r.c == 0)
    chk (r.lastUseOk true false false)
    chk (r.m == 0)
    some (do
      let d ← regField .write r.d 0
      let a ← regField .read r.a 1
      pure (.frsq h d a))
  else
  if op < 0x99 then do
    chk (r.b == 0)
    chk (r.c == 0)
    chk (r.lastUseOk true false false)
    match cut [3] r.m with
    | [x0, y] => do
        chk (y == 0)
        let rm ← Rm.of x0
        some (do
          let d ← regField .write r.d 0
          let a ← regField .read r.a 1
          pure (.fsqrt h d a rm))
    | _ => none
  else
  if op < 0x9a then do
    chk (r.b == 0)
    chk (r.c == 0)
    chk (r.lastUseOk true false false)
    chk (r.m == 0)
    some (do
      let d ← regField .write r.d 0
      let a ← regField .read r.a 1
      pure (.fexp2 h d a))
  else
  if op < 0x9b then do
    chk (r.b == 0)
    chk (r.c == 0)
    chk (r.lastUseOk true false false)
    chk (r.m == 0)
    some (do
      let d ← regField .write r.d 0
      let a ← regField .read r.a 1
      pure (.flog2 h d a))
  else
  if op < 0x9c then do
    chk (r.b == 0)
    chk (r.c == 0)
    chk (r.lastUseOk true false false)
    chk (r.m == 0)
    some (do
      let d ← regField .write r.d 0
      let a ← regField .read r.a 1
      pure (.fsin h d a))
  else
  if op < 0x9d then do
    chk (r.b == 0)
    chk (r.c == 0)
    chk (r.lastUseOk true false false)
    chk (r.m == 0)
    some (do
      let d ← regField .write r.d 0
      let a ← regField .read r.a 1
      pure (.fcos h d a))
  else
  if op < 0x9e then do
    chk (r.b == 0)
    chk (r.c == 0)
    chk (r.lastUseOk true false false)
    chk (r.m == 0)
    some (do
      let d ← regField .write r.d 0
      let a ← regField .read r.a 1
      pure (.ftanh h d a))
  else
  if op < 0xa0 then do
    let t := FDot2Ty.of (op - 0x9e)
    chk (r.lastUseOk true true true)
    match cut [3] r.m with
    | [x0, y] => do
        chk (y == 0)
        let rm ← Rm.of x0
        some (do
          let d ← regField .write r.d 0
          let a ← regField .read r.a 1
          let b ← regField .read r.b 2
          let c ← regField .read r.c 3
          pure (.fdot2 h t d a b c rm))
    | _ => none
  else
  if op < 0xa2 then do
    let t := FDot4Ty.of (op - 0xa0)
    chk (r.lastUseOk true true true)
    match cut [3] r.m with
    | [x0, y] => do
        chk (y == 0)
        let rm ← Rm.of x0
        some (do
          let d ← regField .write r.d 0
          let a ← regField .read r.a 1
          let b ← regField .read r.b 2
          let c ← regField .read r.c 3
          pure (.fdot4 h t d a b c rm))
    | _ => none
  else
  if op < 0xba then do
    let two := op == 0xb4 || op == 0xb6
    chk (r.c == 0)
    chk (r.lastUseOk true two false)
    chk (two || r.b == 0)
    let t ← CvtTy.of (op - 0xb0) r.m
    some (do
      let d ← regField .write r.d 0
      let a ← regField .read r.a 1
      let b ← regField .read r.b 2
      pure (.cvt h t d a b))
  else
  if op < 0xbb then do
    chk (r.lastUseOk true true true)
    match cut [3, 1] r.m with
    | [x0, x1, y] => do
        chk (y == 0)
        let rm ← Rm.of x0
        let h1 := x1 == 1
        some (do
          let d ← regField .write r.d 0
          let a ← regField .pair r.a 1
          let b ← regField .pair r.b 2
          let c ← regField .read r.c 3
          pure (.qpack h d a b c rm h1))
    | _ => none
  else
  if op < 0xbc then do
    chk (r.c == 0)
    chk (r.lastUseOk true true false)
    match cut [3, 1, 2] r.m with
    | [x0, x1, x2, y] => do
        chk (y == 0)
        let rm ← Rm.of x0
        chk (x1 == 0)
        let n := Fin.ofNat 4 x2
        some (do
          let d ← regField .pair r.d 0
          let a ← regField .read r.a 1
          let b ← regField .read r.b 2
          pure (.qunpack h d a b n rm))
    | _ => none
  else
  if op < 0xbd then do
    chk (r.c == 0)
    chk (r.lastUseOk true true false)
    match cut [2] r.m with
    | [x0, y] => do
        chk (y == 0)
        let k ← QK.of x0
        chk (k == .x4 || r.b == 0)
        chk (k == .x4 || !r.luB)
        some (do
          let d ← regField .write r.d 0
          let a ← regField (if k == .x1 then .read else .pair) r.a 1
          let b ← regField (if k == .x4 then .pair else .read) r.b 2
          pure (.qscale h k d a b))
    | _ => none
  else
  if op < 0xbe then do
    chk (r.b == 0)
    chk (r.c == 0)
    chk (r.lastUseOk true false false)
    match cut [3, 1] r.m with
    | [x0, x1, y] => do
        chk (y == 0)
        chk (x0 == 0)
        let fx16 := x1 == 1
        some (do
          let d ← regField .write r.d 0
          let a ← regField .read r.a 1
          pure (.fxcvtTo h d a fx16))
    | _ => none
  else
  if op < 0xbf then do
    chk (r.b == 0)
    chk (r.c == 0)
    chk (r.lastUseOk true false false)
    match cut [3, 1] r.m with
    | [x0, x1, y] => do
        chk (y == 0)
        let rm ← Rm.of x0
        let fx16 := x1 == 1
        some (do
          let d ← regField .write r.d 0
          let a ← regField .read r.a 1
          pure (.fxcvtFrom h d a fx16 rm))
    | _ => none
  else
  if op < 0xc0 then do
    chk (r.c == 0)
    chk (r.lastUseOk true true false)
    chk (r.m == 0)
    some (do
      let d ← regField .write r.d 0
      let a ← regField .read r.a 1
      let b ← regField .read r.b 2
      pure (.setfmt h d a b))
  else
  none

/-- Operand fields of opcodes 0x0C0-0x0F6: memory, existence and residency (R80, R267-R286). -/
def bodyMem (op : Nat) (h : Head) (r : Raw) : Body :=
  if op < 0xc5 then do
    let t := LdTy.of (op - 0xc0)
    let (off, e) ← memBody r .acq .plain false
    some (do
      let d ← regField (t.dcls) r.d 0
      let m ← e
      pure (.ld h t d m (BitVec.ofNat 7 off)))
  else
  if op < 0xca then do
    let t := LdTy.of (op - 0xc5)
    let (off, e) ← memBody r .rel .plain true
    some (do
      let d ← regField (t.dcls) r.d 0
      let m ← e
      pure (.st h t d m (BitVec.ofNat 7 off)))
  else
  if op < 0xcd then do
    let t := LdcTy.of (op - 0xca)
    let (off, e) ← memBody r .acq .plain false
    some (do
      let d ← regField (t.dcls) r.d 0
      let m ← e
      pure (.ldc h t d m (BitVec.ofNat 7 off)))
  else
  if op < 0xcf then do
    let t := W2.of (op - 0xcd)
    let (off, e) ← memBody r .acq .bounded false
    some (do
      let d ← regField (t.dcls) r.d 0
      let m ← e
      pure (.ldg h t d (Fin.ofNat 8 (off / 16)) m (BitVec.ofNat 4 off)))
  else
  if op < 0xd1 then do
    let t := W2.of (op - 0xcf)
    let (off, e) ← memBody r .rel .boundedStore true
    some (do
      let d ← regField (t.dcls) r.d 0
      let m ← e
      pure (.scat h t d m (BitVec.ofNat 7 off)))
  else
  if op < 0xd3 then do
    let t := W2.of (op - 0xd1)
    let (off, e) ← memBody r .acq .pred false
    some (do
      let d ← regField (t.dcls) r.d 0
      let m ← e
      pure (.lde h t d (Fin.ofNat 8 (off / 16)) m (BitVec.ofNat 4 off)))
  else
  if op < 0xd5 then do
    let t := W2.of (op - 0xd3)
    let (off, e) ← memBody r .acq .pred false
    some (do
      let d ← regField (t.dcls) r.d 0
      let m ← e
      pure (.ldr h t d (Fin.ofNat 8 (off / 16)) m (BitVec.ofNat 4 off)))
  else
  if op < 0xd6 then do
    let (off, e) ← memBody r .rel .plain false
    some (do
      let d ← regField .dest4 r.d 0
      let m ← e
      pure (.ealloc h d m (BitVec.ofNat 7 off)))
  else
  if op < 0xd7 then do
    chk (r.d == 0)
    let (off, e) ← memBody r .rel .plain false
    some (do
      let m ← e
      pure (.erase h m (BitVec.ofNat 7 off)))
  else
  if op < 0xd8 then do
    let (off, e) ← memBody r .rel .plain true
    some (do
      let d ← regField .dest4 r.d 0
      let m ← e
      pure (.eraser h d m (BitVec.ofNat 7 off)))
  else
  if op < 0xd9 then do
    let (off, e) ← memBody r .acq .plain false
    some (do
      let d ← regField .dest4 r.d 0
      let m ← e
      pure (.etest h d m (BitVec.ofNat 7 off)))
  else
  if op < 0xf1 then do
    let op := AtomOp.of (op - 0xd9)
    let (off, e) ← memBody r .any .plain true
    some (do
      let d ← regField (op.dcls) r.d 0
      let m ← e
      pure (.atom h op d m (BitVec.ofNat 7 off)))
  else
  if op < 0xf2 then do
    chk (r.d == 0)
    chk (r.a == 0)
    chk (r.b == 0)
    chk (r.lastUseOk false false false)
    match cut [15, 2, 3] r.f with
    | [x0, x1, x2, _] => do
        chk (x0 == 0)
        let order := Order.of x1
        chk (!(order == .plain))
        let s ← MScope.of x2
        some (.ok (.fence h order s))
    | _ => none
  else
  if op < 0xf3 then do
    chk (r.d == 0)
    chk (r.a == 0)
    chk (r.b == 0)
    chk (r.c == 0)
    chk (r.lastUseOk false false false)
    chk (decide (r.m < 2))
    some (.ok (if r.m == 0 then .tokenTake h else .tokenPass h))
  else
  if op < 0xf4 then do
    chk (r.d == 0)
    let (off, e) ← memBody r .plain .plain false
    some (do
      let m ← e
      pure (.prefetch h m (BitVec.ofNat 7 off)))
  else
  if op < 0xf5 then do
    let (off, e) ← memBody r .plain .plain true
    some (do
      let d ← regField .dest4 r.d 0
      let m ← e
      pure (.reserve h d m (BitVec.ofNat 7 off)))
  else
  if op < 0xf6 then do
    chk (r.d == 0)
    let (off, e) ← memBody r .rel .plain false
    some (do
      let m ← e
      pure (.discard h m (BitVec.ofNat 7 off)))
  else
  if op < 0xf7 then do
    chk (r.d == 0)
    let (off, e) ← memBody r .plain .plain false
    some (do
      let m ← e
      pure (.reqpage h m (BitVec.ofNat 7 off)))
  else
  none

/-- Operand fields of opcodes 0x100-0x11D: control and synchronisation (R289-R306). -/
def bodyCtl (op : Nat) (h : Head) (r : Raw) : Body :=
  if op < 0x101 then do
    chk (r.a == 0)
    chk (decide (r.b < 32))
    chk (r.d == 0)
    some (.ok (.bra h (BitVec.ofNat 14 (r.b * 2 ^ 9 + r.lu * 2 ^ 6 + r.f / 2 ^ 14)) (BitVec.ofNat 14 (r.f % 2 ^ 14))))
  else
  if op < 0x102 then do
    chk (r.d == 0)
    chk (r.b == 0)
    chk (r.c == 0)
    chk (r.lastUseOk true false false)
    match cut [12] r.m with
    | [x0, y] => do
        chk (y == 0)
        let reconv := BitVec.ofNat 12 x0
        some (do
          let a ← regField .evenReg r.a 1
          pure (.brx h a reconv))
    | _ => none
  else
  if op < 0x103 then do
    chk (r.a == 0)
    chk (decide (r.b < 32))
    some (do
      let d ← regField .base r.d 0
      pure (.call h d (BitVec.ofNat 14 (r.b * 2 ^ 9 + r.lu * 2 ^ 6 + r.f / 2 ^ 14)) (BitVec.ofNat 14 (r.f % 2 ^ 14))))
  else
  if op < 0x104 then do
    chk (r.b == 0)
    chk (r.c == 0)
    chk (r.lastUseOk true false false)
    match cut [12] r.m with
    | [x0, y] => do
        chk (y == 0)
        let reconv := BitVec.ofNat 12 x0
        some (do
          let d ← regField .base r.d 0
          let a ← regField .evenReg r.a 1
          pure (.callx h d a reconv))
    | _ => none
  else
  if op < 0x105 then do
    chk (r.d == 0)
    chk (r.b == 0)
    chk (r.c == 0)
    chk (r.lastUseOk true false false)
    chk (r.m == 0)
    some (do
      let a ← regField .evenReg r.a 1
      pure (.ret h a))
  else
  if op < 0x106 then do
    chk (r.d == 0)
    chk (r.a == 0)
    chk (r.b == 0)
    chk (r.c == 0)
    chk (r.lastUseOk false false false)
    chk (r.m == 0)
    some (.ok (.exit h))
  else
  if op < 0x107 then do
    chk (r.d == 0)
    chk (r.a == 0)
    chk (r.b == 0)
    chk (r.c == 0)
    chk (r.lastUseOk false false false)
    chk (r.m == 0)
    some (.ok (.rejoin h))
  else
  if op < 0x108 then do
    chk (r.d == 0)
    chk (r.b == 0)
    chk (r.c == 0)
    chk (r.lastUseOk true false false)
    chk (r.m == 0)
    some (do
      let a ← regField .read r.a 1
      pure (.join h a))
  else
  if op < 0x109 then do
    chk (r.d == 0)
    chk (r.a == 0)
    chk (r.b == 0)
    chk (r.c == 0)
    chk (r.lastUseOk false false false)
    chk (r.m == 0)
    some (.ok (.leave h))
  else
  if op < 0x10a then do
    chk (r.d == 0)
    chk (r.a == 0)
    chk (r.b == 0)
    chk (r.c == 0)
    chk (r.lastUseOk false false false)
    chk (r.m == 0)
    some (.ok (.nop h))
  else
  if op < 0x10b then do
    chk (r.d == 0)
    chk (r.lastUseOk true true true)
    match cut [3, 4] r.m with
    | [x0, x1, y] => do
        chk (y == 0)
        let pd := Fin.ofNat 8 x0
        let n ← finOf 9 x1
        chk (n != 0 || r.b == 0)
        chk (n != 0 || !r.luB)
        some (do
          let a ← regField .evenReg r.a 1
          let b ← regField (.run n.val) r.b 2
          let c ← regField .read r.c 3
          pure (.spawn h a b c pd n))
    | _ => none
  else
  if op < 0x10c then do
    chk (r.b == 0)
    chk (r.c == 0)
    chk (r.lastUseOk true false false)
    match cut [3] r.m with
    | [x0, y] => do
        chk (y == 0)
        let pd := Fin.ofNat 8 x0
        some (do
          let d ← regField .dest4 r.d 0
          let a ← regField .evenReg r.a 1
          pure (.launch h d a pd))
    | _ => none
  else
  if op < 0x10d then do
    chk (r.b == 0)
    chk (r.c == 0)
    chk (r.lastUseOk true false false)
    match cut [3, 1] r.m with
    | [x0, x1, y] => do
        chk (y == 0)
        let pd := Fin.ofNat 8 x0
        let test := x1 == 1
        some (do
          let d ← regField .dest4 r.d 0
          let a ← regField .read r.a 1
          pure (.lwait h d a pd test))
    | _ => none
  else
  if op < 0x10e then do
    chk (r.d == 0)
    chk (r.b == 0)
    chk (r.c == 0)
    chk (r.lastUseOk true false false)
    match cut [4, 1, 1] r.m with
    | [x0, x1, x2, y] => do
        chk (y == 0)
        let k := Fin.ofNat 16 x0
        let dirMin := x1 == 1
        let f32 := x2 == 1
        some (do
          let a ← regField .pair r.a 1
          pure (.kinit h a k dirMin f32))
    | _ => none
  else
  if op < 0x110 then do
    let f32 := op == 0x10f
    chk (r.d == 0)
    chk (r.c == 0)
    chk (r.lastUseOk true true false)
    match cut [4, 1] r.m with
    | [x0, x1, y] => do
        chk (y == 0)
        let k := Fin.ofNat 16 x0
        let rel := x1 == 1
        some (do
          let a ← regField .read r.a 1
          let b ← regField .read r.b 2
          pure (.kupd h f32 a b k rel))
    | _ => none
  else
  if op < 0x111 then do
    chk (r.a == 0)
    chk (r.b == 0)
    chk (r.c == 0)
    chk (r.lastUseOk false false false)
    match cut [4, 1] r.m with
    | [x0, x1, y] => do
        chk (y == 0)
        let k := Fin.ofNat 16 x0
        let acq := x1 == 1
        some (do
          let d ← regField .pair r.d 0
          pure (.kread h d k acq))
    | _ => none
  else
  if op < 0x112 then do
    let d ← predOf r.d
    chk (r.b == 0)
    chk (r.c == 0)
    chk (r.lastUseOk true false false)
    chk (r.m == 0)
    some (do
      let a ← regField .read r.a 1
      pure (.check h d a))
  else
  if op < 0x113 then do
    chk (r.d == 0)
    chk (r.lastUseOk true true true)
    chk (r.m == 0)
    some (do
      let a ← regField .read r.a 1
      let b ← regField .read r.b 2
      let c ← regField .read r.c 3
      pure (.abinit h a b c))
  else
  if op < 0x114 then do
    chk (r.c == 0)
    chk (r.lastUseOk true true false)
    chk (r.m == 0)
    some (do
      let d ← regField .write r.d 0
      let a ← regField .read r.a 1
      let b ← regField .read r.b 2
      pure (.abarrive h d a b))
  else
  if op < 0x115 then do
    chk (r.d == 0)
    chk (r.c == 0)
    chk (r.lastUseOk true true false)
    match cut [1] r.m with
    | [x0, y] => do
        chk (y == 0)
        let gen := x0 == 1
        some (do
          let a ← regField .read r.a 1
          let b ← regField .read r.b 2
          pure (.abwait h a b gen))
    | _ => none
  else
  if op < 0x116 then do
    chk (r.d == 0)
    chk (r.lastUseOk true true true)
    match cut [3] r.m with
    | [x0, y] => do
        chk (y == 0)
        let q := Fin.ofNat 8 x0
        some (do
          let a ← regField .read r.a 1
          let b ← regField .read r.b 2
          let c ← regField .read r.c 3
          pure (.qinit h a b c q))
    | _ => none
  else
  if op < 0x117 then do
    chk (r.a == 0)
    chk (r.b == 0)
    chk (r.c == 0)
    chk (r.lastUseOk false false false)
    match cut [3, 1] r.m with
    | [x0, x1, y] => do
        chk (y == 0)
        let q := Fin.ofNat 8 x0
        some (do
          let d ← regField .write r.d 0
          pure (if x1 == 0 then .qacqFree h d q else .qacqFull h d q))
    | _ => none
  else
  if op < 0x118 then do
    chk (r.d == 0)
    chk (r.a == 0)
    chk (r.b == 0)
    chk (r.c == 0)
    chk (r.lastUseOk false false false)
    match cut [3, 1] r.m with
    | [x0, x1, y] => do
        chk (y == 0)
        let q := Fin.ofNat 8 x0
        some (.ok (if x1 == 0 then .qrelFull h q else .qrelFree h q))
    | _ => none
  else
  if op < 0x119 then do
    chk (r.d == 0)
    chk (r.b == 0)
    chk (r.c == 0)
    chk (r.lastUseOk true false false)
    match cut [12] r.m with
    | [x0, y] => do
        chk (y == 0)
        let code := BitVec.ofNat 12 x0
        some (do
          let a ← regField .read r.a 1
          pure (.trap h a code))
    | _ => none
  else
  if op < 0x11a then do
    chk (r.d == 0)
    chk (r.a == 0)
    chk (r.b == 0)
    chk (r.c == 0)
    chk (r.lastUseOk false false false)
    chk (r.m == 0)
    some (.ok (.tret h))
  else
  if op < 0x11b then do
    chk (r.a == 0)
    chk (r.b == 0)
    chk (r.c == 0)
    chk (r.lastUseOk false false false)
    match cut [12] r.m with
    | [x0, y] => do
        chk (y == 0)
        let sr := BitVec.ofNat 12 x0
        some (do
          let d ← regField .write r.d 0
          srField sr.toNat
          pure (.getsr h d sr))
    | _ => none
  else
  if op < 0x11c then do
    chk (r.d == 0)
    chk (r.b == 0)
    chk (r.c == 0)
    chk (r.lastUseOk true false false)
    match cut [12] r.m with
    | [x0, y] => do
        chk (y == 0)
        let sr := BitVec.ofNat 12 x0
        some (do
          let a ← regField .read r.a 1
          srField sr.toNat
          pure (.setsr h a sr))
    | _ => none
  else
  if op < 0x11d then do
    chk (r.d == 0)
    chk (r.b == 0)
    chk (r.c == 0)
    chk (r.lastUseOk true false false)
    chk (r.m == 0)
    some (do
      let a ← regField .read r.a 1
      pure (.yield h a))
  else
  if op < 0x11e then do
    chk (r.d == 0)
    chk (r.b == 0)
    chk (r.c == 0)
    chk (r.lastUseOk true false false)
    chk (r.m == 0)
    some (do
      let a ← regField .read r.a 1
      pure (.prio h a))
  else
  none

/-- Operand fields of opcodes 0x140-0x152: pool, stash, copies, binning, fetch (R309-R326). -/
def bodyEng (op : Nat) (h : Head) (r : Raw) : Body :=
  if op < 0x141 then do
    chk (r.b == 0)
    chk (r.c == 0)
    chk (r.lastUseOk true false false)
    chk (r.m == 0)
    some (do
      let d ← regField .dest4 r.d 0
      let a ← regField .read r.a 1
      pure (.poolset h d a))
  else
  if op < 0x142 then do
    chk (r.a == 0)
    chk (r.b == 0)
    chk (r.c == 0)
    chk (r.lastUseOk false false false)
    match cut [5] r.m with
    | [x0, y] => do
        chk (y == 0)
        let n := Fin.ofNat 32 x0
        some (do
          let d ← regField .write r.d 0
          pure (.poolq h d n))
    | _ => none
  else
  if op < 0x143 then do
    chk (r.d == 0)
    chk (r.lastUseOk true true true)
    match cut [2] r.m with
    | [x0, y] => do
        chk (y == 0)
        let w := Fin.ofNat 4 x0
        some (do
          let a ← regField .pair r.a 1
          let b ← regField .read r.b 2
          let c ← regField .read r.c 3
          pure (.stash h a b c w))
    | _ => none
  else
  if op < 0x144 then do
    chk (r.d == 0)
    chk (r.a == 0)
    chk (r.b == 0)
    chk (r.c == 0)
    chk (r.lastUseOk false false false)
    match cut [2] r.m with
    | [x0, y] => do
        chk (y == 0)
        let w := Fin.ofNat 4 x0
        some (.ok (.unstash h w))
    | _ => none
  else
  if op < 0x145 then do
    chk (r.a == 0)
    chk (r.b == 0)
    chk (r.c == 0)
    chk (r.lastUseOk false false false)
    chk (r.m == 0)
    some (do
      let m ← tileField r.d 0
      pure (.talloc h m))
  else
  if op < 0x146 then do
    chk (r.a == 0)
    chk (r.b == 0)
    chk (r.c == 0)
    chk (r.lastUseOk false false false)
    chk (r.m == 0)
    some (do
      let m ← tileField r.d 0
      pure (.tfree h m))
  else
  if op < 0x14c then do
    let dir := CpyDir.of (op - 0x146)
    match cut [1, 1, 1, 3, 3] r.m with
    | [x0, x1, x2, x3, x4, y] => do
        chk (y == 0)
        let twoD := x0 == 1
        let ab := x1 == 1
        let toQ := x2 == 1
        let q := Fin.ofNat 8 x3
        let s ← MScope.of x4
        chk (!toQ || dir.queueOk)
        chk (toQ || q == 0)
        chk (!toQ || r.d == 0)
        chk (ab || r.c == 0)
        chk (r.lastUseOk (!dir.aTile) true ab)
        some (do
          let d ← if toQ then pure .queue else cpyField dir.dKind r.d 0
          let a ← cpyField dir.aKind r.a 1
          let b ← regField (if twoD then .quadReg else .read) r.b 2
          let c ← regField .read r.c 3
          pure (.cpy h dir d a b c twoD ab q s))
    | _ => none
  else
  if op < 0x14d then do
    chk (r.lastUseOk true true true)
    match cut [3, 3, 3] r.m with
    | [x0, x1, x2, y] => do
        chk (y == 0)
        let size := Fin.ofNat 8 x0
        chk (x1 == 0)
        let s ← MScope.of x2
        chk (decide (2 ≤ size.val))
        some (do
          let d ← regField .pair r.d 0
          let a ← regField .read r.a 1
          let b ← regField .read r.b 2
          let c ← regField .read r.c 3
          pure (.cpyh h d a b c size s))
    | _ => none
  else
  if op < 0x14e then do
    chk (r.d == 0)
    chk (r.lastUseOk true true true)
    chk (r.m == 0)
    some (do
      let a ← regField .read r.a 1
      let b ← regField .read r.b 2
      let c ← regField .read r.c 3
      pure (.binc h a b c))
  else
  if op < 0x14f then do
    chk (r.d == 0)
    chk (r.a == 0)
    chk (r.b == 0)
    chk (r.c == 0)
    chk (r.lastUseOk false false false)
    chk (r.m == 0)
    some (.ok (.binp h))
  else
  if op < 0x150 then do
    chk (r.d == 0)
    chk (r.a == 0)
    chk (r.b == 0)
    chk (r.c == 0)
    chk (r.lastUseOk false false false)
    chk (r.m == 0)
    some (.ok (.crel h))
  else
  if op < 0x151 then do
    chk (r.d == 0)
    chk (r.b == 0)
    chk (r.c == 0)
    chk (r.lastUseOk true false false)
    match cut [3] r.m with
    | [x0, y] => do
        chk (y == 0)
        let n := Fin.ofNat 8 x0
        some (do
          let a ← regField .pair r.a 1
          pure (.fhnd h a n))
    | _ => none
  else
  if op < 0x153 then do
    let t := W2.of (op - 0x151)
    chk (r.c == 0)
    chk (r.lastUseOk true true false)
    match cut [3, 3] r.m with
    | [x0, x1, y] => do
        chk (y == 0)
        let n := Fin.ofNat 8 x0
        let pd := Fin.ofNat 8 x1
        some (do
          let d ← regField (if t.wide then .pair else .dest4) r.d 0
          let a ← regField .read r.a 1
          let b ← regField .read r.b 2
          pure (.fetch h t d a b n pd))
    | _ => none
  else
  none

/-- Operand fields of opcodes 0x180-0x1A4: matrix engine and solver (R330-R343). -/
def bodyMat (op : Nat) (h : Head) (r : Raw) : Body :=
  if op < 0x190 then do
    let t := MmaTy.of (op - 0x180)
    chk (r.lastUseOk false false false)
    match cut [1, 1] r.m with
    | [x0, x1, y] => do
        chk (y == 0)
        let sat := x0 == 1
        let bs := x1 == 1
        chk (!sat || t.isInt)
        chk (bs || r.c == 0)
        some (do
          let d ← tileField r.d 0
          let a ← tileField r.a 1
          let b ← tileField r.b 2
          let c ← tileField r.c 3
          pure (.mma h t d a b c sat bs))
    | _ => none
  else
  if op < 0x198 then do
    let t := MmasTy.of (op - 0x190)
    chk (r.lastUseOk false false false)
    match cut [1, 1] r.m with
    | [x0, x1, y] => do
        chk (y == 0)
        let sat := x0 == 1
        let bs := x1 == 1
        chk (!sat || t.isInt)
        chk (bs || r.c == 0)
        some (do
          let d ← tileField r.d 0
          let a ← tileField r.a 1
          let b ← tileField r.b 2
          let c ← tileField r.c 3
          pure (.mmas h t d a b c sat bs))
    | _ => none
  else
  if op < 0x199 then do
    chk (r.a == 0)
    chk (r.b == 0)
    chk (r.c == 0)
    chk (r.lastUseOk false false false)
    chk (r.m == 0)
    some (do
      let d ← tileField r.d 0
      pure (.tzero h d))
  else
  if op < 0x19a then do
    chk (r.b == 0)
    chk (r.c == 0)
    chk (r.lastUseOk true false false)
    chk (r.m == 0)
    some (do
      let d ← tileField r.d 0
      let a ← regField .read r.a 1
      pure (.tfill h d a))
  else
  if op < 0x19b then do
    chk (r.b == 0)
    chk (r.c == 0)
    chk (r.lastUseOk false false false)
    match cut [3, 2] r.m with
    | [x0, x1, y] => do
        chk (y == 0)
        let p := Fin.ofNat 8 x0
        let src ← TSrc.of x1
        some (do
          let d ← tileField r.d 0
          let a ← tileField r.a 1
          pure (.tcvt h d a p src))
    | _ => none
  else
  if op < 0x19c then do
    chk (r.b == 0)
    chk (r.c == 0)
    chk (r.lastUseOk false false false)
    match cut [2] r.m with
    | [x0, y] => do
        chk (y == 0)
        let w := Fin.ofNat 4 x0
        some (do
          let d ← tileField r.d 0
          let a ← tileField r.a 1
          pure (.ttrans h d a w))
    | _ => none
  else
  if op < 0x19d then do
    chk (r.c == 0)
    chk (r.lastUseOk false false false)
    match cut [2] r.m with
    | [x0, y] => do
        chk (y == 0)
        let t ← TAddTy.of x0
        some (do
          let d ← tileField r.d 0
          let a ← tileField r.a 1
          let b ← tileField r.b 2
          pure (.tadd h d a b t))
    | _ => none
  else
  if op < 0x19e then do
    chk (r.b == 0)
    chk (r.c == 0)
    chk (r.lastUseOk false false false)
    match cut [1, 2, 2] r.m with
    | [x0, x1, x2, y] => do
        chk (y == 0)
        let col := x0 == 1
        let op ← RedOp.of x1
        let t ← TSrc.of x2
        some (do
          let d ← regField .write r.d 0
          let a ← tileField r.a 1
          pure (.tred h d a col op t))
    | _ => none
  else
  if op < 0x19f then do
    chk (r.c == 0)
    chk (r.lastUseOk false true false)
    chk (r.m == 0)
    some (do
      let d ← regField .write r.d 0
      let a ← tileField r.a 1
      let b ← regField .read r.b 2
      pure (.ttov h d a b))
  else
  if op < 0x1a0 then do
    chk (r.c == 0)
    chk (r.lastUseOk true true false)
    chk (r.m == 0)
    some (do
      let d ← tileField r.d 0
      let a ← regField .read r.a 1
      let b ← regField .read r.b 2
      pure (.vtot h d a b))
  else
  if op < 0x1a1 then do
    chk (r.c == 0)
    chk (r.lastUseOk false false false)
    match cut [5, 1] r.m with
    | [x0, x1, y] => do
        chk (y == 0)
        let n := Fin.ofNat 32 x0
        let fx16 := x1 == 1
        some (do
          let d ← tileField r.d 0
          let a ← regField .vReg r.a 1
          let b ← regField .sReg r.b 2
          pure (.tlu h d a b n fx16))
    | _ => none
  else
  if op < 0x1a2 then do
    chk (r.c == 0)
    chk (r.lastUseOk false true false)
    match cut [5, 1, 1] r.m with
    | [x0, x1, x2, y] => do
        chk (y == 0)
        let n := Fin.ofNat 32 x0
        let fx16 := x1 == 1
        let p := x2 == 1
        chk (p || r.b == 0)
        chk (p || !r.luB)
        some (do
          let d ← tileField r.d 0
          let a ← tileField r.a 1
          let b ← regField .read r.b 2
          pure (.ttrsLower h d a b n fx16 p))
    | _ => none
  else
  if op < 0x1a3 then do
    chk (r.b == 0)
    chk (r.c == 0)
    chk (r.lastUseOk false false false)
    match cut [5, 1] r.m with
    | [x0, x1, y] => do
        chk (y == 0)
        let n := Fin.ofNat 32 x0
        let fx16 := x1 == 1
        some (do
          let d ← tileField r.d 0
          let a ← tileField r.a 1
          pure (.ttrsUpper h d a n fx16))
    | _ => none
  else
  if op < 0x1a4 then do
    chk (r.lastUseOk false true false)
    match cut [5, 1, 3] r.m with
    | [x0, x1, x2, y] => do
        chk (y == 0)
        let n := Fin.ofNat 32 x0
        let fx16 := x1 == 1
        let pd := Fin.ofNat 8 x2
        some (do
          let d ← regField .vReg r.d 0
          let a ← tileField r.a 1
          let b ← regField .vReg r.b 2
          let c ← regField .sPair r.c 3
          pure (.tjac h d a b c n fx16 pd))
    | _ => none
  else
  if op < 0x1a5 then do
    chk (r.c == 0)
    chk (r.lastUseOk true true false)
    match cut [5, 1] r.m with
    | [x0, x1, y] => do
        chk (y == 0)
        chk (x0 == 0)
        let fx16 := x1 == 1
        some (do
          let d ← tileField r.d 0
          let a ← regField .read r.a 1
          let b ← regField .read r.b 2
          pure (.tupd h d a b fx16))
    | _ => none
  else
  none

/-- Operand fields of a word by opcode. -/
def body (op : Nat) (h : Head) (r : Raw) : Body :=
  if op < 0x050 then bodyInt op h r
  else if op < 0x080 then bodyLane op h r
  else if op < 0x0C0 then bodyFloat op h r
  else if op < 0x100 then bodyMem op h r
  else if op < 0x140 then bodyCtl op h r
  else if op < 0x180 then bodyEng op h r
  else bodyMat op h r

/-- The last-use bits of the common fields; in the B form bits [22:20] belong to the target (R201). -/
def Raw.head (r : Raw) (flag : Flag) : Head :=
  let b := r.op == 0x100 || r.op == 0x102
  ⟨Scope.of r.scope, flag, Fin.ofNat 8 r.guard, r.neg == 1, r.luA && !b, r.luB && !b, r.luC && !b⟩

/-- The instruction a word encodes, or the first static reason of R211 it is none. A word whose opcode is
unassigned is the row ILLEGAL_OPCODE. -/
def decode (w : Word) : Except Reject Instr :=
  let r := Raw.of w.toNat
  match rowOf r.op with
  | none => .ok (.illegalOpcode w)
  | some row =>
    match Flag.of r.flag with
    | none => .error .form
    | some flag =>
      if row.async == !(flag == .none) then
        let h := r.head flag
        match body r.op h r with
        | none => .error .form
        | some e => if row.scopes.has h.scope then e else .error .scope
      else .error .form

/-- The last-use bits of a word (R201). -/
def Head.lu (h : Head) : Nat := 4 * h.luA.toNat + 2 * h.luB.toNat + h.luC.toNat

/-- The word of a well-formed instruction (R201); `none` for a step that has no word. -/
def encode (i : Instr) : Option Word :=
  match i with
  | .illegalOpcode w => some w
  | i =>
    i.head.map fun h =>
      let o := i.operands
      BitVec.ofNat 64 (glue [(20, o.f), (3, o.lu + h.lu), (8, o.b), (8, o.a), (8, o.d), (1, h.neg.toNat),
        (3, h.guard.val), (2, h.flag.code), (2, h.scope.code), (9, i.opcode)])

/-- A clause header (R191). -/
structure Header where
  count  : Nat
  safe   : Bool
  wait   : BitVec 12
  flagA  : Nat
  flagB  : Nat
  reconv : Bool
  resv   : Nat
  lit    : Half
  deriving DecidableEq, Repr

/-- The header a word holds (R191). -/
def Header.of (w : Word) : Header :=
  match cut [32, 7, 1, 4, 4, 12, 1] w.toNat with
  | [lit, resv, rc, fb, fa, wait, safe, count] =>
    ⟨count, safe == 1, BitVec.ofNat 12 wait, fa, fb, rc == 1, resv, BitVec.ofNat 32 lit⟩
  | _ => ⟨0, false, 0, 15, 15, false, 0, 0⟩

/-- The conditions of R191: count 1-7, flags 0-11 or 15, reserved bits 0. -/
def Header.legal (h : Header) : Bool :=
  h.count != 0 && (decide (h.flagA < 12) || h.flagA == 15) && (decide (h.flagB < 12) || h.flagB == 15) && h.resv == 0

/-- The instruction the decoder reads from an instruction whose bits are `w` (the opcode table gives rows at most
one 64-bit word, stored little-endian, R3). -/
def decodeTableWord (_nbits w : Nat) : Option Instr :=
  match decode (BitVec.ofNat 64 w) with
  | .ok i => some i
  | .error _ => none

end Sys2Proof
end

