-- ==== Sys2Proof/Machine/Aes.lean ====
section
/-! DEFINITION. AES-256-XTS over one 128 B line, as a sealed partition stores its lines (R390). The cipher is the
published standard the rule names; bytes are numbers below 256. -/

namespace Sys2Proof.Machine

/-- Multiplication by x in the AES field. -/
def gfX (a : Nat) : Nat := let d := 2 * a; if d < 256 then d else Nat.xor (d % 256) 0x1B

/-- Product in the AES field, over the low `fuel` bits of `b`. -/
def gfMul : (fuel a b : Nat) → Nat
  | 0, _, _ => 0
  | n + 1, a, b => Nat.xor (if b % 2 = 1 then a else 0) (gfMul n (gfX a) (b / 2))

/-- Product of two field elements. -/
def gf (a b : Nat) : Nat := gfMul 8 a b

/-- Inverse in the AES field (the 254th power), 0 for 0. -/
def gfInv (a : Nat) : Nat :=
  let a2 := gf a a
  let a4 := gf a2 a2
  let a8 := gf a4 a4
  let a16 := gf a8 a8
  let a32 := gf a16 a16
  let a64 := gf a32 a32
  let a128 := gf a64 a64
  gf a128 (gf a64 (gf a32 (gf a16 (gf a8 (gf a4 a2)))))

/-- Rotation of a byte to the left. -/
def rotByte (a k : Nat) : Nat := (a * 2 ^ k) % 256 + a / 2 ^ (8 - k)

/-- The substitution of one byte. -/
def aesSub (a : Nat) : Nat :=
  let b := gfInv a
  Nat.xor b (Nat.xor (rotByte b 1) (Nat.xor (rotByte b 2) (Nat.xor (rotByte b 3) (Nat.xor (rotByte b 4) 0x63))))

/-- The inverse substitution of one byte. -/
def aesUnsub (a : Nat) : Nat :=
  gfInv (Nat.xor (rotByte a 1) (Nat.xor (rotByte a 3) (Nat.xor (rotByte a 6) 0x05)))

/-- Exclusive or of two byte lists. -/
def xorBytes (a b : List Nat) : List Nat := List.zipWith Nat.xor a b

/-- Key schedule: words of four bytes, newest first, `n` more to make; `i` is the index of the next. -/
def aesExpand : (n i rcon : Nat) → List (List Nat) → List (List Nat)
  | 0, _, _, ws => ws
  | n + 1, i, rcon, ws =>
    let t := ws.headD []
    let t' := if i % 8 = 0 then
        match (t.drop 1 ++ t.take 1).map aesSub with
        | a :: r => Nat.xor a rcon :: r
        | [] => []
      else if i % 8 = 4 then t.map aesSub else t
    aesExpand n (i + 1) (if i % 8 = 0 then gfX rcon else rcon) (xorBytes (ws.getD 7 []) t' :: ws)

/-- Lists cut into pieces of `k`. -/
def pieces (k : Nat) : (n : Nat) → List Nat → List (List Nat)
  | 0, _ => []
  | n + 1, l => l.take k :: pieces k n (l.drop k)

/-- The fifteen round keys of a 32-byte key. -/
def aesKeys (key : List Nat) : List (List Nat) :=
  pieces 16 15 (aesExpand 52 8 1 (pieces 4 8 key).reverse).reverse.flatten

/-- Row shift of a block held by columns. -/
def shiftRows (b : List Nat) : List Nat :=
  (List.range 16).map fun i => b.getD ((i + 4 * (i % 4)) % 16) 0

/-- Inverse row shift. -/
def unshiftRows (b : List Nat) : List Nat :=
  (List.range 16).map fun i => b.getD ((i + 12 * (i % 4)) % 16) 0

/-- One column times the circulant of four coefficients. -/
def mixColumn (k : List Nat) (c : List Nat) : List Nat :=
  (List.range 4).map fun i => (List.range 4).foldl (fun acc j => Nat.xor acc (gf (c.getD j 0) (k.getD ((j + 4 - i) % 4) 0))) 0

/-- Column mix of a block with the given coefficients. -/
def mixColumns (k b : List Nat) : List Nat := ((pieces 4 4 b).map (mixColumn k)).flatten

/-- The middle rounds of encryption. -/
def aesRounds : List (List Nat) → List Nat → List Nat
  | [], b => b
  | [k], b => xorBytes (shiftRows (b.map aesSub)) k
  | k :: ks, b => aesRounds ks (xorBytes (mixColumns [2, 3, 1, 1] (shiftRows (b.map aesSub))) k)

/-- AES-256 encryption of a 16-byte block. -/
def aesEncrypt (key block : List Nat) : List Nat :=
  match aesKeys key with
  | k :: ks => aesRounds ks (xorBytes block k)
  | [] => block

/-- The middle rounds of decryption, keys last to first. -/
def aesUnrounds : List (List Nat) → List Nat → List Nat
  | [], b => b
  | [k], b => xorBytes ((unshiftRows b).map aesUnsub) k
  | k :: ks, b => aesUnrounds ks (mixColumns [14, 11, 13, 9] (xorBytes ((unshiftRows b).map aesUnsub) k))

/-- AES-256 decryption of a 16-byte block. -/
def aesDecrypt (key block : List Nat) : List Nat :=
  match (aesKeys key).reverse with
  | k :: ks => aesUnrounds ks (xorBytes block k)
  | [] => block

/-- The next tweak of XTS: multiplication by x in the 128-bit field, bytes little-endian. -/
def xtsNext (t : List Nat) : List Nat :=
  let n := t.foldr (fun b acc => b + 256 * acc) 0 * 2
  let m := if n < 2 ^ 128 then n else Nat.xor (n % 2 ^ 128) 0x87
  (List.range 16).map fun i => m / 256 ^ i % 256

/-- The blocks of a line under XTS, with tweak `t` for the first. -/
def xtsBlocks (f : List Nat → List Nat) : List (List Nat) → List Nat → List Nat
  | [], _ => []
  | b :: bs, t => xorBytes (f (xorBytes b t)) t ++ xtsBlocks f bs (xtsNext t)

/-- The tweak of a data unit: its number, little-endian, under the second key. -/
def xtsTweak (pair : List Nat) (dataUnit : Nat) : List Nat :=
  aesEncrypt (pair.drop 32) ((List.range 16).map fun i => dataUnit / 256 ^ i % 256)

/-- A 128 B line encrypted under a key pair (R390). -/
def xtsEncrypt (pair : List Nat) (dataUnit : Nat) (line : List Nat) : List Nat :=
  xtsBlocks (aesEncrypt (pair.take 32)) (pieces 16 8 line) (xtsTweak pair dataUnit)

/-- A 128 B line decrypted under a key pair (R390). -/
def xtsDecrypt (pair : List Nat) (dataUnit : Nat) (line : List Nat) : List Nat :=
  xtsBlocks (aesDecrypt (pair.take 32)) (pieces 16 8 line) (xtsTweak pair dataUnit)

end Sys2Proof.Machine
end

