-- ==== Sys2Proof/Machine/Tab.lean ====
section
/-! DEFINITION. Sparse data by number: a list of keys and values with strictly rising keys. Memory, scratch, tiles,
register files and the tables of units are held in this form, so equal contents are equal data. -/

namespace Sys2Proof.Machine

/-- A finite map from numbers. -/
abbrev Tab (α : Type) := List (Nat × α)

/-- The value at a key, if the key is listed. -/
def Tab.get? {α : Type} : Tab α → Nat → Option α
  | [], _ => none
  | (k, v) :: r, n => if n = k then some v else Tab.get? r n

/-- The map with a key set. -/
def Tab.put {α : Type} : Tab α → Nat → α → Tab α
  | [], n, x => [(n, x)]
  | (k, v) :: r, n, x =>
    if n < k then (n, x) :: (k, v) :: r else if n = k then (n, x) :: r else (k, v) :: Tab.put r n x

/-- The map without a key. -/
def Tab.del {α : Type} (m : Tab α) (n : Nat) : Tab α := m.filter fun c => c.1 != n

/-- Whether the keys rise strictly. -/
def Tab.sorted {α : Type} : Tab α → Bool
  | [] => true
  | [_] => true
  | (k, _) :: (k', v') :: r => decide (k < k') && Tab.sorted ((k', v') :: r)

/-- The value at a key of a map of numbers, 0 where none is listed. -/
def Tab.num {w : Nat} (m : Tab (BitVec w)) (n : Nat) : BitVec w := (m.get? n).getD 0

/-- A map of numbers with a key set; 0 is held by listing nothing. -/
def Tab.setNum {w : Nat} (m : Tab (BitVec w)) (n : Nat) (x : BitVec w) : Tab (BitVec w) :=
  if x = 0 then m.del n else m.put n x

/-- The canonical form of a map of numbers: strictly rising keys, no listed 0. -/
def Tab.wf {w : Nat} (m : Tab (BitVec w)) : Bool := Tab.sorted m && m.all fun c => !(c.2 == 0)

/-- The keys of a map, rising. -/
def Tab.keys {α : Type} (m : Tab α) : List Nat := m.map (·.1)

/-- The values of a map in key order. -/
def Tab.vals {α : Type} (m : Tab α) : List α := m.map (·.2)

/-- The map without the keys a test selects. -/
def Tab.drop {α : Type} (m : Tab α) (p : Nat → Bool) : Tab α := m.filter fun c => !p c.1

/-- The map with every value changed. -/
def Tab.mapV {α β : Type} (m : Tab α) (f : Nat → α → β) : Tab β := m.map fun c => (c.1, f c.1 c.2)

/-- The smallest number from `start` that is no key, looked for among `fuel` numbers. -/
def Tab.freshFrom {α : Type} (m : Tab α) : Nat → Nat → Nat
  | 0, start => start
  | fuel + 1, start => if (m.get? start).isSome then Tab.freshFrom m fuel (start + 1) else start

end Sys2Proof.Machine
end

