-- ==== Sys2Proof/Machine/State.lean ====
section
/-! DEFINITION. The state of the machine: everything the spec gives the Lumvin L8, as plain data. -/

namespace Sys2Proof.Machine

/-- The value of a 32-lane register, lane 0 first. -/
abbrev Row := List Half

/-- A set of lanes of one warp, bit `l` for lane `l`. -/
abbrev Lanes := BitVec 32

/-! ## Warps -/

/-- What a rename entry that is not empty holds (R44, R48). -/
inductive Entry where
  | uniform (u : Half)
  | affine (b d : Half)
  | row (r : Row)
  deriving DecidableEq, Repr

/-- One divergence a split record remembers: its number, the reconvergence PC, the divergence fmt (R135, R136), and from which
of its sides the record's lanes come: 1 the taken side, 2 the other, 3 both since they have merged. -/
structure Div where
  id  : Nat
  rpc : Option Word
  fmt : Half
  side : Nat
  deriving DecidableEq, Repr

/-- An error record of a flag or a trap to be taken: code, tinfo0-tinfo3, the lanes that met it with their warp, and
the issue order of its instruction (R200, R349); the wid of that warp, where it is not the one whose flag holds the
record (R347). -/
structure ErrRec where
  code  : Nat
  info0 : Half
  info1 : Half
  info2 : Half
  info3 : Half
  mask  : Lanes
  order : Nat
  wid   : Option Nat
  deriving DecidableEq, Repr

/-- One lane that waits in LWAIT: its warp and lane, the handle, and the completion delivered to it (R297). -/
structure LwaitLane where
  warp   : Nat
  lane   : Nat
  handle : Half
  got    : Option Half
  deriving DecidableEq, Repr

/-- The XTS key pair of a sealed line; `none` where lines are stored plain (R390). -/
abbrev Key := Option (List Byte)

/-- What an access needs of a peer package (R58, R373): a fabric line to read or to own, to be stored under a key, or a
line of this package that peers hold, by its number in the home directory, back to read or back whole. -/
inductive Want where
  | share (line : Nat) (key : Key)
  | own (line : Nat) (key : Key)
  | home (line : Nat) (write : Bool)
  deriving DecidableEq, Repr

/-- What keeps an instruction that has had its rendezvous from issuing (R167: its operands and its unit). -/
inductive Stall where
  /-- accesses of these warps that have not taken their value or been performed; `all` counts KUPDs too -/
  | accesses (warps : List Nat) (all : Bool)
  /-- a flag of these warps that counts 63 commands (R197) -/
  | flagFull (warps : List Nat) (flag : Nat)
  /-- every flag of these warps to be set (R291) -/
  | flags (warps : List Nat)
  /-- births in flight of `n` tiles of a region (R76) -/
  | births (part region tile n : Nat)
  /-- lines asked of peers (R373) -/
  | lines (ls : List Want)
  /-- the commit token, a safe condition (R282) -/
  | token (kernel block : Nat)
  /-- engine commands of a block (R365) -/
  | engines (block : Nat)
  /-- commands that name a tile (R311) -/
  | tile (block tile : Nat)
  /-- a stash window that closes (R313) -/
  | window (block window : Nat)
  /-- engine commands that name a queue (R303) -/
  | queue (block queue : Nat)
  /-- a slot of a queue to take, a safe condition (R303) -/
  | slot (block queue : Nat) (full : Bool)
  /-- KUPDs of these warps on an incumbent, and broadcasts of theirs, or with `all` of any warp, to copies: a core's own,
  or with `all` of every core (R102, R106) -/
  | incumbent (warps : List Nat) (core k : Nat) (all : Bool)
  /-- stamps in flight of a partition that span the whole window of R93 -/
  | span (part : Nat)
  deriving DecidableEq, Repr

/-- What a split waits for. -/
inductive Wait where
  /-- nothing -/
  | none
  /-- the wait mask of the clause header just fetched (R192) -/
  | flags
  /-- reconvergence of a divergence (R136) -/
  | reconv (div : Nat)
  /-- a rendezvous at its next word (R138-R143) -/
  | rendezvous (scope : Scope)
  /-- what keeps the instruction at its next word from issuing -/
  | stall (c : Stall)
  /-- children (R297) -/
  | lwait (ls : List LwaitLane)
  /-- a phase of the ABAR object at a scratch offset; `met` once it has been seen (R302) -/
  | abwait (off : Nat) (gen : Bool) (b : Half) (met : Bool)
  /-- the copies of an incumbent after KINIT (R300) -/
  | kinit (k : Nat) (upd : Nat)
  /-- a command that the instruction started (R92, R359) -/
  | command (id : Nat)
  /-- a partner in the pairing table (R248); `role` is set when the pair has formed -/
  | xpair (role : Option Half)
  /-- the handler of its unit, which runs in another warp (R346) -/
  | trapped
  deriving DecidableEq, Repr

/-- What a trap saved of the handling warp's lanes (R346): predicates p0-p6, fmt and fst; the scope of the unit, the
suspended warps, the trapping word, and the clause it stands in: its address and header. -/
structure Saved where
  preds     : List Lanes
  fmt       : Half
  fst       : Half
  scope     : Scope
  suspended : List Nat
  word      : Word
  pc        : Word
  header    : Word
  deriving DecidableEq, Repr

/-- A split record (R132, R135): clause header address, index of the next word (0: the header), the header, the
lanes, fmt, fst, the divergences, newest first, the wait, supervisor mode with what its trap saved (R346), the unit
that re-executes without a rendezvous (R144), the lanes, fmt and divergence fmt of the records merged into this one
since it last moved (R136, R181), whether it has been halted at a safe point (R354), its unchosen clk (R167), and the
clk for which YIELD keeps it from being ready (R306). -/
structure Split where
  pc      : Word
  idx     : Nat
  header  : Word
  mask    : Lanes
  fmt     : Half
  fst     : Half
  divs    : List Div
  wait    : Wait
  saved   : Option Saved
  replay  : Option (List Nat)
  origins : List (Lanes × Half × Half)
  stopped : Bool
  unchosen : Nat
  yields  : Option Nat
  deriving DecidableEq, Repr

/-- The trap registers of a warp (R347). -/
structure TrapRegs where
  tpcLo  : Half
  tpcHi  : Half
  tcause : Half
  tmask  : Half
  tunit  : Half
  tinfo  : List Half
  tsave  : List Half
  deriving DecidableEq, Repr

/-- A completion flag: the outstanding count and the error record (R197, R200). -/
structure FlagState where
  count : Nat
  err   : Option ErrRec
  deriving DecidableEq, Repr

/-- A pair of warps (R248): the partner, and how many XSWAPs this warp has issued since. -/
structure Pair where
  partner : Nat
  swaps   : Nat
  deriving DecidableEq, Repr

/-- A warp (R132-R134). Vector entries, scalars and predicates are sparse: what is not listed is empty or 0. -/
structure Warp where
  core      : Nat
  slot      : Nat
  block     : Nat
  wid       : Nat
  startClk  : Nat
  lanes     : Lanes
  vregs     : Tab Entry
  pending   : List Nat
  sregs     : Tab Half
  preds     : Tab Lanes
  bnd       : Row
  kw        : Half
  flags     : Tab FlagState
  splits    : Tab Split
  stack     : List Split
  trapRegs  : TrapRegs
  dl        : Half
  prio      : Nat
  tsHi      : Half
  setId     : Option (Nat × Nat)
  pair      : Option Pair
  packed    : Bool
  suspended : Bool
  deriving DecidableEq, Repr

/-! ## Blocks -/

/-- A queue (R303): base, slot size, slots, counters and indices, and the slots taken and not yet released with the
marks of those released out of turn. -/
structure Queue where
  base  : Nat
  slots : Nat
  size  : Nat
  free  : Nat
  full  : Nat
  pi    : Nat
  ci    : Nat
  takenFree : Nat
  takenFull : Nat
  deriving DecidableEq, Repr

/-- A stash window (R64, R312): global base, length, scratch offset; whether UNSTASH has been issued; the lines
it owns, with whether each is dirty and the stamp of its fill. -/
structure Window where
  base    : Word
  len     : Nat
  off     : Nat
  closing : Bool
  owned   : List (Nat × Bool × Half)
  deriving DecidableEq, Repr

/-- An entry of the hold list (R321). -/
structure Hold where
  dst     : Word
  src     : Nat
  bin     : Half
  array   : Nat
  sizeLog : Nat
  scope   : MScope
  len     : Option Nat
  deriving DecidableEq, Repr

/-- A fetch handle: the descriptor and the address it was read from (R324, R325). -/
structure Handle where
  addr : Word
  desc : List Byte
  deriving DecidableEq, Repr

/-- A resident block (R132, R152); `banks` names the bank of the matrix role that holds each tile slot (R47), and `rowBanks`
counts the scratch banks its rows lie in (R45). -/
structure Block where
  kernel  : Nat
  core    : Nat
  bid     : Nat
  gid     : Nat
  gang    : List Nat
  rank    : Nat
  warps   : Nat
  scratchSize : Nat
  scratch : Tab Byte
  tiles   : Tab (Tab Half)
  banks   : Tab Nat
  rowBanks : Nat
  queues  : Tab Queue
  windows : Tab Window
  holds   : List Hold
  handles : Tab Handle
  sets    : Tab (List Nat)
  deriving DecidableEq, Repr

/-! ## Kernels -/

/-- Progress of a kernel that has not completed (R157, R161, R165); `held` once only its completion word is withheld
(R363). -/
inductive KState where
  | queued | running | held
  deriving DecidableEq, Repr

/-- An accepted launch (R154, R158-R166). -/
structure Kernel where
  part    : Nat
  asid    : Nat
  entry   : Word
  gx      : Nat
  gy      : Nat
  gz      : Nat
  scratch : Nat
  pool    : Half
  numver  : Nat
  det     : Bool
  irq     : Bool
  prio    : Nat
  prereq  : List Nat
  gblk    : Nat
  tiles   : Nat
  peak    : Nat
  warps   : Nat
  cwa     : Word
  affinity : Word
  args    : List Half
  depth   : Nat
  parent  : Option Nat
  slot    : Option Nat
  handle  : Option Nat
  tag     : Half
  order   : Nat
  state   : KState
  nextBid : Nat
  started : Nat
  liveBlocks : List Nat
  aborted : Bool
  tokenRank : Nat
  ended   : List Nat
  retired : Nat
  lkey    : List Nat
  deriving DecidableEq, Repr

/-- A SPAWN record (R147, R162, R294). -/
structure SpawnRec where
  entry  : Word
  kernel : Nat
  kw     : Half
  bnd    : Half
  args   : List Half
  core   : Nat
  warp   : Nat
  lane   : Nat
  order  : Nat
  deriving DecidableEq, Repr

/-- An entry of the pending-launch pool (R159): the child, the parent, and the completion once the child has
completed. -/
structure PoolEntry where
  child  : Nat
  parent : Nat
  done   : Option Half
  deriving DecidableEq, Repr

/-! ## Cores -/

/-- An incumbent register or a core's copy of one (R298). -/
structure Incumbent where
  f32     : Bool
  min     : Bool
  value   : Half
  witness : Half
  deriving DecidableEq, Repr

/-- A split change in progress (R51): its state 1-4, whether admission started it, the target pool word, the block
that asked, and the command that answers it; for admission `block` names the kernel. -/
structure Change where
  state   : Nat
  admits   : Bool
  target  : Half
  block   : Nat
  command : Nat
  deriving DecidableEq, Repr

/-- A tag of an L1 or of the L2 of a die (R46, R60, R63): whether the line is dirty (in the L2: owned), whether it was
filled with the retain policy, the step of its last use (0: the least-recent position), and the block that filled it. -/
structure LineTag where
  dirty  : Bool
  retain : Bool
  used   : Nat
  block  : Nat
  deriving DecidableEq, Repr

/-- A line an LLC slice holds (R65, R66): the range whose retained class it is in, and the step of its last use (0: the
least-recent position). -/
structure LlcTag where
  range : Option Nat
  used  : Nat
  deriving DecidableEq, Repr

/-- A core (R39-R56, R162, R397). `held` names the kernel whose block an admission has given to the core and that has not started
there yet, and whether its packer did (R55). `evnow` is what each event counter has counted in clk `evclk`, which a write in that clk does
not undo. -/
structure Core where
  reg    : Nat
  scr    : Nat
  cch    : Nat
  mat    : Nat
  change : Option Change
  held   : Option (Nat × Bool)
  copies : Tab Incumbent
  bcast  : List (Nat × Nat × Incumbent × List Nat)
  front  : List SpawnRec
  l1     : Tab LineTag
  fcache : Tab Byte
  evctl  : Tab Half
  evblk  : Tab Nat
  evcnt  : Tab Half
  evclk  : Nat
  evnow  : Tab Half
  deriving DecidableEq, Repr

/-! ## Partitions -/

/-- Storage of an erased tile in quarantine (R79, R83): its home, place and size, the tile, and the stamp. -/
structure Quarantined where
  home  : Nat
  pa    : Nat
  size  : Nat
  tile  : Nat
  stamp : Half
  deriving DecidableEq, Repr

/-- A sparse region (R71): the descriptor in force, the count, the tiles that exist with their storage, births reserved
by ATOMs in flight with their storage (R76), free storage with its home and size, and storage in quarantine. -/
structure Region where
  base    : Word
  size    : Nat
  quota   : Nat
  flist   : Word
  tsize   : Nat
  dkind   : Nat
  pattern : Half
  valid   : Bool
  count   : Nat
  tiles   : Tab Nat
  reserved : Tab Nat
  carve   : List (Nat × Nat × Nat)
  quarantine : List Quarantined
  deriving DecidableEq, Repr

/-- A cached translation (R87, R90): the leaf that maps the page and the level it was found at. -/
structure TlbEntry where
  leaf  : Word
  level : Nat
  deriving DecidableEq, Repr

/-- A last-page register of a lane (R91): the page by its number at the leaf's level, the leaf and the level. -/
structure LastPage where
  page  : Nat
  leaf  : Word
  level : Nat
  deriving DecidableEq, Repr

/-- Progress of a partition halt (R354). -/
inductive HaltState where
  | running | halting | halted | swapped
  deriving DecidableEq, Repr

/-- A partition (R20, R385). System registers with one instance per partition are held by number; the L2 tags by die;
the sampling counters by slice and range; the last-page registers by 32 times the warp's number plus the lane. `shadow` is the
key slot its shadow area is stored under while it is swapped out: slot 0 of a sealed partition, or plain (R386, R390). -/
structure Partition where
  first     : Nat
  count     : Nat
  sysregs   : Tab Half
  asidFirst : Nat
  asidCount : Nat
  issuectr  : Half
  dnhead    : Half
  qlist     : List (Word × Half)
  qlost     : Bool
  errcnt    : Tab Half
  fxent     : Tab Half
  frame     : Nat
  regions   : Tab Region
  tlb       : Tab TlbEntry
  pages     : Tab LastPage
  incs      : Tab Incumbent
  pool      : Tab PoolEntry
  hod       : List SpawnRec
  pairTable : List (Nat × Nat × Half)
  sealed    : Bool
  keys      : Tab (List Byte)
  launchedOnce : Bool
  halt      : HaltState
  resCnt    : Tab Half
  l2        : Tab (Tab LineTag)
  llc       : Tab LlcTag
  shadow    : Option Key
  deriving DecidableEq, Repr

/-! ## Commands in flight -/

/-- A register write of one warp, made when a command completes (R199). -/
structure RegWrite where
  warp : Nat
  reg  : Reg
  mask : Lanes
  vals : Row
  deriving DecidableEq, Repr

/-- A predicate write of one warp, made when a command completes. -/
structure PredWrite where
  warp : Nat
  pred : Pred
  mask : Lanes
  bits : Lanes
  deriving DecidableEq, Repr

/-- Words of a tile written when a command completes. -/
structure TileWrite where
  block : Nat
  tile  : Nat
  words : List (Nat × Half)
  deriving DecidableEq, Repr

/-- Everything a command writes at its completion: registers, predicates, tile words, fst bits, and an error for its
flag (R197, R200). -/
structure Result where
  regs  : List RegWrite
  preds : List PredWrite
  tiles : List TileWrite
  fst   : Half
  err   : Option ErrRec
  deriving DecidableEq, Repr

/-- Where an access lands. -/
inductive Place where
  /-- a byte of a block's scratch (R30) -/
  | scratch (block off : Nat)
  /-- a device physical address -/
  | phys (pa : Nat) (key : Key)
  /-- a byte of a tile of a sparse region (R74) -/
  | tile (region tile off : Nat) (key : Key)
  /-- a byte of a discarded page, or past the slots of the launch frame (R35, R97) -/
  | zero (pa : Nat) (key : Key)
  /-- a byte of a fabric page: the peer address, with the partition whose LLC caches it above bit 63 (R88, R370) -/
  | fabric (addr : Nat) (key : Key)
  /-- a byte of a non-resident demand-notify page (R95) -/
  | absent
  deriving DecidableEq, Repr

/-- What a lane's access has obtained: bytes, nothing yet while a peer has its line (R373), a lost byte (R25), or the cause
a peer answered (R374). -/
inductive LaneGot where
  | bytes (bs : List Byte)
  | waits (p : Place)
  | lost
  | fault (cause : Nat)
  deriving DecidableEq, Repr

/-- A lane of an ATOM or LAUNCH in flight: its warp, lane and number in unit order, its address and where that lands, its
operands (R278), and what it has obtained once it has been performed (R280, R374). -/
structure AtomLane where
  warp  : Nat
  lane  : Nat
  num   : Nat
  ea    : Word
  place : Place
  v     : Word
  new   : Word
  got   : Option LaneGot
  deriving DecidableEq, Repr

/-- A lane of a load in flight: its warp, lane and number in unit order, its address, what it has obtained, and its
predicate result. -/
structure LaneLoad where
  warp : Nat
  lane : Nat
  num  : Nat
  ea   : Word
  got  : LaneGot
  pred : Bool
  deriving DecidableEq, Repr

/-- A load in flight: D, access size, predicate destination, opcode, and its lanes in unit order (R271-R274, R80). -/
structure LoadCmd where
  d      : Reg
  size   : Nat
  pd     : Option Pred
  opcode : Nat
  lanes  : List LaneLoad
  deriving DecidableEq, Repr

/-- A copy to be made by the engine (R316): the direction and both places, rows, row bytes, strides, ABAR and queue;
whether its writes have been made, the error they met (R319), and how many words a halt found made (R354). -/
structure CopyCmd where
  block : Nat
  dir   : CpyDir
  dst   : Word
  src   : Word
  rows  : Nat
  rowBytes : Nat
  sStride : Nat
  dStride : Nat
  abar  : Option Nat
  queue : Option Nat
  scope : MScope
  opcode : Nat
  ran   : Bool
  err   : Option ErrRec
  made  : Nat
  deriving DecidableEq, Repr

/-- What a tlbinv write covers (R92). -/
inductive Cover where
  | address (asid : Nat) (va : Word) | asid (asid : Nat) | all
  deriving DecidableEq, Repr

/-- The kinds of result a completion step delivers. -/
inductive ResultKind where
  | load | exist | kread | matrix (opcode : Nat) (errors : Nat)
  deriving DecidableEq, Repr

/-- The work of a command in flight. -/
inductive Work where
  /-- the result is known and waits for its completion step -/
  | result (k : ResultKind) (r : Result)
  /-- an ATOM that has not been performed at its home (R278) -/
  | atom (op : AtomOp) (d : Reg) (lanes : List AtomLane)
  /-- an XSWAP: its place in the pair's sequence, what it writes and what it offers, and the partner's offer once
  matched (R249) -/
  | xswap (k : Nat) (d : Reg) (pd : Pred) (mask : Lanes) (vals : Row) (partner : Option Nat)
      (answer : Option (Lanes × Row))
  /-- the updates of a KUPD on their way to the home; `rel` for KUPD.rel (R118, R300) -/
  | kupd (k : Nat) (f32 : Bool) (ups : List (Half × Half)) (rel : Bool)
  /-- LAUNCH records to be read and applied (R296) -/
  | launch (d : Reg) (pd : Pred) (kernel : Nat) (lanes : List AtomLane)
  /-- a split change that answers into D (R309) -/
  | poolset (core : Nat) (d : Reg) (mask : List (Nat × Lanes))
  /-- the write-back of a stash window (R313) -/
  | unstash (block window : Nat)
  /-- a copy, and whether it still waits for a queue slot (R316, R317) -/
  | copy (c : CopyCmd) (waiting : Bool)
  /-- the copies of a CREL, made in list order, with the first error (R323) -/
  | crel (err : Option ErrRec)
  /-- BINC: the array and the bins of its lanes (R320) -/
  | binc (block array count : Nat) (bins : List Nat)
  /-- BINP of a block (R322) -/
  | binp (block : Nat)
  /-- FETCH: the handle at issue and each lane's element (R326) -/
  | fetch (h : Handle) (wide : Bool) (d : Reg) (pd : Pred) (lanes : List (Nat × Nat × Nat × Nat)) (asid : Nat)
      (core : Nat)
  /-- TJAC between sweeps: the matrix, b, the start value and x, n, sweeps done and their limit, the deadline, the point
  and width, D, the s pair, pd, the status met, the opcode, and the transient errors met (R328, R342) -/
  | tjac (a : List (List Int)) (b x0 x : List Int) (n done limit : Nat) (deadline : Half) (q width : Nat) (d : Reg)
      (c : Reg) (pd : Pred) (fst : Half) (errors : Nat)
  /-- a tlbinv in progress (R92) -/
  | inval (cover : Cover)
  /-- a descriptor reload in progress, and the warps that asked for it (R71, R359) -/
  | reload (region : Nat) (warps : List Nat)
  /-- a load whose values have been read, but for lanes that wait for a peer (R271, R373) -/
  | load (c : LoadCmd)
  deriving DecidableEq, Repr

/-- A command in flight: the partition, the warps whose flag counts it, the flag, the lanes it acts for, the issue
order and the stamp of issuectr (R93, R197), the tiles and queue it names (R303, R311), and the fabric lines a peer has
answered with a fault, each with its cause (R374), and whether the fmt values of its unit differed (R181). -/
structure Pend where
  part   : Nat
  warps  : List (Nat × Lanes)
  flag   : Nat
  order  : Nat
  stamp  : Half
  block  : Nat
  tiles  : List Nat
  queue  : Option Nat
  work   : Work
  faults : List (Nat × Nat)
  conflict : Bool
  deriving DecidableEq, Repr

/-! ## The package -/

/-- A stamped record the Kiln keeps, with the number of its source (R26, R400). -/
structure KilnRecord where
  source : Nat
  kind  : Nat
  part  : Nat
  a     : Word
  b     : Word
  stamp : Word
  deriving DecidableEq, Repr

/-- What moves next: a step without a word, or the issue scheduler of a core. -/
inductive Turn where
  | port (n : Nat)
  | event (i : Instr)
  deriving DecidableEq, Repr

/-- The Kiln (R384-R394): bring-up step (7: done), recovery, the mailbox, hashes and versions, the staged image, the DOE
instances (session stage, then the bytes its secret comes from), the last reply, the owners of quarter-dies, and the
time in ns at which the halt in progress was requested. `begun` is unset between the write of a command to mbcmd and the
Kiln's carrying it out, when `latched` is the command with its operands; FWSTAGE's image is not known then. -/
structure Kiln where
  phase     : Nat
  recovery  : Bool
  mbcmd     : Half
  mbarg     : List Half
  busy      : Bool
  begun     : Bool
  latched   : Option Instr
  code      : Nat
  part      : Nat
  romHash   : List Byte
  fwHash    : List Byte
  fwVersion : Half
  fuseVersion : Half
  staged    : Option (List Byte)
  doe       : Tab (List Nat)
  reply     : List Byte
  quarters  : Tab Nat
  haltAt    : Nat
  deriving DecidableEq, Repr

/-- A Mortar link (R375-R378): whether it works, the repair attempts of the damaged flit it holds with the flit's payload
and key-index bit, the key in use for what it receives and the previous key still accepted, the flits received under the
key, and the same key and count for what it sends. -/
structure Link where
  up       : Bool
  attempts : Nat
  damaged  : Option (List Byte × Nat)
  key      : Nat
  prevKey  : Option Nat
  flits    : Nat
  txKey    : Nat
  txFlits  : Nat
  deriving DecidableEq, Repr

/-- What a fabric message says (R100, R373, R374): of a requester, that it asks for a line to share or to own, writes it
back, gives it up, or takes a lane of an ATOM to its home; of a home, its answer with a status, or that it wants a line back
that the peer holds, whole or only its ownership (DESIGN CHOICE, log 31). -/
inductive MsgBody where
  | ask (own : Bool)
  | writeBack (bs : List Byte)
  | released
  | atom (op : AtomOp) (id num off : Nat) (v new : Word)
  | answer (status : Nat) (bs : List Byte)
  | recall (line : Nat) (invalidate : Bool)
  deriving DecidableEq, Repr

/-- A message of the fabric (R370, R375, R379): the partition of this package it belongs to, the peer it goes to (8 times
the package, plus the partition), the line it is about in the space of the side that exports it, what it says, the version
bit it travels under, and the time in ns at which it was sent. -/
structure FabMsg where
  part    : Nat
  peer    : Nat
  line    : Nat
  body    : MsgBody
  version : Nat
  sent    : Nat
  deriving DecidableEq, Repr

/-- What the home directory lists of a peer's copy of a line of this package (R57, R58, R373): the line by its number in the
directory, the partition it belongs to, the peer, the line's number in the exported space, and whether the peer owns it. -/
structure PeerCopy where
  line  : Nat
  part  : Nat
  peer  : Nat
  eline : Nat
  own   : Bool
  deriving DecidableEq, Repr

/-- A request of a peer that was refused with a hint (R100): who asked whom for which page, the cause the walk started then
found, if it failed, and issuectr at that time. -/
structure RefusedReq where
  part  : Nat
  spkg  : Nat
  spart : Nat
  page  : Nat
  cause : Option Nat
  stamp : Half
  deriving DecidableEq, Repr

/-- The fabric attachment (R369-R379): package number, map and alive planes, links, the remap in progress with the
plane addresses it moves and the packages that have acknowledged it, messages that wait, by plane address, and messages
sent and not acknowledged, by plane; routes; the lines the local LLC holds, the key each is stored under in a sealed
partition (R62), those it owns and those of them it has written; what peers hold of this package's lines; lines a peer
has refused with the cause; requests of peers that were refused with a hint; flits received, in the order of arrival,
that are not delivered yet (`none`: still damaged); payloads delivered; answers that peers have acknowledged; and messages
to be sent again, each with the time before which it is not. -/
structure Fabric where
  pkg     : Nat
  map     : Nat
  alive   : Nat
  links   : Tab Link
  remap   : Option (Nat × List Nat)
  acked   : List Nat
  waiting : List (Nat × FabMsg)
  unacked : List (Nat × FabMsg)
  routes  : Tab Nat
  oldRoutes : Tab Nat
  lines   : Tab (List Byte)
  keys    : Tab (List Byte)
  owned   : List Nat
  dirty   : List Nat
  peers   : List PeerCopy
  faulted : List (Nat × Nat)
  refused : List RefusedReq
  held    : List (Nat × Option (List Byte))
  inbox   : List (Nat × List Byte)
  outbox  : List FabMsg
  retries : List (FabMsg × Nat)
  deriving DecidableEq, Repr

/-- The machine. Its own fields, not the spec's: `draws` (counts the free values drawn), `seq` (numbers commands,
updates and divergences), `agenda`, `port`, `act`, `owner`, `issued` (which agent moves next, the split that holds a
scheduler within its clause, and the clk in which each scheduler last chose), and `hostWait` (host accesses that wait for peers to
give up their lines). -/
structure State where
  mem     : Tab Byte
  lost    : List Nat
  clk     : Nat
  tsc     : Nat
  tscRem  : Nat
  pwrClk  : Nat
  pwrTherm : Bool
  pwrPower : Bool
  dieSel  : Tab Half
  dieCnt  : Tab Half
  records : List KilnRecord
  msix    : List Nat
  kiln    : Kiln
  fab     : Fabric
  parts   : Tab Partition
  cores   : Tab Core
  kernels : Tab Kernel
  blocks  : Tab Block
  warps   : Tab Warp
  pend    : Tab Pend
  hostOut : List Byte
  hostWait : List Instr
  draws   : Nat
  seq     : Nat
  agenda  : List Turn
  port    : Nat
  act     : Nat × Nat
  owner   : Tab Nat
  issued  : Tab Nat
  deriving DecidableEq, Repr

/-- No instruction stops the machine with a fault: every trap, wait and error of the spec leads to a next state. The
one constructor is raised by nothing; a claim that no step faults is safe. -/
inductive Fault where
  /-- raised by nothing (safe) -/
  | none
  deriving DecidableEq, Repr

/-- Why a step has no meaning. -/
inductive Refusal where
  /-- an arm of exec that has no meaning yet; raised only there (safe: the machine stops) -/
  | notModelled (mnemonic : String)
  deriving DecidableEq, Repr

/-- The split of a core at partition creation and at package reset (R40). -/
def Core.reset : Core where
  reg := 16
  scr := 16
  cch := 16
  mat := 16
  change := none
  held := none
  copies := []
  bcast := []
  front := []
  l1 := []
  fcache := []
  evctl := []
  evblk := []
  evcnt := []
  evclk := 0
  evnow := []

/-- The Kiln before package reset has run (R394); hashes and versions are named in log 30 (DESIGN CHOICE). -/
def Kiln.reset : Kiln where
  phase := 1
  recovery := false
  mbcmd := 0
  mbarg := [0, 0, 0, 0]
  busy := true
  begun := true
  latched := none
  code := 0
  part := 0
  romHash := []
  fwHash := []
  fwVersion := 0
  fuseVersion := 0
  staged := none
  doe := []
  reply := []
  quarters := []
  haltAt := 0

/-- The fabric attachment after reset (R371); package number and routes are named in log 31 (DESIGN CHOICE). -/
def Fabric.reset : Fabric where
  pkg := 0
  map := 0xE4
  alive := 0xF
  links := []
  remap := none
  acked := []
  waiting := []
  unacked := []
  routes := []
  oldRoutes := []
  lines := []
  keys := []
  owned := []
  dirty := []
  peers := []
  faulted := []
  refused := []
  held := []
  inbox := []
  outbox := []
  retries := []

/-- The machine right after reset: no partition exists, memory lists nothing (R394, R385). -/
def State.reset : State where
  mem := []
  lost := []
  clk := 0
  tsc := 0
  tscRem := 0
  pwrClk := 28
  pwrTherm := false
  pwrPower := false
  dieSel := []
  dieCnt := []
  records := []
  msix := []
  kiln := Kiln.reset
  fab := Fabric.reset
  parts := []
  cores := []
  kernels := []
  blocks := []
  warps := []
  pend := []
  hostOut := []
  hostWait := []
  draws := 0
  seq := 0
  agenda := []
  port := 0
  act := (0, 0)
  owner := []
  issued := []

end Sys2Proof.Machine
end

