-- ==== Sys2Proof/Machine/Regs.lean ====
section
/-! DEFINITION. Lanes, rows, rename entries and registers of one warp (R44, R48, R133, R207, R208). -/

namespace Sys2Proof.Machine

/-! ## Lanes and rows -/

/-- The 32 lane numbers. -/
def laneList : List Nat := List.range 32

/-- Lane `l` of a row. -/
def Row.lane (r : Row) (l : Nat) : Half := r.getD l 0

/-- The row whose lane `l` holds `f l`. -/
def rowOfLanes (f : Nat → Half) : Row := laneList.map f

/-- The row with the lanes of a mask replaced. -/
def Row.merge (old : Row) (m : Lanes) (f : Nat → Half) : Row :=
  rowOfLanes fun l => if m.getLsbD l then f l else Row.lane old l

/-- The lanes in which a test holds. -/
def lanesWhere (p : Nat → Bool) : Lanes :=
  BitVec.ofNat 32 (laneList.foldr (fun l acc => (p l).toNat + 2 * acc) 0)

/-- The lane numbers of a mask, rising. -/
def Lanes.toList (m : Lanes) : List Nat := laneList.filter fun l => m.getLsbD l

/-- The lowest lane of a mask, 32 for none. -/
def Lanes.lowest (m : Lanes) : Nat := (Lanes.toList m).headD 32

/-- The number of lanes of a mask. -/
def Lanes.count (m : Lanes) : Nat := (Lanes.toList m).length

/-- All 32 lanes. -/
def allLanes : Lanes := BitVec.allOnes 32

/-! ## Rename entries -/

/-- The value of an entry in a lane; nothing reads 0 (R48). -/
def Entry.lane : Option Entry → Nat → Half
  | none, _ => 0
  | some (.uniform u), _ => u
  | some (.affine b d), l => b + BitVec.ofNat 32 l * d
  | some (.row r), l => Row.lane r l

/-- The first form of R48 that holds a value. -/
def Entry.ofRow (r : Row) : Entry :=
  let b := Row.lane r 0
  let d := Row.lane r 1 - b
  if laneList.all fun l => Row.lane r l == b then .uniform b
  else if laneList.all fun l => Row.lane r l == b + BitVec.ofNat 32 l * d then .affine b d
  else .row r

/-- The value of an entry as a row. -/
def Entry.toRow (e : Option Entry) : Row := rowOfLanes (Entry.lane e)

/-- Whether an entry maps a physical row. -/
def Entry.mapped : Entry → Bool
  | .row _ => true
  | _ => false

/-- Whether a warp counts a row for a vector register: it holds one, or a command in flight will write it (R50). -/
def Warp.counts (w : Warp) (v : Nat) : Bool := (w.vregs.get? v).elim false Entry.mapped || w.pending.contains v

/-- Register rows a warp maps (R50, R56). -/
def Warp.rowsMapped (w : Warp) : Nat := ((List.range 192).filter fun v => w.counts v).length

/-! ## Reading registers -/

/-- The identity of a warp's block and kernel that registers show (R133). -/
structure Ident where
  bid : Half
  gid : Half
  sid : Half
  clk : Half
  deriving DecidableEq, Repr

/-- Where a warp's registers show its identity (R133, R147): a packed warp reads wid, bid and gid as 0. -/
def State.ident (s : State) (w : Warp) : Ident :=
  let b := s.blocks.get? w.block
  { bid := if w.packed then 0 else BitVec.ofNat 32 (b.elim 0 (·.bid))
    gid := if w.packed then 0 else BitVec.ofNat 32 (b.elim 0 (·.gid))
    sid := match w.setId with
      | some (_, m) => BitVec.ofNat 32 m
      | none => BitVec.allOnes 32
    clk := BitVec.ofNat 32 s.clk }

/-- The clause literal of a split's header (R194). -/
def Split.lit (p : Split) : Half := BitVec.ofNat 32 p.header.toNat

/-- Lane `l` of a register read by a split (R207). -/
def readReg (s : State) (w : Warp) (p : Split) (r : Reg) (l : Nat) : Half :=
  match r with
  | .v i => Entry.lane (w.vregs.get? i.val) l
  | .s i => w.sregs.num i.val
  | .lid => BitVec.ofNat 32 l
  | .wid => if w.packed then 0 else BitVec.ofNat 32 w.wid
  | .bid => (s.ident w).bid
  | .sid => (s.ident w).sid
  | .bnd => Row.lane w.bnd l
  | .kw => w.kw
  | .fmt => p.fmt
  | .fst => p.fst
  | .zero => 0
  | .ones => BitVec.allOnes 32
  | .lit => p.lit
  | .gid => (s.ident w).gid
  | .clk => (s.ident w).clk

/-- The register `k` places after a register in its own file; a register of no file is its own successor. -/
def Reg.plus : Reg → Nat → Reg
  | .v i, k => .v (Fin.ofNat 192 (i.val + k))
  | .s i, k => .s (Fin.ofNat 48 (i.val + k))
  | r, _ => r

/-- Lane `l` of a 64-bit operand: the even register holds bits [31:0] (R208). -/
def readReg64 (s : State) (w : Warp) (p : Split) (r : Reg) (l : Nat) : Word :=
  readReg s w p (Reg.plus r 1) l ++ readReg s w p r l

/-- Bits of a predicate of a warp; p7 reads 1 (R208). -/
def Warp.pred (w : Warp) (p : Pred) : Lanes := if p = 7 then allLanes else w.preds.num p.val

/-- Lanes in which a guard holds (R202). -/
def Warp.guard (w : Warp) (p : Pred) (neg : Bool) : Lanes := if neg then ~~~(w.pred p) else w.pred p

/-! ## Writing registers -/

/-- The fmt value a write leaves: bits [31:30] stay 0 (R180). -/
def fmtOf (x : Half) : Half := x &&& 0x3FFFFFFF#32

/-- The fst value a write leaves: bits [31:6] stay 0 (R182). -/
def fstOf (x : Half) : Half := x &&& 0x3F#32

/-- The warp with lanes of a vector register written (R48). -/
def Warp.setV (w : Warp) (v : Nat) (m : Lanes) (f : Nat → Half) : Warp :=
  { w with vregs := w.vregs.put v (Entry.ofRow (Row.merge (Entry.toRow (w.vregs.get? v)) m f)) }

/-- The warp with an entry emptied (R49). -/
def Warp.emptyV (w : Warp) (v : Nat) : Warp := { w with vregs := w.vregs.del v }

/-- The warp with an s register written. -/
def Warp.setS (w : Warp) (i : Nat) (x : Half) : Warp := { w with sregs := w.sregs.setNum i x }

/-- The warp with lanes of a predicate written; p7 ignores writes (R208). -/
def Warp.setPred (w : Warp) (p : Pred) (m bits : Lanes) : Warp :=
  if p = 7 then w else { w with preds := w.preds.setNum p.val ((w.preds.num p.val &&& ~~~m) ||| (bits &&& m)) }

/-- The warp with a split record replaced. -/
def Warp.setSplit (w : Warp) (i : Nat) (p : Split) : Warp := { w with splits := w.splits.put i p }

/-- The warp with a register written: lanes of a mask for a vector register or bnd, the given scalar for the others
(R133, R207, R208). -/
def Warp.writeReg (w : Warp) (i : Nat) (r : Reg) (m : Lanes) (f : Nat → Half) (scalar : Half) : Warp :=
  match r with
  | .v v => if m = 0 then w else w.setV v.val m f
  | .s k => w.setS k.val scalar
  | .bnd => { w with bnd := Row.merge w.bnd m f }
  | .kw => { w with kw := scalar }
  | .fmt => match w.splits.get? i with
    | some p => w.setSplit i { p with fmt := fmtOf scalar }
    | none => w
  | .fst => match w.splits.get? i with
    | some p => w.setSplit i { p with fst := fstOf scalar }
    | none => w
  | _ => w

/-! ## Tables of the state -/

/-- The state with a warp replaced. -/
def State.setWarp (s : State) (u : Nat) (w : Warp) : State := { s with warps := s.warps.put u w }
/-- The state with a warp changed, if it exists. -/
def State.mapWarp (s : State) (u : Nat) (f : Warp → Warp) : State :=
  match s.warps.get? u with
  | some w => s.setWarp u (f w)
  | none => s
/-- The state with a split changed, if it exists. -/
def State.mapSplit (s : State) (u i : Nat) (f : Split → Split) : State :=
  s.mapWarp u fun w => match w.splits.get? i with
    | some p => w.setSplit i (f p)
    | none => w
/-- The state with a block changed, if it exists. -/
def State.mapBlock (s : State) (b : Nat) (f : Block → Block) : State :=
  match s.blocks.get? b with
  | some x => { s with blocks := s.blocks.put b (f x) }
  | none => s
/-- The state with a kernel changed, if it exists. -/
def State.mapKernel (s : State) (k : Nat) (f : Kernel → Kernel) : State :=
  match s.kernels.get? k with
  | some x => { s with kernels := s.kernels.put k (f x) }
  | none => s
/-- The state with a partition changed, if it exists. -/
def State.mapPart (s : State) (p : Nat) (f : Partition → Partition) : State :=
  match s.parts.get? p with
  | some x => { s with parts := s.parts.put p (f x) }
  | none => s
/-- A core; a core that no partition has used yet is as at creation (R40). -/
def State.core (s : State) (c : Nat) : Core := (s.cores.get? c).getD Core.reset
/-- The state with a core changed. -/
def State.mapCore (s : State) (c : Nat) (f : Core → Core) : State :=
  { s with cores := s.cores.put c (f (s.core c)) }

/-- The block a warp belongs to. -/
def State.blockOf (s : State) (w : Warp) : Option Block := s.blocks.get? w.block
/-- The kernel a warp belongs to. -/
def State.kernelOf (s : State) (w : Warp) : Option Kernel :=
  (s.blockOf w).bind fun b => s.kernels.get? b.kernel
/-- The partition a warp belongs to. -/
def State.partOf (s : State) (w : Warp) : Nat := (s.kernelOf w).elim 0 (·.part)
/-- The ASID a warp runs under (R86). -/
def State.asidOf (s : State) (w : Warp) : Nat := (s.kernelOf w).elim 0 (·.asid)

/-- A system register with one instance per partition (its reset value is what `reset` gives it). -/
def Partition.sys (p : Partition) (n : Nat) : Half := p.sysregs.num n

end Sys2Proof.Machine
end

