-- ==== Sys2Proof/Machine/Mem.lean ====
section
/-! DEFINITION. Bytes of storage: device physical memory with lost lines and sealed lines (R3, R25, R57, R101, R277,
R390), scratch (R45), tiles of sparse regions (R73-R79) and fabric lines (R373), read and written through one kind of
place. -/

namespace Sys2Proof.Machine

/-- Little-endian value of bytes (R3). -/
def leNat : List Byte → Nat
  | [] => 0
  | b :: r => b.toNat + 256 * leNat r

/-- The `n` bytes of a value, little-endian (R3). -/
def leBytes : (n : Nat) → Nat → List Byte
  | 0, _ => []
  | n + 1, x => BitVec.ofNat 8 x :: leBytes n (x / 256)

/-- The 128 stored bytes of a line. -/
def State.line (s : State) (l : Nat) : List Byte := (List.range 128).map fun i => s.mem.num (128 * l + i)

/-- The plain bytes of a line under a key (R390). -/
def plainLine (s : State) (k : List Byte) (l : Nat) : List Byte :=
  (xtsDecrypt (k.map (·.toNat)) l ((s.line l).map (·.toNat))).map (BitVec.ofNat 8)

/-- The plain byte at a physical address. -/
def plainByte (s : State) (k : Key) (pa : Nat) : Byte :=
  match k with
  | none => s.mem.num pa
  | some k => (plainLine s k (pa / 128)).getD (pa % 128) 0

/-- `n` plain bytes from a physical address. -/
def plainBytes (s : State) (k : Key) (pa n : Nat) : List Byte := (List.range n).map fun i => plainByte s k (pa + i)

/-- The aligned 64-bit word at a physical address. -/
def plain64 (s : State) (k : Key) (pa : Nat) : Word := BitVec.ofNat 64 (leNat (plainBytes s k pa 8))

/-- Cells set in memory, as stored. -/
def setCells (m : Tab Byte) (cells : List (Nat × Byte)) : Tab Byte :=
  cells.foldl (fun m c => m.setNum c.1 c.2) m

/-- The last value a list of cells gives an address. -/
def cellAt (cells : List (Nat × Byte)) (a : Nat) : Option Byte :=
  cells.foldl (fun acc c => if c.1 = a then some c.2 else acc) none

/-- The lines a list of cells touches. -/
def cellLines (cells : List (Nat × Byte)) : List Nat := (cells.map fun c => c.1 / 128).dedup

/-- The stored bytes of a sealed line after cells are written into it. -/
def sealedLine (s : State) (k : List Byte) (cells : List (Nat × Byte)) (l : Nat) : List (Nat × Byte) :=
  let plain := (List.range 128).map fun i => (cellAt cells (128 * l + i)).getD ((plainLine s k l).getD i 0)
  let enc := xtsEncrypt (k.map (·.toNat)) l (plain.map (·.toNat))
  (List.range 128).map fun i => (128 * l + i, BitVec.ofNat 8 (enc.getD i 0))

/-- Lost lines that remain lost after one write event: a line all of whose bytes the event writes is lost no more
(R277). -/
def stillLost (lost : List Nat) (cells : List (Nat × Byte)) : List Nat :=
  lost.filter fun l => !((List.range 128).all fun i => (cellAt cells (128 * l + i)).isSome)

/-- One write event on physical memory (R25, R277, R390). -/
def writeCells (s : State) (k : Key) (cells : List (Nat × Byte)) : State :=
  let stored := match k with
    | none => cells
    | some k => ((cellLines cells).map (sealedLine s k cells)).flatten
  { s with mem := setCells s.mem stored, lost := stillLost s.lost cells }

/-- Bytes as cells from an address. -/
def cellsFrom (a : Nat) (bs : List Byte) : List (Nat × Byte) := bs.mapIdx fun i b => (a + i, b)

/-- One write event of consecutive bytes. -/
def writeBytes (s : State) (k : Key) (pa : Nat) (bs : List Byte) : State := writeCells s k (cellsFrom pa bs)

/-- A physical range filled with zero bytes; a sealed range holds the ciphertext of zeros (R97). -/
def zeroFill (s : State) (k : Key) (pa n : Nat) : State :=
  match k with
  | none => { s with mem := s.mem.drop fun a => decide (pa ≤ a ∧ a < pa + n),
                     lost := s.lost.filter fun l => !decide (pa ≤ 128 * l ∧ 128 * l < pa + n) }
  | some _ => writeCells s k (cellsFrom pa (List.replicate n 0))

/-- The key pair of a slot of a partition: `none` where the partition is not sealed (R390). -/
def Partition.key (p : Partition) (slot : Nat) : Key :=
  if p.sealed then some ((p.keys.get? slot).getD []) else none

/-- The key under which the device reads its own structures: slot 0 (R390; DEDUCED, log 16). -/
def State.tableKey (s : State) (part : Nat) : Key := (s.parts.get? part).bind fun p => p.key 0

/-! ## Memory of quarter-dies (R19-R21; DESIGN CHOICE, log 6) -/

/-- Bytes of HBM of one quarter-die. -/
def quarterBytes : Nat := 24 * 2 ^ 30

/-- The quarter-die that holds a device physical address (DESIGN CHOICE, log 6). -/
def quarterOf (pa : Nat) : Nat := pa / quarterBytes

/-- Whether an address lies outside a partition's own memory: in a quarter-die of another partition or of none, or past
the 384 GiB of HBM. A partition reaches its own memory alone (R18, R21). -/
def State.foreign (s : State) (part pa : Nat) : Bool := s.kiln.quarters.get? (quarterOf pa) != some part

/-- An aligned 64-bit word of a structure the device reads for a partition; outside its own memory it reads as 0 (R21;
DESIGN CHOICE, log 6). -/
def dev64 (s : State) (part pa : Nat) : Word := if s.foreign part pa then 0 else plain64 s (s.tableKey part) pa

/-! ## Places -/

/-- The stored bytes of a fabric line as the LLC of a partition holds it: ciphertext under the key it was filled under,
with the line's number as data unit (R62; DESIGN CHOICE, log 16). -/
def fabricStored (s : State) (line : Nat) : List Byte :=
  let bs := (s.fab.lines.get? line).getD []
  match s.fab.keys.get? line with
  | some k => (xtsEncrypt (k.map (·.toNat)) line (bs.map (·.toNat))).map (BitVec.ofNat 8)
  | none => bs

/-- The bytes of a fabric line as an access under a key sees them (R62, R390). -/
def fabricView (s : State) (line : Nat) (k : Key) : List Byte :=
  if s.fab.keys.get? line = k then (s.fab.lines.get? line).getD []
  else match k with
    | some x => (xtsDecrypt (x.map (·.toNat)) line ((fabricStored s line).map (·.toNat))).map (BitVec.ofNat 8)
    | none => fabricStored s line

/-- The bytes of a tile by tsize (R72). -/
def tileBytes (tsize : Nat) : Nat := if tsize = 0 then 256 else if tsize = 1 then 4096 else 65536

/-- A region of a partition (R71). -/
def State.region? (s : State) (part r : Nat) : Option Region := (s.parts.get? part).bind fun p => p.regions.get? r

/-- Byte `o` of an absent tile (R73). -/
def Region.dfltByte (g : Region) (o : Nat) : Byte := BitVec.ofNat 8 (g.pattern.toNat / 256 ^ (o % 4))

/-- One byte of a place, `i` past its start (DESIGN CHOICE, log 2). -/
def placeByte (s : State) (part : Nat) (p : Place) (i : Nat) : Byte :=
  match p with
  | .scratch b o => (s.blocks.get? b).elim 0 fun x => x.scratch.num (o + i)
  | .phys pa k => plainByte s k (pa + i)
  | .tile r t o k =>
    match s.region? part r with
    | some g => match g.tiles.get? t with
      | some base => plainByte s k (base + o + i)
      | none => g.dfltByte (o + i)
    | none => 0
  | .zero _ _ => 0
  | .fabric a k => (fabricView s ((a + i) / 128) k).getD ((a + i) % 128) 0
  | .absent => 0

/-- `n` bytes of a place. -/
def placeBytes (s : State) (part : Nat) (p : Place) (n : Nat) : List Byte :=
  (List.range n).map fun i => placeByte s part p i

/-- Whether a tile exists (R75). -/
def State.tileExists (s : State) (part r t : Nat) : Bool :=
  (s.region? part r).elim false fun g => (g.tiles.get? t).isSome

/-- Whether an access of `n` bytes at a place reads a lost line (R25). -/
def placeLost (s : State) (part : Nat) (p : Place) (n : Nat) : Bool :=
  match p with
  | .phys pa _ => (List.range n).any fun i => s.lost.contains ((pa + i) / 128)
  | .tile r t o _ =>
    match (s.region? part r).bind fun g => g.tiles.get? t with
    | some base => (List.range n).any fun i => s.lost.contains ((base + o + i) / 128)
    | none => false
  | .fabric a _ => (List.range n).any fun i => s.lost.contains (2 ^ 60 + (a + i) / 128)
  | _ => false

/-- The number under which the home directory lists the line of a place: a line of memory, or a line of a tile, which peers
may hold before the tile exists (R57, R75). -/
def homeLine (part : Nat) (p : Place) : Option Nat :=
  match p with
  | .phys pa _ => some (pa / 128)
  | .zero pa _ => some (pa / 128)
  | .tile r t o _ => some (2 ^ 60 + 2 ^ 57 * part + 2 ^ 48 * r + 512 * t + o / 128)
  | _ => none

/-- Whether peers hold a line of this package so that a local access must have it back: an owner for a read, any copy for a
write (R58, R373). -/
def Fabric.heldAway (f : Fabric) (line : Nat) (write : Bool) : Bool := f.peers.any fun c => c.line == line && (write || c.own)

/-- Whether the local LLC lacks a fabric line for an access: it does not hold it, or for a write does not own it; a lost
line is asked for no more (R373, R374). -/
def lacksLine (s : State) (write : Bool) (l : Nat) : Bool :=
  ((s.fab.lines.get? l).isNone || (write && !s.fab.owned.contains l)) && !s.lost.contains (2 ^ 60 + l)

/-- What an access of `n` bytes at a place needs of peers first (R58, R373). -/
def placeMissing (s : State) (part : Nat) (write : Bool) (p : Place) (n : Nat) : List Want :=
  match p with
  | .fabric a k => ((((List.range n).map fun i => (a + i) / 128).dedup).filter (lacksLine s write)).map fun l =>
      if write then .own l k else .share l k
  | p => match homeLine part p with
    | some l => if s.fab.heldAway l write then [.home l write] else []
    | none => []

/-- The keys of fabric lines with one line filled under a key. -/
def Fabric.keyed (f : Fabric) (line : Nat) (k : Key) : Tab (List Byte) :=
  match k with
  | some x => f.keys.put line x
  | none => f.keys.del line

/-- A byte of a fabric line written under a key; bytes the LLC does not hold are taken as 0. -/
def fabricWrite (s : State) (k : Key) (a : Nat) (b : Byte) : State :=
  let old := if (s.fab.lines.get? (a / 128)).isSome then fabricView s (a / 128) k else List.replicate 128 0
  { s with fab := { s.fab with
      lines := s.fab.lines.put (a / 128) (old.set (a % 128) b)
      keys := s.fab.keyed (a / 128) k
      dirty := if s.fab.dirty.contains (a / 128) then s.fab.dirty else s.fab.dirty ++ [a / 128] } }

/-- Cells of bytes at a place in memory or in an existing tile; cells of fabric lines are numbered past all local
ones. -/
def placeCells (s : State) (part : Nat) (p : Place) (bs : List Byte) : List (Nat × Byte) :=
  match p with
  | .phys pa _ => cellsFrom pa bs
  | .tile r t o _ =>
    match (s.region? part r).bind fun g => g.tiles.get? t with
    | some base => cellsFrom (base + o) bs
    | none => []
  | .fabric a _ => cellsFrom (2 ^ 67 + a) bs
  | _ => []

/-- The key of a place. -/
def Place.key : Place → Key
  | .phys _ k => k
  | .tile _ _ _ k => k
  | .zero _ k => k
  | .fabric _ k => k
  | _ => none

/-- Bytes of a block's scratch written. -/
def Block.writeScratch (b : Block) (o : Nat) (bs : List Byte) : Block :=
  { b with scratch := setCells b.scratch (cellsFrom o bs) }

/-- One write of bytes at a place; the tile of a sparse place must exist. -/
def writePlace (s : State) (part : Nat) (p : Place) (bs : List Byte) : State :=
  match p with
  | .scratch b o => s.mapBlock b fun x => x.writeScratch o bs
  | .fabric a k => (cellsFrom a bs).foldl (fun s c => fabricWrite s k c.1 c.2) s
  | .zero _ _ => s
  | .absent => s
  | p => writeCells s p.key (placeCells s part p bs)

/-- One write event made of the writes of several lanes, in order (R102, R277). -/
def writePlaces (s : State) (part : Nat) (ws : List (Place × List Byte)) : State :=
  let s1 := ws.foldl (fun s w => writePlace s part w.1 w.2) s
  let cells := (ws.map fun w => placeCells s part w.1 w.2).flatten
  { s1 with lost := stillLost s1.lost cells }

/-- The wid of a warp. -/
def State.widOf (s : State) (uid : Nat) : Nat := (s.warps.get? uid).elim 0 (·.wid)

/-- A free value of the machine: the `draws`-th draw. -/
def State.draw (s : State) : State := { s with draws := s.draws + 1 }

end Sys2Proof.Machine
end

