-- ==== Sys2Proof/Machine/Copies.lean ====
section
/-! DEFINITION. Copies of lines given up: recalls from L1, L2 and stash windows (R58, R60, R64), lines dropped, and the
messages of the Mortar fabric about a line (R373-R376, R379). -/

namespace Sys2Proof.Machine

/-- Whether a line lies in a range of physical addresses. -/
def lineIn (base n l : Nat) : Bool := decide (base ≤ 128 * l ∧ 128 * l < base + n)

/-! ## Recalls (R58, R60, R64) -/

/-- A line taken from the L2s of a partition that a test selects: a write invalidates the copy, a read ends its
ownership (R58). -/
def Partition.recallL2 (p : Partition) (at_ : Nat → Bool) (line : Nat) (write : Bool) : Partition :=
  { p with l2 := p.l2.mapV fun d t =>
      if !at_ d then t
      else if write then t.del line
      else match t.get? line with
        | some x => t.put line { x with dirty := false }
        | none => t }

/-- A line taken from the L1 of the cores that a test selects: a write invalidates the copy, a read writes it back
(R58, R60). -/
def recallL1 (s : State) (at_ : Nat → Bool) (line : Nat) (write : Bool) : State :=
  { s with cores := s.cores.mapV fun i c =>
      if !at_ i then c
      else match c.l1.get? line with
        | some t => { c with l1 := if write then c.l1.del line else c.l1.put line { t with dirty := false } }
        | none => c }

/-- A line recalled from every stash window but one block's own (R64). -/
def recallStash (s : State) (keep : Option Nat) (line : Nat) : State :=
  { s with blocks := s.blocks.mapV fun i b =>
      if some i = keep then b
      else { b with windows := b.windows.mapV fun _ w => { w with owned := w.owned.filter fun o => o.1 != line } } }

/-- Every copy of a line recalled, for an access at its home by no core: L1, L2 and stash windows but one block's own
(R58, R64). -/
def recallLine (s : State) (part : Nat) (keep : Option Nat) (line : Nat) (write : Bool) : State :=
  (recallL1 (recallStash s keep line) (fun _ => true) line write).mapPart part fun p => p.recallL2 (fun _ => true) line write

/-- Every copy of lines that a test selects dropped from L1, L2 and stash windows, without write-back. -/
def dropCopies (s : State) (gone : Nat → Bool) : State :=
  { s with
    cores := s.cores.mapV fun _ c => { c with l1 := c.l1.drop gone }
    parts := s.parts.mapV fun _ p => { p with l2 := p.l2.mapV fun _ t => t.drop gone }
    blocks := s.blocks.mapV fun _ b =>
      { b with windows := b.windows.mapV fun _ x => { x with owned := x.owned.filter fun o => !gone o.1 } } }

/-- Lines that a test selects dropped from every LLC slice. -/
def dropLlc (s : State) (gone : Nat → Bool) : State :=
  { s with parts := s.parts.mapV fun _ p => { p with llc := p.llc.drop gone } }

/-! ## Structures the device reads and writes for a partition -/

/-- A word of a structure read at its home: copies there are written back (R58, R64). -/
def devTouch (s : State) (part pa : Nat) : State := if s.foreign part pa then s else recallLine s part none (pa / 128) false

/-- Words of a structure read at their homes. -/
def devTouchAll (s : State) (part : Nat) (as : List Nat) : State := as.foldl (fun s a => devTouch s part a) s

/-- Bytes of a structure the device writes for a partition, at their home: copies of their lines are recalled (R58, R64);
outside the partition's own memory nothing is written (R21; DESIGN CHOICE, log 6). -/
def devWrite (s : State) (part pa : Nat) (bs : List Byte) : State :=
  if s.foreign part pa then s
  else
    let s1 := (cellLines (cellsFrom pa bs)).foldl (fun s l => recallLine s part none l true) s
    writeBytes s1 (s1.tableKey part) pa bs

/-! ## Messages (R373-R376, R379) -/

/-- The partition whose LLC a fabric line number belongs to. -/
def linePart (line : Nat) : Nat := line / 2 ^ 57

/-- The package a fabric line lies on (R370). -/
def linePackage (line : Nat) : Nat := line / 2 ^ 39 % 2 ^ 10

/-- The peer partition that homes a fabric line: 8 times its package, plus its index (R370). -/
def linePeer (line : Nat) : Nat := line / 2 ^ 36 % 2 ^ 13

/-- The package a message goes to. -/
def FabMsg.dest (m : FabMsg) : Nat := m.peer / 8

/-- Whether a message is a requester's. -/
def FabMsg.asks (m : FabMsg) : Bool :=
  match m.body with
  | .ask _ => true
  | _ => false
/-- Whether a message writes its line back. -/
def FabMsg.writes (m : FabMsg) : Bool :=
  match m.body with
  | .writeBack _ => true
  | _ => false
/-- Whether a message takes a lane of an ATOM to its home. -/
def FabMsg.atoms (m : FabMsg) : Bool :=
  match m.body with
  | .atom _ _ _ _ _ _ => true
  | _ => false
/-- Whether a message asks something of a home or changes it, and so is answered; the others are only acknowledged. -/
def FabMsg.request (m : FabMsg) : Bool := m.asks || m.writes || m.atoms

/-- Whether two messages say the same to the same peer about the same line. -/
def FabMsg.same (x y : FabMsg) : Bool := x.part == y.part && x.peer == y.peer && x.line == y.line && x.body == y.body

/-- A message of a requester about a fabric line to its peer home. -/
def lineMsg (line : Nat) (body : MsgBody) : FabMsg := ⟨linePart line, linePeer line, line, body, 0, 0⟩

/-- The number by which a message's line is named to and from its peer: partition, peer, and the line in the exported space. -/
def FabMsg.tag (m : FabMsg) : Nat := 2 ^ 57 * m.part + 2 ^ 36 * m.peer + m.line % 2 ^ 36

/-- The plane address of a line: bits [13:12] of its exported address (R375). -/
def planeAddr (line : Nat) : Nat := line / 32 % 4

/-- The plane that carries a plane address by fabplane (R371). -/
def Fabric.plane (f : Fabric) (a : Nat) : Nat := f.map / 4 ^ a % 4

/-- Whether a plane is in service. -/
def Fabric.planeAlive (f : Fabric) (p : Nat) : Bool := f.alive / 2 ^ p % 2 == 1

/-- The next live plane above a plane, in cyclic order (R376). -/
def Fabric.nextPlane (f : Fabric) (p : Nat) : Option Nat :=
  ([1, 2, 3].map fun i => (p + i) % 4).find? fun q => f.planeAlive q

/-- The plane that carries a plane address after a remap (R376). -/
def Fabric.movedTo (f : Fabric) (a : Nat) : Nat :=
  if f.planeAlive a then a
  else if f.planeAlive (f.plane a) then f.plane a
  else (f.nextPlane (f.plane a)).getD (f.plane a)

/-- Whether a remap in progress moves a plane address. -/
def Fabric.moving (f : Fabric) (a : Nat) : Bool := f.remap.elim false fun r => r.2.contains a

/-- The plane that carries a plane address to a package: the new one once it has acknowledged the remap (R376). -/
def Fabric.planeFor (f : Fabric) (a pkg : Nat) : Nat :=
  if f.moving a && f.acked.contains pkg then f.movedTo a else f.plane a

/-- Whether nothing is sent on a plane address to a package: no plane is alive, or the address is being remapped and the package has
not acknowledged that (R376). -/
def Fabric.blocked (f : Fabric) (a pkg : Nat) : Bool := f.alive == 0 || (f.moving a && !f.acked.contains pkg)

/-- Whether a message waits: nothing is sent on its plane address to its peer, or an earlier message there waits (R376). -/
def Fabric.mustWait (f : Fabric) (a pkg : Nat) : Bool :=
  f.blocked a pkg || f.waiting.any fun x => x.1 == a && x.2.dest == pkg

/-- A message with the version bit and time it is sent under (R374, R379). -/
def State.stampMsg (s : State) (m : FabMsg) : FabMsg :=
  { m with version := (s.fab.routes.get? m.dest).getD 0, sent := s.tsc }

/-- A flit sent on a plane counted at its first working link, whose sending key rotates every 2^32 flits (R378). -/
def countSent (s : State) (plane : Nat) : State :=
  match s.fab.links.find? fun x => x.1 / 4 == plane && x.2.up with
  | some (n, l) =>
    let l1 := if l.txFlits + 1 < 2 ^ 32 then { l with txFlits := l.txFlits + 1 } else { l with txKey := l.txKey + 1, txFlits := 0 }
    { s with fab := { s.fab with links := s.fab.links.put n l1 } }
  | none => s

/-- A message sent toward its peer on the plane of its plane address, or held back (R375, R376). -/
def sendMsg (s : State) (m : FabMsg) : State :=
  let a := planeAddr m.line
  let x := s.stampMsg m
  if s.fab.mustWait a m.dest then { s with fab := { s.fab with waiting := s.fab.waiting ++ [(a, x)] } }
  else
    let p := s.fab.planeFor a m.dest
    countSent { s with fab := { s.fab with unacked := s.fab.unacked ++ [(p, x)] } } p

/-- Whether a message has been sent and not answered, or is to be sent again. -/
def Fabric.pendingMsg (f : Fabric) (m : FabMsg) : Bool :=
  (f.unacked.any fun x => x.2.same m) || (f.waiting.any fun x => x.2.same m) || f.retries.any fun x => x.1.same m

/-- A message sent once. -/
def sendOnce (s : State) (m : FabMsg) : State := if s.fab.pendingMsg m then s else sendMsg s m

/-- What an access needs of a peer asked for once: a fabric line to share or own (R62, R373), or this package's line back
from each peer that holds it (R58). -/
def askPeer (s : State) (w : Want) : State :=
  match w with
  | .share l k => sendOnce { s with fab := { s.fab with keys := if (s.fab.lines.get? l).isNone then s.fab.keyed l k else s.fab.keys } }
      (lineMsg l (.ask false))
  | .own l k => sendOnce { s with fab := { s.fab with keys := if (s.fab.lines.get? l).isNone then s.fab.keyed l k else s.fab.keys } }
      (lineMsg l (.ask true))
  | .home l write => (s.fab.peers.filter fun c => c.line == l && (write || c.own)).foldl (fun s c =>
      sendOnce s ⟨c.part, c.peer, c.eline, .recall l write, 0, 0⟩) s

/-- Lines asked of peers. -/
def askAll (s : State) (ws : List Want) : State := ws.foldl askPeer s

/-- Whether what was asked of a peer is there, or was refused (R373, R374). -/
def Want.met (s : State) : Want → Bool
  | .share l _ => !lacksLine s false l || s.fab.faulted.any fun f => f.1 == l
  | .own l _ => !lacksLine s true l || s.fab.faulted.any fun f => f.1 == l
  | .home l write => !s.fab.heldAway l write

/-- The fabric line of a want. -/
def Want.line? : Want → Option Nat
  | .share l _ => some l
  | .own l _ => some l
  | .home _ _ => none

/-- A fabric line leaves the local LLC with the copies beneath; a line it has written goes to its peer home (R373), unless it is
lost (R374), whose mark stays. -/
def evictFabric (s : State) (line : Nat) : State :=
  if (s.fab.lines.get? line).isNone then s
  else
    let s1 := dropLlc (dropCopies s fun l => l == 2 ^ 60 + line) fun l => l == 2 ^ 60 + line
    let s2 := { s1 with fab := { s1.fab with lines := s1.fab.lines.del line, keys := s1.fab.keys.del line
                                             owned := s1.fab.owned.filter fun l => l != line
                                             dirty := s1.fab.dirty.filter fun l => l != line } }
    if s.fab.dirty.contains line && !s.lost.contains (2 ^ 60 + line) then sendMsg s2 (lineMsg line (.writeBack ((s.fab.lines.get? line).getD []))) else s2

/-- The fabric lines whose tag the local LLC has given to another line (R65). -/
def strayLines (s : State) : List Nat :=
  s.fab.lines.keys.filter fun l => (s.parts.get? (linePart l)).elim true fun p => (p.llc.get? (2 ^ 60 + l)).isNone

/-- The fabric lines that the local LLC has no way for any more leave it. -/
def sweepFabric (s : State) : State := (strayLines s).foldl evictFabric s

/-- Peers told to give up what they hold of lines that a test selects, by an event of the home that leaves no copy: a birth or
an erase, a discarded page (R75, R285). -/
def recallPeers (s : State) (gone : Nat → Bool) : State :=
  let cs := s.fab.peers.filter fun c => gone c.line
  let s1 := { s with fab := { s.fab with peers := s.fab.peers.filter fun c => !gone c.line } }
  cs.foldl (fun s c => sendOnce s ⟨c.part, c.peer, c.eline, .recall c.line true, 0, 0⟩) s1

end Sys2Proof.Machine
end

