-- ==== Sys2Proof/Machine/Translate.lean ====
section
/-! DEFINITION. Effective addresses to places: the aperture (R28-R32), the table walk and its checks (R85-R94),
discarded and demand-notify pages (R95-R97), region classes and the access table (R33, R34), sparse regions (R74). -/

namespace Sys2Proof.Machine

/-- The trap codes of R349. -/
def Code.illegalOpcode : Nat := 0x01
def Code.illegalForm : Nat := 0x02
def Code.illegalOperand : Nat := 0x03
def Code.illegalScope : Nat := 0x04
def Code.illegalClause : Nat := 0x05
def Code.scopeMismatch : Nat := 0x06
def Code.nonuniformTarget : Nat := 0x07
def Code.misaligned : Nat := 0x08
def Code.pageFault : Nat := 0x09
def Code.protection : Nat := 0x0A
def Code.indexRange : Nat := 0x0B
def Code.existFull : Nat := 0x0C
def Code.dataLost : Nat := 0x0D
def Code.poolFault : Nat := 0x0E
def Code.stackOverflow : Nat := 0x0F
def Code.swTrap : Nat := 0x10
def Code.tileFault : Nat := 0x11
def Code.detOrder : Nat := 0x12
def Code.asyncError : Nat := 0x13
def Code.privilege : Nat := 0x14

/-- The access kinds of R34 and R89. -/
inductive Acc where
  | load | lde | ldr | store | atom | fetch | exist | etest | engineRead | engineWrite | prefetch | discard | reqpage
  deriving DecidableEq, Repr

/-- Whether an access writes, for the dirty bit and discarded pages (R94, R97). -/
def Acc.writes : Acc → Bool
  | .store | .atom | .engineWrite | .exist => true
  | _ => false

/-! ## Fields of entries (R87, R88) -/

/-- A bit of an entry. -/
def ebit (e : Word) (i : Nat) : Bool := e.toNat / 2 ^ i % 2 == 1
/-- A field of an entry. -/
def efield (e : Word) (lo w : Nat) : Nat := e.toNat / 2 ^ lo % 2 ^ w
/-- The type of a leaf (R33). -/
def leafType (e : Word) : Nat := efield e 2 3
/-- The physical address a leaf of type 0, 2 or 4 gives an offset. -/
def leafPa (e : Word) (level : Nat) (va : Word) : Nat :=
  efield e 24 40 * 2 ^ 16 + va.toNat % 2 ^ (16 + 10 * level)

/-- The page size of a level in bits. -/
def levelBits (level : Nat) : Nat := 16 + 10 * level

/-- Physical base of the ASID table (R86). -/
def Partition.asidTab (p : Partition) : Nat :=
  (p.sys 0x0C9).toNat % 2 ^ 24 * 2 ^ 32 + (p.sys 0x0C8).toNat / 2 ^ 14 * 2 ^ 14

/-- Whether the walker refuses a leaf (R89, R370), apart from the region conditions of R74 and from frames outside the
partition's memory (`reachesForeign`). -/
def leafRefused (s : State) (p : Partition) (e : Word) (level : Nat) : Bool :=
  let t := leafType e
  decide (5 ≤ t) || level == 3
  || ((t == 1) && level != 1) || ((t == 2 || t == 4) && level != 0)
  || efield e 22 2 != 0
  || ((t == 0 || t == 3) && level == 1 && efield e 24 10 != 0)
  || ((t == 0 || t == 3) && level == 2 && efield e 24 20 != 0)
  || ((t == 1) && efield e 32 32 != 0)
  || ((t == 4) && efield e 24 40 * 2 ^ 16 != p.frame)
  || ((t == 3) && efield e 54 10 == s.fab.pkg)
  || ((t != 2) && efield e 20 2 != 0)

/-- What a walk finds: the leaf, its level, and where it is stored. -/
structure Walk where
  leaf  : Word
  level : Nat
  at_   : Nat
  deriving DecidableEq, Repr

/-- The place of an address in a sparse region, if the descriptor in force covers it (R74). -/
def regionPlace (s : State) (part r : Nat) (va : Word) (k : Key) : Option Place :=
  match s.region? part r with
  | none => none
  | some g =>
    let o := va.toNat - g.base.toNat
    if g.valid && decide (g.base.toNat ≤ va.toNat ∧ o < 2 ^ 26 * g.size) then
      some (.tile r (o / tileBytes g.tsize) (o % tileBytes g.tsize) k)
    else none

/-- Whether the descriptor in force refuses an address through a leaf (R74). -/
def uncovered (s : State) (part : Nat) (e : Word) (va : Word) : Bool :=
  leafType e == 1 && (regionPlace s part (efield e 24 8) va none).isNone

/-- Whether a leaf that has a frame names memory outside the partition's own for an address: another partition's, a free
quarter's or past HBM (R18, R21; the refusal DESIGN CHOICE, log 6). -/
def reachesForeign (s : State) (part : Nat) (e : Word) (level : Nat) (va : Word) : Bool :=
  (leafType e == 0 || leafType e == 4 || (leafType e == 2 && ebit e 20)) && s.foreign part (leafPa e level va)

/-- Whether the walker accepts a leaf for an address (R74, R89). -/
def leafAccepted (s : State) (part : Nat) (p : Partition) (e : Word) (level : Nat) (va : Word) : Bool :=
  !(leafRefused s p e level || uncovered s part e va || reachesForeign s part e level va)

/-- The walk from a table at a level (R85, R87, R89). -/
def walkFrom (s : State) (part : Nat) (p : Partition) (va : Word) : (level : Nat) → (table : Nat) → Option Walk
  | 0, table =>
    let a := table + 8 * (va.toNat / 2 ^ 16 % 1024)
    let e := dev64 s part a
    if ebit e 0 && ebit e 1 && leafAccepted s part p e 0 va then some ⟨e, 0, a⟩ else none
  | l + 1, table =>
    let a := table + 8 * (va.toNat / 2 ^ (26 + 10 * l) % 1024)
    let e := dev64 s part a
    if !ebit e 0 then none
    else if ebit e 1 then (if leafAccepted s part p e (l + 1) va then some ⟨e, l + 1, a⟩ else none)
    else if efield e 2 11 != 0 || efield e 56 8 != 0 then none
    else walkFrom s part p va l (efield e 13 43 * 2 ^ 13)

/-- The table walk under an ASID (R85, R86, R89); `none` is a refusal. -/
def walk (s : State) (part asid : Nat) (va : Word) : Option Walk :=
  match s.parts.get? part with
  | none => none
  | some p =>
    if p.asidFirst ≤ asid ∧ asid < p.asidFirst + p.asidCount then
      let e := dev64 s part (p.asidTab + 8 * asid)
      if ebit e 0 && efield e 1 12 == 0 && efield e 56 8 == 0 then
        walkFrom s part p va 3 (efield e 13 43 * 2 ^ 13)
      else none
    else none

/-- The entries a walk from a table reads (R85). -/
def walkSteps (s : State) (part : Nat) (va : Word) : (level : Nat) → (table : Nat) → List Nat
  | 0, table => [table + 8 * (va.toNat / 2 ^ 16 % 1024)]
  | l + 1, table =>
    let a := table + 8 * (va.toNat / 2 ^ (26 + 10 * l) % 1024)
    let e := dev64 s part a
    if !ebit e 0 || ebit e 1 || efield e 2 11 != 0 || efield e 56 8 != 0 then [a]
    else a :: walkSteps s part va l (efield e 13 43 * 2 ^ 13)

/-- The entries a walk under an ASID reads (R85, R86). -/
def walkReads (s : State) (part asid : Nat) (va : Word) : List Nat :=
  match s.parts.get? part with
  | none => []
  | some p =>
    if p.asidFirst ≤ asid ∧ asid < p.asidFirst + p.asidCount then
      let a := p.asidTab + 8 * asid
      let e := dev64 s part a
      if ebit e 0 && efield e 1 12 == 0 && efield e 56 8 == 0 then a :: walkSteps s part va 3 (efield e 13 43 * 2 ^ 13)
      else [a]
    else []

/-- What a walk does to copies of the entries it reads at their homes (R58, R64). -/
def walkTouch (s : State) (part asid : Nat) (va : Word) : State := devTouchAll s part (walkReads s part asid va)

/-- Whether an instruction only asks about a page or hints at it, and makes no access through its translation (R94; DEDUCED,
log 25). -/
def Acc.hints : Acc → Bool
  | .prefetch | .reqpage => true
  | _ => false

/-- The permission check of R89 (DEDUCED, log 25). -/
def permitted (e : Word) (acc : Acc) : Bool :=
  match acc with
  | .load | .lde | .ldr | .engineRead | .prefetch => ebit e 5
  | .store | .exist | .engineWrite | .discard => ebit e 6
  | .atom => ebit e 5 && ebit e 6
  | .fetch => ebit e 7
  | .etest | .reqpage => true

/-- The key of a cached translation: its ASID and 64 KiB page. -/
def tlbKey (asid : Nat) (va : Word) : Nat := asid * 2 ^ 40 + va.toNat / 2 ^ 16

/-- The entry a walk leaves in memory: accessed, and dirty for a write (R94). -/
def marked (e : Word) (write : Bool) : Word := e ||| 0x100#64 ||| (if write then 0x200#64 else 0#64)

/-- A leaf rewritten in memory by the walker's compare-and-swap. -/
def writeLeaf (s : State) (part : Nat) (w : Walk) (e : Word) : State :=
  if e = w.leaf then s else devWrite s part w.at_ (leBytes 8 e.toNat)

/-- The result of a translation. -/
structure Xlat where
  leaf  : Word
  level : Nat
  deriving DecidableEq, Repr

/-- A walk made for an access: checks, accessed and dirty, and the TLB (R89, R90, R94). A non-resident page gives its
leaf unchecked (R34). -/
def walkFor (s : State) (part asid : Nat) (va : Word) (acc : Acc) : Except Nat (State × Xlat) :=
  match walk s part asid va with
  | none => .error Code.pageFault
  | some w =>
    let s0 := walkTouch s part asid va
    if leafType w.leaf == 2 && !ebit w.leaf 20 then .ok (s0, ⟨w.leaf, w.level⟩)
    else if !permitted w.leaf acc then .error Code.protection
    else if acc.hints then .ok (s0, ⟨w.leaf, w.level⟩)
    else
      let e := marked w.leaf acc.writes
      let s1 := writeLeaf s0 part w e
      let s2 := if acc.writes && ebit e 18 then s1 else
        s1.mapPart part fun p => { p with tlb := p.tlb.put (tlbKey asid va) ⟨e, w.level⟩ }
      .ok (s2, ⟨e, w.level⟩)

/-- Whether a cached translation does not serve an access: the walker has a bit to set (R94, R285), or the page is
discarded (R90). -/
def TlbEntry.walksAgain (e : TlbEntry) (acc : Acc) : Bool :=
  (acc.writes && (!ebit e.leaf 9 || ebit e.leaf 18)) || (!acc.hints && !ebit e.leaf 8) || acc == .discard

/-- Translation of an address below the aperture: a cached translation that serves the access, else a walk (R74, R90,
R91, R94; DESIGN CHOICE, log 7). -/
def xlate (s : State) (part asid : Nat) (va : Word) (acc : Acc) : Except Nat (State × Xlat) :=
  match (s.parts.get? part).bind fun p => p.tlb.get? (tlbKey asid va) with
  | some e =>
    if e.walksAgain acc then walkFor s part asid va acc
    else if uncovered s part e.leaf va then .error Code.pageFault
    else if permitted e.leaf acc then .ok (s, ⟨e.leaf, e.level⟩)
    else .error Code.protection
  | none => walkFor s part asid va acc

/-- Translations an invalidation covers are removed (R92). -/
def Cover.hits (c : Cover) (key : Nat) (e : TlbEntry) : Bool :=
  match c with
  | .address a va =>
    key / 2 ^ 40 == a && (key % 2 ^ 40) / 2 ^ (10 * e.level) == va.toNat / 2 ^ levelBits e.level
  | .asid a => key / 2 ^ 40 == a
  | .all => true

/-- A completed invalidation: covered translations removed, every last-page register cleared, issuectr advanced (R91,
R92, R93). -/
def Partition.invalidate (p : Partition) (c : Cover) : Partition :=
  { p with tlb := p.tlb.filter fun x => !(c.hits x.1 x.2), pages := [], issuectr := p.issuectr + 1 }

/-- The frame of a leaf filled with zeros as far as it is the partition's memory (R21, R97). -/
def zeroFrame (s : State) (part : Nat) (k : Key) (base n : Nat) : State :=
  match k with
  | none => { s with mem := s.mem.drop fun a => decide (base ≤ a ∧ a < base + n) && !s.foreign part a,
                     lost := s.lost.filter fun l => !(lineIn base n l && !s.foreign part (128 * l)) }
  | some _ => writeCells s k ((cellsFrom base (List.replicate n 0)).filter fun c => !s.foreign part c.1)

/-- The first write to a discarded page re-establishes it as one event (R97). -/
def reestablish (s : State) (part asid : Nat) (va : Word) (k : Key) : State :=
  match walk s part asid va with
  | none => s
  | some w =>
    let s1 := (walkTouch s part asid va).mapPart part fun p => p.invalidate (.address asid va)
    let base := efield w.leaf 24 40 * 2 ^ 16
    let n := 2 ^ levelBits w.level
    let s2 := recallPeers (zeroFrame s1 part k base n) (lineIn base n)
    writeLeaf s2 part w (w.leaf &&& ~~~(0x40000#64))

/-- The key pair a leaf selects; `none` where its slot is empty (R390). -/
def leafKey (s : State) (part : Nat) (e : Word) : Option Key :=
  match s.parts.get? part with
  | none => some none
  | some p =>
    if !p.sealed then some none
    else (p.keys.get? (efield e 10 6)).map some

/-- Whether an address lies past the slots of the partition's launch frame, where every byte reads as 0 (R35). -/
def launchTail (s : State) (part pa : Nat) : Bool :=
  (s.parts.get? part).elim false fun p => decide (p.frame + 8192 ≤ pa ∧ pa < p.frame + 65536)

/-- The place of a physical address (R35). -/
def physPlace (s : State) (part pa : Nat) (k : Key) : Place := if launchTail s part pa then .zero pa k else .phys pa k

/-- An address of the aperture (R29). -/
def inAperture (ea : Word) : Bool := decide (0x00FF000000000000 ≤ ea.toNat ∧ ea.toNat < 2 ^ 56)

/-- Whether an address lies in a discarded page (R97). -/
def discardedAt (s : State) (part asid : Nat) (va : Word) : Bool :=
  !inAperture va && match walk s part asid va with
    | some w => ebit w.leaf 18 && (leafType w.leaf == 0 || (leafType w.leaf == 2 && ebit w.leaf 20))
    | none => false

/-- The place of an address in a page with a frame of its own: a write re-establishes a discarded page (R97). -/
def framePlace (s : State) (part asid : Nat) (va : Word) (acc : Acc) (x : Xlat) (k : Key) : Except Nat (State × Place) :=
  let pa := leafPa x.leaf x.level va
  if ebit x.leaf 18 then
    if acc.writes then
      match walkFor (reestablish s part asid va k) part asid va acc with
      | .ok (s2, y) => .ok (s2, physPlace s2 part (leafPa y.leaf y.level va) k)
      | .error c => .error c
    else .ok (s, .zero pa k)
  else .ok (s, physPlace s part pa k)

/-- The place of a fabric address: the LLC of a partition caches lines of its own (R21, R57). -/
def fabricPlace (part : Nat) (x : Xlat) (va : Word) (k : Key) : Place :=
  .fabric (2 ^ 64 * part + leafPa x.leaf x.level va) k

/-- The effect R34 gives an access to a non-resident demand-notify page. -/
def absentPlace (s : State) (acc : Acc) : Except Nat (State × Place) :=
  match acc with
  | .ldr | .prefetch | .reqpage => .ok (s, .absent)
  | .exist | .etest | .discard => .error Code.protection
  | _ => .error Code.pageFault

/-- The effect R34 gives an access to a page whose lines can be read under a key. The discard bit, which software may write
in a leaf of type 1, 3 or 4, has no effect there (R97; DESIGN CHOICE, log 25). -/
def keyedPlace (s : State) (part asid : Nat) (va : Word) (acc : Acc) (x : Xlat) (k : Key) : Except Nat (State × Place) :=
  let t := leafType x.leaf
  if t = 0 ∨ t = 2 then
    match acc with
    | .exist | .etest => .error Code.protection
    | _ => framePlace s part asid va acc x k
  else if t = 1 then
    match acc with
    | .fetch | .discard => .error Code.protection
    | _ => match regionPlace s part (efield x.leaf 24 8) va k with
      | some p => .ok (s, p)
      | none => .error Code.pageFault
  else if t = 3 then
    match acc with
    | .exist | .etest | .fetch | .discard => .error Code.protection
    | _ => .ok (s, fabricPlace part x va k)
  else match acc with
    | .load | .lde | .ldr | .engineRead => .ok (s, physPlace s part (leafPa x.leaf x.level va) k)
    | .prefetch | .reqpage => .ok (s, .absent)
    | _ => .error Code.protection

/-- The effect R34 gives an access to a translated page: its place, or the cause; R34 decides a non-resident page before
its key is looked at (R390; DEDUCED, log 25). -/
def classPlace (s : State) (part asid : Nat) (va : Word) (acc : Acc) (x : Xlat) : Except Nat (State × Place) :=
  if leafType x.leaf == 2 && !ebit x.leaf 20 then absentPlace s acc
  else match leafKey s part x.leaf with
    | none => .error Code.protection
    | some k => keyedPlace s part asid va acc x k

/-- The block whose scratch an aperture address names, and the offset in it (R30): the own-scratch window or a gang
window. -/
def apertureBlock (s : State) (blk : Nat) (ea : Word) : Except Nat (Nat × Nat) :=
  let o := ea.toNat - 0x00FF000000000000
  let win := o / 2 ^ 32
  if win = 0 then .ok (blk, o % 2 ^ 32)
  else if win ≤ 8 then
    match (s.blocks.get? blk).bind fun b => b.gang[win - 1]? with
    | some g => .ok (g, o % 2 ^ 32)
    | none => .error Code.poolFault
  else .error Code.protection

/-- Whether a scratch range meets an open stash window of its block (R312). -/
def Block.windowHits (b : Block) (o n : Nat) : Bool :=
  b.windows.any fun w => decide (o < w.2.off + w.2.len ∧ w.2.off < o + n)

/-- The aperture check of R30 and R64 for an access of `n` bytes. -/
def aperturePlace (s : State) (blk : Nat) (ea : Word) (n : Nat) : Except Nat Place :=
  match apertureBlock s blk ea with
  | .error c => .error c
  | .ok (b, o) => match s.blocks.get? b with
    | none => .error Code.poolFault
    | some x =>
      if x.scratchSize < o + n then .error Code.poolFault
      else if x.windowHits o n then .error Code.protection
      else .ok (.scratch b o)

/-- The checks of R37 after alignment, for an access of `n` bytes by a block: the place, or the cause. -/
def resolve (s : State) (part asid blk : Nat) (ea : Word) (n : Nat) (acc : Acc) : Except Nat (State × Place) :=
  if inAperture ea then
    match acc with
    | .exist | .etest | .fetch | .discard | .reqpage => .error Code.protection
    | .engineRead | .engineWrite => .error Code.illegalOperand
    | .prefetch => .ok (s, .absent)
    | _ => match aperturePlace s blk ea n with
      | .ok p => .ok (s, p)
      | .error c => .error c
  else if 2 ^ 56 ≤ ea.toNat then .error Code.pageFault
  else match xlate s part asid ea acc with
    | .error c => .error c
    | .ok (s1, x) => classPlace s1 part asid ea acc x

/-! ## Last-page registers (R91) -/

/-- The number of a lane's last-page register. -/
def pageKey (uid l : Nat) : Nat := 32 * uid + l

/-- Whether a last-page register serves an access: its page, the permission, and for a write dirty = 1 and dsc = 0. -/
def LastPage.serves (r : LastPage) (va : Word) (acc : Acc) : Bool :=
  r.page == va.toNat / 2 ^ levelBits r.level && permitted r.leaf acc && !TlbEntry.walksAgain ⟨r.leaf, r.level⟩ acc

/-- The last-page register of a lane, where it serves an access. -/
def lastPage (s : State) (part uid l : Nat) (va : Word) (acc : Acc) : Option LastPage :=
  ((s.parts.get? part).bind fun p => p.pages.get? (pageKey uid l)).filter fun r => r.serves va acc

/-- The translation a lane has used kept in its last-page register, where it is one that may be cached (R90, R91). -/
def notePage (s : State) (part asid uid l : Nat) (va : Word) : State :=
  s.mapPart part fun p => match p.tlb.get? (tlbKey asid va) with
    | some e => { p with pages := p.pages.put (pageKey uid l) ⟨va.toNat / 2 ^ levelBits e.level, e.leaf, e.level⟩ }
    | none => p

/-- The last-page registers of a warp cleared: at its start, suspension and pre-emption (R91). -/
def dropPages (s : State) (uid : Nat) : State :=
  { s with parts := s.parts.mapV fun _ p => { p with pages := p.pages.drop fun k => k / 32 == uid } }

/-- The checks of R37 after alignment for a lane, through its last-page register where that serves (R91). -/
def resolveLane (s : State) (part asid blk uid l : Nat) (ea : Word) (n : Nat) (acc : Acc) : Except Nat (State × Place) :=
  match if inAperture ea ∨ 2 ^ 56 ≤ ea.toNat then none else lastPage s part uid l ea acc with
  | some r => classPlace s part asid ea acc ⟨r.leaf, r.level⟩
  | none => match resolve s part asid blk ea n acc with
    | .ok (s1, p) => .ok (if inAperture ea || acc.hints then s1 else notePage s1 part asid uid l ea, p)
    | .error c => .error c

/-! ## Stamps (R93) -/

/-- Whether a counter value exceeds another by serial arithmetic (R93). -/
def exceeds (a b : Half) : Bool := decide (1 ≤ (a - b).toNat ∧ (a - b).toNat < 2 ^ 31)

/-- The partition of a block. -/
def State.partOfBlock (s : State) (b : Block) : Nat := (s.kernels.get? b.kernel).elim 0 (·.part)

/-- Whether a command counts as a request in flight (R93): accesses and engine commands do. -/
def Work.inFlight : Work → Bool
  | .result .load _ | .result .kread _ | .xswap _ _ _ _ _ _ _ | .kupd _ _ _ _ | .poolset _ _ _ | .inval _
  | .reload _ _ => false
  | _ => true

/-- Whether a copy has a side in global memory. -/
def dirGlobal : CpyDir → Bool
  | .s2t | .t2s => false
  | _ => true

/-- Whether an engine command has global pages to translate and has translated none yet (R93): its stamp is that of its
first translation. -/
def Work.untranslated : Work → Bool
  | .copy c _ => !c.ran && dirGlobal c.dir
  | .fetch _ _ _ _ _ _ _ => true
  | _ => false

/-- Stamps of the requests in flight of a partition: commands, and lines held by stash windows (R93). -/
def stampsInFlight (s : State) (part : Nat) : List Half :=
  ((s.pend.filter fun q => q.2.part == part && q.2.work.inFlight).map fun q =>
      if q.2.work.untranslated then (s.parts.get? part).elim 0 (·.issuectr) else q.2.stamp)
    ++ (s.blocks.filter fun b => s.partOfBlock b.2 == part).flatMap fun b =>
        b.2.windows.flatMap fun w => w.2.owned.map fun o => o.2.2

/-- quiesctr of a partition (R93; DEDUCED, log 24). -/
def quiesctr (s : State) (part : Nat) : Half :=
  match stampsInFlight s part with
  | [] => (s.parts.get? part).elim 0 (·.issuectr) + 1
  | x :: r => r.foldl (fun a b => if exceeds a b then b else a) x

/-- The state with a region changed. -/
def State.mapRegion (s : State) (part r : Nat) (f : Region → Region) : State :=
  s.mapPart part fun p => match p.regions.get? r with
    | some g => { p with regions := p.regions.put r (f g) }
    | none => p

/-- Whether the stamps in flight of a partition would span more than 2^30 values if its issue counter advanced (R93). -/
def spanFull (s : State) (part : Nat) : Bool :=
  let n := (s.parts.get? part).elim 0 (·.issuectr) + 1
  (stampsInFlight s part).any fun g => decide (2 ^ 30 < (n - g).toNat)

end Sys2Proof.Machine
end

