-- ==== Sys2Proof/Machine/Cache.lean ====
section
/-! DEFINITION. Event counters (R397, R398), and where copies of lines are kept: the L1 of a core (R46, R63), the L2 of a
die (R58-R60), the LLC slices with their reservation ranges (R65, R66), and what the home directory lists (R57, R58).
Copies change timing only: bytes are read from one memory (DESIGN CHOICE, log 2). -/

namespace Sys2Proof.Machine

/-! ## Event counters (R397, R398) -/

/-- Whether an event counter of a core counts a source (R397): enabled, the source named, and with blk the block of
the warp that last wrote its control. -/
def Core.counts (c : Core) (i src : Nat) (block : Option Nat) : Bool :=
  (c.evctl.num i).getLsbD 31 && (c.evctl.num i).toNat % 256 == src
    && (!(c.evctl.num i).getLsbD 30 || (block.isSome && c.evblk.get? i == block))

/-- What an event counter of a core has counted in a clk (R397). -/
def Core.countedIn (c : Core) (clk i : Nat) : Half := if c.evclk = clk then c.evnow.num i else 0

/-- An event counter of a core advanced by `n` in a clk, modulo 2^32 (R397). -/
def Core.countOne (c : Core) (clk i n : Nat) : Core :=
  { c with evcnt := c.evcnt.setNum i (c.evcnt.num i + BitVec.ofNat 32 n)
           evclk := clk
           evnow := (if c.evclk = clk then c.evnow else []).setNum i (c.countedIn clk i + BitVec.ofNat 32 n) }

/-- The counters of a core that count a source advanced by `n` in a clk (R397). -/
def Core.countEvent (c : Core) (clk src n : Nat) (block : Option Nat) : Core :=
  (List.range 8).foldl (fun c i => if c.counts i src block then c.countOne clk i n else c) c

/-- An event of a core counted (R397). -/
def State.event (s : State) (core : Nat) (block : Option Nat) (src n : Nat) : State :=
  match s.cores.get? core with
  | some c => if c.evctl.isEmpty || n = 0 then s else s.mapCore core fun c => c.countEvent s.clk src n block
  | none => s

/-- An event of a die's counters (R398): at the quarter-die of a core, where the quarter belongs to a partition. -/
def State.dieEvent (s : State) (core src n : Nat) : State :=
  if s.dieSel.isEmpty then s else
  (List.range 16).foldl (fun s i =>
    let k := core / 64 * 16 + i
    let sel := s.dieSel.num k
    if sel.getLsbD 31 && sel.toNat % 256 == src && sel.toNat / 256 % 16 == core / 16 % 4
        && (s.kiln.quarters.get? (core / 16)).isSome then
      { s with dieCnt := s.dieCnt.setNum k (s.dieCnt.num k + BitVec.ofNat 32 n) } else s) s

/-! ## Lines -/

/-- The line an access caches: fabric lines are numbered past all local lines; scratch, absent tiles and discarded
pages cache none. -/
def cacheLine (s : State) (part : Nat) (p : Place) : Option Nat :=
  match p with
  | .phys pa _ => some (pa / 128)
  | .tile r t o _ => ((s.region? part r).bind fun g => g.tiles.get? t).map fun b => (b + o) / 128
  | .fabric a _ => some (2 ^ 60 + a / 128)
  | _ => none

/-- The base stack that holds a frame, one of the partition's (R19, R20, R57; DESIGN CHOICE, log 13). -/
def Partition.stackOf (p : Partition) (pa : Nat) : Nat :=
  p.first / 4 + Config.stackOf (pa / 2 ^ 16) % ((p.count + 3) / 4)

/-- The home slice of a tile: one of the partition's 4 slices a quarter-die, by a fixed hash of region and tile (R19, R74). -/
def Partition.tileSlice (p : Partition) (r t : Nat) : Nat := 4 * p.first + Config.tileHome r t % (4 * Nat.max 1 p.count)

/-- The tile of a sparse region whose storage holds a line. -/
def Partition.tileAt (p : Partition) (line : Nat) : Option (Nat × Nat) :=
  p.regions.findSome? fun g => (g.2.tiles.find? fun x => lineIn x.2 (tileBytes g.2.tsize) line).map fun x => (g.1, x.1)

/-- The home slice of a line: a tile's for a line of its storage (R74), else one of the partition's LLC slices on the line's base
stack (R19, R57; DESIGN CHOICE, log 13). -/
def Partition.sliceOf (p : Partition) (line : Nat) : Nat :=
  match p.tileAt line with
  | some x => p.tileSlice x.1 x.2
  | none => 16 * p.stackOf (128 * line) + p.first % 4 * 4 + Config.lineHash line % (4 * Nat.min 4 p.count)

/-- The base stack of a line's home. -/
def Partition.homeStack (p : Partition) (line : Nat) : Nat := p.sliceOf line / 16

/-- The die of a core, whose L2 it uses (R11, R19). -/
def dieOf (core : Nat) : Nat := core / 64

/-- Of ways, each a line and its last use, the one used least recently; of several the lowest line (R63; DESIGN CHOICE,
log 11). -/
def leastUsed : List (Nat × Nat) → Option Nat
  | [] => none
  | x :: r => some (r.foldl (fun (b : Nat × Nat) y => if y.2 < b.2 ∨ (y.2 = b.2 ∧ y.1 < b.1) then y else b) x).1

/-- The line a full set gives up: the least recently used, a retained one only when no other is left (R63). -/
def victim (ways : Tab LineTag) : Option Nat :=
  let plain := ways.filter fun w => !w.2.retain
  leastUsed ((if plain.isEmpty then ways else plain).map fun w => (w.1, w.2.used))

/-- The step a fill marks a line with: stream fills at the least-recent position (R63). -/
def fillUse (step : Nat) (pol : Policy) : Nat := if pol == .stream then 0 else step + 1

/-- Tags with a line filled into its set of `n` ways: the tags, and the line that had to leave (R63). -/
def fillSet (t : Tab LineTag) (same : Nat → Bool) (n line : Nat) (tag : LineTag) : Tab LineTag × Option Nat :=
  let ways := t.filter fun x => same x.1
  if ways.length < n then (t.put line tag, none)
  else match victim ways with
    | some v => ((t.del v).put line tag, some v)
    | none => (t.put line tag, none)

/-! ## The L1 of a core (R46, R60, R63) -/

/-- Whether the bank of a line's set leaves the cache role in a running change, so that it takes no fill (R51). -/
def Core.leaving (c : Core) (line : Nat) : Bool :=
  c.change.elim false fun ch => decide (64 * (ch.target.toNat / 2 ^ 16 % 2 ^ 8) ≤ line % (64 * c.cch))

/-- A line filled into the L1 of a core at a step (R46, R51, R63). -/
def Core.allocate (c : Core) (step line block : Nat) (pol : Policy) : Core :=
  if c.leaving line then c
  else { c with l1 := (fillSet c.l1 (fun l => l % (64 * c.cch) == line % (64 * c.cch)) 8 line
    ⟨false, pol == .retain, fillUse step pol, block⟩).1 }

/-- Whether an access uses the L1 of a core: not under L1-bypass, nor without cache banks (R46, R63). -/
def Core.caches (c : Core) (pol : Policy) : Bool := pol != .bypass && c.cch != 0

/-- Whether an access finds its line in the L1. -/
def Core.hits (c : Core) (line : Nat) (pol : Policy) : Bool := c.caches pol && (c.l1.get? line).isSome

/-- A line used in the L1 of a core: a hit is marked; a load that misses fills it, a store that misses is written at the
L2; L1-bypass, and a core without cache banks, keep no copy (R46, R60, R63). -/
def Core.useLine (c : Core) (step line block : Nat) (pol : Policy) (write : Bool) : Core :=
  if !c.caches pol then { c with l1 := c.l1.del line }
  else match c.l1.get? line with
    | some t => { c with l1 := c.l1.put line { t with dirty := t.dirty || write, used := step + 1 } }
    | none => if write then c else c.allocate step line block pol

/-! ## Reservation ranges and the LLC (R65, R66) -/

/-- The lowest enabled range that holds an address of an ASID. -/
def Partition.rangeOf (p : Partition) (asid : Nat) (va : Word) : Option Nat :=
  (List.range 8).find? fun n =>
    let ctl := p.sys (0xB8 + n)
    let base := (p.sys (0xA8 + n)).toNat % 2 ^ 24 * 2 ^ 32 + (p.sys (0xA0 + n)).toNat / 2 ^ 16 * 2 ^ 16
    ctl.getLsbD 31 && ctl.toNat % 2 ^ 10 == asid
      && decide (base ≤ va.toNat ∧ va.toNat < base + 2 ^ 16 * (p.sys (0xB0 + n)).toNat)

/-- The sampling exponent of a range (R65). -/
def Partition.ratio (p : Partition) (n : Nat) : Nat := Nat.min 8 ((p.sys (0xB8 + n)).toNat / 2 ^ 19 % 16)

/-- Ways a range asks for (R65). -/
def Partition.waysAsked (p : Partition) (n : Nat) : Nat :=
  let c := (p.sys (0xB8 + n)).toNat
  if c / 2 ^ 31 % 2 = 1 then Nat.min 12 (c / 2 ^ 27 % 16) else 0

/-- Ways granted to a range (R66). -/
def Partition.granted (p : Partition) (n : Nat) : Nat :=
  ((List.range (n + 1)).foldl (fun (acc : Nat × Nat) m =>
    let g := Nat.min (p.waysAsked m) (12 - acc.1)
    (acc.1 + g, g)) (0, 0)).2

/-- Ways left to lines outside every range (R66). -/
def Partition.ordinaryWays (p : Partition) : Nat := 16 - ((List.range 8).map p.granted).sum

/-- The lines of a line's set in its slice: 65,536 sets of 16 ways (R65; DESIGN CHOICE, log 13). -/
def Partition.llcSet (p : Partition) (line : Nat) : Tab LlcTag :=
  p.llc.filter fun x => p.sliceOf x.1 == p.sliceOf line && x.1 % 65536 == line % 65536

/-- The least recently used line of a set's class, once the class has all its ways (R66). -/
def Partition.classVictim (p : Partition) (set : Tab LlcTag) (cls : Option Nat) : Option Nat :=
  let mine := set.filter fun x => x.2.range == cls
  let quota := match cls with
    | some n => p.granted n
    | none => p.ordinaryWays
  if quota ≤ mine.length then leastUsed (mine.map fun x => (x.1, x.2.used)) else none

/-- The line that leaves a set for one of a class: none while the class and the set have a free way, else the least
recently used of the class, or an ordinary line that stands in a way of the class; where every way holds lines of ranges
that were granted more before, the least recently used of all (R65, R66; the last DESIGN CHOICE, log 13). -/
def Partition.llcVictim (p : Partition) (set : Tab LlcTag) (cls : Option Nat) : Option Nat :=
  let ordinary := set.filter fun x => x.2.range == none
  (p.classVictim set cls).orElse fun _ =>
    if 16 ≤ set.length then leastUsed ((if ordinary.isEmpty then set else ordinary).map fun x => (x.1, x.2.used)) else none

/-- The line that leaves for a line used in the LLC, when the use puts it into another class (R66). -/
def Partition.moveVictim (p : Partition) (line : Nat) (t : LlcTag) (cls : Option Nat) : Option Nat :=
  if cls.isSome && t.range != cls then p.classVictim (p.llcSet line) cls else none

/-- A line brought into the LLC in a class, or used there; a line keeps the class it has (R63, R66; DEDUCED, log 13). -/
def Partition.llcPut (p : Partition) (step line : Nat) (cls : Option Nat) (pol : Policy) : Partition :=
  match p.llc.get? line with
  | some t =>
    let rest := (p.moveVictim line t cls).elim p.llc fun v => p.llc.del v
    { p with llc := rest.put line { range := cls.orElse fun _ => t.range, used := step + 1 } }
  | none =>
    let rest := (p.llcVictim (p.llcSet line) cls).elim p.llc fun v => p.llc.del v
    { p with llc := rest.put line ⟨cls, fillUse step pol⟩ }

/-- A request that arrives at the home slice of its line, for an ASID and address or none: the range it matches counts
it, and every 2^n-th normal or retain one is retained (R66). -/
def Partition.arrive (p : Partition) (step : Nat) (who : Option (Nat × Word)) (line : Nat) (pol : Policy) : Partition :=
  match who.bind fun x => p.rangeOf x.1 x.2 with
  | none => p.llcPut step line none pol
  | some n =>
    let k := 8 * p.sliceOf line + n
    let c := p.resCnt.num k + 1
    let keep := (pol == .normal || pol == .retain) && c.toNat % 2 ^ p.ratio n == 0 && p.granted n != 0
    { p with resCnt := p.resCnt.setNum k c }.llcPut step line (if keep then some n else none) pol

/-! ## The L2 of a die (R58-R60, R63) -/

/-- The tags a partition's L2 slices of a die hold. -/
def Partition.l2At (p : Partition) (die : Nat) : Tab LineTag := (p.l2.get? die).getD []

/-- Whether two lines fall in one set of one L2 slice: 16 ways of 1,024 sets (R58; DESIGN CHOICE, log 13). -/
def Partition.l2Same (p : Partition) (a b : Nat) : Bool :=
  Config.lineHash a % (4 * Nat.min 4 p.count) == Config.lineHash b % (4 * Nat.min 4 p.count) && a % 1024 == b % 1024

/-- A line dropped from the L1 of the cores of a die. -/
def dropL1 (s : State) (die line : Nat) : State :=
  { s with cores := s.cores.mapV fun i c => if dieOf i = die then { c with l1 := c.l1.del line } else c }

/-- Whether the L2 of a die holds a line as an access needs it: to write, as its owner (R58). -/
def Partition.l2Serves (p : Partition) (die line : Nat) (own : Bool) : Bool :=
  ((p.l2At die).get? line).elim false fun t => t.dirty || !own

/-! ## Flits between dies (R398) -/

/-- The number of flits a message between dies takes: free, at least 1 (R398; DESIGN CHOICE, log 13). -/
def flitCount (s : State) (line : Nat) : Nat := 1 + Config.choice s.draws line

/-- A core of the quarter-die that holds the home slice of a line, at which what the home sends is counted. -/
def homeCore (s : State) (part line : Nat) : Nat := (s.parts.get? part).elim 0 fun p => 16 * (p.sliceOf line / 4)

/-- A core of a partition's first quarter on a die, at which what the die sends is counted. -/
def dieCore (s : State) (part die : Nat) : Nat := (s.parts.get? part).elim 0 fun p => Nat.max (64 * die) (16 * p.first)

/-- A message from one core's die to another's counted where it is sent; none crosses within a die (R398). -/
def flit (s : State) (src dst line : Nat) : State :=
  if dieOf src = dieOf dst then s else s.dieEvent src 2 (flitCount s line)

/-- A request of a core to the home of its line, and the home's reply (R398). -/
def crossDies (s : State) (part core line : Nat) : State :=
  if s.dieSel.isEmpty then s
  else
    let home := homeCore s part line
    flit (flit s core home line) home core line

/-- The dies other than one from which the home takes a line: every sharer for a write, the owner for a read (R58). -/
def Partition.askedDies (p : Partition) (keep : Option Nat) (line : Nat) (write : Bool) : List Nat :=
  (p.l2.filter fun d => some d.1 != keep && (d.2.get? line).elim false fun t => write || t.dirty).map (·.1)

/-- The recalls the home of a line sends to other dies, and their answers with what they write back (R58, R398). -/
def recallFlits (s : State) (part : Nat) (keep : Option Nat) (line : Nat) (write : Bool) : State :=
  if s.dieSel.isEmpty then s
  else
    let home := homeCore s part line
    ((s.parts.get? part).elim [] fun p => p.askedDies keep line write).foldl (fun s d =>
      let at_ := dieCore s part d
      flit (flit s home at_ line) at_ home line) s

/-- A line used in the L2 of a die, or filled into it; the L1 copies beneath a line that leaves go first, and an owned line
is written back to its home (R58, R63, R398). -/
def l2Use (s : State) (part die line : Nat) (pol : Policy) (own : Bool) : State :=
  match s.parts.get? part with
  | none => s
  | some p => match (p.l2At die).get? line with
    | some t =>
      s.mapPart part fun p =>
        { p with l2 := p.l2.put die ((p.l2At die).put line { t with dirty := t.dirty || own, used := s.draws + 1 }) }
    | none =>
      let x := fillSet (p.l2At die) (fun l => p.l2Same l line) 16 line ⟨own, pol == .retain, fillUse s.draws pol, 0⟩
      let s1 := x.2.elim s fun v =>
        let s2 := dropL1 s die v
        if p.l2Serves die v true then flit s2 (dieCore s part die) (homeCore s part v) v else s2
      s1.mapPart part fun p => { p with l2 := p.l2.put die x.1 }

/-! ## The directory (R57, R58) -/

/-- The dies whose L2 the home directory lists as sharers of a line. -/
def Partition.sharers (p : Partition) (line : Nat) : List Nat := (p.l2.filter fun d => (d.2.get? line).isSome).map (·.1)

/-- The die whose L2 the home directory lists as owner of a line. -/
def Partition.ownerDie (p : Partition) (line : Nat) : Option Nat :=
  (p.l2.find? fun d => (d.2.get? line).elim false (·.dirty)).map (·.1)

/-- The copies of other cores and dies recalled for an access of a core: the other cores of its die, the L2s of the other
dies with the L1s beneath, and stash windows (R58, R60, R64). -/
def recallOthers (s : State) (part core line : Nat) (write : Bool) : State :=
  (recallL1 (recallStash (recallFlits s part (some (dieOf core)) line write) none line) (fun i => i != core) line write).mapPart
    part fun p => p.recallL2 (fun d => d != dieOf core) line write

/-- A request at the home slice of its line. -/
def arriveHome (s : State) (part : Nat) (who : Option (Nat × Word)) (line : Nat) (pol : Policy) : State :=
  s.mapPart part fun p => p.arrive s.draws who line pol

/-- Whether the home slice of a line holds it. -/
def llcHas (s : State) (part line : Nat) : Bool := (s.parts.get? part).elim false fun p => (p.llc.get? line).isSome

/-- A request of a core at the home of its line: the flits that cross and a miss of the LLC counted, then the arrival there
(R66, R397, R398). -/
def coreArrives (s : State) (part core block : Nat) (who : Option (Nat × Word)) (line : Nat) (pol : Policy) : State :=
  let s1 := crossDies s part core line
  let s2 := if llcHas s1 part line then s1 else s1.event core (some block) 6 1
  arriveHome s2 part who line pol

/-- A request of a core that its L1 does not serve: the L2 of its die serves it, or the home does, with the misses counted;
a line the L2 holds and does not own is asked of the home for a write (R58, R60, R63, R66, R397, R398). -/
def throughL2 (s : State) (part core block : Nat) (who : Option (Nat × Word)) (line : Nat) (pol : Policy) (own : Bool) :
    State :=
  let die := dieOf core
  let held := (s.parts.get? part).elim false fun p => p.l2Serves die line false
  let s1 := if held then s else (s.event core (some block) 5 1).dieEvent core 1 1
  let s2 := if (s.parts.get? part).elim false fun p => p.l2Serves die line own then s1
    else coreArrives s1 part core block who line pol
  l2Use s2 part die line pol own

/-- The policy an access of a core has: without cache banks every access is an L1-bypass (R46). -/
def Core.policy (c : Core) (pol : Policy) : Policy := if c.cch = 0 then .bypass else pol

/-- An access of a core that no stash window serves (R46, R58, R60, R63, R66): copies elsewhere are recalled, the L1 or
what lies below it serves it, and a store makes the L2 the owner. -/
def cacheAccess (s : State) (part core block : Nat) (who : Option (Nat × Word)) (line : Nat) (pol0 : Policy)
    (write : Bool) : State :=
  let pol := (s.core core).policy pol0
  let s1 := recallOthers s part core line write
  let s2 := if (s1.core core).hits line pol then (if write then throughL2 s1 part core block who line pol true else s1)
    else throughL2 (s1.event core (some block) 4 1) part core block who line pol write
  s2.mapCore core fun c => c.useLine s.draws line block pol write

/-- What an engine or the fetch unit of a core does to copies of a line it reads or writes through the L2: the copies of
every L1 and of the other dies are recalled, and the L2 serves it with the normal policy (R58, R60, R63, R64). -/
def pastL1 (s : State) (part core block : Nat) (who : Option (Nat × Word)) (line : Nat) (write : Bool) : State :=
  let s1 := recallL1 (recallOthers s part core line write) (fun _ => true) line write
  throughL2 s1 part core block who line .normal write

end Sys2Proof.Machine
end

