-- ==== Sys2Proof/Machine/Births.lean ====
section
/-! DEFINITION. Births and erasure of the tiles of sparse regions (R75-R79, R83, R84): storage, reservations, and the copies
of a tile's lines. -/

namespace Sys2Proof.Machine

/-- Frames on a region's free list (R79). -/
def freeCount (s : State) (part : Nat) (g : Region) : Nat :=
  if (dev64 s part (g.flist.toNat + 8)).toNat = 0 then (dev64 s part g.flist.toNat).toNat else 0

/-- Tiles carved from a frame for a home, lowest first. -/
def carveFrame (home frame size : Nat) : List (Nat × Nat × Nat) :=
  (List.range (65536 / size)).map fun i => (home, frame + size * i, size)

/-- The home slice of a tile (R74). -/
def homeOf (s : State) (part r t : Nat) : Nat := (s.parts.get? part).elim 0 fun p => p.tileSlice r t

/-- The first free storage of a size at a home, or at any home, and the rest. -/
def takeHome (home : Option Nat) (size : Nat) : List (Nat × Nat × Nat) → Option (Nat × List (Nat × Nat × Nat))
  | [] => none
  | x :: r =>
    if (home.elim true fun h => x.1 == h) ∧ x.2.2 = size then some (x.2.1, r)
    else (takeHome home size r).map fun y => (y.1, x :: y.2)

/-- Storage taken back from quarantine. -/
def takeBack (s : State) (part r : Nat) (q : Quarantined) : State × Nat :=
  (s.mapRegion part r fun g => { g with quarantine := g.quarantine.erase q }, q.pa)

/-- Storage a region has to hand, at a home or at any: carved and free, else returned from quarantine (R79). -/
def takeKept (s : State) (part r : Nat) (g : Region) (home : Option Nat) : Option (State × Nat) :=
  let size := tileBytes g.tsize
  match takeHome home size g.carve with
  | some (pa, rest) => some (s.mapRegion part r fun g => { g with carve := rest }, pa)
  | none =>
    (g.quarantine.find? fun q => (home.elim true fun h => q.home == h) && q.size == size && exceeds (quiesctr s part) q.stamp).map
      (takeBack s part r)

/-- The last frame of a region's free list popped at its home (R64, R79): none where the list is empty or names memory outside
the partition's own (R21; DESIGN CHOICE, log 6). An entry that is not aligned to 64 KiB names the frame it lies in; the
spec gives it no outcome (DESIGN CHOICE, log 6). -/
def popFree (s : State) (part : Nat) (g : Region) : Option (State × Nat) :=
  let n := freeCount s part g
  if n = 0 then none
  else
    let a := g.flist.toNat + 16 + 8 * (n - 1)
    let frame := (dev64 s part a).toNat / 65536 * 65536
    if s.foreign part frame then none
    else some (devWrite (devTouchAll s part [g.flist.toNat + 8, a]) part g.flist.toNat (leBytes 8 (n - 1)), frame)

/-- A frame popped off the free list and carved for a home: its first tile, the rest kept (R79). -/
def carveFree (s : State) (part r : Nat) (g : Region) (home : Nat) : Option (State × Nat) :=
  (popFree s part g).bind fun x => match carveFrame home x.2 (tileBytes g.tsize) with
    | (_, pa, _) :: rest => some (x.1.mapRegion part r fun g => { g with carve := g.carve ++ rest }, pa)
    | [] => none

/-- Storage for a tile: what its home has to hand, else a frame popped off the free list, else what another home of the region
has to hand, so that a frame serves the region's tiles wherever their homes are (R77, R79, R404, R413; DEDUCED, log 15). -/
def takeStorage (s : State) (part r t : Nat) : Option (State × Nat) :=
  match s.region? part r with
  | none => none
  | some g =>
    let home := homeOf s part r t
    ((takeKept s part r g (some home)).orElse fun _ => carveFree s part r g home).orElse fun _ => takeKept s part r g none

/-- Whether the home directory number of a line is of a tile. -/
def tileLine (part r t l : Nat) : Bool := l / 512 == (2 ^ 60 + 2 ^ 57 * part + 2 ^ 48 * r) / 512 + t

/-- Every copy of the lines of a tile given up: those of its storage and those peers hold (R75). -/
def dropTile (s : State) (part r t pa n : Nat) : State :=
  recallPeers (dropLlc (dropCopies s (lineIn pa n)) (lineIn pa n)) (tileLine part r t)

/-- A tile filled with the default and recorded as existing on storage, once every other copy of its lines is gone (R75,
R76). -/
def installTile (s : State) (part r t pa : Nat) (k : Key) : State :=
  match s.region? part r with
  | none => s
  | some g =>
    let s1 := writeBytes (dropTile s part r t pa (tileBytes g.tsize)) k pa ((List.range (tileBytes g.tsize)).map g.dfltByte)
    s1.mapRegion part r fun g => { g with tiles := g.tiles.put t pa, count := g.count + 1 }

/-- A birth reserved on storage: it counts against the quota, and readers see the tile absent (R76). -/
def reserveTile (s : State) (part r t pa : Nat) : State :=
  s.mapRegion part r fun g => { g with reserved := g.reserved.put t pa, count := g.count + 1 }

/-- Whether a tile is held for a birth in flight, so that other writers wait at its home (R76). -/
def tileReserved (s : State) (part : Nat) (p : Place) : Bool :=
  match p with
  | .tile r t _ _ => (s.region? part r).elim false fun g => (g.reserved.get? t).isSome
  | _ => false

/-- A reserved birth performed (R76). -/
def commitTile (s : State) (part r t : Nat) (k : Key) : State :=
  match (s.region? part r).bind fun g => g.reserved.get? t with
  | some pa =>
    installTile (s.mapRegion part r fun g => { g with reserved := g.reserved.del t, count := g.count - 1 }) part r t pa k
  | none => s

/-- One birth: quota and backing, in that order (R76, R77); the error is the reason 1 or 2. -/
def birth (s : State) (part r t : Nat) (k : Key) : Except Nat State :=
  match s.region? part r with
  | none => .error 2
  | some g =>
    if (g.tiles.get? t).isSome then .ok s
    else if g.quota ≤ g.count then .error 1
    else match takeStorage s part r t with
      | none => .error 2
      | some (s1, pa) => .ok (installTile s1 part r t pa k)

/-- The births an instruction needs, in increasing tile order, each on its own (R76): the state, and the refusals as
region, tile and reason. A tile charged to the quota and refused for backing still counts against the quota for the
tiles after it. With `now` unset the births are only reserved. -/
def births (now : Bool) (s : State) (part : Nat) : List (Nat × Nat × Key) → Tab Nat → State × List (Nat × Nat × Nat)
  | [], _ => (s, [])
  | (r, t, k) :: rest, extra =>
    match s.region? part r with
    | none => births now s part rest extra
    | some g =>
      let e := (extra.get? r).getD 0
      if (g.tiles.get? t).isSome then births now s part rest extra
      else if g.quota ≤ g.count + e then
        let (s1, bad) := births now s part rest extra
        (s1, (r, t, 1) :: bad)
      else match takeStorage s part r t with
        | none =>
          let (s1, bad) := births now s part rest (extra.put r (e + 1))
          (s1, (r, t, 2) :: bad)
        | some (s1, pa) => births now (if now then installTile s1 part r t pa k else reserveTile s1 part r t pa) part rest extra

/-- A tile erased: its storage goes to quarantine with the current stamp, lost lines end (R79, R83, R84). -/
def eraseTile (s : State) (part r t : Nat) : State :=
  match s.region? part r with
  | none => s
  | some g => match g.tiles.get? t with
    | none => s
    | some pa =>
      let stamp := (s.parts.get? part).elim 0 (·.issuectr)
      let n := tileBytes g.tsize
      let s1 := s.mapRegion part r fun g => { g with tiles := g.tiles.del t, count := g.count - 1,
                                                     quarantine := g.quarantine ++ [⟨homeOf s part r t, pa, n, t, stamp⟩] }
      { s1 with lost := s1.lost.filter fun l => !decide (pa ≤ 128 * l ∧ 128 * l < pa + n) }

/-- A write that reaches an absent tile whose birth was granted when it was checked: late re-birth takes back the
tile's own storage or other storage, and is never refused (R83). -/
def rebirth (s : State) (part r t : Nat) (k : Key) : State :=
  match s.region? part r with
  | none => s
  | some g =>
    if (g.tiles.get? t).isSome then s
    else match takeStorage s part r t with
      | some (s1, pa) => installTile s1 part r t pa k
      | none => match g.quarantine.find? fun q => q.tile == t && q.size == tileBytes g.tsize with
        | some q => let x := takeBack s part r q
          installTile x.1 part r t x.2 k
        | none => s

end Sys2Proof.Machine
end

