-- ==== Sys2Proof/Machine/Life.lean ====
section
/-! DEFINITION. How lanes, warps, blocks and kernels end: EXIT and cancellation (R148-R152), completion of kernels
(R165, R166, R363), aborts (R352), and the Kiln's counts (R357). -/

namespace Sys2Proof.Machine

/-- A count of R357 advanced, saturating. -/
def Partition.countErr (p : Partition) (i n : Nat) : Partition :=
  { p with errcnt := p.errcnt.setNum i (BitVec.ofNat 32 (Nat.min 0xFFFFFFFF ((p.errcnt.num i).toNat + n))) }

/-- The source number of a core (R400). -/
def Source.core (core : Nat) : Nat := core
/-- The core of a block. -/
def State.coreOf (s : State) (block : Nat) : Nat := (s.blocks.get? block).elim 0 (·.core)
/-- The source number of a Mortar port (R400). -/
def Source.port (n : Nat) : Nat := 0x300 + n
/-- The source number of the Kiln (R400), and of events whose source no rule names (DESIGN CHOICE, log 35). -/
def Source.kiln : Nat := 0x500
/-- The source number of the LLC slice that homes a line (R400). -/
def Source.llc (s : State) (part line : Nat) : Nat := 0x100 + (s.parts.get? part).elim 0 fun p => p.sliceOf line

/-- Whether a record comes before another: by stamp, then by source (R26). -/
def KilnRecord.before (x y : KilnRecord) : Bool :=
  x.stamp.toNat < y.stamp.toNat || (x.stamp == y.stamp && x.source < y.source)

/-- An event's record, stamped with the global time-stamp and kept by the Kiln in the order of R26 (R400). -/
def State.record (s : State) (source kind part : Nat) (a b : Word) : State :=
  let r : KilnRecord := ⟨source, kind, part, a, b, BitVec.ofNat 64 s.tsc⟩
  { s with records := s.records.filter (fun x => !r.before x) ++ r :: s.records.filter r.before }

/-- A count of R357 of a partition advanced by one, with the record behind it. -/
def State.countErr (s : State) (source part i : Nat) (a : Word) : State :=
  (s.mapPart part fun p => p.countErr i 1).record source (256 + i) part a 0

/-- An MSI-X vector of a partition raised (R382; DEDUCED, log 28). -/
def State.raise (s : State) (part i : Nat) : State := { s with msix := s.msix ++ [4 * part + i] }

/-! ## Sets and pairs -/

/-- Member numbers after a change of a set: sid is the place in order of arrival (R140). -/
def renumber (s : State) (setId : Nat) (members : List Nat) : State :=
  (members.mapIdx fun i u => (i, u)).foldl (fun s x => s.mapWarp x.2 fun w => { w with setId := some (setId, x.1) }) s

/-- A warp leaves its set; a warp with no set is unchanged (R140). -/
def leaveSet (s : State) (u : Nat) : State :=
  match s.warps.get? u with
  | none => s
  | some w => match w.setId with
    | none => s
    | some (k, _) =>
      let members := (((s.blocks.get? w.block).bind fun b => b.sets.get? k).getD []).filter fun m => m != u
      let s1 := s.mapWarp u fun w => { w with setId := none }
      let s2 := s1.mapBlock w.block fun b => { b with sets := b.sets.put k members }
      renumber s2 k members

/-- What an XSWAP writes when it has no partner: its own values, predicates clear (R249). -/
def xswapAlone (u : Nat) (d : Reg) (pd : Pred) (mask : Lanes) (vals : Row) : Result :=
  ⟨[⟨u, d, mask, vals⟩], [⟨u, pd, mask, 0⟩], [], 0, none⟩

/-- Unmatched XSWAPs of a warp end with their own values when the pair dissolves (R249). -/
def dissolveSwaps (s : State) (u : Nat) : State :=
  { s with pend := s.pend.mapV fun _ q => match q.work with
      | .xswap _ d pd mask vals _ none =>
        if (q.warps.headD (0, 0)).1 == u then { q with work := .result .load (xswapAlone u d pd mask vals) } else q
      | _ => q }

/-- A pair dissolves (R248). -/
def dissolvePair (s : State) (u : Nat) : State :=
  match s.warps.get? u with
  | none => s
  | some w => match w.pair with
    | none => s
    | some p =>
      let s1 := s.mapWarp u fun w => { w with pair := none }
      let s2 := s1.mapWarp p.partner fun w => { w with pair := none }
      dissolveSwaps (dissolveSwaps s2 u) p.partner

/-- A warp's waiting entry leaves the pairing tables (R248). -/
def leavePairTable (s : State) (u : Nat) : State :=
  { s with parts := s.parts.mapV fun _ p => { p with pairTable := p.pairTable.filter fun e => e.2.1 != u } }

/-! ## Lanes and splits -/

/-- A free split record takes the newest parked entry (R135). -/
def Warp.unpark (w : Warp) : Warp :=
  match w.stack with
  | [] => w
  | p :: rest =>
    let i := Tab.freshFrom w.splits 4 0
    if i < 4 then { w with splits := w.splits.put i p, stack := rest } else w

/-- Lanes of a split end; a split with no lane left ends, and its record is free (R132, R150). -/
def Warp.endLanes (w : Warp) (i : Nat) (m : Lanes) : Warp :=
  match w.splits.get? i with
  | none => w
  | some p =>
    let left := p.mask &&& ~~~m
    let w1 := { w with lanes := w.lanes &&& ~~~(p.mask &&& m) }
    if left = 0 then Warp.unpark { w1 with splits := w1.splits.del i }
    else w1.setSplit i { p with mask := left }

/-- A warp whose last lane has ended leaves its set and its pair (R140, R248, R291). -/
def leaveAll (s : State) (u : Nat) : State :=
  match s.warps.get? u with
  | none => s
  | some w => if w.lanes = 0 then leavePairTable (dissolvePair (leaveSet s u) u) u else s

/-- Lanes of a split end (R291). -/
def endLanes (s : State) (u i : Nat) (m : Lanes) : State :=
  leaveAll (s.mapWarp u fun w => w.endLanes i m) u

/-- Spawn records of cancelled lanes that have not been packed are deleted (R150, R163). -/
def dropSpawns (s : State) (p : SpawnRec → Bool) : State :=
  { s with
    cores := s.cores.mapV fun _ c => { c with front := c.front.filter fun r => !p r }
    parts := s.parts.mapV fun _ q => { q with hod := q.hod.filter fun r => !p r } }

/-- Lanes that wait in LWAIT drop out of the wait when they end (R297). -/
def dropLwaits (s : State) (u : Nat) (m : Lanes) : State :=
  { s with warps := s.warps.mapV fun _ w =>
      { w with splits := w.splits.mapV fun _ p => match p.wait with
          | .lwait ls => { p with wait := .lwait (ls.filter fun x => !(x.warp == u && m.getLsbD x.lane)) }
          | _ => p } }

/-- Lanes of a split are cancelled, with the residue of R150. -/
def cancelLanes (s : State) (u i : Nat) (m : Lanes) : State :=
  if m = 0 then s
  else
    let s1 := dropSpawns s fun r => r.warp == u && m.getLsbD r.lane
    let s2 := match s1.warps.get? u with
      | some w => s1.event w.core (some w.block) 7 (Lanes.count m)
      | none => s1
    endLanes (dropLwaits s2 u m) u i m

/-! ## Dominance (R148) -/

/-- Order of F32 values as numbers; `none` with a NaN. -/
def f32Key (x : Half) : Option Int :=
  let mag : Nat := x.toNat % 2 ^ 31
  if mag > 0x7F800000 then none
  else some (if x.toNat < 2 ^ 31 then (mag : Int) else -(mag : Int))

/-- Whether a bound is dominated by a copy of an incumbent (R148). -/
def dominates (k : Incumbent) (bnd : Half) : Bool :=
  if k.f32 then
    match f32Key bnd, f32Key k.value with
    | some b, some v => if k.min then decide (v ≤ b) else decide (b ≤ v)
    | _, _ => false
  else if k.min then decide (k.value.toInt ≤ bnd.toInt) else decide (bnd.toInt ≤ k.value.toInt)

/-- An incumbent register at reset (R298). -/
def Incumbent.reset : Incumbent := ⟨false, false, 0x80000000, 0xFFFFFFFF⟩

/-- A core's copy of an incumbent (R151, R298). -/
def State.copy (s : State) (core k : Nat) : Incumbent := ((s.core core).copies.get? k).getD Incumbent.reset

/-- Lanes of a split that are dominated under the core's copy of the incumbent its warp watches (R148); lanes of a
running handler are never cancelled (R348). -/
def dominatedLanes (s : State) (w : Warp) (p : Split) : Lanes :=
  if p.saved.isSome || decide (16 ≤ w.kw.toNat) then 0
  else lanesWhere fun l => p.mask.getLsbD l && dominates (s.copy w.core w.kw.toNat) (Row.lane w.bnd l)

/-! ## Kernels -/

/-- Blocks of a kernel's grid. -/
def Kernel.blocks (k : Kernel) : Nat := k.gx * k.gy * k.gz

/-- The curve key of a grid index (R361), over the steps s = 2^(d-1), ..., 1. -/
def curveH (n : Nat) : (d : Nat) → (x y h : Nat) → Nat
  | 0, _, _, h => h
  | d + 1, x, y, h =>
    let st := 2 ^ d
    let rx := x / st % 2
    let ry := y / st % 2
    let h1 := h + st * st * Nat.xor (3 * rx) ry
    if ry = 0 then
      let (x1, y1) := if rx = 1 then (n - 1 - x, n - 1 - y) else (x, y)
      curveH n d y1 x1 h1
    else curveH n d x y h1

/-- The smallest d with 2^d at least a number. -/
def clog2 : (fuel n : Nat) → Nat
  | 0, _ => 0
  | f + 1, n => if n ≤ 1 then 0 else 1 + clog2 f ((n + 1) / 2)

/-- The curve key of a block (R361). -/
def Kernel.curveKey (k : Kernel) (bid : Nat) : Nat :=
  let d := clog2 64 (Nat.max k.gx k.gy)
  bid / (k.gx * k.gy) * 4 ^ d + curveH (2 ^ d) d (bid % k.gx) (bid / k.gx % k.gy) 0

/-- Whether a block comes before another in rank order (R361). -/
def Kernel.before (k : Kernel) (a b : Nat) : Bool :=
  let g := k.gblk + 1
  let ka := k.curveKey (a / g * g)
  let kb := k.curveKey (b / g * g)
  decide (ka < kb) || (ka == kb && decide (a ≤ b))

/-- The blocks of a kernel in rank order (R361). -/
def Kernel.order_ (k : Kernel) : List Nat := (List.range k.blocks).insertionSort fun a b => k.before a b = true

/-- The block to be placed `n`-th: by bid, or by rank in deterministic mode (R161, R362). -/
def Kernel.nthBlock (k : Kernel) (n : Nat) : Nat := if k.det then k.order_.getD n n else n

/-- The rank after `r` that receives the token: the next that has not ended, else the lowest (R364). -/
def nextRank (ended : List Nat) : (fuel r : Nat) → Nat
  | 0, r => r
  | f + 1, r => if ended.contains r then nextRank ended f (r + 1) else r

/-- The token passed on from a rank (R364). -/
def Kernel.passToken (k : Kernel) (r : Nat) : Kernel :=
  let n := nextRank k.ended (k.ended.length + 1) (r + 1)
  { k with tokenRank := if n < k.blocks then n else nextRank k.ended (k.ended.length + 1) 0 }

/-- Spawn records of a kernel that wait to be packed. -/
def State.spawnsOf (s : State) (k : Nat) : Bool :=
  (s.cores.any fun c => c.2.front.any fun r => r.kernel == k) || (s.parts.any fun p => p.2.hod.any fun r => r.kernel == k)

/-- Whether everything a kernel started has ended (R165). -/
def kernelDone (s : State) (id : Nat) (k : Kernel) : Bool :=
  k.state == .running && k.liveBlocks.isEmpty && (k.aborted || k.started == k.blocks)
    && (!k.det || k.retired == k.ended.length)
    && !s.spawnsOf id && !(s.kernels.any fun c => c.2.parent == some id)
    && !(s.pend.any fun q => match q.2.work with
      | .launch _ _ p _ => p == id
      | _ => false)

/-- What a kernel's completion word needs of a peer first: its fabric line owned, or a line of this package back (R58, R373). -/
def wordWants (s : State) (k : Kernel) : List Want :=
  if k.cwa = 0 then [] else match resolve s k.part k.asid 0 k.cwa 8 .engineWrite with
    | .ok (s1, p) => (placeMissing s1 k.part true p 8).filter fun w => !w.met s1
    | .error _ => []

/-- Whether a kernel's completion word waits where it is to be written: in a tile held for a birth in flight (R76), on a page
to be re-established while stamps span the whole window (R93), or for a peer. -/
def wordBlocked (s : State) (k : Kernel) : Bool :=
  k.cwa != 0 && ((spanFull s k.part && discardedAt s k.part k.asid k.cwa)
    || match resolve s k.part k.asid 0 k.cwa 8 .engineWrite with
      | .ok (s1, p) => tileReserved s1 k.part p
      | .error _ => false)
    || !(wordWants s k).isEmpty

/-- The place of a launch in the launch order of a deterministic kernel: rank of the block, wid, issue order, lane
(R363). -/
def launchKey (s : State) (q : Pend) (a : AtomLane) : List Nat :=
  [(s.blocks.get? q.block).elim 0 (·.rank), s.widOf a.warp, q.order, a.lane]

/-- Whether a LAUNCH of a kernel in flight may still be accepted with a place in launch order before a key (R363). -/
def launchBefore (s : State) (parent : Option Nat) (key : List Nat) : Bool :=
  s.pend.any fun q => match q.2.work with
    | .launch _ _ k ls => some k == parent && ls.any fun a => decide (launchKey s q.2 a < key)
    | _ => false

/-- Whether a block of a kernel's grid has ended, or never runs because the kernel has aborted (R352, R363). -/
def Kernel.over (k : Kernel) (r : Nat) : Bool := k.ended.contains r || (k.aborted && decide (k.nextBid ≤ r))

/-- Whether a child's completion word may be written: in a deterministic parent, once every lower-ranked block has
ended and every child earlier in launch order has had its word written (R363). -/
def wordReady (s : State) (k : Kernel) : Bool :=
  !wordBlocked s k && match k.parent.bind s.kernels.get? with
  | none => true
  | some p =>
    !p.det || ((List.range (k.lkey.headD 0)).all p.over
      && !(s.kernels.any fun c => c.2.parent == k.parent && decide (c.2.lkey < k.lkey))
      && !launchBefore s k.parent k.lkey)

/-- The completion word of a kernel (R166). -/
def completionWord (tag code blocks : Nat) : Nat := tag % 2 ^ 16 * 2 ^ 48 + code % 256 * 2 ^ 40 + blocks % 2 ^ 32

/-- The copies of a place's line recalled for an access at its home, and the access counted there (R58, R64, R66). -/
def homeTouch (s : State) (part : Nat) (who : Option (Nat × Word)) (p : Place) (write : Bool) : State :=
  match cacheLine s part p with
  | some l => arriveHome (recallLine (recallFlits s part none l write) part none l write) part who l .normal
  | none => s

/-- The same for a request of a core, with its flits and a miss of the LLC counted (R397, R398). -/
def coreTouch (s : State) (part core block : Nat) (who : Option (Nat × Word)) (p : Place) (write : Bool) : State :=
  match cacheLine s part p with
  | some l => coreArrives (recallLine (recallFlits s part none l write) part none l write) part core block who l .normal
  | none => s

/-- A device write of bytes through a virtual address under an ASID. An address that no longer translates to a writable
page, of a completion word by then unmapped, is not written; the spec names no outcome (DESIGN CHOICE, log 15). -/
def deviceWrite (s : State) (part asid : Nat) (va : Word) (bs : List Byte) : State :=
  match resolve s part asid 0 va bs.length .engineWrite with
  | .ok (s1, p) =>
    let s2 := match p with
      | .tile r t _ k => match birth s1 part r t k with
        | .ok s2 => s2
        | .error _ => s1
      | _ => s1
    writePlace (homeTouch s2 part (some (asid, va)) p true) part p bs
  | .error _ => s

/-- The status word of a launch slot written (R156). -/
def slotStatus (s : State) (part slot : Nat) (tag : Half) (code st : Nat) : State :=
  match s.parts.get? part with
  | none => s
  | some p => writeBytes s (p.key 0) (p.frame + 128 * slot + 60) (leBytes 4 (tag.toNat * 2 ^ 16 + code * 256 + st))

/-- A completion delivered to the lanes that wait for a handle in LWAIT (R297). -/
def deliverLwait (s : State) (parent : Nat) (h : Half) (blocks : Half) : State :=
  { s with warps := s.warps.mapV fun _ w =>
      if (s.blocks.get? w.block).elim false (fun b => b.kernel == parent) then
        { w with splits := w.splits.mapV fun _ p => match p.wait with
            | .lwait ls => { p with wait := .lwait (ls.map fun x =>
                if x.handle == h && x.got.isNone then { x with got := some blocks } else x) }
            | _ => p }
      else w }

/-- Whether a lane of a kernel waits for a handle in LWAIT. -/
def anyLwait (s : State) (parent : Nat) (h : Half) : Bool :=
  s.warps.any fun w => (s.blocks.get? w.2.block).elim false (fun b => b.kernel == parent)
    && w.2.splits.any fun p => match p.2.wait with
      | .lwait ls => ls.any fun x => x.handle == h && x.got.isNone
      | _ => false

/-- Blocks that ran, as the completion word counts them (R166, R363, R352). -/
def Kernel.ran (k : Kernel) : Nat := if k.det && !k.aborted then k.retired else k.started

/-- A kernel completes: pool entries freed, completion word, slot status, MSI-X, LWAIT (R165, R166, R297, R352). -/
def completeKernel (s : State) (id : Nat) (k : Kernel) : State :=
  let blocks := k.ran
  let code := if k.aborted then 3 else 0
  let s1 := s.mapPart k.part fun p => { p with pool := p.pool.filter fun e => e.2.parent != id }
  let tag := match k.handle with
    | some h => h
    | none => k.tag.toNat
  let s2 := if k.cwa = 0 then s1
    else deviceWrite s1 k.part k.asid k.cwa (leBytes 8 (completionWord tag code blocks))
  let s3 := match k.slot with
    | some i => slotStatus s2 k.part i k.tag (if k.aborted then 5 else 0) 3
    | none => s2
  let s4 := if k.irq then s3.raise k.part 0 else s3
  let s5 := { s4 with kernels := s4.kernels.del id }
  match k.handle, k.parent with
  | some h, some p =>
    let hw := BitVec.ofNat 32 h
    let bw := BitVec.ofNat 32 blocks
    let s6 := if anyLwait s5 p hw then
        (deliverLwait s5 p hw bw).mapPart k.part fun q => { q with pool := q.pool.del h }
      else s5.mapPart k.part fun q => match q.pool.get? h with
        | some e => { q with pool := q.pool.put h { e with done := some bw } }
        | none => q
    s6
  | _, _ => s5

/-- One pass over the kernels: those that are done complete, or hold their word (R165, R363). -/
def completeOnce (s : State) : State :=
  s.kernels.foldl (fun s c =>
    match s.kernels.get? c.1 with
    | none => s
    | some k =>
      if k.state == .held || kernelDone s c.1 k then
        (if wordReady s k then completeKernel s c.1 k
          else (askAll s (wordWants s k)).mapKernel c.1 fun k => { k with state := .held })
      else s) s

/-- Passes until parents of completed children have completed too. -/
def completeKernels : (fuel : Nat) → State → State
  | 0, s => s
  | f + 1, s => completeKernels f (completeOnce s)

/-! ## Blocks and warps -/

/-- A block ends with its last warp: windows written back, storage returned (R152, R64); the token moves on if the
block held it (R282, R364). -/
def endBlock (s : State) (id : Nat) (b : Block) : State :=
  let s1 := { s with blocks := s.blocks.del id }
  s1.mapKernel b.kernel fun k =>
    if b.rank < k.blocks then
      let k1 := { k with liveBlocks := k.liveBlocks.filter fun x => x != id, ended := k.ended ++ [b.rank] }
      if k.det && k.tokenRank == b.rank then k1.passToken b.rank else k1
    else { k with liveBlocks := k.liveBlocks.filter fun x => x != id }

/-- Whether a command in flight belongs to a warp. -/
def State.hasPend (s : State) (u : Nat) : Bool := s.pend.any fun q => q.2.warps.any fun x => x.1 == u

/-- Warps that have ended leave, then blocks without warps, then kernels (R152, R165). -/
def settle (s : State) : State :=
  let s1 := { s with warps := s.warps.filter fun w => !(w.2.lanes == 0 && !s.hasPend w.1) }
  let gone := s1.blocks.filter fun b => !(s1.warps.any fun w => w.2.block == b.1)
  let s2 := gone.foldl (fun s b => endBlock s b.1 b.2) s1
  completeKernels (s2.kernels.length + 1) s2

/-! ## Aborts -/

/-- The kernels an abort reaches: the kernel and what it launched (R352). -/
def descendants (s : State) : (fuel : Nat) → List Nat → List Nat
  | 0, ks => ks
  | f + 1, ks =>
    let more := (s.kernels.filter fun c => c.2.parent.elim false (fun p => ks.contains p) && !ks.contains c.1).map (·.1)
    if more.isEmpty then ks else descendants s f (ks ++ more)

/-- The splits of a warp that is suspended, pre-empted or waiting end at once; the others end at their next issue (R352). -/
def abortWarp (s : State) (u : Nat) (w : Warp) : State :=
  let s1 := w.splits.foldl (fun s p =>
    if w.suspended || p.2.stopped || p.2.wait != .none then endLanes s u p.1 p.2.mask else s) s
  if w.suspended then s1.mapWarp u fun w => { w with suspended := false } else s1

/-- An abort counted, recorded and reported (R352, R357, R382). -/
def abortCount (s : State) (k : Kernel) : State := (s.countErr Source.kiln k.part 9 k.entry).raise k.part 2

/-- A kernel aborts with the kernels it launched, each counted (R352). -/
def abortKernel (s : State) (id : Nat) : State :=
  match s.kernels.get? id with
  | none => s
  | some _ =>
    let ks := descendants s s.kernels.length [id]
    let s1 := ks.foldl (fun s c => s.mapKernel c fun k => { k with aborted := true, state := if k.state == .queued then .running else k.state }) s
    let s2 := dropSpawns s1 fun r => ks.contains r.kernel
    let s3 := s2.warps.foldl (fun s w =>
      if (s2.blocks.get? w.2.block).elim false (fun b => ks.contains b.kernel) then abortWarp s w.1 w.2 else s) s2
    let fresh := ks.filterMap fun c => (s.kernels.get? c).filter fun x => !x.aborted
    settle (fresh.foldl abortCount s3)

end Sys2Proof.Machine
end

