-- ==== Sys2Proof/Machine/Ops.lean ====
section
/-! DEFINITION. Taking a trap and returning from one (R346-R352), fetching words (R89, R192), and moving a split to
its next word or clause (R190). -/

namespace Sys2Proof.Machine

/-- One warp's part of an issuing unit: warp, split record, live lanes, active lanes (R202), and the number its lanes
count from in unit order: 0, the sid, or the wid (R181). -/
structure UPart where
  uid  : Nat
  idx  : Nat
  live : Lanes
  act  : Lanes
  num  : Nat
  deriving DecidableEq, Repr

/-- A trap to be taken: the code and tinfo words of R349, the warp and lanes that met it, the flag it comes from
(R200), and tpc. -/
structure Trap where
  code  : Nat
  info0 : Half
  info1 : Half
  info2 : Half
  info3 : Half
  wid   : Nat
  mask  : Lanes
  flag  : Nat
  async : Bool
  tpc   : Word
  deriving DecidableEq, Repr

/-- The handler's clause header address of a partition (R347). -/
def Partition.tvec (p : Partition) : Word := (p.sys 0x011 ++ p.sys 0x010) &&& ~~~(7#64)

/-- tcause (R347). -/
def tcauseOf (t : Trap) (scope : Scope) : Half :=
  BitVec.ofNat 32 (t.wid % 32 * 2 ^ 16 + t.flag * 2 ^ 12 + t.async.toNat * 2 ^ 11 + scope.code * 2 ^ 8 + t.code)

/-- The trap registers a trap leaves (R347); tsave keeps its values. -/
def trapRegsOf (old : TrapRegs) (t : Trap) (scope : Scope) (tunit : Lanes) : TrapRegs :=
  { tpcLo := BitVec.ofNat 32 t.tpc.toNat
    tpcHi := BitVec.ofNat 32 (t.tpc.toNat / 2 ^ 32)
    tcause := tcauseOf t scope
    tmask := t.mask
    tunit := tunit
    tinfo := [t.info0, t.info1, t.info2, t.info3]
    tsave := old.tsave }

/-- Predicates p0-p6 of a warp. -/
def Warp.predList (w : Warp) : List Lanes := (List.range 7).map fun i => w.preds.num i

/-- The warp with p0-p6 of some lanes set from a list. -/
def Warp.setPreds (w : Warp) (m : Lanes) (ps : List Lanes) : Warp :=
  (List.range 7).foldl (fun w i => w.setPred (Fin.ofNat 8 i) m (ps.getD i 0)) w

/-- The handling warp after steps 3 to 5 of R346: trap registers written, p0-p6, fmt and fst of the unit's lanes saved
and cleared, one split in supervisor mode at the handler's header. -/
def Warp.enterHandler (w : Warp) (i : Nat) (p : Split) (t : Trap) (scope : Scope) (others : List Nat) (tvec : Word) : Warp :=
  let saved : Saved :=
    { preds := w.predList, fmt := p.fmt, fst := p.fst, scope := scope, suspended := others, word := t.tpc, pc := p.pc,
      header := p.header }
  let p1 : Split :=
    { p with pc := tvec, idx := 0, header := 0, fmt := 0, fst := 0, wait := .none, saved := some saved, replay := none,
             origins := [], unchosen := 0, yields := none }
  { w with trapRegs := trapRegsOf w.trapRegs t scope p.mask }.setPreds p.mask [] |>.setSplit i p1

/-- A warp of a trapping unit that does not handle it: its split waits for TRET, and it issues nothing (R346). -/
def Warp.suspend (w : Warp) (i : Nat) : Warp :=
  match w.splits.get? i with
  | some p => { w.setSplit i { p with wait := .trapped } with suspended := true }
  | none => { w with suspended := true }

/-- TAKING A TRAP (R346, R352): the unit's first part in unit order handles it, the other warps are suspended. A trap
in supervisor mode, or with tvec = 0, aborts the kernel. -/
def takeTrap (s : State) (parts : List UPart) (scope : Scope) (t : Trap) : State :=
  match parts with
  | [] => s
  | h :: rest =>
    match s.warps.get? h.uid with
    | none => s
    | some w => match w.splits.get? h.idx with
      | none => s
      | some p =>
        let part := s.partOf w
        let tvec := (s.parts.get? part).elim 0 Partition.tvec
        let s1 := s.record (Source.core w.core) t.code part t.tpc (t.info1 ++ t.info0)
        let s2 := (if t.code = Code.dataLost then s1.mapPart part fun p => p.countErr 8 1 else s1).event w.core (some w.block) 8 1
        if p.saved.isSome || tvec == 0 then abortKernel s2 ((s.blockOf w).elim 0 (·.kernel))
        else
          let s3 := rest.foldl (fun s u => dropPages s u.uid) s2
          let s4 := rest.foldl (fun s u => s.mapWarp u.uid fun w => w.suspend u.idx) s3
          s4.mapWarp h.uid fun w => w.enterHandler h.idx p t scope (rest.map (·.uid)) tvec

/-! ## Fetch -/

/-- The line of instruction text fetched: retained at the L2 of its core, past the L1 (R58, R63). -/
def touchText (s : State) (part asid blk : Nat) (va : Word) (p : Place) : State :=
  match cacheLine s part p, s.blocks.get? blk with
  | some l, some b =>
    let s1 := recallL1 (recallOthers s part b.core l false) (fun _ => true) l false
    throughL2 s1 part b.core blk (some (asid, va)) l .retain false
  | _, _ => s

/-- The 64-bit word at an address of instruction text, or the cause of a fetch fault (R89, R192). -/
def fetchWord (s : State) (part asid blk : Nat) (va : Word) : Except Nat (State × Word) :=
  if va.toNat % 8 ≠ 0 then .error Code.misaligned
  else match resolve s part asid blk va 8 .fetch with
    | .error c => .error c
    | .ok (s1, p) =>
      if placeLost s1 part p 8 then .error Code.dataLost
      else .ok (touchText s1 part asid blk va p, BitVec.ofNat 64 (leNat (placeBytes s1 part p 8)))

/-- The trap a fetch fault gives (R349): the address, tinfo2 all ones, tinfo3 1; MISALIGNED has tinfo3 0 (R351). -/
def fetchTrap (code : Nat) (va : Word) (w : Warp) (p : Split) : Trap :=
  ⟨code, BitVec.ofNat 32 va.toNat, BitVec.ofNat 32 (va.toNat / 2 ^ 32), BitVec.allOnes 32,
    (if code = Code.misaligned then 0 else 1), w.wid, p.mask, 15, false, va⟩

/-- The address of the word a split is at: the header, or a word of its clause (R192). -/
def Split.at_ (p : Split) : Word := p.pc + BitVec.ofNat 64 (8 * p.idx)

/-! ## Moving on -/

/-- The address of the clause after a split's clause (R190). -/
def Split.next (p : Split) : Word := p.pc + BitVec.ofNat 64 (8 * ((Header.of p.header).count + 1))

/-- The split at its next word, or at the header of the next clause (R190). -/
def Split.advance (p : Split) : Split :=
  if p.idx < (Header.of p.header).count then
    { p with idx := p.idx + 1, wait := .none, replay := none, origins := [], unchosen := 0 }
  else { p with pc := p.next, idx := 0, wait := .none, replay := none, origins := [], unchosen := 0 }

/-- The split at a clause header (R190). -/
def Split.goto (p : Split) (pc : Word) : Split :=
  { p with pc := pc, idx := 0, wait := .none, replay := none, origins := [], unchosen := 0 }

/-- Every part of a unit advanced. -/
def advanceAll (s : State) (parts : List UPart) : State :=
  parts.foldl (fun s u => s.mapSplit u.uid u.idx Split.advance) s

/-! ## Returning from a trap -/

/-- Where TRET resumes: at a word of the trapping clause, or at a header (R192, R351). -/
def resumeIdx (v : Saved) (tpc : Word) : Option Nat :=
  let d := (tpc - v.pc).toNat
  if d % 8 = 0 ∧ 8 ≤ d ∧ d / 8 ≤ (Header.of v.header).count then some (d / 8) else none

/-- A split at the place TRET resumes, with what it does there if that is a word within the clause (R192). -/
def Split.resumeAt (p : Split) (v : Saved) (tpc header : Word) (wait : Wait) (again : Option (List Nat)) : Split :=
  match resumeIdx v tpc with
  | some i => { p with pc := v.pc, idx := i, header := header, wait := wait, replay := again, origins := [], unchosen := 0 }
  | none => { p with pc := tpc, idx := 0, wait := .none, replay := none, origins := [], unchosen := 0 }

/-- The lanes of the handling split that go on, back at user level with their saved predicates, fmt and fst (R351,
step 2); the trapping word executes again without a new rendezvous (R144). -/
def Warp.leaveHandler (w : Warp) (i : Nat) (v : Saved) (tpc header : Word) (unit : List Nat) : Warp :=
  match w.splits.get? i with
  | none => w
  | some p =>
    if p.saved != some v then w
    else (w.setPreds p.mask v.preds).setSplit i
      ({ p with fmt := v.fmt, fst := v.fst, saved := none }.resumeAt v tpc header .none
        (if tpc = v.word then some unit else none))

/-- A suspended warp resumes: the split that trapped goes to tpc, its other splits go on where they are (R304, R351,
step 3); what a halt has stopped because the warp was suspended stops again at its safe points (R354). -/
def Warp.resume (w : Warp) (v : Saved) (tpc header : Word) : Warp :=
  { w with suspended := false
           splits := w.splits.mapV fun _ q =>
             { (if q.wait = .trapped then
               q.resumeAt v tpc header (if tpc = v.word then .rendezvous v.scope else .none) none
             else q) with stopped := false } }

/-- The header read again for a word within its clause (R192): the state, the header, and the cause of a fetch fault. -/
def rereadHeader (s : State) (w : Warp) (v : Saved) (tpc : Word) : State × Word × Option Nat :=
  if (resumeIdx v tpc).isNone then (s, v.header, none)
  else match fetchWord s (s.partOf w) (s.asidOf w) w.block v.pc with
    | .ok (s1, x) => (s1, x, none)
    | .error c => (s, v.header, some c)

/-- The parts of a unit whose handler returns: the split of each warp that is at tpc. -/
def resumedParts (s : State) (uids : List Nat) (tpc : Word) : List UPart :=
  uids.filterMap fun x => (s.warps.get? x).bind fun w => (w.splits.find? fun q => q.2.at_ == tpc).map fun q =>
    ⟨x, q.1, q.2.mask, q.2.mask, 0⟩

/-- RETURNING FROM A TRAP (R351). Where the header cannot be read again, the unit takes the fetch trap with tpc at the
word it was to execute (DEDUCED, log 23). -/
def returnTrap (s : State) (u i : Nat) : State :=
  match s.warps.get? u with
  | none => s
  | some w => match w.splits.get? i with
    | none => s
    | some p => match p.saved with
      | none => s
      | some v =>
        let tpc : Word := w.trapRegs.tpcHi ++ w.trapRegs.tpcLo
        let (s0, hdr, fault) := rereadHeader s w v tpc
        let unit := u :: v.suspended
        let s1 := endLanes s0 u i (p.mask &&& ~~~w.trapRegs.tunit)
        let s2 := s1.mapWarp u fun w => w.leaveHandler i v tpc hdr unit
        let s3 := v.suspended.foldl (fun s o => s.mapWarp o fun x => x.resume v tpc hdr) s2
        match fault with
        | none => settle s3
        | some c => takeTrap (settle s3) (resumedParts s3 unit tpc) v.scope { fetchTrap c v.pc w p with tpc := tpc }

end Sys2Proof.Machine
end

