-- ==== Sys2Proof/Machine/Flags.lean ====
section
/-! DEFINITION. Completion flags (R197-R200), fst (R182, R183), and commands in flight: their start and their
completion. -/

namespace Sys2Proof.Machine

/-- A flag of a warp (R197). -/
def Warp.flag (w : Warp) (n : Nat) : FlagState := (w.flags.get? n).getD ⟨0, none⟩

/-- A flag of a warp replaced; a set flag without a record is held by listing nothing. -/
def Warp.setFlag (w : Warp) (n : Nat) (f : FlagState) : Warp :=
  { w with flags := if f = ⟨0, none⟩ then w.flags.del n else w.flags.put n f }

/-- Whether every flag of a wait mask is set (R192, R197). -/
def Warp.flagsSet (w : Warp) (m : BitVec 12) : Bool :=
  (List.range 12).all fun n => !m.getLsbD n || (w.flag n).count == 0

/-- The flag a word names by its flag select (R198, R201). -/
def flagNumber (hdr : Header) (f : Flag) : Nat :=
  match f with
  | .none => 15
  | .a => hdr.flagA
  | .b => hdr.flagB

/-- The record a flag keeps when an error arrives: the one of the earlier instruction (R200). -/
def keepErr (old new : Option ErrRec) : Option ErrRec :=
  match old, new with
  | some o, some n => if o.order ≤ n.order then some o else some n
  | some o, none => some o
  | none, n => n

/-- One completion counted down in a flag, with an error or none (R197, R200). -/
def Warp.complete (w : Warp) (n : Nat) (e : Option ErrRec) : Warp :=
  let f := w.flag n
  w.setFlag n ⟨f.count - 1, keepErr f.err e⟩

/-- fst bits set in a split of each part (R183). -/
def orFst (s : State) (parts : List UPart) (bits : Half) : State :=
  if bits = 0 then s
  else parts.foldl (fun s u => s.mapSplit u.uid u.idx fun p => { p with fst := p.fst ||| fstOf bits }) s

/-- Every live split of a warp changed, parked ones among them. -/
def Warp.mapLive (w : Warp) (f : Split → Split) : Warp :=
  { w with splits := w.splits.mapV fun _ p => f p, stack := w.stack.map f }

/-- fst bits set in a split, and in the fst that its handler will give back (R183, R351). -/
def Split.orFst (p : Split) (bits : Half) : Split :=
  { p with fst := p.fst ||| bits, saved := p.saved.map fun v => { v with fst := v.fst ||| bits } }

/-- fst bits set in every live split of a warp (R183, asynchronous commands). -/
def Warp.orFstAll (w : Warp) (bits : Half) : Warp :=
  if bits = 0 then w else w.mapLive fun p => p.orFst (fstOf bits)

/-! ## Starting a command -/

/-- A command put in flight for some warps: their flag counts it (R197), it takes an issue order and the stamp of
issuectr (R93). -/
def startCommand (s : State) (part : Nat) (warps : List (Nat × Lanes)) (flag block : Nat) (tiles : List Nat)
    (queue : Option Nat) (conflict : Bool) (work : Work) : State :=
  let stamp := (s.parts.get? part).elim 0 (·.issuectr)
  let s1 := warps.foldl (fun s u => s.mapWarp u.1 fun w => w.setFlag flag { w.flag flag with count := (w.flag flag).count + 1 }) s
  { s1 with pend := s1.pend.put s.seq ⟨part, warps, flag, s.seq, stamp, block, tiles, queue, work, [], conflict⟩, seq := s.seq + 1 }

/-- Vector registers a command in flight will write count as mapped (R50). -/
def Warp.reserveRegs (w : Warp) (vs : List Nat) : Warp := { w with pending := w.pending ++ vs }

/-- One count of each register given back. -/
def Warp.releaseRegs (w : Warp) (vs : List Nat) : Warp := { w with pending := vs.foldl List.erase w.pending }

/-! ## Completing a command -/

/-- A register written when a command completes: fmt and fst are those of the live splits that hold a lane of the write
(R132, R207; DEDUCED, log 22). -/
def Warp.writeLate (w : Warp) (r : Reg) (m : Lanes) (f : Nat → Half) (scalar : Half) : Warp :=
  match r with
  | .fmt => w.mapLive fun p => if p.mask &&& m = 0 then p else { p with fmt := fmtOf scalar }
  | .fst => w.mapLive fun p => if p.mask &&& m = 0 then p else { p with fst := fstOf scalar }
  | _ => w.writeReg 0 r m f scalar

/-- The lanes of a mask that a command's result still reaches in a warp: those that have not ended, or for a command that writes
all lanes the whole mask, unless every lane has ended, which discards the result (R117, R150, R328). -/
def Warp.reached (w : Warp) (all : Bool) (m : Lanes) : Lanes := if all && w.lanes != 0 then m else m &&& w.lanes

/-- A register write of a command (R150, R328). -/
def applyReg (s : State) (all : Bool) (x : RegWrite) : State :=
  s.mapWarp x.warp fun w =>
    let m := w.reached all x.mask
    if m = 0 then w else w.writeLate x.reg m (Row.lane x.vals) (Row.lane x.vals (Lanes.lowest m))

/-- A predicate write of a command. -/
def applyPred (s : State) (all : Bool) (x : PredWrite) : State :=
  s.mapWarp x.warp fun w => w.setPred x.pred (w.reached all x.mask) x.bits

/-- Words of a tile set; words are numbered 32 × row + place (R329). -/
def setTileWords (t : Tab Half) (ws : List (Nat × Half)) : Tab Half := ws.foldl (fun t x => t.setNum x.1 x.2) t

/-- Tile words of a command. -/
def applyTile (s : State) (x : TileWrite) : State :=
  s.mapBlock x.block fun b => match b.tiles.get? x.tile with
    | some t => { b with tiles := b.tiles.put x.tile (setTileWords t x.words) }
    | none => b

/-- Vector registers named by register writes, for the accounting of R50. -/
def regsOf (rs : List RegWrite) (u : Nat) : List Nat :=
  rs.filterMap fun x => if x.warp == u then
    (match x.reg with
      | .v i => some i.val
      | _ => none) else none

/-- The error record a warp's flag receives: with no lanes named, every lane the command acts for has met it (R347). -/
def ErrRec.forWarp (e : ErrRec) (m : Lanes) : ErrRec := if e.mask = 0 then { e with mask := m } else e

/-- The error a completion leaves in a warp's flag: discarded where every lane the command acts for has ended (R150,
R152). -/
def errFor (w : Warp) (m : Lanes) (e : Option ErrRec) : Option ErrRec :=
  if w.lanes &&& m = 0 then none else e.map fun e => e.forWarp m

/-- The fst bits of a completion: those of its result, and fmtconflict where the fmt values of its unit differed (R181,
R183). -/
def lateBits (q : Pend) (r : Result) : Half := r.fst ||| (if q.conflict then 0x10 else 0)

/-- A result delivered: registers, predicates, tiles, fst, then the flag of every warp of the command (R197, R199,
R200). -/
def deliver (s : State) (id : Nat) (q : Pend) (all : Bool) (r : Result) : State :=
  let s0 := q.warps.foldl (fun s u => s.mapWarp u.1 fun w => w.releaseRegs (regsOf r.regs u.1)) s
  let s1 := r.regs.foldl (fun s x => applyReg s all x) s0
  let s2 := r.preds.foldl (fun s x => applyPred s all x) s1
  let s3 := r.tiles.foldl applyTile s2
  let s4 := q.warps.foldl (fun s u => s.mapWarp u.1 fun w =>
    (w.orFstAll (lateBits q r)).complete q.flag (errFor w u.2 r.err)) s3
  settle { s4 with pend := s4.pend.del id }

/-- A result with nothing in it. -/
def Result.empty : Result := ⟨[], [], [], 0, none⟩

/-- A command in flight with its work replaced. -/
def setWork (s : State) (id : Nat) (w : Work) : State :=
  match s.pend.get? id with
  | some q => { s with pend := s.pend.put id { q with work := w } }
  | none => s

end Sys2Proof.Machine
end

