-- ==== Sys2Proof/Machine/Operands.lean ====
section
/-! DEFINITION. How a word issues: rendezvous and merges (R136-R144), the unit and its guard (R202), the checks of
R211 made at issue, the operands of a unit (R142, R208), and what an issue leaves (R49, R50, R190). -/

namespace Sys2Proof.Machine

/-! ## Merging splits -/

/-- The divergences of a merged record: those either record holds, with the sides of both. -/
def mergeDivs (a b : List Div) : List Div :=
  (a.map fun d => match b.find? fun e => e.id == d.id with
    | some e => { d with side := d.side ||| e.side }
    | none => d) ++ b.filter fun d => !(a.any fun e => e.id == d.id)

/-- The divergence fmt of a record: the one saved by its newest divergence (R135). -/
def Split.divFmt (p : Split) : Half :=
  match p.divs with
  | d :: _ => d.fmt
  | [] => p.fmt

/-- The records merged into a record since it last moved, itself among them: lanes, fmt, divergence fmt (R136, R181). -/
def Split.sources (p : Split) : List (Lanes × Half × Half) :=
  if p.origins.isEmpty then [(p.mask, p.fmt, p.divFmt)] else p.origins

/-- The fmt of a merge of records (R136): the divergence fmt they agree on, else that of the record with the lowest live
lane. -/
def mergeFmt (mask : Lanes) (os : List (Lanes × Half × Half)) : Half :=
  ((os.find? fun o => o.1.getLsbD (Lanes.lowest mask)).elim ((os.head?).elim 0 fun o => o.2.2) fun o => o.2.2)

/-- Two records merged (R136): union of lanes, the divergence fmt, the OR of fst (R183). The spec does not say which ageing
counter a merge keeps: the larger (R137; DESIGN CHOICE, log 22). -/
def Split.join (a b : Split) : Split :=
  let os := a.sources ++ b.sources
  let mask := a.mask ||| b.mask
  { a with mask := mask, fmt := mergeFmt mask os, fst := a.fst ||| b.fst, divs := mergeDivs a.divs b.divs, origins := os,
           unchosen := Nat.max a.unchosen b.unchosen }

/-- The divergences of a merged record that still concern it: one both of whose sides have merged, with no other record left of
it, is over (R136; DEDUCED, log 22). One of which a side has ended is not: its reconvergence PC is still ahead (R292). -/
def Warp.openDivs (w : Warp) (i : Nat) (d : Div) : Bool :=
  d.side != 3 || (((w.splits.filter fun x => x.1 != i).map (·.2)) ++ w.stack).any fun p => p.divs.any fun e => e.id == d.id

/-- Record `j` merged into record `i` of a warp; the freed record takes a parked entry (R135, R136). -/
def Warp.mergeInto (w : Warp) (i j : Nat) : Warp :=
  match w.splits.get? i, w.splits.get? j with
  | some a, some b =>
    let w1 := { w with splits := w.splits.del j }
    let m := a.join b
    Warp.unpark (w1.setSplit i { m with divs := m.divs.filter (w1.openDivs i) })
  | _, _ => w

/-- Records of a warp other than `i` that a test selects, merged into `i` one after another (DEDUCED, log 22). -/
def Warp.mergeAll (w : Warp) (i : Nat) (p : Split → Bool) : Warp :=
  (w.splits.filter fun x => x.1 != i && p x.2).foldl (fun w x => w.mergeInto i x.1) w

/-! ## Waits that meet -/

/-- Whether a split waits at a scope instruction or a reconvergence point (R139). -/
def Wait.meets : Wait → Bool
  | .rendezvous _ => true
  | .reconv _ => true
  | _ => false

/-- Whether a wait belongs to an instruction that has had its rendezvous and is tried again without a new one. -/
def Wait.issued : Wait → Bool
  | .stall _ | .lwait _ | .abwait _ _ _ _ | .kinit _ _ | .command _ | .xpair _ => true
  | _ => false

/-- Whether a split waits at a rendezvous of a scope at an address. -/
def Split.waitsAt (p : Split) (sc : Scope) (addr : Word) : Bool := p.wait == .rendezvous sc && p.at_ == addr

/-- Whether a warp has completed its own rendezvous at an address: one live split, waiting there (R138); a warp that has
been pre-empted there is waited for (R144). -/
def Warp.arrived (w : Warp) (sc : Scope) (addr : Word) : Bool :=
  w.stack.isEmpty && w.splits.length == 1 && w.splits.all fun p => p.2.waitsAt sc addr && !p.2.stopped

/-- The warps of a block that have not exited, by wid (R143). -/
def blockWarps (s : State) (blk : Nat) : List (Nat × Warp) :=
  (s.warps.filter fun w => w.2.block == blk && w.2.lanes != 0).insertionSort fun a b => a.2.wid ≤ b.2.wid

/-- The warps of a set, by sid (R141). -/
def setWarps (s : State) (blk k : Nat) : List (Nat × Warp) :=
  (((s.blocks.get? blk).bind fun b => b.sets.get? k).getD []).filterMap fun u => (s.warps.get? u).map fun w => (u, w)

/-- The warps that must meet at a scope (R138, R141, R143). -/
def unitWarps (s : State) (u : Nat) (w : Warp) (sc : Scope) : List (Nat × Warp) :=
  match sc with
  | .lane | .warp => [(u, w)]
  | .set => match w.setId with
    | some (k, _) => setWarps s w.block k
    | none => [(u, w)]
  | .block => blockWarps s w.block

/-- The number a warp's lanes count from in unit order (R181). -/
def unitNum (sc : Scope) (w : Warp) : Nat :=
  match sc with
  | .lane | .warp => 0
  | .set => w.setId.elim 0 (·.2)
  | .block => w.wid

/-- Whether all that must meet at a scope has arrived at an address; warps suspended by a trap have not (R138-R144). -/
def unitArrived (ws : List (Nat × Warp)) (sc : Scope) (addr : Word) : Bool :=
  ws.all fun w => !w.2.suspended && w.2.arrived sc addr

/-- The addresses at which the live splits of warps wait. -/
def waitAddrs (ws : List (Nat × Warp)) : List Word := (ws.flatMap fun w => w.2.splits.vals.map Split.at_).dedup

/-- Whether every live split of a warp waits at a scope instruction or a reconvergence point and has not been pre-empted
there (R139, R144). -/
def Warp.allWait (w : Warp) : Bool :=
  !w.suspended && !w.splits.isEmpty && w.splits.all fun p => p.2.wait.meets && !p.2.stopped

/-- Whether a warp cannot meet: every live split waits, and they name two addresses or entries are parked (R139). -/
def Warp.stuck (w : Warp) : Bool :=
  w.allWait && (decide (2 ≤ (waitAddrs [(0, w)]).length) || !w.stack.isEmpty)

/-- The split of a warp that holds its lowest live lane, of those in records. -/
def Warp.firstSplit (w : Warp) : Option Nat :=
  ((w.splits.insertionSort fun a b => Lanes.lowest a.2.mask ≤ Lanes.lowest b.2.mask).head?).map (·.1)

/-- All splits of a warp that wait together taken as one, so that they trap as one unit; parked entries take the freed
records and are no part of it (R139). -/
def Warp.gather (w : Warp) : Warp := w.firstSplit.elim w fun i => w.mergeAll i fun _ => true

/-- The parts of a trapping unit whose warps have each been gathered into one split (R139). -/
def gatheredParts (s : State) (sc : Scope) (ws : List (Nat × Warp)) : List UPart :=
  ws.filterMap fun w => w.2.firstSplit.bind fun i => ((s.warps.get? w.1).bind fun x => x.splits.get? i).map fun p =>
    ⟨w.1, i, p.mask, p.mask, unitNum sc w.2⟩

/-- The trap of R139: tpc is the address of the split with the lowest live lane, tinfo the lowest other address. -/
def mismatchTrap (ws : List (Nat × Warp)) : Trap :=
  let splits := ((ws.head?).elim [] fun w => w.2.splits.vals)
  let order := splits.insertionSort fun a b => Lanes.lowest a.mask ≤ Lanes.lowest b.mask
  let tpc := (order.map Split.at_).headD 0
  let others := ((waitAddrs ws).filter fun a => a != tpc).insertionSort fun a b => a.toNat ≤ b.toNat
  let other := others.headD 0
  let mask := splits.foldl (fun m p => m ||| p.mask) 0
  let wid := (ws.head?).elim 0 fun w => w.2.wid
  ⟨Code.scopeMismatch, BitVec.ofNat 32 other.toNat, BitVec.ofNat 32 (other.toNat / 2 ^ 32), 0, 0, wid, mask, 15,
    false, tpc⟩

/-- SCOPE_MISMATCH taken by warps whose waits cannot meet (R139, R141, R143). -/
def takeMismatch (s : State) (ws : List (Nat × Warp)) (sc : Scope) : State :=
  let t := mismatchTrap ws
  let s1 := ws.foldl (fun s w => s.mapWarp w.1 Warp.gather) s
  takeTrap s1 (gatheredParts s1 sc ws) sc t

/-- Whether a warp waits at a rendezvous of one of these scopes or a reconvergence point with all its splits. -/
def Warp.waitsWide (w : Warp) (scs : List Scope) : Bool :=
  w.allWait && w.splits.all fun p => match p.2.wait with
    | .rendezvous sc => scs.contains sc
    | _ => true

/-- Whether some rendezvous among the warps of a block can complete. -/
def someArrived (s : State) (ws : List (Nat × Warp)) : Bool :=
  ws.any fun w => w.2.splits.any fun p => match p.2.wait with
    | .rendezvous sc => unitArrived (unitWarps s w.1 w.2 sc) sc p.2.at_
    | _ => false

/-- Whether every other record of a divergence has arrived at its reconvergence point (R136). -/
def Warp.divMet (w : Warp) (d : Nat) : Bool :=
  ((w.splits.vals ++ w.stack).filter fun p => p.divs.any fun e => e.id == d).all fun p => p.wait == .reconv d && !p.stopped

/-- Reconvergence points whose records have all arrived merge, and the merged split fetches on (R136, R195). -/
def Warp.reconverge (w : Warp) : Warp :=
  w.splits.foldl (fun w x =>
    match (w.splits.get? x.1).map Split.wait with
    | some (.reconv d) =>
      if w.divMet d then
        let w1 := w.mergeAll x.1 fun p => p.wait == .reconv d
        match w1.splits.get? x.1 with
        | some p => w1.setSplit x.1 { p with wait := .none, origins := [], divs := p.divs.filter fun e => e.id != d }
        | none => w1
      else w
    | _ => w) w

/-- Reconvergence in every warp of a block. -/
def reconvergeBlock (s : State) (blk : Nat) : State :=
  (blockWarps s blk).foldl (fun s w => s.mapWarp w.1 Warp.reconverge) s

/-- The sets of a block that have members. -/
def blockSets (s : State) (blk : Nat) : List (List (Nat × Warp)) :=
  (((s.blocks.get? blk).elim [] fun b => b.sets.keys).map fun k => setWarps s blk k).filter fun ws => !ws.isEmpty

/-- Whether the members of a set wait and cannot meet (R141). -/
def setStuck (ws : List (Nat × Warp)) : Bool :=
  ws.all (fun x => x.2.waitsWide [.set]) && decide (2 ≤ (waitAddrs ws).length)

/-- Whether a split waits at a set-scope or block-scope instruction. -/
def Wait.wide : Wait → Bool
  | .rendezvous .set | .rendezvous .block => true
  | _ => false

/-- Whether the warps of a block wait at wide instructions, and no rendezvous among them can complete (R143). -/
def blockStuck (s : State) (ws : List (Nat × Warp)) : Bool :=
  ws.all (fun x => x.2.waitsWide [.set, .block]) && decide (2 ≤ (waitAddrs ws).length)
    && (ws.any fun x => x.2.splits.any fun p => p.2.wait.wide) && !someArrived s ws

/-- The mismatch tests of the warps of a block, of its sets, and of the block (R139, R141, R143). -/
def checkMismatch (s : State) (blk : Nat) : State :=
  let ws := blockWarps s blk
  match ws.find? fun w => w.2.stuck with
  | some w => takeMismatch s [w] .warp
  | none => match (blockSets s blk).find? setStuck with
    | some members => takeMismatch s members .set
    | none => if blockStuck s ws then takeMismatch s ws .block else s

/-- What follows when splits of a block have come to wait or have ended: reconvergence, then the mismatch tests. -/
def afterWait (s : State) (blk : Nat) : State := checkMismatch (reconvergeBlock s blk) blk

/-! ## The issuing unit -/

/-- An issuing unit: scope, parts in unit order, the fmt of R181, whether fmt values differ that the word reports, the
clause and the place of the word, its level, and whether it counts in a flag. -/
structure IssueUnit where
  scope    : Scope
  parts    : List UPart
  fmt      : Half
  conflict : Bool
  header   : Header
  pc       : Word
  idx      : Nat
  core     : Nat
  block    : Nat
  kernel   : Nat
  part     : Nat
  asid     : Nat
  opcode   : Nat
  super    : Bool
  async    : Bool
  deriving DecidableEq, Repr

/-- The number of a lane in unit order (R142, R181). -/
def UPart.lane (p : UPart) (l : Nat) : Nat := 32 * p.num + l

/-- The active lanes of a unit in unit order: part and lane. -/
def IssueUnit.lanes (u : IssueUnit) : List (UPart × Nat) := u.parts.flatMap fun p => (Lanes.toList p.act).map fun l => (p, l)

/-- The lead lane: the lowest live lane in which the guard holds, in unit order (R181, R308, R328). -/
def IssueUnit.lead (u : IssueUnit) : Option (UPart × Nat) := u.lanes.head?

/-- The parts of a unit whose warps are `ws`, with split records `i`. -/
def formParts (sc : Scope) (h : Head) (ws : List (Nat × Warp)) (act : Nat → Nat) : List UPart :=
  ws.filterMap fun w => (w.2.splits.get? (act w.1)).map fun p =>
    ⟨w.1, act w.1, p.mask, p.mask &&& w.2.guard h.guard h.neg, unitNum sc w.2⟩

/-- The sources of fmt of a unit: lanes in unit order with the fmt of the split they were in (R181). -/
def unitFmts (s : State) (parts : List UPart) : List (Nat × Lanes × Half) :=
  parts.flatMap fun u => match (s.warps.get? u.uid).bind fun w => w.splits.get? u.idx with
    | some p => p.sources.map fun o => (u.uid, o.1 &&& u.live, o.2.1)
    | none => []

/-- The fmt of the split that holds a lane. -/
def fmtAt (fs : List (Nat × Lanes × Half)) (uid l : Nat) : Half :=
  ((fs.find? fun f => f.1 == uid && f.2.1.getLsbD l).map (·.2.2)).getD 0

/-- The fmt a unit's instruction uses: of the lead lane's split, or of the lowest live lane's when no guard holds
(R181). -/
def unitFmt (s : State) (parts : List UPart) : Half :=
  let fs := unitFmts s parts
  match (parts.flatMap fun p => (Lanes.toList p.act).map fun l => (p.uid, l)).head? with
  | some x => fmtAt fs x.1 x.2
  | none => match (parts.flatMap fun p => (Lanes.toList p.live).map fun l => (p.uid, l)).head? with
    | some x => fmtAt fs x.1 x.2
    | none => 0

/-- Whether the live splits of a unit hold differing fmt values (R181). -/
def fmtsDiffer (s : State) (parts : List UPart) : Bool :=
  match (unitFmts s parts).filter fun f => f.2.1 != 0 with
  | [] => false
  | f :: r => r.any fun g => g.2.2 != f.2.2

/-- SETFMT, which a MOV to fmt is: it sets no status (R265). -/
def Instr.setsFmt : Instr → Bool
  | .setfmt _ _ _ _ => true
  | .mov _ d _ => d == .fmt
  | _ => false

/-- The unit formed of parts, with the acting split's clause (DEDUCED, log 22). -/
def formUnit (s : State) (i : Instr) (h : Head) (w : Warp) (p : Split) (parts : List UPart) : IssueUnit :=
  { scope := h.scope, parts := parts, fmt := if h.scope = .lane then p.fmt else unitFmt s parts
    conflict := h.scope != .lane && fmtsDiffer s parts && !Instr.setsFmt i, header := Header.of p.header, pc := p.pc, idx := p.idx
    core := w.core, block := w.block, kernel := (s.blockOf w).elim 0 (·.kernel), part := s.partOf w, asid := s.asidOf w
    opcode := i.opcode, super := p.saved.isSome, async := h.flag != .none }

/-! ## Operands of a unit -/

/-- The split record of a part, with the fmt the instruction uses (R181, R265). -/
def IssueUnit.split (u : IssueUnit) (p : Split) : Split := if u.scope = .lane then p else { p with fmt := u.fmt }

/-- Lane `l` of a register read by a part: at set scope scalars come from the member with sid 0 (R142). The spec does not say
which special names count as scalars there: the model takes s registers and kw, and reads wid, sid and fst from each member's
own warp (DESIGN CHOICE, log 22). -/
def IssueUnit.read (u : IssueUnit) (s : State) (x : UPart) (r : Reg) (l : Nat) : Half :=
  let y := if u.scope = .set then
      (match r with
        | .s _ | .kw => u.parts.headD x
        | _ => x) else x
  match s.warps.get? y.uid with
  | none => 0
  | some w => match w.splits.get? y.idx with
    | none => 0
    | some p => readReg s w (u.split p) r l

/-- Lane `l` of a 64-bit operand (R208). -/
def IssueUnit.read64 (u : IssueUnit) (s : State) (x : UPart) (r : Reg) (l : Nat) : Word :=
  u.read s x (Reg.plus r 1) l ++ u.read s x r l

/-- An operand read once, in the lead lane. -/
def IssueUnit.once (u : IssueUnit) (s : State) (r : Reg) : Half :=
  match u.lead with
  | some (x, l) => u.read s x r l
  | none => 0

/-- A 64-bit operand read once, in the lead lane. -/
def IssueUnit.once64 (u : IssueUnit) (s : State) (r : Reg) : Word :=
  match u.lead with
  | some (x, l) => u.read64 s x r l
  | none => 0

/-- A register written by a unit: each active lane of a vector register gets `f`, a scalar register of every warp gets
the value of the unit's lowest active lane (R142, R208). Nothing is written when no lane is active. -/
def IssueUnit.write (u : IssueUnit) (s : State) (r : Reg) (f : UPart → Nat → Half) : State :=
  match u.lead with
  | none => s
  | some (x, l) =>
    let scalar := f x l
    u.parts.foldl (fun s p => s.mapWarp p.uid fun w => w.writeReg p.idx r p.act (f p) scalar) s

/-- A 64-bit register pair written by a unit. -/
def IssueUnit.write64 (u : IssueUnit) (s : State) (r : Reg) (f : UPart → Nat → Word) : State :=
  u.write (u.write s r fun p l => BitVec.ofNat 32 (f p l).toNat) (Reg.plus r 1) fun p l =>
    BitVec.ofNat 32 ((f p l).toNat / 2 ^ 32)

/-- A predicate written by a unit in its active lanes (R208). -/
def IssueUnit.writePred (u : IssueUnit) (s : State) (pd : Pred) (f : UPart → Nat → Bool) : State :=
  u.parts.foldl (fun s p => s.mapWarp p.uid fun w => w.setPred pd p.act (lanesWhere fun l => f p l)) s

/-- A predicate of a lane. -/
def IssueUnit.pred (_u : IssueUnit) (s : State) (x : UPart) (p : Pred) (l : Nat) : Bool :=
  (s.warps.get? x.uid).elim false fun w => (w.pred p).getLsbD l

/-- Register writes of a command, made per warp, for a unit's active lanes (R199, R208). -/
def IssueUnit.regWrites (u : IssueUnit) (r : Reg) (f : UPart → Nat → Half) (keep : UPart → Nat → Bool) : List RegWrite :=
  match r, (u.lanes.filter fun x => keep x.1 x.2).head? with
  | _, none => []
  | .s _, some (x, l) => u.parts.map fun p => ⟨p.uid, r, p.live, rowOfLanes fun _ => f x l⟩
  | _, some _ => (u.parts.filter fun p => p.act != 0).map fun p =>
    ⟨p.uid, r, p.act &&& lanesWhere (keep p), rowOfLanes fun l => if p.act.getLsbD l then f p l else 0⟩

/-- Register writes of a 64-bit result. -/
def IssueUnit.regWrites64 (u : IssueUnit) (r : Reg) (f : UPart → Nat → Word) (keep : UPart → Nat → Bool) : List RegWrite :=
  u.regWrites r (fun p l => BitVec.ofNat 32 (f p l).toNat) keep
    ++ u.regWrites (Reg.plus r 1) (fun p l => BitVec.ofNat 32 ((f p l).toNat / 2 ^ 32)) keep

/-- Predicate writes of a command for a unit's active lanes. -/
def IssueUnit.predWrites (u : IssueUnit) (pd : Pred) (f : UPart → Nat → Bool) : List PredWrite :=
  u.parts.map fun p => ⟨p.uid, pd, p.act, lanesWhere fun l => p.act.getLsbD l && f p l⟩

/-- The warps of a unit with their live lanes, for a command's flag (R197). -/
def IssueUnit.warps (u : IssueUnit) : List (Nat × Lanes) := u.parts.map fun p => (p.uid, p.live)

/-! ## Traps of a unit -/

/-- The address of the word of a unit. -/
def IssueUnit.addr (u : IssueUnit) : Word := u.pc + BitVec.ofNat 64 (8 * u.idx)

/-- A trap met by lanes of one warp of a unit (R347, R349). -/
def IssueUnit.trap (u : IssueUnit) (s : State) (code : Nat) (i0 i1 i2 i3 : Half) (uid : Nat) (mask : Lanes) : Trap :=
  ⟨code, i0, i1, i2, i3, s.widOf uid, mask, 15, false, u.addr⟩

/-- A trap met by lanes picked by a test: the warp that holds the lowest of them, and its lanes (R347). -/
def IssueUnit.trapLanes (u : IssueUnit) (s : State) (code : Nat) (i0 i1 i2 i3 : Half) (met : UPart → Nat → Bool) : Trap :=
  match u.lanes.find? fun x => met x.1 x.2 with
  | some (x, _) => u.trap s code i0 i1 i2 i3 x.uid (x.act &&& lanesWhere (met x))
  | none => u.trap s code i0 i1 i2 i3 ((u.parts.map (·.uid)).headD 0) 0

/-- A trap met by every active lane of a unit. -/
def IssueUnit.trapAll (u : IssueUnit) (s : State) (code : Nat) (i0 i1 i2 i3 : Half) : Trap :=
  u.trapLanes s code i0 i1 i2 i3 fun _ _ => true

/-- The low and high words of a 64-bit value. -/
def lo32 (x : Word) : Half := BitVec.ofNat 32 x.toNat
def hi32 (x : Word) : Half := BitVec.ofNat 32 (x.toNat / 2 ^ 32)

/-- ILLEGAL_OPERAND with the contents of R349: the value, the reason in tinfo1 and tinfo2, the field. -/
def IssueUnit.badOperand (u : IssueUnit) (s : State) (value : Half) (reason : Option Nat) (field : Nat) : Trap :=
  match reason with
  | some r => u.trapAll s Code.illegalOperand value (BitVec.ofNat 32 r) (BitVec.ofNat 32 r) (BitVec.ofNat 32 field)
  | none => u.trapAll s Code.illegalOperand value 0 (BitVec.allOnes 32) (BitVec.ofNat 32 field)

/-! ## Issue -/

/-- What the effect of an instruction answers. -/
inductive Effect where
  /-- the instruction has completed, or its command has started; the unit goes to its next word -/
  | done (s : State)
  /-- the instruction has completed and has placed its splits itself -/
  | moved (s : State)
  /-- the unit traps; nothing of the effect stays (R211) -/
  | trap (t : Trap)
  /-- the unit traps in the given parts, after the given state (R304) -/
  | trapIn (s : State) (parts : List UPart) (t : Trap)
  /-- the unit waits at its word; the state holds what the wait needs -/
  | wait (s : State) (w : Wait)

/-- How many registers a class takes (R208). -/
def RegClass.width : RegClass → Nat
  | .pair | .base | .evenReg | .sPair => 2
  | .quad | .quadReg => 4
  | .run n => n
  | _ => 1

/-- How many registers an index takes (R36). -/
def idxWidth (m : Addr) : Nat := match m.index with
  | .n64 _ => 2
  | _ => 1

/-- How many registers a CPY operand takes (R314). -/
def cpyWidth (dir : CpyDir) : Nat := match dir with
  | .g2s | .g2t => 2
  | _ => 1

/-- How many registers the sources A, B and C of an instruction take, where one takes more than one (R204, R208). -/
def Instr.sourceWidths : Instr → Nat × Nat × Nat
  | .add _ t _ _ _ | .sub _ t _ _ _ => if t.wide then (2, 2, 1) else (1, 1, 1)
  | .min _ t _ _ _ | .max _ t _ _ _ => if t.wide then (2, 2, 1) else (1, 1, 1)
  | .madw _ _ _ _ _ _ => (1, 1, 2)
  | .shl _ wide _ _ _ => if wide then (2, 1, 1) else (1, 1, 1)
  | .shr _ t _ _ _ => if t.wide then (2, 1, 1) else (1, 1, 1)
  | .cmp _ t _ _ _ _ _ => if t.wide then (2, 2, 1) else (1, 1, 1)
  | .lea _ _ _ _ _ _ => (2, 1, 1)
  | .reduce _ t _ _ _ _ => if t.wide then (2, 1, 1) else (1, 1, 1)
  | .qpack _ _ _ _ _ _ _ => (2, 2, 1)
  | .qscale _ k _ _ _ => (if k == .x1 then 1 else 2, if k == .x4 then 2 else 1, 1)
  | .ld _ _ _ m _ | .ldc _ _ _ m _ | .ldg _ _ _ _ m _ | .ldr _ _ _ _ m _ | .lde _ _ _ _ m _ => (2, idxWidth m, 1)
  | .ealloc _ _ m _ | .erase _ m _ | .eraser _ _ m _ | .etest _ _ m _ => (2, idxWidth m, 1)
  | .prefetch _ m _ | .reserve _ _ m _ | .discard _ m _ | .reqpage _ m _ => (2, idxWidth m, 1)
  | .st _ t _ m _ => (2, idxWidth m, RegClass.width t.dcls)
  | .scat _ t _ m _ => (2, idxWidth m, RegClass.width t.dcls)
  | .atom _ op _ m _ => (2, idxWidth m, RegClass.width op.dcls)
  | .brx _ _ _ | .callx _ _ _ _ | .ret _ _ | .launch _ _ _ _ | .kinit _ _ _ _ _ | .stash _ _ _ _ _ | .fhnd _ _ _ => (2, 1, 1)
  | .spawn _ _ _ _ _ n => (2, n.val, 1)
  | .cpy _ dir _ _ _ _ twoD _ _ _ => (cpyWidth dir, if twoD then 4 else 1, 1)
  | _ => (1, 1, 1)

/-- The vector registers of a source that a last-use bit empties. -/
def lastUseRegs (bit : Bool) (r : Option Reg) (n : Nat) : List Nat :=
  match bit, r with
  | true, some (.v x) => (List.range n).map fun k => x.val + k
  | _, _ => []

/-- Last-use bits of sources take effect (R49): the entries are emptied in every part, at warp scope or wider, or when
the split is its warp's only live one. -/
def lastUse (u : IssueUnit) (h : Head) (i : Instr) (s : State) : State :=
  let (a, b, c) := i.sources
  let (na, nb, nc) := Instr.sourceWidths i
  let vs := lastUseRegs h.luA a na ++ lastUseRegs h.luB b nb ++ lastUseRegs h.luC c nc
  if vs.isEmpty then s
  else u.parts.foldl (fun s p => s.mapWarp p.uid fun w =>
    if u.scope != .lane || (w.splits.length == 1 && w.stack.isEmpty) then vs.foldl Warp.emptyV w else w) s

/-- The declared peak of a unit's kernel (R50). -/
def State.peakOf (s : State) (kernel : Nat) : Nat := (s.kernels.get? kernel).elim 0 (·.peak)

/-- The first part whose mapped rows an issue would raise above the peak, with its rows before (R50; DEDUCED, log 21). -/
def overPeak (s s1 : State) (u : IssueUnit) : Option (UPart × Nat) :=
  u.parts.findSome? fun p => match s.warps.get? p.uid, s1.warps.get? p.uid with
    | some w, some w1 =>
      if decide (s.peakOf u.kernel < w1.rowsMapped ∧ w.rowsMapped < w1.rowsMapped) then some (p, w.rowsMapped) else none
    | _, _ => none

/-- The register field the POOL_FAULT of R50 names: the vector destination, which TLU has in field A (R339). -/
def Instr.dName (i : Instr) : Nat :=
  match i with
  | .tlu _ _ _ _ _ _ => i.operands.a
  | _ => i.operands.d

/-- The POOL_FAULT of R50 (R349). -/
def peakTrap (s : State) (u : IssueUnit) (i : Instr) (p : UPart) (rows : Nat) : Trap :=
  u.trap s Code.poolFault (BitVec.ofNat 32 (Instr.dName i)) (BitVec.ofNat 32 (s.peakOf u.kernel)) 0xFFFFFFFE
    (BitVec.ofNat 32 rows) p.uid p.act

/-- The number of a split among all splits. -/
def splitKey (u i : Nat) : Nat := 4 * u + i

/-- Every part of a unit put into a wait: its word was not ready until now (R167). -/
def waitAll (s : State) (u : IssueUnit) (w : Wait) : State :=
  u.parts.foldl (fun s p => s.mapSplit p.uid p.idx fun x => { x with wait := w, unchosen := 0 }) s

/-- fst.fmtconflict of a unit whose live splits hold differing fmt values (R142, R181); a command sets it with its flag
(R183). -/
def noteConflict (s : State) (u : IssueUnit) : State :=
  orFst s u.parts (if u.conflict && !u.async then 0x10 else 0)

/-- An instruction issued, counted (R397). -/
def countIssue (s : State) (u : IssueUnit) : State := s.event u.core (some u.block) 2 1

/-- What an issue leaves of an effect: the peak check, fst.fmtconflict, the advance, the trap or the wait. A trap undoes all
of the effect, a frame popped for a tile that was granted beside a refused one too (R79; DESIGN CHOICE, log 15). -/
def settleEffect (s : State) (u : IssueUnit) (i : Instr) (e : Effect) : State :=
  match e with
  | .done s1 => match overPeak s s1 u with
    | some (p, rows) => takeTrap s u.parts u.scope (peakTrap s u i p rows)
    | none => countIssue (advanceAll (noteConflict s1 u) u.parts) u
  | .moved s1 => match overPeak s s1 u with
    | some (p, rows) => takeTrap s u.parts u.scope (peakTrap s u i p rows)
    | none => countIssue s1 u
  | .trap t => takeTrap s u.parts u.scope t
  | .trapIn s1 parts t => takeTrap (countIssue s1 u) parts u.scope t
  | .wait s1 w => waitAll s1 u w

/-- What the rendezvous of an issue answers. -/
inductive Meeting where
  | waits (s : State)
  | meets (s : State) (parts : List UPart)

/-- The warps of a unit that wait, after its rendezvous, at an address. -/
def againWarps (ws : List (Nat × Warp)) (addr : Word) : List (Nat × Warp) :=
  ws.filter fun w => !w.2.suspended && w.2.splits.any fun q => q.2.wait.issued && q.2.at_ == addr

/-- The split of a warp that waits, after its rendezvous, at an address. -/
def againSplit (s : State) (addr : Word) (x : Nat) : Nat :=
  ((s.warps.get? x).bind fun y => (y.splits.find? fun q => q.2.wait.issued && q.2.at_ == addr).map (·.1)).getD 0

/-- The rendezvous of R138 to R144 for split `i` of warp `u` at its word. -/
def rendezvous (s : State) (u i : Nat) (w : Warp) (p : Split) (h : Head) : Meeting :=
  match h.scope with
  | .lane => .meets s (formParts .lane h [(u, w)] fun _ => i)
  | sc =>
    match p.replay with
    | some us =>
      let ws := us.filterMap fun x => (s.warps.get? x).bind fun y => if y.lanes = 0 then none else some (x, y)
      .meets s (formParts sc h ws fun x => if x = u then i else
        ((s.warps.get? x).bind fun y => (y.splits.find? fun q => q.2.at_ == p.at_).map (·.1)).getD 0)
    | none =>
      if p.wait.issued then .meets s (formParts sc h (againWarps (unitWarps s u w sc) p.at_) (againSplit s p.at_))
      else
        let s1 := s.setWarp u ((w.setSplit i { p with wait := .rendezvous sc, unchosen := 0 }).mergeAll i fun q => q.waitsAt sc p.at_)
        match s1.warps.get? u with
        | none => .waits s1
        | some w1 =>
          let ws := unitWarps s1 u w1 sc
          if unitArrived ws sc p.at_ then
            .meets s1 (formParts sc h ws fun x => ((s1.warps.get? x).bind fun y => y.splits.head?).elim 0 (·.1))
          else .waits (afterWait s1 w.block)

/-- The word an instruction was decoded from. -/
def Instr.word (i : Instr) : Word := (encode i).getD 0

/-- A trap decided by the word itself (steps 2 to 7 of R211), taken by the split alone; every live lane meets it
(R347). -/
def takeWordTrap (s : State) (u i : Nat) (w : Warp) (p : Split) (code : Nat) (i0 i1 i2 i3 : Half) : State :=
  takeTrap s [⟨u, i, p.mask, p.mask, 0⟩] .lane ⟨code, i0, i1, i2, i3, w.wid, p.mask, 15, false, p.at_⟩

/-- Whether an issue that counts in a flag would raise a count to 64 (R197). -/
def flagFull (s : State) (uids : List Nat) (n : Nat) : Bool :=
  uids.any fun u => (s.warps.get? u).elim false fun w => decide (63 ≤ (w.flag n).count)

/-- The system register number an instruction names, for the privilege check (R210). -/
def Instr.needsSuper : Instr → Bool
  | .tret _ => true
  | .getsr _ _ sr => !srUser sr.toNat
  | .setsr _ _ sr => !srUser sr.toNat
  | _ => false

/-- tinfo1 of PRIVILEGE (R349). -/
def Instr.srNumber : Instr → Nat
  | .getsr _ _ sr => sr.toNat
  | .setsr _ _ sr => sr.toNat
  | _ => 0

/-- The checks of R211, steps 3 to 6, that depend on the clause, the warp and its level: code and tinfo. -/
def dynamicCheck (i : Instr) (h : Head) (w : Warp) (p : Split) : Option (Nat × Half × Half) :=
  let hdr := Header.of p.header
  let word := Instr.word i
  if endsClause i.opcode && p.idx != hdr.count then some (Code.illegalClause, lo32 word, hi32 word)
  else if h.flag != .none && flagNumber hdr h.flag == 15 then some (Code.illegalForm, lo32 word, hi32 word)
  else if h.scope == .set && w.setId.isNone then
    some (Code.illegalScope, BitVec.ofNat 32 h.scope.code, BitVec.ofNat 32 i.opcode)
  else if Instr.needsSuper i && p.saved.isNone then
    some (Code.privilege, BitVec.ofNat 32 i.opcode, BitVec.ofNat 32 (Instr.srNumber i))
  else none

/-- Whether work in flight has a read still to be made: an ATOM that has not been performed, or a load that waits for a
peer (DESIGN CHOICE, log 8). -/
def Work.reads : Work → Bool
  | .atom _ _ _ => true
  | .load c => c.lanes.any fun l => match l.got with
    | .waits _ => true
    | _ => false
  | _ => false

/-- Whether work in flight is an access that has not been performed: a read still to be made, or a KUPD under way. -/
def Work.unperformed : Work → Bool
  | .kupd _ _ _ _ => true
  | w => w.reads

/-- Whether a core of a warp's partition has taken a broadcast that is still under way to others: its number is on its own list
no more. -/
def tookBcast (s : State) (w : Warp) (core n : Nat) : Bool :=
  s.kiln.quarters.get? (core / 16) == some (s.partOf w) && !((s.core w.core).bcast.any fun b => b.2.1 == n)

/-- Whether some core has yet to take a change of an incumbent that warps wrote, or may have read in their own core's copy: a
release of theirs waits, so that who acquires it reads no older value (R101, R106, R118; DEDUCED, log 9). -/
def bcastsOwed (s : State) (ws : List Nat) : Bool :=
  s.cores.any fun c => c.2.bcast.any fun b => ws.any fun u =>
    b.2.2.2.contains u || (s.warps.get? u).elim false fun w => tookBcast s w c.1 b.2.1

/-- Whether warps have, among the commands issued before an order, an access that has not been performed, or a change of an
incumbent still under way to copies; without `all`, an access that still reads. -/
def accessesBefore (s : State) (ws : List Nat) (all : Bool) (order : Nat) : Bool :=
  (s.pend.any fun q => decide (q.2.order < order) && (q.2.warps.any fun x => ws.contains x.1)
    && (if all then q.2.work.unperformed else q.2.work.reads)) || (all && bcastsOwed s ws)

/-- The warps of a unit. -/
def IssueUnit.uids (u : IssueUnit) : List Nat := u.parts.map (·.uid)

/-- Whether an earlier access of a unit's warps has not taken its value: a later access waits for it (R104, R106, R111;
DESIGN CHOICE, log 8). -/
def readsPending (s : State) (u : IssueUnit) : Bool := accessesBefore s u.uids false s.seq

/-- Whether an earlier access of a unit's warps has not been performed: a release waits for it (R106, R107). -/
def accessesPending (s : State) (u : IssueUnit) : Bool := accessesBefore s u.uids true s.seq

/-- The wait of a word for earlier reads of its warps. -/
def IssueUnit.stallReads (u : IssueUnit) : Wait := .stall (.accesses u.uids false)

/-- The wait of a word for all earlier accesses of its warps. -/
def IssueUnit.stallAccesses (u : IssueUnit) : Wait := .stall (.accesses u.uids true)

/-- Effects that start only when their flag can count them (R197); a set-scope or block-scope word orders every access
of its warps before it (R108, R112). -/
def gated (s : State) (u : IssueUnit) (h : Head) (e : Effect) : Effect :=
  if (h.scope == .block || h.scope == .set) && accessesPending s u then .wait s u.stallAccesses
  else if h.flag != .none && flagFull s u.uids (flagNumber u.header h.flag) then
    .wait s (.stall (.flagFull u.uids (flagNumber u.header h.flag)))
  else e

/-- The incumbent check at issue (R149): dominated lanes of every part are cancelled. -/
def checkParts (s : State) (parts : List UPart) : State :=
  parts.foldl (fun s x => match s.warps.get? x.uid with
    | some w => match w.splits.get? x.idx with
      | some p => cancelLanes s x.uid x.idx (dominatedLanes s w p)
      | none => s
    | none => s) s

/-- Parts of which each warp has one: the first named. -/
def distinctParts : List UPart → List UPart
  | [] => []
  | x :: r => x :: (distinctParts r).filter fun y => y.uid != x.uid

/-- The parts that still have live lanes, with the lanes left (R149). -/
def liveParts (s : State) (h : Head) (parts : List UPart) : List UPart :=
  (distinctParts parts).filterMap fun x => (s.warps.get? x.uid).bind fun w => (w.splits.get? x.idx).bind fun p =>
    let live := x.live &&& p.mask
    if live = 0 then none
    else some { x with live := live, act := live &&& w.guard h.guard h.neg, num := unitNum h.scope w }

/-- The state an effect writes into: last-use entries emptied, but by an instruction with no active lane, which has no effect
(R49, R202, R288). -/
def useSources (u : IssueUnit) (h : Head) (i : Instr) (s : State) : State :=
  if u.lanes.isEmpty then s else lastUse u h i s

/-- ISSUE: the instruction at the acting split, through steps 3 to 10 of R211. The effect gets the unit, the state to
read operands from, and that state with last-use entries emptied, to write into. -/
def issue (i : Instr) (h : Head) (eff : IssueUnit → State → State → Effect) (s : State) :
    Host.Outcome State Fault Refusal :=
  match s.warps.get? s.act.1 with
  | none => .next s
  | some w => match w.splits.get? s.act.2 with
    | none => .next s
    | some p =>
      match dynamicCheck i h w p with
      | some (c, a, b) => .next (takeWordTrap s s.act.1 s.act.2 w p c a b 0 0)
      | none =>
        match rendezvous s s.act.1 s.act.2 w p h with
        | .waits s1 => .next s1
        | .meets s1 parts =>
          let s2 := checkParts s1 parts
          match liveParts s2 h parts with
          | [] => .next (settle (afterWait s2 w.block))
          | ps =>
            let u := formUnit s2 i h w p ps
            .next (settleEffect s2 u i (gated s2 u h (eff u s2 (useSources u h i s2))))

end Sys2Proof.Machine
end

