-- ==== Sys2Proof/Machine/Lanewise.lean ====
section
/-! DEFINITION. Lane-wise instructions (R227, R251): each active lane's sources give its result and its status bits;
every source is read before any destination is written. -/

namespace Sys2Proof.Machine

/-- fst bits (R182). -/
def fstSat : Half := 1
def fstOverflow : Half := 2
def fstInvalid : Half := 4
def fstFormat : Half := 8
def fstPivot : Half := 32

/-- A result of a lane with its status bits. -/
abbrev Res := Half × Half

/-- A result without status. -/
def Res.plain (x : Half) : Res := (x, 0)

/-- A status bit under a condition. -/
def flagIf (b : Bool) (bit : Half) : Half := if b then bit else 0

/-- The OR of the status bits of a unit's active lanes (R183). -/
def IssueUnit.status (u : IssueUnit) (f : UPart → Nat → Half) : Half :=
  u.lanes.foldl (fun acc x => acc ||| f x.1 x.2) 0

/-- A 32-bit result with status, written in every active lane. -/
def laneRes (u : IssueUnit) (w : State) (d : Reg) (f : UPart → Nat → Res) : Effect :=
  .done (orFst (u.write w d fun p l => (f p l).1) u.parts (u.status fun p l => (f p l).2))

/-- One source. -/
def lane1 (u : IssueUnit) (r w : State) (d a : Reg) (f : Half → Res) : Effect :=
  laneRes u w d fun p l => f (u.read r p a l)

/-- Two sources. -/
def lane2 (u : IssueUnit) (r w : State) (d a b : Reg) (f : Half → Half → Res) : Effect :=
  laneRes u w d fun p l => f (u.read r p a l) (u.read r p b l)

/-- Three sources. -/
def lane3 (u : IssueUnit) (r w : State) (d a b c : Reg) (f : Half → Half → Half → Res) : Effect :=
  laneRes u w d fun p l => f (u.read r p a l) (u.read r p b l) (u.read r p c l)

/-- A 64-bit result written to a pair in every active lane. -/
def lanePair (u : IssueUnit) (w : State) (d : Reg) (f : UPart → Nat → Word) : Effect := .done (u.write64 w d f)

/-- Two 64-bit sources and a 64-bit result. -/
def lane2w (u : IssueUnit) (r w : State) (d a b : Reg) (f : Word → Word → Word) : Effect :=
  lanePair u w d fun p l => f (u.read64 r p a l) (u.read64 r p b l)

/-! ## Packed elements (R169, R228) -/

/-- Element `e` of two 16-bit elements. -/
def elem16 (x : Half) (e : Nat) : BitVec 16 := BitVec.ofNat 16 (x.toNat / 2 ^ (16 * e))
/-- Element `e` of four 8-bit elements. -/
def elem8 (x : Half) (e : Nat) : BitVec 8 := BitVec.ofNat 8 (x.toNat / 2 ^ (8 * e))
/-- Two 16-bit elements packed. -/
def pack16 (e0 e1 : BitVec 16) : Half := e1 ++ e0
/-- Four 8-bit elements packed. -/
def pack8 (e0 e1 e2 e3 : BitVec 8) : Half := e3 ++ e2 ++ e1 ++ e0

/-- An operation on two 16-bit elements. -/
def map16 (f : BitVec 16 → BitVec 16 → BitVec 16 × Bool) (a b : Half) : Half × Bool :=
  let r0 := f (elem16 a 0) (elem16 b 0)
  let r1 := f (elem16 a 1) (elem16 b 1)
  (pack16 r0.1 r1.1, r0.2 || r1.2)

/-- An operation on four 8-bit elements. -/
def map8 (f : BitVec 8 → BitVec 8 → BitVec 8 × Bool) (a b : Half) : Half × Bool :=
  let r0 := f (elem8 a 0) (elem8 b 0)
  let r1 := f (elem8 a 1) (elem8 b 1)
  let r2 := f (elem8 a 2) (elem8 b 2)
  let r3 := f (elem8 a 3) (elem8 b 3)
  (pack8 r0.1 r1.1 r2.1 r3.1, r0.2 || r1.2 || r2.2 || r3.2)

/-- An exact value clamped to a range, and whether the clamp applied. -/
def clampInt (lo hi v : Int) : Int × Bool := if v < lo then (lo, true) else if hi < v then (hi, true) else (v, false)

/-- An exact value clamped to the signed range of a width. -/
def satSigned (w : Nat) (v : Int) : BitVec w × Bool :=
  let r := clampInt (-(2 ^ (w - 1) : Nat)) ((2 ^ (w - 1) : Nat) - 1) v
  (BitVec.ofInt w r.1, r.2)

/-- An exact value clamped to the unsigned range of a width. -/
def satUnsigned (w : Nat) (v : Int) : BitVec w × Bool :=
  let r := clampInt 0 ((2 ^ w : Nat) - 1) v
  (BitVec.ofInt w r.1, r.2)

/-- A clamped result with fst.sat when the clamp applied. -/
def Res.sat (x : Half × Bool) : Res := (x.1, flagIf x.2 fstSat)

end Sys2Proof.Machine
end

