-- ==== Sys2Proof/Machine/IntArith.lean ====
section
/-! DEFINITION. Integer sums, products and quotients: ADD to ABS (R229), MUL to IREM (R230), DOT2, DOT4, SAD (R231). -/

namespace Sys2Proof.Machine

/-! ## Element functions -/

/-- ADD on 32 bits by type. -/
def addOf (t : AddTy) (a b : Half) : Half :=
  match t with
  | .i16x2 => (map16 (fun x y => (x + y, false)) a b).1
  | .i8x4 => (map8 (fun x y => (x + y, false)) a b).1
  | .i32 | .i64 => a + b

/-- SUB on 32 bits by type. -/
def subOf (t : AddTy) (a b : Half) : Half :=
  match t with
  | .i16x2 => (map16 (fun x y => (x - y, false)) a b).1
  | .i8x4 => (map8 (fun x y => (x - y, false)) a b).1
  | .i32 | .i64 => a - b

/-- ADDSAT by type. -/
def addsatOf (t : SatTy) (a b : Half) : Half × Bool :=
  match t with
  | .i32 => satSigned 32 (a.toInt + b.toInt)
  | .n32 => satUnsigned 32 ((a.toNat : Int) + b.toNat)
  | .i16x2 => map16 (fun x y => satSigned 16 (x.toInt + y.toInt)) a b
  | .i8x4 => map8 (fun x y => satSigned 8 (x.toInt + y.toInt)) a b

/-- SUBSAT by type. -/
def subsatOf (t : SatTy) (a b : Half) : Half × Bool :=
  match t with
  | .i32 => satSigned 32 (a.toInt - b.toInt)
  | .n32 => satUnsigned 32 ((a.toNat : Int) - b.toNat)
  | .i16x2 => map16 (fun x y => satSigned 16 (x.toInt - y.toInt)) a b
  | .i8x4 => map8 (fun x y => satSigned 8 (x.toInt - y.toInt)) a b

/-- The signed smaller of two values. -/
def sMin {w : Nat} (a b : BitVec w) : BitVec w := if a.toInt ≤ b.toInt then a else b
/-- The signed larger of two values. -/
def sMax {w : Nat} (a b : BitVec w) : BitVec w := if a.toInt ≤ b.toInt then b else a
/-- The unsigned smaller of two values. -/
def uMin {w : Nat} (a b : BitVec w) : BitVec w := if a.toNat ≤ b.toNat then a else b
/-- The unsigned larger of two values. -/
def uMax {w : Nat} (a b : BitVec w) : BitVec w := if a.toNat ≤ b.toNat then b else a

/-- MIN on 32 bits by type. -/
def minOf (t : MinTy) (a b : Half) : Half :=
  match t with
  | .n32 | .n64 => uMin a b
  | .i16x2 => (map16 (fun x y => (sMin x y, false)) a b).1
  | .i8x4 => (map8 (fun x y => (sMin x y, false)) a b).1
  | .i32 | .i64 => sMin a b

/-- MAX on 32 bits by type. -/
def maxOf (t : MinTy) (a b : Half) : Half :=
  match t with
  | .n32 | .n64 => uMax a b
  | .i16x2 => (map16 (fun x y => (sMax x y, false)) a b).1
  | .i8x4 => (map8 (fun x y => (sMax x y, false)) a b).1
  | .i32 | .i64 => sMax a b

/-- MIN on 64 bits by type. -/
def minWide (t : MinTy) (a b : Word) : Word := if t = .n64 then uMin a b else sMin a b
/-- MAX on 64 bits by type. -/
def maxWide (t : MinTy) (a b : Word) : Word := if t = .n64 then uMax a b else sMax a b

/-- The absolute value modulo 2^w. -/
def absBv {w : Nat} (a : BitVec w) : BitVec w := if a.toInt < 0 then 0 - a else a

/-- ABS by type. -/
def absOf (t : AbsTy) (a : Half) : Half :=
  match t with
  | .i32 => absBv a
  | .i16x2 => (map16 (fun x _ => (absBv x, false)) a a).1

/-- A 32-bit value read signed or unsigned. -/
def sgnVal (t : Sgn) (a : Half) : Int := if t = .i32 then a.toInt else a.toNat

/-- IDIV with the cases of R230. -/
def idivOf (t : Sgn) (a b : Half) : Res :=
  if b = 0 then (BitVec.allOnes 32, fstInvalid)
  else if t = .i32 ∧ a = 0x80000000#32 ∧ b = BitVec.allOnes 32 then (0x80000000#32, fstOverflow)
  else (BitVec.ofInt 32 ((sgnVal t a).tdiv (sgnVal t b)), 0)

/-- IREM with the cases of R230. -/
def iremOf (t : Sgn) (a b : Half) : Res :=
  if b = 0 then (a, fstInvalid)
  else (BitVec.ofInt 32 ((sgnVal t a).tmod (sgnVal t b)), 0)

/-- The sum of products of DOT4. -/
def dot4Sum (t : Dot4Ty) (a b : Half) : Int :=
  let x := fun (e : Nat) => if t = .n8 then ((elem8 a e).toNat : Int) else (elem8 a e).toInt
  let y := fun (e : Nat) => if t = .i8 then (elem8 b e).toInt else ((elem8 b e).toNat : Int)
  x 0 * y 0 + x 1 * y 1 + x 2 * y 2 + x 3 * y 3

/-- An exact sum wrapped, or with .sat clamped once (R231). -/
def dotEnd (sat unsigned : Bool) (v : Int) : Res :=
  if sat then Res.sat (if unsigned then satUnsigned 32 v else satSigned 32 v) else (BitVec.ofInt 32 v, 0)

/-- The absolute difference of two unsigned bytes. -/
def byteDist (a b : BitVec 8) : Nat := if a.toNat ≤ b.toNat then b.toNat - a.toNat else a.toNat - b.toNat

/-- The sum of absolute byte differences (R231). -/
def sadSum (a b : Half) : Nat :=
  byteDist (elem8 a 0) (elem8 b 0) + byteDist (elem8 a 1) (elem8 b 1) + byteDist (elem8 a 2) (elem8 b 2)
    + byteDist (elem8 a 3) (elem8 b 3)

/-! ## Instructions -/

/-- ADD (R229). -/
def execAdd (h : Head) (t : AddTy) (d a b : Reg) (s : State) : Host.Outcome State Fault Refusal :=
  issue (.add h t d a b) h (fun u r w =>
    if t = .i64 then lane2w u r w d a b (· + ·) else lane2 u r w d a b fun x y => (addOf t x y, 0)) s

/-- SUB (R229). -/
def execSub (h : Head) (t : AddTy) (d a b : Reg) (s : State) : Host.Outcome State Fault Refusal :=
  issue (.sub h t d a b) h (fun u r w =>
    if t = .i64 then lane2w u r w d a b (· - ·) else lane2 u r w d a b fun x y => (subOf t x y, 0)) s

/-- ADDSAT (R229). -/
def execAddsat (h : Head) (t : SatTy) (d a b : Reg) (s : State) : Host.Outcome State Fault Refusal :=
  issue (.addsat h t d a b) h (fun u r w => lane2 u r w d a b fun x y => Res.sat (addsatOf t x y)) s

/-- SUBSAT (R229). -/
def execSubsat (h : Head) (t : SatTy) (d a b : Reg) (s : State) : Host.Outcome State Fault Refusal :=
  issue (.subsat h t d a b) h (fun u r w => lane2 u r w d a b fun x y => Res.sat (subsatOf t x y)) s

/-- MIN (R229). -/
def execMin (h : Head) (t : MinTy) (d a b : Reg) (s : State) : Host.Outcome State Fault Refusal :=
  issue (.min h t d a b) h (fun u r w =>
    if t = .i64 ∨ t = .n64 then lane2w u r w d a b (minWide t) else lane2 u r w d a b fun x y => (minOf t x y, 0)) s

/-- MAX (R229). -/
def execMax (h : Head) (t : MinTy) (d a b : Reg) (s : State) : Host.Outcome State Fault Refusal :=
  issue (.max h t d a b) h (fun u r w =>
    if t = .i64 ∨ t = .n64 then lane2w u r w d a b (maxWide t) else lane2 u r w d a b fun x y => (maxOf t x y, 0)) s

/-- ABS (R229). -/
def execAbs (h : Head) (t : AbsTy) (d a : Reg) (s : State) : Host.Outcome State Fault Refusal :=
  issue (.abs h t d a) h (fun u r w => lane1 u r w d a fun x => (absOf t x, 0)) s

/-- MUL (R230). -/
def execMul (h : Head) (d a b : Reg) (s : State) : Host.Outcome State Fault Refusal :=
  issue (.mul h d a b) h (fun u r w => lane2 u r w d a b fun x y => (x * y, 0)) s

/-- MULHI (R230). -/
def execMulhi (h : Head) (t : Sgn) (d a b : Reg) (s : State) : Host.Outcome State Fault Refusal :=
  issue (.mulhi h t d a b) h (fun u r w => lane2 u r w d a b fun x y =>
    (BitVec.ofInt 32 ((sgnVal t x * sgnVal t y) / 2 ^ 32), 0)) s

/-- MAD (R230). -/
def execMad (h : Head) (d a b c : Reg) (s : State) : Host.Outcome State Fault Refusal :=
  issue (.mad h d a b c) h (fun u r w => lane3 u r w d a b c fun x y z => (x * y + z, 0)) s

/-- MADW (R230). -/
def execMadw (h : Head) (t : Sgn) (d a b c : Reg) (s : State) : Host.Outcome State Fault Refusal :=
  issue (.madw h t d a b c) h (fun u r w => lanePair u w d fun p l =>
    BitVec.ofInt 64 (sgnVal t (u.read r p a l) * sgnVal t (u.read r p b l)) + u.read64 r p c l) s

/-- IDIV (R230). -/
def execIdiv (h : Head) (t : Sgn) (d a b : Reg) (s : State) : Host.Outcome State Fault Refusal :=
  issue (.idiv h t d a b) h (fun u r w => lane2 u r w d a b (idivOf t)) s

/-- IREM (R230). -/
def execIrem (h : Head) (t : Sgn) (d a b : Reg) (s : State) : Host.Outcome State Fault Refusal :=
  issue (.irem h t d a b) h (fun u r w => lane2 u r w d a b (iremOf t)) s

/-- DOT2 (R231). -/
def execDot2 (h : Head) (d a b c : Reg) (sat : Bool) (s : State) : Host.Outcome State Fault Refusal :=
  issue (.dot2 h d a b c sat) h (fun u r w => lane3 u r w d a b c fun x y z =>
    dotEnd sat false (z.toInt + (elem16 x 0).toInt * (elem16 y 0).toInt + (elem16 x 1).toInt * (elem16 y 1).toInt)) s

/-- DOT4 (R231). -/
def execDot4 (h : Head) (t : Dot4Ty) (d a b c : Reg) (sat : Bool) (s : State) : Host.Outcome State Fault Refusal :=
  issue (.dot4 h t d a b c sat) h (fun u r w => lane3 u r w d a b c fun x y z =>
    dotEnd sat (t == .n8) ((if t = .n8 then (z.toNat : Int) else z.toInt) + dot4Sum t x y)) s

/-- SAD (R231). -/
def execSad (h : Head) (d a b c : Reg) (s : State) : Host.Outcome State Fault Refusal :=
  issue (.sad h d a b c) h (fun u r w => lane3 u r w d a b c fun x y z => (z + BitVec.ofNat 32 (sadSum x y), 0)) s

end Sys2Proof.Machine
end

