-- ==== Sys2Proof/Machine/Bits.lean ====
section
/-! DEFINITION. LOP3 (R232), shifts and rotations (R233), bit fields (R234). -/

namespace Sys2Proof.Machine

/-- A 32-bit value from its bits. -/
def halfOfBits (f : Nat → Bool) : Half := lanesWhere f

/-- LOP3: bit i is the lut's bit at the selector of the three source bits, A least significant (R232). -/
def lop3Of (lut : BitVec 8) (a b c : Half) : Half :=
  halfOfBits fun i => lut.getLsbD ((a.getLsbD i).toNat + 2 * (b.getLsbD i).toNat + 4 * (c.getLsbD i).toNat)

/-- A left shift; 0 when the count reaches the width. -/
def shlOf {w : Nat} (a : BitVec w) (n : Nat) : BitVec w := if w ≤ n then 0 else a <<< n

/-- A logical right shift; 0 when the count reaches the width. -/
def shrOf {w : Nat} (a : BitVec w) (n : Nat) : BitVec w := if w ≤ n then 0 else a >>> n

/-- An arithmetic right shift; 0 or all ones when the count reaches the width. -/
def sarOf {w : Nat} (a : BitVec w) (n : Nat) : BitVec w :=
  if w ≤ n then (if a.toInt < 0 then BitVec.allOnes w else 0) else a.sshiftRight n

/-- FSH: the funnel shift of a × 2^32 + b (R233). -/
def fshOf (right : Bool) (a b c : Half) : Half :=
  let k := c.toNat % 32
  let x := a.toNat * 2 ^ 32 + b.toNat
  if right then BitVec.ofNat 32 (x / 2 ^ k) else BitVec.ofNat 32 (x * 2 ^ k / 2 ^ 32)

/-- A quotient by a power of two rounded to nearest, ties to even. -/
def divRne (v : Int) (n : Nat) : Int :=
  let q := v / 2 ^ n
  let r := v % 2 ^ n
  if n = 0 then v
  else if r < 2 ^ (n - 1) then q
  else if 2 ^ (n - 1) < r then q + 1
  else if q % 2 = 0 then q else q + 1

/-- SHRR (R233). -/
def shrrOf (a : Half) (n : Nat) : Half := if 32 ≤ n then 0 else BitVec.ofInt 32 (divRne a.toInt n)

/-- BFX (R234). -/
def bfxOf (t : Sgn) (a b c : Half) : Half :=
  let p := b.toNat % 256
  let k := c.toNat % 256
  if 32 ≤ p ∨ k = 0 then 0
  else
    let k := Nat.min k (32 - p)
    let x := a.toNat / 2 ^ p % 2 ^ k
    if t = .i32 ∧ 2 ^ (k - 1) ≤ x then BitVec.ofInt 32 ((x : Int) - 2 ^ k) else BitVec.ofNat 32 x

/-- BFI (R234). -/
def bfiOf (a b c : Half) : Half :=
  let p := c.toNat % 256
  let k := c.toNat / 256 % 256
  if 32 ≤ p ∨ k = 0 then a
  else
    let k := Nat.min k (32 - p)
    let m := (2 ^ k - 1) * 2 ^ p
    (a &&& ~~~(BitVec.ofNat 32 m)) ||| BitVec.ofNat 32 (b.toNat % 2 ^ k * 2 ^ p)

/-- The number of set bits. -/
def popcOf (a : Half) : Nat := ((List.range 32).filter fun i => a.getLsbD i).length
/-- The number of leading zero bits. -/
def clzOf (a : Half) : Nat := ((List.range 32).find? fun i => a.getLsbD (31 - i)).getD 32
/-- The bits in reversed order. -/
def brevOf (a : Half) : Half := halfOfBits fun i => a.getLsbD (31 - i)
/-- The index of the lowest set bit, all ones for 0. -/
def ffsOf (a : Half) : Half :=
  match (List.range 32).find? fun i => a.getLsbD i with
  | some i => BitVec.ofNat 32 i
  | none => BitVec.allOnes 32

/-! ## Instructions -/

/-- LOP3 (R232). -/
def execLop3 (h : Head) (d a b c : Reg) (lut : BitVec 8) (s : State) : Host.Outcome State Fault Refusal :=
  issue (.lop3 h d a b c lut) h (fun u r w => lane3 u r w d a b c fun x y z => (lop3Of lut x y z, 0)) s

/-- SHL (R233). -/
def execShl (h : Head) (wide : Bool) (d a b : Reg) (s : State) : Host.Outcome State Fault Refusal :=
  issue (.shl h wide d a b) h (fun u r w =>
    if wide then lanePair u w d fun p l => shlOf (u.read64 r p a l) (u.read r p b l).toNat
    else lane2 u r w d a b fun x n => (shlOf x n.toNat, 0)) s

/-- SHR (R233). -/
def execShr (h : Head) (t : ShrTy) (d a b : Reg) (s : State) : Host.Outcome State Fault Refusal :=
  issue (.shr h t d a b) h (fun u r w =>
    match t with
    | .n32 => lane2 u r w d a b fun x n => (shrOf x n.toNat, 0)
    | .i32 => lane2 u r w d a b fun x n => (sarOf x n.toNat, 0)
    | .n64 => lanePair u w d fun p l => shrOf (u.read64 r p a l) (u.read r p b l).toNat
    | .i64 => lanePair u w d fun p l => sarOf (u.read64 r p a l) (u.read r p b l).toNat) s

/-- ROT (R233). -/
def execRot (h : Head) (d a b : Reg) (s : State) : Host.Outcome State Fault Refusal :=
  issue (.rot h d a b) h (fun u r w => lane2 u r w d a b fun x n => (x.rotateLeft (n.toNat % 32), 0)) s

/-- FSH (R233). -/
def execFsh (h : Head) (d a b c : Reg) (right : Bool) (s : State) : Host.Outcome State Fault Refusal :=
  issue (.fsh h d a b c right) h (fun u r w => lane3 u r w d a b c fun x y z => (fshOf right x y z, 0)) s

/-- SHRR (R233). -/
def execShrr (h : Head) (d a b : Reg) (s : State) : Host.Outcome State Fault Refusal :=
  issue (.shrr h d a b) h (fun u r w => lane2 u r w d a b fun x n => (shrrOf x n.toNat, 0)) s

/-- BFX (R234). -/
def execBfx (h : Head) (t : Sgn) (d a b c : Reg) (s : State) : Host.Outcome State Fault Refusal :=
  issue (.bfx h t d a b c) h (fun u r w => lane3 u r w d a b c fun x y z => (bfxOf t x y z, 0)) s

/-- BFI (R234). -/
def execBfi (h : Head) (d a b c : Reg) (s : State) : Host.Outcome State Fault Refusal :=
  issue (.bfi h d a b c) h (fun u r w => lane3 u r w d a b c fun x y z => (bfiOf x y z, 0)) s

/-- POPC (R234). -/
def execPopc (h : Head) (d a : Reg) (s : State) : Host.Outcome State Fault Refusal :=
  issue (.popc h d a) h (fun u r w => lane1 u r w d a fun x => (BitVec.ofNat 32 (popcOf x), 0)) s

/-- CLZ (R234). -/
def execClz (h : Head) (d a : Reg) (s : State) : Host.Outcome State Fault Refusal :=
  issue (.clz h d a) h (fun u r w => lane1 u r w d a fun x => (BitVec.ofNat 32 (clzOf x), 0)) s

/-- BREV (R234). -/
def execBrev (h : Head) (d a : Reg) (s : State) : Host.Outcome State Fault Refusal :=
  issue (.brev h d a) h (fun u r w => lane1 u r w d a fun x => (brevOf x, 0)) s

/-- FFS (R234). -/
def execFfs (h : Head) (d a : Reg) (s : State) : Host.Outcome State Fault Refusal :=
  issue (.ffs h d a) h (fun u r w => lane1 u r w d a fun x => (ffsOf x, 0)) s

end Sys2Proof.Machine
end

