-- ==== Sys2Proof/Machine/Numbers.lean ====
section
/-! DEFINITION. Number formats and arithmetic: float formats (R168, R170), rounding and special values (R174-R176),
narrowing (R177, R178), block scales (R171, R179), OI4 blocks (R172), fixed point (R173). -/

namespace Sys2Proof.Machine

/-! ## Formats -/

/-- A float format: exponent and mantissa widths, bias, whether it has infinities, and whether it has NaNs (R168). -/
structure Fmt where
  eb   : Nat
  mb   : Nat
  bias : Nat
  inf  : Bool
  nan  : Bool
  deriving DecidableEq, Repr

def Fmt.f32 : Fmt := ⟨8, 23, 127, true, true⟩
def Fmt.f16 : Fmt := ⟨5, 10, 15, true, true⟩
def Fmt.bf16 : Fmt := ⟨8, 7, 127, true, true⟩
def Fmt.e5m2 : Fmt := ⟨5, 2, 15, true, true⟩
def Fmt.e4m3 : Fmt := ⟨4, 3, 7, false, true⟩
def Fmt.e3m2 : Fmt := ⟨3, 2, 3, false, false⟩
def Fmt.e2m3 : Fmt := ⟨2, 3, 1, false, false⟩
def Fmt.e2m1 : Fmt := ⟨2, 1, 1, false, false⟩

/-- The float format of a code 0-7 (R168). -/
def Fmt.ofCode (n : Nat) : Option Fmt :=
  match n with
  | 0 => some .f32 | 1 => some .f16 | 2 => some .bf16 | 3 => some .e5m2
  | 4 => some .e4m3 | 5 => some .e3m2 | 6 => some .e2m3 | 7 => some .e2m1
  | _ => none

/-- Whether fmt.flush applies to a format (R175). -/
def Fmt.wide (f : Fmt) : Bool := f == .f32 || f == .f16 || f == .bf16

/-- The largest finite magnitude as an encoding (R168). -/
def Fmt.maxCode (f : Fmt) : Nat :=
  if f.inf then (2 ^ f.eb - 1) * 2 ^ f.mb - 1 else if f.nan then 2 ^ (f.eb + f.mb) - 2 else 2 ^ (f.eb + f.mb) - 1

/-- The encoding of +infinity. -/
def Fmt.infCode (f : Fmt) : Nat := (2 ^ f.eb - 1) * 2 ^ f.mb

/-- The canonical quiet NaN (R170). -/
def Fmt.nanCode (f : Fmt) : Nat := if f.inf then f.infCode + 2 ^ (f.mb - 1) else 2 ^ (f.eb + f.mb) - 1

/-- An encoding with its sign. -/
def Fmt.signed (f : Fmt) (neg : Bool) (c : Nat) : Nat := (if neg then 2 ^ (f.eb + f.mb) else 0) + c

/-- A float value: a NaN (signalling or not), an infinity, or (-1)^neg × m × 2^e. -/
inductive FV where
  | nan (sig : Bool)
  | inf (neg : Bool)
  | fin (neg : Bool) (m : Nat) (e : Int)
  deriving DecidableEq, Repr

/-- The value an encoding stands for (R168, R170). -/
def Fmt.decode (f : Fmt) (x : Nat) : FV :=
  let neg := x / 2 ^ (f.eb + f.mb) % 2 == 1
  let e := x / 2 ^ f.mb % 2 ^ f.eb
  let m := x % 2 ^ f.mb
  if f.inf && e == 2 ^ f.eb - 1 then (if m = 0 then .inf neg else .nan (decide (m < 2 ^ (f.mb - 1))))
  else if f.nan && !f.inf && x % 2 ^ (f.eb + f.mb) == 2 ^ (f.eb + f.mb) - 1 then .nan false
  else if e = 0 then .fin neg m (1 - (f.bias : Int) - f.mb)
  else .fin neg (2 ^ f.mb + m) ((e : Int) - f.bias - f.mb)

/-- A float operand, with subnormals read as zeros under fmt.flush (R175). -/
def Fmt.read (f : Fmt) (flush : Bool) (x : Nat) : FV :=
  let x1 := if flush && f.wide && x / 2 ^ f.mb % 2 ^ f.eb == 0 then x - x % 2 ^ f.mb else x
  f.decode x1

/-! ## Rounding -/

/-- A rounding mode (R174). -/
inductive Rnd where
  | rne | rz | ru | rd
  deriving DecidableEq, Repr

/-- The mode of a two-bit field (R174). -/
def Rnd.of (n : Nat) : Rnd := if n = 1 then .rz else if n = 2 then .ru else if n = 3 then .rd else .rne

/-- A magnitude divided by 2^n and rounded to an integer. -/
def Rnd.shift (r : Rnd) (neg : Bool) (m n : Nat) : Nat :=
  let q := m / 2 ^ n
  let rem := m % 2 ^ n
  let up := match r with
    | .rne => decide (2 ^ n < 2 * rem) || (decide (2 * rem = 2 ^ n) && q % 2 == 1)
    | .rz => false
    | .ru => !neg && rem != 0
    | .rd => neg && rem != 0
  if up then q + 1 else q

/-- The magnitude m × 2^e, m not 0, rounded to a format: an encoding without sign, which exceeds `maxCode` when the
rounded value does. -/
def Fmt.roundMag (f : Fmt) (r : Rnd) (neg : Bool) (m : Nat) (e : Int) : Nat :=
  let top : Int := (Nat.log2 m : Int) + e
  let emin : Int := 1 - (f.bias : Int)
  let q : Int := (if top < emin then emin else top) - f.mb
  let n := if q ≤ e then m * 2 ^ (e - q).toNat else r.shift neg m (q - e).toNat
  if top < emin then n else ((top - emin).toNat) * 2 ^ f.mb + n

/-- The result of rounding an exact value to F32, F16 or BF16 (R174-R176): encoding and status. -/
def Fmt.round (f : Fmt) (r : Rnd) (flush : Bool) (v : FV) : Nat × Half :=
  match v with
  | .nan _ => (f.nanCode, 0)
  | .inf neg => (f.signed neg f.infCode, 0)
  | .fin neg m e =>
    if m = 0 then (f.signed neg 0, 0)
    else
      let c := f.roundMag r neg m e
      if f.maxCode < c then
        let toInf := match r with
          | .rne => true
          | .rz => false
          | .ru => !neg
          | .rd => neg
        (f.signed neg (if toInf then f.infCode else f.maxCode), fstOverflow)
      else if flush && f.wide && decide (c < 2 ^ f.mb) then (f.signed neg 0, 0)
      else (f.signed neg c, 0)

/-! ## Exact operations -/

/-- Whether a value is a signalling NaN. -/
def FV.sig : FV → Bool
  | .nan s => s
  | _ => false

/-- Whether a value is a NaN. -/
def FV.isNan : FV → Bool
  | .nan _ => true
  | _ => false

/-- The value with its sign changed. -/
def FV.negate : FV → FV
  | .nan s => .nan s
  | .inf n => .inf !n
  | .fin n m e => .fin (!n) m e

/-- The signed integer a finite value is in units of 2^q, q at most its exponent. -/
def fixAt (q : Int) (neg : Bool) (m : Nat) (e : Int) : Int :=
  let x : Int := (m * 2 ^ (e - q).toNat : Nat)
  if neg then -x else x

/-- The exact product and whether the operation is invalid (R176, R253). -/
def FV.mul (x y : FV) : FV × Bool :=
  match x, y with
  | .nan a, .nan b => (.nan false, a || b)
  | .nan a, _ => (.nan false, a)
  | _, .nan b => (.nan false, b)
  | .inf a, .inf b => (.inf (a != b), false)
  | .inf a, .fin b m _ => if m = 0 then (.nan false, true) else (.inf (a != b), false)
  | .fin a m _, .inf b => if m = 0 then (.nan false, true) else (.inf (a != b), false)
  | .fin a m e, .fin b n g => (.fin (a != b) (m * n) (e + g), false)

/-- The exact sum and whether the operation is invalid; the sign of a zero sum follows R253. -/
def FV.add (r : Rnd) (x y : FV) : FV × Bool :=
  match x, y with
  | .nan a, .nan b => (.nan false, a || b)
  | .nan a, _ => (.nan false, a)
  | _, .nan b => (.nan false, b)
  | .inf a, .inf b => if a = b then (.inf a, false) else (.nan false, true)
  | .inf a, .fin _ _ _ => (.inf a, false)
  | .fin _ _ _, .inf b => (.inf b, false)
  | .fin a m e, .fin b n g =>
    let q := if e ≤ g then e else g
    let v := fixAt q a m e + fixAt q b n g
    if v = 0 then (.fin (if m = 0 ∧ n = 0 ∧ a = b then a else r == .rd) 0 0, false)
    else (.fin (decide (v < 0)) v.natAbs q, false)

/-- The exact sum of terms as R184 gives it: NaN with infinities of both signs, which is invalid (R176), or a NaN term,
else an infinity, else the finite sum; an exact zero is +0 unless every term is -0; no terms give -0. -/
def FV.sum (ts : List FV) : FV × Bool :=
  if ts.contains (.inf true) && ts.contains (.inf false) then (.nan false, true)
  else if ts.any FV.isNan then (.nan false, false)
  else if ts.contains (.inf true) then (.inf true, false)
  else if ts.contains (.inf false) then (.inf false, false)
  else
    let q := ts.foldl (fun q t => match t with
      | .fin _ _ e => if e < q then e else q
      | _ => q) (0 : Int)
    let v := ts.foldl (fun acc t => match t with
      | .fin n m e => acc + fixAt q n m e
      | _ => acc) (0 : Int)
    let allNeg := ts.all fun t => match t with
      | .fin n m _ => n && m == 0
      | _ => false
    if v = 0 then (.fin allNeg 0 0, false) else (.fin (decide (v < 0)) v.natAbs q, false)

/-! ## Operations on encodings -/

/-- Status of an operation whose exact value may be invalid. -/
def withInvalid (b : Bool) (x : Nat × Half) : Nat × Half := (x.1, x.2 ||| flagIf b fstInvalid)

/-- FADD (R253). -/
def Fmt.add (f : Fmt) (r : Rnd) (flush : Bool) (a b : Nat) : Nat × Half :=
  let v := (f.read flush a).add r (f.read flush b)
  withInvalid v.2 (f.round r flush v.1)

/-- FSUB (R253). -/
def Fmt.sub (f : Fmt) (r : Rnd) (flush : Bool) (a b : Nat) : Nat × Half :=
  let v := (f.read flush a).add r (f.read flush b).negate
  withInvalid v.2 (f.round r flush v.1)

/-- FMUL (R253). -/
def Fmt.mul (f : Fmt) (r : Rnd) (flush : Bool) (a b : Nat) : Nat × Half :=
  let v := (f.read flush a).mul (f.read flush b)
  withInvalid v.2 (f.round r flush v.1)

/-- The exact value of x × y + z, with no rounding of the product (R253). -/
def FV.fma (r : Rnd) (x y z : FV) : FV × Bool :=
  let p := x.mul y
  let v := p.1.add r z
  (v.1, p.2 || v.2)

/-- FFMA (R253). -/
def Fmt.fma (f : Fmt) (r : Rnd) (flush : Bool) (a b c : Nat) : Nat × Half :=
  let v := FV.fma r (f.read flush a) (f.read flush b) (f.read flush c)
  withInvalid v.2 (f.round r flush v.1)

/-- An order key of a value that is no NaN: sign-magnitude comparison of m × 2^e. -/
def FV.lt (x y : FV) : Bool :=
  match x, y with
  | .nan _, _ | _, .nan _ => false
  | .inf a, .inf b => a && !b
  | .inf a, .fin _ _ _ => a
  | .fin _ _ _, .inf b => !b
  | .fin a m e, .fin b n g =>
    let q := if e ≤ g then e else g
    decide (fixAt q a m e < fixAt q b n g)

/-- Whether two values that are no NaN are equal numbers. -/
def FV.eqv (x y : FV) : Bool := !x.isNan && !y.isNan && !x.lt y && !y.lt x

/-- Whether the sign of a value is negative. -/
def FV.neg : FV → Bool
  | .nan _ => false
  | .inf n => n
  | .fin n _ _ => n

/-- Whether x comes before y in the order of FMIN: by value, -0 below +0 (R255). -/
def FV.before (x y : FV) : Bool := x.lt y || (!y.lt x && x.neg && !y.neg)

/-- FMIN or FMAX of two encodings (R255); the result is one of the inputs, flushed. -/
def Fmt.pick (f : Fmt) (isMax flush : Bool) (a b : Nat) : Nat × Half :=
  let x := f.read flush a
  let y := f.read flush b
  let out := fun v => (f.round .rne flush v).1
  let st := flagIf (x.sig || y.sig) fstInvalid
  if x.isNan && y.isNan then (f.nanCode, st)
  else if x.isNan then (out y, st)
  else if y.isNan then (out x, st)
  else (out (if x.before y != isMax then x else y), st)

/-! ## Narrowing and integers -/

/-- A float value narrowed to a format (R177). F16 and BF16 round in the mode, the others RNE. With satnarrow an overflow clamps and
sets overflow and sat, as the table says, in a mode too that gives the largest finite value itself (DEDUCED, log 27). -/
def Fmt.narrow (f : Fmt) (r : Rnd) (flush satn : Bool) (v : FV) : Nat × Half :=
  let clamp := f.maxCode
  match v with
  | .nan s =>
    if f.nan then (f.nanCode, flagIf s fstInvalid) else (0, fstInvalid)
  | .inf neg =>
    if f.inf then (f.signed neg f.infCode, 0)
    else if f.nan && !satn then (f.nanCode, fstInvalid)
    else (f.signed neg clamp, fstSat)
  | .fin neg m e =>
    if m = 0 then (f.signed neg 0, 0)
    else
      let rm := if f.wide then r else .rne
      let c := f.roundMag rm neg m e
      if clamp < c then
        if f.inf then
          (if satn then (f.signed neg clamp, fstOverflow ||| fstSat) else f.round rm flush v)
        else if f.nan && !satn then (f.nanCode, fstOverflow)
        else (f.signed neg clamp, fstOverflow ||| fstSat)
      else f.round rm flush v

/-- A finite value rounded to an integer in a mode. -/
def roundInt (r : Rnd) (neg : Bool) (m : Nat) (e : Int) : Int :=
  let n : Nat := if 0 ≤ e then m * 2 ^ e.toNat else r.shift neg m (-e).toNat
  if neg then -(n : Int) else n

/-- A float value converted to an integer of a range (R178). Values above 2^200 are outside every range. -/
def toIntRange (r : Rnd) (lo hi : Int) (v : FV) : Int × Half :=
  match v with
  | .nan _ => (0, fstInvalid)
  | .inf neg => (if neg then lo else hi, fstInvalid)
  | .fin neg m e =>
    let x := clampInt lo hi (roundInt r neg m e)
    (x.1, flagIf x.2 fstInvalid)

/-- An integer as a value. -/
def FV.ofInt (v : Int) : FV := .fin (decide (v < 0)) v.natAbs 0

/-- A fixed-point result: v × 2^q rounded to an integer, ties to even, and saturated (R173). -/
def fixedResult (w q : Nat) (v : FV) : Int × Half :=
  let lo : Int := -(2 ^ (w - 1) : Nat)
  let hi : Int := (2 ^ (w - 1) : Nat) - 1
  match v with
  | .nan _ => (0, fstInvalid)
  | .inf neg => (if neg then lo else hi, fstSat)
  | .fin neg m e =>
    let x := clampInt lo hi (roundInt .rne neg m (e + q))
    (x.1, flagIf x.2 fstSat)

/-! ## Block scales and OI4 -/

/-- A value times an E8M0 scale; 0xFF stands for NaN (R171). -/
def FV.scale (v : FV) (c : Nat) : FV :=
  if c = 255 then .nan false
  else match v with
    | .fin n m e => .fin n m (e + c - 127)
    | x => x

/-- The exponent R179 names for a target format. -/
def emaxOf (code : Nat) : Option Nat :=
  match code with
  | 3 | 1 => some 15
  | 4 => some 8
  | 5 => some 4
  | 6 | 7 | 13 => some 2
  | 2 => some 127
  | _ => none

/-- floor(log2 |v|) of a finite value that is not 0. -/
def FV.log2 : FV → Int
  | .fin _ m e => (Nat.log2 m : Int) + e
  | _ => 0

/-- Whether a value is zero. -/
def FV.isZero : FV → Bool
  | .fin _ m _ => m == 0
  | _ => false

/-- The block scale of values for a target (R179). -/
def scaleCode (emax : Nat) (xs : List FV) : Nat :=
  if xs.any fun x => match x with
      | .fin _ _ _ => false
      | _ => true
  then 255
  else match (xs.filter fun x => !x.isZero).map FV.log2 with
    | [] => 127
    | l :: ls =>
      let top := ls.foldl (fun a b => if a < b then b else a) l
      (clampInt 0 254 (top - emax + 127)).1.toNat

/-- Nibble `i` of bytes: low nibble for even i (R169). -/
def nibble (bs : List Byte) (i : Nat) : Nat := ((bs.getD (i / 2) 0).toNat / 16 ^ (i % 2)) % 16

/-- The outlier markers of an OI4 block: elements claimed by a marker, markers with their tail slot, and whether a
third marker was met (R172, pass 1). -/
def oi4Markers (bs : List Byte) : List Nat × List (Nat × Nat) × Bool :=
  let r := (List.range 32).foldl (fun (st : List Nat × List (Nat × Nat) × Nat) i =>
    if st.1.contains i || nibble bs i != 8 then st
    else if st.2.2 < 2 then (st.1 ++ [Nat.xor i 1], st.2.1 ++ [(i, st.2.2)], st.2.2 + 1)
    else (st.1, st.2.1, st.2.2 + 1)) ([], [], 0)
  (r.1, r.2.1, decide (2 < r.2.2))

/-- The 32 values of an OI4 block of 18 bytes and whether fst.format is set (R171, R172). -/
def oi4Decode (bs : List Byte) : List FV × Bool :=
  let c := (bs.getD 16 0).toNat
  let tail := (bs.getD 17 0).toNat
  let (claimed, slots, bad) := oi4Markers bs
  let val := fun i =>
    let n := nibble bs i
    if claimed.contains i then FV.fin false 0 0
    else if n != 8 then FV.fin (decide (8 ≤ n)) (if 8 ≤ n then 16 - n else n) 0
    else match slots.find? fun x => x.1 == i with
      | none => FV.fin false 0 0
      | some (_, k) => Fmt.e4m3.decode (nibble bs (Nat.xor i 1) * 16 + tail / 16 ^ k % 16)
  ((List.range 32).map fun i => (val i).scale c, bad || c == 255)

/-! ## fmt fields (R180) -/

/-- A field of fmt. -/
def fmtField (fmt : Half) (lo w : Nat) : Nat := fmt.toNat / 2 ^ lo % 2 ^ w
def fmtQD (fmt : Half) : Nat := fmtField fmt 26 4
def fmtQB (fmt : Half) : Nat := fmtField fmt 22 4
def fmtQA (fmt : Half) : Nat := fmtField fmt 18 4
def fmtSat (fmt : Half) : Bool := fmtField fmt 17 1 == 1
def fmtFlush (fmt : Half) : Bool := fmtField fmt 16 1 == 1
def fmtRnd (fmt : Half) : Rnd := Rnd.of (fmtField fmt 14 2)
def fmtBsm (fmt : Half) : Nat := fmtField fmt 12 2
def fmtD (fmt : Half) : Nat := fmtField fmt 8 4
def fmtB (fmt : Half) : Nat := fmtField fmt 4 4
def fmtA (fmt : Half) : Nat := fmtField fmt 0 4

/-- The mode of an instruction with a rounding field (R252). -/
def rmOf (rm : Rm) (fmt : Half) : Rnd :=
  match rm with
  | .fmt => fmtRnd fmt
  | .rne => .rne
  | .rz => .rz
  | .ru => .ru
  | .rd => .rd

/-- The pairwise tree of R187 over elements, absent ones standing for the identity; `fuel` levels. -/
def treeFold (f : Half → Half → Half × Half) : (fuel : Nat) → List (Option Half) → Option Half × Half
  | 0, xs => (xs.headD none, 0)
  | n + 1, xs =>
    match xs with
    | [] => (none, 0)
    | [x] => (x, 0)
    | xs =>
      let step := fun (i : Nat) => match xs.getD (2 * i) none, xs.getD (2 * i + 1) none with
        | some a, some b => let r := f a b; (some r.1, r.2)
        | some a, none => (some a, 0)
        | none, b => (b, 0)
      let rs := (List.range ((xs.length + 1) / 2)).map step
      let st := rs.foldl (fun acc r => acc ||| r.2) (0 : Half)
      let rest := treeFold f n (rs.map (·.1))
      (rest.1, st ||| rest.2)

/-- A list padded to the smallest power of two at least its length (R187). -/
def padPow2 {α : Type} (x : α) (xs : List α) : List α :=
  xs ++ List.replicate (2 ^ clog2 64 xs.length - xs.length) x

/-- A value of an encoding of 32 bits. -/
def halfOf (x : Nat × Half) : Res := (BitVec.ofNat 32 x.1, x.2)

end Sys2Proof.Machine
end

