-- ==== Sys2Proof/Machine/Approx.lean ====
section
/-! DEFINITION. The approximate functions FRSQ, FEXP2, FLOG2, FSIN, FCOS, FTANH (R258): the exact value to more than
forty bits past F32, and the candidate of Config kept where it lies within the bound of R258 (DESIGN CHOICE, log 12). -/

namespace Sys2Proof.Machine

/-- Fraction bits of the fixed-point values below. -/
def fxBits : Nat := 160

/-- The product of two fixed-point values. -/
def fxMul (a b : Int) : Int := a * b / 2 ^ fxBits

/-- ln 2 in fixed point. -/
def fxLn2 : Int := 0xb17217f7d1cf79abc9e3b39803f2f6af40f34326

/-- 2π with 320 fraction bits. -/
def tau320 : Int := 0x6487ed5110b4611a62633145c06e0e68948127044533e63a0105df531d89cd9128a5043cc71a026ef

/-- exp of a fixed-point value of magnitude at most 1, by its series. -/
def fxExp (x : Int) : Int :=
  ((List.range 48).foldl (fun (st : Int × Int) (k : Nat) =>
    let t := fxMul st.2 x / ((k : Int) + 1)
    (st.1 + t, t)) (2 ^ fxBits, 2 ^ fxBits)).1

/-- The series of 2 atanh z of a fixed-point value of magnitude at most 1/3. -/
def fxLog (z : Int) : Int :=
  let z2 := fxMul z z
  2 * ((List.range 60).foldl (fun (st : Int × Int) (k : Nat) => (st.1 + st.2 / (2 * (k : Int) + 1), fxMul st.2 z2)) (0, z)).1

/-- The series of sine (first 1) or cosine (first 0) of a fixed-point value. -/
def fxTrig (first : Nat) (x : Int) : Int :=
  let x2 := fxMul x x
  let t0 : Int := if first = 1 then x else 2 ^ fxBits
  ((List.range 60).foldl (fun (st : Int × Int) (k : Nat) =>
    let n : Int := 2 * k + first
    let t := -(fxMul st.2 x2) / ((n + 1) * (n + 2))
    (st.1 + t, t)) (t0, t0)).1

/-- A square root rounded down, bit by bit. -/
def isqrtGo (n : Nat) : (bit : Nat) → (acc : Nat) → Nat
  | 0, acc => if (acc + 1) * (acc + 1) ≤ n then acc + 1 else acc
  | b + 1, acc => isqrtGo n b (if (acc + 2 ^ (b + 1)) * (acc + 2 ^ (b + 1)) ≤ n then acc + 2 ^ (b + 1) else acc)

/-- The square root of a number rounded down. -/
def isqrt (n : Nat) : Nat := isqrtGo n (Nat.log2 n / 2 + 1) 0

/-- A signed fixed-point value as a float value. -/
def FV.ofFx (v : Int) : FV := .fin (decide (v < 0)) v.natAbs (-(fxBits : Int))

/-- 1/√(m 2^e). -/
def rsqVal (m : Nat) (e : Int) : FV :=
  let m1 := if e % 2 = 0 then m else 2 * m
  let e1 := if e % 2 = 0 then e else e - 1
  .fin false (isqrt (2 ^ 400 / m1)) (-200 - e1 / 2)

/-- x in fixed point with k fraction bits. -/
def toFx (k : Nat) (neg : Bool) (m : Nat) (e : Int) : Int :=
  let s : Int := e + k
  let v : Int := if 0 ≤ s then ((m * 2 ^ s.toNat : Nat) : Int) else ((m / 2 ^ (-s).toNat : Nat) : Int)
  if neg then -v else v

/-- 2^x for |x| below 2^12. -/
def exp2Val (neg : Bool) (m : Nat) (e : Int) : FV :=
  let x := toFx fxBits neg m e
  let n := x / 2 ^ fxBits
  let f := x % 2 ^ fxBits
  .fin false (fxExp (fxMul f fxLn2)).natAbs (n - fxBits)

/-- log2 of m 2^e. -/
def log2Val (m : Nat) (e : Int) : FV :=
  let t := Nat.log2 m
  let t1 := if 3 * 2 ^ t < 2 * m then t + 1 else t
  let z := ((m : Int) - 2 ^ t1) * 2 ^ fxBits / ((m : Int) + 2 ^ t1)
  FV.ofFx (fxLog z * 2 ^ fxBits / fxLn2 + ((t1 : Int) + e) * 2 ^ fxBits)

/-- The argument reduced to [-π, π], in fixed point. -/
def trigArg (neg : Bool) (m : Nat) (e : Int) : Int :=
  let x := toFx 320 neg m e % tau320
  (if tau320 < 2 * x then x - tau320 else x) / 2 ^ (320 - fxBits)

/-- The hyperbolic tangent. -/
def tanhVal (neg : Bool) (m : Nat) (e : Int) : FV :=
  if (Nat.log2 m : Int) + e < -11 then
    .fin neg ((3 * m * 2 ^ (-2 * e).toNat - m * m * m) * 2 ^ 64 / 3) (3 * e - 64)
  else
    let x := toFx fxBits false m e
    let y := if 100 * 2 ^ fxBits < x then 100 * 2 ^ fxBits else x
    let n := 2 * y / fxLn2
    let ex := fxExp (2 * y - n * fxLn2) * 2 ^ n.toNat
    let v := 2 ^ fxBits - 2 * 2 ^ (2 * fxBits) / (ex + 2 ^ fxBits)
    FV.ofFx (if neg then -v else v)

/-- Whether an F32 encoding lies within 2 ulp of an exact value, or within 2^-22 where `abs22` allows it (R258). -/
def withinUlp (abs22 : Bool) (c : Nat) (v : FV) : Bool :=
  match Fmt.f32.decode c, v with
  | .fin a n g, .fin b m e =>
    let top : Int := (Nat.log2 m : Int) + e
    let ue : Int := (if top < -126 then -126 else top) - 22
    let be : Int := if abs22 && decide (ue < -22) then -22 else ue
    let q : Int := Min.min (Min.min g e) be
    decide ((fixAt q a n g - fixAt q b m e).natAbs ≤ 2 ^ (be - q).toNat)
  | _, _ => false

/-- The result of an approximate function of an exact finite value: the candidate where it lies within the bound, else
the rounded value; flushed (R175, R258). -/
def approxEnd (fn : Nat) (abs22 flush : Bool) (arg : Half) (v : FV) : Res :=
  let exact := Fmt.f32.round .rne flush v
  if exact.2 != 0 then halfOf exact
  else
    let c := (Config.approx fn arg flush).toNat
    let sub := decide (c % 2 ^ 31 < 2 ^ 23)
    let c1 := if withinUlp abs22 c v then (if flush && sub then c - c % 2 ^ 31 else c) else exact.1
    (BitVec.ofNat 32 c1, 0)

/-- A result that is exact. -/
def exactEnd (flush : Bool) (v : FV) : Res := halfOf (Fmt.f32.round .rne flush v)

/-- Canonical NaN with invalid under a condition. -/
def nanEnd (bad : Bool) : Res := (0x7FC00000#32, flagIf bad fstInvalid)

/-- The exponent k when m 2^e is 2^k. -/
def pow2Of (m : Nat) (e : Int) : Option Int := if m = 2 ^ Nat.log2 m then some ((Nat.log2 m : Int) + e) else none

/-- FRSQ (R258). -/
def frsqOf (flush : Bool) (x : Half) : Res :=
  match Fmt.f32.read flush x.toNat with
  | .nan s => nanEnd s
  | .inf neg => if neg then nanEnd true else (0, 0)
  | .fin neg m e =>
    if m = 0 then exactEnd flush (.inf neg) else if neg then nanEnd true else approxEnd 0 false flush x (rsqVal m e)

/-- FEXP2 (R258). -/
def fexp2Of (flush : Bool) (x : Half) : Res :=
  match Fmt.f32.read flush x.toNat with
  | .nan s => nanEnd s
  | .inf neg => if neg then (0, 0) else exactEnd flush (.inf false)
  | .fin neg m e =>
    let n := toFx 0 neg m e
    if m != 0 && 12 ≤ (Nat.log2 m : Int) + e then
      (if neg then approxEnd 1 false flush x (.fin false 1 (-4096)) else (0x7F800000#32, fstOverflow))
    else if decide (fixAt e neg m e = n * 2 ^ (-e).toNat) && decide (-149 ≤ n ∧ n ≤ 127) then
      exactEnd flush (.fin false 1 n)
    else
      let r := approxEnd 1 false flush x (exp2Val neg m e)
      r

/-- FLOG2 (R258). -/
def flog2Of (flush : Bool) (x : Half) : Res :=
  match Fmt.f32.read flush x.toNat with
  | .nan s => nanEnd s
  | .inf neg => if neg then nanEnd true else exactEnd flush (.inf false)
  | .fin neg m e =>
    if m = 0 then exactEnd flush (.inf true)
    else if neg then nanEnd true
    else match pow2Of m e with
      | some k => exactEnd flush (FV.ofInt k)
      | none => approxEnd 2 false flush x (log2Val m e)

/-- FSIN (R258). -/
def fsinOf (flush : Bool) (x : Half) : Res :=
  match Fmt.f32.read flush x.toNat with
  | .nan s => nanEnd s
  | .inf _ => nanEnd true
  | .fin neg m e =>
    if m = 0 then exactEnd flush (.fin neg 0 0)
    else approxEnd 3 true flush x (FV.ofFx (fxTrig 1 (trigArg neg m e)))

/-- FCOS (R258). -/
def fcosOf (flush : Bool) (x : Half) : Res :=
  match Fmt.f32.read flush x.toNat with
  | .nan s => nanEnd s
  | .inf _ => nanEnd true
  | .fin neg m e =>
    if m = 0 then (0x3F800000#32, 0) else approxEnd 4 true flush x (FV.ofFx (fxTrig 0 (trigArg neg m e)))

/-- FTANH (R258). -/
def ftanhOf (flush : Bool) (x : Half) : Res :=
  match Fmt.f32.read flush x.toNat with
  | .nan s => nanEnd s
  | .inf neg => ((if neg then 0xBF800000#32 else 0x3F800000#32), 0)
  | .fin neg m e =>
    if m = 0 then exactEnd flush (.fin neg 0 0) else approxEnd 5 false flush x (tanhVal neg m e)

end Sys2Proof.Machine
end

