-- ==== Sys2Proof/Machine/Preds.lean ====
section
/-! DEFINITION. Compares, predicates, moves, LEA and packing (R235-R239). -/

namespace Sys2Proof.Machine

/-- A condition on two integers (R235). -/
def condOf (c : Cond) (a b : Int) : Bool :=
  match c with
  | .eq => a == b
  | .ne => a != b
  | .lt => decide (a < b)
  | .le => decide (a ≤ b)
  | .gt => decide (b < a)
  | .ge => decide (b ≤ a)

/-- The compare of a lane's 32-bit operands, or of element `e` (R235). -/
def cmpHalf (t : CmpTy) (c : Cond) (e : Nat) (a b : Half) : Bool :=
  match t with
  | .n32 | .n64 => condOf c a.toNat b.toNat
  | .i16x2 => condOf c (elem16 a e).toInt (elem16 b e).toInt
  | .i32 | .i64 => condOf c a.toInt b.toInt

/-- The compare of a lane's 64-bit operands. -/
def cmpWord (t : CmpTy) (c : Cond) (a b : Word) : Bool :=
  if t = .n64 then condOf c a.toNat b.toNat else condOf c a.toInt b.toInt

/-- CMP (R235): pD receives the compare, or of element 0, and pE of element 1. -/
def execCmp (h : Head) (t : CmpTy) (d : Pred) (a b : Reg) (cond : Cond) (e : Pred) (s : State) :
    Host.Outcome State Fault Refusal :=
  issue (.cmp h t d a b cond e) h (fun u r w =>
    match t with
    | .i64 | .n64 => .done (u.writePred w d fun p l => cmpWord t cond (u.read64 r p a l) (u.read64 r p b l))
    | .i16x2 => .done (u.writePred (u.writePred w d fun p l => cmpHalf t cond 0 (u.read r p a l) (u.read r p b l)) e
        fun p l => cmpHalf t cond 1 (u.read r p a l) (u.read r p b l))
    | _ => .done (u.writePred w d fun p l => cmpHalf t cond 0 (u.read r p a l) (u.read r p b l))) s

/-- SEL (R236). -/
def execSel (h : Head) (d a b : Reg) (p : Pred) (neg : Bool) (s : State) : Host.Outcome State Fault Refusal :=
  issue (.sel h d a b p neg) h (fun u r w => laneRes u w d fun x l =>
    (if u.pred r x p l != neg then u.read r x a l else u.read r x b l, 0)) s

/-- PLOP (R236): the first source predicate is the most significant selector bit. -/
def execPlop (h : Head) (d a b c : Pred) (lut : BitVec 8) (s : State) : Host.Outcome State Fault Refusal :=
  issue (.plop h d a b c lut) h (fun u r w => .done (u.writePred w d fun x l =>
    lut.getLsbD (4 * (u.pred r x a l).toNat + 2 * (u.pred r x b l).toNat + (u.pred r x c l).toNat))) s

/-- p0-p7 of a lane packed (R236). -/
def predBits (u : IssueUnit) (s : State) (x : UPart) (l : Nat) : Half :=
  BitVec.ofNat 32 ((List.range 8).foldr (fun i acc => (u.pred s x (Fin.ofNat 8 i) l).toNat + 2 * acc) 0)

/-- PMOV.get (R236). -/
def execPmovGet (h : Head) (d : Reg) (s : State) : Host.Outcome State Fault Refusal :=
  issue (.pmovGet h d) h (fun u r w => laneRes u w d fun x l => (predBits u r x l, 0)) s

/-- PMOV.set (R236). -/
def execPmovSet (h : Head) (a : Reg) (mask : BitVec 7) (s : State) : Host.Outcome State Fault Refusal :=
  issue (.pmovSet h a mask) h (fun u r w => .done ((List.range 7).foldl (fun w i =>
    if mask.getLsbD i then u.writePred w (Fin.ofNat 8 i) fun x l => (u.read r x a l).getLsbD i else w) w)) s

/-- MOV (R237). -/
def execMov (h : Head) (d a : Reg) (s : State) : Host.Outcome State Fault Refusal :=
  issue (.mov h d a) h (fun u r w => lane1 u r w d a fun x => (x, 0)) s

/-- MOVI (R237). -/
def execMovi (h : Head) (d : Reg) (imm : BitVec 28) (s : State) : Host.Outcome State Fault Refusal :=
  issue (.movi h d imm) h (fun u _ w => laneRes u w d fun _ _ => (imm.setWidth 32, 0)) s

/-- MOVU (R237): the low four bits of the old D stay. -/
def execMovu (h : Head) (d : Reg) (imm : BitVec 28) (s : State) : Host.Outcome State Fault Refusal :=
  issue (.movu h d imm) h (fun u r w => laneRes u w d fun p l =>
    (BitVec.ofNat 32 (imm.toNat * 16 + (u.read r p d l).toNat % 16), 0)) s

/-- LEA (R238). -/
def execLea (h : Head) (t : Sgn) (d a b : Reg) (k : Fin 4) (s : State) : Host.Outcome State Fault Refusal :=
  issue (.lea h t d a b k) h (fun u r w => lanePair u w d fun p l =>
    u.read64 r p a l + BitVec.ofInt 64 (sgnVal t (u.read r p b l) * 2 ^ k.val)) s

/-- PACK by type (R239). -/
def packOf (t : PackTy) (a b : Half) : Half × Bool :=
  match t with
  | .i16x2 =>
    let x := satSigned 16 a.toInt
    let y := satSigned 16 b.toInt
    (pack16 x.1 y.1, x.2 || y.2)
  | .i8x4 =>
    let f := fun (x : Half) (e : Nat) => satSigned 8 (elem16 x e).toInt
    (pack8 (f a 0).1 (f a 1).1 (f b 0).1 (f b 1).1, (f a 0).2 || (f a 1).2 || (f b 0).2 || (f b 1).2)

/-- PACK (R239). -/
def execPack (h : Head) (t : PackTy) (d a b : Reg) (s : State) : Host.Outcome State Fault Refusal :=
  issue (.pack h t d a b) h (fun u r w => lane2 u r w d a b fun x y => Res.sat (packOf t x y)) s

/-- UNPACK (R239). -/
def execUnpack (h : Head) (d a : Reg) (s : State) : Host.Outcome State Fault Refusal :=
  issue (.unpack h d a) h (fun u r w => lanePair u w d fun p l =>
    let x := u.read r p a l
    (elem16 x 1).signExtend 32 ++ (elem16 x 0).signExtend 32) s

end Sys2Proof.Machine
end

