-- ==== Sys2Proof/Machine/FloatArith.lean ====
section
/-! DEFINITION. Floating point: arithmetic, compares, single-operand operations, the approximate functions and the
narrow dot products (R251-R259). -/

namespace Sys2Proof.Machine

/-- The float format of a three-type card. -/
def FTy.fmt : FTy → Fmt
  | .f32 => .f32
  | .f16x2 => .f16
  | .bf16x2 => .bf16

/-- An operation on encodings applied to one F32 or to two packed elements, status OR-ed (R251). -/
def perElem (t : FTy) (f : Fmt → Nat → Nat → Nat → Nat × Half) (a b c : Half) : Res :=
  match t with
  | .f32 => halfOf (f .f32 a.toNat b.toNat c.toNat)
  | t =>
    let el := fun e => f (FTy.fmt t) (elem16 a e).toNat (elem16 b e).toNat (elem16 c e).toNat
    (pack16 (BitVec.ofNat 16 (el 0).1) (BitVec.ofNat 16 (el 1).1), (el 0).2 ||| (el 1).2)

/-- The mode of an instruction of a unit (R252). -/
def IssueUnit.rm (u : IssueUnit) (rm : Rm) : Rnd := rmOf rm u.fmt
/-- fmt.flush of a unit. -/
def IssueUnit.flush (u : IssueUnit) : Bool := fmtFlush u.fmt

/-- FADD (R253). -/
def execFadd (h : Head) (t : FTy) (d a b : Reg) (rm : Rm) (s : State) : Host.Outcome State Fault Refusal :=
  issue (.fadd h t d a b rm) h (fun u r w => lane2 u r w d a b fun x y =>
    perElem t (fun f p q _ => f.add (u.rm rm) u.flush p q) x y 0) s

/-- FSUB (R253). -/
def execFsub (h : Head) (t : FTy) (d a b : Reg) (rm : Rm) (s : State) : Host.Outcome State Fault Refusal :=
  issue (.fsub h t d a b rm) h (fun u r w => lane2 u r w d a b fun x y =>
    perElem t (fun f p q _ => f.sub (u.rm rm) u.flush p q) x y 0) s

/-- FMUL (R253). -/
def execFmul (h : Head) (t : FTy) (d a b : Reg) (rm : Rm) (s : State) : Host.Outcome State Fault Refusal :=
  issue (.fmul h t d a b rm) h (fun u r w => lane2 u r w d a b fun x y =>
    perElem t (fun f p q _ => f.mul (u.rm rm) u.flush p q) x y 0) s

/-- FFMA (R253). -/
def execFfma (h : Head) (t : FTy) (d a b c : Reg) (rm : Rm) (s : State) : Host.Outcome State Fault Refusal :=
  issue (.ffma h t d a b c rm) h (fun u r w => lane3 u r w d a b c fun x y z =>
    perElem t (fun f p q v => f.fma (u.rm rm) u.flush p q v) x y z) s

/-- x × y + c of FFMAW (R254). -/
def ffmawOf (r : Rnd) (flush bf16 hi : Bool) (a b c : Half) : Res :=
  let f := if bf16 then Fmt.bf16 else Fmt.f16
  let e := if hi then 1 else 0
  let v := FV.fma r (f.read flush (elem16 a e).toNat) (f.read flush (elem16 b e).toNat) (Fmt.f32.read flush c.toNat)
  halfOf (withInvalid v.2 (Fmt.f32.round r flush v.1))

/-- FFMAW (R254). -/
def execFfmaw (h : Head) (d a b c : Reg) (rm : Rm) (bf16 hi : Bool) (s : State) : Host.Outcome State Fault Refusal :=
  issue (.ffmaw h d a b c rm bf16 hi) h (fun u r w => lane3 u r w d a b c (ffmawOf (u.rm rm) u.flush bf16 hi)) s

/-- The element type of FMIN, FMAX and FCMP. -/
def FTy2.ty : FTy2 → FTy
  | .f32 => .f32
  | .f16x2 => .f16x2

/-- FMIN (R255). -/
def execFmin (h : Head) (t : FTy2) (d a b : Reg) (s : State) : Host.Outcome State Fault Refusal :=
  issue (.fmin h t d a b) h (fun u r w => lane2 u r w d a b fun x y =>
    perElem (FTy2.ty t) (fun f p q _ => f.pick false u.flush p q) x y 0) s

/-- FMAX (R255). -/
def execFmax (h : Head) (t : FTy2) (d a b : Reg) (s : State) : Host.Outcome State Fault Refusal :=
  issue (.fmax h t d a b) h (fun u r w => lane2 u r w d a b fun x y =>
    perElem (FTy2.ty t) (fun f p q _ => f.pick true u.flush p q) x y 0) s

/-- A float condition on two values, and whether it sets invalid (R256). -/
def fcondOf (c : FCond) (x y : FV) : Bool × Bool :=
  let un := x.isNan || y.isNan
  let sig := x.sig || y.sig
  match c with
  | .eq => (x.eqv y, sig)
  | .ne => (!x.eqv y, sig)
  | .lt => (x.lt y, un)
  | .le => (!un && !y.lt x, un)
  | .gt => (y.lt x, un)
  | .ge => (!un && !x.lt y, un)
  | .ord => (!un, sig)
  | .uno => (un, sig)

/-- The compare of element `e` of a lane. -/
def fcmpElem (t : FTy2) (c : FCond) (flush : Bool) (e : Nat) (a b : Half) : Bool × Bool :=
  match t with
  | .f32 => fcondOf c (Fmt.f32.read flush a.toNat) (Fmt.f32.read flush b.toNat)
  | .f16x2 => fcondOf c (Fmt.f16.read flush (elem16 a e).toNat) (Fmt.f16.read flush (elem16 b e).toNat)

/-- FCMP (R256). -/
def execFcmp (h : Head) (t : FTy2) (d : Pred) (a b : Reg) (cond : FCond) (e : Pred) (s : State) :
    Host.Outcome State Fault Refusal :=
  issue (.fcmp h t d a b cond e) h (fun u r w =>
    let el := fun (k : Nat) (p : UPart) (l : Nat) => fcmpElem t cond u.flush k (u.read r p a l) (u.read r p b l)
    let w1 := u.writePred w d fun p l => (el 0 p l).1
    let w2 := if t = .f16x2 then u.writePred w1 e fun p l => (el 1 p l).1 else w1
    .done (orFst w2 u.parts (u.status fun p l =>
      flagIf ((el 0 p l).2 || (decide (t = .f16x2) && (el 1 p l).2)) fstInvalid))) s

/-! ## Single-operand operations -/

/-- FRND (R257). -/
def frndOf (r : Rnd) (flush : Bool) (x : Half) : Res :=
  match Fmt.f32.read flush x.toNat with
  | .nan s => nanEnd s
  | .inf neg => exactEnd flush (.inf neg)
  | .fin neg m e => exactEnd flush (.fin neg (roundInt r neg m e).natAbs 0)

/-- FSCALE (R257); a scale beyond ±1000 acts as ±1000. -/
def fscaleOf (r : Rnd) (flush : Bool) (x n : Half) : Res :=
  match Fmt.f32.read flush x.toNat with
  | .nan s => nanEnd s
  | .inf neg => exactEnd flush (.inf neg)
  | .fin neg m e => halfOf (Fmt.f32.round r flush (.fin neg m (e + (clampInt (-1000) 1000 n.toInt).1)))

/-- The class bit of an encoding (R257). -/
def classBit (f : Fmt) (x : Nat) : Nat :=
  let neg := x / 2 ^ (f.eb + f.mb) % 2 == 1
  let sub := x / 2 ^ f.mb % 2 ^ f.eb == 0
  match f.decode x with
  | .nan s => if s then 8 else 9
  | .inf n => if n then 0 else 7
  | .fin _ m _ =>
    if m = 0 then (if neg then 3 else 4)
    else if sub then (if neg then 2 else 5)
    else if neg then 1 else 6

/-- FCLASS (R257). -/
def fclassOf (t : ClassTy) (x : Half) : Half :=
  let k := match t with
    | .f32 => classBit .f32 x.toNat
    | .f16 => classBit .f16 (elem16 x 0).toNat
    | .bf16 => classBit .bf16 (elem16 x 0).toNat
  BitVec.ofNat 32 (2 ^ k)

/-- FRCP (R257): the quotient with a sticky bit, rounded once. -/
def frcpOf (r : Rnd) (flush : Bool) (x : Half) : Res :=
  match Fmt.f32.read flush x.toNat with
  | .nan s => nanEnd s
  | .inf neg => exactEnd flush (.fin neg 0 0)
  | .fin neg m e =>
    if m = 0 then exactEnd flush (.inf neg)
    else
      let q := 2 ^ 60 / m
      let sticky := if 2 ^ 60 % m = 0 then 0 else 1
      halfOf (Fmt.f32.round r flush (.fin neg (2 * q + sticky) (-61 - e)))

/-- FSQRT (R257): the root with a sticky bit, rounded once. -/
def fsqrtOf (r : Rnd) (flush : Bool) (x : Half) : Res :=
  match Fmt.f32.read flush x.toNat with
  | .nan s => nanEnd s
  | .inf neg => if neg then nanEnd true else exactEnd flush (.inf false)
  | .fin neg m e =>
    if m = 0 then exactEnd flush (.fin neg 0 0)
    else if neg then nanEnd true
    else
      let m1 := (if e % 2 = 0 then m else 2 * m) * 2 ^ 64
      let e1 := if e % 2 = 0 then e else e - 1
      let q := isqrt m1
      let sticky := if q * q = m1 then 0 else 1
      halfOf (Fmt.f32.round r flush (.fin false (2 * q + sticky) (e1 / 2 - 33)))

/-- FRND (R257). -/
def execFrnd (h : Head) (d a : Reg) (rm : Rm) (s : State) : Host.Outcome State Fault Refusal :=
  issue (.frnd h d a rm) h (fun u r w => lane1 u r w d a (frndOf (u.rm rm) u.flush)) s

/-- FSCALE (R257). -/
def execFscale (h : Head) (d a b : Reg) (rm : Rm) (s : State) : Host.Outcome State Fault Refusal :=
  issue (.fscale h d a b rm) h (fun u r w => lane2 u r w d a b (fscaleOf (u.rm rm) u.flush)) s

/-- FCLASS (R257). -/
def execFclass (h : Head) (d a : Reg) (t : ClassTy) (s : State) : Host.Outcome State Fault Refusal :=
  issue (.fclass h d a t) h (fun u r w => lane1 u r w d a fun x => (fclassOf t x, 0)) s

/-- FRCP (R257). -/
def execFrcp (h : Head) (d a : Reg) (rm : Rm) (s : State) : Host.Outcome State Fault Refusal :=
  issue (.frcp h d a rm) h (fun u r w => lane1 u r w d a (frcpOf (u.rm rm) u.flush)) s

/-- FSQRT (R257). -/
def execFsqrt (h : Head) (d a : Reg) (rm : Rm) (s : State) : Host.Outcome State Fault Refusal :=
  issue (.fsqrt h d a rm) h (fun u r w => lane1 u r w d a (fsqrtOf (u.rm rm) u.flush)) s

/-- FRSQ (R258). -/
def execFrsq (h : Head) (d a : Reg) (s : State) : Host.Outcome State Fault Refusal :=
  issue (.frsq h d a) h (fun u r w => lane1 u r w d a (frsqOf u.flush)) s

/-- FEXP2 (R258). -/
def execFexp2 (h : Head) (d a : Reg) (s : State) : Host.Outcome State Fault Refusal :=
  issue (.fexp2 h d a) h (fun u r w => lane1 u r w d a (fexp2Of u.flush)) s

/-- FLOG2 (R258). -/
def execFlog2 (h : Head) (d a : Reg) (s : State) : Host.Outcome State Fault Refusal :=
  issue (.flog2 h d a) h (fun u r w => lane1 u r w d a (flog2Of u.flush)) s

/-- FSIN (R258). -/
def execFsin (h : Head) (d a : Reg) (s : State) : Host.Outcome State Fault Refusal :=
  issue (.fsin h d a) h (fun u r w => lane1 u r w d a (fsinOf u.flush)) s

/-- FCOS (R258). -/
def execFcos (h : Head) (d a : Reg) (s : State) : Host.Outcome State Fault Refusal :=
  issue (.fcos h d a) h (fun u r w => lane1 u r w d a (fcosOf u.flush)) s

/-- FTANH (R258). -/
def execFtanh (h : Head) (d a : Reg) (s : State) : Host.Outcome State Fault Refusal :=
  issue (.ftanh h d a) h (fun u r w => lane1 u r w d a (ftanhOf u.flush)) s

/-! ## Dot products -/

/-- c + Σ a_e × b_e with the special values of R184, rounded once (R259). -/
def fdotOf (r : Rnd) (flush : Bool) (xs ys : List FV) (c : FV) : Res :=
  let ps := (xs.zip ys).map fun p => p.1.mul p.2
  let sum := FV.sum (c :: ps.map (·.1))
  let bad := sum.2 || c.sig || ps.any fun p => p.2
  halfOf (withInvalid bad (Fmt.f32.round r flush sum.1))

/-- FDOT2 (R259). -/
def execFdot2 (h : Head) (t : FDot2Ty) (d a b c : Reg) (rm : Rm) (s : State) : Host.Outcome State Fault Refusal :=
  issue (.fdot2 h t d a b c rm) h (fun u r w => lane3 u r w d a b c fun x y z =>
    let f := if t = .f16 then Fmt.f16 else Fmt.bf16
    let els := fun v => [f.read u.flush (elem16 v 0).toNat, f.read u.flush (elem16 v 1).toNat]
    fdotOf (u.rm rm) u.flush (els x) (els y) (Fmt.f32.read u.flush z.toNat)) s

/-- FDOT4 (R259). -/
def execFdot4 (h : Head) (t : FDot4Ty) (d a b c : Reg) (rm : Rm) (s : State) : Host.Outcome State Fault Refusal :=
  issue (.fdot4 h t d a b c rm) h (fun u r w => lane3 u r w d a b c fun x y z =>
    let f := if t = .e4m3 then Fmt.e4m3 else Fmt.e5m2
    let els := fun v => (List.range 4).map fun e => f.decode (elem8 v e).toNat
    fdotOf (u.rm rm) u.flush (els x) (els y) (Fmt.f32.read u.flush z.toNat)) s

end Sys2Proof.Machine
end

