-- ==== Sys2Proof/Machine/Convert.lean ====
section
/-! DEFINITION. Conversions, quantisation and SETFMT (R260-R265). -/

namespace Sys2Proof.Machine

/-- A widening of an encoding to F32 (R260). -/
def widen (f : Fmt) (flush : Bool) (x : Nat) : Res :=
  let v := f.read flush x
  halfOf (withInvalid v.sig (Fmt.f32.round .rne flush v))

/-- Two F32 values narrowed to F16 or BF16 elements (R177, R260). -/
def narrow2 (f : Fmt) (r : Rnd) (flush satn : Bool) (a b : Half) : Res :=
  let n := fun (x : Half) => f.narrow r flush satn (Fmt.f32.read flush x.toNat)
  (pack16 (BitVec.ofNat 16 (n a).1) (BitVec.ofNat 16 (n b).1), (n a).2 ||| (n b).2)

/-- CVT by type (R260). -/
def cvtOf (fmt : Half) (t : CvtTy) (a b : Half) : Res :=
  let fl := fmtFlush fmt
  let sn := fmtSat fmt
  match t with
  | .f32i32 rm => halfOf (Fmt.f32.round (rmOf rm fmt) fl (FV.ofInt a.toInt))
  | .f32n32 rm => halfOf (Fmt.f32.round (rmOf rm fmt) fl (FV.ofInt a.toNat))
  | .i32f32 rm =>
    let x := toIntRange (rmOf rm fmt) (-(2 ^ 31 : Nat)) ((2 ^ 31 : Nat) - 1) (Fmt.f32.read fl a.toNat)
    (BitVec.ofInt 32 x.1, x.2)
  | .n32f32 rm =>
    let x := toIntRange (rmOf rm fmt) 0 ((2 ^ 32 : Nat) - 1) (Fmt.f32.read fl a.toNat)
    (BitVec.ofInt 32 x.1, x.2)
  | .f16x2f32 rm => narrow2 .f16 (rmOf rm fmt) fl sn a b
  | .f32f16 hi => widen .f16 fl (elem16 a hi.toNat).toNat
  | .bf16x2f32 rm => narrow2 .bf16 (rmOf rm fmt) fl sn a b
  | .f32bf16 hi => widen .bf16 fl (elem16 a hi.toNat).toNat
  | .f32i16 hi => halfOf (Fmt.f32.round .rne false (FV.ofInt (elem16 a hi.toNat).toInt))
  | .f32i8 n => halfOf (Fmt.f32.round .rne false (FV.ofInt (elem8 a n.val).toInt))

/-- CVT (R260). -/
def execCvt (h : Head) (t : CvtTy) (d a b : Reg) (s : State) : Host.Outcome State Fault Refusal :=
  issue (.cvt h t d a b) h (fun u r w => lane2 u r w d a b (cvtOf u.fmt t)) s

/-- FXCVT.to (R261). -/
def execFxcvtTo (h : Head) (d a : Reg) (fx16 : Bool) (s : State) : Host.Outcome State Fault Refusal :=
  issue (.fxcvtTo h d a fx16) h (fun u r w => lane1 u r w d a fun x =>
    let n := fixedResult (if fx16 then 16 else 32) (fmtQD u.fmt) (Fmt.f32.read u.flush x.toNat)
    (BitVec.ofInt 32 n.1, n.2)) s

/-- FXCVT.from (R261). -/
def execFxcvtFrom (h : Head) (d a : Reg) (fx16 : Bool) (rm : Rm) (s : State) : Host.Outcome State Fault Refusal :=
  issue (.fxcvtFrom h d a fx16 rm) h (fun u r w => lane1 u r w d a fun x =>
    let n := if fx16 then (elem16 x 0).toInt else x.toInt
    halfOf (Fmt.f32.round (u.rm rm) false (.fin (decide (n < 0)) n.natAbs (-(fmtQA u.fmt : Int))))) s

/-! ## Quantisation -/

/-- Values a lane holds in QSCALE (R262). -/
def QK.count : QK → Nat
  | .x1 => 1
  | .x2 => 2
  | .x4 => 4

/-- The values of one lane (R262). -/
def qscaleVals (u : IssueUnit) (r : State) (k : QK) (a b : Reg) (p : UPart) (l : Nat) : List FV :=
  let v := fun (x : Reg) => Fmt.f32.read u.flush (u.read r p x l).toNat
  match k with
  | .x1 => [v a]
  | .x2 => [v a, v (Reg.plus a 1)]
  | .x4 => [v a, v (Reg.plus a 1), v b, v (Reg.plus b 1)]

/-- The block of a lane's segment: the values of its active lanes (R262). -/
def qscaleBlock (u : IssueUnit) (r : State) (k : QK) (a b : Reg) (p : UPart) (l : Nat) : List FV :=
  laneList.flatMap fun j =>
    if p.act.getLsbD j && j * QK.count k / 32 == l * QK.count k / 32 then qscaleVals u r k a b p j else []

/-- QSCALE (R262). -/
def execQscale (h : Head) (k : QK) (d a b : Reg) (s : State) : Host.Outcome State Fault Refusal :=
  issue (.qscale h k d a b) h (fun u r w => laneRes u w d fun p l =>
    match emaxOf (fmtD u.fmt) with
    | none => (0xFF#32, fstFormat)
    | some e => (BitVec.ofNat 32 (scaleCode e (qscaleBlock u r k a b p l)), 0)) s

/-- The integer range of codes 9 to 12 (R168). -/
def intRange (code : Nat) : Option (Int × Int) :=
  match code with
  | 9 => some (-128, 127)
  | 10 => some (0, 255)
  | 11 => some (-8, 7)
  | 12 => some (0, 15)
  | _ => none

/-- A value narrowed to an element of a code 3-7 or 9-12 (R263). -/
def packElem (fmt : Half) (r : Rnd) (v : FV) : Nat × Half :=
  match intRange (fmtD fmt) with
  | some (lo, hi) =>
    let x := toIntRange r lo hi v
    ((x.1 % 256).toNat, x.2)
  | none => match Fmt.ofCode (fmtD fmt) with
    | some f => f.narrow .rne (fmtFlush fmt) (fmtSat fmt) v
    | none => (0, 0)

/-- The bits of an element of a code QPACK and QUNPACK support: 8, or 4; `none` for any other code (R263, R264). -/
def elemBits (code : Nat) : Option Nat :=
  if code = 3 ∨ code = 4 ∨ code = 5 ∨ code = 6 ∨ code = 9 ∨ code = 10 then some 8
  else if code = 7 ∨ code = 11 ∨ code = 12 then some 4
  else none

/-- QPACK of four values (R263). -/
def qpackOf (fmt : Half) (r : Rnd) (h1 : Bool) (xs : List Half) (c : Nat) (old : Half) : Res :=
  let val := fun (x : Half) => (Fmt.f32.read (fmtFlush fmt) x.toNat)
  let scaled := fun (x : Half) => if c = 255 then FV.nan false else match val x with
    | .fin n m e => .fin n m (e + 127 - c)
    | v => v
  let q := xs.map fun x => packElem fmt r (scaled x)
  let st := q.foldl (fun acc e => acc ||| e.2) (flagIf (c == 255) fstFormat)
  match elemBits (fmtD fmt) with
  | some 8 => (BitVec.ofNat 32 (q.foldr (fun e acc => e.1 % 256 + 256 * acc) 0), st)
  | some _ =>
    let n := q.foldr (fun e acc => e.1 % 16 + 16 * acc) 0
    let keep := if h1 then old.toNat % 2 ^ 16 else old.toNat / 2 ^ 16 * 2 ^ 16
    (BitVec.ofNat 32 (keep + n * (if h1 then 2 ^ 16 else 1)), st)
  | none => (old, fstFormat)

/-- QPACK (R263). -/
def execQpack (h : Head) (d a b c : Reg) (rm : Rm) (h1 : Bool) (s : State) : Host.Outcome State Fault Refusal :=
  issue (.qpack h d a b c rm h1) h (fun u r w => laneRes u w d fun p l =>
    qpackOf u.fmt (u.rm rm) h1
      [u.read r p a l, u.read r p (Reg.plus a 1) l, u.read r p b l, u.read r p (Reg.plus b 1) l]
      ((u.read r p c l).toNat % 256) (u.read r p d l)) s

/-- An element of a code decoded (R168, R264). -/
def unpackElem (code x : Nat) : FV :=
  match code with
  | 9 => FV.ofInt (BitVec.ofNat 8 x).toInt
  | 10 => FV.ofInt x
  | 11 => FV.ofInt (BitVec.ofNat 4 x).toInt
  | 12 => FV.ofInt x
  | 5 | 6 => match Fmt.ofCode code with
    | some f => f.decode (x % 64)
    | none => .fin false 0 0
  | _ => match Fmt.ofCode code with
    | some f => f.decode x
    | none => .fin false 0 0

/-- One element of QUNPACK: `k` is 0 for D and 1 for D+1 (R264). -/
def qunpackOf (fmt : Half) (r : Rnd) (n k : Nat) (a b : Half) : Res :=
  let c := b.toNat % 256
  match elemBits (fmtA fmt) with
  | none => (0, fstFormat)
  | some bits =>
    let x := if bits = 8 then a.toNat / 256 ^ (2 * (n % 2) + k) % 256 else a.toNat / 16 ^ (2 * n + k) % 16
    let v := unpackElem (fmtA fmt) x
    if c = 255 then (0x7FC00000#32, fstFormat ||| flagIf v.sig fstInvalid)
    else halfOf (withInvalid v.sig (Fmt.f32.round r (fmtFlush fmt) (v.scale c)))

/-- QUNPACK (R264). -/
def execQunpack (h : Head) (d a b : Reg) (n : Fin 4) (rm : Rm) (s : State) : Host.Outcome State Fault Refusal :=
  issue (.qunpack h d a b n rm) h (fun u r w =>
    let el := fun k (p : UPart) l => qunpackOf u.fmt (u.rm rm) n.val k (u.read r p a l) (u.read r p b l)
    let w1 := u.write w d fun p l => (el 0 p l).1
    let w2 := u.write w1 (Reg.plus d 1) fun p l => (el 1 p l).1
    .done (orFst w2 u.parts (u.status fun p l => (el 0 p l).2 ||| (el 1 p l).2))) s

/-! ## SETFMT -/

/-- SETFMT (R265): the old fmt to D, the merged value to the split of every warp of the unit. -/
def execSetfmt (h : Head) (d a b : Reg) (s : State) : Host.Outcome State Fault Refusal :=
  issue (.setfmt h d a b) h (fun u r w =>
    match u.lead with
    | none => .done w
    | some (x, l) =>
      let a1 := u.read r x a l
      let b1 := u.read r x b l
      let new := fmtOf ((u.fmt &&& ~~~b1) ||| (a1 &&& b1))
      let w1 := u.write w d fun _ _ => u.fmt
      .done (u.parts.foldl (fun s p => s.mapSplit p.uid p.idx fun q => { q with fmt := new }) w1)) s

end Sys2Proof.Machine
end

