-- ==== Sys2Proof/Machine/LaneX.lean ====
section
/-! DEFINITION. Instructions that move values between lanes and between paired warps: SHFL, SLIDE, VOTE, MATCH,
REDUCE, SCAN, INTERSECT, COMPACT, XPAIR, XSWAP and the completion of XSWAP (R240-R249). -/

namespace Sys2Proof.Machine

/-! ## Shuffles and slides -/

/-- The source lane of SHFL, if the target position lies in the segment (R241). -/
def shflSource (m : ShflMode) (e : Nat) (l : Nat) (b : Half) : Option Nat :=
  let w := 2 ^ e
  let r := l % w
  let first := l - r
  let t : Int := match m with
    | .idx => (b.toNat % w : Nat)
    | .up => (r : Int) - b.toNat
    | .down => (r : Int) + b.toNat
    | .xor => (Nat.xor r (b.toNat % w) : Nat)
  if 0 ≤ t ∧ t < (w : Int) then some (first + t.toNat) else none

/-- SHFL (R241). -/
def execShfl (h : Head) (m : ShflMode) (d a b c : Reg) (keep : Bool) (e : Fin 6) (pd : Pred) (s : State) :
    Host.Outcome State Fault Refusal :=
  issue (.shfl h m d a b c keep e pd) h (fun u r w =>
    let src := fun (p : UPart) (l : Nat) =>
      (shflSource m e.val l (u.read r p b l)).bind fun t => if p.act.getLsbD t then some t else none
    let w1 := u.write w d fun p l => match src p l with
      | some t => u.read r p a t
      | none => if keep then u.read r p a l else u.read r p c l
    .done (u.writePred w1 pd fun p l => (src p l).isSome)) s

/-- The source element of SLIDE: `per` elements a lane, `e` an element, `n` the distance (R242). -/
def slideSource (down : Bool) (per e n : Nat) (act : Lanes) : Option Nat :=
  let t : Int := if down then (e : Int) + n else (e : Int) - n
  if 0 ≤ t ∧ t < ((32 * per : Nat) : Int) ∧ act.getLsbD (t.toNat / per) then some t.toNat else none

/-- SLIDE (R242). -/
def execSlide (h : Head) (half : Bool) (d a b c : Reg) (down : Bool) (pd : Pred) (s : State) :
    Host.Outcome State Fault Refusal :=
  issue (.slide h half d a b c down pd) h (fun u r w =>
    let src := fun (p : UPart) (l k : Nat) =>
      slideSource down (if half then 2 else 1) (if half then 2 * l + k else l) (u.read r p b l).toNat p.act
    let w1 := u.write w d fun p l =>
      if half then
        let el := fun k => match src p l k with
          | some t => elem16 (u.read r p a (t / 2)) (t % 2)
          | none => elem16 (u.read r p c l) 0
        pack16 (el 0) (el 1)
      else match src p l 0 with
        | some t => u.read r p a t
        | none => u.read r p c l
    .done (u.writePred w1 pd fun p l => (src p l 0).isSome && (!half || (src p l 1).isSome))) s

/-! ## Votes -/

/-- Lanes of a part whose predicate, complemented if `neg`, holds. -/
def voteLanes (u : IssueUnit) (r : State) (x : UPart) (a : Pred) (neg : Bool) : Lanes :=
  lanesWhere fun l => x.act.getLsbD l && (u.pred r x a l != neg)

/-- VOTE (R243). -/
def execVote (h : Head) (t : VoteOp) (a : Pred) (neg : Bool) (s : State) : Host.Outcome State Fault Refusal :=
  issue (.vote h t a neg) h (fun u r w =>
    match t with
    | .any d => .done (u.writePred w d fun p _ => voteLanes u r p a neg != 0)
    | .all d => .done (u.writePred w d fun p _ => voteLanes u r p a neg == p.act)
    | .ballot d cnt => laneRes u w d fun p _ =>
        (if cnt then BitVec.ofNat 32 (Lanes.count (voteLanes u r p a neg)) else voteLanes u r p a neg, 0)) s

/-- MATCH (R243). -/
def execMatchLanes (h : Head) (d a : Reg) (pd : Pred) (s : State) : Host.Outcome State Fault Refusal :=
  issue (.matchLanes h d a pd) h (fun u r w =>
    let same := fun (p : UPart) (l : Nat) => lanesWhere fun k => p.act.getLsbD k && u.read r p a k == u.read r p a l
    .done (u.writePred (u.write w d same) pd fun p l => same p l == p.act)) s

/-! ## Reductions -/

/-- The combining step of a 32-bit integer reduction. -/
def redInt (op : RedOp) (unsigned : Bool) (a b : Half) : Half :=
  match op with
  | .add => a + b
  | .min => if unsigned then uMin a b else sMin a b
  | .max => if unsigned then uMax a b else sMax a b

/-- The combining step of a 64-bit reduction. -/
def redWide (op : RedOp) (a b : Word) : Word :=
  match op with
  | .add => a + b
  | .min => sMin a b
  | .max => sMax a b

/-- The combining step of a float reduction (R187, R244). -/
def redFloat (op : RedOp) (flush : Bool) (a b : Half) : Half × Half :=
  match op with
  | .add => halfOf (Fmt.f32.add .rne flush a.toNat b.toNat)
  | .min => halfOf (Fmt.f32.pick false flush a.toNat b.toNat)
  | .max => halfOf (Fmt.f32.pick true flush a.toNat b.toNat)

/-- The value an absent element supplies to a float tree: -0 to a sum, nothing to min and max (R187, R244). -/
def absentFloat (op : RedOp) : Option Half := if op = .add then some 0x80000000#32 else none

/-- A float combination along the tree of R187. -/
def floatTree (op : RedOp) (flush : Bool) (xs : List (Option Half)) : Half × Half :=
  let ys := padPow2 (absentFloat op) (xs.map fun x => x <|> absentFloat op)
  let r := treeFold (redFloat op flush) ys.length ys
  (r.1.getD 0, r.2)

/-- Values of present elements combined from the left; `none` for no element. -/
def foldSome {α : Type} (f : α → α → α) (xs : List (Option α)) : Option α :=
  (xs.filterMap id).foldl (fun acc x => match acc with
    | none => some x
    | some y => some (f y x)) none

/-- The elements of a unit in unit order: a value where the lane is active (R142, R244). -/
def unitElems {α : Type} (u : IssueUnit) (f : UPart → Nat → α) : List (Option α) :=
  u.parts.flatMap fun p => laneList.map fun l => if p.act.getLsbD l then some (f p l) else none

/-- The elements of lane `l` over the members, in increasing sid (R142). -/
def memElems {α : Type} (u : IssueUnit) (l : Nat) (f : UPart → Nat → α) : List (Option α) :=
  u.parts.map fun p => if p.act.getLsbD l then some (f p l) else none

/-- The elements that a lane's result combines. -/
def redElems {α : Type} (u : IssueUnit) (mem : Bool) (l : Nat) (f : UPart → Nat → α) : List (Option α) :=
  if mem then memElems u l f else unitElems u f

/-- Lanes with an active element, for the status of a .mem form. -/
def redStatus (u : IssueUnit) (mem : Bool) (f : Nat → Half) : Half :=
  if mem then laneList.foldl (fun acc l => if u.parts.any fun p => p.act.getLsbD l then acc ||| f l else acc) 0
  else if u.lanes.isEmpty then 0 else f 0

/-- REDUCE (R244). -/
def execReduce (h : Head) (t : RedTy) (d a : Reg) (op : RedOp) (mem : Bool) (s : State) :
    Host.Outcome State Fault Refusal :=
  issue (.reduce h t d a op mem) h (fun u r w =>
    match t with
    | .i64 => lanePair u w d fun _ l =>
        (foldSome (redWide op) (redElems u mem l fun p k => u.read64 r p a k)).getD 0
    | .f32 =>
      let val := fun l => floatTree op (fmtFlush u.fmt) (redElems u mem l fun p k => u.read r p a k)
      .done (orFst (u.write w d fun _ l => (val l).1) u.parts (redStatus u mem fun l => (val l).2))
    | _ => .done (u.write w d fun _ l =>
        (foldSome (redInt op (t == .n32)) (redElems u mem l fun p k => u.read r p a k)).getD 0)) s

/-- The place of a lane's own element among the elements its result combines. -/
def ownPlace (u : IssueUnit) (mem : Bool) (p : UPart) (l : Nat) : Nat :=
  let i := (u.parts.findIdx? fun x => x.uid == p.uid).getD 0
  if mem then i else 32 * i + l

/-- Elements from a place onward removed (R187, R245). -/
def cutElems {α : Type} (n : Nat) (xs : List (Option α)) : List (Option α) :=
  xs.mapIdx fun i x => if i < n then x else none

/-- The identity of an integer scan (R245). -/
def scanIdentity (op : RedOp) : Half :=
  match op with
  | .add => 0
  | .min => 0x7FFFFFFF#32
  | .max => 0x80000000#32

/-- SCAN (R245). -/
def execScan (h : Head) (t : ScanTy) (d a : Reg) (op : RedOp) (excl mem : Bool) (s : State) :
    Host.Outcome State Fault Refusal :=
  issue (.scan h t d a op excl mem) h (fun u r w =>
    let elems := fun (p : UPart) (l : Nat) =>
      cutElems (ownPlace u mem p l + (if excl then 0 else 1)) (redElems u mem l fun q k => u.read r q a k)
    match t with
    | .i32 => .done (u.write w d fun p l => (foldSome (redInt op false) (elems p l)).getD (scanIdentity op))
    | .f32 => laneRes u w d fun p l => floatTree .add (fmtFlush u.fmt) (elems p l)) s

/-! ## Lists -/

/-- The values of a unit's active lanes in unit order without padding (R246). -/
def listOf (u : IssueUnit) (r : State) (a : Reg) : List Half :=
  (u.lanes.map fun x => u.read r x.1 a x.2).filter fun v => v != BitVec.allOnes 32

/-- The number of values at most a bound. -/
def countLe (m : Half) (xs : List Half) : Nat := (xs.filter fun x => decide (x.toNat ≤ m.toNat)).length

/-- The advance counts of INTERSECT (R246). -/
def advanceCounts (xs ys : List Half) : Nat × Nat :=
  match xs.getLast?, ys.getLast? with
  | some x, some y => let m := uMin x y; (countLe m xs, countLe m ys)
  | _, _ => (if ys.isEmpty then xs.length else 0, if xs.isEmpty then ys.length else 0)

/-- INTERSECT (R246). -/
def execIntersect (h : Head) (d a b c : Reg) (s : State) : Host.Outcome State Fault Refusal :=
  issue (.intersect h d a b c) h (fun u r w =>
    let xs := listOf u r a
    let ys := listOf u r b
    let adv := advanceCounts xs ys
    let w1 := u.write w d fun p l =>
      let v := u.read r p a l
      if v = BitVec.allOnes 32 then v
      else match ys.findIdx? fun y => y == v with
        | some j => BitVec.ofNat 32 j
        | none => BitVec.allOnes 32
    let w2 := u.write w1 c fun _ _ => BitVec.ofNat 32 adv.1
    .done (u.write w2 (Reg.plus c 1) fun _ _ => BitVec.ofNat 32 adv.2)) s

/-- COMPACT (R247). -/
def execCompact (h : Head) (d a b c : Reg) (p : Pred) (neg : Bool) (s : State) : Host.Outcome State Fault Refusal :=
  issue (.compact h d a b c p neg) h (fun u r w =>
    let xs := (u.lanes.filter fun x => u.pred r x.1 p x.2 != neg).map fun x => u.read r x.1 a x.2
    let place := fun (q : UPart) (l : Nat) => (u.lanes.findIdx? fun x => x.1.uid == q.uid && x.2 == l).getD 0
    let w1 := u.write w d fun q l => match xs[place q l]? with
      | some v => v
      | none => u.read r q c l
    .done (u.write w1 b fun _ _ => BitVec.ofNat 32 xs.length)) s

/-! ## Paired warps -/

/-- The first waiting entry of a pairing table a warp can pair with: same die and tag, another core. -/
def findPartner (s : State) (part core : Nat) (tag : Half) : Option Nat :=
  ((s.parts.get? part).elim [] fun p => p.pairTable).findSome? fun e =>
    match s.warps.get? e.2.1 with
    | some w => if e.1 == dieOf core && e.2.2 == tag && w.core != core then some e.2.1 else none
    | none => none

/-- Two warps paired; the entry of the first leaves the table and its wait ends with role 0 (R248). -/
def formPair (s : State) (first second : Nat) : State :=
  let s1 := leavePairTable s first
  let s2 := s1.mapWarp first fun w =>
    { w with pair := some ⟨second, 0⟩,
             splits := w.splits.mapV fun _ p => match p.wait with
               | .xpair _ => { p with wait := .xpair (some 0) }
               | _ => p }
  s2.mapWarp second fun w => { w with pair := some ⟨first, 0⟩ }

/-- Entries that wait for a tag on a die. -/
def pairWaiters (s : State) (part die : Nat) : Nat :=
  (((s.parts.get? part).elim [] fun p => p.pairTable).filter fun e => e.1 == die).length

/-- The wait of a unit's first part. -/
def IssueUnit.waitOf (u : IssueUnit) (r : State) : Wait :=
  match u.parts with
  | [] => .none
  | p :: _ => ((r.warps.get? p.uid).bind fun w => w.splits.get? p.idx).elim .none (·.wait)

/-- What an XPAIR that waits at its word has obtained; `none` where none waits. -/
def IssueUnit.pairWait (u : IssueUnit) (s : State) : Option (Option Half) :=
  match u.waitOf s with
  | .xpair k => some k
  | _ => none

/-- XPAIR (R248): a warp whose wait has formed a pair takes its role; otherwise the old pair dissolves, and the warp
pairs with a waiter or waits. -/
def execXpair (h : Head) (d a : Reg) (s : State) : Host.Outcome State Fault Refusal :=
  issue (.xpair h d a) h (fun u r w =>
    match u.lead with
    | none => .done w
    | some (x, l) =>
      let tag := u.read r x a l &&& 0xFFFF#32
      match u.pairWait r with
      | some (some k) => .done (u.write w d fun _ _ => k)
      | some none => .wait r (.xpair none)
      | none =>
        let w1 := dissolvePair w x.uid
        if tag = 0 then .done (u.write w1 d fun _ _ => 2)
        else match findPartner w1 u.part u.core tag with
          | some o =>
            let w2 := formPair (w1.dieEvent u.core 4 1) o x.uid
            .done (u.write w2 d fun _ _ => 1)
          | none =>
            if 64 ≤ pairWaiters w1 u.part (dieOf u.core) then .done (u.write w1 d fun _ _ => 3)
            else
              let r1 := dissolvePair r x.uid
              .wait (r1.mapPart u.part fun p => { p with pairTable := p.pairTable ++ [(dieOf u.core, x.uid, tag)] })
                (.xpair none)) s

/-- What an XSWAP writes when its partner has answered (R249). -/
def xswapResult (uid : Nat) (d : Reg) (pd : Pred) (mask : Lanes) (vals : Row) (other : Lanes × Row) : Result :=
  let row := rowOfLanes fun l => if other.1.getLsbD l then Row.lane other.2 l else Row.lane vals l
  ⟨[⟨uid, d, mask, row⟩], [⟨uid, pd, mask, other.1⟩], [], 0, none⟩

/-- The partner's XSWAP of the same place in the pair's sequence, still unanswered. -/
def findSwap (s : State) (partner k : Nat) : Option (Nat × Pend) :=
  s.pend.find? fun q => match q.2.work with
    | .xswap j _ _ _ _ _ none => j == k && (q.2.warps.headD (0, 0)).1 == partner
    | _ => false

/-- Vector registers an instruction's D names, for the accounting of R50. -/
def vregs (d : Reg) (n : Nat) : List Nat :=
  match d with
  | .v i => (List.range n).map fun k => i.val + k
  | _ => []

/-- The vector registers a command will write, counted from issue in every warp of the unit (R50). -/
def reserve (s : State) (u : IssueUnit) (d : Reg) (n : Nat) : State :=
  u.parts.foldl (fun s p => if p.act = 0 then s else s.mapWarp p.uid fun w => w.reserveRegs (vregs d n)) s

/-- A command of a unit started under the flag its word names (R197, R198). -/
def IssueUnit.start (u : IssueUnit) (s : State) (h : Head) (tiles : List Nat) (queue : Option Nat) (work : Work) : State :=
  startCommand s u.part u.warps (flagNumber u.header h.flag) u.block tiles queue (u.conflict && u.async) work

/-- XSWAP (R249): each side offers its A at its own issue. -/
def execXswap (h : Head) (d a : Reg) (pd : Pred) (s : State) : Host.Outcome State Fault Refusal :=
  issue (.xswap h d a pd) h (fun u r w =>
    match u.lead with
    | none => .done w
    | some (x, _) =>
      let vals := rowOfLanes fun l => if x.act.getLsbD l then u.read r x a l else 0
      let w0 := reserve w u d 1
      match (r.warps.get? x.uid).bind (·.pair) with
      | none => .done (u.start w0 h [] none (.result .load (xswapAlone x.uid d pd x.act vals)))
      | some p =>
        let w1 := w0.mapWarp x.uid fun y => { y with pair := some { p with swaps := p.swaps + 1 } }
        match findSwap w1 p.partner p.swaps with
        | some (id, q) => match q.work with
          | .xswap k d2 pd2 m2 v2 o2 _ =>
            let w2 := setWork w1 id (.xswap k d2 pd2 m2 v2 o2 (some (x.act, vals)))
            .done (u.start w2 h [] none (.xswap p.swaps d pd x.act vals (some p.partner) (some (m2, v2))))
          | _ => .done w1
        | none => .done (u.start w1 h [] none (.xswap p.swaps d pd x.act vals (some p.partner) none))) s

/-- XSWAP_COMPLETION (R249): D and pd written once both sides have issued, or the pair has dissolved. -/
def execXswapCompletion (id : Nat) (s : State) : Host.Outcome State Fault Refusal :=
  match s.pend.get? id with
  | some q => match q.work with
    | .xswap _ d pd mask vals _ (some o) =>
      .next (deliver s id q false (xswapResult (q.warps.headD (0, 0)).1 d pd mask vals o))
    | .result .load r => .next (deliver s id q false r)
    | _ => .next s
  | none => .next s

end Sys2Proof.Machine
end

