-- ==== Sys2Proof/Machine/Access.lean ====
section
/-! DEFINITION. Accesses of a unit: effective addresses and their checks (R36, R37), the policy an access has (R269), the
stash window that serves it (R64), what it asks of a peer (R373), and the births an instruction needs (R76, R77). -/

namespace Sys2Proof.Machine

/-! ## Effective addresses (R37) -/

/-- The index of a lane after its mode. -/
def IssueUnit.index (u : IssueUnit) (r : State) (ix : Index) (x : UPart) (l : Nat) : Int :=
  match ix with
  | .none => 0
  | .n16 g => ((u.read r x g l).toNat % 2 ^ 16 : Nat)
  | .i16 g => (BitVec.ofNat 16 (u.read r x g l).toNat).toInt
  | .n32 g => ((u.read r x g l).toNat : Nat)
  | .i32 g => (u.read r x g l).toInt
  | .n64 g => ((u.read64 r x g l).toNat : Nat)

/-- The effective address of a lane: base, scaled index, and the offset in units of `size` or from the literal. -/
def IssueUnit.ea (u : IssueUnit) (r : State) (m : Addr) (off : Int) (size : Nat) (x : UPart) (l : Nat) : Word :=
  let o : Int := if m.fromLit then (u.read r x .lit l).toInt else off * size
  BitVec.ofInt 64 (((u.read64 r x m.base l).toNat : Int) + u.index r m.index x l * 2 ^ m.scale.val + o)

/-- A lane's access after its checks: the number of the lane in unit order, the cause or none with the code a card
puts into tinfo3, and where it lands. -/
structure LaneAcc where
  part  : UPart
  lane  : Nat
  ea    : Word
  cause : Option Nat
  info  : Half
  place : Place
  deriving DecidableEq, Repr

/-- The leaf that serves an address: the cached translation, else what a walk finds. -/
def leafAt (s : State) (part asid : Nat) (ea : Word) : Word :=
  match (s.parts.get? part).bind fun p => p.tlb.get? (tlbKey asid ea) with
  | some e => e.leaf
  | none => (walk s part asid ea).elim 0 (·.leaf)

/-- Whether a block holds its kernel's commit token (R282, R364); a block outside the grid never does. -/
def Kernel.tokenAt (k : Kernel) (rank : Nat) : Bool := k.det && rank == k.tokenRank && decide (rank < k.blocks)

/-- Whether the block of a unit holds its kernel's commit token (R282, R364). -/
def holdsToken (s : State) (u : IssueUnit) : Bool :=
  match s.kernels.get? u.kernel, s.blocks.get? u.block with
  | some k, some b => k.tokenAt b.rank
  | _, _ => false

/-- Whether a unit belongs to a warp the packer formed (R360). -/
def IssueUnit.packed (u : IssueUnit) (s : State) : Bool :=
  u.parts.any fun p => (s.warps.get? p.uid).elim false (·.packed)

/-- The tinfo3 code of a write to a det-shared page that the unit may not make (R270, R360). -/
def detInfo (s : State) (u : IssueUnit) (ea : Word) : Option Half :=
  if (s.kernels.get? u.kernel).elim false (·.det) && !inAperture ea && ebit (leafAt s u.part u.asid ea) 19 then
    if u.packed s then some 4 else if holdsToken s u then none else some 1
  else none

/-- Whether an address lies in a non-resident demand-notify page (R95). -/
def nonResident (s : State) (part asid : Nat) (ea : Word) : Bool :=
  let e := leafAt s part asid ea
  !inAperture ea && decide (ea.toNat < 2 ^ 56) && leafType e == 2 && !ebit e 20

/-- The checks of R37 for one lane, with the det check for a write by ST, SCAT or ATOM (R270); an LDR lane in a
non-resident page raises no fault (R274). -/
def checkLane (u : IssueUnit) (s : State) (uid l : Nat) (ea : Word) (size align : Nat) (acc : Acc) :
    State × Option Nat × Half × Place :=
  if acc = .ldr ∧ nonResident s u.part u.asid ea then (s, none, 0, .absent)
  else if ea.toNat % align ≠ 0 then (s, some Code.misaligned, 0, .absent)
  else match resolveLane s u.part u.asid u.block uid l ea size acc with
    | .error c => (s, some c, 0, .absent)
    | .ok (s1, p) =>
      if acc = .store ∨ acc = .atom then
        match detInfo s1 u ea with
        | some i => (s, some Code.detOrder, i, .absent)
        | none => (s1, none, 0, p)
      else (s1, none, 0, p)

/-- The checks of R37 for lanes in unit order: the state with the translations made, and each lane's access. -/
def checkLanes (u : IssueUnit) (size align : Nat) (acc : Acc) :
    State → List (UPart × Nat × Word) → State × List LaneAcc
  | s, [] => (s, [])
  | s, (x, l, ea) :: rest =>
    let c := checkLane u s x.uid l ea size align acc
    let t := checkLanes u size align acc c.1 rest
    (t.1, ⟨x, l, ea, c.2.1, c.2.2.1, c.2.2.2⟩ :: t.2)

/-- The active lanes of a unit with their addresses. -/
def IssueUnit.addrs (u : IssueUnit) (r : State) (m : Addr) (off : Int) (size : Nat) : List (UPart × Nat × Word) :=
  u.lanes.map fun x => (x.1, x.2, u.ea r m off size x.1 x.2)

/-- Whether a lane met a cause. -/
def hasCause (as : List LaneAcc) (c : Nat) (x : UPart) (l : Nat) : Bool :=
  as.any fun a => a.part.uid == x.uid && a.lane == l && a.cause == some c

/-- The trap of R37: the lowest lane with a cause, and the lanes whose cause is the same. -/
def accessTrap (u : IssueUnit) (s : State) (as : List LaneAcc) : Option Trap :=
  match as.find? fun a => a.cause.isSome with
  | none => none
  | some f =>
    let c := f.cause.getD 0
    some (u.trapLanes s c (lo32 f.ea) (hi32 f.ea) (BitVec.ofNat 32 (f.part.lane f.lane)) f.info (hasCause as c))

/-! ## Cache policy (R63, R269) -/

/-- The policy that takes effect for an address (R269). -/
def effPolicy (s : State) (u : IssueUnit) (ea : Word) (pol : Policy) : Policy :=
  if inAperture ea then pol
  else
    let k := efield (leafAt s u.part u.asid ea) 16 2
    if k = 0 then pol else Policy.of k

/-! ## Stash windows (R64) -/

/-- The window of a block that serves a global address; a window that is closing takes no fills (R313). -/
def Block.windowOf (b : Block) (va : Word) : Option (Nat × Window) :=
  b.windows.find? fun w => !w.2.closing && decide (w.2.base.toNat ≤ va.toNat ∧ va.toNat < w.2.base.toNat + w.2.len)

/-- A line touched by its own block: fetched at the first touch with the stamp of its fill (R64, R93). -/
def Window.touch (w : Window) (line : Nat) (write : Bool) (stamp : Half) : Window :=
  if w.owned.any fun o => o.1 == line then
    { w with owned := w.owned.map fun o => if o.1 == line then (line, o.2.1 || write, o.2.2) else o }
  else { w with owned := w.owned ++ [(line, write, stamp)] }

/-- The stash window of a block that serves an access. -/
def stashOf (s : State) (block : Nat) (ea : Word) (p : Place) : Option Nat :=
  match p with
  | .phys _ _ => ((s.blocks.get? block).bind fun b => b.windowOf ea).map (·.1)
  | _ => none

/-- Whether a stash window of a block owns a line. -/
def windowOwns (s : State) (block n line : Nat) : Bool :=
  ((s.blocks.get? block).bind fun b => b.windows.get? n).elim false fun w => w.owned.any fun o => o.1 == line

/-- A line of a block's stash window touched by the block: the copies of others are recalled, and at the first touch the line is
fetched from its home (R64, R66). -/
def touchWindow (s : State) (part core block : Nat) (who : Option (Nat × Word)) (n line : Nat) (write : Bool) : State :=
  let stamp := (s.parts.get? part).elim 0 (·.issuectr)
  let s1 := if windowOwns s block n line then s
    else coreArrives (recallFlits s part none line true) part core block who line .normal
  (recallLine s1 part (some block) line true).mapBlock block fun b => match b.windows.get? n with
    | some w => { b with windows := b.windows.put n (w.touch line write stamp) }
    | none => b

/-- What one access does to caches, windows and ranges. -/
def touch (s : State) (u : IssueUnit) (pol : Policy) (write : Bool) (line : Nat) (a : LaneAcc) : State :=
  match stashOf s u.block a.ea a.place with
  | some n => touchWindow s u.part u.core u.block (some (u.asid, a.ea)) n line write
  | none => cacheAccess s u.part u.core u.block (some (u.asid, a.ea)) line (effPolicy s u a.ea pol) write

/-- The lanes of an access that name a line first, with the line. -/
def firstTouches (s : State) (part : Nat) (as : List LaneAcc) : List (Nat × LaneAcc) :=
  (as.foldl (fun acc a => match cacheLine s part a.place with
    | some l => if acc.any fun x => x.1 == l then acc else (l, a) :: acc
    | none => acc) []).reverse

/-- What the access of a unit does to caches, windows and ranges: each line once (R46); a fabric line that the local LLC does
not hold yet is placed when it arrives. -/
def touchAll (s : State) (u : IssueUnit) (pol : Policy) (write : Bool) (as : List LaneAcc) : State :=
  (firstTouches s u.part (as.filter fun a => (placeMissing s u.part false a.place 1).isEmpty)).foldl
    (fun s x => touch s u pol write x.1 x.2) s

/-! ## Toward a peer (R58, R373) -/

/-- What accesses of a size need of peers first. -/
def missingLines (s : State) (part : Nat) (write : Bool) (size : Nat) (as : List LaneAcc) : List Want :=
  (as.flatMap fun a => placeMissing s part write a.place size).dedup

/-- The wait of a word for what it has asked of peers. -/
def linesWait (ws : List Want) : Wait := .stall (.lines ws)

/-- The wait of a write that would re-establish a discarded page while stamps in flight span the whole window (R93, R97). -/
def spanWait (s : State) (part asid : Nat) (eas : List Word) : Option Wait :=
  if spanFull s part && eas.any (discardedAt s part asid) then some (.stall (.span part)) else none

/-- The wait of a word for births in flight of `n` tiles from a place on (R76). -/
def birthsWait (part : Nat) (p : Place) (n : Nat) : Wait :=
  match p with
  | .tile r t _ _ => .stall (.births part r t n)
  | _ => .none

/-- A fabric line marked lost at the local slice, and counted (R357, R374). -/
def loseFabric (s : State) (line : Nat) : State :=
  if s.lost.contains (2 ^ 60 + line) then s
  else { s with lost := s.lost ++ [2 ^ 60 + line] }.countErr (Source.llc s (linePart line) (2 ^ 60 + line)) (linePart line) 7
    (BitVec.ofNat 64 (128 * line))

/-- The lines a peer has refused, among lines that an instruction which waits for its whole access needs: each is marked lost
at the local slice (R374). -/
def takeFaulted (s : State) (ws : List Want) : State :=
  (ws.filterMap Want.line?).foldl (fun s l =>
    if s.fab.faulted.any fun f => f.1 == l then
      loseFabric { s with fab := { s.fab with faulted := s.fab.faulted.filter fun f => f.1 != l } } l
    else s) s

/-! ## Births of an instruction (R76, R77) -/

/-- Places that are tiles, as region, tile and key. -/
def tileOf (a : LaneAcc) : Option (Nat × Nat × Key) :=
  match a.place with
  | .tile r t _ k => some (r, t, k)
  | _ => none

/-- The tiles of an instruction's accesses, each once, in increasing order. -/
def tilesOf (as : List LaneAcc) : List (Nat × Nat × Key) :=
  ((as.filterMap tileOf).foldl (fun acc x => if acc.any fun y => y.1 == x.1 && y.2.1 == x.2.1 then acc else acc ++ [x])
    []).insertionSort fun x y => x.1 < y.1 ∨ (x.1 = y.1 ∧ x.2.1 ≤ y.2.1)

/-- The refusal of a lane's tile, if its birth was refused. -/
def refusalOf (bad : List (Nat × Nat × Nat)) (a : LaneAcc) : Option (Nat × Nat × Nat) :=
  match a.place with
  | .tile r t _ _ => bad.find? fun x => x.1 == r && x.2.1 == t
  | _ => none

/-- EXIST_FULL with the contents of R77. -/
def existFullTrap (u : IssueUnit) (s : State) (as : List LaneAcc) (bad : List (Nat × Nat × Nat)) : Option Trap :=
  (as.find? fun a => (refusalOf bad a).isSome).map fun f =>
    let x := (refusalOf bad f).getD (0, 0, 0)
    u.trapLanes s Code.existFull (lo32 f.ea) (hi32 f.ea) (BitVec.ofNat 32 (f.part.lane f.lane))
      (BitVec.ofNat 32 (x.2.2 * 256 + x.1 % 256)) fun p l =>
        as.any fun a => a.part.uid == p.uid && a.lane == l && (refusalOf bad a).isSome

end Sys2Proof.Machine
end

