-- ==== Sys2Proof/Machine/Memory.lean ====
section
/-! DEFINITION. Loads and stores (R267-R277), LDE (R80, R81), and the completion of loads in flight. -/

namespace Sys2Proof.Machine

/-- Bytes of an access size. -/
def LdTy.bytes : LdTy → Nat
  | .b8 => 1 | .b16 => 2 | .b32 => 4 | .b64 => 8 | .b128 => 16
/-- Bytes of an access size. -/
def LdcTy.bytes : LdcTy → Nat
  | .b32 => 4 | .b64 => 8 | .b128 => 16
/-- Bytes of an access size. -/
def W2.bytes : W2 → Nat
  | .b32 => 4 | .b64 => 8

/-- How many registers a value of a size takes (R268). -/
def sizeRegs (size : Nat) : Nat := if size ≤ 4 then 1 else size / 4

/-! ## Loads -/

/-- What a lane's load obtains at issue (R25, R271, R373). -/
def laneGot (s : State) (part : Nat) (p : Place) (size : Nat) : LaneGot :=
  if placeLost s part p size then .lost
  else if (placeMissing s part false p size).isEmpty then .bytes (placeBytes s part p size) else .waits p

/-- A lane of a load with what it obtains. -/
def loadLane (s : State) (part size : Nat) (pred : Bool) (a : LaneAcc) : LaneLoad :=
  ⟨a.part.uid, a.lane, a.part.lane a.lane, a.ea, laneGot s part a.place size, pred⟩

/-- A lane that makes no access: zeros, predicate clear (R273). -/
def noLoad (x : UPart) (l size : Nat) : LaneLoad := ⟨x.uid, l, x.lane l, 0, .bytes (List.replicate size 0), false⟩

/-- The load command of a unit: lanes with an access, and zeros for the others. -/
def loadLanes (u : IssueUnit) (s : State) (size : Nat) (as : List LaneAcc) (pred : LaneAcc → Bool) : List LaneLoad :=
  u.lanes.map fun x => match as.find? fun a => a.part.uid == x.1.uid && a.lane == x.2 with
    | some a => loadLane s u.part size (pred a) a
    | none => noLoad x.1 x.2 size

/-- A load started: the lines a peer must send are asked for, D is counted as mapped (R50; DESIGN CHOICE, log 8). -/
def startLoad (u : IssueUnit) (h : Head) (s : State) (d : Reg) (size : Nat) (pd : Option Pred) (opcode : Nat)
    (lanes : List LaneLoad) (as : List LaneAcc) : State :=
  u.start (askAll (reserve s u d (sizeRegs size)) (missingLines s u.part false size as)) h [] none (.load ⟨d, size, pd, opcode, lanes⟩)

/-- The effect of a load: checks of the lanes that access, then their values (R37, R271). -/
def loadEffect (u : IssueUnit) (h : Head) (r w : State) (d : Reg) (size : Nat) (pd : Option Pred) (opcode : Nat)
    (acc : Acc) (pol : Policy) (addrs : List (UPart × Nat × Word)) (pred : State → LaneAcc → Bool) : Effect :=
  if u.lanes.isEmpty then .done w
  else if readsPending r u then .wait r u.stallReads
  else
    let c := checkLanes u size size acc w addrs
    match accessTrap u r c.2 with
    | some t => .trap t
    | none =>
      let s1 := touchAll c.1 u pol false c.2
      .done (startLoad u h s1 d size pd opcode (loadLanes u s1 size c.2 (pred s1)) c.2)

/-- LD (R271). -/
def execLd (h : Head) (t : LdTy) (d : Reg) (m : Addr) (off : BitVec 7) (s : State) : Host.Outcome State Fault Refusal :=
  issue (.ld h t d m off) h (fun u r w =>
    loadEffect u h r w d (LdTy.bytes t) none u.opcode .load m.policy (u.addrs r m off.toInt (LdTy.bytes t))
      fun _ _ => true) s

/-- The lanes of LDC: the access of the lowest active lane, for every active lane (R272). -/
def ldcLanes (u : IssueUnit) (s : State) (size : Nat) (as : List LaneAcc) : List LaneLoad :=
  match as.head? with
  | none => []
  | some a => u.lanes.map fun x => { loadLane s u.part size true a with warp := x.1.uid, lane := x.2, num := x.1.lane x.2 }

/-- LDC (R272): one address, one read, the value in every active lane. -/
def execLdc (h : Head) (t : LdcTy) (d : Reg) (m : Addr) (off : BitVec 7) (s : State) :
    Host.Outcome State Fault Refusal :=
  issue (.ldc h t d m off) h (fun u r w =>
    let n := LdcTy.bytes t
    if u.lanes.isEmpty then .done w
    else if readsPending r u then .wait r u.stallReads
    else
      let c := checkLanes u n n .load w ((u.addrs r m off.toInt n).take 1)
      match accessTrap u r c.2 with
      | some t => .trap t
      | none =>
        let s1 := touchAll c.1 u m.policy false c.2
        .done (startLoad u h s1 d n none u.opcode (ldcLanes u s1 n c.2) c.2)) s

/-- Whether a lane's index lies within the bound in the literal (R273, R276). -/
def inBound (u : IssueUnit) (r : State) (m : Addr) (x : UPart) (l : Nat) : Bool :=
  let i := u.index r m.index x l
  decide (0 ≤ i ∧ i < ((u.read r x .lit l).toNat : Int))

/-- The addresses of the lanes within the bound. -/
def boundedAddrs (u : IssueUnit) (r : State) (m : Addr) (off : Int) (size : Nat) : List (UPart × Nat × Word) :=
  (u.addrs r m off size).filter fun x => inBound u r m x.1 x.2.1

/-- LDG (R273): lanes outside the bound receive 0 and make no access. -/
def execLdg (h : Head) (t : W2) (d : Reg) (pd : Pred) (m : Addr) (off : BitVec 4) (s : State) :
    Host.Outcome State Fault Refusal :=
  issue (.ldg h t d pd m off) h (fun u r w =>
    loadEffect u h r w d (W2.bytes t) (some pd) u.opcode .load m.policy (boundedAddrs u r m off.toInt (W2.bytes t))
      fun _ _ => true) s

/-- LDR (R274, R95): a lane in a non-resident page receives 0 and a clear predicate. -/
def execLdr (h : Head) (t : W2) (d : Reg) (pd : Pred) (m : Addr) (off : BitVec 4) (s : State) :
    Host.Outcome State Fault Refusal :=
  issue (.ldr h t d pd m off) h (fun u r w =>
    loadEffect u h r w d (W2.bytes t) (some pd) u.opcode .ldr m.policy (u.addrs r m off.toInt (W2.bytes t))
      fun _ a => a.place != .absent) s

/-- Whether the tile of an access exists; an access outside a sparse region finds its data existing (R34, R80). -/
def existsAt (s : State) (part : Nat) (a : LaneAcc) : Bool :=
  match a.place with
  | .tile r t _ _ => s.tileExists part r t
  | _ => true

/-- LDE (R80, R81): a load with the existence predicate; its cache-policy field is ignored. -/
def execLde (h : Head) (t : W2) (d : Reg) (pd : Pred) (m : Addr) (off : BitVec 4) (s : State) :
    Host.Outcome State Fault Refusal :=
  issue (.lde h t d pd m off) h (fun u r w =>
    loadEffect u h r w d (W2.bytes t) (some pd) u.opcode .lde .normal (u.addrs r m off.toInt (W2.bytes t))
      fun s1 a => existsAt s1 u.part a) s

/-! ## Completion of loads -/

/-- Whether a lane's load has obtained its bytes. -/
def LaneLoad.has (l : LaneLoad) : Bool :=
  match l.got with
  | .bytes _ => true
  | _ => false

/-- Register word `k` of a lane's bytes, zero-extended (R268). -/
def LaneLoad.word (l : LaneLoad) (k : Nat) : Half :=
  match l.got with
  | .bytes bs => BitVec.ofNat 32 (leNat ((bs.drop (4 * k)).take 4))
  | _ => 0

/-- Lanes of a warp among the lanes of a load that a test selects. -/
def LoadCmd.lanesOf (c : LoadCmd) (uid : Nat) (p : LaneLoad → Bool) : Lanes :=
  lanesWhere fun l => c.lanes.any fun x => x.warp == uid && x.lane == l && p x

/-- The value of register word `k` in a lane. -/
def LoadCmd.valueAt (c : LoadCmd) (uid k l : Nat) : Half :=
  ((c.lanes.find? fun x => x.warp == uid && x.lane == l).map fun x => x.word k).getD 0

/-- The writes of one register of a load's D: each lane that has its bytes; a scalar takes the value of the lowest
active lane (R208, R268). -/
def LoadCmd.regWrites (c : LoadCmd) (warps : List (Nat × Lanes)) (k : Nat) : List RegWrite :=
  let r := Reg.plus c.d k
  match r, c.lanes.head? with
  | .s _, some l => if l.has then warps.map fun w => ⟨w.1, r, w.2, rowOfLanes fun _ => l.word k⟩ else []
  | _, _ => (warps.filter fun w => c.lanesOf w.1 (fun _ => true) != 0).map fun w =>
    ⟨w.1, r, c.lanesOf w.1 LaneLoad.has, rowOfLanes fun l => c.valueAt w.1 k l⟩

/-- The predicate writes of a load. -/
def LoadCmd.predWrites (c : LoadCmd) (warps : List (Nat × Lanes)) : List PredWrite :=
  match c.pd with
  | none => []
  | some pd => warps.map fun w => ⟨w.1, pd, c.lanesOf w.1 LaneLoad.has, c.lanesOf w.1 fun x => x.has && x.pred⟩

/-- The error record of a load: of its lowest lane that obtained no value (R270, R349, R374). -/
def LoadCmd.error (c : LoadCmd) (order : Nat) : Option ErrRec :=
  match c.lanes.find? fun x => !x.has with
  | none => none
  | some f =>
    let mask := c.lanesOf f.warp fun x => x.got == f.got
    match f.got with
    | .lost => some ⟨Code.dataLost, lo32 f.ea, hi32 f.ea, BitVec.ofNat 32 f.num, BitVec.ofNat 32 c.opcode, mask, order, none⟩
    | .fault k => some ⟨Code.asyncError, lo32 f.ea, hi32 f.ea, BitVec.ofNat 32 k, BitVec.ofNat 32 c.opcode, mask, order, none⟩
    | _ => none

/-- Whether every lane of a load has its answer. -/
def LoadCmd.ready (c : LoadCmd) : Bool := c.lanes.all fun x => match x.got with
  | .waits _ => false
  | _ => true

/-- The result of a load (R271). -/
def LoadCmd.result (c : LoadCmd) (warps : List (Nat × Lanes)) (order : Nat) : Result :=
  ⟨(List.range (sizeRegs c.size)).flatMap fun k => c.regWrites warps k, c.predWrites warps, [], 0, c.error order⟩

/-- The lanes of a load that have not ended since it issued (R150). -/
def LoadCmd.live (c : LoadCmd) (s : State) : LoadCmd :=
  { c with lanes := c.lanes.filter fun x => (s.warps.get? x.warp).elim false fun w => w.lanes.getLsbD x.lane }

/-- The wid of the warp that holds the lowest lane of a load that obtained no value, whose lanes an error record shows (R347). -/
def LoadCmd.errWid (c : LoadCmd) (s : State) : Option Nat := (c.lanes.find? fun x => !x.has).map fun x => s.widOf x.warp

/-- The result of a load in a state: an error met by lanes that have ended since is discarded (R150), and its record names the
warp that met it (R347). -/
def LoadCmd.resultIn (c : LoadCmd) (s : State) (warps : List (Nat × Lanes)) (order : Nat) : Result :=
  { c.result warps order with
    err := ((c.live s).error order).map fun e => { e with wid := (c.live s).errWid s } }

/-- Whether a load's opcode is an existence instruction's. -/
def LoadCmd.exist (c : LoadCmd) : Bool := c.opcode == 0x0D1 || c.opcode == 0x0D2

/-- A load whose lanes have all been answered delivered. -/
def finishLoad (s : State) (id : Nat) (q : Pend) (c : LoadCmd) : State :=
  if c.ready then deliver s id q false (c.resultIn s q.warps q.order) else s

/-- LOAD_COMPLETION (R199, R271): D and the predicate written, the flag counted down. -/
def execLoadCompletion (id : Nat) (s : State) : Host.Outcome State Fault Refusal :=
  match s.pend.get? id with
  | some q => match q.work with
    | .load c => .next (if c.exist then s else finishLoad s id q c)
    | _ => .next s
  | none => .next s

/-! ## Stores -/

/-- The bytes a lane stores (R268, R275). -/
def storeBytes (u : IssueUnit) (r : State) (d : Reg) (size : Nat) (x : UPart) (l : Nat) : List Byte :=
  if size ≤ 4 then leBytes size (u.read r x d l).toNat
  else if size = 8 then leBytes 8 (u.read64 r x d l).toNat
  else leBytes 8 (u.read64 r x d l).toNat ++ leBytes 8 (u.read64 r x (Reg.plus d 2) l).toNat

/-- The writes of a store in unit order (R102). -/
def storeWrites (u : IssueUnit) (r : State) (d : Reg) (size : Nat) (as : List LaneAcc) : List (Place × List Byte) :=
  as.map fun a => (a.place, storeBytes u r d size a.part a.lane)

/-- What a write waits for: the reads before it have taken their value (R104), and a release for every access before it
(R106). -/
def writeWait (u : IssueUnit) (r : State) (o : Order) : Option Wait :=
  if (o == .rel || o == .acqrel) && accessesPending r u then some u.stallAccesses
  else if readsPending r u then some u.stallReads
  else none

/-- The effect of a store: checks and births of every lane, then the writes (R76, R275). -/
def storeEffect (u : IssueUnit) (r w : State) (d : Reg) (size : Nat) (m : Addr)
    (addrs : List (UPart × Nat × Word)) : Effect :=
  if u.lanes.isEmpty then .done w
  else match (writeWait u r m.order).orElse fun _ => spanWait r u.part u.asid (addrs.map (·.2.2)) with
  | some x => .wait r x
  | none =>
    let c := checkLanes u size size .store w addrs
    match accessTrap u r c.2 with
    | some t => .trap t
    | none =>
      let c1 := takeFaulted c.1 (missingLines c.1 u.part true size c.2)
      let missing := missingLines c1 u.part true size c.2
      match c.2.find? fun a => tileReserved c.1 u.part a.place with
      | some a => .wait r (birthsWait u.part a.place 1)
      | none =>
        if !missing.isEmpty then .wait (askAll r missing) (linesWait missing)
        else
        let b := births true c1 u.part (tilesOf c.2) []
        match existFullTrap u r c.2 b.2 with
        | some t => .trap t
        | none => .done (writePlaces (touchAll b.1 u m.policy true c.2) u.part (storeWrites u r d size c.2))

/-- ST (R275). -/
def execSt (h : Head) (t : LdTy) (d : Reg) (m : Addr) (off : BitVec 7) (s : State) : Host.Outcome State Fault Refusal :=
  issue (.st h t d m off) h (fun u r w =>
    storeEffect u r w d (LdTy.bytes t) m (u.addrs r m off.toInt (LdTy.bytes t))) s

/-- SCAT (R276): lanes outside the bound write nothing and are not checked. -/
def execScat (h : Head) (t : W2) (d : Reg) (m : Addr) (off : BitVec 7) (s : State) : Host.Outcome State Fault Refusal :=
  issue (.scat h t d m off) h (fun u r w =>
    storeEffect u r w d (W2.bytes t) m (boundedAddrs u r m off.toInt (W2.bytes t))) s

end Sys2Proof.Machine
end

