-- ==== Sys2Proof/Machine/Exist.lean ====
section
/-! DEFINITION. The existence instructions EALLOC, ERASE, ERASER and ETEST and the completion of existence results
(R80-R84). -/

namespace Sys2Proof.Machine

/-- The effective address of an existence instruction: units and alignment of 256 bytes (R80). -/
def existAddrs (u : IssueUnit) (r : State) (m : Addr) (off : BitVec 7) : List (UPart × Nat × Word) :=
  u.addrs r m off.toInt 256

/-- Causes found after those of R37, for lanes that have none (R81). -/
def addCauses (as : List LaneAcc) (f : LaneAcc → Option Nat) : List LaneAcc :=
  as.map fun a => if a.cause.isSome then a else { a with cause := f a }

/-- The tile size of a place's region. -/
def placeTileBytes (s : State) (part : Nat) (p : Place) : Nat :=
  match p with
  | .tile r _ _ _ => (s.region? part r).elim 256 fun g => tileBytes g.tsize
  | _ => 256

/-- The tiles of a place's region (R81). -/
def placeTiles (s : State) (part : Nat) (p : Place) : Nat :=
  match p with
  | .tile r _ _ _ => (s.region? part r).elim 0 fun g => 2 ^ 26 * g.size / tileBytes g.tsize
  | _ => 0

/-- MISALIGNED where an erased address is not the start of a tile (R81). -/
def eraseAlign (a : LaneAcc) : Option Nat :=
  match a.place with
  | .tile _ _ o _ => if o = 0 then none else some Code.misaligned
  | _ => none

/-- Copies of a tile's lines dropped, then the tile erased (R75, R83). -/
def eraseAt (s : State) (part r t : Nat) : State :=
  match s.region? part r with
  | none => s
  | some g => match g.tiles.get? t with
    | none => s
    | some pa =>
      let n := tileBytes g.tsize
      eraseTile (dropTile s part r t pa n) part r t

/-- `n` tiles erased from a tile on (R81). -/
def eraseRun (s : State) (part r t n : Nat) : State := (List.range n).foldl (fun s i => eraseAt s part r (t + i)) s

/-- How many tiles from a place on are held for births in flight. -/
def anyReserved (s : State) (part : Nat) (p : Place) (n : Nat) : Bool :=
  match p with
  | .tile r t _ _ => (s.region? part r).elim false fun g => g.reserved.any fun x => decide (t ≤ x.1 ∧ x.1 < t + n)
  | _ => false

/-- The cause an erase of `n` tiles from an access on finds: not the start of a tile, or past the region's last tile
(R81). The spec does not say which cause a lane has that meets both: MISALIGNED (DESIGN CHOICE, log 25). -/
def eraseCause (s : State) (part : Nat) (a : LaneAcc) (n : Nat) : Option Nat :=
  (eraseAlign a).orElse fun _ => match a.place with
    | .tile _ t _ _ => if placeTiles s part a.place < t + n then some Code.protection else none
    | _ => none

/-- `n` tiles erased from a place on (R81). -/
def eraseFrom (s : State) (part : Nat) (p : Place) (n : Nat) : State :=
  match p with
  | .tile g t _ _ => eraseRun s part g t n
  | _ => s

/-- The effect of ERASE and ERASER: `n` tiles of each lane (R81). -/
def eraseEffect (u : IssueUnit) (r w : State) (o : Order) (addrs : List (UPart × Nat × Word)) (n : UPart → Nat → Nat) :
    Effect :=
  if u.lanes.isEmpty then .done w
  else match writeWait u r o with
  | some x => .wait r x
  | none =>
    let c := checkLanes u 256 256 .exist w addrs
    let as := addCauses c.2 fun a => eraseCause c.1 u.part a (n a.part a.lane)
    match accessTrap u r as with
    | some t => .trap t
    | none =>
      match as.find? fun a => anyReserved c.1 u.part a.place (n a.part a.lane) with
      | some a => .wait r (birthsWait u.part a.place (n a.part a.lane))
      | none => .done (as.foldl (fun s a => eraseFrom s u.part a.place (n a.part a.lane)) c.1)

/-- ERASE (R80, R81). -/
def execErase (h : Head) (m : Addr) (off : BitVec 7) (s : State) : Host.Outcome State Fault Refusal :=
  issue (.erase h m off) h (fun u r w => eraseEffect u r w m.order (existAddrs u r m off) fun _ _ => 1) s

/-- ERASER (R80, R81): the count of each lane is its D. -/
def execEraser (h : Head) (d : Reg) (m : Addr) (off : BitVec 7) (s : State) : Host.Outcome State Fault Refusal :=
  issue (.eraser h d m off) h (fun u r w =>
    eraseEffect u r w m.order (existAddrs u r m off) fun x l => (u.read r x d l).toNat) s

/-- A result of an existence instruction put in flight for its completion step. -/
def startExist (u : IssueUnit) (h : Head) (s : State) (d : Reg) (f : UPart → Nat → Half) : State :=
  u.start (reserve s u d 1) h [] none (.result .exist ⟨u.regWrites d f fun _ _ => true, [], [], 0, none⟩)

/-- The result of EALLOC in a lane: 1 for the lane that births its tile, 0 where the tile exists (R80, R81). -/
def eallocResult (s : State) (part : Nat) (as : List LaneAcc) (x : UPart) (l : Nat) : Half :=
  match as.find? fun a => a.part.uid == x.uid && a.lane == l with
  | none => 0
  | some a =>
    let first := (as.find? fun b => tileOf b == tileOf a).elim false fun b => b.part.uid == x.uid && b.lane == l
    if existsAt s part a || !first then 0 else 1

/-- The trap of EALLOC: the lowest lane with any cause decides, a refused birth among them (R81). -/
def eallocTrap (u : IssueUnit) (r : State) (as : List LaneAcc) (bad : List (Nat × Nat × Nat)) : Option Trap :=
  let all := addCauses as fun a => (refusalOf bad a).map fun _ => Code.existFull
  match all.find? fun a => a.cause.isSome with
  | none => none
  | some f => if f.cause = some Code.existFull then existFullTrap u r as bad else accessTrap u r all

/-- EALLOC (R80, R81). -/
def execEalloc (h : Head) (d : Reg) (m : Addr) (off : BitVec 7) (s : State) : Host.Outcome State Fault Refusal :=
  issue (.ealloc h d m off) h (fun u r w =>
    if u.lanes.isEmpty then .done w
    else match writeWait u r m.order with
    | some x => .wait r x
    | none =>
      let c := checkLanes u 256 256 .exist w (existAddrs u r m off)
      match c.2.find? fun a => tileReserved c.1 u.part a.place with
      | some a => .wait r (birthsWait u.part a.place 1)
      | none =>
        let b := births true c.1 u.part (tilesOf c.2) []
        match eallocTrap u r c.2 b.2 with
        | some t => .trap t
        | none => .done (startExist u h b.1 d (eallocResult c.1 u.part c.2))) s

/-- The mask of ETEST for a place: the 32 tiles of the aligned group that holds it (R80, R81). -/
def etestMask (s : State) (part : Nat) (p : Place) : Half :=
  match p with
  | .tile r t _ _ =>
    lanesWhere fun i => decide (32 * (t / 32) + i < placeTiles s part p) && s.tileExists part r (32 * (t / 32) + i)
  | _ => 0

/-- ETEST (R80, R81). -/
def execEtest (h : Head) (d : Reg) (m : Addr) (off : BitVec 7) (s : State) : Host.Outcome State Fault Refusal :=
  issue (.etest h d m off) h (fun u r w =>
    if u.lanes.isEmpty then .done w
    else if readsPending r u then .wait r u.stallReads
    else
      let c := checkLanes u 256 256 .etest w (existAddrs u r m off)
      match accessTrap u r c.2 with
      | some t => .trap t
      | none => .done (startExist u h c.1 d fun x l =>
          ((c.2.find? fun a => a.part.uid == x.uid && a.lane == l).map fun a => etestMask c.1 u.part a.place).getD 0)) s

/-- EXISTENCE_COMPLETION (R199): the results of LDE, EALLOC and ETEST. -/
def execExistenceCompletion (id : Nat) (s : State) : Host.Outcome State Fault Refusal :=
  match s.pend.get? id with
  | some q => match q.work with
    | .load c => .next (if c.exist then finishLoad s id q c else s)
    | .result .exist r => .next (deliver s id q false r)
    | _ => .next s
  | none => .next s

end Sys2Proof.Machine
end

