-- ==== Sys2Proof/Machine/Atomic.lean ====
section
/-! DEFINITION. ATOM (R278-R280): its issue, its performance at the home, and the values it computes. -/

namespace Sys2Proof.Machine

/-- The access size of an ATOM (R278). -/
def AtomOp.bytes : AtomOp → Nat
  | .addI64 | .minI64 | .minN64 | .maxI64 | .maxN64 | .andB64 | .orB64 | .exchB64 | .casB64 => 8
  | _ => 4

/-- A sum of two encodings of a float format in round to nearest even, away from fmt (R279). -/
def atomAdd (f : Fmt) (a b : Nat) : Nat := (f.add .rne false a b).1

/-- Two packed float sums (R279). -/
def atomAdd2 (f : Fmt) (a b : Half) : Half :=
  let e := fun i => BitVec.ofNat 16 (atomAdd f (elem16 a i).toNat (elem16 b i).toNat)
  pack16 (e 0) (e 1)

/-- The 32-bit operations of R279: new from old and v, with `c` the new operand of a cas. -/
def atom32 (op : AtomOp) (old v c : Half) : Half :=
  match op with
  | .addI32 => old + v
  | .addF32 => BitVec.ofNat 32 (atomAdd .f32 old.toNat v.toNat)
  | .addF16x2 => atomAdd2 .f16 old v
  | .addBf16x2 => atomAdd2 .bf16 old v
  | .minI32 => sMin old v
  | .minN32 => uMin old v
  | .maxI32 => sMax old v
  | .maxN32 => uMax old v
  | .andB32 => old &&& v
  | .orB32 => old ||| v
  | .xorB32 => old ^^^ v
  | .incN32 => if v.toNat ≤ old.toNat then 0 else old + 1
  | .decN32 => if old = 0 ∨ v.toNat < old.toNat then v else old - 1
  | .exchB32 => v
  | .casB32 => if old = v then c else old
  | _ => old

/-- The 64-bit operations of R279. -/
def atom64 (op : AtomOp) (old v c : Word) : Word :=
  match op with
  | .addI64 => old + v
  | .minI64 => sMin old v
  | .minN64 => uMin old v
  | .maxI64 => sMax old v
  | .maxN64 => uMax old v
  | .andB64 => old &&& v
  | .orB64 => old ||| v
  | .exchB64 => v
  | .casB64 => if old = v then c else old
  | _ => old

/-- new of R279 from old, v and the new operand of a cas, for the width of the operation. -/
def atomNew (op : AtomOp) (old v c : Word) : Word :=
  if AtomOp.bytes op = 8 then atom64 op old v c else (atom32 op (lo32 old) (lo32 v) (lo32 c)).setWidth 64

/-- The operands of a lane (R278). -/
def atomLane (u : IssueUnit) (r : State) (op : AtomOp) (d : Reg) (a : LaneAcc) : AtomLane :=
  let v : Word := if AtomOp.bytes op = 8 then u.read64 r a.part d a.lane else (u.read r a.part d a.lane).setWidth 64
  let c : Word := match op with
    | .casB32 => (u.read r a.part (Reg.plus d 1) a.lane).setWidth 64
    | .casB64 => u.read64 r a.part (Reg.plus d 2) a.lane
    | _ => 0
  ⟨a.part.uid, a.lane, a.part.lane a.lane, a.ea, a.place, v, c, none⟩

/-- What an ATOM does to copies before it is performed: on a line of a stash window of its block it is performed on the
stash row, else at the home once every copy is recalled (R61, R64, R66). -/
def atomTouch (s : State) (part block asid : Nat) (ea : Word) (p : Place) : State :=
  match cacheLine s part p, stashOf s block ea p with
  | some l, some n => touchWindow s part (s.coreOf block) block (some (asid, ea)) n l true
  | _, _ => coreTouch s part (s.coreOf block) block (some (asid, ea)) p true

/-- A tile that an ATOM writes made to exist: its reserved birth, or a re-birth after an erase (R76, R83). -/
def atomTile (s : State) (part : Nat) (p : Place) : State :=
  match p with
  | .tile r t _ k => if s.tileExists part r t then s else rebirth (commitTile s part r t k) part r t k
  | _ => s

/-- The old value at a place. -/
def atomOld (s : State) (part : Nat) (p : Place) (n : Nat) : Word := BitVec.ofNat 64 (leNat (placeBytes s part p n))

/-- An ATOM's read, operation and write at a place that holds its bytes: the state and the old value (R278). -/
def atomApply (s : State) (part : Nat) (op : AtomOp) (p : Place) (v c : Word) : State × List Byte :=
  let n := AtomOp.bytes op
  let old := atomOld s part p n
  (writePlace s part p (leBytes n (atomNew op old v c).toNat), leBytes n old.toNat)

/-- One lane of an ATOM performed at its home on this package: the state and what the lane obtains (R278-R280). -/
def performLane (s : State) (part block asid : Nat) (op : AtomOp) (a : AtomLane) : State × LaneGot :=
  if placeLost s part a.place (AtomOp.bytes op) then (s, .lost)
  else
    let y := atomApply (atomTile (atomTouch s part block asid a.ea a.place) part a.place) part op a.place a.v a.new
    (y.1, .bytes y.2)

/-- The lanes of an ATOM that its checks found on discarded pages in a state performed in unit order, each page's
re-establishment and the first write to it being one event (R97). -/
def performDiscarded (w : State) (u : IssueUnit) (op : AtomOp) : State → List AtomLane → State × List AtomLane
  | s, [] => (s, [])
  | s, a :: rest =>
    if discardedAt w u.part u.asid a.ea then
      let x := performLane s u.part u.block u.asid op a
      let y := performDiscarded w u op x.1 rest
      (y.1, { a with got := some x.2 } :: y.2)
    else
      let y := performDiscarded w u op s rest
      (y.1, a :: y.2)

/-- A reload in progress of the descriptor that a place was found by. -/
def reloadOf (s : State) (part : Nat) (p : Place) : Option Nat :=
  match p with
  | .tile r _ _ _ => (s.pend.find? fun q => q.2.part == part && match q.2.work with
    | .reload g _ => g == r
    | _ => false).map (·.1)
  | _ => none

/-- What a lane of an ATOM waits for before its birth is reserved: one in flight of its tile (R76), or a reload of its region's
descriptor (R71). -/
def atomWait (s : State) (part : Nat) (a : LaneAcc) : Option Wait :=
  if tileReserved s part a.place then some (birthsWait part a.place 1) else (reloadOf s part a.place).map .command

/-- ATOM (R278): operands and checks at issue, births reserved (R76), the ATOM in flight to its home; lanes on a discarded page,
which the checks have re-established, are performed at once (R97). -/
def execAtom (h : Head) (op : AtomOp) (d : Reg) (m : Addr) (off : BitVec 7) (s : State) :
    Host.Outcome State Fault Refusal :=
  issue (.atom h op d m off) h (fun u r w =>
    let n := AtomOp.bytes op
    if u.lanes.isEmpty then .done w
    else match (writeWait u r m.order).orElse fun _ => spanWait r u.part u.asid ((u.addrs r m off.toInt n).map (·.2.2)) with
    | some x => .wait r x
    | none =>
      let c := checkLanes u n n .atom w (u.addrs r m off.toInt n)
      match accessTrap u r c.2 with
      | some t => .trap t
      | none =>
        match c.2.findSome? (atomWait c.1 u.part) with
        | some x => .wait r x
        | none =>
          let b := births false c.1 u.part (tilesOf c.2) []
          match existFullTrap u r c.2 b.2 with
          | some t => .trap t
          | none =>
            let z := performDiscarded w u op b.1 (c.2.map (atomLane u r op d))
            .done (u.start (reserve z.1 u d (sizeRegs n)) h [] none (.atom op d z.2))) s

/-- The message that takes one lane of an ATOM to the peer home of its line: operation, command, lane, place in the line
and operands (R373; DESIGN CHOICE, log 31). -/
def atomMsg (id : Nat) (op : AtomOp) (a : AtomLane) (x : Nat) : FabMsg :=
  lineMsg (x / 128) (.atom op id a.num (x % 128) a.v a.new)

/-- A lane of an ATOM sent to the peer home once; the line leaves the local LLC first (R61, R280, R373). -/
def sendAtom (s : State) (id : Nat) (op : AtomOp) (a : AtomLane) (x : Nat) : State :=
  let m := atomMsg id op a x
  if s.fab.pendingMsg m then s else sendMsg (evictFabric s (x / 128)) m

/-- The lanes of an ATOM performed in unit order, up to one whose peer has yet to answer (R102, R280). -/
def performLanes (id part block asid : Nat) (op : AtomOp) : State → List AtomLane → State × List AtomLane
  | s, [] => (s, [])
  | s, a :: rest =>
    if a.got.isSome then
      let y := performLanes id part block asid op s rest
      (y.1, a :: y.2)
    else match a.place with
      | .fabric x _ =>
        if placeLost s part a.place (AtomOp.bytes op) then
          let y := performLanes id part block asid op s rest
          (y.1, { a with got := some .lost } :: y.2)
        else (sendAtom s id op a x, a :: rest)
      | _ =>
        match placeMissing s part true a.place (AtomOp.bytes op) with
        | [] =>
          let z := performLane s part block asid op a
          let y := performLanes id part block asid op z.1 rest
          (y.1, { a with got := some z.2 } :: y.2)
        | ws => (askAll s ws, a :: rest)

/-- A lane that has been performed, as a load's lane. -/
def AtomLane.loaded (a : AtomLane) (pred : Bool) : LaneLoad := ⟨a.warp, a.lane, a.num, a.ea, a.got.getD .lost, pred⟩

/-- The opcode of an ATOM (R279). -/
def AtomOp.opcode (op : AtomOp) : Nat := 0x0D9 + op.code

/-- The ASID a block's kernel runs under (R86). -/
def State.asidOfBlock (s : State) (block : Nat) : Nat :=
  ((s.blocks.get? block).bind fun b => s.kernels.get? b.kernel).elim 0 (·.asid)

/-- ATOM_PERFORM (R278): the lanes performed at their homes; once all have been, the old values are written to D. -/
def execAtomPerform (id : Nat) (s : State) : Host.Outcome State Fault Refusal :=
  match s.pend.get? id with
  | some q => match q.work with
    | .atom op d lanes =>
      let x := performLanes id q.part q.block (s.asidOfBlock q.block) op s lanes
      if x.2.all fun a => a.got.isSome then
        let c : LoadCmd := ⟨d, AtomOp.bytes op, none, AtomOp.opcode op, x.2.map fun a => a.loaded false⟩
        .next (deliver x.1 id q false (c.resultIn x.1 q.warps q.order))
      else .next (setWork x.1 id (.atom op d x.2))
    | _ => .next s
  | none => .next s

end Sys2Proof.Machine
end

