-- ==== Sys2Proof/Machine/Residency.lean ====
section
/-! DEFINITION. FENCE (R281), TOKEN (R282, R360, R364, R365), PREFETCH, RESERVE, DISCARD and REQPAGE (R283-R286), the
demand ring (R95, R96). -/

namespace Sys2Proof.Machine

/-! ## FENCE -/

/-- The fetch unit's cache of a core invalidated (R67). -/
def dropFetchCache (s : State) (core : Nat) : State := s.mapCore core fun c => { c with fcache := [] }

/-- Whether an ordering includes an acquire. -/
def Order.acquires (o : Order) : Bool := o == .acq || o == .acqrel

/-- FENCE (R281): the split stalls while an access of its warps has not been performed or has not taken its value; an
acquire at .core or wider invalidates the fetch unit's cache. -/
def execFence (h : Head) (order : Order) (sc : MScope) (s : State) : Host.Outcome State Fault Refusal :=
  issue (.fence h order sc) h (fun u r w =>
    if u.lanes.isEmpty then .done w
    else if accessesPending r u then .wait r u.stallAccesses
    else if Order.acquires order && sc != .warp then .done (dropFetchCache w u.core)
    else .done w) s

/-! ## TOKEN -/

/-- The DET_ORDER of a TOKEN (R282, R349, R360). -/
def tokenTrap (u : IssueUnit) (s : State) (code : Half) : Trap :=
  u.trapAll s Code.detOrder 0 0 (BitVec.ofNat 32 (u.lead.elim 0 fun x => x.1.lane x.2)) code

/-- The tinfo3 code with which TOKEN traps in any form: a spawned warp, or a kernel with det = 0 (R282, R360). -/
def tokenCode (s : State) (u : IssueUnit) : Option Half :=
  if !(s.kernels.get? u.kernel).elim false (·.det) then some 2 else if u.packed s then some 4 else none

/-- TOKEN.take (R282): waits, at a safe condition, until the block holds the token. -/
def execTokenTake (h : Head) (s : State) : Host.Outcome State Fault Refusal :=
  issue (.tokenTake h) h (fun u r w =>
    if u.lanes.isEmpty then .done w
    else match tokenCode r u with
      | some c => .trap (tokenTrap u r c)
      | none => if holdsToken r u then .done w else .wait r (.stall (.token u.kernel u.block))) s

/-- Engine commands of a block in flight (R365). -/
def engineBusy (s : State) (block : Nat) : Bool :=
  s.pend.any fun q => q.2.block == block && match q.2.work with
    | .copy _ _ | .crel _ | .binc _ _ _ _ | .binp _ | .unstash _ _ | .fetch _ _ _ _ _ _ _ => true
    | .result (.matrix _ _) _ | .tjac _ _ _ _ _ _ _ _ _ _ _ _ _ _ _ => true
    | _ => false

/-- TOKEN.pass (R282, R365): stalls until engine commands of the block have completed, then the token moves on. -/
def execTokenPass (h : Head) (s : State) : Host.Outcome State Fault Refusal :=
  issue (.tokenPass h) h (fun u r w =>
    if u.lanes.isEmpty then .done w
    else match tokenCode r u with
      | some c => .trap (tokenTrap u r c)
      | none =>
        if !holdsToken r u then .trap (tokenTrap u r 3)
        else if accessesPending r u then .wait r u.stallAccesses
        else if engineBusy r u.block then .wait r (.stall (.engines u.block))
        else .done (w.mapKernel u.kernel fun k => k.passToken ((r.blocks.get? u.block).elim 0 (·.rank)))) s

/-! ## PREFETCH and RESERVE -/

/-- The trap of R283: a non-canonical address. -/
def canonTrap (u : IssueUnit) (s : State) (addrs : List (UPart × Nat × Word)) : Option Trap :=
  let bad := fun (a : UPart × Nat × Word) => decide (2 ^ 56 ≤ a.2.2.toNat)
  (addrs.find? bad).map fun f =>
    u.trapLanes s Code.pageFault (lo32 f.2.2) (hi32 f.2.2) (BitVec.ofNat 32 (f.1.lane f.2.1)) 0 fun x l =>
      addrs.any fun a => a.1.uid == x.uid && a.2.1 == l && bad a

/-- PREFETCH (R283, R284): lines that translate and allow reading are brought toward the core; other lanes have no
effect. -/
def execPrefetch (h : Head) (m : Addr) (off : BitVec 7) (s : State) : Host.Outcome State Fault Refusal :=
  issue (.prefetch h m off) h (fun u r w =>
    let addrs := u.addrs r m off.toInt 128
    match canonTrap u r addrs with
    | some t => .trap t
    | none =>
      let c := checkLanes u 1 1 .prefetch w addrs
      let as := c.2.filter fun a => a.cause.isNone && a.place != .absent
      .done (askAll (touchAll c.1 u m.policy false as) (missingLines c.1 u.part false 1 as))) s

/-- The lines that overlap `n` bytes from an address: the first, and the one after the last (R284). -/
def reserveSpan (ea : Word) (n : Nat) : Nat × Nat :=
  (ea.toNat / 128, if n = 0 then ea.toNat / 128 else (ea.toNat + n + 127) / 128)

/-- One line brought into the LLC: into the retained class of the range it matches under the retain policy, else as the
normal policy places it (R66, R284); a fabric line that the local LLC does not hold is asked of its peer (R373). A line that
does not translate or may not be read is skipped. -/
def reserveLine (u : IssueUnit) (pol : Policy) (s : State) (va : Word) : State :=
  if inAperture va then s
  else match resolve s u.part u.asid u.block va 1 .load with
    | .error _ => s
    | .ok (s1, p) => match cacheLine s1 u.part p with
      | none => s1
      | some l => if !(placeMissing s1 u.part false p 1).isEmpty then askAll s1 (placeMissing s1 u.part false p 1)
        else s1.mapPart u.part fun q =>
        match (if effPolicy s1 u va pol == .retain then q.rangeOf u.asid va else none) with
        | some n => if q.granted n = 0 then q.llcPut s1.draws l none .normal else q.llcPut s1.draws l (some n) .retain
        | none => q.arrive s1.draws (some (u.asid, va)) l .normal

/-- The lines of a span in one 64 KiB page, unless the whole page is skipped or an earlier lane has named them (R283,
R284). -/
def reservePage (u : IssueUnit) (pol : Policy) (seen : List (Nat × Nat)) (x : Nat × Nat) (s : State) (page : Nat) : State :=
  let first := Nat.max x.1 (512 * page)
  match resolve s u.part u.asid u.block (BitVec.ofNat 64 (128 * first)) 1 .load with
  | .error _ => s
  | .ok _ =>
    (((List.range (Nat.min x.2 (512 * page + 512) - first)).map fun i => first + i).filter fun l =>
      !(seen.any fun y => decide (y.1 ≤ l ∧ l < y.2))).foldl (fun s l => reserveLine u pol s (BitVec.ofNat 64 (128 * l))) s

/-- The spans of lanes in order, one that an earlier lane covers apart. -/
def reserveSpans (u : IssueUnit) (pol : Policy) : State → List (Nat × Nat) → List (Nat × Nat) → State
  | s, _, [] => s
  | s, seen, x :: rest =>
    if x.2 ≤ x.1 ∨ (seen.any fun y => decide (y.1 ≤ x.1 ∧ x.2 ≤ y.2)) then reserveSpans u pol s seen rest
    else
      let pages := (List.range ((x.2 + 511) / 512 - x.1 / 512)).map fun i => x.1 / 512 + i
      reserveSpans u pol (pages.foldl (reservePage u pol seen x) s) (x :: seen) rest

/-- RESERVE (R283, R284): the lines of each lane's range are brought into the LLC, each line once. -/
def execReserve (h : Head) (d : Reg) (m : Addr) (off : BitVec 7) (s : State) : Host.Outcome State Fault Refusal :=
  issue (.reserve h d m off) h (fun u r w =>
    let addrs := u.addrs r m off.toInt 128
    match canonTrap u r addrs with
    | some t => .trap t
    | none =>
      .done (reserveSpans u m.policy w [] (addrs.map fun a => reserveSpan a.2.2 (u.read r a.1 d a.2.1).toNat))) s

/-! ## DISCARD -/

/-- One page discarded (R285): dsc set by the walker, copies dropped without write-back, the page invalidated, lost
lines ended. -/
def discardPage (s : State) (part asid : Nat) (va : Word) : State :=
  match walk s part asid va with
  | none => s
  | some w =>
    if ebit w.leaf 18 then s
    else
      let base := efield w.leaf 24 40 * 2 ^ 16
      let n := 2 ^ levelBits w.level
      let s1 := writeLeaf (walkTouch s part asid va) part w (w.leaf ||| 0x40000#64)
      let s2 := recallPeers (dropLlc (dropCopies s1 (lineIn base n)) (lineIn base n)) (lineIn base n)
      { s2 with lost := s2.lost.filter fun l => !lineIn base n l }.mapPart part fun p => p.invalidate (.address asid va)

/-- DISCARD (R283, R285): the pages are walked again, so that each is discarded by the leaf that was checked. -/
def execDiscard (h : Head) (m : Addr) (off : BitVec 7) (s : State) : Host.Outcome State Fault Refusal :=
  issue (.discard h m off) h (fun u r w =>
    if u.lanes.isEmpty then .done w
    else match writeWait u r m.order with
    | some x => .wait r x
    | none =>
      let c := checkLanes u 1 1 .discard w (u.addrs r m off.toInt 65536)
      match accessTrap u r c.2 with
      | some t => .trap t
      | none =>
        if spanFull r u.part then .wait r (.stall (.span u.part))
        else .done (c.2.foldl (fun s a => discardPage s u.part u.asid a.ea) c.1)) s

/-! ## REQPAGE -/

/-- Records a demand ring holds: 2^lg, with lg from 4 to 16 (R96). -/
def Partition.ringSize (p : Partition) : Nat := 2 ^ Nat.min 16 (Nat.max 4 ((p.sys 0x0D5).toNat % 32))

/-- Physical base of the demand ring (R96). -/
def Partition.ringBase (p : Partition) : Nat :=
  (p.sys 0x0D4).toNat % 2 ^ 24 * 2 ^ 32 + (p.sys 0x0D3).toNat / 2 ^ 12 * 2 ^ 12

/-- The 16 bytes of a demand record (R96). -/
def demandRecord (va : Word) (asid tsc : Nat) : List Byte :=
  leBytes 8 (va.toNat / 2 ^ 16 * 2 ^ 16) ++ leBytes 2 asid ++ [0, 0] ++ leBytes 4 tsc

/-- A request posted for a non-resident page that has not been requested (R95, R96); with notification off only the request
of such a page sets full (DESIGN CHOICE, log 25). -/
def postRequest (s : State) (part asid : Nat) (va : Word) : State :=
  match s.parts.get? part, walk s part asid va with
  | some p, some w =>
    if leafType w.leaf != 2 || ebit w.leaf 20 || ebit w.leaf 21 then s
    else
      let ctl := p.sys 0x0D5
      if !ctl.getLsbD 31 || (p.dnhead - p.sys 0x0D7).toNat == p.ringSize then
        s.mapPart part fun p => { p with sysregs := p.sysregs.setNum 0x0D5 (ctl ||| 0x20000000#32) }
      else
        let s1 := writeLeaf (walkTouch s part asid va) part w (w.leaf ||| 0x200000#64)
        let slot := p.ringBase + 16 * (p.dnhead.toNat % p.ringSize)
        let s2 := devWrite s1 part slot (demandRecord va asid s.tsc)
        let s3 := s2.mapPart part fun p => { p with dnhead := p.dnhead + 1 }
        if ctl.getLsbD 30 then s3.raise part 1 else s3
  | _, _ => s

/-- REQPAGE (R283, R286). -/
def execReqpage (h : Head) (m : Addr) (off : BitVec 7) (s : State) : Host.Outcome State Fault Refusal :=
  issue (.reqpage h m off) h (fun u r w =>
    let c := checkLanes u 1 1 .reqpage w (u.addrs r m off.toInt 65536)
    match accessTrap u r c.2 with
    | some t => .trap t
    | none => .done (c.2.foldl (fun s a => postRequest s u.part u.asid a.ea) c.1)) s

end Sys2Proof.Machine
end

