-- ==== Sys2Proof/Machine/Launch.lean ====
section
/-! DEFINITION. Launch records (R154), their checks (R155), and the acceptance of a launch from a slot or a lane
(R157-R160). -/

namespace Sys2Proof.Machine

/-- A launch record (R154). -/
structure LaunchRec where
  entry    : Word
  gx       : Nat
  gy       : Nat
  gz       : Nat
  scratch  : Nat
  pool     : Half
  control  : Word
  prereq   : List Nat
  cwa      : Word
  affinity : Word
  args     : List Half
  deriving DecidableEq, Repr

/-- A little-endian field of bytes. -/
def fieldOf (bs : List Byte) (off n : Nat) : Nat := leNat ((bs.drop off).take n)

/-- The record that 128 bytes hold (R154). -/
def LaunchRec.ofBytes (bs : List Byte) : LaunchRec where
  entry := BitVec.ofNat 64 (fieldOf bs 0 8)
  gx := fieldOf bs 8 4
  gy := fieldOf bs 12 2
  gz := fieldOf bs 14 2
  scratch := fieldOf bs 16 4
  pool := BitVec.ofNat 32 (fieldOf bs 20 4)
  control := BitVec.ofNat 64 (fieldOf bs 24 8)
  prereq := (List.range 4).map fun i => fieldOf bs (32 + 2 * i) 2
  cwa := BitVec.ofNat 64 (fieldOf bs 40 8)
  affinity := BitVec.ofNat 64 (fieldOf bs 48 8)
  args := (List.range 16).map fun i => BitVec.ofNat 32 (fieldOf bs (64 + 4 * i) 4)

/-- Fields of the control word (R154). -/
def LaunchRec.numver (r : LaunchRec) : Nat := efield r.control 48 4
def LaunchRec.det (r : LaunchRec) : Bool := ebit r.control 47
def LaunchRec.irq (r : LaunchRec) : Bool := ebit r.control 46
def LaunchRec.prio (r : LaunchRec) : Nat := efield r.control 44 2
def LaunchRec.nprereq (r : LaunchRec) : Nat := efield r.control 41 3
def LaunchRec.gblk (r : LaunchRec) : Nat := efield r.control 38 3
def LaunchRec.tiles (r : LaunchRec) : Nat := efield r.control 31 7
def LaunchRec.peak (r : LaunchRec) : Nat := efield r.control 23 8
def LaunchRec.warps (r : LaunchRec) : Nat := efield r.control 0 5 + 1

/-- Counts of a pool word (R43). -/
def poolReg (x : Half) : Nat := x.toNat % 2 ^ 8
def poolScr (x : Half) : Nat := x.toNat / 2 ^ 8 % 2 ^ 8
def poolCch (x : Half) : Nat := x.toNat / 2 ^ 16 % 2 ^ 8
def poolMat (x : Half) : Nat := x.toNat / 2 ^ 24

/-- Division rounded up. -/
def ceilDiv (a b : Nat) : Nat := (a + b - 1) / b

/-- Whether a completion-word address translates to a writable page (R155). -/
def cwaOk (s : State) (part asid : Nat) (cwa : Word) : Bool :=
  !inAperture cwa && match resolve s part asid 0 cwa 8 .engineWrite with
    | .ok _ => true
    | .error _ => false

/-- The conditions of code 1 of R155 that do not concern cwa (R154). -/
def LaunchRec.malformed (r : LaunchRec) : Bool :=
  let blocks := r.gx * r.gy * r.gz
  efield r.control 52 12 != 0 || efield r.control 5 18 != 0 || decide (2 ≤ r.numver) || decide (5 ≤ r.nprereq)
    || decide (65 ≤ r.tiles) || decide (193 ≤ r.peak) || blocks == 0 || decide (2 ^ 32 - 1 < blocks)
    || blocks % (r.gblk + 1) != 0 || r.entry.toNat % 8 != 0

/-- The condition of code 2 of R155: no core could hold one block even when empty. -/
def LaunchRec.neverPlaceable (r : LaunchRec) : Bool :=
  let reg := Nat.max (Nat.max (ceilDiv (r.peak * r.warps) 512) (poolReg r.pool)) 8
  let scr := Nat.max (ceilDiv (ceilDiv r.scratch 128) 512) (poolScr r.pool)
  let mat := Nat.max (ceilDiv r.tiles 16) (poolMat r.pool)
  decide (64 < reg + scr + mat + poolCch r.pool) || decide (48 < poolCch r.pool)

/-- Why a record is refused: code 1, code 2, or code 1 because of cwa (R155, R156). -/
inductive Refused where
  | malformed | never | cwa
  deriving DecidableEq, Repr

/-- The first refusal that applies to a record (R155); a slot's arm word and ASID may hold a reserved bit too (R86, R156). -/
def LaunchRec.refusal (s : State) (part asid : Nat) (r : LaunchRec) (reserved : Bool) : Option Refused :=
  if r.malformed || reserved then some .malformed
  else if r.cwa != 0 && (r.cwa.toNat % 8 != 0 || !cwaOk s part asid r.cwa) then some .cwa
  else if r.neverPlaceable then some .never
  else none

/-- A slot's state byte (R156). -/
def slotState (s : State) (part slot : Nat) : Nat :=
  match s.parts.get? part with
  | none => 0
  | some p => (plainByte s (p.key 0) (p.frame + 128 * slot + 60)).toNat

/-- Whether a kernel has completed: one whose completion word alone is withheld has (R160, R363). -/
def completed (s : State) (k : Nat) : Bool := (s.kernels.get? k).elim true fun k => k.state == .held

/-- The kernel a prerequisite handle names, if it has not completed; `none` where the prerequisite is met at once
(R160). -/
def prereqOf (s : State) (part : Nat) (launcher : Option Nat) (h : Nat) : Option Nat :=
  if h < 2 ^ 12 then
    match ((s.parts.get? part).bind fun p => p.pool.get? h), launcher with
    | some e, some k => if e.parent = k ∧ !completed s e.child then some e.child else none
    | _, _ => none
  else if 2 ^ 15 ≤ h ∧ h < 2 ^ 15 + 64 then
    (s.kernels.find? fun c => c.2.part == part && c.2.slot == some (h - 2 ^ 15)).map (·.1)
  else none

/-- A kernel made of an accepted record (R154, R158). -/
def LaunchRec.kernel (r : LaunchRec) (s : State) (part asid depth : Nat) (parent slot handle : Option Nat) (tag : Half)
    (lkey : List Nat) : Kernel where
  part := part
  asid := asid
  entry := r.entry
  gx := r.gx
  gy := r.gy
  gz := r.gz
  scratch := r.scratch
  pool := r.pool
  numver := r.numver
  det := r.det
  irq := r.irq
  prio := r.prio
  prereq := (r.prereq.take r.nprereq).filterMap fun h => prereqOf s part parent h
  gblk := r.gblk
  tiles := r.tiles
  peak := r.peak
  warps := r.warps
  cwa := r.cwa
  affinity := r.affinity
  args := r.args
  depth := depth
  parent := parent
  slot := slot
  handle := handle
  tag := tag
  order := s.seq
  state := .queued
  nextBid := 0
  started := 0
  liveBlocks := []
  aborted := false
  tokenRank := 0
  ended := []
  retired := 0
  lkey := lkey

/-- A kernel accepted: it takes a number in order of acceptance. -/
def acceptKernel (s : State) (k : Kernel) : State :=
  { s with kernels := s.kernels.put s.seq k, seq := s.seq + 1 }.mapPart k.part fun p => { p with launchedOnce := true }

/-- A launch record read from a slot: bytes 0-55 and 64-127 (R157). -/
def slotRecord (s : State) (p : Partition) (slot : Nat) : LaunchRec :=
  LaunchRec.ofBytes (plainBytes s (p.key 0) (p.frame + 128 * slot) 128)

/-- The 16 bits of a slot's ASID (R86). -/
def slotAsidBits (s : State) (part slot : Nat) : Nat :=
  match s.parts.get? part with
  | none => 0
  | some p => efield (dev64 s part (p.asidTab + 8192 + 8 * (slot / 4))) (16 * (slot % 4)) 16

/-- The ASID of a slot: its low 10 bits (R86). -/
def slotAsid (s : State) (part slot : Nat) : Nat := slotAsidBits s part slot % 2 ^ 10

/-- Whether a slot launch has a reserved bit set in its arm word, bits [15:1], or in its slot's ASID, bits [15:10]; the
spec names no outcome for the latter, and the model refuses the launch as malformed (DESIGN CHOICE, log 15). -/
def slotReserved (s : State) (part slot : Nat) (arm : Half) : Bool :=
  arm.toNat / 2 % 2 ^ 15 != 0 || slotAsidBits s part slot / 2 ^ 10 != 0

/-- The completion word of a refused slot launch written, where cwa translates (R155, R166). -/
def refusedWord (s : State) (part asid : Nat) (r : LaunchRec) (tag : Half) (code : Nat) : State :=
  if r.cwa != 0 && r.cwa.toNat % 8 == 0 && cwaOk s part asid r.cwa then
    deviceWrite s part asid r.cwa (leBytes 8 (completionWord tag.toNat code 0))
  else s

/-- The home's observation of an arm-word write (R157). -/
def observeArm (s : State) (part slot : Nat) (arm : Half) : State :=
  match s.parts.get? part with
  | none => s
  | some p =>
    if !arm.getLsbD 0 then s
    else if slotState s part slot = 1 ∨ slotState s part slot = 2 then s.countErr Source.kiln part 12 (BitVec.ofNat 64 slot)
    else
      let tag := arm >>> 16
      let asid := slotAsid s part slot
      let r := slotRecord s p slot
      match r.refusal s part asid (slotReserved s part slot arm) with
      | some .malformed => slotStatus (refusedWord s part asid r tag 1) part slot tag 1 4
      | some .never => slotStatus (refusedWord s part asid r tag 2) part slot tag 2 4
      | some .cwa => slotStatus s part slot tag 3 4
      | none => slotStatus (acceptKernel s (r.kernel s part asid 0 none (some slot) none tag [])) part slot tag 0 1

/-- LAUNCH_SLOT_ARM (R157, R383): the arm word is written and observed by the home. -/
def execLaunchSlotArm (part slot : Nat) (arm : Half) (s : State) : Host.Outcome State Fault Refusal :=
  match s.parts.get? part with
  | none => .next s
  | some p =>
    if 64 ≤ slot then .next s
    else .next (observeArm (writeBytes s (p.key 0) (p.frame + 128 * slot + 56) (leBytes 4 arm.toNat)) part slot arm)

/-! ## LAUNCH (R158, R296) -/

/-- Limits of lpmax (R159). -/
def Partition.depthLimit (p : Partition) : Nat :=
  let d := (p.sys 0x0D8).toNat / 2 ^ 16 % 2 ^ 5
  if d = 0 then 1 else Nat.min 24 d
def Partition.poolLimit (p : Partition) : Nat := Nat.min 4096 ((p.sys 0x0D8).toNat % 2 ^ 13)

/-- The abort of a kernel counted (R352). -/
def State.abortOf (s : State) (id : Nat) : State := (s.kernels.get? id).elim s (abortCount s)

/-- One lane's record applied (R158): the state, the returned word, and the predicate. A child of a kernel that has
aborted aborts too (R352; DESIGN CHOICE, log 15). -/
def launchLane (s : State) (part kernel : Nat) (lkey : List Nat) (bs : List Byte) : State × Half × Bool :=
  match s.parts.get? part, s.kernels.get? kernel with
  | some p, some k =>
    let r := LaunchRec.ofBytes bs
    if p.poolLimit ≤ p.pool.length then (s, 0x80000001, false)
    else if p.depthLimit < k.depth + 1 then (s, 0x80000002, false)
    else match r.refusal s part k.asid false with
      | some .never => (s, 0x80000004, false)
      | some _ => (s, 0x80000003, false)
      | none =>
        let h := Tab.freshFrom p.pool 4096 0
        let s1 := acceptKernel s (r.kernel s part k.asid (k.depth + 1) (some kernel) none (some h) 0 lkey)
        let s2 := if k.aborted then
            (s1.mapKernel s.seq fun c => { c with aborted := true, state := .running }).abortOf s.seq else s1
        (s2.mapPart part fun q => { q with pool := q.pool.put h ⟨s.seq, kernel, none⟩ }, BitVec.ofNat 32 h, true)
  | _, _ => (s, 0x80000001, false)

/-- The causes of LAUNCH: an aligned address in the aperture is PROTECTION (R296). -/
def launchCauses (as : List LaneAcc) : List LaneAcc :=
  as.map fun a => if inAperture a.ea && a.ea.toNat % 128 == 0 then { a with cause := some Code.protection } else a

/-- LAUNCH (R296): the addresses of all taken lanes are checked, then the command reads the records. -/
def execLaunch (h : Head) (d a : Reg) (pd : Pred) (s : State) : Host.Outcome State Fault Refusal :=
  issue (.launch h d a pd) h (fun u r w =>
    if u.lanes.isEmpty then .done w
    else
      let c := checkLanes u 128 128 .load w (u.lanes.map fun x => (x.1, x.2, u.read64 r x.1 a x.2))
      match accessTrap u r (launchCauses c.2) with
      | some t => .trap t
      | none =>
        let lanes := c.2.map fun x => (⟨x.part.uid, x.lane, x.part.lane x.lane, x.ea, x.place, 0, 0, none⟩ : AtomLane)
        .done (u.start (askAll (reserve c.1 u d 1) (missingLines c.1 u.part false 128 c.2)) h [] none (.launch d pd u.kernel lanes))) s

/-- The records of a LAUNCH applied in lane order: what each lane obtains (R296). -/
def launchLanes (q : Pend) (kernel : Nat) : State → List AtomLane → State × List LaneLoad
  | s, [] => (s, [])
  | s, a :: rest =>
    let got : State × LaneGot × Bool :=
      match a.got with
      | some g => (s, g, false)
      | none =>
        if placeLost s q.part a.place 128 then (s, .lost, false)
        else
          let s1 := coreTouch s q.part (s.coreOf q.block) q.block (some (s.asidOfBlock q.block, a.ea)) a.place false
          let x := launchLane s1 q.part kernel (launchKey s q a) (placeBytes s q.part a.place 128)
          (x.1, .bytes (leBytes 4 x.2.1.toNat), x.2.2)
    let y := launchLanes q kernel got.1 rest
    (y.1, ⟨a.warp, a.lane, a.num, a.ea, got.2.1, got.2.2⟩ :: y.2)

/-- Whether a LAUNCH still waits: for an earlier access of its warps (R119), or for a peer's line (R373). -/
def launchWaits (s : State) (q : Pend) (lanes : List AtomLane) : Bool :=
  accessesBefore s (q.warps.map (·.1)) true q.order
    || lanes.any fun a => a.got.isNone && !(placeMissing s q.part false a.place 128).isEmpty

/-- LAUNCH_COMPLETION (R296): the records are read and applied in lane order, D and pd written. -/
def execLaunchCompletion (id : Nat) (s : State) : Host.Outcome State Fault Refusal :=
  match s.pend.get? id with
  | some q => match q.work with
    | .launch d pd k lanes =>
      if launchWaits s q lanes then .next (askAll s (lanes.flatMap fun a => placeMissing s q.part false a.place 128))
      else
        let x := launchLanes q k s lanes
        let c : LoadCmd := ⟨d, 4, some pd, 0x10B, x.2⟩
        .next (deliver x.1 id q false (c.resultIn x.1 q.warps q.order))
    | _ => .next s
  | none => .next s

end Sys2Proof.Machine
end

