-- ==== Sys2Proof/Machine/Control.lean ====
section
/-! DEFINITION. Control transfers (R288-R292), sets and barriers (R293), TRAP and TRET (R304). -/

namespace Sys2Proof.Machine

/-! ## Branches -/

/-- The address of the clause after a unit's clause (R290). -/
def IssueUnit.nextPc (u : IssueUnit) : Word := u.pc + BitVec.ofNat 64 (8 * (u.header.count + 1))

/-- A clause address at a signed offset in 8-byte units from the header (R206, R290). -/
def IssueUnit.offsetPc {n : Nat} (u : IssueUnit) (off : BitVec n) : Word := u.pc + BitVec.ofInt 64 (8 * off.toInt)

/-- A reconvergence PC from its offset; 0 records none (R289). -/
def IssueUnit.rpc {n : Nat} (u : IssueUnit) (off : BitVec n) : Option Word := if off = 0 then none else some (u.offsetPc off)

/-- A record divided (R135): the lanes of `t` go on in it at `tp`, the others start at `op` in a free record or on the
overflow stack. No answer where the stack is full. -/
def Warp.divide (w : Warp) (i : Nat) (t : Lanes) (tp op : Split → Split) : Option Warp :=
  match w.splits.get? i with
  | none => some w
  | some p =>
    let taken := { tp p with mask := p.mask &&& t }
    let other := { op p with mask := p.mask &&& ~~~t }
    let w1 := { w with splits := w.splits.put i taken }
    let j := Tab.freshFrom w1.splits 4 0
    if j < 4 then some { w1 with splits := w1.splits.put j other }
    else if w1.stack.length < 16 then some { w1 with stack := other :: w1.stack }
    else none

/-- STACK_OVERFLOW (R135, R349). -/
def overflowTrap (u : IssueUnit) (s : State) (p : UPart) : Trap :=
  u.trap s Code.stackOverflow p.act (p.live &&& ~~~p.act) 16 0 p.uid p.act

/-- One part of a unit sent on: its taken lanes by `tp`, its passing lanes by `op`. -/
def movePart (s : State) (p : UPart) (tp op : Split → Split) : Option State :=
  if p.act = 0 then some (s.mapSplit p.uid p.idx op)
  else if p.live &&& ~~~p.act = 0 then some (s.mapSplit p.uid p.idx tp)
  else match s.warps.get? p.uid with
    | none => some s
    | some w => (w.divide p.idx p.act tp op).map fun w1 => s.setWarp p.uid w1

/-- The parts of a unit sent on one after another; the first part whose stack is full stops it. -/
def moveParts (tp op : UPart → Split → Split) : State → List UPart → Except UPart State
  | s, [] => .ok s
  | s, p :: rest => match movePart s p (tp p) (op p) with
    | some s1 => moveParts tp op s1 rest
    | none => .error p

/-- A divergence recorded in a split record, with the side its lanes take (R135). -/
def Split.diverge (p : Split) (id side : Nat) (rpc : Option Word) : Split :=
  { p with divs := ⟨id, rpc, p.fmt, side⟩ :: p.divs }

/-- A part's record at the clause its side of a branch goes to; a part with taken and passing lanes records the
divergence (R135). -/
def branchSide (id side : Nat) (rpc : Option Word) (pc : Word) (x : UPart) (p : Split) : Split :=
  if x.act != 0 && x.live &&& ~~~x.act != 0 then (p.diverge id side rpc).goto pc else p.goto pc

/-- The parts of a unit sent to the target and to the next clause (R290); a part whose overflow stack is full stops
it. -/
def branchMoves (u : IssueUnit) (w : State) (t : Word) (rpc : Option Word) : Except UPart State :=
  moveParts (branchSide w.seq 1 rpc t) (branchSide w.seq 2 rpc u.nextPc) (noteConflict { w with seq := w.seq + 1 } u) u.parts

/-- A taken branch of a unit (R290): where both sides have lanes the record divides, with the reconvergence PC. -/
def branchTo (u : IssueUnit) (r w : State) (t : Word) (rpc : Option Word) : Effect :=
  if u.lanes.isEmpty then .done w
  else match branchMoves u w t rpc with
    | .ok s1 => .moved s1
    | .error p => .trap (overflowTrap u r p)

/-- BRA (R289, R290). -/
def execBra (h : Head) (target reconv : BitVec 14) (s : State) : Host.Outcome State Fault Refusal :=
  issue (.bra h target reconv) h (fun u r w => branchTo u r w (u.offsetPc target) (u.rpc reconv)) s

/-- CALL (R289, R290): D receives the address of the next clause. -/
def execCall (h : Head) (d : Reg) (target reconv : BitVec 14) (s : State) : Host.Outcome State Fault Refusal :=
  issue (.call h d target reconv) h (fun u r w =>
    branchTo u r (u.write64 w d fun _ _ => u.nextPc) (u.offsetPc target) (u.rpc reconv)) s

/-- The checks of an indirect target (R290): the trap, or the target. -/
def indirect (u : IssueUnit) (r : State) (a : Reg) : Except Trap Word :=
  match u.lead with
  | none => .ok 0
  | some (x, l) =>
    let t := u.read64 r x a l
    let f := BitVec.ofNat 32 (x.lane l)
    let bad := fun (p : UPart) (k : Nat) => u.read64 r p a k != t
    if u.lanes.any fun y => bad y.1 y.2 then
      .error (u.trapAll r Code.nonuniformTarget (lanesWhere fun k => x.act.getLsbD k && bad x k) (lo32 t) (hi32 t) f)
    else if t.toNat % 8 ≠ 0 then .error (u.trapAll r Code.misaligned (lo32 t) (hi32 t) f 0)
    else .ok t

/-- BRX (R289, R290). -/
def execBrx (h : Head) (a : Reg) (reconv : BitVec 12) (s : State) : Host.Outcome State Fault Refusal :=
  issue (.brx h a reconv) h (fun u r w =>
    match indirect u r a with
    | .error t => .trap t
    | .ok t => branchTo u r w t (u.rpc reconv)) s

/-- CALLX (R289, R290). -/
def execCallx (h : Head) (d a : Reg) (reconv : BitVec 12) (s : State) : Host.Outcome State Fault Refusal :=
  issue (.callx h d a reconv) h (fun u r w =>
    match indirect u r a with
    | .error t => .trap t
    | .ok t => branchTo u r (u.write64 w d fun _ _ => u.nextPc) t (u.rpc reconv)) s

/-- RET (R289, R290). -/
def execRet (h : Head) (a : Reg) (s : State) : Host.Outcome State Fault Refusal :=
  issue (.ret h a) h (fun u r w =>
    match indirect u r a with
    | .error t => .trap t
    | .ok t => branchTo u r w t none) s

/-! ## Ending and rejoining -/

/-- The trap of an error record (R200, R347). -/
def errTrap (s : State) (uid n : Nat) (e : ErrRec) (tpc : Word) : Trap :=
  ⟨e.code, e.info0, e.info1, e.info2, e.info3, e.wid.getD (s.widOf uid), e.mask, n, true, tpc⟩

/-- The flags of a warp that hold records, among those a test selects. -/
def Warp.records (w : Warp) (p : Nat → Bool) : List (Nat × ErrRec) :=
  (List.range 12).filterMap fun n => if p n then (w.flag n).err.map fun e => (n, e) else none

/-- The record of the instruction earliest in program order (R200). -/
def earliest (rs : List (Nat × Nat × ErrRec)) : Option (Nat × Nat × ErrRec) :=
  rs.foldl (fun b x => match b with
    | none => some x
    | some y => if x.2.2.order < y.2.2.order then some x else some y) none

/-- A flag's record cleared (R200). -/
def clearRecord (s : State) (uid n : Nat) : State :=
  s.mapWarp uid fun w => w.setFlag n { w.flag n with err := none }

/-- The records of the flags of a unit's warps. -/
def unitRecords (s : State) (u : IssueUnit) : List (Nat × Nat × ErrRec) :=
  u.parts.flatMap fun p => (s.warps.get? p.uid).elim [] fun x => (x.records fun _ => true).map fun e => (p.uid, e)

/-- Whether every flag of a unit's warps is set. -/
def unitFlagsSet (s : State) (u : IssueUnit) : Bool :=
  u.parts.all fun p => (s.warps.get? p.uid).elim true fun x => x.flagsSet (BitVec.allOnes 12)

/-- The taken lanes of a unit ended, the passing lanes sent on (R291). -/
def exitLanes (u : IssueUnit) (s : State) : State :=
  u.parts.foldl (fun s p =>
    if p.live &&& ~~~p.act = 0 then endLanes s p.uid p.idx p.live
    else endLanes (s.mapSplit p.uid p.idx fun q => q.goto u.nextPc) p.uid p.idx p.act) s

/-- EXIT (R291): waits for every flag of its warps; a record traps at the word; then the taken lanes end (DEDUCED,
log 23). -/
def execExit (h : Head) (s : State) : Host.Outcome State Fault Refusal :=
  issue (.exit h) h (fun u r w =>
    if u.lanes.isEmpty then .done w
    else
      if !unitFlagsSet r u then .wait r (.stall (.flags u.uids))
      else match (if u.super then none else earliest (unitRecords r u)) with
        | some (uid, n, e) => .trapIn (clearRecord r uid n) u.parts (errTrap r uid n e u.addr)
        | none => .moved (settle (afterWait (exitLanes u (noteConflict w u)) u.block))) s

/-- The reconvergence PC of a split record: the newest divergence that recorded one (R292). -/
def Split.reconvPc (p : Split) : Option Word := p.divs.findSome? fun d => d.rpc

/-- The reconvergence PC of a part's split. -/
def rejoinPc (s : State) (p : UPart) : Option Word :=
  ((s.warps.get? p.uid).bind fun x => x.splits.get? p.idx).bind Split.reconvPc

/-- REJOIN (R292). -/
def execRejoin (h : Head) (s : State) : Host.Outcome State Fault Refusal :=
  issue (.rejoin h) h (fun u r w =>
    if u.lanes.isEmpty then .done w
    else
      if u.parts.any fun p => p.act != 0 && (rejoinPc r p).isNone then
        .trap (u.trapAll r Code.illegalOperand (BitVec.allOnes 32) 0 (BitVec.allOnes 32) 0)
      else match moveParts (fun p q => q.goto ((rejoinPc r p).getD 0)) (fun _ q => q.goto u.nextPc) (noteConflict w u) u.parts with
        | .ok s1 => .moved s1
        | .error p => .trap (overflowTrap u r p)) s

/-! ## Sets and barriers -/

/-- A warp joins a set (R140): its sid is the number of members. -/
def joinSet (s : State) (uid k : Nat) : State :=
  match s.warps.get? uid with
  | none => s
  | some w =>
    let members := ((s.blocks.get? w.block).bind fun b => b.sets.get? k).getD []
    (s.mapWarp uid fun x => { x with setId := some (k, members.length) }).mapBlock w.block fun b =>
      { b with sets := b.sets.put k (members ++ [uid]) }

/-- JOIN (R140, R293). -/
def execJoin (h : Head) (a : Reg) (s : State) : Host.Outcome State Fault Refusal :=
  issue (.join h a) h (fun u r w =>
    match u.lead with
    | none => .done w
    | some (x, l) =>
      let k := u.read r x a l
      let members := ((r.blocks.get? u.block).bind fun b => b.sets.get? k.toNat).getD []
      if 8 ≤ k.toNat then .trap (u.badOperand r k (some 3) 1)
      else if ((r.warps.get? x.uid).bind (·.setId)).isSome then .trap (u.badOperand r k (some 1) 1)
      else if 16 ≤ members.length then .trap (u.badOperand r k (some 2) 1)
      else .done (joinSet w x.uid k.toNat)) s

/-- LEAVE (R140, R293). -/
def execLeave (h : Head) (s : State) : Host.Outcome State Fault Refusal :=
  issue (.leave h) h (fun u _ w =>
    match u.lead with
    | none => .done w
    | some (x, _) => .done (afterWait (leaveSet w x.uid) u.block)) s

/-- NOP (R293): at wider scopes it is the rendezvous alone. -/
def execNop (h : Head) (s : State) : Host.Outcome State Fault Refusal :=
  issue (.nop h) h (fun _ _ w => .done w) s

/-! ## TRAP and TRET -/

/-- The parts of a unit with taken lanes, which alone trap (R304). -/
def takenParts (u : IssueUnit) : List UPart := (u.parts.filter fun p => p.act != 0).map fun p => { p with live := p.act }

/-- TRAP (R304): the taken lanes trap at the word, the passing lanes go on; a trapping instruction empties no last-use
entry (R49). -/
def execTrap (h : Head) (a : Reg) (code : BitVec 12) (s : State) : Host.Outcome State Fault Refusal :=
  issue (.trap h a code) h (fun u r w =>
    if u.lanes.isEmpty then .done w
    else match moveParts (fun _ q => q) (fun _ q => q.goto u.nextPc) r u.parts with
      | .ok s1 => .trapIn s1 (takenParts u) (u.trapAll r Code.swTrap (u.once r a) (code.setWidth 32) 0 0)
      | .error p => .trap (overflowTrap u r p)) s

/-- TRET (R304, R351). -/
def execTret (h : Head) (s : State) : Host.Outcome State Fault Refusal :=
  issue (.tret h) h (fun u _ w =>
    match u.lead with
    | none => .done w
    | some (x, _) => .moved (afterWait (returnTrap w x.uid x.idx) u.block)) s

end Sys2Proof.Machine
end

