-- ==== Sys2Proof/Machine/Spawn.lean ====
section
/-! DEFINITION. SPAWN and LWAIT (R294, R297), with the places of spawn records (R162). -/

namespace Sys2Proof.Machine

/-- A spawn record queued (R162): in the front buffer of its core, or in the partition's hod; the answer says whether
there was a place. -/
def queueSpawn (s : State) (part : Nat) (x : SpawnRec) : State × Bool :=
  if (s.core x.core).front.length < 256 then
    (s.mapCore x.core fun c => { c with front := c.front ++ [x] }, true)
  else if ((s.parts.get? part).elim 0 fun p => p.hod.length) < 65536 then
    (s.mapPart part fun p => { p with hod := p.hod ++ [x] }, true)
  else (s, false)

/-- The record of a lane (R294). -/
def spawnRec (u : IssueUnit) (r : State) (a b c : Reg) (n order : Nat) (x : UPart) (l : Nat) : SpawnRec where
  entry := u.read64 r x a l
  kernel := u.kernel
  kw := (r.warps.get? x.uid).elim 0 (·.kw)
  bnd := u.read r x c l
  args := (List.range n).map fun i => u.read r x (Reg.plus b i) l
  core := u.core
  warp := x.uid
  lane := l
  order := order

/-- The records of a unit queued in lane order: the lanes that found a place. -/
def queueAll (u : IssueUnit) (r : State) (a b c : Reg) (n : Nat) :
    State → List (UPart × Nat) → State × List (Nat × Nat)
  | s, [] => (s, [])
  | s, (x, l) :: rest =>
    let q := queueSpawn { s with seq := s.seq + 1 } u.part (spawnRec u r a b c n s.seq x l)
    let t := queueAll u r a b c n q.1 rest
    (t.1, if q.2 then (x.uid, l) :: t.2 else t.2)

/-- The entries of a SPAWN's lanes, each checked for its alignment. -/
def spawnEntries (u : IssueUnit) (r : State) (a : Reg) : List LaneAcc :=
  u.lanes.map fun x =>
    let e := u.read64 r x.1 a x.2
    ⟨x.1, x.2, e, if e.toNat % 8 ≠ 0 then some Code.misaligned else none, 0, .absent⟩

/-- SPAWN (R294): it does not stall; the packer leaves a record alone until the accesses before it have been performed
(R119). -/
def execSpawn (h : Head) (a b c : Reg) (pd : Pred) (n : Fin 9) (s : State) : Host.Outcome State Fault Refusal :=
  issue (.spawn h a b c pd n) h (fun u r w =>
    if u.lanes.isEmpty then .done w
    else if r.peakOf u.kernel < n.val then .trap (u.badOperand r (BitVec.ofNat 32 n.val) none 5)
    else match accessTrap u r (spawnEntries u r a) with
      | some t => .trap t
      | none =>
        let q := queueAll u r a b c n.val w u.lanes
        .done (u.writePred q.1 pd fun p l => q.2.contains (p.uid, l))) s

/-! ## LWAIT -/

/-- What a handle names for a kernel (R297). -/
inductive ChildState where
  | done (blocks : Half)
  | running
  | notHeld
  deriving DecidableEq, Repr

/-- The state of the child a handle names. -/
def childOf (s : State) (u : IssueUnit) (h : Half) : ChildState :=
  if 2 ^ 12 ≤ h.toNat then .notHeld
  else match (s.parts.get? u.part).bind fun p => p.pool.get? h.toNat with
    | none => .notHeld
    | some e =>
      if e.parent ≠ u.kernel then .notHeld
      else match e.done with
        | some b => .done b
        | none => .running

/-- Entries of delivered handles freed (R159, R297). -/
def freeHandles (s : State) (u : IssueUnit) (hs : List Half) : State :=
  s.mapPart u.part fun p => { p with pool := hs.foldl (fun t h => t.del h.toNat) p.pool }

/-- The lanes of a unit with their handles. -/
def lwaitLanes (u : IssueUnit) (r : State) (a : Reg) : List (UPart × Nat × Half) :=
  u.lanes.map fun x => (x.1, x.2, u.read r x.1 a x.2)

/-- The handles whose completion this LWAIT takes. -/
def takenHandles (u : IssueUnit) (r : State) (xs : List (UPart × Nat × Half)) : List Half :=
  (xs.filter fun x => match childOf r u x.2.2 with
    | .done _ => true
    | _ => false).map fun x => x.2.2

/-- The waits of an LWAIT's lanes: those that hold a child, with the completion where it is there (R297). -/
def lwaitWaits (u : IssueUnit) (r : State) (xs : List (UPart × Nat × Half)) : List LwaitLane :=
  xs.filterMap fun x => match childOf r u x.2.2 with
    | .done b => some ⟨x.1.uid, x.2.1, x.2.2, some b⟩
    | .running => some ⟨x.1.uid, x.2.1, x.2.2, none⟩
    | .notHeld => none

/-- The completion a lane of a wait has received. -/
def gotOf (ls : List LwaitLane) (uid l : Nat) : Option Half :=
  (ls.find? fun x => x.warp == uid && x.lane == l).bind (·.got)

/-- D and pd of an LWAIT whose waits are all met. -/
def lwaitWrite (u : IssueUnit) (w : State) (d : Reg) (pd : Pred) (ls : List LwaitLane) : State :=
  u.writePred (u.write w d fun p l => (gotOf ls p.uid l).getD (BitVec.allOnes 32)) pd fun p l => (gotOf ls p.uid l).isSome

/-- What LWAIT.test answers in a lane: the value and the predicate (R297). -/
def lwaitTest (u : IssueUnit) (r : State) (h : Half) : Half × Bool :=
  match childOf r u h with
  | .done b => (b, true)
  | .running => (0, false)
  | .notHeld => (BitVec.allOnes 32, false)

/-- LWAIT (R297). -/
def execLwait (h : Head) (d a : Reg) (pd : Pred) (test : Bool) (s : State) : Host.Outcome State Fault Refusal :=
  issue (.lwait h d a pd test) h (fun u r w =>
    if u.lanes.isEmpty then .done w
    else
      let xs := lwaitLanes u r a
      if test then
        let w1 := freeHandles w u (takenHandles u r xs)
        .done (u.writePred (u.write w1 d fun p l => (lwaitTest u r (u.read r p a l)).1) pd fun p l =>
          (lwaitTest u r (u.read r p a l)).2)
      else match u.waitOf r with
        | .lwait ls => if ls.all fun x => x.got.isSome then .done (lwaitWrite u w d pd ls) else .wait r (.lwait ls)
        | _ =>
          let ls := lwaitWaits u r xs
          let hs := takenHandles u r xs
          if ls.all fun x => x.got.isSome then .done (lwaitWrite u (freeHandles w u hs) d pd ls)
          else .wait (freeHandles r u hs) (.lwait ls)) s

end Sys2Proof.Machine
end

