-- ==== Sys2Proof/Machine/Incumbents.lean ====
section
/-! DEFINITION. Incumbents (R118, R148-R151, R298-R300): KINIT, KUPD, KREAD, CHECK, updates at the home, and the copies
of the cores. -/

namespace Sys2Proof.Machine

/-- The home's incumbent register (R298). -/
def State.incumbent (s : State) (part k : Nat) : Incumbent :=
  ((s.parts.get? part).bind fun p => p.incs.get? k).getD Incumbent.reset

/-- The order of two values in an incumbent's type: `none` with a NaN (R299). -/
def incLt (f32 : Bool) (a b : Half) : Option Bool :=
  if f32 then
    match f32Key a, f32Key b with
    | some x, some y => some (decide (x < y))
    | _, _ => none
  else some (decide (a.toInt < b.toInt))

/-- Whether an update improves an incumbent (R299). -/
def Incumbent.improvedBy (i : Incumbent) (v w : Half) : Bool :=
  if i.f32 && (f32Key v).isNone then false
  else if i.f32 && (f32Key i.value).isNone then true
  else
    let better := if i.min then incLt i.f32 v i.value else incLt i.f32 i.value v
    let worse := if i.min then incLt i.f32 i.value v else incLt i.f32 v i.value
    better == some true || (better == some false && worse == some false && decide (w.toNat < i.witness.toNat))

/-- Updates applied to an incumbent in order; the answer says whether one changed it (R299). -/
def Incumbent.applyAll (i : Incumbent) : List Upd → Incumbent × Bool
  | [] => (i, false)
  | (v, w) :: rest =>
    if i.improvedBy v w then ((Incumbent.applyAll { i with value := v, witness := w } rest).1, true)
    else Incumbent.applyAll i rest

/-- The cores of a partition (R19). -/
def Partition.coreList (p : Partition) : List Nat := (List.range (16 * p.count)).map fun i => 16 * p.first + i

/-- A new state of an incumbent, written by some warps, sent to the copy of every core under a number (R151). -/
def broadcast (s : State) (part k : Nat) (i : Incumbent) (warps : List Nat) : State :=
  let cores := (s.parts.get? part).elim [] Partition.coreList
  cores.foldl (fun s c => s.mapCore c fun x => { x with bcast := x.bcast ++ [(k, s.seq, i, warps)] }) s

/-- A register at the home replaced, numbered and broadcast (R118, R151). -/
def setIncumbent (s : State) (part k : Nat) (i : Incumbent) (warps : List Nat) : State :=
  let s1 := broadcast (s.mapPart part fun p => { p with incs := p.incs.put k i }) part k i warps
  { s1 with seq := s1.seq + 1 }

/-- Whether some core's copy has not yet taken a broadcast up to a number (R300). -/
def copiesBehind (s : State) (part k upd : Nat) : Bool :=
  ((s.parts.get? part).elim [] Partition.coreList).any fun c =>
    (s.core c).bcast.any fun b => b.1 == k && decide (b.2.1 ≤ upd)

/-- Whether KUPDs of warps on an incumbent, issued before an order, have not been performed at the home. -/
def kupdsBefore (s : State) (ws : List Nat) (k order : Nat) : Bool :=
  s.pend.any fun q => decide (q.2.order < order) && (q.2.warps.any fun x => ws.contains x.1) && match q.2.work with
    | .kupd j _ _ _ => j == k
    | _ => false

/-- Whether two cores belong to one partition. -/
def State.sameQuarter (s : State) (a b : Nat) : Bool := s.kiln.quarters.get? (a / 16) == s.kiln.quarters.get? (b / 16)

/-- Whether the copy of a core has yet to take broadcasts of an incumbent that warps wrote, or with `all` whether a copy of any
core of its partition has yet to take one. -/
def bcastsOf (s : State) (ws : List Nat) (core k : Nat) (all : Bool) : Bool :=
  if all then s.cores.any fun c => s.sameQuarter c.1 core && c.2.bcast.any fun b => b.1 == k
  else (s.core core).bcast.any fun b => b.1 == k && b.2.2.2.any fun x => ws.contains x

/-- Whether an access of warps to an incumbent has to wait, so that they see their own KUPDs and a core never reads an
older value after a newer one (R102, R118; DESIGN CHOICE, log 9). -/
def incumbentBusy (s : State) (ws : List Nat) (core k : Nat) (all : Bool) : Bool :=
  kupdsBefore s ws k s.seq || bcastsOf s ws core k all

/-- KINIT (R300): the home is written at once; the split stalls until every copy holds the new state. -/
def execKinit (h : Head) (a : Reg) (k : Fin 16) (dirMin f32 : Bool) (s : State) : Host.Outcome State Fault Refusal :=
  issue (.kinit h a k dirMin f32) h (fun u r w =>
    match u.lead with
    | none => .done w
    | some (x, l) => match u.waitOf r with
      | .kinit j n => if copiesBehind r u.part j n then .wait r (.kinit j n) else .done w
      | _ =>
        if readsPending r u then .wait r u.stallReads
        else if incumbentBusy r u.uids u.core k.val false then .wait r (.stall (.incumbent u.uids u.core k.val false))
        else
          let i : Incumbent := ⟨f32, dirMin, u.read r x (Reg.plus a 1) l, u.read r x a l⟩
          .wait (setIncumbent r u.part k.val i u.uids) (.kinit k.val r.seq)) s

/-- A KUPD sent to the home; it counts in no flag of its word and never stalls it (R300). -/
def startKupd (s : State) (u : IssueUnit) (k : Nat) (f32 : Bool) (ups : List (Half × Half)) (rel : Bool) : State :=
  startCommand s u.part u.warps 15 u.block [] none false (.kupd k f32 ups rel)

/-- KUPD (R300): each taken lane's value and witness are sent to the home. -/
def execKupd (h : Head) (f32 : Bool) (a b : Reg) (k : Fin 16) (rel : Bool) (s : State) :
    Host.Outcome State Fault Refusal :=
  issue (.kupd h f32 a b k rel) h (fun u r w =>
    if u.lanes.isEmpty then .done w
    else .done (startKupd w u k.val f32 (u.lanes.map fun x => (u.read r x.1 a x.2, u.read r x.1 b x.2)) rel)) s

/-- Incumbent updates received by every quarter of a partition, counted at the dies (R398). -/
def dieUpdates (s : State) (part n : Nat) : State :=
  let quarters := (s.parts.get? part).elim [] fun p => (List.range p.count).map fun i => p.first + i
  quarters.foldl (fun s q => s.dieEvent (16 * q) 3 n) s

/-- Whether a KUPD on its way waits: for the reads of its warps before it (R104), for their earlier KUPDs on the incumbent
(R102), and with .rel for every access of theirs before it (R106, R118). -/
def kupdWaits (s : State) (q : Pend) (k : Nat) (rel : Bool) : Bool :=
  accessesBefore s (q.warps.map (·.1)) rel q.order || kupdsBefore s (q.warps.map (·.1)) k q.order

/-- Updates of one KUPD applied at the home in lane order (R299); a type mismatch makes no change and is counted (R300). -/
def applyUpdates (s : State) (q : Pend) (k : Nat) (f32 : Bool) (ups : List (Half × Half)) : State :=
  let i := s.incumbent q.part k
  if i.f32 != f32 then s.countErr Source.kiln q.part 11 (BitVec.ofNat 64 k)
  else
    let x := i.applyAll ups
    if x.2 then dieUpdates (setIncumbent s q.part k x.1 (q.warps.map (·.1))) q.part 1 else s

/-- The first KUPD on its way with some contents that waits for nothing more. -/
def arriving (s : State) (part k : Nat) (f32 : Bool) (ups : List Upd) : Option (Nat × Pend) :=
  s.pend.find? fun q => q.2.part == part && match q.2.work with
    | .kupd j f us rel => j == k && f == f32 && us == ups && !kupdWaits s q.2 k rel
    | _ => false

/-- INCUMBENT_UPDATE_ARRIVAL (R299, R300). -/
def execIncumbentUpdateArrival (part k : Nat) (f32 : Bool) (ups : List Upd) (s : State) :
    Host.Outcome State Fault Refusal :=
  match arriving s part k f32 ups with
  | some (id, q) => .next (deliver (applyUpdates s q k f32 ups) id q false Result.empty)
  | none => .next s

/-- KREAD (R300): the core's copy; with .acq the home, once every copy has caught up with it, so that no later read returns an
older value (R106, R118). -/
def execKread (h : Head) (d : Reg) (k : Fin 16) (acq : Bool) (s : State) : Host.Outcome State Fault Refusal :=
  issue (.kread h d k acq) h (fun u r w =>
    if u.lanes.isEmpty then .done w
    else if readsPending r u then .wait r u.stallReads
    else if incumbentBusy r u.uids u.core k.val acq then .wait r (.stall (.incumbent u.uids u.core k.val acq))
    else
      let i := if acq then w.incumbent u.part k.val else w.copy u.core k.val
      let v : Word := i.value ++ i.witness
      .done (u.start (reserve w u d 2) h [] none
        (.result .kread ⟨u.regWrites64 d (fun _ _ => v) fun _ _ => true, [], [], 0, none⟩))) s

/-- KREAD_COMPLETION (R300). -/
def execKreadCompletion (id : Nat) (s : State) : Host.Outcome State Fault Refusal :=
  match s.pend.get? id with
  | some q => match q.work with
    | .result .kread r => .next (deliver s id q false r)
    | _ => .next s
  | none => .next s

/-- The incumbents that kw names for the active lanes of a unit. -/
def IssueUnit.watched (u : IssueUnit) (r : State) : List Nat :=
  ((u.lanes.map fun x => (u.read r x.1 .kw x.2).toNat).filter fun k => decide (k < 16)).dedup

/-- CHECK (R300): whether a value would be dominated under the core's copy of the incumbent that kw names; a read of the copy, it
waits for the KUPDs of its own warps on it (R102). -/
def execCheck (h : Head) (d : Pred) (a : Reg) (s : State) : Host.Outcome State Fault Refusal :=
  issue (.check h d a) h (fun u r w =>
    match (u.watched r).find? fun k => incumbentBusy r u.uids u.core k false with
    | some k => .wait r (.stall (.incumbent u.uids u.core k false))
    | none => .done (u.writePred w d fun p l =>
      let kw := u.read r p .kw l
      decide (kw.toNat < 16) && dominates (r.copy u.core kw.toNat) (u.read r p a l))) s

/-- Lanes of waiting splits of a core that its changed copy dominates are cancelled (R149); suspended warps are not
checked (R348). -/
def checkWaiting (s : State) (core : Nat) : State :=
  (s.warps.filter fun w => w.2.core == core && !w.2.suspended).foldl (fun s w =>
    (w.2.splits.filter fun p => p.2.wait != .none).foldl (fun s p =>
      match s.warps.get? w.1 with
      | some w1 => match w1.splits.get? p.1 with
        | some p1 => cancelLanes s w.1 p.1 (dominatedLanes s w1 p1)
        | none => s
      | none => s) s) s

/-- What follows when lanes of waiting splits of a core have ended: reconvergence and the mismatch tests in its blocks. -/
def afterCore (s : State) (core : Nat) : State :=
  (s.blocks.filter fun b => b.2.core == core).foldl (fun s b => afterWait s b.1) s

/-- INCUMBENT_COPY_UPDATE (R149, R151): the oldest broadcast reaches a core's copy, and waiting splits are checked. -/
def execIncumbentCopyUpdate (core : Nat) (s : State) : Host.Outcome State Fault Refusal :=
  match (s.core core).bcast with
  | [] => .next s
  | (k, _, i, _) :: rest =>
    let s1 := s.mapCore core fun c => { c with copies := c.copies.put k i, bcast := rest }
    .next (settle (afterCore (checkWaiting s1 core) core))

end Sys2Proof.Machine
end

