-- ==== Sys2Proof/Machine/Sync.lean ====
section
/-! DEFINITION. Arrive-wait barriers (R301, R302), queues (R303), YIELD and PRIO (R306). -/

namespace Sys2Proof.Machine

/-! ## ABAR objects -/

/-- An ABAR object (R301). -/
structure Abar where
  expArr   : Nat
  expBytes : Nat
  gotArr   : Nat
  gen      : Nat
  gotBytes : Nat
  deriving DecidableEq, Repr

/-- `n` bytes of a block's scratch. -/
def Block.bytes (b : Block) (off n : Nat) : List Byte := (List.range n).map fun i => b.scratch.num (off + i)

/-- The object at an offset of a block's scratch. Bits [31:16] of its first word are reserved (R301); the spec names no
refusal where they are set, and the model ignores them (DESIGN CHOICE, log 26). -/
def Block.abar (b : Block) (off : Nat) : Abar where
  expArr := leNat (b.bytes off 2)
  expBytes := leNat (b.bytes (off + 4) 4)
  gotArr := leNat (b.bytes (off + 8) 2)
  gen := leNat (b.bytes (off + 10) 2)
  gotBytes := leNat (b.bytes (off + 12) 4)

/-- The upper 8 bytes of an object: arrivals, phases, bytes. -/
def Abar.upper (a : Abar) : List Byte := leBytes 2 a.gotArr ++ leBytes 2 a.gen ++ leBytes 4 a.gotBytes

/-- An update by arrivals and bytes, with the phase test (R301). -/
def Abar.update (a : Abar) (arr bytes : Nat) : Abar :=
  let ga := Nat.min (a.gotArr + arr) 65535
  let gb := Nat.min (a.gotBytes + bytes) 0xFFFFFFFF
  if a.expArr ≤ ga ∧ a.expBytes ≤ gb then { a with gotArr := 0, gotBytes := 0, gen := (a.gen + 1) % 65536 }
  else { a with gotArr := ga, gotBytes := gb }

/-- Whether a wait on a phase is met by an object (R302). -/
def Abar.meets (a : Abar) (gen : Bool) (b : Half) : Bool :=
  if gen then a.gen != b.toNat % 65536 else a.gen % 2 != b.toNat % 2

/-- Waits of a block's splits that an object's update meets are marked. -/
def markWaits (s : State) (blk off : Nat) (a : Abar) : State :=
  { s with warps := s.warps.mapV fun _ w =>
      if w.block = blk then
        { w with splits := w.splits.mapV fun _ p => match p.wait with
            | .abwait o g b m => if o = off then { p with wait := .abwait o g b (m || a.meets g b) } else p
            | _ => p }
      else w }

/-- An arrival or delivery at an ABAR object of a block (R301). -/
def abarUpdate (s : State) (blk off arr bytes : Nat) : State :=
  match s.blocks.get? blk with
  | none => s
  | some b =>
    let a := (b.abar off).update arr bytes
    markWaits (s.mapBlock blk fun b => b.writeScratch (off + 8) a.upper) blk off a

/-- The trap of an offset that is no place for an ABAR object (R302, R349). -/
def abarTrap (u : IssueUnit) (r : State) (off : Half) : Option Trap :=
  let lead := BitVec.ofNat 32 (u.lead.elim 0 fun x => x.1.lane x.2)
  if off.toNat % 16 ≠ 0 then some (u.trapAll r Code.misaligned off 0 lead 0)
  else if ((r.blocks.get? u.block).elim 0 (·.scratchSize)) < off.toNat + 16 then
    some (u.trapAll r Code.poolFault off 0 lead 0)
  else none

/-- ABINIT (R302). -/
def execAbinit (h : Head) (a b c : Reg) (s : State) : Host.Outcome State Fault Refusal :=
  issue (.abinit h a b c) h (fun u r w =>
    if u.lanes.isEmpty then .done w
    else
      let off := u.once r a
      let n := u.once r b
      match abarTrap u r off with
      | some t => .trap t
      | none =>
        if 65535 < n.toNat then .trap (u.badOperand r n none 2)
        else if readsPending r u then .wait r u.stallReads
        else .done (w.mapBlock u.block fun x => x.writeScratch off.toNat
          (leBytes 4 n.toNat ++ leBytes 4 (u.once r c).toNat ++ List.replicate 8 0))) s

/-- ABARRIVE (R302): one arrival count for the issue; D receives the generation before it. -/
def execAbarrive (h : Head) (d a b : Reg) (s : State) : Host.Outcome State Fault Refusal :=
  issue (.abarrive h d a b) h (fun u r w =>
    if u.lanes.isEmpty then .done w
    else
      let off := u.once r a
      match abarTrap u r off with
      | some t => .trap t
      | none =>
        if accessesPending r u then .wait r u.stallAccesses
        else
          let gen := (r.blocks.get? u.block).elim 0 fun x => (x.abar off.toNat).gen
          let w1 := abarUpdate w u.block off.toNat (u.once r b).toNat 0
          .done (u.write w1 d fun _ _ => BitVec.ofNat 32 gen)) s

/-- Whether an ABAR object of a block meets an ABWAIT now (R302). -/
def abarMet (s : State) (blk off : Nat) (gen : Bool) (b : Half) : Bool :=
  (s.blocks.get? blk).elim false fun x => (x.abar off).meets gen b

/-- ABWAIT (R302): A and B are read once; a split that waits keeps their values. -/
def execAbwait (h : Head) (a b : Reg) (gen : Bool) (s : State) : Host.Outcome State Fault Refusal :=
  issue (.abwait h a b gen) h (fun u r w =>
    if u.lanes.isEmpty then .done w
    else match u.waitOf r with
    | .abwait off g v met => if met || abarMet r u.block off g v then .done w else .wait r (.abwait off g v false)
    | _ =>
      let off := u.once r a
      match abarTrap u r off with
      | some t => .trap t
      | none =>
        let v := u.once r b
        if abarMet r u.block off.toNat gen v then .done w else .wait r (.abwait off.toNat gen v false)) s

/-! ## Queues -/

/-- A queue of a unit's block. -/
def queueOf (s : State) (blk q : Nat) : Option Queue := (s.blocks.get? blk).bind fun b => b.queues.get? q

/-- A queue of a block replaced. -/
def setQueue (s : State) (blk n : Nat) (q : Queue) : State :=
  s.mapBlock blk fun b => { b with queues := b.queues.put n q }

/-- Whether an engine command that names a queue is in flight (R303). -/
def queueBusy (s : State) (blk q : Nat) : Bool := s.pend.any fun p => p.2.block == blk && p.2.queue == some q

/-- A free slot taken: the queue and the slot's offset (R303). -/
def Queue.takeFree (q : Queue) : Queue × Nat :=
  ({ q with free := q.free - 1, pi := (q.pi + 1) % q.slots, takenFree := q.takenFree + 1 }, q.base + q.size * q.pi)

/-- A filled slot taken (R303). -/
def Queue.takeFull (q : Queue) : Queue × Nat :=
  ({ q with full := q.full - 1, ci := (q.ci + 1) % q.slots, takenFull := q.takenFull + 1 }, q.base + q.size * q.ci)

/-- The oldest slot taken as free becomes filled (R303). -/
def Queue.fill (q : Queue) : Queue := { q with full := q.full + 1, takenFree := q.takenFree - 1 }

/-- The oldest slot taken as filled becomes free (R303). -/
def Queue.release (q : Queue) : Queue := { q with free := q.free + 1, takenFull := q.takenFull - 1 }

/-- The trap of an operand of QINIT outside its limit, fields in the order A, B, C (R303). -/
def qinitTrap (u : IssueUnit) (r : State) (a b c : Half) : Option Trap :=
  if a.toNat % 16 ≠ 0 then some (u.badOperand r a none 1)
  else if b.toNat < 1 ∨ 256 < b.toNat then some (u.badOperand r b none 2)
  else if c.toNat % 16 ≠ 0 ∨ c.toNat < 16 ∨ 65536 < c.toNat then some (u.badOperand r c none 3)
  else if ((r.blocks.get? u.block).elim 0 (·.scratchSize)) < a.toNat + b.toNat * c.toNat then
    some (u.trapAll r Code.poolFault a 0 (BitVec.ofNat 32 (u.lead.elim 0 fun x => x.1.lane x.2)) 0)
  else none

/-- QINIT (R303). -/
def execQinit (h : Head) (a b c : Reg) (q : Fin 8) (s : State) : Host.Outcome State Fault Refusal :=
  issue (.qinit h a b c q) h (fun u r w =>
    if u.lanes.isEmpty then .done w
    else
      let x := u.once r a
      let y := u.once r b
      let z := u.once r c
      match qinitTrap u r x y z with
      | some t => .trap t
      | none =>
        if queueBusy r u.block q.val then .wait r (.stall (.queue u.block q.val))
        else .done (setQueue w u.block q.val ⟨x.toNat, y.toNat, z.toNat, y.toNat, 0, 0, 0, 0, 0⟩)) s

/-- ILLEGAL_OPERAND of a queue number (R303). -/
def queueTrap (u : IssueUnit) (r : State) (q : Nat) : Trap := u.badOperand r (BitVec.ofNat 32 q) none 5

/-- QACQ.free (R303). -/
def execQacqFree (h : Head) (d : Reg) (q : Fin 8) (s : State) : Host.Outcome State Fault Refusal :=
  issue (.qacqFree h d q) h (fun u r w =>
    if u.lanes.isEmpty then .done w
    else match queueOf r u.block q.val with
      | none => .trap (queueTrap u r q.val)
      | some x =>
        if x.free = 0 then .wait r (.stall (.slot u.block q.val false))
        else .done (u.write (setQueue w u.block q.val x.takeFree.1) d fun _ _ => BitVec.ofNat 32 x.takeFree.2)) s

/-- QACQ.full (R303). -/
def execQacqFull (h : Head) (d : Reg) (q : Fin 8) (s : State) : Host.Outcome State Fault Refusal :=
  issue (.qacqFull h d q) h (fun u r w =>
    if u.lanes.isEmpty then .done w
    else match queueOf r u.block q.val with
      | none => .trap (queueTrap u r q.val)
      | some x =>
        if x.full = 0 then .wait r (.stall (.slot u.block q.val true))
        else .done (u.write (setQueue w u.block q.val x.takeFull.1) d fun _ _ => BitVec.ofNat 32 x.takeFull.2)) s

/-- QREL.full (R303). -/
def execQrelFull (h : Head) (q : Fin 8) (s : State) : Host.Outcome State Fault Refusal :=
  issue (.qrelFull h q) h (fun u r w =>
    if u.lanes.isEmpty then .done w
    else match queueOf r u.block q.val with
      | none => .trap (queueTrap u r q.val)
      | some x =>
        if x.takenFree = 0 then .trap (queueTrap u r q.val)
        else if accessesPending r u then .wait r u.stallAccesses
        else .done (setQueue w u.block q.val x.fill)) s

/-- QREL.free (R303). -/
def execQrelFree (h : Head) (q : Fin 8) (s : State) : Host.Outcome State Fault Refusal :=
  issue (.qrelFree h q) h (fun u r w =>
    if u.lanes.isEmpty then .done w
    else match queueOf r u.block q.val with
      | none => .trap (queueTrap u r q.val)
      | some x =>
        if x.takenFull = 0 then .trap (queueTrap u r q.val)
        else if accessesPending r u then .wait r u.stallAccesses
        else .done (setQueue w u.block q.val x.release)) s

/-! ## Issue control -/

/-- The scheduler of a core given up by a split (R167). -/
def dropOwner (s : State) (uid idx : Nat) : State :=
  { s with owner := s.owner.filter fun o => o.2 != splitKey uid idx }

/-- YIELD (R306): the split is not ready for min(a, 4,096) clk and gives up its scheduler. -/
def execYield (h : Head) (a : Reg) (s : State) : Host.Outcome State Fault Refusal :=
  issue (.yield h a) h (fun u r w =>
    if u.lanes.isEmpty then .done w
    else
      let n := Nat.min (u.once r a).toNat 4096
      .done (u.parts.foldl (fun s p =>
        let s1 := dropOwner s p.uid p.idx
        s1.mapSplit p.uid p.idx fun q => { q with yields := if n = 0 then none else some n }) w)) s

/-- YIELD_EXPIRY (R306): once the clk have passed, nothing keeps the split from being chosen again. -/
def execYieldExpiry (uid idx : Nat) (s : State) : Host.Outcome State Fault Refusal :=
  .next (s.mapSplit uid idx fun p => if p.yields = some 0 then { p with yields := none } else p)

/-- PRIO (R306). -/
def execPrio (h : Head) (a : Reg) (s : State) : Host.Outcome State Fault Refusal :=
  issue (.prio h a) h (fun u r w =>
    if u.lanes.isEmpty then .done w
    else
      let want := Nat.min (u.once r a).toNat 3
      let level := if u.super then want else Nat.min want ((r.kernels.get? u.kernel).elim 0 (·.prio))
      .done (u.parts.foldl (fun s p => s.mapWarp p.uid fun x => { x with prio := level }) w)) s

end Sys2Proof.Machine
end

