-- ==== Sys2Proof/Machine/SysReg.lean ====
section
/-! DEFINITION. System registers: GETSR and SETSR (R305, R210), the registers of every chapter with their access codes
(R5), and the steps a register write or read starts: invalidations (R92, R93), descriptor reloads (R71, R359), the
quarantine queue (R99), reservation ranges (R66), and the time-stamp (R399). -/

namespace Sys2Proof.Machine

/-! ## Reading -/

/-- A register of a partition (R65, R71, R86, R92, R93, R96, R99, R357, R371, R372). -/
def partValue (s : State) (part : Nat) (p : Partition) (n : Nat) : Half :=
  if 0x0B8 ≤ n ∧ n ≤ 0x0BF then p.sys n ||| BitVec.ofNat 32 (p.granted (n - 0x0B8) * 2 ^ 23)
  else if n = 0x0C7 then BitVec.ofNat 32 ((p.regions.get? ((p.sys 0x0C6).toNat % 256)).elim 0 (·.count))
  else if n = 0x0CA then BitVec.ofNat 32 (p.asidCount * 2 ^ 16 + p.asidFirst)
  else if n = 0x0CE then p.issuectr
  else if n = 0x0CF then quiesctr s part
  else if n = 0x0D0 then 0
  else if n = 0x0D2 then BitVec.ofNat 32 (p.qlost.toNat * 2 ^ 31 + p.qlist.length)
  else if n = 0x0D6 then p.dnhead
  else if n = 0x0E9 then p.errcnt.num ((p.sys 0x0E8).toNat % 16)
  else if n = 0x0F0 then BitVec.ofNat 32 (part * 2 ^ 10 + s.fab.pkg)
  else if n = 0x0F1 then BitVec.ofNat 32 (s.fab.map * 2 ^ 8 + s.fab.alive)
  else if n = 0x0F3 then p.fxent.num ((p.sys 0x0F2).toNat % 64)
  else p.sys n

/-- poolstat of a core (R41). -/
def Core.poolstat (c : Core) : Half :=
  let st := c.change.elim 0 fun x => x.admits.toNat * 2 ^ 31 + x.state * 2 ^ 28
  BitVec.ofNat 32 (st + c.mat * 2 ^ 21 + c.cch * 2 ^ 14 + c.scr * 2 ^ 7 + c.reg)

/-- A trap register of a warp (R347). -/
def TrapRegs.value (t : TrapRegs) (n : Nat) : Half :=
  if n = 0x012 then t.tpcLo else if n = 0x013 then t.tpcHi else if n = 0x014 then t.tcause
  else if n = 0x015 then t.tmask else if n = 0x016 then t.tunit
  else if n ≤ 0x01B then t.tinfo.getD (n - 0x018) 0 else t.tsave.getD (n - 0x01C) 0

/-- Whether a number names a trap register of a warp. -/
def isTrapReg (n : Nat) : Bool := decide (0x012 ≤ n ∧ n ≤ 0x01F)

/-- Bits [31:0] of the time-stamp (R399). -/
def State.tscLo (s : State) : Half := BitVec.ofNat 32 s.tsc
/-- Bits [63:32] of the time-stamp. -/
def State.tscHi (s : State) : Half := BitVec.ofNat 32 (s.tsc / 2 ^ 32)

/-- pwrstat (R396). -/
def State.pwrstat (s : State) : Half :=
  BitVec.ofNat 32 (s.pwrTherm.toNat * 2 ^ 9 + s.pwrPower.toNat * 2 ^ 8 + s.pwrClk % 2 ^ 8)

/-- The frame qpop returns: of those in the quarantine queue whose stamp quiesctr exceeds, the oldest (R99, which says one of
them; DESIGN CHOICE, log 24). -/
def popFrame (s : State) (part : Nat) (p : Partition) : Option (Word × Half) :=
  p.qlist.find? fun e => exceeds (quiesctr s part) e.2

/-- The value GETSR reads in a split of a warp (R305). -/
def sysRead (s : State) (w : Warp) (q : Split) (n : Nat) : Half :=
  if isTrapReg n then w.trapRegs.value n
  else if n = 0x0E0 then BitVec.ofNat 32 (16 + (s.kernelOf w).elim 0 (·.numver))
  else if n = 0x0E1 then w.dl
  else if n = 0x0E4 then (s.core w.core).poolstat
  else if n = 0x0E6 then q.fmt
  else if n = 0x0E7 then q.fst
  else if n = 0x0F8 then s.pwrstat
  else if n = 0x0FA then s.tscLo
  else if n = 0x0FB then w.tsHi
  else if 0x100 ≤ n ∧ n ≤ 0x107 then (s.core w.core).evctl.num (n - 0x100)
  else if 0x108 ≤ n ∧ n ≤ 0x10F then (s.core w.core).evcnt.num (n - 0x108)
  else
    let part := s.partOf w
    match s.parts.get? part with
    | none => 0
    | some p =>
      if n = 0x0D1 then (popFrame s part p).elim (BitVec.ofNat 32 0xFFFFFFFF) fun e => lo32 e.1
      else partValue s part p n

/-- What a read changes: qpop removes the frame it returns, tsclo latches the high half (R99, R399). -/
def sysReadEffect (s : State) (uid : Nat) (n : Nat) : State :=
  match s.warps.get? uid with
  | none => s
  | some w =>
    if n = 0x0FA then s.mapWarp uid fun w => { w with tsHi := s.tscHi }
    else if n = 0x0D1 then
      let part := s.partOf w
      match (s.parts.get? part).bind fun p => popFrame s part p with
      | some e => s.mapPart part fun p => { p with qlist := p.qlist.erase e }
      | none => s
    else s

/-- A GETSR by the parts of a unit (R305): each split reads its own; a read with an effect has it once for each warp,
qpop once for the unit. -/
def readParts (u : IssueUnit) (w : State) (n : Nat) : State :=
  if n = 0x0D1 then sysReadEffect w ((u.parts.map (·.uid)).headD 0) n
  else u.parts.foldl (fun s p => sysReadEffect s p.uid n) w

/-- The value GETSR reads in a part's split. -/
def partRead (s : State) (p : UPart) (n : Nat) : Half :=
  (s.warps.get? p.uid).elim 0 fun x => (x.splits.get? p.idx).elim 0 fun q => sysRead s x q n

/-- GETSR (R305). -/
def execGetsr (h : Head) (d : Reg) (sr : BitVec 12) (s : State) : Host.Outcome State Fault Refusal :=
  issue (.getsr h d sr) h (fun u r w =>
    if u.lanes.isEmpty then .done w
    else .done (u.write (readParts u w sr.toNat) d fun p _ => partRead r p sr.toNat)) s

/-! ## Writing -/

/-- The bits of a partition register that a write sets; the others read as 0 or keep their value (R5). -/
def writeMask (n : Nat) : Half :=
  if 0x0A0 ≤ n ∧ n ≤ 0x0A7 then 0xFFFF0000#32
  else if 0x0A8 ≤ n ∧ n ≤ 0x0AF then 0x00FFFFFF#32
  else if 0x0B8 ≤ n ∧ n ≤ 0x0BF then 0xF87803FF#32
  else if n = 0x0C0 ∨ n = 0x0E5 then 1#32
  else if n = 0x0C4 then 0xFFFFE000#32
  else if n = 0x0C5 ∨ n = 0x0C9 ∨ n = 0x0CC ∨ n = 0x0D4 then 0x00FFFFFF#32
  else if n = 0x0C6 then 0xFF#32
  else if n = 0x0C8 then 0xFFFFC000#32
  else if n = 0x0CB then 0xFFFF0000#32
  else if n = 0x0CD then 0xC00003FF#32
  else if n = 0x0D3 then 0xFFFFF000#32
  else if n = 0x0D8 then 0x001F1FFF#32
  else if n = 0x0E8 then 0xF#32
  else if n = 0x0F2 then 0x3F#32
  else BitVec.allOnes 32

/-- Registers of a partition that only read (R5). -/
def readOnly (n : Nat) : Bool :=
  n == 0x0C7 || n == 0x0CA || n == 0x0CE || n == 0x0CF || n == 0x0D1 || n == 0x0D6 || n == 0x0F0 || n == 0x0F1

/-- A change of a reservation range: its counters reset, its retained lines ordinary (R66). -/
def Partition.resetRange (p : Partition) (n : Nat) : Partition :=
  { p with resCnt := p.resCnt.filter fun x => x.1 % 8 != n
           llc := p.llc.mapV fun _ t => if t.range == some n then { t with range := none } else t }

/-- A frame posted to the quarantine queue (R99). -/
def Partition.post (p : Partition) (frame : Half) : Partition :=
  if p.qlist.length < 65536 then { p with qlist := p.qlist ++ [(frame.setWidth 64, p.issuectr)] }
  else { p with qlost := true }

/-- A write to a register of a partition, by the access codes of its map (R5). -/
def Partition.write (p : Partition) (n : Nat) (x : Half) : Partition :=
  if readOnly n then p
  else if n = 0x0D0 then p.post x
  else if n = 0x0D2 then { p with qlost := p.qlost && !x.getLsbD 31 }
  else if n = 0x0D5 then
    { p with sysregs := p.sysregs.setNum n ((x &&& 0xC000001F#32) ||| (p.sys n &&& 0x20000000#32 &&& ~~~x)) }
  else if n = 0x0E9 then
    let i := (p.sys 0x0E8).toNat % 16
    { p with errcnt := p.errcnt.setNum i (p.errcnt.num i &&& ~~~x) }
  else if n = 0x0F3 then { p with fxent := p.fxent.setNum ((p.sys 0x0F2).toNat % 64) (x &&& 0xC07FFFFF#32) }
  else
    let p1 := { p with sysregs := p.sysregs.setNum n (x &&& writeMask n) }
    if 0x0A0 ≤ n ∧ n ≤ 0x0BF then p1.resetRange (n % 8) else p1

/-- A write to a trap register of a warp (R347). -/
def TrapRegs.write (t : TrapRegs) (n : Nat) (x : Half) : TrapRegs :=
  if n = 0x012 then { t with tpcLo := x } else if n = 0x013 then { t with tpcHi := x }
  else if n = 0x014 then { t with tcause := x &&& 0x001FFBFF#32 }
  else if n = 0x015 then { t with tmask := x } else if n = 0x016 then { t with tunit := x }
  else if n = 0x017 then t
  else if n ≤ 0x01B then { t with tinfo := t.tinfo.set (n - 0x018) x }
  else { t with tsave := t.tsave.set (n - 0x01C) x }

/-- A write to a register that a warp or a split has its own of; `none` for other registers. -/
def warpWrite (w : Warp) (i n : Nat) (x : Half) : Option Warp :=
  if isTrapReg n then some { w with trapRegs := w.trapRegs.write n x }
  else if n = 0x0E1 then some { w with dl := x }
  else if n = 0x0E6 then some (w.writeReg i .fmt 0 (fun _ => 0) x)
  else if n = 0x0E7 then some (w.writeReg i .fst 0 (fun _ => 0) x)
  else none

/-- A write to an event register of a core in a clk; `none` for other registers. What a counter counts in the clk of a write is
added to the written value (R397). -/
def coreWrite (c : Core) (clk block n : Nat) (x : Half) : Option Core :=
  if 0x100 ≤ n ∧ n ≤ 0x107 then
    some { c with evctl := c.evctl.setNum (n - 0x100) (x &&& 0xC00000FF#32), evblk := c.evblk.put (n - 0x100) block }
  else if 0x108 ≤ n ∧ n ≤ 0x10F then some { c with evcnt := c.evcnt.setNum (n - 0x108) (x + c.countedIn clk (n - 0x108)) }
  else none

/-- The cover of a tlbinv write (R92). -/
def coverOf (p : Partition) (x : Half) : Cover :=
  let va : Word := (p.sys 0x0CC ++ p.sys 0x0CB)
  let asid := x.toNat % 2 ^ 10
  if x.toNat / 2 ^ 30 = 0 then .address asid va else if x.toNat / 2 ^ 30 = 1 then .asid asid else .all

/-- An invalidation started, with no flag (R92). -/
def startInval (s : State) (part : Nat) (c : Cover) : State := startCommand s part [] 15 0 [] none false (.inval c)

/-- A reload of the selected region started for some warps (R71, R359). -/
def startReload (s : State) (part region : Nat) (warps : List Nat) : State :=
  startCommand s part [] 15 0 [] none false (.reload region warps)

/-- A partition register written by some warps with what the write starts: `some` number of a command that answers it. -/
def partWrite (s : State) (part n : Nat) (x : Half) (warps : List Nat) : State × Option Nat :=
  let s1 := s.mapPart part fun p => p.write n x
  match s1.parts.get? part with
  | none => (s1, none)
  | some p =>
    if n = 0x0CD then (startInval s1 part (coverOf p x), some s1.seq)
    else if n = 0x0C6 then (startReload s1 part (x.toNat % 256) warps, some s1.seq)
    else (s1, none)

/-- A SETSR by one split of a warp (R305): the state, and the command that completes it. -/
def sysWrite (s : State) (uid i n : Nat) (x : Half) : State × Option Nat :=
  match s.warps.get? uid with
  | none => (s, none)
  | some w => match warpWrite w i n x with
    | some w1 => (s.setWarp uid w1, none)
    | none => match coreWrite (s.core w.core) s.clk w.block n x with
      | some c => (s.mapCore w.core fun _ => c, none)
      | none => if n = 0x0E0 ∨ n = 0x0E4 ∨ n = 0x0F0 ∨ n = 0x0F1 ∨ n = 0x0F8 ∨ n = 0x0FA ∨ n = 0x0FB then (s, none)
        else partWrite s (s.partOf w) n x [uid]

/-- A SETSR by the parts of a unit: a register that a warp has its own of is written in each warp, any other once
(DEDUCED, log 24). -/
def writeParts (u : IssueUnit) (w : State) (n : Nat) (x : Half) : State × Option Nat :=
  if isTrapReg n || n == 0x0E1 || n == 0x0E6 || n == 0x0E7 then
    (u.parts.foldl (fun s p => (sysWrite s p.uid p.idx n x).1) w, none)
  else match u.lead with
    | some (p, _) => sysWrite w p.uid p.idx n x
    | none => (w, none)

/-- SETSR (R305): stalls where its register's chapter gives the write a completion. -/
def execSetsr (h : Head) (a : Reg) (sr : BitVec 12) (s : State) : Host.Outcome State Fault Refusal :=
  issue (.setsr h a sr) h (fun u r w =>
    if u.lanes.isEmpty then .done w
    else match u.waitOf r with
      | .command id => if (r.pend.get? id).isSome then .wait r (.command id) else .done w
      | _ => match writeParts u w sr.toNat (u.once r a) with
        | (s1, none) => .done s1
        | (_, some _) => match writeParts u r sr.toNat (u.once r a) with
          | (r1, some id) => .wait r1 (.command id)
          | (r1, none) => .done r1) s

/-! ## The steps behind the registers -/

/-- INVALIDATION_COMPLETE (R92, R93): not before the stamps in flight allow the next value of issuectr. -/
def execInvalidationComplete (id : Nat) (s : State) : Host.Outcome State Fault Refusal :=
  match s.pend.get? id with
  | some q => match q.work with
    | .inval c => if spanFull s q.part then .next s else .next ({ s with pend := s.pend.del id }.mapPart q.part fun p => p.invalidate c)
    | _ => .next s
  | none => .next s

/-- The quiet NaN of a format code as a default word (R73); `none` where the format has no NaN. -/
def nanWord (dfmt : Nat) : Option Half :=
  if dfmt = 0 then some 0x7FC00000#32 else if dfmt = 1 then some 0x7E007E00#32 else if dfmt = 2 then some 0x7FC07FC0#32
  else if dfmt = 3 then some 0x7E7E7E7E#32 else if dfmt = 4 then some 0x7F7F7F7F#32 else none

/-- A region with the descriptor that 32 bytes hold (R72); a refused one leaves the region not in use. -/
def Region.load (g : Region) (bs : List Byte) : Region :=
  let base := fieldOf bs 0 8
  let size := fieldOf bs 8 4
  let top := fieldOf bs 19 1
  let pattern := BitVec.ofNat 32 (fieldOf bs 20 4)
  let flist := fieldOf bs 24 8
  let tsize := top / 2 ^ 6
  let dkind := top / 2 ^ 5 % 2
  let word := if dkind = 0 then some pattern else nanWord (top / 2 % 2 ^ 4)
  if tsize = 3 ∨ word.isNone ∨ size = 0 ∨ fieldOf bs 16 3 ≠ 0 ∨ base % 2 ^ 26 ≠ 0 ∨ 2 ^ 56 ≤ base ∨ flist % 128 ≠ 0 then
    { g with valid := false }
  else
    { g with base := BitVec.ofNat 64 base, size := size, quota := fieldOf bs 12 4, flist := BitVec.ofNat 64 flist
             tsize := tsize, dkind := dkind, pattern := word.getD 0, valid := top % 2 == 1 }

/-- The births a region's ATOMs in flight have reserved given up, their storage in quarantine. -/
def Region.unreserve (g : Region) (home : Nat → Nat) (stamp : Half) : Region :=
  { g with reserved := [], count := g.count - g.reserved.length
           quarantine := g.quarantine ++ g.reserved.map fun x => ⟨home x.1, x.2, tileBytes g.tsize, x.1, stamp⟩ }

/-- The tiles of a region erased, for a descriptor with another tile size: the spec names no outcome for them, and a
change of base keeps every tile under its number (DESIGN CHOICE, log 15). -/
def retileRegion (s : State) (part r : Nat) (g : Region) : State :=
  let s1 := g.tiles.foldl (fun s x => eraseAt s part r x.1) s
  s1.mapRegion part r fun g => g.unreserve (homeOf s1 part r) ((s1.parts.get? part).elim 0 (·.issuectr))

/-- A region whose descriptor has never been loaded. -/
def Region.empty : Region where
  base := 0
  size := 0
  quota := 0
  flist := 0
  tsize := 0
  dkind := 0
  pattern := 0
  valid := false
  count := 0
  tiles := []
  reserved := []
  carve := []
  quarantine := []

/-- Physical base of the descriptor table (R71). -/
def Partition.rgnBase (p : Partition) : Nat :=
  (p.sys 0x0C5).toNat % 2 ^ 24 * 2 ^ 32 + (p.sys 0x0C4).toNat / 2 ^ 13 * 2 ^ 13

/-- The 32 bytes of a region's descriptor in the partition's own memory (R71; DESIGN CHOICE, log 6). -/
def descriptorBytes (s : State) (part : Nat) (p : Partition) (r : Nat) : List Byte :=
  let a := p.rgnBase + 32 * r
  if s.foreign part a then List.replicate 32 0 else plainBytes s (s.tableKey part) a 32

/-- Whether the home directory number of a line is of a region. -/
def regionLine (part r l : Nat) : Bool := l / 2 ^ 48 == 2 ^ 12 + 2 ^ 9 * part + r

/-- A descriptor read from memory, at its home, and put in force (R64, R71); peers give up what they hold under another. -/
def reloadRegion (s : State) (part r : Nat) : State :=
  match s.parts.get? part with
  | none => s
  | some p =>
    let bs := descriptorBytes s part p r
    let g := (p.regions.get? r).getD Region.empty
    let s0 := devTouch s part (p.rgnBase + 32 * r)
    let s1 := if (g.load bs).tsize = g.tsize then s0 else retileRegion s0 part r g
    let s2 := if g.load bs = g then s1 else recallPeers s1 (regionLine part r)
    s2.mapPart part fun q => { q with regions := q.regions.put r (((q.regions.get? r).getD Region.empty).load bs) }

/-- Whether a place is in a tile of a region. -/
def Place.inRegion (p : Place) (r : Nat) : Bool :=
  match p with
  | .tile g _ _ _ => g == r
  | _ => false

/-- Whether an access in flight has found its tile by the descriptor in force, and is performed by it (R71, R83). -/
def Work.usesRegion (w : Work) (r : Nat) : Bool :=
  match w with
  | .atom _ _ ls => ls.any fun a => a.got.isNone && a.place.inRegion r
  | .launch _ _ _ ls => ls.any fun a => a.got.isNone && a.place.inRegion r
  | .load c => c.lanes.any fun l => match l.got with
    | .waits p => p.inRegion r
    | _ => false
  | _ => false

/-- Whether a reload waits: for the accesses of the warps that asked for it before it (R359), and for accesses in flight under
the descriptor in force, so that each is handled under one descriptor (R71). -/
def reloadWaits (s : State) (q : Pend) (r : Nat) (warps : List Nat) : Bool :=
  accessesBefore s warps true q.order || s.pend.any fun x => x.2.part == q.part && x.2.work.usesRegion r

/-- DESCRIPTOR_RELOAD_COMPLETE (R71, R359). -/
def execDescriptorReloadComplete (id : Nat) (s : State) : Host.Outcome State Fault Refusal :=
  match s.pend.get? id with
  | some q => match q.work with
    | .reload r ws => .next (if reloadWaits s q r ws then s else reloadRegion { s with pend := s.pend.del id } q.part r)
    | _ => .next s
  | none => .next s

/-- A step behind a register of a partition that exists. -/
def onPart (s : State) (part : Nat) (f : Partition → State) : Host.Outcome State Fault Refusal :=
  match s.parts.get? part with
  | none => .next s
  | some p => .next (f p)

/-- TLBINV_ADDRESS (R92, kind 0). -/
def execTlbinvAddress (part : Nat) (value : Half) (s : State) : Host.Outcome State Fault Refusal :=
  onPart s part fun p => startInval s part (coverOf p (value &&& 0x3FF#32))

/-- TLBINV_ASID (R92, kind 1). -/
def execTlbinvAsid (part : Nat) (value : Half) (s : State) : Host.Outcome State Fault Refusal :=
  onPart s part fun p => startInval s part (coverOf p ((value &&& 0x3FF#32) ||| 0x40000000#32))

/-- TLBINV_PARTITION (R92, kinds 2 and 3). -/
def execTlbinvPartition (part : Nat) (_value : Half) (s : State) : Host.Outcome State Fault Refusal :=
  onPart s part fun _ => startInval s part .all

/-- QPOST (R99). -/
def execQpost (part : Nat) (frame : Half) (s : State) : Host.Outcome State Fault Refusal :=
  onPart s part fun _ => s.mapPart part fun p => p.post frame

/-- A register read by a warp into D in all its live lanes. -/
def warpRead (s : State) (uid : Nat) (d : Reg) (n : Nat) : State :=
  match s.warps.get? uid with
  | none => s
  | some w => match w.splits.vals.head? with
    | none => s
    | some q =>
      let x := sysRead s w q n
      (sysReadEffect s uid n).mapWarp uid fun w => w.writeLate d w.lanes (fun _ => x) x

/-- QPOP (R99). -/
def execQpop (warp : Nat) (d : Reg) (s : State) : Host.Outcome State Fault Refusal := .next (warpRead s warp d 0x0D1)

/-- TSCLO (R399). -/
def execTscloRead (warp : Nat) (d : Reg) (s : State) : Host.Outcome State Fault Refusal :=
  .next (warpRead s warp d 0x0FA)

/-- RGNSEL (R71): selects the region and reloads its descriptor. -/
def execRgnselWrite (part : Nat) (value : Half) (s : State) : Host.Outcome State Fault Refusal :=
  onPart s part fun _ => (partWrite s part 0x0C6 value []).1

/-- RESERVATION_RANGE_WRITE (R65, R66). -/
def execReservationRangeWrite (part reg : Nat) (value : Half) (s : State) : Host.Outcome State Fault Refusal :=
  onPart s part fun _ => if 0x0A0 ≤ reg ∧ reg ≤ 0x0BF then s.mapPart part fun p => p.write reg value else s

/-- SYSTEM_REGISTER_WRITE (R5, R305): a write by a split of a warp, with the access code of the register's map. -/
def execSystemRegisterWrite (warp idx : Nat) (sr : BitVec 12) (value : Half) (s : State) :
    Host.Outcome State Fault Refusal :=
  .next (sysWrite s warp idx sr.toNat value).1

end Sys2Proof.Machine
end

