-- ==== Sys2Proof/Machine/Pool.lean ====
section
/-! DEFINITION. The core pool (R39-R56): what a core holds, POOLSET and its change of split, POOLQ, TALLOC and TFREE
(R309-R311), and the stash windows STASH and UNSTASH (R64, R312, R313). -/

namespace Sys2Proof.Machine

/-! ## What a core holds (R45, R50, R52, R56) -/

/-- The blocks resident on a core. -/
def coreBlocks (s : State) (core : Nat) : List (Nat × Block) := s.blocks.filter fun b => b.2.core == core

/-- The warps resident on a core; one whose lanes have all been cancelled is, until its commands complete (R49, R150). -/
def coreWarps (s : State) (core : Nat) : List (Nat × Warp) := s.warps.filter fun w => w.2.core == core

/-- Rows a warp reserves: the larger of its kernel's peak and the rows it maps (R52, check 6). -/
def State.rowsReserved (s : State) (w : Warp) : Nat := Nat.max ((s.kernelOf w).elim 0 (·.peak)) w.rowsMapped

/-- A sum over a list. -/
def sumOf {α : Type} (xs : List α) (f : α → Nat) : Nat := xs.foldl (fun n x => n + f x) 0

/-- Register rows reserved on a core. -/
def coreReserved (s : State) (core : Nat) : Nat := sumOf (coreWarps s core) fun w => s.rowsReserved w.2

/-- Register rows mapped on a core. -/
def coreMapped (s : State) (core : Nat) : Nat := sumOf (coreWarps s core) fun w => w.2.rowsMapped

/-- Scratch rows of a block (R45). -/
def Block.scratchRows (b : Block) : Nat := ceilDiv b.scratchSize 128

/-- Scratch rows allocated on a core. -/
def coreScratch (s : State) (core : Nat) : Nat := sumOf (coreBlocks s core) fun b => b.2.scratchRows

/-- Tile slots allocated on a core. -/
def coreSlots (s : State) (core : Nat) : Nat := sumOf (coreBlocks s core) fun b => b.2.tiles.length

/-- Tile slots a block may still allocate (R52, check 8). -/
def State.slotsLeft (s : State) (b : Block) : Nat := (s.kernels.get? b.kernel).elim 0 (·.tiles) - b.tiles.length

/-- Tile slots reserved on a core for its blocks and not yet allocated. -/
def coreSlotsLeft (s : State) (core : Nat) : Nat := sumOf (coreBlocks s core) fun b => s.slotsLeft b.2

/-- Scratch banks of a core that hold rows. A block's rows lie round-robin over the banks (R45); where a row map starts is not
stated: every one at the same bank (DESIGN CHOICE, log 13). -/
def coreRowBanks (s : State) (core : Nat) : Nat :=
  (coreBlocks s core).foldl (fun n b => Nat.max n b.2.rowBanks) (ceilDiv (coreScratch s core) 512)

/-- What a block asks of a core: warps, declared peak, scratch bytes, tiles, pool request. -/
structure Ask where
  warps   : Nat
  peak    : Nat
  scratch : Nat
  tiles   : Nat
  floor   : Half
  deriving DecidableEq, Repr

/-- What a block of a kernel asks. -/
def Kernel.ask (k : Kernel) : Ask := ⟨k.warps, k.peak, k.scratch, k.tiles, k.pool⟩
/-- What a packed warp of a kernel asks: a block of one warp (R147). -/
def Kernel.packAsk (k : Kernel) : Ask := ⟨1, k.peak, k.scratch, k.tiles, k.pool⟩
/-- What nothing asks. -/
def Ask.none : Ask := ⟨0, 0, 0, 0, 0⟩

/-- What the block asks that an admission has given to a core and that has not started there (R55). -/
def heldAsk (s : State) (core : Nat) : Ask :=
  ((s.core core).held.bind fun h => (s.kernels.get? h.1).map fun k => if h.2 then k.packAsk else k.ask).getD Ask.none

/-- The matrix banks of a core that hold allocated slots, by label (R47; DESIGN CHOICE, log 13). -/
def coreBanks (s : State) (core : Nat) : List Nat := ((coreBlocks s core).flatMap fun b => b.2.banks.vals).dedup

/-- The pool requests of the blocks resident on a core (R43). -/
def coreFloors (s : State) (core : Nat) : List Half :=
  (coreBlocks s core).map fun b => (s.kernels.get? b.2.kernel).elim 0 (·.pool)

/-- Whether a pool word gives a role fewer banks than a floor asks. -/
def belowFloor (word floor : Half) : Bool :=
  decide (poolReg word < poolReg floor ∨ poolScr word < poolScr floor ∨ poolCch word < poolCch floor
    ∨ poolMat word < poolMat floor)

/-! ## A change of split (R51) -/

/-- Whether the drain has lines to remove: lines in leaving cache sets. -/
def Core.drains (c : Core) (target : Half) : Bool :=
  decide (poolCch target < c.cch) && c.l1.any fun t => decide (64 * poolCch target ≤ t.1 % (64 * c.cch))

/-- Whether a phase of a change has nothing to move, so that it lasts no time. Which banks of a shrinking role leave, and so whether
they hold rows, is the core's choice, which no rule states: the model lets relocate last where more banks hold scratch rows
than stay, and remap where any register row is mapped (DESIGN CHOICE, log 13). -/
def phaseEmpty (s : State) (core : Nat) (c : Core) (target : Half) (phase : Nat) : Bool :=
  if phase = 1 then !c.drains target
  else if phase = 2 then !(decide (poolScr target < c.scr) && decide (poolScr target < coreRowBanks s core))
  else if phase = 3 then !(decide (poolReg target < c.reg) && decide (coreMapped s core ≠ 0))
  else false

/-- The phase a change stands in once the phases with nothing to move are passed. -/
def nextPhase (s : State) (core : Nat) (c : Core) (ch : Change) : (fuel phase : Nat) → Nat
  | 0, p => p
  | f + 1, p =>
    if 4 ≤ p then 4
    else if (ch.admits && p != 1) || phaseEmpty s core c ch.target p then nextPhase s core c ch f (p + 1) else p

/-- Whether a line keeps its set when the number of sets changes. The spec does not say what becomes of the others: the
model drops them, so that no set holds more than 8 lines and arriving banks are empty (R46, R51; DESIGN CHOICE, log 13). -/
def keepsSet (old new line : Nat) : Bool := line % (64 * old) == line % (64 * new)

/-- A core with the split a pool word names. -/
def Core.setSplit (c : Core) (w : Half) : Core :=
  { c with reg := poolReg w, scr := poolScr w, cch := poolCch w, mat := poolMat w, change := none
           l1 := if poolCch w = 0 then [] else c.l1.filter fun t => keepsSet c.cch (poolCch w) t.1 }

/-- The code 0 of a POOLSET delivered at its commit (R309). -/
def answerPoolset (s : State) (ch : Change) : State :=
  match s.pend.get? ch.command with
  | some q => match q.work with
    | .poolset _ d ms =>
      deliver s ch.command q false ⟨ms.map fun m => ⟨m.1, d, m.2, rowOfLanes fun _ => 0⟩, [], [], 0, none⟩
    | _ => s
  | none => s

/-- Scratch rows of a core's blocks moved into the banks that stay (R45, R51). -/
def keepRows (s : State) (core banks : Nat) : State :=
  { s with blocks := s.blocks.mapV fun _ b => if b.core = core then { b with rowBanks := Nat.min b.rowBanks banks } else b }

/-- The commit of a change: the new split, the event, and the code of a POOLSET (R51, R309). -/
def commitChange (s : State) (core : Nat) : State :=
  match (s.core core).change with
  | none => s
  | some ch =>
    let s1 := (s.mapCore core fun c => c.setSplit ch.target).event core (if ch.admits then none else some ch.block) 0x0B 1
    if ch.admits then s1 else answerPoolset (keepRows s1 core (poolScr ch.target)) ch

/-- A change moved to a phase: past the phases with nothing to move, and committed when none is left. -/
def enterPhase (s : State) (core phase : Nat) : State :=
  let c := s.core core
  match c.change with
  | none => s
  | some ch =>
    let p := nextPhase s core c ch 4 phase
    let s1 := s.mapCore core fun c => { c with change := some { ch with state := p } }
    if p = 4 then commitChange s1 core else s1

/-- SPLIT_DRAIN_END (R51): lines in leaving cache banks are gone, and the change moves on. -/
def execSplitDrainEnd (core : Nat) (s : State) : Host.Outcome State Fault Refusal :=
  match (s.core core).change with
  | some ch =>
    if ch.state = 1 then
      .next (enterPhase (s.mapCore core fun c =>
        { c with l1 := c.l1.filter fun t => decide (t.1 % (64 * c.cch) < 64 * poolCch ch.target) }) core 2)
    else .next s
  | none => .next s

/-- SPLIT_RELOCATE_END (R51): scratch rows have moved to banks that stay. -/
def execSplitRelocateEnd (core : Nat) (s : State) : Host.Outcome State Fault Refusal :=
  match (s.core core).change with
  | some ch => if ch.state = 2 then .next (enterPhase s core 3) else .next s
  | none => .next s

/-- SPLIT_REMAP_END (R51): register rows have moved to banks that stay, and the change commits. -/
def execSplitRemapEnd (core : Nat) (s : State) : Host.Outcome State Fault Refusal :=
  match (s.core core).change with
  | some ch => if ch.state = 3 then .next (enterPhase s core 4) else .next s
  | none => .next s

/-! ## POOLSET and POOLQ -/

/-- Whether the counts of a pool word are outside the limits of R52, check 2. -/
def poolBad (w : Half) : Bool :=
  decide (poolReg w < 8 ∨ 48 < poolCch w ∨ 64 < poolReg w ∨ 64 < poolScr w ∨ 64 < poolMat w)
    || poolReg w + poolScr w + poolCch w + poolMat w != 64

/-- The code of checks 3 and 4 of R52, where a change runs. -/
def Core.busyCode (c : Core) (block : Nat) : Option Nat :=
  c.change.map fun ch => if !ch.admits && ch.block == block then 7 else 6

/-- The code of checks 5 to 8 of R52; a block that an admission has given to the core counts as resident, as it belongs to the
core from the start of the admission's change on (R55). -/
def roomCode (s : State) (core : Nat) (user : Bool) (w : Half) : Option Nat :=
  let c := s.core core
  let a := heldAsk s core
  if user && (a.floor :: coreFloors s core).any fun f => belowFloor w f then some 5
  else if 512 * poolReg w < coreReserved s core + a.peak * a.warps then some 1
  else if 512 * poolScr w < coreScratch s core + ceilDiv a.scratch 128 then some 2
  else if (poolMat w < c.mat ∧ c.mat - (coreBanks s core).length < c.mat - poolMat w)
      ∨ 16 * poolMat w < coreSlots s core + coreSlotsLeft s core + a.tiles then some 3
  else none

/-- The checks of R52 in their order: the code of the first that fails. -/
def poolCheck (s : State) (u : IssueUnit) (w : Half) : Option Nat :=
  if !u.super && !((s.parts.get? u.part).elim 0 fun p => p.sys 0x0E5).getLsbD 0 then some 5
  else if poolBad w then some 4
  else ((s.core u.core).busyCode u.block).orElse fun _ => roomCode s u.core (!u.super) w

/-- The lanes of a unit's warps that a command's register takes a value in: all live lanes for a scalar, else the active
ones. -/
def IssueUnit.masksOf (u : IssueUnit) (d : Reg) : List (Nat × Lanes) :=
  (u.parts.map fun p => (p.uid, match d with
    | .s _ => p.live
    | _ => p.act)).filter fun m => m.2 != 0

/-- POOLSET (R309): a refusal answers its code at once; an accepted change runs and answers 0 at its commit. D counts as
mapped at issue, whatever the answer (R50). -/
def execPoolset (h : Head) (d a : Reg) (s : State) : Host.Outcome State Fault Refusal :=
  issue (.poolset h d a) h (fun u r w =>
    if u.lanes.isEmpty then .done w
    else match overPeak r (reserve w u d 1) u with
    | some (p, rows) => .trap (peakTrap r u (.poolset h d a) p rows)
    | none =>
      let word := u.once r a
      match poolCheck r u word with
      | some c => .done (u.write w d fun _ _ => BitVec.ofNat 32 c)
      | none =>
        let w1 := (u.start (reserve w u d 1) h [] none (.poolset u.core d (u.masksOf d))).mapCore u.core fun c =>
          { c with change := some ⟨1, false, word, u.block, w.seq⟩ }
        .done (enterPhase w1 u.core 1)) s

/-- The quantity an index of R56 names, for a block and a warp. -/
def poolQuantity (s : State) (core block uid n : Nat) : Nat :=
  let c := s.core core
  let b := s.blocks.get? block
  let mine := (coreWarps s core).filter fun w => w.2.block == block
  if n = 0 then c.reg else if n = 1 then c.scr else if n = 2 then c.cch else if n = 3 then c.mat
  else if n = 4 then coreMapped s core
  else if n = 5 then coreReserved s core
  else if n = 6 then coreScratch s core
  else if n = 7 then coreSlots s core
  else if n = 8 then c.l1.length
  else if n = 9 then (c.l1.filter fun t => t.2.dirty).length
  else if n = 16 then sumOf mine fun w => w.2.rowsMapped
  else if n = 17 then sumOf mine fun w => s.rowsReserved w.2
  else if n = 18 then b.elim 0 (·.scratchRows)
  else if n = 19 then b.elim 0 fun b => b.tiles.length
  else if n = 20 then (c.l1.filter fun t => t.2.block == block).length
  else if n = 24 then (s.warps.get? uid).elim 0 (·.rowsMapped)
  else if n = 25 then (s.warps.get? uid).elim 0 fun w => (w.vregs.filter fun e => !e.2.mapped).length
  else 0

/-- POOLQ (R310). -/
def execPoolq (h : Head) (d : Reg) (n : Fin 32) (s : State) : Host.Outcome State Fault Refusal :=
  issue (.poolq h d n) h (fun u r w =>
    let q := poolQuantity r u.core u.block (u.lead.elim 0 fun x => x.1.uid) n.val
    .done (u.write w d fun _ _ => BitVec.ofNat 32 q)) s

/-! ## TALLOC and TFREE -/

/-- The bank that gives a slot: one that already holds slots and has a free one, else a bank that holds none (R47). -/
def pickBank (s : State) (core : Nat) : Nat :=
  let used := (coreBlocks s core).flatMap fun b => b.2.banks.vals
  match (coreBanks s core).find? fun l => decide ((used.filter fun x => x == l).length < 16) with
  | some l => l
  | none => ((List.range (used.length + 1)).find? fun l => !used.contains l).getD 0

/-- TILE_FAULT (R311, R349; DEDUCED, log 21). -/
def tileTrap (u : IssueUnit) (s : State) (m why : Nat) : Trap :=
  u.trapAll s Code.tileFault (BitVec.ofNat 32 m) (BitVec.ofNat 32 why) 0 0

/-- TALLOC (R311). -/
def execTalloc (h : Head) (m : Tile) (s : State) : Host.Outcome State Fault Refusal :=
  issue (.talloc h m) h (fun u r w =>
    if u.lanes.isEmpty then .done w
    else match r.blocks.get? u.block with
      | none => .done w
      | some b =>
        if (b.tiles.get? m.val).isSome then .trap (tileTrap u r m.val 1)
        else if (r.kernels.get? u.kernel).elim 0 (·.tiles) ≤ b.tiles.length then .trap (tileTrap u r m.val 2)
        else
          let bank := pickBank r u.core
          .done (w.mapBlock u.block fun b =>
            { b with tiles := b.tiles.put m.val [], banks := b.banks.put m.val bank })) s

/-- Whether a command in flight of a block names a tile. -/
def tileBusy (s : State) (block m : Nat) : Bool := s.pend.any fun q => q.2.block == block && q.2.tiles.contains m

/-- TFREE (R311): stalls until the commands that name the tile have completed. -/
def execTfree (h : Head) (m : Tile) (s : State) : Host.Outcome State Fault Refusal :=
  issue (.tfree h m) h (fun u r w =>
    if u.lanes.isEmpty then .done w
    else if !((r.blocks.get? u.block).elim false fun b => (b.tiles.get? m.val).isSome) then .trap (tileTrap u r m.val 3)
    else if tileBusy r u.block m.val then .wait r (.stall (.tile u.block m.val))
    else .done (w.mapBlock u.block fun b => { b with tiles := b.tiles.del m.val, banks := b.banks.del m.val })) s

/-! ## Stash windows -/

/-- A trap with the contents of R308: the value, tinfo2 all ones, the operand field (DEDUCED, log 21). -/
def IssueUnit.engTrap (u : IssueUnit) (s : State) (code : Nat) (v : Word) (field : Nat) : Trap :=
  u.trapAll s code (lo32 v) (hi32 v) (BitVec.allOnes 32) (BitVec.ofNat 32 field)

/-- Whether two ranges meet. -/
def rangesMeet (a n b m : Nat) : Bool := decide (a < b + m ∧ b < a + n)

/-- Whether a new window meets one that is open, in scratch or in global addresses (R312). -/
def Block.windowClash (b : Block) (base : Word) (len off : Nat) : Bool :=
  b.windows.any fun w => rangesMeet off len w.2.off w.2.len || rangesMeet base.toNat len w.2.base.toNat w.2.len

/-- Whether a window may cover a page: type 0 with rd and w, and readable (R312, R390). -/
def stashable (s : State) (part : Nat) (x : Xlat) : Bool :=
  leafType x.leaf == 0 && ebit x.leaf 5 && ebit x.leaf 6 && (leafKey s part x.leaf).isSome

/-- Every page of a window's range translated: the state and each page's address and leaf, or the first cause (R312). -/
def stashPages (s : State) (part asid : Nat) : List Word → Except (Nat × Word) (State × List (Word × Xlat))
  | [] => .ok (s, [])
  | va :: rest => match xlate s part asid va .etest with
    | .error c => .error (c, va)
    | .ok (s1, x) => match stashPages s1 part asid rest with
      | .error e => .error e
      | .ok y => .ok (y.1, (va, x) :: y.2)

/-- The first address of a range in each 64 KiB page it meets. -/
def rangePages (base : Word) (len : Nat) : List Word :=
  let first := base.toNat / 2 ^ 16
  (List.range ((base.toNat + len - 1) / 2 ^ 16 - first + 1)).map fun i =>
    if i = 0 then base else BitVec.ofNat 64 ((first + i) * 2 ^ 16)

/-- A block with a window opened; the scratch bytes it covers hold free values from then on (R312). -/
def Block.openWindow (b : Block) (n : Nat) (base : Word) (len off draw : Nat) : Block :=
  { b.writeScratch off ((List.range len).map fun i => Config.stashByte draw i) with
    windows := b.windows.put n ⟨base, len, off, false, []⟩ }

/-- The checks of R312 that come before the pages. -/
def stashTrap (u : IssueUnit) (r : State) (b : Block) (n : Nat) (base : Word) (len off : Half) : Option Trap :=
  let last := base.toNat + len.toNat - 1
  if (b.windows.get? n).isSome then some (u.badOperand r (BitVec.ofNat 32 n) (some 1) 5)
  else if len = 0 then some (u.badOperand r len (some 2) 2)
  else if base.toNat % 128 ≠ 0 then some (u.engTrap r Code.misaligned base 1)
  else if len.toNat % 128 ≠ 0 then some (u.engTrap r Code.misaligned (len.setWidth 64) 2)
  else if off.toNat % 128 ≠ 0 then some (u.engTrap r Code.misaligned (off.setWidth 64) 3)
  else if b.scratchSize < off.toNat + len.toNat then some (u.engTrap r Code.poolFault (off.setWidth 64) 3)
  else if b.windowClash base len.toNat off.toNat then some (u.badOperand r (lo32 base) (some 3) 1)
  else if 2 ^ 56 ≤ last then some (u.engTrap r Code.pageFault base 1)
  else if 0x00FF000000000000 ≤ last then some (u.engTrap r Code.protection base 1)
  else none

/-- STASH (R312): translates the range and opens the window; no line is fetched. -/
def execStash (h : Head) (a b c : Reg) (n : Fin 4) (s : State) : Host.Outcome State Fault Refusal :=
  issue (.stash h a b c n) h (fun u r w =>
    if u.lanes.isEmpty then .done w
    else match r.blocks.get? u.block with
      | none => .done w
      | some x =>
        let base := u.once64 r a
        let len := u.once r b
        let off := u.once r c
        match stashTrap u r x n.val base len off with
        | some t => .trap t
        | none => match stashPages w u.part u.asid (rangePages base len.toNat) with
          | .error (c, va) => .trap (u.engTrap r c va 1)
          | .ok (w1, xs) => match xs.find? fun y => !stashable w1 u.part y.2 with
            | some y => .trap (u.engTrap r Code.protection y.1 1)
            | none => .done (w1.draw.mapBlock u.block fun x => x.openWindow n.val base len.toNat off.toNat w1.draws)) s

/-- UNSTASH (R313): the window takes no new fills; a window that is already closing is waited for (DEDUCED, log 26). -/
def execUnstash (h : Head) (n : Fin 4) (s : State) : Host.Outcome State Fault Refusal :=
  issue (.unstash h n) h (fun u r w =>
    if u.lanes.isEmpty then .done w
    else match (r.blocks.get? u.block).bind fun b => b.windows.get? n.val with
      | none => .done w
      | some x =>
        if x.closing then .wait r (.stall (.window u.block n.val))
        else
          let w1 := w.mapBlock u.block fun b => { b with windows := b.windows.put n.val { x with closing := true } }
          .done (u.start w1 h [] none (.unstash u.block n.val))) s

/-- The block with a window closed and its scratch bytes 0 (R313). -/
def Block.closeWindow (b : Block) (n : Nat) : Block :=
  match b.windows.get? n with
  | none => b
  | some w => { b with windows := b.windows.del n
                       scratch := b.scratch.drop fun o => decide (w.off ≤ o ∧ o < w.off + w.len) }

/-- UNSTASH_COMPLETION (R313). -/
def execUnstashCompletion (id : Nat) (s : State) : Host.Outcome State Fault Refusal :=
  match s.pend.get? id with
  | some q => match q.work with
    | .unstash b n => .next (deliver (s.mapBlock b fun x => x.closeWindow n) id q false Result.empty)
    | _ => .next s
  | none => .next s

/-- STASH_WRITEBACK (R64): dirty lines of a window that nobody has asked for are written back. -/
def execStashWriteback (block window : Nat) (s : State) : Host.Outcome State Fault Refusal :=
  .next (s.mapBlock block fun b => match b.windows.get? window with
    | some w => { b with windows := b.windows.put window { w with owned := w.owned.map fun o => (o.1, false, o.2.2) } }
    | none => b)

/-- The partition that holds a core. -/
def partOfCore (s : State) (core : Nat) : Option (Nat × Partition) := s.parts.find? fun p => p.2.coreList.contains core

/-- A line evicted below the L1 of a core: from the L2 of its die with the L1 copies beneath, from the LLC, or a fabric
line toward its peer home (R58, R63, R373). -/
def evictBelow (s : State) (part : Nat) (p : Partition) (core line : Nat) : State :=
  let die := dieOf core
  if ((p.l2At die).get? line).isSome then
    (dropL1 s die line).mapPart part fun p => { p with l2 := p.l2.put die ((p.l2At die).del line) }
  else if 2 ^ 60 ≤ line then evictFabric s (line - 2 ^ 60)
  else s.mapPart part fun p => { p with llc := p.llc.del line }

/-- LINE_EVICTION (R60, R63, R373): the device evicts a line from the L1 of a core, else from what lies below it. -/
def execLineEviction (core line : Nat) (s : State) : Host.Outcome State Fault Refusal :=
  match (s.core core).l1.get? line, partOfCore s core with
  | some _, _ => .next (s.mapCore core fun c => { c with l1 := c.l1.del line })
  | none, some (part, p) => .next (evictBelow s part p core line)
  | none, none => .next s

end Sys2Proof.Machine
end

