-- ==== Sys2Proof/Machine/Copy.lean ====
section
/-! DEFINITION. The copy engine: CPY with its checks and effect (R314-R319), queue slots (R317), CPYH and CREL (R321,
R323); binning, BINC and BINP (R320, R322). -/

namespace Sys2Proof.Machine

/-! ## Engine accesses -/

/-- An error an engine meets after issue (R319): every lane of the command meets it. -/
def engErr (code : Nat) (addr : Word) (info2 info3 : Half) : ErrRec := ⟨code, lo32 addr, hi32 addr, info2, info3, 0, 0, none⟩

/-- ASYNC_ERROR with its underlying cause (R319). -/
def asyncErr (cause : Nat) (addr : Word) (opcode : Nat) : ErrRec :=
  engErr Code.asyncError addr (BitVec.ofNat 32 cause) (BitVec.ofNat 32 opcode)

/-- Who an engine works for: partition, ASID, block, opcode, and the fabric lines a peer has refused. -/
structure Engine where
  part   : Nat
  asid   : Nat
  block  : Nat
  opcode : Nat
  faults : List (Nat × Nat)
  deriving DecidableEq, Repr

/-- The engine of a block's command (R86). -/
def engineOf (s : State) (part block opcode : Nat) (faults : List (Nat × Nat)) : Engine :=
  ⟨part, s.asidOfBlock block, block, opcode, faults⟩

/-- The refusals of a peer for lines that a command needs are over with it (R374). -/
def noteFaulted (s : State) (ws : List Want) : State :=
  { s with fab := { s.fab with faulted := s.fab.faulted.filter fun f => !(ws.any fun w => w.line? == some f.1) } }

/-- The cause a peer answered for a fabric place. -/
def Engine.fault (g : Engine) (p : Place) (n : Nat) : Option Nat :=
  match p with
  | .fabric a _ => (g.faults.find? fun f => decide (a / 128 ≤ f.1 ∧ f.1 ≤ (a + n - 1) / 128)).map (·.2)
  | _ => none

/-- What an engine's global access does to the copies of its line, which it takes through the L2 of its core's die: each line of
a row once, with the normal policy (R58, R60, R63, R64, R113). -/
def engineTouch (s : State) (g : Engine) (va : Word) (first : Bool) (p : Place) (write : Bool) : State :=
  match cacheLine s g.part p with
  | none => s
  | some l =>
    if first || va.toNat % 128 == 0 then pastL1 s g.part (s.coreOf g.block) g.block (some (g.asid, va)) l write else s

/-- `n` bytes read by an engine at a global address (R315, R319). -/
def engineRead (s : State) (g : Engine) (va : Word) (first : Bool) (n : Nat) : Except ErrRec (State × List Byte) :=
  match resolve s g.part g.asid g.block va n .engineRead with
  | .error c => .error (asyncErr c va g.opcode)
  | .ok (s1, p) => match g.fault p n with
    | some c => .error (asyncErr c va g.opcode)
    | none =>
      if placeLost s1 g.part p n then
        .error (engErr Code.dataLost va 0xFFFFFFFF (BitVec.ofNat 32 g.opcode))
      else .ok (engineTouch s1 g va first p false, placeBytes s1 g.part p n)

/-- Whether an engine write to a det-shared page is refused: its block does not hold the token, as a block of a packed warp never
does (R360, R365). -/
def engineDet (s : State) (g : Engine) (va : Word) : Bool :=
  match (s.blocks.get? g.block).map fun b => (b.kernel, b.rank) with
  | some (k, r) => match s.kernels.get? k with
    | some x => x.det && ebit (leafAt s g.part g.asid va) 19 && !x.tokenAt r
    | none => false
  | none => false

/-- The tile of an engine's write born (R76, R78). -/
def engineBirth (s : State) (g : Engine) (va : Word) (p : Place) : Except ErrRec State :=
  match p with
  | .tile r t _ k =>
    match birth s g.part r t k with
    | .ok s1 => .ok s1
    | .error why => .error (engErr Code.existFull va 0xFFFFFFFF (BitVec.ofNat 32 (why * 256 + r % 256)))
  | _ => .ok s

/-- Bytes written by an engine at a global address: the state, and the physical cells written (R78, R319, R365). -/
def engineWrite (s : State) (g : Engine) (va : Word) (first : Bool) (bs : List Byte) :
    Except ErrRec (State × List (Nat × Byte)) :=
  match resolve s g.part g.asid g.block va bs.length .engineWrite with
  | .error c => .error (asyncErr c va g.opcode)
  | .ok (s1, p) =>
    if engineDet s1 g va then .error (asyncErr Code.detOrder va g.opcode)
    else match g.fault p bs.length with
    | some c => .error (asyncErr c va g.opcode)
    | none => match engineBirth s1 g va p with
      | .error e => .error e
      | .ok s2 =>
        let s3 := writePlace (engineTouch s2 g va first p true) g.part p bs
        .ok (s3, placeCells s3 g.part p bs)

/-- A tile's aligned word at a byte (R315, R329). -/
def tileWord (s : State) (block m o : Nat) : Half :=
  ((s.blocks.get? block).bind fun b => b.tiles.get? m).elim 0 fun t => t.num (o / 4)

/-- An aligned 4-byte word of a copy's source (R316); `step` is the row stride. -/
def copyRead (s : State) (g : Engine) (k : CpyKind) (base : Word) (step o : Nat) : Except ErrRec (State × List Byte) :=
  match k with
  | .scratch => .ok (s, (s.blocks.get? g.block).elim [] fun b => b.bytes (base.toNat + o) 4)
  | .tile => .ok (s, leBytes 4 (tileWord s g.block base.toNat o).toNat)
  | .global => engineRead s g (base + BitVec.ofNat 64 o) (o % step == 0) 4

/-- An aligned 4-byte word of a copy's destination (R316). -/
def copyWrite (s : State) (g : Engine) (k : CpyKind) (base : Word) (step o : Nat) (bs : List Byte) :
    Except ErrRec (State × List (Nat × Byte)) :=
  match k with
  | .scratch => .ok (s.mapBlock g.block fun b => b.writeScratch (base.toNat + o) bs, [])
  | .tile => .ok (applyTile s ⟨g.block, base.toNat, [(o / 4, BitVec.ofNat 32 (leNat bs))]⟩, [])
  | .global => engineWrite s g (base + BitVec.ofNat 64 o) (o % step == 0) bs

/-! ## A copy -/

/-- The source and destination offsets of a copy's words in the order of R316. -/
def CopyCmd.pairs (c : CopyCmd) : List (Nat × Nat) :=
  (List.range c.rows).flatMap fun i =>
    (List.range (c.rowBytes / 4)).map fun k => (i * c.sStride + 4 * k, i * c.dStride + 4 * k)

/-- The words of a copy that are still to be made: after a halt, those past the word it stopped at (R354). -/
def CopyCmd.rest (c : CopyCmd) : List (Nat × Nat) := c.pairs.drop c.made

/-- The words read, each with its destination offset, up to the first error (R316, R319). -/
def readPairs (g : Engine) (k : CpyKind) (base : Word) (step : Nat) :
    State → List (Nat × Nat) → State × List (Nat × List Byte) × Option ErrRec
  | s, [] => (s, [], none)
  | s, (a, b) :: rest => match copyRead s g k base step a with
    | .error e => (s, [], some e)
    | .ok (s1, bs) =>
      let t := readPairs g k base step s1 rest
      (t.1, (b, bs) :: t.2.1, t.2.2)

/-- The words written in order up to the first error, with the physical cells written. -/
def writePairs (g : Engine) (k : CpyKind) (base : Word) (step : Nat) :
    State → List (Nat × List Byte) → State × List (Nat × Byte) × Option ErrRec
  | s, [] => (s, [], none)
  | s, (o, bs) :: rest => match copyWrite s g k base step o bs with
    | .error e => (s, [], some e)
    | .ok (s1, cells) =>
      let t := writePairs g k base step s1 rest
      (t.1, cells ++ t.2.1, t.2.2)

/-- Words of a copy made: the source as it stood, written in order; an error stops them at its word (R316, R319). A lost line
all of whose bytes they wrote is lost no more (R277). -/
def runPairs (s : State) (g : Engine) (c : CopyCmd) (ps : List (Nat × Nat)) : State × Option ErrRec :=
  let r := readPairs g c.dir.aKind c.src c.sStride s ps
  let w := writePairs g c.dir.dKind c.dst c.dStride r.1 r.2.1
  ({ w.1 with lost := stillLost w.1.lost w.2.1 }, w.2.2.orElse fun _ => r.2.2)

/-- THE EFFECT OF A COPY (R316, R319): every word still to be made. -/
def runCopy (s : State) (g : Engine) (c : CopyCmd) : State × Option ErrRec := runPairs s g c c.rest

/-- The places of one side of a copy in global memory, as they stand. -/
def sidePlaces (s : State) (g : Engine) (base : Word) (acc : Acc) (offs : List Nat) : List Place :=
  offs.filterMap fun o => match resolve s g.part g.asid g.block (base + BitVec.ofNat 64 o) 4 acc with
    | .ok (_, p) => some p
    | .error _ => none

/-- The global places a copy reads. -/
def sourcePlaces (s : State) (g : Engine) (c : CopyCmd) : List Place :=
  if c.dir.aKind = .global then sidePlaces s g c.src .engineRead (c.rest.map (·.1)) else []

/-- The global places a copy writes. -/
def destPlaces (s : State) (g : Engine) (c : CopyCmd) : List Place :=
  if c.dir.dKind = .global then sidePlaces s g c.dst .engineWrite (c.rest.map (·.2)) else []

/-- What a copy needs of peers (R58, R373). -/
def copyLines (s : State) (g : Engine) (c : CopyCmd) : List Want :=
  (((sourcePlaces s g c).flatMap fun p => placeMissing s g.part false p 4)
    ++ (destPlaces s g c).flatMap fun p => placeMissing s g.part true p 4).dedup

/-- Whether a peer has refused the line of a want. -/
def Engine.refused (g : Engine) (w : Want) : Bool := g.faults.any fun f => w.line? == some f.1

/-- What a copy waits for: lines no peer has refused. -/
def copyMissing (s : State) (g : Engine) (c : CopyCmd) : List Want := (copyLines s g c).filter fun w => !g.refused w

/-- The place in a tile whose birth is in flight, for which a copy's write waits (R76). -/
def copyReserved (s : State) (g : Engine) (c : CopyCmd) : Option Place :=
  (destPlaces s g c).find? fun p => tileReserved s g.part p

/-- The addresses a copy writes in global memory. -/
def destAddrs (c : CopyCmd) : List Word :=
  if c.dir.dKind = .global then c.rest.map fun o => c.dst + BitVec.ofNat 64 o.2 else []

/-- What copies that write global memory wait for before they are made, if anything: stamps in flight that span the whole window
of R93 where a discarded page is written (R97), births in flight, or lines of a peer. -/
def copiesWait (s : State) (g : Engine) (cs : List CopyCmd) : Option (State × Wait) :=
  match spanWait s g.part g.asid (cs.flatMap destAddrs) with
  | some x => some (s, x)
  | none => match cs.findSome? (copyReserved s g) with
    | some p => some (s, birthsWait g.part p 1)
    | none => match cs.flatMap (copyMissing s g) with
      | [] => none
      | ws => some (askAll s ws, linesWait ws)

/-! ## The checks of R315 -/

/-- A copy's operands as read at issue: places, rows, row bytes and strides (R314). -/
structure CopyOps where
  dst  : Option Word
  src  : Word
  rows : Nat
  rb   : Nat
  ss   : Nat
  ds   : Nat
  abar : Option Half
  deriving DecidableEq, Repr

/-- The value of a CPY operand (R314). -/
def cpyOpd (u : IssueUnit) (r : State) (k : CpyKind) (o : CpyOpd) : Option Word :=
  match o with
  | .queue => none
  | .tile m => some (BitVec.ofNat 64 m.val)
  | .reg g => some (if k = .global then u.once64 r g else (u.once r g).setWidth 64)

/-- The operands of a CPY. -/
def copyOps (u : IssueUnit) (r : State) (dir : CpyDir) (d a : CpyOpd) (b c : Reg) (twoD ab : Bool) : CopyOps :=
  let v := fun i => (u.once r (Reg.plus b i)).toNat
  { dst := cpyOpd u r dir.dKind d, src := (cpyOpd u r dir.aKind a).getD 0
    rows := if twoD then v 0 else 1, rb := if twoD then v 1 else v 0
    ss := if twoD then v 2 else 0, ds := if twoD then v 3 else 0
    abar := if ab then some (u.once r c) else none }

/-- The bytes from the first to the last of a side. -/
def CopyOps.sExt (o : CopyOps) : Nat := (o.rows - 1) * o.ss + o.rb
def CopyOps.dExt (o : CopyOps) : Nat := (o.rows - 1) * o.ds + o.rb

/-- The sides of a copy in field order: kind, place, extent, operand field. -/
def CopyOps.sides (o : CopyOps) (dir : CpyDir) : List (CpyKind × Word × Nat × Nat) :=
  (match o.dst with
    | some d => [(dir.dKind, d, o.dExt, 0)]
    | none => []) ++ [(dir.aKind, o.src, o.sExt, 1)]

/-- The first of some tests that answers. -/
def firstOf {α : Type} (xs : List (Option α)) : Option α := xs.findSome? id

/-- A trap when a condition holds. -/
def trapIf (b : Bool) (t : Trap) : Option Trap := if b then some t else none

/-- The counts of R315, second line. -/
def copyCounts (u : IssueUnit) (r : State) (o : CopyOps) (twoD : Bool) : Option Trap :=
  let bad := fun (v : Nat) => u.engTrap r Code.illegalOperand (BitVec.ofNat 64 v) 2
  if twoD then
    firstOf [trapIf (o.rows == 0 || decide (4096 < o.rows)) (bad o.rows),
      trapIf (decide (o.rb < 4 ∨ 65536 < o.rb ∨ 2 ^ 24 < o.rows * o.rb)) (bad o.rb)]
  else trapIf (decide (2 ^ 24 < o.rb)) (bad o.rb)

/-- The queue a copy names: initialised, with slots that hold the extent (R315). -/
def copyQueue (u : IssueUnit) (r : State) (o : CopyOps) (q : Option Nat) : Option Trap :=
  match q with
  | none => none
  | some n => match queueOf r u.block n with
    | none => some (u.engTrap r Code.illegalOperand (BitVec.ofNat 64 n) 5)
    | some x => trapIf (decide (x.size < o.dExt)) (u.engTrap r Code.illegalOperand (BitVec.ofNat 64 o.dExt) 2)

/-- The alignments of R315. -/
def copyAlign (u : IssueUnit) (r : State) (o : CopyOps) (dir : CpyDir) : Option Trap :=
  firstOf (((o.sides dir).map fun x =>
      trapIf (x.1 != .tile && x.2.1.toNat % 4 != 0) (u.engTrap r Code.misaligned x.2.1 x.2.2.2))
    ++ ([o.rb, o.ss, o.ds].map fun v => trapIf (v % 4 != 0) (u.engTrap r Code.misaligned (BitVec.ofNat 64 v) 2))
    ++ [o.abar.bind fun a => trapIf (a.toNat % 16 != 0) (u.engTrap r Code.misaligned (a.setWidth 64) 3)])

/-- Tile handles bound, and tile extents within a tile (R315). -/
def copyTiles (u : IssueUnit) (r : State) (o : CopyOps) (dir : CpyDir) : Option Trap :=
  let bound := fun (m : Nat) => ((r.blocks.get? u.block).bind fun b => b.tiles.get? m).isSome
  firstOf (((o.sides dir).map fun x => trapIf (x.1 == .tile && !bound x.2.1.toNat) (tileTrap u r x.2.1.toNat 3))
    ++ ((o.sides dir).map fun x => trapIf (x.1 == .tile && decide (4096 < x.2.2.1))
      (u.engTrap r Code.illegalOperand (BitVec.ofNat 64 x.2.2.1) x.2.2.2)))

/-- Scratch extents and the ABAR within the allocation, and clear of stash windows (R315). -/
def copyScratch (u : IssueUnit) (r : State) (o : CopyOps) (dir : CpyDir) : Option Trap :=
  let size := (r.blocks.get? u.block).elim 0 (·.scratchSize)
  let hits := fun (a n : Nat) => (r.blocks.get? u.block).elim false fun b => b.windowHits a n
  firstOf (((o.sides dir).map fun x =>
      trapIf (x.1 == .scratch && x.2.2.1 != 0 && decide (size < x.2.1.toNat + x.2.2.1))
        (u.engTrap r Code.poolFault x.2.1 x.2.2.2))
    ++ [o.abar.bind fun a => trapIf (decide (size < a.toNat + 16)) (u.engTrap r Code.poolFault (a.setWidth 64) 3)]
    ++ ((o.sides dir).map fun x =>
      trapIf (x.1 == .scratch && x.2.2.1 != 0 && hits x.2.1.toNat x.2.2.1)
        (u.engTrap r Code.protection x.2.1 x.2.2.2)))

/-- The check of R315 on a global extent: canonical, and outside the aperture; the cause. -/
def globalCheck (base : Word) (ext : Nat) : Option Nat :=
  if ext = 0 then none
  else if 2 ^ 56 < base.toNat + ext then some Code.pageFault
  else if 0x00FF000000000000 < base.toNat + ext then some Code.illegalOperand
  else none

/-- Global extents canonical and outside the aperture (R34, R315). -/
def copyGlobal (u : IssueUnit) (r : State) (o : CopyOps) (dir : CpyDir) : Option Trap :=
  let test := fun (code : Nat) => (o.sides dir).map fun x =>
    trapIf (x.1 == .global && globalCheck x.2.1 x.2.2.1 == some code) (u.engTrap r code x.2.1 x.2.2.2)
  firstOf (test Code.pageFault ++ test Code.illegalOperand)

/-- The checks of R315 in their order. -/
def copyTrap (u : IssueUnit) (r : State) (o : CopyOps) (dir : CpyDir) (twoD : Bool) (q : Option Nat) : Option Trap :=
  firstOf [copyCounts u r o twoD, copyQueue u r o q, copyAlign u r o dir, copyTiles u r o dir, copyScratch u r o dir,
    copyGlobal u r o dir]

/-- The tiles a copy names. -/
def CopyOps.tiles (o : CopyOps) (dir : CpyDir) : List Nat :=
  (o.sides dir).filterMap fun x => if x.1 == .tile then some x.2.1.toNat else none

/-! ## CPY -/

/-- A copy's command (R316). -/
def CopyOps.cmd (o : CopyOps) (block opcode : Nat) (dir : CpyDir) (q : Option Nat) (sc : MScope) : CopyCmd where
  block := block
  dir := dir
  dst := o.dst.getD 0
  src := o.src
  rows := o.rows
  rowBytes := o.rb
  sStride := o.ss
  dStride := o.ds
  abar := o.abar.map (·.toNat)
  queue := q
  scope := sc
  opcode := opcode
  ran := false
  err := none
  made := 0

/-- CPY (R314-R318): it starts once the accesses before it have been performed (R113); the writes of a global destination are made at issue (DESIGN CHOICE, log 9), the others at completion. -/
def execCpy (h : Head) (dir : CpyDir) (d a : CpyOpd) (b c : Reg) (twoD ab : Bool) (q : Fin 8) (sc : MScope) (s : State) :
    Host.Outcome State Fault Refusal :=
  issue (.cpy h dir d a b c twoD ab q sc) h (fun u r w =>
    if u.lanes.isEmpty then .done w
    else
      let o := copyOps u r dir d a b c twoD ab
      let qn := if d = .queue then some q.val else none
      match copyTrap u r o dir twoD qn with
      | some t => .trap t
      | none =>
        let cmd := o.cmd u.block u.opcode dir qn sc
        if accessesPending r u then .wait r u.stallAccesses
        else if o.rb = 0 ∧ qn.isNone then .done (o.abar.elim w fun a => abarUpdate w u.block a.toNat 0 0)
        else if dir.dKind = .global then
          let g := engineOf r u.part u.block u.opcode r.fab.faulted
          match copiesWait r g [cmd] with
          | some x => .wait x.1 x.2
          | none =>
            let x := runCopy w g cmd
            .done (u.start (noteFaulted x.1 (copyLines r g cmd)) h (o.tiles dir) none
              (.copy { cmd with ran := true, err := x.2 } false))
        else .done (u.start w h (o.tiles dir) qn (.copy cmd qn.isSome))) s

/-- Whether a copy is the oldest that waits for its queue (R317). -/
def firstInQueue (s : State) (id : Nat) (q : Pend) : Bool :=
  !(s.pend.any fun p => decide (p.1 < id) && p.2.block == q.block && p.2.queue == q.queue && match p.2.work with
    | .copy _ w => w
    | _ => false)

/-- Whether the engines of a partition run: not once its halt has completed (R354, R355). -/
def partRuns (s : State) (part : Nat) : Bool :=
  (s.parts.get? part).elim false fun p => p.halt == .running || p.halt == .halting

/-- CPY_QUEUE_SLOT_TAKE (R317): the oldest waiting copy of a queue takes a free slot as its destination. -/
def execCpyQueueSlotTake (id : Nat) (s : State) : Host.Outcome State Fault Refusal :=
  match s.pend.get? id with
  | some q => match q.work with
    | .copy c true =>
      let n := c.queue.getD 0
      match queueOf s c.block n with
      | some x =>
        if 0 < x.free ∧ firstInQueue s id q ∧ partRuns s q.part then
          let y := x.takeFree
          .next (setWork (setQueue s c.block n y.1) id (.copy { c with dst := BitVec.ofNat 64 y.2 } false))
        else .next s
      | none => .next s
    | _ => .next s
  | none => .next s

/-- What follows the last write of a copy that met no error: the slot filled, then the bytes counted (R317, R318). -/
def copyDone (s : State) (c : CopyCmd) : State :=
  let s1 := match c.queue with
    | some n => match queueOf s c.block n with
      | some q => setQueue s c.block n q.fill
      | none => s
    | none => s
  match c.abar with
  | some a => abarUpdate s1 c.block a 0 (c.rows * c.rowBytes)
  | none => s1

/-- A copy's flag set, with its error or none (R316, R319; DESIGN CHOICE, log 9). -/
def finishCopy (s : State) (id : Nat) (q : Pend) (c : CopyCmd) (e : Option ErrRec) : State :=
  let s1 := if e.isNone then copyDone s c else s
  deliver s1 id q false { Result.empty with err := e.map fun x => { x with order := q.order } }

/-- Whether the kernel of a block has aborted. -/
def State.blockAborted (s : State) (block : Nat) : Bool :=
  ((s.blocks.get? block).bind fun b => s.kernels.get? b.kernel).elim true (·.aborted)

/-- Whether a copy waits for a slot that nobody will free: its kernel has aborted and its queue has none (R352). -/
def slotNever (s : State) (c : CopyCmd) : Bool :=
  s.blockAborted c.block && (queueOf s c.block (c.queue.getD 0)).elim true fun x => x.free == 0

/-- COPY_COMMAND_COMPLETION (R316-R319, R323); a copy that waits for a slot that nobody will free ends unmade (R352; DEDUCED,
log 26), and nothing completes while the partition is swapped out (R354, R355). -/
def execCopyCommandCompletion (id : Nat) (s : State) : Host.Outcome State Fault Refusal :=
  match s.pend.get? id with
  | some q => if !partRuns s q.part then .next s else match q.work with
    | .copy c w =>
      if w then .next (if slotNever s c then deliver s id q false Result.empty else s)
      else if c.ran then .next (finishCopy s id q c c.err)
      else
        let g := engineOf s q.part c.block c.opcode q.faults
        match copyMissing s g c with
        | [] =>
          let x := runCopy s g c
          .next (finishCopy x.1 id q c x.2)
        | ls => .next (askAll s ls)
    | .crel e => .next (deliver s id q false { Result.empty with err := e.map fun x => { x with order := q.order } })
    | _ => .next s
  | none => .next s

/-! ## Binning -/

/-- BINC (R320): the bins of the active lanes are read at issue, once the accesses before it have been performed (R113). -/
def execBinc (h : Head) (a b c : Reg) (s : State) : Host.Outcome State Fault Refusal :=
  issue (.binc h a b c) h (fun u r w =>
    if u.lanes.isEmpty then .done w
    else
      let off := u.once r a
      let nb := u.once r c
      let size := (r.blocks.get? u.block).elim 0 (·.scratchSize)
      if nb = 0 ∨ 4096 < nb.toNat then .trap (u.engTrap r Code.illegalOperand (nb.setWidth 64) 3)
      else if off.toNat % 4 ≠ 0 then .trap (u.engTrap r Code.misaligned (off.setWidth 64) 1)
      else if size < off.toNat + 4 * nb.toNat then .trap (u.engTrap r Code.poolFault (off.setWidth 64) 1)
      else if accessesPending r u then .wait r u.stallAccesses
      else .done (u.start w h [] none (.binc u.block off.toNat nb.toNat
        (u.lanes.map fun x => (u.read r x.1 b x.2).toNat)))) s

/-- One bin counted (R320). -/
def Block.count (x : Block) (array nb bin : Nat) : Block :=
  if bin < nb then
    x.writeScratch (array + 4 * bin) (leBytes 4 (leNat (x.bytes (array + 4 * bin) 4) + 1))
  else x

/-- Unpatched entries patched in list order up to the first whose array lies outside the allocation (R322;
DEDUCED, log 26). -/
def patchHolds (x : Block) : List Hold → List Hold × Option ErrRec
  | [] => ([], none)
  | e :: rest =>
    match e.len with
    | some _ => let t := patchHolds x rest; (e :: t.1, t.2)
    | none =>
      let a := e.array + 4 * e.bin.toNat
      if x.scratchSize < a + 4 then (e :: rest, some (asyncErr Code.poolFault (BitVec.ofNat 64 e.array) 0x14E))
      else
        let t := patchHolds x rest
        ({ e with len := some (leNat (x.bytes a 4) * 2 ^ e.sizeLog) } :: t.1, t.2)

/-- BINP (R322): it starts once the accesses before it have been performed (R113). -/
def execBinp (h : Head) (s : State) : Host.Outcome State Fault Refusal :=
  issue (.binp h) h (fun u r w =>
    if u.lanes.isEmpty then .done w
    else if accessesPending r u then .wait r u.stallAccesses
    else .done (u.start w h [] none (.binp u.block))) s

/-- BIN_COMMAND_COMPLETION (R320, R322). -/
def execBinCommandCompletion (id : Nat) (s : State) : Host.Outcome State Fault Refusal :=
  match s.pend.get? id with
  | some q => match q.work with
    | .binc b array nb bins =>
      .next (deliver (s.mapBlock b fun x => bins.foldl (fun x i => x.count array nb i) x) id q false Result.empty)
    | .binp b => match s.blocks.get? b with
      | none => .next (deliver s id q false Result.empty)
      | some x =>
        let p := patchHolds x x.holds
        .next (deliver (s.mapBlock b fun x => { x with holds := p.1 }) id q false
          { Result.empty with err := p.2.map fun e => { e with order := q.order } })
    | _ => .next s
  | none => .next s

/-! ## CPYH and CREL -/

/-- The checks of R321 at issue. -/
def cpyhTrap (u : IssueUnit) (r : State) (dst : Word) (src array : Half) : Option Trap :=
  firstOf [trapIf (dst.toNat % 4 != 0) (u.engTrap r Code.misaligned dst 0),
    trapIf (src.toNat % 4 != 0) (u.engTrap r Code.misaligned (src.setWidth 64) 1),
    trapIf (array.toNat % 4 != 0) (u.engTrap r Code.misaligned (array.setWidth 64) 3),
    (globalCheck dst 1).map fun c => u.engTrap r c dst 0,
    trapIf (decide (16 ≤ (r.blocks.get? u.block).elim 0 fun b => b.holds.length)) (u.badOperand r 16 (some 5) 0)]

/-- CPYH (R321): an entry appended to the hold list. -/
def execCpyh (h : Head) (d a b c : Reg) (size : Fin 8) (sc : MScope) (s : State) : Host.Outcome State Fault Refusal :=
  issue (.cpyh h d a b c size sc) h (fun u r w =>
    if u.lanes.isEmpty then .done w
    else
      let dst := u.once64 r d
      let src := u.once r a
      let array := u.once r c
      match cpyhTrap u r dst src array with
      | some t => .trap t
      | none => .done (w.mapBlock u.block fun x =>
          { x with holds := x.holds ++ [⟨dst, src.toNat, u.once r b, array.toNat, size.val, sc, none⟩] })) s

/-- Entries of a hold list with their indices. -/
def numbered {α : Type} (xs : List α) : List (Nat × α) := xs.mapIdx fun i x => (i, x)

/-- A trap of CREL that names an entry in tinfo2 (R323). -/
def crelTrap (u : IssueUnit) (r : State) (code : Nat) (v : Word) (i : Nat) : Trap :=
  u.trapAll r code (lo32 v) (hi32 v) (BitVec.ofNat 32 i) 0

/-- The checks of R323 at issue (DEDUCED, log 26). -/
def crelCheck (u : IssueUnit) (r : State) (x : Block) : Option Trap :=
  let es := numbered x.holds
  let len := fun (e : Hold) => e.len.getD 0
  firstOf ((es.map fun e => trapIf e.2.len.isNone (u.badOperand r (BitVec.ofNat 32 e.1) (some 6) 0))
    ++ (es.map fun e => trapIf (decide (2 ^ 24 < len e.2)) (u.engTrap r Code.illegalOperand (BitVec.ofNat 64 (len e.2)) 0))
    ++ (es.map fun e => trapIf (len e.2 != 0 && decide (x.scratchSize < e.2.src + len e.2))
      (crelTrap u r Code.poolFault (BitVec.ofNat 64 e.2.src) e.1))
    ++ (es.map fun e => (globalCheck e.2.dst (len e.2)).map fun c => crelTrap u r c e.2.dst e.1))

/-- A patched entry as a CPY.s2g (R323). -/
def Hold.cmd (e : Hold) (block : Nat) : CopyCmd where
  block := block
  dir := .s2g
  dst := e.dst
  src := BitVec.ofNat 64 e.src
  rows := 1
  rowBytes := e.len.getD 0
  sStride := 0
  dStride := 0
  abar := none
  queue := none
  scope := e.scope
  opcode := 0x14F
  ran := false
  err := none
  made := 0

/-- Copies made in order; the error of the first that meets one is kept (R200, R323). -/
def runCopies (g : Engine) : State → List CopyCmd → State × Option ErrRec
  | s, [] => (s, none)
  | s, c :: rest =>
    let x := runCopy s g c
    let t := runCopies g x.1 rest
    (t.1, x.2.orElse fun _ => t.2)

/-- CREL (R323): the checks, then every entry as one copy in list order. -/
def execCrel (h : Head) (s : State) : Host.Outcome State Fault Refusal :=
  issue (.crel h) h (fun u r w =>
    if u.lanes.isEmpty then .done w
    else match r.blocks.get? u.block with
      | none => .done w
      | some x => match crelCheck u r x with
        | some t => .trap t
        | none =>
          let g := engineOf r u.part u.block u.opcode r.fab.faulted
          let cs := x.holds.map fun e => e.cmd u.block
          if accessesPending r u then .wait r u.stallAccesses
          else match copiesWait r g cs with
            | some x => .wait x.1 x.2
            | none =>
              let y := runCopies g (w.mapBlock u.block fun b => { b with holds := [] }) cs
              .done (u.start (noteFaulted y.1 (cs.flatMap (copyLines r g))) h [] none (.crel y.2))) s

end Sys2Proof.Machine
end

