-- ==== Sys2Proof/Machine/Fetch.lean ====
section
/-! DEFINITION. The fetch unit: descriptors and handles (R324, R325), FETCH through the fetch cache (R67, R326). -/

namespace Sys2Proof.Machine

/-! ## Descriptors (R324) -/

/-- A fetch descriptor. -/
structure Desc where
  data  : Nat
  aux   : Nat
  idx   : Nat
  rows  : Nat
  cols  : Nat
  kind  : Nat
  blog  : Nat
  efmt  : Nat
  pitch : Nat
  resv  : Bool
  deriving DecidableEq, Repr

/-- The descriptor 32 bytes hold. -/
def Desc.ofBytes (bs : List Byte) : Desc where
  data := fieldOf bs 0 8
  aux := fieldOf bs 8 8
  idx := fieldOf bs 16 8
  rows := fieldOf bs 24 2
  cols := fieldOf bs 26 2
  kind := fieldOf bs 28 1 % 16
  blog := fieldOf bs 28 1 / 16 % 8
  efmt := fieldOf bs 29 1 % 16
  pitch := fieldOf bs 30 2
  resv := decide (128 ≤ fieldOf bs 28 1 ∨ 16 ≤ fieldOf bs 29 1)

/-- Bits an element of a format takes in an array (R168, R169). -/
def storedBits (efmt : Nat) : Nat :=
  if efmt = 0 ∨ efmt = 15 then 32
  else if efmt = 1 ∨ efmt = 2 ∨ efmt = 8 ∨ efmt = 14 then 16
  else if efmt = 7 ∨ efmt = 11 ∨ efmt = 12 then 4
  else 8

/-- Bytes a row of a kind takes. -/
def Desc.rowBytes (d : Desc) : Nat := if d.kind = 3 then 18 * (d.cols / 32) else ceilDiv (d.cols * storedBits d.efmt) 8

/-- Why a descriptor is refused (R325). -/
def Desc.refusal (d : Desc) : Option Nat :=
  if d.resv || decide (4 ≤ d.kind) || d.rows == 0 || d.cols == 0 then some 1
  else if (d.kind == 3 && (d.efmt != 13 || d.cols % 32 != 0)) || (d.efmt == 13 && d.kind != 3) then some 2
  else if (d.kind == 2 && (d.rows % 2 ^ d.blog != 0 || d.cols % 2 ^ d.blog != 0)) || (d.kind != 2 && d.blog != 0) then
    some 3
  else if d.data % 16 != 0 || d.aux % 16 != 0 || d.idx % 16 != 0
      || (d.kind != 2 && decide (16 * d.pitch < d.rowBytes)) then some 4
  else none

/-! ## FHND -/

/-- FHND (R325): the descriptor is read with the checks of a load, but that an address in the aperture is
ILLEGAL_OPERAND (R34; its contents DEDUCED, log 26); the handle keeps it. -/
def execFhnd (h : Head) (a : Reg) (n : Fin 8) (s : State) : Host.Outcome State Fault Refusal :=
  issue (.fhnd h a n) h (fun u r w =>
    match u.lead with
    | none => .done w
    | some (x, l) =>
      let ea := u.read64 r x a l
      if readsPending r u then .wait r u.stallReads
      else if inAperture ea ∧ ea.toNat % 32 = 0 then .trap (u.engTrap r Code.illegalOperand ea 1)
      else
        let c := checkLanes u 32 32 .engineRead w [(x, l, ea)]
        match accessTrap u r c.2 with
        | some t => .trap t
        | none =>
          let p := ((c.2.head?).map (·.place)).getD .absent
          let c1 := takeFaulted c.1 (placeMissing c.1 u.part false p 32)
          match placeMissing c1 u.part false p 32 with
          | [] =>
            if placeLost c1 u.part p 32 then
              .trap (u.trapAll r Code.dataLost (lo32 ea) (hi32 ea) (BitVec.ofNat 32 (x.lane l)) (BitVec.ofNat 32 u.opcode))
            else
              let s1 := touchAll c1 u .normal false c.2
              let bs := placeBytes s1 u.part p 32
              match (Desc.ofBytes bs).refusal with
              | some why => .trap (u.trapAll r Code.illegalOperand (lo32 ea) (hi32 ea) (BitVec.ofNat 32 why) 1)
              | none => .done (s1.mapBlock u.block fun b => { b with handles := b.handles.put n.val ⟨ea, bs⟩ })
          | ls => .wait (askAll r ls) (linesWait ls)) s

/-! ## The fetch cache (R67) -/

/-- Why a read of the fetch unit gives no value: something to wait for from a peer, or an error. -/
inductive NoFetch where
  | waits (w : Want)
  | err (e : ErrRec)
  deriving DecidableEq, Repr

/-- The number under which the fetch cache keeps a byte: its physical address, its fabric address, or its tile and place in it, so
that no other tile is read through storage used again (R79, R83; DESIGN CHOICE, log 13). -/
def fetchKey (p : Place) : Option Nat :=
  match p with
  | .phys pa _ => some pa
  | .tile r t o _ => some (2 ^ 64 * (1 + r + 256 * t) + o)
  | .fabric a _ => some (2 ^ 120 + a)
  | _ => none

/-- A place moved back to the start of its 128-byte line. -/
def Place.lineStart (p : Place) : Place :=
  match p with
  | .phys pa k => .phys (pa / 128 * 128) k
  | .tile r t o k => .tile r t (o / 128 * 128) k
  | .fabric a k => .fabric (a / 128 * 128) k
  | _ => p

/-- What a fill of the fetch cache does to copies: the line comes through the L2, past the L1 (R63, R64). -/
def fetchTouch (s : State) (g : Engine) (core : Nat) (va : Word) (p : Place) : State :=
  match cacheLine s g.part p with
  | some l => pastL1 s g.part core g.block (some (g.asid, va)) l false
  | none => s

/-- The 128 bytes of a line entered in a core's fetch cache (R67). Which line a full cache gives up, and how it is organised, is not
stated: the lowest-numbered of all (DESIGN CHOICE, log 13). -/
def fillFetch (s : State) (part core key : Nat) (p : Place) : State :=
  let bs := placeBytes s part p.lineStart 128
  s.mapCore core fun c =>
    let old := if 2048 * 128 ≤ c.fcache.length then List.drop 128 c.fcache else c.fcache
    { c with fcache := (cellsFrom (key / 128 * 128) bs).foldl (fun t x => Tab.put t x.1 x.2) old }

/-- The byte at a place as the fetch cache of a core gives it; an absent tile and a discarded page are not cached. -/
def cachedByte (s : State) (g : Engine) (core : Nat) (va : Word) (p : Place) : State × Byte :=
  match cacheLine s g.part p, fetchKey p with
  | some _, some key => match (s.core core).fcache.get? key with
    | some b => (s, b)
    | none => (fillFetch (fetchTouch s g core va p) g.part core key p, placeByte s g.part p 0)
  | _, _ => (s, placeByte s g.part p 0)

/-- A byte read by the fetch unit. -/
def fetchByte (s : State) (g : Engine) (core : Nat) (va : Word) : Except NoFetch (State × Byte) :=
  match resolve s g.part g.asid g.block va 1 .engineRead with
  | .error c => .error (.err (asyncErr c va g.opcode))
  | .ok (s1, p) => match g.fault p 1, placeMissing s1 g.part false p 1 with
    | some c, _ => .error (.err (asyncErr c va g.opcode))
    | none, l :: _ => .error (.waits l)
    | none, [] =>
      if placeLost s1 g.part p 1 then
        .error (.err (engErr Code.dataLost va 0xFFFFFFFF (BitVec.ofNat 32 g.opcode)))
      else .ok (cachedByte s1 g core va p)

/-- `n` bytes read by the fetch unit from an address. -/
def fetchBytes (g : Engine) (core : Nat) : State → (va : Nat) → (n : Nat) → Except NoFetch (State × List Byte)
  | s, _, 0 => .ok (s, [])
  | s, va, n + 1 => match fetchByte s g core (BitVec.ofNat 64 va) with
    | .error e => .error e
    | .ok (s1, b) => match fetchBytes g core s1 (va + 1) n with
      | .error e => .error e
      | .ok (s2, bs) => .ok (s2, b :: bs)

/-! ## Elements (R324, R326) -/

/-- What the fetch unit finds for an element: value, whether it is stored, status. -/
structure Elem where
  val    : Half
  stored : Bool
  st     : Half
  deriving DecidableEq, Repr

/-- Element `i` of an array at an address, as its raw code (R169). -/
def rawElem (g : Engine) (core : Nat) (s : State) (efmt base i : Nat) : Except NoFetch (State × Elem) :=
  let w := storedBits efmt
  match fetchBytes g core s (base + i * w / 8) (ceilDiv w 8) with
  | .error e => .error e
  | .ok (s1, bs) =>
    let x := leNat bs
    let v := if w = 4 then x / 16 ^ (i % 2) % 16 else if efmt = 5 ∨ efmt = 6 then x % 64 else x
    .ok (s1, ⟨BitVec.ofNat 32 v, true, 0⟩)

/-- An element that is not stored. -/
def noElem (st : Half) : Elem := ⟨0, false, st⟩

/-- Set bits among the first `n` of bytes. -/
def bitsBelow (bs : List Byte) (n : Nat) : Nat :=
  ((List.range n).filter fun i => (bs.getD (i / 8) 0).getLsbD (i % 8)).length

/-- The block index of a block column among the blocks `k` to `k + n - 1` of a block row (R324, kind 2). -/
def findBlock (g : Engine) (core idx col : Nat) : State → (k n : Nat) → Except NoFetch (State × Option Nat)
  | s, _, 0 => .ok (s, none)
  | s, k, n + 1 => match fetchBytes g core s (idx + 4 * k) 4 with
    | .error e => .error e
    | .ok (s1, bs) => if leNat bs = col then .ok (s1, some k) else findBlock g core idx col s1 (k + 1) n

/-- Element (r, c) of a block-CSR matrix; a range whose pointers decrease, or that runs past the last pointer, stores
nothing (R324, R326; DEDUCED, log 26). -/
def csrElem (g : Engine) (core : Nat) (s : State) (d : Desc) (r c : Nat) : Except NoFetch (State × Elem) :=
  let e := 2 ^ d.blog
  match fetchBytes g core s (d.aux + 4 * (r / e)) 8 with
  | .error x => .error x
  | .ok (s1, bs) =>
    let lo := leNat (bs.take 4)
    let hi := leNat (bs.drop 4)
    match fetchBytes g core s1 (d.aux + 4 * (d.rows / e)) 4 with
    | .error x => .error x
    | .ok (s2, top) =>
      if hi < lo ∨ leNat top < hi then .ok (s2, noElem fstFormat)
      else match findBlock g core d.idx (c / e) s2 lo (hi - lo) with
        | .error x => .error x
        | .ok (s3, none) => .ok (s3, noElem 0)
        | .ok (s3, some k) => rawElem g core s3 d.efmt d.data (k * (e * e) + r % e * e + c % e)

/-- Element (r, c) of a handle (R324, R326). -/
def elemAt (g : Engine) (core : Nat) (s : State) (d : Desc) (r c : Nat) : Except NoFetch (State × Elem) :=
  let row := d.data + 16 * d.pitch * r
  if d.kind = 0 then rawElem g core s d.efmt row c
  else if d.kind = 1 then
    match fetchBytes g core s (d.aux + 16 * d.pitch * r) (c / 8 + 1) with
    | .error e => .error e
    | .ok (s1, bs) =>
      if (bs.getD (c / 8) 0).getLsbD (c % 8) then rawElem g core s1 d.efmt row (bitsBelow bs c)
      else .ok (s1, noElem 0)
  else if d.kind = 2 then csrElem g core s d r c
  else match fetchBytes g core s (row + 18 * (c / 32)) 18 with
    | .error e => .error e
    | .ok (s1, bs) =>
      let o := oi4Decode bs
      let v := Fmt.f32.round .rne false (o.1.getD (c % 32) (.fin false 0 0))
      .ok (s1, ⟨BitVec.ofNat 32 v.1, true, v.2 ||| flagIf o.2 fstFormat⟩)

/-- The elements of one lane: one, or two for .b64. -/
def laneElems (g : Engine) (core : Nat) (s : State) (d : Desc) (wide : Bool) (r c : Nat) :
    Except NoFetch (State × List Elem) :=
  match elemAt g core s d r c with
  | .error e => .error e
  | .ok (s1, x) =>
    if wide then
      match elemAt g core s1 d r (c + 1) with
      | .error e => .error e
      | .ok (s2, y) => .ok (s2, [x, y])
    else .ok (s1, [x])

/-- The elements of the lanes in order: lane loads, and the status met. -/
def fetchLanes (g : Engine) (core : Nat) (d : Desc) (wide : Bool) :
    State → List (Nat × Nat × Nat × Nat) → Except NoFetch (State × List LaneLoad × Half)
  | s, [] => .ok (s, [], 0)
  | s, (u, l, r, c) :: rest => match laneElems g core s d wide r c with
    | .error e => .error e
    | .ok (s1, es) => match fetchLanes g core d wide s1 rest with
      | .error e => .error e
      | .ok (s2, ls, st) =>
        let bs := es.flatMap fun e => leBytes 4 e.val.toNat
        .ok (s2, ⟨u, l, l, 0, .bytes bs, es.all (·.stored)⟩ :: ls, es.foldl (fun a e => a ||| e.st) st)

/-! ## FETCH -/

/-- The offending index of a lane, if it fails (R326). -/
def indexFails (d : Desc) (wide : Bool) (r c : Nat) : Option Nat :=
  if d.rows ≤ r then some r else if d.cols ≤ c + wide.toNat then some c else none

/-- FETCH (R326): rows and columns are checked at issue against the handle as it stands. -/
def execFetch (h : Head) (t : W2) (d a b : Reg) (n : Fin 8) (pd : Pred) (s : State) : Host.Outcome State Fault Refusal :=
  issue (.fetch h t d a b n pd) h (fun u r w =>
    if u.lanes.isEmpty then .done w
    else match (r.blocks.get? u.block).bind fun x => x.handles.get? n.val with
      | none => .trap (u.engTrap r Code.illegalOperand (BitVec.ofNat 64 n.val) 5)
      | some hd =>
        let wide := t == .b64
        let desc := Desc.ofBytes hd.desc
        let fails := fun (x : UPart) (l : Nat) => indexFails desc wide (u.read r x a l).toNat (u.read r x b l).toNat
        match u.lanes.find? fun x => (fails x.1 x.2).isSome with
        | some (x, l) =>
          .trap (u.trapLanes r Code.indexRange (BitVec.ofNat 32 (x.lane l)) (BitVec.ofNat 32 ((fails x l).getD 0))
            (lo32 hd.addr) (hi32 hd.addr) fun y k => (fails y k).isSome)
        | none =>
          let lanes := u.lanes.map fun x => (x.1.uid, x.2, (u.read r x.1 a x.2).toNat, (u.read r x.1 b x.2).toNat)
          .done (u.start (reserve w u d (sizeRegs (W2.bytes t))) h [] none
            (.fetch hd wide d pd lanes u.asid u.core))) s

/-- FETCH_COMPLETION (R326): the elements are read through the fetch cache of the core. -/
def execFetchCompletion (id : Nat) (s : State) : Host.Outcome State Fault Refusal :=
  match s.pend.get? id with
  | some q => match q.work with
    | .fetch hd wide d pd lanes asid core =>
      let op := if wide then 0x152 else 0x151
      match fetchLanes ⟨q.part, asid, q.block, op, q.faults⟩ core (Desc.ofBytes hd.desc) wide s lanes with
      | .ok (s1, ls, st) =>
        let c : LoadCmd := ⟨d, if wide then 8 else 4, some pd, op, ls⟩
        .next (deliver s1 id q false { c.result q.warps q.order with fst := st })
      | .error (.waits l) => .next (askPeer s l)
      | .error (.err e) =>
        let c : LoadCmd := ⟨d, if wide then 8 else 4, some pd, op, lanes.map fun x => ⟨x.1, x.2.1, 0, 0, .lost, false⟩⟩
        .next (deliver s id q false { c.result q.warps q.order with err := some { e with order := q.order } })
    | _ => .next s
  | none => .next s

end Sys2Proof.Machine
end

