-- ==== Sys2Proof/Machine/Matrix.lean ====
section
/-! DEFINITION. The matrix engine: tile layouts (R329), MMA and MMAS (R330-R333, R184-R186), the tile utility commands
(R334-R337), and the completion of matrix commands (R328). -/

namespace Sys2Proof.Machine

/-! ## Tiles (R47, R329) -/

/-- A tile's words, numbered 32 × row + place; what is not listed is 0. -/
abbrev TileData := Tab Half

/-- A tile of a block as it stands. -/
def tileOfBlock (s : State) (block m : Nat) : TileData := ((s.blocks.get? block).bind fun b => b.tiles.get? m).getD []

/-- The field of `w` bits at bit `lo` of row `i`; it lies within one word. -/
def rowField (t : TileData) (i lo w : Nat) : Nat := (t.num (32 * i + lo / 32)).toNat / 2 ^ (lo % 32) % 2 ^ w

/-- Row `i` of a tile as bytes. -/
def rowBytes (t : TileData) (i : Nat) : List Byte := (List.range 128).map fun j => BitVec.ofNat 8 (rowField t i (8 * j) 8)

/-- Byte `b` of a tile, as the copy engine numbers them (R315). -/
def tileByte (t : TileData) (b : Nat) : Nat := rowField t (b / 128) (8 * (b % 128)) 8

/-- Bits an element of a format takes in its container (R169). -/
def boxBits (code : Nat) : Nat := storedBits code

/-- The raw code of element `k` of row `i` in a format (R169). -/
def tileCode (t : TileData) (code i k : Nat) : Nat :=
  let x := rowField t i (boxBits code * k) (boxBits code)
  if code = 5 ∨ code = 6 then x % 64 else x

/-- The integer an element code of an integer or fixed format stands for (R168). -/
def codeInt (code x : Nat) : Int :=
  let w := boxBits code
  if code = 10 ∨ code = 12 then (x : Int) else (BitVec.ofNat w x).toInt

/-- K by A's format (R329). -/
def kOf (code : Nat) : Nat :=
  if code = 0 ∨ code = 15 then 32
  else if code = 1 ∨ code = 2 ∨ code = 8 ∨ code = 14 then 64
  else if code = 7 ∨ code = 11 ∨ code = 12 then 256
  else if code = 13 then 224
  else 128

/-- The float elements of a row and whether fst.format is set (R168, R172). -/
def rowFloats (flush : Bool) (t : TileData) (code i : Nat) : List FV × Bool :=
  if code = 13 then
    (List.range 7).foldl (fun acc g =>
      let o := oi4Decode (((rowBytes t i).drop (18 * g)).take 18)
      (acc.1 ++ o.1, acc.2 || o.2)) ([], false)
  else match Fmt.ofCode code with
    | some f => ((List.range (kOf code)).map fun k => f.read flush (tileCode t code i k), false)
    | none => ([], false)

/-- The integers of a row. -/
def rowInts (t : TileData) (code i : Nat) : List Int :=
  (List.range (kOf code)).map fun k => codeInt code (tileCode t code i k)

/-! ## Sparse A (R333) -/

/-- The two places quad `q` of row `i` keeps, by the metadata of a format; `none` for a group that is left out. -/
def quadPlaces (t : TileData) (i q : Nat) : Option (Nat × Nat) :=
  let a := rowField t i (512 + 4 * q) 2
  let b := rowField t i (512 + 4 * q + 2) 2
  if a < b then some (a, b) else none

/-- A row of kept values spread over K places; what a quad leaves out is absent. -/
def spreadRow {α : Type} (t : TileData) (i k : Nat) (kept : Nat → α) : List (Option α) :=
  (List.range k).map fun p =>
    match quadPlaces t i (p / 4) with
    | none => none
    | some (a, b) =>
      if p % 4 = a then some (kept (2 * (p / 4))) else if p % 4 = b then some (kept (2 * (p / 4) + 1)) else none

/-- Whether some quad of a row is left out. -/
def badQuads (t : TileData) (i k : Nat) : Bool := (List.range (k / 4)).any fun q => (quadPlaces t i q).isNone

/-! ## The sums (R184-R186) -/

/-- A list cut into groups of 32 along K. -/
def groups {α : Type} (n : Nat) (xs : List α) : List (List α) := (List.range n).map fun g => (xs.drop (32 * g)).take 32

/-- The exact sum of one group: products of the places A holds, and whether one is invalid (R184). -/
def groupSum (as : List (Option FV)) (bs : List FV) : FV × Bool :=
  let ts := (as.zip bs).filterMap fun x => x.1.map fun a => a.mul x.2
  let s := FV.sum (ts.map (·.1))
  (s.1, s.2 || ts.any (·.2))

/-- One C element of a float MMA (R184): groups in increasing K, each rounded, scaled and added. -/
def floatElem (flush : Bool) (c : Half) (as : List (List (Option FV))) (bs : List (List FV))
    (scA scB : Nat → Option Nat) : Half × Half :=
  ((as.zip bs).mapIdx fun g x => (g, x)).foldl (fun acc x =>
    let s := groupSum x.2.1 x.2.2
    let s1 := match scA x.1 with
      | some k => s.1.scale k
      | none => s.1
    let s2 := match scB x.1 with
      | some k => s1.scale k
      | none => s1
    let r := Fmt.f32.round .rne flush s2
    let a := Fmt.f32.add .rne flush acc.1.toNat r.1
    (BitVec.ofNat 32 a.1, acc.2 ||| flagIf s.2 fstInvalid ||| r.2 ||| a.2)) (c, 0)

/-- The sum of the products of a row and a column. -/
def intDot (as : List (Option Int)) (bs : List Int) : Int :=
  ((as.zip bs).filterMap fun x => x.1.map fun a => a * x.2).foldl (· + ·) 0

/-- One C element of an integer MMA (R185). -/
def intElem (sat : Bool) (c : Half) (as : List (Option Int)) (bs : List Int) : Half × Half :=
  let v := c.toInt + intDot as bs
  if sat then
    let x := satSigned 32 v
    (x.1, flagIf x.2 fstSat)
  else (BitVec.ofInt 32 v, 0)

/-- An exact integer at a point as a value. -/
def pointVal (v : Int) (p : Int) : FV := .fin (decide (v < 0)) v.natAbs (-p)

/-- One C element of a fixed-point MMA (R186). -/
def fixElem (wide : Bool) (qA qB qD : Nat) (c : Half) (as : List (Option Int)) (bs : List Int) : Half × Half :=
  let sum := if wide then
      ((as.zip bs).filterMap fun x => x.1.map fun a =>
        roundInt .rne (decide (a * x.2 < 0)) (a * x.2).natAbs (-16)).foldl (· + ·) 0
    else intDot as bs
  let p : Int := if wide then (qA : Int) + qB - 16 else (qA : Int) + qB
  let v := (pointVal c.toInt qD).add .rne (pointVal sum p)
  let r := fixedResult 32 qD v.1
  (BitVec.ofInt 32 r.1, r.2)

/-! ## MMA and MMAS -/

/-- What an MMA reads: formats, sparse or dense A, tiles, the scale tile and what it scales, fmt, .sat. -/
structure MmaArgs where
  aFmt   : Nat
  bFmt   : Nat
  sparse : Bool
  a      : TileData
  b      : TileData
  c      : TileData
  scale  : TileData
  scA    : Bool
  scB    : Bool
  fmt    : Half
  sat    : Bool
  deriving DecidableEq, Repr

/-- Codes of MMA's A formats (R330). -/
def MmaTy.code : MmaTy → Nat
  | .f32 => 0 | .f16 => 1 | .bf16 => 2 | .e5m2 => 3 | .e4m3 => 4 | .e3m2 => 5 | .e2m3 => 6 | .e2m1 => 7
  | .i16 => 8 | .i8 => 9 | .n8 => 10 | .i4 => 11 | .n4 => 12 | .oi4 => 13 | .fx16 => 14 | .fx32 => 15

/-- Codes of MMAS's A formats (R333). -/
def MmasTy.code : MmasTy → Nat
  | .f16 => 1 | .bf16 => 2 | .e5m2 => 3 | .e4m3 => 4 | .e3m2 => 5 | .e2m3 => 6 | .e2m1 => 7 | .i8 => 9

/-- The class of formats that pair (R330). -/
def pairClass (code : Nat) : Nat :=
  if code = 0 then 0 else if code ≤ 2 then 1 else if code ≤ 6 then 2 else if code = 7 then 3 else if code = 8 then 4
  else if code ≤ 10 then 5 else if code ≤ 12 then 6 else code

/-- Whether a block-scale mode names A or B, restricted to formats 3 to 7 (R171, R330). -/
def scalesA (bsm aFmt : Nat) : Bool := (bsm == 1 || bsm == 2) && decide (3 ≤ aFmt ∧ aFmt ≤ 7)
def scalesB (bsm bFmt : Nat) : Bool := (bsm == 1 || bsm == 3) && decide (3 ≤ bFmt ∧ bFmt ≤ 7)

/-- Whether an A format is a float one: codes 0 to 7 and 13 (R331). -/
def isFloatCode (code : Nat) : Bool := decide (code ≤ 7) || code == 13

/-- Row `i` of A as floats with absent places, and status. -/
def MmaArgs.aFloats (m : MmaArgs) (i : Nat) : List (Option FV) × Bool :=
  let r := rowFloats (fmtFlush m.fmt) m.a m.aFmt i
  if m.sparse then (spreadRow m.a i (kOf m.aFmt) fun n => r.1.getD n (.fin false 0 0), badQuads m.a i (kOf m.aFmt))
  else (r.1.map some, r.2)

/-- Row `i` of A as integers with absent places, and status. -/
def MmaArgs.aInts (m : MmaArgs) (i : Nat) : List (Option Int) × Bool :=
  let r := rowInts m.a m.aFmt i
  if m.sparse then (spreadRow m.a i (kOf m.aFmt) fun n => r.getD n 0, badQuads m.a i (kOf m.aFmt))
  else (r.map some, false)

/-- The scale of group `g` of row `i` of A, or of stored row `i` of B at `base` (R332). -/
def MmaArgs.scaleAt (m : MmaArgs) (on : Bool) (base i g : Nat) : Option Nat :=
  if on then some (tileByte m.scale (base + 8 * i + g)) else none

/-- Whether a scale in use is NaN (R171). -/
def MmaArgs.nanScale (m : MmaArgs) : Bool :=
  (List.range 32).any fun i => (List.range (kOf m.aFmt / 32)).any fun g =>
    m.scaleAt m.scA 0 i g == some 255 || m.scaleAt m.scB 256 i g == some 255

/-- The results of a matrix command: words of its tile and the status. -/
abbrev TileRes := List (Nat × Half) × Half

/-- Words with a status each gathered. -/
def gather (xs : List (Nat × Half × Half)) (st : Half) : TileRes :=
  (xs.map fun x => (x.1, x.2.1), xs.foldl (fun a x => a ||| x.2.2) st)

/-- Every element of a 32 × 32 tile from a function of row and column. -/
def allElems (f : Nat → Nat → Half × Half) : List (Nat × Half × Half) :=
  (List.range 32).flatMap fun i => (List.range 32).map fun j => (32 * i + j, f i j)

/-- The effect of a float MMA (R331). -/
def MmaArgs.floats (m : MmaArgs) : TileRes :=
  let n := kOf m.aFmt / 32
  let rows := (List.range 32).map m.aFloats
  let cols := (List.range 32).map fun j => rowFloats (fmtFlush m.fmt) m.b m.bFmt j
  let bad := (rows.any (·.2)) || (cols.any (·.2)) || m.nanScale
  gather (allElems fun i j =>
    floatElem (fmtFlush m.fmt) (m.c.num (32 * i + j)) (groups n (rows.getD i ([], false)).1)
      (groups n (cols.getD j ([], false)).1) (m.scaleAt m.scA 0 i) (m.scaleAt m.scB 256 j)) (flagIf bad fstFormat)

/-- The effect of an integer or fixed-point MMA (R331). -/
def MmaArgs.ints (m : MmaArgs) : TileRes :=
  let rows := (List.range 32).map m.aInts
  let cols := (List.range 32).map fun j => rowInts m.b m.bFmt j
  gather (allElems fun i j =>
    let a := (rows.getD i ([], false)).1
    let b := cols.getD j []
    if 14 ≤ m.aFmt then
      fixElem (m.aFmt == 15) (fmtQA m.fmt) (fmtQB m.fmt) (fmtQD m.fmt) (m.c.num (32 * i + j)) a b
    else intElem m.sat (m.c.num (32 * i + j)) a b) (flagIf (rows.any (·.2)) fstFormat)

/-- THE EFFECT OF MMA AND MMAS (R184-R186, R331, R333): the words of D and the status. -/
def MmaArgs.result (m : MmaArgs) : TileRes := if isFloatCode m.aFmt then m.floats else m.ints

/-! ## Matrix commands (R328) -/

/-- A trap with the contents of R328: the value, 0, the reason, the field (DEDUCED, log 21). -/
def IssueUnit.matTrap (u : IssueUnit) (s : State) (v reason field : Nat) : Trap :=
  u.trapAll s Code.illegalOperand (BitVec.ofNat 32 v) 0 (BitVec.ofNat 32 reason) (BitVec.ofNat 32 field)

/-- TILE_FAULT for the first handle that is not bound (R328). -/
def unboundTrap (u : IssueUnit) (s : State) (ms : List Nat) : Option Trap :=
  (ms.find? fun m => !((s.blocks.get? u.block).elim false fun b => (b.tiles.get? m).isSome)).map fun m => tileTrap u s m 3

/-- A matrix command whose result is known, in flight until it commits (DESIGN CHOICE, log 10). -/
def startMatrix (u : IssueUnit) (h : Head) (w : State) (tiles : List Nat) (r : Result) : Effect :=
  .done (u.start w h tiles none (.result (.matrix u.opcode 0) r))

/-- A result that writes one tile. -/
def tileResult (u : IssueUnit) (m : Nat) (x : TileRes) : Result := { Result.empty with tiles := [⟨u.block, m, x.1⟩], fst := x.2 }

/-- Register writes of a matrix command, in all 32 lanes of every warp of the unit (R328). -/
def matRegs (u : IssueUnit) (d : Reg) (vals : Row) : List RegWrite := u.parts.map fun p => ⟨p.uid, d, allLanes, vals⟩

/-- A vector destination of a matrix command counts as mapped from issue in every warp of the unit (R50). -/
def reserveAll (s : State) (u : IssueUnit) (d : Reg) : State :=
  u.parts.foldl (fun s p => s.mapWarp p.uid fun w => w.reserveRegs (vregs d 1)) s

/-- The checks of R331 in their order. -/
def mmaTrap (u : IssueUnit) (r : State) (aFmt : Nat) (bs : Bool) (tiles : List Nat) : Option Trap :=
  let bFmt := fmtB u.fmt
  let bsm := fmtBsm u.fmt
  let named := scalesA bsm aFmt || scalesB bsm bFmt
  match unboundTrap u r tiles with
  | some t => some t
  | none =>
    if pairClass aFmt ≠ pairClass bFmt then some (u.matTrap r bFmt 1 4)
    else if !bs && named then some (u.matTrap r bsm 2 4)
    else if bs && !named then some (u.matTrap r bsm 3 5)
    else none

/-- MMA and MMAS issue: checks, then the result of the tiles as they stand. -/
def mmaEffect (u : IssueUnit) (h : Head) (r w : State) (aFmt : Nat) (sparse : Bool) (d a b c : Tile) (sat bs : Bool) :
    Effect :=
  if u.lanes.isEmpty then .done w
  else
    let tiles := [d.val, a.val, b.val] ++ if bs then [c.val] else []
    match mmaTrap u r aFmt bs tiles with
    | some t => .trap t
    | none =>
      let t := tileOfBlock r u.block
      let m : MmaArgs :=
        { aFmt := aFmt, bFmt := fmtB u.fmt, sparse := sparse, a := t a.val, b := t b.val, c := t d.val
          scale := if bs then t c.val else [], scA := scalesA (fmtBsm u.fmt) aFmt
          scB := scalesB (fmtBsm u.fmt) (fmtB u.fmt), fmt := u.fmt, sat := sat }
      startMatrix u h w tiles (tileResult u d.val m.result)

/-- MMA (R330, R331). -/
def execMma (h : Head) (t : MmaTy) (d a b c : Tile) (sat bs : Bool) (s : State) : Host.Outcome State Fault Refusal :=
  issue (.mma h t d a b c sat bs) h (fun u r w => mmaEffect u h r w (MmaTy.code t) false d a b c sat bs) s

/-- MMAS (R333). -/
def execMmas (h : Head) (t : MmasTy) (d a b c : Tile) (sat bs : Bool) (s : State) : Host.Outcome State Fault Refusal :=
  issue (.mmas h t d a b c sat bs) h (fun u r w => mmaEffect u h r w (MmasTy.code t) true d a b c sat bs) s

/-! ## Utility commands (R334-R337) -/

/-- A utility command on bound tiles, whose result is known at issue. -/
def utility (u : IssueUnit) (h : Head) (r w : State) (tiles : List Nat) (f : Result) : Effect :=
  if u.lanes.isEmpty then .done w
  else match unboundTrap u r tiles with
    | some t => .trap t
    | none => startMatrix u h w tiles f

/-- Every word of a tile with one value. -/
def filled (x : Half) : TileRes := ((List.range 1024).map fun i => (i, x), 0)

/-- TZERO (R334). -/
def execTzero (h : Head) (d : Tile) (s : State) : Host.Outcome State Fault Refusal :=
  issue (.tzero h d) h (fun u r w => utility u h r w [d.val] (tileResult u d.val (filled 0))) s

/-- TFILL (R334). -/
def execTfill (h : Head) (d : Tile) (a : Reg) (s : State) : Host.Outcome State Fault Refusal :=
  issue (.tfill h d a) h (fun u r w => utility u h r w [d.val] (tileResult u d.val (filled (u.once r a)))) s

/-- A C-layout element as a value: F32, I32, or FX32 at qA (R335). -/
def srcVal (src : TSrc) (fmt : Half) (x : Half) : FV :=
  match src with
  | .f32 => Fmt.f32.read (fmtFlush fmt) x.toNat
  | .i32 => FV.ofInt x.toInt
  | .fx32 => pointVal x.toInt (fmtQA fmt)

/-- The range of an integer format (R168). -/
def matRange (code : Nat) : Int × Int :=
  let w := boxBits code
  if code = 10 ∨ code = 12 then (0, 2 ^ w - 1) else (-(2 ^ (w - 1)), 2 ^ (w - 1) - 1)

/-- One element converted by TCVT: its code and status (R335). -/
def tcvtElem (src : TSrc) (fmt : Half) (x : Half) : Nat × Half :=
  let code := fmtD fmt
  let v := srcVal src fmt x
  let w := boxBits code
  match Fmt.ofCode code with
  | some f => f.narrow (fmtRnd fmt) (fmtFlush fmt) (fmtSat fmt) v
  | none =>
    if 14 ≤ code then
      let r := fixedResult w (fmtQD fmt) v
      ((BitVec.ofInt w r.1).toNat, r.2)
    else
      let g := matRange code
      if src = .i32 then
        let c := clampInt g.1 g.2 x.toInt
        ((BitVec.ofInt w c.1).toNat, flagIf c.2 fstSat)
      else
        let r := toIntRange (fmtRnd fmt) g.1 g.2 v
        ((BitVec.ofInt w r.1).toNat, r.2)

/-- The words 32 elements of `w` bits make: `32 / w` elements to a word, lowest first. -/
def packElems (w : Nat) (xs : List Nat) : List Half :=
  (List.range w).map fun k =>
    BitVec.ofNat 32 (((List.range (32 / w)).map fun e => xs.getD (k * (32 / w) + e) 0 % 2 ^ w * 2 ^ (w * e)).foldl (· + ·) 0)

/-- The words of D that TCVT writes (R335): elements 32P to 32P + 31 of each row (DEDUCED, log 27). -/
def tcvtTile (src : TSrc) (fmt : Half) (p : Nat) (a : TileData) : TileRes :=
  let w := boxBits (fmtD fmt)
  let rows := (List.range 32).map fun i => (List.range 32).map fun j => tcvtElem src fmt (a.num (32 * i + j))
  ((rows.mapIdx fun i xs => (packElems w (xs.map (·.1))).mapIdx fun k x => (32 * i + p * w + k, x)).flatten,
    rows.foldl (fun acc xs => xs.foldl (fun acc x => acc ||| x.2) acc) 0)

/-- TCVT (R335). -/
def execTcvt (h : Head) (d a : Tile) (p : Fin 8) (src : TSrc) (s : State) : Host.Outcome State Fault Refusal :=
  issue (.tcvt h d a p src) h (fun u r w =>
    if u.lanes.isEmpty then .done w
    else match unboundTrap u r [d.val, a.val] with
      | some t => .trap t
      | none =>
        if fmtD u.fmt = 13 then .trap (u.matTrap r 13 2 4)
        else if 32 ≤ p.val * boxBits (fmtD u.fmt) then .trap (u.matTrap r p.val 3 5)
        else startMatrix u h w [d.val, a.val]
          (tileResult u d.val (tcvtTile src u.fmt p.val (tileOfBlock r u.block a.val)))) s

/-- The words of a tile transposed in squares of 32 × 32 elements of `w` bits (R336). -/
def transposed (w : Nat) (a : TileData) : TileRes :=
  ((List.range 32).flatMap fun i =>
    ((List.range (32 / w)).flatMap fun sq =>
      packElems w ((List.range 32).map fun j => rowField a j (w * (32 * sq + i)) w)).mapIdx fun k x => (32 * i + k, x), 0)

/-- TTRANS (R336). -/
def execTtrans (h : Head) (d a : Tile) (wd : Fin 4) (s : State) : Host.Outcome State Fault Refusal :=
  issue (.ttrans h d a wd) h (fun u r w =>
    utility u h r w [d.val, a.val] (tileResult u d.val (transposed (32 / 2 ^ wd.val) (tileOfBlock r u.block a.val)))) s

/-- One element of TADD (R337). -/
def taddElem (t : TAddTy) (fmt : Half) (a b : Half) : Half × Half :=
  match t with
  | .f32 => halfOf (Fmt.f32.add (fmtRnd fmt) (fmtFlush fmt) a.toNat b.toNat)
  | .i32 => (a + b, 0)
  | .i32sat | .fx32 =>
    let x := satSigned 32 (a.toInt + b.toInt)
    (x.1, flagIf x.2 fstSat)

/-- TADD (R337). -/
def execTadd (h : Head) (d a b : Tile) (t : TAddTy) (s : State) : Host.Outcome State Fault Refusal :=
  issue (.tadd h d a b t) h (fun u r w =>
    let x := tileOfBlock r u.block a.val
    let y := tileOfBlock r u.block b.val
    utility u h r w [d.val, a.val, b.val] (tileResult u d.val
      (gather (allElems fun i j => taddElem t u.fmt (x.num (32 * i + j)) (y.num (32 * i + j))) 0))) s

/-- One lane of TRED: the reduction of a row or column (R337). -/
def tredLane (t : TSrc) (op : RedOp) (fmt : Half) (xs : List Half) : Half × Half :=
  match t with
  | .f32 => floatTree op (fmtFlush fmt) (xs.map some)
  | .i32 => ((foldSome (redInt op false) (xs.map some)).getD 0, 0)
  | .fx32 =>
    if op = .add then
      let x := satSigned 32 ((xs.map BitVec.toInt).foldl (· + ·) 0)
      (x.1, flagIf x.2 fstSat)
    else ((foldSome (redInt op false) (xs.map some)).getD 0, 0)

/-- TRED (R337). -/
def execTred (h : Head) (d : Reg) (a : Tile) (col : Bool) (op : RedOp) (t : TSrc) (s : State) :
    Host.Outcome State Fault Refusal :=
  issue (.tred h d a col op t) h (fun u r w =>
    let x := tileOfBlock r u.block a.val
    let lane := fun i => tredLane t op u.fmt ((List.range 32).map fun j => x.num (if col then 32 * j + i else 32 * i + j))
    utility u h r (if u.lanes.isEmpty then w else reserveAll w u d) [a.val]
      { Result.empty with regs := matRegs u d (rowOfLanes fun i => (lane i).1)
                          fst := laneList.foldl (fun acc i => acc ||| (lane i).2) 0 }) s

/-- TTOV (R334). -/
def execTtov (h : Head) (d : Reg) (a : Tile) (b : Reg) (s : State) : Host.Outcome State Fault Refusal :=
  issue (.ttov h d a b) h (fun u r w =>
    let row := (u.once r b).toNat
    let x := tileOfBlock r u.block a.val
    match unboundTrap u r [a.val] with
    | some t => if u.lanes.isEmpty then .done w else .trap t
    | none =>
      if u.lanes.isEmpty then .done w
      else if 32 ≤ row then .trap (u.matTrap r row 1 2)
      else startMatrix u h (reserveAll w u d) [a.val]
        { Result.empty with regs := matRegs u d (rowOfLanes fun l => x.num (32 * row + l)) }) s

/-- VTOT (R334): all 32 lanes of the register in the lead lane's warp. -/
def execVtot (h : Head) (d : Tile) (a b : Reg) (s : State) : Host.Outcome State Fault Refusal :=
  issue (.vtot h d a b) h (fun u r w =>
    match u.lead with
    | none => .done w
    | some (x, _) =>
      let row := (u.once r b).toNat
      match unboundTrap u r [d.val] with
      | some t => .trap t
      | none =>
        if 32 ≤ row then .trap (u.matTrap r row 1 2)
        else startMatrix u h w [d.val]
          (tileResult u d.val (laneList.map fun l => (32 * row + l, u.read r x a l), 0))) s

/-! ## Completion -/

/-- The core of a command. -/
def pendCore (s : State) (q : Pend) : Nat := (s.blocks.get? q.block).elim 0 (·.core)

/-- MATRIX_COMMAND_COMPLETION (R328): the result commits, the flag counts down, the event is counted (R397). -/
def execMatrixCommandCompletion (id : Nat) (s : State) : Host.Outcome State Fault Refusal :=
  match s.pend.get? id with
  | some q => match q.work with
    | .result (.matrix _ _) r => .next (deliver (s.event (pendCore s q) (some q.block) 3 1) id q true r)
    | _ => .next s
  | none => .next s

/-- A result of which only the error stays: no destination is changed (R328). -/
def Result.failed (r : Result) (e : ErrRec) : Result :=
  ⟨r.regs.map fun x => { x with mask := 0 }, [], [], 0, some e⟩

/-- ASYNC_ERROR of a command whose error is detected a fourth time (R328). -/
def fourthError (opcode order : Nat) : ErrRec := ⟨Code.asyncError, 0, 0, 0, BitVec.ofNat 32 opcode, 0, order, none⟩

/-- MATRIX_TRANSIENT_ERROR (R25, R328, R357): the command runs again from its retained operands, up to three times. -/
def execMatrixTransientError (id : Nat) (s : State) : Host.Outcome State Fault Refusal :=
  match s.pend.get? id with
  | some q => match q.work with
    | .result (.matrix op n) r =>
      if n < 3 then .next ((setWork s id (.result (.matrix op (n + 1)) r)).countErr (Source.core (s.coreOf q.block)) q.part 6 0)
      else if n = 3 then .next (setWork s id (.result (.matrix op 4) (r.failed (fourthError op q.order))))
      else .next s
    | .tjac a b x0 _ n _ limit dead qp wd d c pd _ e =>
      let op := 0x1A3
      if e < 3 then
        .next ((setWork s id (.tjac a b x0 x0 n 0 limit dead qp wd d c pd 0 (e + 1))).countErr (Source.core (s.coreOf q.block)) q.part 6 0)
      else
        let regs := q.warps.map fun u => (⟨u.1, d, 0, []⟩ : RegWrite)
        .next (setWork s id (.result (.matrix op 4) ⟨regs, [], [], 0, some (fourthError op q.order)⟩))
    | _ => .next s
  | none => .next s

end Sys2Proof.Machine
end

