-- ==== Sys2Proof/Machine/Solver.lean ====
section
/-! DEFINITION. The tile solver: TLU, TTRS, TJAC and TUPD (R338-R343). -/

namespace Sys2Proof.Machine

/-! ## Fixed-point helpers (R338) -/

/-- A matrix of raw values, row by row. -/
abbrev Mat := List (List Int)

/-- An element of a matrix. -/
def Mat.at_ (m : Mat) (i j : Nat) : Int := (m.getD i []).getD j 0

/-- n ÷ d rounded to the nearest integer, ties to even; d is not 0. -/
def divNearest (n d : Int) : Int :=
  let a := n.natAbs
  let b := d.natAbs
  let q := a / b
  let r := a % b
  let m := if b < 2 * r ∨ (2 * r = b ∧ q % 2 = 1) then q + 1 else q
  if (n < 0) = (d < 0) then (m : Int) else -(m : Int)

/-- An integer clamped to W bits, with the given status bit when it is clamped. -/
def clampW (w : Nat) (bit : Half) (v : Int) : Int × Half :=
  let x := clampInt (-(2 ^ (w - 1) : Nat)) ((2 ^ (w - 1) : Nat) - 1) v
  (x.1, flagIf x.2 bit)

/-- quot of R338 with a numerator given in units of 2^-q of a raw value: n ÷ v to the nearest integer; a clamp sets
overflow. -/
def quotAt (w : Nat) (n v : Int) : Int × Half := clampW w fstOverflow (divNearest n v)

/-- fixed_result of R338 for a raw value given in units of 2^-q. -/
def roundAt (w q : Nat) (n : Int) : Int × Half := clampW w fstSat (divNearest n (2 ^ q : Nat))

/-- A divisor on the diagonal: a zero is replaced by one LSB, and pivot is set (R338). -/
def divisor (u : Int) : Int × Half := if u = 0 then (1, fstPivot) else (u, 0)

/-- Element (i, j) of a solver tile (R338). -/
def solverElem (t : TileData) (fx16 : Bool) (i j : Nat) : Int :=
  if fx16 then (BitVec.ofNat 16 (rowField t i (16 * j) 16)).toInt else (t.num (32 * i + j)).toInt

/-- Rows 0 to n - 1 and columns 0 to m - 1 of a solver tile. -/
def solverMat (t : TileData) (fx16 : Bool) (n m : Nat) : Mat :=
  (List.range n).map fun i => (List.range m).map fun j => solverElem t fx16 i j

/-- Element `j` of a row, or what the tile holds past the row's end. -/
def elemOr (t : TileData) (i : Nat) (xs : List Int) (j : Nat) : BitVec 16 :=
  match xs[j]? with
  | some v => BitVec.ofInt 16 v
  | none => BitVec.ofNat 16 (rowField t i (16 * j) 16)

/-- The words that hold a matrix written back into a tile; elements past its columns keep what the tile holds. -/
def solverWords (t : TileData) (fx16 : Bool) (m : Mat) : List (Nat × Half) :=
  (m.mapIdx fun i xs =>
    if fx16 then (List.range ((xs.length + 1) / 2)).map fun k =>
      (32 * i + k, pack16 (elemOr t i xs (2 * k)) (elemOr t i xs (2 * k + 1)))
    else xs.mapIdx fun j v => (32 * i + j, BitVec.ofInt 32 v)).flatten

/-- A vector operand's lanes 0 to n - 1 as raw values (R338). -/
def solverVec (u : IssueUnit) (r : State) (x : UPart) (g : Reg) (fx16 : Bool) (n : Nat) : List Int :=
  (List.range n).map fun l =>
    let v := u.read r x g l
    if fx16 then (BitVec.ofNat 16 v.toNat).toInt else v.toInt

/-- The width of solver elements. -/
def solverWidth (fx16 : Bool) : Nat := if fx16 then 16 else 32

/-! ## TLU (R339) -/

/-- The lowest row from `k` whose element in column `k` is largest in magnitude. -/
def pivotRow (m : Mat) (n k : Nat) : Nat :=
  ((List.range n).filter fun i => decide (k ≤ i)).foldl (fun p i =>
    if (m.at_ p k).natAbs < (m.at_ i k).natAbs then i else p) k

/-- Two rows of a matrix exchanged. -/
def Mat.swap (m : Mat) (i j : Nat) : Mat := (m.set i (m.getD j [])).set j (m.getD i [])

/-- What TLU holds between columns: the matrix, the pivots, the first zero column, the status. -/
structure Tlu where
  m   : Mat
  piv : List Nat
  z   : Option Nat
  st  : Half
  deriving DecidableEq, Repr

/-- A row below the pivot row eliminated (R339). -/
def eliminate (w q k : Nat) (top row : List Int) : List Int × Half :=
  let l := quotAt w (row.getD k 0 * (2 ^ q : Nat)) (top.getD k 0)
  let xs := row.mapIdx fun j v =>
    if j = k then l
    else if k < j then roundAt w q (v * (2 ^ q : Nat) - l.1 * top.getD j 0)
    else (v, 0)
  (xs.map (·.1), xs.foldl (fun a x => a ||| x.2) 0)

/-- Column `k` of TLU (R339). -/
def tluStep (w q n : Nat) (t : Tlu) (k : Nat) : Tlu :=
  let p := pivotRow t.m n k
  let m1 := t.m.swap k p
  let d := divisor (m1.at_ k k)
  let top := (m1.getD k []).set k d.1
  let rows := m1.mapIdx fun i row => if i = k then (top, 0) else if k < i then eliminate w q k top row else (row, 0)
  { m := rows.map (·.1), piv := t.piv ++ [p], z := t.z.orElse fun _ => if d.2 = 0 then none else some k
    st := rows.foldl (fun a x => a ||| x.2) (t.st ||| d.2) }

/-- TLU over all columns. -/
def tluRun (w q n : Nat) (m : Mat) : Tlu := (List.range n).foldl (tluStep w q n) ⟨m, [], none, 0⟩

/-- TLU (R339). -/
def execTlu (h : Head) (d : Tile) (a b : Reg) (n : Fin 32) (fx16 : Bool) (s : State) : Host.Outcome State Fault Refusal :=
  issue (.tlu h d a b n fx16) h (fun u r w =>
    if u.lanes.isEmpty then .done w
    else match unboundTrap u r [d.val] with
      | some t => .trap t
      | none =>
        let k := n.val + 1
        let t := tileOfBlock r u.block d.val
        let x := tluRun (solverWidth fx16) (fmtQA u.fmt) k (solverMat t fx16 k k)
        let pivots := rowOfLanes fun l => BitVec.ofNat 32 (x.piv.getD l l)
        let zero : Half := x.z.elim (BitVec.allOnes 32) fun z => BitVec.ofNat 32 z
        startMatrix u h (reserveAll w u a) [d.val]
          { Result.empty with regs := matRegs u a pivots ++ matRegs u b (rowOfLanes fun _ => zero)
                              tiles := [⟨u.block, d.val, solverWords t fx16 x.m⟩], fst := x.st }) s

/-! ## TTRS (R340) -/

/-- Σ a[i][j] × x[j] over the places a test keeps. -/
def dotWhere (row x : List Int) (p : Nat → Bool) : Int :=
  ((row.zip x).mapIdx fun j v => if p j then v.1 * v.2 else 0).foldl (· + ·) 0

/-- A column of the lower solve, rows in rising order: the solved values so far and the status. -/
def lowerColumn (w q n : Nat) (a : Mat) (col : List Int) : List Int × Half :=
  (List.range n).foldl (fun acc i =>
    let r := roundAt w q (acc.1.getD i 0 * (2 ^ q : Nat) - dotWhere (a.getD i []) acc.1 fun j => decide (j < i))
    (acc.1.set i r.1, acc.2 ||| r.2)) (col, 0)

/-- A column of the upper solve, rows in falling order. -/
def upperColumn (w q n : Nat) (a : Mat) (col : List Int) : List Int × Half :=
  ((List.range n).reverse).foldl (fun acc i =>
    let u := divisor (a.at_ i i)
    let r := quotAt w (acc.1.getD i 0 * (2 ^ q : Nat) - dotWhere (a.getD i []) acc.1 fun j => decide (i < j)) u.1
    (acc.1.set i r.1, acc.2 ||| u.2 ||| r.2)) (col, 0)

/-- A solve over the 32 columns of D: the new rows and the status. -/
def solveColumns (n : Nat) (m : Mat) (f : List Int → List Int × Half) : Mat × Half :=
  let cols := (List.range 32).map fun c => f ((List.range n).map fun i => m.at_ i c)
  ((List.range n).map fun i => cols.map fun c => c.1.getD i 0, cols.foldl (fun a c => a ||| c.2) 0)

/-- A TTRS on bound tiles. -/
def ttrsStart (u : IssueUnit) (h : Head) (r w : State) (d a : Tile) (k : Nat) (fx16 : Bool) (order : Mat → Mat)
    (f : Mat → List Int → List Int × Half) : Effect :=
  let t := tileOfBlock r u.block d.val
  let tri := solverMat (tileOfBlock r u.block a.val) fx16 k k
  let x := solveColumns k (order (solverMat t fx16 k 32)) (f tri)
  startMatrix u h w [d.val, a.val] (tileResult u d.val (solverWords t fx16 x.1, x.2))

/-- TTRS.lower (R340). -/
def execTtrsLower (h : Head) (d a : Tile) (b : Reg) (n : Fin 32) (fx16 p : Bool) (s : State) :
    Host.Outcome State Fault Refusal :=
  issue (.ttrsLower h d a b n fx16 p) h (fun u r w =>
    match u.lead with
    | none => .done w
    | some (x, _) => match unboundTrap u r [d.val, a.val] with
      | some t => .trap t
      | none =>
        let k := n.val + 1
        let piv := (List.range k).map fun l => (u.read r x b l).toNat
        match (if p then (List.range k).find? fun l => decide (k ≤ piv.getD l 0) else none) with
        | some l => .trap (u.matTrap r l 4 2)
        | none =>
          ttrsStart u h r w d a k fx16 (fun m => if p then (List.range k).foldl (fun m i => m.swap i (piv.getD i i)) m else m)
            (lowerColumn (solverWidth fx16) (fmtQA u.fmt) k)) s

/-- TTRS.upper (R340). -/
def execTtrsUpper (h : Head) (d a : Tile) (n : Fin 32) (fx16 : Bool) (s : State) : Host.Outcome State Fault Refusal :=
  issue (.ttrsUpper h d a n fx16) h (fun u r w =>
    if u.lanes.isEmpty then .done w
    else match unboundTrap u r [d.val, a.val] with
      | some t => .trap t
      | none => ttrsStart u h r w d a (n.val + 1) fx16 id (upperColumn (solverWidth fx16) (fmtQA u.fmt) (n.val + 1))) s

/-! ## TJAC (R341, R342) -/

/-- TJAC (R342): operands and deadline read at issue; the sweeps follow. -/
def execTjac (h : Head) (d : Reg) (a : Tile) (b c : Reg) (n : Fin 32) (fx16 : Bool) (pd : Pred) (s : State) :
    Host.Outcome State Fault Refusal :=
  issue (.tjac h d a b c n fx16 pd) h (fun u r w =>
    match u.lead with
    | none => .done w
    | some (x, _) => match unboundTrap u r [a.val] with
      | some t => .trap t
      | none =>
        let m := (u.once r c).toNat
        if m = 0 ∨ 65535 < m then .trap (u.matTrap r m 5 3)
        else
          let k := n.val + 1
          let x0 := solverVec u r x d fx16 k
          let dl := (r.warps.get? x.uid).elim 0 (·.dl)
          .done (u.start (reserveAll w u d) h [a.val] none
            (.tjac (solverMat (tileOfBlock r u.block a.val) fx16 k k) (solverVec u r x b fx16 k) x0 x0 k 0 m dl
              (fmtQA u.fmt) (solverWidth fx16) d c pd 0 0))) s

/-- One Jacobi sweep from the old x (R342). -/
def sweep (w q : Nat) (a : Mat) (b x : List Int) : List Int × Half :=
  let rs := a.mapIdx fun i row =>
    let u := divisor (row.getD i 0)
    let r := quotAt w (b.getD i 0 * (2 ^ q : Nat) - dotWhere row x fun j => j != i) u.1
    (r.1, u.2 ||| r.2)
  (rs.map (·.1), rs.foldl (fun acc r => acc ||| r.2) 0)

/-- Whether the deadline of a TJAC has passed (R341, R342). -/
def deadlinePassed (s : State) (t : Half) : Bool := t != 0 && decide ((s.tscLo - t).toNat < 2 ^ 31)

/-- Whether a partition halt is requested (R354). -/
def haltRequested (s : State) (part : Nat) : Bool := (s.parts.get? part).elim false fun p => p.halt != .running

/-- What a TJAC leaves: x in the lanes of the system, the sweeps done, and whether the limit was reached (R342). -/
def tjacResult (q : Pend) (x : List Int) (n done limit : Nat) (d c : Reg) (pd : Pred) (st : Half) : Result :=
  let mask := lanesWhere fun l => decide (l < n)
  let vals := rowOfLanes fun l => BitVec.ofInt 32 (x.getD l 0)
  ⟨q.warps.flatMap fun u => [⟨u.1, d, mask, vals⟩, ⟨u.1, Reg.plus c 1, allLanes, rowOfLanes fun _ => BitVec.ofNat 32 done⟩],
    q.warps.map fun u => ⟨u.1, pd, allLanes, if done = limit then allLanes else 0⟩, [], st, none⟩

/-- TJAC_SWEEP_END (R342): one sweep finishes; the last one completes the command. -/
def execTjacSweepEnd (id : Nat) (s : State) : Host.Outcome State Fault Refusal :=
  match s.pend.get? id with
  | some q => match q.work with
    | .tjac a b x0 x n done limit dead qp wd d c pd st e =>
      let y := sweep wd qp a b x
      let k := done + 1
      if k = limit ∨ deadlinePassed s dead ∨ haltRequested s q.part then
        .next (deliver (s.event (pendCore s q) (some q.block) 3 1) id q true
          (tjacResult q y.1 n k limit d c pd (st ||| y.2)))
      else .next (setWork s id (.tjac a b x0 y.1 n k limit dead qp wd d c pd (st ||| y.2) e))
    | _ => .next s
  | none => .next s

/-! ## TUPD (R343) -/

/-- An entry of TUPD's list. -/
structure UpdEntry where
  row : Nat
  col : Nat
  val : Half
  ok  : Bool
  deriving DecidableEq, Repr

/-- The entry 8 bytes hold. -/
def UpdEntry.ofBytes (bs : List Byte) : UpdEntry where
  val := BitVec.ofNat 32 (fieldOf bs 0 4)
  row := fieldOf bs 4 1
  col := fieldOf bs 5 1
  ok := decide (fieldOf bs 4 1 < 32 ∧ fieldOf bs 5 1 < 32 ∧ fieldOf bs 6 2 = 0)

/-- An entry applied to a tile (R343). -/
def applyEntry (fx16 : Bool) (t : TileData) (e : UpdEntry) : TileData :=
  if fx16 then
    let k := 32 * e.row + e.col / 2
    let old := t.num k
    let v := BitVec.ofNat 16 e.val.toNat
    t.setNum k (if e.col % 2 = 0 then pack16 v (elem16 old 1) else pack16 (elem16 old 0) v)
  else t.setNum (32 * e.row + e.col) e.val

/-- Entries applied in list order up to the first bad one: the tile, the words touched, the index of the bad one. -/
def applyEntries (fx16 : Bool) : TileData → Nat → List UpdEntry → TileData × List Nat × Option Nat
  | t, _, [] => (t, [], none)
  | t, i, e :: rest =>
    if !e.ok then (t, [], some i)
    else
      let x := applyEntries fx16 (applyEntry fx16 t e) (i + 1) rest
      (x.1, (32 * e.row + if fx16 then e.col / 2 else e.col) :: x.2.1, x.2.2)

/-- The checks of R343 at issue (DEDUCED, log 21). -/
def tupdTrap (u : IssueUnit) (r : State) (off e : Half) : Option Trap :=
  let size := (r.blocks.get? u.block).elim 0 (·.scratchSize)
  let lead := BitVec.ofNat 32 (u.lead.elim 0 fun x => x.1.lane x.2)
  firstOf [trapIf (decide (1024 < e.toNat)) (u.matTrap r e.toNat 6 2),
    trapIf (off.toNat % 8 != 0) (u.trapAll r Code.misaligned off 0 lead 1),
    trapIf (decide (size < off.toNat + 8 * e.toNat)) (u.trapAll r Code.poolFault off 0 lead 1)]

/-- TUPD (R343): its list is read once the accesses before it have been performed (R113). -/
def execTupd (h : Head) (d : Tile) (a b : Reg) (fx16 : Bool) (s : State) : Host.Outcome State Fault Refusal :=
  issue (.tupd h d a b fx16) h (fun u r w =>
    if u.lanes.isEmpty then .done w
    else
      let off := u.once r a
      let e := u.once r b
      match firstOf [unboundTrap u r [d.val], tupdTrap u r off e] with
      | some t => .trap t
      | none =>
        if accessesPending r u then .wait r u.stallAccesses else
        let bs := (r.blocks.get? u.block).elim [] fun x => x.bytes off.toNat (8 * e.toNat)
        let es := (List.range e.toNat).map fun i => UpdEntry.ofBytes ((bs.drop (8 * i)).take 8)
        let x := applyEntries fx16 (tileOfBlock r u.block d.val) 0 es
        let err := x.2.2.map fun i =>
          (⟨Code.asyncError, BitVec.ofNat 32 i, 0, 3, BitVec.ofNat 32 u.opcode, 0, w.seq, none⟩ : ErrRec)
        startMatrix u h w [d.val]
          { Result.empty with tiles := [⟨u.block, d.val, x.2.1.dedup.map fun k => (k, x.1.num k)⟩], err := err }) s

end Sys2Proof.Machine
end

