-- ==== Sys2Proof/Machine/Place.lean ====
section
/-! DEFINITION. Placement of blocks and gangs (R55, R134, R146, R161), retirement (R363), and the packer (R147, R162). -/

namespace Sys2Proof.Machine

/-! ## Admission (R55) -/

/-- The largest of some numbers. -/
def largest (xs : List Nat) : Nat := xs.foldl Nat.max 0

/-- The banks each role needs so that a block and every resident block fit (R40, R55). -/
structure Need where
  reg : Nat
  scr : Nat
  cch : Nat
  mat : Nat
  deriving DecidableEq, Repr

/-- The need of R55 on a core. -/
def needOf (s : State) (core : Nat) (a : Ask) : Need :=
  let floors := a.floor :: coreFloors s core
  { reg := largest (8 :: ceilDiv (coreReserved s core + a.peak * a.warps) 512 :: floors.map poolReg)
    scr := largest (ceilDiv (coreScratch s core + ceilDiv a.scratch 128) 512 :: floors.map poolScr)
    cch := largest (floors.map poolCch)
    mat := largest ((coreBanks s core).length :: ceilDiv (coreSlots s core + coreSlotsLeft s core + a.tiles) 16
      :: floors.map poolMat) }

/-- Banks of a role that hold nothing and that its own need spares. -/
def spare (banks need used : Nat) : Nat := Nat.min (banks - need) (banks - used)

/-- The split admission makes: each lacking role receives what it lacks, from the cache role, then from empty banks of the
matrix, scratch and register roles (R55); `none` where that does not suffice. Which banks hold register rows is not stated: they
are taken as packed into whole banks (DESIGN CHOICE, log 13). -/
def adjust (s : State) (core : Nat) (n : Need) : Option Half :=
  let c := s.core core
  let lack := (n.reg - c.reg) + (n.scr - c.scr) + (n.cch - c.cch) + (n.mat - c.mat)
  let g1 := Nat.min lack (c.cch - n.cch)
  let g2 := Nat.min (lack - g1) (spare c.mat n.mat (coreBanks s core).length)
  let g3 := Nat.min (lack - g1 - g2) (spare c.scr n.scr (coreRowBanks s core))
  let g4 := Nat.min (lack - g1 - g2 - g3) (spare c.reg n.reg (ceilDiv (coreMapped s core) 512))
  if g1 + g2 + g3 + g4 < lack then none
  else some (BitVec.ofNat 32 ((Nat.max c.mat n.mat - g2) * 2 ^ 24 + (Nat.max c.cch n.cch - g1) * 2 ^ 16
    + (Nat.max c.scr n.scr - g3) * 2 ^ 8 + (Nat.max c.reg n.reg - g4)))

/-- The warp slots of a core that are free, rising (R132; DESIGN CHOICE, log 13). -/
def freeSlots (s : State) (core : Nat) : List Nat :=
  let used := (s.warps.filter fun w => w.2.core == core).map fun w => w.2.slot
  (List.range 64).filter fun n => !used.contains n

/-- Whether the split in force holds a block beside the resident ones. -/
def fitsNow (s : State) (core : Nat) (a : Ask) : Bool :=
  let c := s.core core
  let n := needOf s core a
  decide (a.warps ≤ (freeSlots s core).length) && decide (n.reg ≤ c.reg ∧ n.scr ≤ c.scr ∧ n.cch ≤ c.cch ∧ n.mat ≤ c.mat)

/-- The pool word of the split in force. -/
def Core.word (c : Core) : Half := BitVec.ofNat 32 (c.mat * 2 ^ 24 + c.cch * 2 ^ 16 + c.scr * 2 ^ 8 + c.reg)

/-- Whether R55 admits a block on a core: with the split it needs, the one in force where that fits. -/
def admits (s : State) (core : Nat) (a : Ask) : Option Half :=
  if (s.core core).change.isSome || (s.core core).held.isSome then none
  else if (freeSlots s core).length < a.warps then none
  else if fitsNow s core a then some (s.core core).word
  else adjust s core (needOf s core a)

/-! ## Starting a block (R134, R146) -/

/-- The trap registers of a warp at its start (R347). -/
def TrapRegs.start : TrapRegs := ⟨0, 0, 0xF000, 0, 0, [0, 0, 0, 0], [0, 0, 0, 0]⟩

/-- The split a warp starts with. -/
def Split.start (entry : Word) (mask : Lanes) : Split where
  pc := entry
  idx := 0
  header := 0
  mask := mask
  fmt := 0
  fst := 0
  divs := []
  wait := .none
  saved := none
  replay := none
  origins := []
  stopped := false
  unchosen := 0
  yields := none

/-- The s registers a warp starts with: the argument words in s0-s15 (R134). -/
def startRegs (args : List Half) : Tab Half :=
  ((args.mapIdx fun i x => (i, x)).foldl (fun t x => Tab.setNum t x.1 x.2) ([] : Tab Half))

/-- A warp at its start (R134). -/
def Warp.start (k : Kernel) (core slot block wid clk : Nat) (entry : Word) (mask : Lanes) : Warp where
  core := core
  slot := slot
  block := block
  wid := wid
  startClk := clk
  lanes := mask
  vregs := []
  pending := []
  sregs := startRegs k.args
  preds := []
  bnd := List.replicate 32 0
  kw := BitVec.allOnes 32
  flags := []
  splits := [(0, Split.start entry mask)]
  stack := []
  trapRegs := TrapRegs.start
  dl := 0
  prio := k.prio
  tsHi := 0
  setId := none
  pair := none
  packed := false
  suspended := false

/-- A block at its start on a core with some scratch banks: scratch zero, its rows round-robin over the banks, no tile bound
(R45, R311). -/
def Block.start (k : Kernel) (scr kid core bid gid rank warps : Nat) (gang : List Nat) : Block where
  kernel := kid
  core := core
  bid := bid
  gid := gid
  gang := gang
  rank := rank
  warps := warps
  scratchSize := k.scratch
  scratch := []
  tiles := []
  banks := []
  rowBanks := Nat.min (ceilDiv k.scratch 128) scr
  queues := []
  windows := []
  holds := []
  handles := []
  sets := []

/-- A warp added under a new number. -/
def addWarp (s : State) (w : Warp) : State := { s with warps := s.warps.put s.seq w, seq := s.seq + 1 }

/-- A block entered on its core with its warps; the fetch cache of the core is invalidated (R67). -/
def enterBlock (s : State) (kid id : Nat) (k : Kernel) (b : Block) : State :=
  let slots := freeSlots s b.core
  let s1 := { s with blocks := s.blocks.put id b }.mapCore b.core fun c => { c with fcache := [] }
  (List.range b.warps).foldl (fun s i =>
    addWarp s (Warp.start k b.core (slots.getD i 0) id i s.clk k.entry allLanes)) s1
    |>.mapKernel kid fun k => { k with liveBlocks := k.liveBlocks ++ [id], state := .running, started := k.started + 1,
                                       nextBid := k.nextBid + 1 }

/-- The slot's status once its kernel's first block is placed (R156). -/
def noteRunning (s : State) (k : Kernel) : State :=
  match k.slot with
  | some i => if k.started = 0 then slotStatus s k.part i k.tag 0 2 else s
  | none => s

/-- The next block or gang of a kernel placed on cores, all at once (R146, R161, R362). -/
def placeOn (s : State) (kid : Nat) (k : Kernel) (cores : List Nat) : State :=
  let ids := (List.range cores.length).map fun i => s.seq + i
  let s1 := { noteRunning s k with seq := s.seq + cores.length }
  (cores.mapIdx fun i c => (i, c)).foldl (fun s x =>
    enterBlock s kid (ids.getD x.1 0) k
      (Block.start k (s.core x.2).scr kid x.2 (k.nthBlock (k.nextBid + x.1)) x.1 (k.nextBid + x.1) k.warps ids)) s1

/-! ## The packer's queue (R147, R162) -/

/-- Records a core may pack, in queue order: its own, or any of the partition's when it has none (R162). -/
def packQueue (s : State) (p : Partition) (core : Nat) : List SpawnRec :=
  let own := (s.core core).front ++ p.hod.filter fun r => r.core == core
  if own.isEmpty then p.hod else own

/-- Whether two records may share a warp (R147). -/
def SpawnRec.compatible (a b : SpawnRec) : Bool := a.entry == b.entry && a.kernel == b.kernel && a.kw == b.kw

/-- Whether a record's child may start: every access its lane's warp made before the SPAWN has been performed (R119). -/
def SpawnRec.released (s : State) (r : SpawnRec) : Bool := !accessesBefore s [r.warp] true r.order

/-- The records packed next on a core, where a test admits their warp: the oldest, with the compatible ones after it up to the
first whose child may not start yet, so that none is passed over (R119, R147, R162). -/
def packGroup (s : State) (p : Partition) (core : Nat) (fits : Ask → Bool) : List SpawnRec :=
  let q := packQueue s p core
  match q.head? with
  | none => []
  | some r => match s.kernels.get? r.kernel with
    | none => []
    | some k =>
      if fits k.packAsk then ((q.filter r.compatible).takeWhile fun x => x.released s).take 32 else []

/-- Whether R55 admits a block on a core. -/
def admitted (s : State) (core : Nat) (a : Ask) : Bool := (admits s core a).isSome

/-! ## Choosing cores (R23, R69, R161) -/

/-- The base stack that holds the frame of a kernel's affinity address, where it translates to one (R57, R69). -/
def affinityStack (s : State) (k : Kernel) : Option Nat :=
  if k.affinity = 0 ∨ inAperture k.affinity ∨ 2 ^ 56 ≤ k.affinity.toNat then none
  else match walk s k.part k.asid k.affinity with
    | none => none
    | some w =>
      let t := leafType w.leaf
      if t == 0 || t == 4 || (t == 2 && ebit w.leaf 20) then
        (s.parts.get? k.part).map fun p => p.stackOf (leafPa w.leaf w.level k.affinity)
      else none

/-- The groups of cores that can take the next block or gang of a kernel: single cores, or cores of one course. A core
whose packer has a warp to place is left to it (R162). -/
def placements (s : State) (p : Partition) (k : Kernel) : List (List Nat) :=
  let ok := p.coreList.filter fun c => admitted s c k.ask && (packGroup s p c (admitted s c)).isEmpty
  if k.gblk = 0 then ok.map fun c => [c]
  else ((p.coreList.map fun c => c / 8).dedup.map fun q => (ok.filter fun c => c / 8 == q).take (k.gblk + 1)).filter
    fun g => g.length == k.gblk + 1

/-- The placement made: on the preferred base stack where one fits there, by the device's choice among equals
(DESIGN CHOICE, log 13). -/
def choosePlacement (s : State) (p : Partition) (k : Kernel) : Option (List Nat) :=
  let all := placements s p k
  let near := match affinityStack s k with
    | some st => all.filter fun g => g.all fun c => dieOf c == st
    | none => []
  let from_ := if near.isEmpty then all else near
  from_[Config.choice s.draws from_.length % Nat.max 1 from_.length]?

/-- Whether a kernel is ready and has a block to place (R160, R161). -/
def Kernel.ready (s : State) (k : Kernel) : Bool :=
  !k.aborted && decide (k.nextBid < k.blocks) && k.prereq.all fun p => completed s p

/-- The order of ready kernels: priority, depth, acceptance (R161). -/
def Kernel.ahead (a b : Kernel) : Bool :=
  decide (b.prio < a.prio) || (a.prio == b.prio && (decide (b.depth < a.depth)
    || (a.depth == b.depth && decide (a.order ≤ b.order))))

/-- The first ready kernel of a partition. -/
def firstReady (s : State) (part : Nat) : Option (Nat × Kernel) :=
  ((s.kernels.filter fun k => k.2.part == part && k.2.ready s).insertionSort fun a b => a.2.ahead b.2 = true).head?

/-- The cores held for a placement in progress, each with its kernel. -/
def heldCores (s : State) (p : Partition) : List (Nat × Nat) :=
  p.coreList.filterMap fun c => match (s.core c).held with
    | some (k, false) => some (c, k)
    | _ => none

/-- Whether a core's admission runs. -/
def Core.admitting (c : Core) : Bool := c.change.elim false (·.admits)

/-- An admission started on cores (R55): the block belongs to them from here on; a core whose split fits is only held, the others
change, and one whose change has nothing to drain commits at once. -/
def startAdmission (s : State) (kid : Nat) (packs : Bool) (a : Ask) (cores : List Nat) : State :=
  cores.foldl (fun s c =>
    let word := (admits s c a).getD (s.core c).word
    let s1 := s.mapCore c fun x => { x with held := some (kid, packs) }
    if word = (s.core c).word then s1
    else enterPhase (s1.mapCore c fun x => { x with change := some ⟨1, true, word, kid, 0⟩ }) c 1) s

/-- Held cores released. -/
def releaseHeld (s : State) (cores : List Nat) : State :=
  cores.foldl (fun s c => s.mapCore c fun c => { c with held := none }) s

/-- A placement started for the first ready kernel: at once where every split fits, else through an admission. -/
def startPlacement (s : State) (p : Partition) (kid : Nat) (k : Kernel) : State :=
  match choosePlacement s p k with
  | none => s
  | some cores =>
    let s1 := s.draw
    if cores.all fun c => fitsNow s c k.ask then placeOn s1 kid k cores
    else startAdmission s1 kid false k.ask cores

/-- The end of an admission: the block or gang starts where its kernel still wants it and every core holds it. -/
def finishPlacement (s : State) (hs : List (Nat × Nat)) : State :=
  let s1 := releaseHeld s (hs.map (·.1))
  let kid := (hs.head?).elim 0 (·.2)
  match s1.kernels.get? kid with
  | some k =>
    if k.ready s1 && hs.length == k.gblk + 1 && hs.all (fun h => fitsNow s1 h.1 k.ask) then placeOn s1 kid k (hs.map (·.1))
    else s1
  | none => s1

/-- BLOCK_PLACEMENT (R161): one placement of a partition. -/
def execBlockPlacement (part : Nat) (s : State) : Host.Outcome State Fault Refusal :=
  match s.parts.get? part with
  | none => .next s
  | some p =>
    if p.halt ≠ .running then .next s
    else match heldCores s p with
      | [] => match firstReady s part with
        | some (kid, k) => .next (startPlacement s p kid k)
        | none => .next s
      | hs => .next (if hs.any fun h => (s.core h.1).admitting then s else finishPlacement s hs)

/-- BLOCK_RETIRE (R363): the lowest-ranked block that has ended and not retired retires, but not in a swapped partition (R355). -/
def execBlockRetire (kernel : Nat) (s : State) : Host.Outcome State Fault Refusal :=
  match s.kernels.get? kernel with
  | some k =>
    if k.det && k.ended.contains k.retired && partRuns s k.part then
      .next (settle (s.mapKernel kernel fun k => { k with retired := k.retired + 1 }))
    else .next s
  | none => .next s

/-! ## The packer (R147, R162) -/

/-- A packed warp: record i is lane i, with its arguments in v0 on, bnd and kw (R147). -/
def packWarp (k : Kernel) (core slot block clk : Nat) (rs : List SpawnRec) : Warp :=
  let mask := lanesWhere fun l => decide (l < rs.length)
  let rec_ : Nat → SpawnRec := fun l => (rs[l]?).getD ⟨0, 0, 0, 0, [], 0, 0, 0, 0⟩
  let n := largest (rs.map fun r => r.args.length)
  let w := Warp.start k core slot block 0 clk (rec_ 0).entry mask
  let w1 := (List.range n).foldl (fun w j => w.setV j mask fun l => (rec_ l).args.getD j 0) w
  { w1 with kw := (rec_ 0).kw, bnd := rowOfLanes fun l => (rec_ l).bnd, packed := true }

/-- Records that have been packed leave their queues. -/
def takeRecords (s : State) (part core : Nat) (rs : List SpawnRec) : State :=
  (s.mapCore core fun c => { c with front := c.front.filter fun r => !rs.contains r }).mapPart part fun p =>
    { p with hod := p.hod.filter fun r => !rs.contains r }

/-- The warp of some records started on a core as a block of its own. -/
def startPacked (s : State) (part core : Nat) (k : Kernel) (rs : List SpawnRec) : State :=
  let kid := (rs.head?).elim 0 (·.kernel)
  let id := s.seq
  let slot := (freeSlots s core).headD 0
  let b := Block.start k (s.core core).scr kid core 0 0 k.blocks 1 [id]
  let s1 := takeRecords { s with blocks := s.blocks.put id b, seq := s.seq + 1 } part core rs
  let s2 := (s1.mapCore core fun c => { c with fcache := [] }).mapKernel kid fun k =>
    { k with liveBlocks := k.liveBlocks ++ [id] }
  addWarp s2 (packWarp k core slot id s.clk rs)

/-- Whether a core's packer may act: it holds the core and its admission has committed, or nothing holds or changes the core. -/
def packReady (c : Core) : Bool :=
  match c.held with
  | some (_, packs) => packs && !c.admitting
  | none => c.change.isNone

/-- PACK_WARP (R147): up to 32 compatible records become a warp of a core, once R55 admits it. -/
def execPackWarp (core : Nat) (s : State) : Host.Outcome State Fault Refusal :=
  match partOfCore s core with
  | none => .next s
  | some (part, p) =>
    if p.halt ≠ .running then .next s
    else
      if !packReady (s.core core) then .next s
      else
        let s1 := releaseHeld s [core]
        let rs := packGroup s1 p core fun a => fitsNow s1 core a || admitted s1 core a
        match (rs.head?).bind fun r => s1.kernels.get? r.kernel with
        | none => .next s1
        | some k =>
          if fitsNow s1 core k.packAsk then .next (startPacked s1 part core k rs)
          else .next (startAdmission s1 ((rs.head?).elim 0 (·.kernel)) true k.packAsk [core])

end Sys2Proof.Machine
end

