-- ==== Sys2Proof/Machine/Events.lean ====
section
/-! DEFINITION. Readiness of splits (R167), the fetch of a clause header (R136, R191-R195, R200), ageing, pre-emption
(R196, R354), and what the device does on its own to pages, lines and errors (R25, R68, R89, R357). -/

namespace Sys2Proof.Machine

/-! ## Readiness -/

/-- The records a header's wait would trap: waited flags that are set and hold one (R200). -/
def waitedRecords (w : Warp) (m : BitVec 12) : List (Nat × ErrRec) :=
  (List.range 12).filterMap fun n =>
    if m.getLsbD n && (w.flag n).count == 0 then (w.flag n).err.map fun e => (n, e) else none

/-- Whether what keeps an instruction from issuing is over (R167). -/
def Stall.over (s : State) : Stall → Bool
  | .accesses ws all => !accessesBefore s ws all s.seq
  | .flagFull ws n => !Machine.flagFull s ws n
  | .flags ws => ws.all fun u => (s.warps.get? u).elim true fun w => w.flagsSet (BitVec.allOnes 12)
  | .births part r t n => (s.region? part r).elim true fun g => !(g.reserved.any fun x => decide (t ≤ x.1 ∧ x.1 < t + n))
  | .lines ws => ws.all (Want.met s)
  | .token k b => match s.kernels.get? k, s.blocks.get? b with
    | some x, some y => y.rank == x.tokenRank
    | _, _ => true
  | .engines b => !engineBusy s b
  | .tile b m => !tileBusy s b m
  | .window b n => ((s.blocks.get? b).bind fun x => x.windows.get? n).isNone
  | .queue b q => !queueBusy s b q
  | .slot b q full => (queueOf s b q).elim true fun x => if full then x.full != 0 else x.free != 0
  | .incumbent ws core k all => !incumbentBusy s ws core k all
  | .span part => !spanFull s part

/-- Whether what a split waits for has come about. -/
def waitOver (s : State) (uid : Nat) (w : Warp) (p : Split) : Bool :=
  match p.wait with
  | .none => true
  | .flags => w.flagsSet (Header.of p.header).wait
      || (p.saved.isNone && !(waitedRecords w (Header.of p.header).wait).isEmpty)
  | .reconv _ => false
  | .rendezvous sc => unitArrived (unitWarps s uid w sc) sc p.at_
  | .stall c => c.over s
  | .lwait ls => ls.all fun x => x.got.isSome
  | .abwait off gen b met => met || (s.blockOf w).elim true fun x => (x.abar off).meets gen b
  | .kinit k n => !copiesBehind s (s.partOf w) k n
  | .command id => (s.pend.get? id).isNone
  | .xpair role => role.isSome
  | .trapped => false

/-- Whether the split's scheduler may move it: it is neither suspended nor stopped, and its partition runs. -/
def splitMoves (s : State) (w : Warp) (p : Split) : Bool := !w.suspended && !p.stopped && partRuns s (s.partOf w)

/-- Whether a split is ready (R167): its header has been fetched, and what it waits for has come about. Of a word that has not been
tried the operands are not known; a try that finds them missing uses no clk and clears what was counted (DEDUCED, log 23). -/
def splitReady (s : State) (uid : Nat) (w : Warp) (p : Split) : Bool :=
  splitMoves s w p && p.yields.getD 0 == 0 && (p.idx != 0 || p.wait == .flags) && waitOver s uid w p

/-- Whether a split is at a header that is to be fetched, or whose wait is over. -/
def headerReady (s : State) (uid : Nat) (w : Warp) (p : Split) : Bool :=
  splitMoves s w p && p.idx == 0 && (p.wait == .none || (p.wait == .flags && waitOver s uid w p))

/-! ## The clause header -/

/-- Whether two splits of a warp stand at the same clause header, so that they merge before it issues (R136;
DEDUCED, log 22). -/
def Split.coincides (p q : Split) : Bool :=
  q.pc == p.pc && q.idx == 0 && !q.stopped && q.saved == p.saved && match q.wait with
    | .none | .flags | .reconv _ => true
    | _ => false

/-- The newest recorded divergence whose reconvergence PC is an address (R195). -/
def Split.reconvAt (p : Split) (pc : Word) : Option Div := p.divs.find? fun d => d.rpc == some pc

/-- The trap of a flag's record at a header (R200). -/
def recordTrap (s : State) (uid n : Nat) (e : ErrRec) (pc : Word) : Trap :=
  ⟨e.code, e.info0, e.info1, e.info2, e.info3, e.wid.getD (s.widOf uid), e.mask, n, true, pc⟩

/-- The part of a trap that one split takes alone. -/
def soloPart (uid i : Nat) (p : Split) : UPart := ⟨uid, i, p.mask, p.mask, 0⟩

/-- A header's wait: records trap in order at user level, unset flags are waited for, and else the first word of the
clause comes next (R192, R200; DEDUCED, log 23). -/
def headerWait (s : State) (uid i : Nat) (w : Warp) (p : Split) (header : Word) : State :=
  let m := (Header.of header).wait
  let recs := if p.saved.isSome then [] else waitedRecords w m
  match earliest (recs.map fun x => (0, x.1, x.2)) with
  | some (_, n, e) => takeTrap (clearRecord s uid n) [soloPart uid i p] .lane (recordTrap s uid n e p.pc)
  | none =>
    if w.flagsSet m then
      s.mapSplit uid i fun q => { q with header := header, idx := 1, wait := .none, origins := [] }
    else s.mapSplit uid i fun q => { q with header := header, wait := .flags }

/-- The second page a clause touches, if it crosses into one: its first address (R190). -/
def secondPage (pc : Word) (h : Header) : Option Word :=
  let last := pc.toNat + 8 * h.count
  if last / 65536 = pc.toNat / 65536 then none else some (BitVec.ofNat 64 (last / 65536 * 65536))

/-- The check of R190 that a clause's second page may be executed: the cause and the address. -/
def pageCheck (s : State) (w : Warp) (pc : Word) (h : Header) : Option (Nat × Word) :=
  match secondPage pc h with
  | none => none
  | some va => match resolve s (s.partOf w) (s.asidOf w) w.block va 8 .fetch with
    | .ok _ => none
    | .error c => some (c, va)

/-- A fetched header checked (R191) with the pages of its clause (R190, R192), and waited at when it is a recorded
reconvergence point (R195). -/
def headerArrive (s : State) (uid i : Nat) (w : Warp) (p : Split) (header : Word) : State :=
  let h := Header.of header
  if !h.legal then takeWordTrap s uid i w p Code.illegalClause (lo32 header) (hi32 header) 0 0
  else match pageCheck s w p.pc h with
  | some (c, va) => takeTrap s [soloPart uid i p] .lane { fetchTrap c va w p with tpc := p.pc }
  | none => match (if h.reconv then p.reconvAt p.pc else none) with
    | some d => afterWait (s.mapSplit uid i fun q => { q with wait := .reconv d.id }) w.block
    | none => headerWait s uid i w p header

/-- CLAUSE_HEADER_FETCH for a split at a header. -/
def headerFetch (s : State) (uid i : Nat) (w : Warp) (p : Split) : State :=
  if p.wait = .flags then headerWait s uid i w p p.header
  else match fetchWord s (s.partOf w) (s.asidOf w) w.block p.pc with
    | .error c => takeTrap s [soloPart uid i p] .lane (fetchTrap c p.pc w p)
    | .ok (s1, header) => match s1.warps.get? uid with
      | some w1 => headerArrive s1 uid i w1 p header
      | none => s1

/-- Whether a split has a header to fetch or to wait at. -/
def Split.atHeader (p : Split) : Bool := p.idx == 0 && !p.stopped && (p.wait == .none || p.wait == .flags)

/-- CLAUSE_HEADER_FETCH (R136, R192, R195, R200): coinciding splits merge, then the header is fetched and obeyed. -/
def execClauseHeaderFetch (s : State) : Host.Outcome State Fault Refusal :=
  match s.warps.get? s.act.1 with
  | none => .next s
  | some w => match w.splits.get? s.act.2 with
    | none => .next s
    | some p =>
      if w.suspended || !p.atHeader then .next s
      else
        let s1 := s.setWarp s.act.1 (w.mergeAll s.act.2 p.coincides)
        match (s1.warps.get? s.act.1).bind fun x => (x.splits.get? s.act.2).map fun q => (x, q) with
        | some (x, q) => .next (headerFetch s1 s.act.1 s.act.2 x q)
        | none => .next s1

/-! ## Ageing and pre-emption -/

/-- The scheduler of a warp: core and slot mod 4 (R167). -/
def Warp.port (w : Warp) : Nat := 4 * w.core + w.slot % 4

/-- SPLIT_AGED (R137, R167): a split that has been ready and unchosen for 256 clk has its scheduler choose next; the
choice prefers it. -/
def execSplitAged (warp idx : Nat) (s : State) : Host.Outcome State Fault Refusal :=
  match (s.warps.get? warp).bind fun w => (w.splits.get? idx).map fun p => (w, p) with
  | some (w, p) =>
    if splitReady s warp w p && decide (256 ≤ p.unchosen) then .next { s with agenda := s.agenda ++ [.port w.port] }
    else .next s
  | none => .next s

/-- Whether a wait is a safe condition (R144, R196, R355). -/
def Wait.safe : Wait → Bool
  | .rendezvous _ | .reconv _ | .lwait _ | .abwait _ _ _ _ | .xpair _ | .kinit _ _ | .trapped => true
  | .stall (.token _ _) | .stall (.slot _ _ _) => true
  | _ => false

/-- Whether a split may be pre-empted: after a clause that is a safe point, before the next header is fetched, or in a
safe wait (R196). -/
def Split.atSafePoint (p : Split) : Bool :=
  p.wait.safe || (p.idx == 0 && p.wait == .none && (Header.of p.header).safe)

/-- WARP_PREEMPT (R91, R354, R358): splits at a safe point of a warp whose partition halts stop, all of a suspended warp at once, and
the warp's last-page registers are cleared. -/
def execWarpPreempt (warp : Nat) (s : State) : Host.Outcome State Fault Refusal :=
  match s.warps.get? warp with
  | none => .next s
  | some w =>
    if (s.parts.get? (s.partOf w)).elim false fun p => p.halt == .halting then
      .next ((dropPages s warp).setWarp warp { w with splits := w.splits.mapV fun _ p =>
        if w.suspended || p.atSafePoint then { p with stopped := true } else p })
    else .next s

/-! ## Walks and migration -/

/-- Whether a leaf may be cached for an access: it permits it, and is not of a discarded page that the access writes (R89, R90). -/
def cacheable (e : Word) (acc : Acc) : Bool := permitted e acc && !(acc.writes && ebit e 18)

/-- A translation the walker makes for accesses of some kinds and caches, whose accessed bit waits for the first access through it;
a refusal, a non-resident page, and a leaf that serves none of the accesses are not cached (R85, R89, R90, R94). -/
def cacheWalk (s : State) (part asid : Nat) (va : Word) (accs : List Acc) : State :=
  match walk s part asid va with
  | none => s
  | some w =>
    let s1 := walkTouch s part asid va
    if (leafType w.leaf == 2 && !ebit w.leaf 20) || !accs.any (cacheable w.leaf) then s1
    else s1.mapPart part fun p => { p with tlb := p.tlb.put (tlbKey asid va) ⟨w.leaf, w.level⟩ }

/-- PAGE_WALK (R85, R89, R90, R94): the walker caches a translation for a load, a store or a fetch to come. -/
def execPageWalk (part asid : Nat) (va : Word) (s : State) : Host.Outcome State Fault Refusal :=
  .next (if inAperture va ∨ 2 ^ 56 ≤ va.toNat then s else cacheWalk s part asid va [.load, .store, .fetch])

/-- Whether a place lies in a 64 KiB frame. -/
def Place.inFrame (p : Place) (base : Nat) : Bool :=
  match p with
  | .phys pa _ => pa / 2 ^ 16 == base / 2 ^ 16
  | _ => false

/-- Whether a request in flight still names a place in a frame. -/
def frameBusy (s : State) (base : Nat) : Bool :=
  s.pend.any fun q => match q.2.work with
    | .atom _ _ ls => ls.any fun a => a.place.inFrame base
    | .launch _ _ _ ls => ls.any fun a => a.place.inFrame base
    | _ => false

/-- The contents of a frame copied to another; a lost line stays lost (R68). -/
def copyFrame (s : State) (k : Key) (src dst : Nat) : State :=
  let s1 := writeBytes s k dst (plainBytes s k src 65536)
  { s1 with lost := s1.lost ++ (s.lost.filter fun l => decide (src ≤ 128 * l ∧ 128 * l < src + 65536)).map fun l =>
      (128 * l - src + dst) / 128 }

/-- A leaf with its frame field replaced (R88). -/
def leafWithFrame (e : Word) (pa : Nat) : Word :=
  BitVec.ofNat 64 (e.toNat % 2 ^ 24 + pa / 2 ^ 16 % 2 ^ 40 * 2 ^ 24)

/-- A frame the device no longer uses entered in the quarantine queue (R68, R99). -/
def Partition.quarantineFrame (p : Partition) (frame : Nat) : Partition :=
  if p.qlist.length < 65536 then { p with qlist := p.qlist ++ [(BitVec.ofNat 64 frame, p.issuectr)] }
  else { p with qlost := true }

/-- The frames a migration may take: those qpop could return, in the partition's memory on another base stack (R24, R68,
R99). -/
def newFrames (s : State) (part : Nat) (p : Partition) (old : Nat) : List (Word × Half) :=
  p.qlist.filter fun e =>
    let pa := e.1.toNat * 2 ^ 16
    exceeds (quiesctr s part) e.2 && !s.foreign part pa && p.stackOf pa != p.stackOf old

/-- Whether a page may migrate (R24, R68, R366): migration is enabled, the page is an ordinary 64 KiB one, neither
discarded nor det-shared, no request in flight names its frame, and stamps allow its invalidation (R93). -/
def mayMigrate (s : State) (part : Nat) (p : Partition) (w : Walk) (old : Nat) : Bool :=
  (p.sys 0x0C0).getLsbD 0 && leafType w.leaf == 0 && w.level == 0 && !ebit w.leaf 19 && !ebit w.leaf 18
    && !frameBusy s old && !spanFull s part

/-- Bytes that a test selects dropped from every fetch cache. -/
def dropFetched (s : State) (gone : Nat → Bool) : State :=
  { s with cores := s.cores.mapV fun _ c => { c with fcache := c.fcache.drop gone } }

/-- The bytes of a page moved to a frame: copies recalled, the frame copied, the leaf switched (R68). What the fetch caches
hold of the new frame goes, as no page held it there. -/
def moveFrame (s : State) (part : Nat) (k : Key) (w : Walk) (old new : Nat) : State :=
  let s1 := dropLlc (dropCopies s (lineIn old 65536)) (lineIn old 65536)
  dropFetched (writeLeaf (copyFrame s1 k old new) part w (leafWithFrame w.leaf new)) fun a =>
    decide (new ≤ a ∧ a < new + 65536)

/-- A page moved to a frame: its bytes moved, translations invalidated, the old frame posted (R68, R99). -/
def movePage (s : State) (part asid : Nat) (va : Word) (k : Key) (w : Walk) (old : Nat) (e : Word × Half) : State :=
  (moveFrame s part k w old (e.1.toNat * 2 ^ 16)).mapPart part fun p =>
    ({ p with qlist := p.qlist.erase e }.invalidate (.address asid va)).quarantineFrame (old / 2 ^ 16)

/-- The lines of a frame that peers hold, to be had back before it moves (R58). -/
def frameWants (s : State) (base : Nat) : List Want :=
  ((s.fab.peers.filter fun c => lineIn base 65536 c.line).map fun c => Want.home c.line true).dedup

/-- PAGE_MIGRATION (R24, R68, R99, R366): an ordinary 64 KiB page moves to a frame of the device's choice among those that
are ready, once peers have given back its lines; with none ready no migration starts (DESIGN CHOICE, log 20). -/
def execPageMigration (part asid : Nat) (va : Word) (s : State) : Host.Outcome State Fault Refusal :=
  if inAperture va ∨ 2 ^ 56 ≤ va.toNat then .next s
  else match s.parts.get? part, walk s part asid va with
  | some p, some w =>
    let old := efield w.leaf 24 40 * 2 ^ 16
    let es := newFrames s part p old
    match es[Config.choice s.draws es.length % Nat.max 1 es.length]?, leafKey s part w.leaf with
    | some e, some k =>
      if !mayMigrate s part p w old then .next s
      else if (frameWants s old).isEmpty then .next (movePage (walkTouch s.draw part asid va) part asid va k w old e)
      else .next (askAll s (frameWants s old))
    | _, _ => .next s
  | _, _ => .next s

/-! ## Errors (R25, R357) -/

/-- The count a corrected error advances (R357). -/
def Corrected.index : Corrected → Nat
  | .pool _ => 0 | .l2 _ => 1 | .llc _ => 2 | .hbm _ => 3 | .linkCrc _ | .hostLink => 4

/-- The source of a corrected error (R400): a core, an L2 slice, an LLC slice, or the slice before its HBM; a link between dies
has the source of its L2 slice, and the host link its own (DESIGN CHOICE, log 35). -/
def Corrected.source : Corrected → Nat
  | .pool n => Source.core n
  | .l2 n | .linkCrc n => 0x200 + n % 64
  | .llc n | .hbm n => 0x100 + n % 64
  | .hostLink => 0x400

/-- CORRECTED_ERROR (R25, R357, R400): data is delivered correct, the error is counted. -/
def execCorrectedError (part : Nat) (c : Corrected) (s : State) : Host.Outcome State Fault Refusal :=
  match s.parts.get? part with
  | some _ => .next (s.countErr (Corrected.source c) part (Corrected.index c) 0)
  | none => .next s

/-- UNCORRECTABLE_ERROR (R25, R357): a clean line is dropped and refetched, a dirty line is lost at its home. -/
def execUncorrectableError (part line : Nat) (dirty : Bool) (s : State) : Host.Outcome State Fault Refusal :=
  match s.parts.get? part with
  | none => .next s
  | some _ =>
    let s1 := dropLlc (dropCopies s fun l => l == line) fun l => l == line
    if dirty then
      let s2 := { s1 with lost := if s1.lost.contains line then s1.lost else s1.lost ++ [line] }
      .next (s2.countErr (Source.llc s part line) part 7 (BitVec.ofNat 64 (128 * line)))
    else .next (s1.countErr (Source.llc s part line) part 5 (BitVec.ofNat 64 (128 * line)))

end Sys2Proof.Machine
end

