-- ==== Sys2Proof/Machine/Fabric.lean ====
section
/-! DEFINITION. The Mortar fabric: requests of peers and the home directory of what they hold (R57, R58, R100, R372, R373), answers
to this package's messages and their failures (R373, R374), planes (R375, R376), flits, repair and keys (R377, R378), and
routes (R379). -/

namespace Sys2Proof.Machine

/-! ## Requests of peers (R100, R372) -/

/-- The export entry that serves a requester: the lowest-indexed valid one of its package and partition (R372). -/
def Partition.exportFor (p : Partition) (spkg spart : Nat) : Option Half :=
  ((List.range 64).map fun i => p.fxent.num i).find? fun e =>
    e.getLsbD 31 && e.toNat / 2 ^ 10 % 2 ^ 10 == spkg && e.toNat / 2 ^ 20 % 2 ^ 3 == spart

/-- How many bytes a request concerns. -/
def RemoteOp.len : RemoteOp → Nat
  | .read n => n
  | .own => 128
  | .write bs => bs.length
  | .atom op _ _ => AtomOp.bytes op

/-- The access a request makes; a line is asked for to own by a store. -/
def RemoteOp.acc : RemoteOp → Acc
  | .read _ => .load
  | .own | .write _ => .store
  | .atom _ _ _ => .atom

/-- Whether a request is a message of the fabric: bytes of one line of an exported address (R370, R375). -/
def RemoteOp.wellFormed (op : RemoteOp) (va : Word) : Bool :=
  let n := RemoteOp.len op
  decide (0 < n ∧ va.toNat % 128 + n ≤ 128 ∧ va.toNat < 2 ^ 43) && (RemoteOp.acc op != .atom || va.toNat % n == 0)

/-- Who sent a request: its partition here, the peer, the line in the exported space. -/
structure Asker where
  part : Nat
  peer : Nat
  line : Nat
  deriving DecidableEq, Repr

/-- An answer sent to a peer about its line: status 0 with data, 1 with a hint in µs, 2 with a cause (R375; DESIGN CHOICE,
log 31). -/
def answerPeer (s : State) (k : Asker) (status : Nat) (bs : List Byte) : State :=
  sendMsg s ⟨k.part, k.peer, k.line, .answer status bs, 0, 0⟩

/-- A fault cause sent to a peer (R100). -/
def answerFault (s : State) (k : Asker) (cause : Nat) : State := answerPeer s k 2 (leBytes 1 cause)

/-- A retry-after hint of 1 to 15 µs sent to a peer (R100; DESIGN CHOICE, log 31). -/
def answerLater (s : State) (k : Asker) : State := (answerPeer s k 1 (leBytes 1 (1 + Config.retryHint s.draws % 15))).draw

/-- A refusal with a hint, counted; the walk starts at once: its translation is cached, or its failure remembered for the
request's next coming (R89, R90, R100). -/
def answerRetry (s : State) (k : Asker) (asid : Nat) (va : Word) (acc : Acc) : State :=
  let cause : Option Nat := if (walk s k.part asid va).isSome then none else some Code.pageFault
  let r : RefusedReq := ⟨k.part, k.peer / 8, k.peer % 8, va.toNat / 2 ^ 16, cause, (s.parts.get? k.part).elim 0 (·.issuectr)⟩
  let s1 := (cacheWalk (answerLater s k) k.part asid va [acc]).countErr Source.kiln k.part 13 va
  { s1 with fab := { s1.fab with refused := s1.fab.refused ++ [r] } }

/-- Whether a refused request is one of a peer for a page. -/
def RefusedReq.names (r : RefusedReq) (k : Asker) (va : Word) : Bool :=
  r.part == k.part && r.spkg == k.peer / 8 && r.spart == k.peer % 8 && r.page == va.toNat / 2 ^ 16

/-- The tile an outside write needs (R76). -/
def outsideBirth (s : State) (part : Nat) (p : Place) : Option State :=
  match p with
  | .tile r t _ k => match birth s part r t k with
    | .ok s1 => some s1
    | .error _ => none
  | _ => some s

/-! ## The home directory of peers' copies (R57, R58, R373) -/

/-- Whether the directory lists a copy as a peer's of a line. -/
def PeerCopy.names (c : PeerCopy) (part peer line : Nat) : Bool := c.part == part && c.peer == peer && c.line == line

/-- The copies that other peers hold of a line and that a request needs back first: every one to write, the owner's to read
(R58). -/
def conflicts (s : State) (k : Asker) (p : Place) (write : Bool) : List PeerCopy :=
  match homeLine k.part p with
  | some l => s.fab.peers.filter fun c => c.line == l && (write || c.own) && !c.names k.part k.peer l
  | none => []

/-- Copies of peers recalled, each once. -/
def recallCopies (s : State) (cs : List PeerCopy) (write : Bool) : State :=
  cs.foldl (fun s c => sendOnce s ⟨c.part, c.peer, c.eline, .recall c.line write, 0, 0⟩) s

/-- A peer listed as sharer or owner of a line. -/
def listCopy (s : State) (k : Asker) (p : Place) (own : Bool) : State :=
  match homeLine k.part p with
  | some l => { s with fab := { s.fab with peers :=
      (s.fab.peers.filter fun c => !c.names k.part k.peer l) ++ [⟨l, k.part, k.peer, k.line, own⟩] } }
  | none => s

/-- Whether a message recalls a line from a peer. -/
def FabMsg.recalls (m : FabMsg) (part peer line : Nat) (invalidate : Bool) : Bool :=
  m.part == part && m.peer == peer && m.body == .recall line invalidate

/-- A peer's copy of a line given up, or with `keep` only its ownership, as far as the home knows; a recall of it is over. -/
def giveUp (s : State) (part peer line : Nat) (keep : Bool) : State :=
  let done := fun (m : FabMsg) => m.recalls part peer line true || m.recalls part peer line false
  { s with fab := { s.fab with
      peers := if keep then s.fab.peers.map fun c => if c.names part peer line then { c with own := false } else c
        else s.fab.peers.filter fun c => !c.names part peer line
      unacked := s.fab.unacked.filter fun x => !done x.2
      waiting := s.fab.waiting.filter fun x => !done x.2 } }

/-- Whether a line is being recalled from a peer to be invalidated there. -/
def Fabric.recalling (f : Fabric) (part peer line : Nat) : Bool :=
  (f.unacked.any fun x => x.2.recalls part peer line true) || f.waiting.any fun x => x.2.recalls part peer line true

/-- A peer has written a line back: it owns it no more, and holds no copy where it was asked to give it up (R58). -/
def wroteBack (s : State) (k : Asker) (p : Place) : State :=
  match homeLine k.part p with
  | some l => giveUp s k.part k.peer l (!s.fab.recalling k.part k.peer l)
  | none => s

/-- A peer takes an ATOM to the home: it has given up its copy (R61, R280). -/
def leftLine (s : State) (k : Asker) (p : Place) : State :=
  match homeLine k.part p with
  | some l => giveUp s k.part k.peer l false
  | none => s

/-- A load in flight looked at again, for its lanes that wait for a peer. -/
def LoadCmd.refresh (c : LoadCmd) (s : State) (part : Nat) : LoadCmd :=
  { c with lanes := c.lanes.map fun l => match l.got with
      | .waits p => { l with got := laneGot s part p c.size }
      | _ => l }

/-- The loads in flight that wait for peers take what is there now (R373). -/
def refreshLoads (s : State) : State :=
  { s with pend := s.pend.mapV fun _ q => match q.work with
      | .load c => { q with work := .load (c.refresh s q.part) }
      | _ => q }

/-- A request performed at its home, and its answer (R58, R372, R373). -/
def performRemote (s : State) (k : Asker) (asid : Nat) (va : Word) (p : Place) (op : RemoteOp) : State :=
  let n := RemoteOp.len op
  let who := some (asid, va)
  match op with
  | .read _ =>
    if placeLost s k.part p n then answerFault s k Code.dataLost
    else answerPeer (listCopy (homeTouch s k.part who p false) k p false) k 0 (placeBytes s k.part p n)
  | .own =>
    if placeLost s k.part p n then answerFault s k Code.dataLost
    else match outsideBirth s k.part p with
      | some s1 => answerPeer (listCopy (homeTouch s1 k.part who p true) k p true) k 0 (placeBytes s1 k.part p n)
      | none => answerFault s k Code.existFull
  | .write bs => match outsideBirth s k.part p with
    | some s1 => answerPeer (refreshLoads (wroteBack (writePlace (homeTouch s1 k.part who p true) k.part p bs) k p)) k 0 []
    | none => answerFault s k Code.existFull
  | .atom op v new =>
    if placeLost s k.part p n then answerFault s k Code.dataLost
    else match outsideBirth s k.part p with
      | none => answerFault s k Code.existFull
      | some s1 =>
        let y := atomApply (homeTouch s1 k.part who p true) k.part op p v new
        answerPeer (refreshLoads (leftLine y.1 k p)) k 0 y.2

/-- What a request needs of other peers first: copies they hold of a line of this package, or a line of another. -/
def remoteWaits (s : State) (k : Asker) (p : Place) (op : RemoteOp) : Option State :=
  let write := RemoteOp.acc op != .load
  match p with
  | .fabric _ _ => match placeMissing s k.part write p (RemoteOp.len op) with
    | [] => none
    | ws => some (askAll s ws)
  | _ => match conflicts s k p write with
    | [] => none
    | cs => some (recallCopies s cs write)

/-- A request under the ASID of its export entry (R100): refused with a hint when its translation misses, with the cause
when the walk started before has failed and nothing was invalidated since, else translated, checked and performed. While
stamps in flight hold up the re-establishment of its page (R93, R97), a birth of its tile is in flight (R76), or a line
must be had from another peer, it is told to come again. -/
def serveRemote (s : State) (k : Asker) (asid : Nat) (va : Word) (op : RemoteOp) : State :=
  let write := RemoteOp.acc op != .load
  let stamp := (s.parts.get? k.part).elim 0 (·.issuectr)
  let again := (s.fab.refused.find? fun r => r.names k va && r.stamp == stamp).map (·.cause)
  let hit := ((s.parts.get? k.part).bind fun p => p.tlb.get? (tlbKey asid va)).isSome
  let s1 := { s with fab := { s.fab with refused := s.fab.refused.filter fun r => !r.names k va } }
  match again with
  | some (some c) => answerFault s1 k c
  | x =>
    if x.isNone && !hit then answerRetry s1 k asid va (RemoteOp.acc op)
    else if write && (spanWait s1 k.part asid [va]).isSome then answerLater s1 k
    else match resolve s1 k.part asid 0 va (RemoteOp.len op) (RemoteOp.acc op) with
      | .error c => answerFault s1 k c
      | .ok (s2, p) => match remoteWaits s2 k p op with
        | some s3 => answerLater s3 k
        | none => if write && tileReserved s2 k.part p then answerLater s2 k else performRemote s2 k asid va p op

/-- REMOTE_REQUEST (R100, R372): a request of partition `spart` of package `spkg` arrives. -/
def execRemoteRequest (part spkg spart : Nat) (va : Word) (op : RemoteOp) (s : State) :
    Host.Outcome State Fault Refusal :=
  match s.parts.get? part with
  | none => .next s
  | some p =>
    let k : Asker := ⟨part, 8 * spkg + spart % 8, va.toNat / 128⟩
    if !RemoteOp.wellFormed op va then .next s
    else match p.exportFor spkg spart with
      | none => .next (answerFault s k Code.protection)
      | some e =>
        let asid := e.toNat % 2 ^ 10
        if (RemoteOp.acc op != .load && !e.getLsbD 30) || !decide (p.asidFirst ≤ asid ∧ asid < p.asidFirst + p.asidCount)
        then .next (answerFault s k Code.protection)
        else .next (serveRemote s k asid va op)

/-- REMOTE_RESEND (R100, R374): the local slice sends a refused message again, no earlier than the hint. -/
def execRemoteResend (n : Nat) (s : State) : Host.Outcome State Fault Refusal :=
  match s.fab.retries[n]? with
  | some r =>
    if r.2 ≤ s.tsc then .next (sendMsg { s with fab := { s.fab with retries := s.fab.retries.erase r } } r.1)
    else .next s
  | none => .next s

/-! ## What a peer sends (R373, R374) -/

/-- The oldest message about a line that a test selects, sent on a plane in service and not acknowledged. -/
def Fabric.messageFor (f : Fabric) (line : Nat) (which : FabMsg → Bool) : Option FabMsg :=
  (f.unacked.find? fun x => x.2.tag == line && which x.2 && f.planeAlive x.1).map (·.2)

/-- A message that is over leaves the lists. -/
def Fabric.settled (f : Fabric) (m : FabMsg) : Fabric :=
  match f.unacked.find? fun x => x.2 == m with
  | some x => { f with unacked := f.unacked.erase x }
  | none => match f.waiting.find? fun x => x.2 == m with
    | some x => { f with waiting := f.waiting.erase x }
    | none => f

/-- The lane of an ATOM that a message has taken to a peer gives what the peer sent (R280, R373, R374). -/
def answerAtom (s : State) (m : FabMsg) (got : Nat → LaneGot) : State :=
  match m.body with
  | .atom _ id num _ _ _ => match s.pend.get? id with
    | some q => match q.work with
      | .atom op d ls => setWork s id (.atom op d (ls.map fun a =>
          if a.num = num ∧ a.got = none then { a with got := some (got (AtomOp.bytes op)) } else a))
      | _ => s
    | none => s
  | _ => s

/-- Whether a place is in a fabric line. -/
def Place.inLine (p : Place) (line : Nat) : Bool :=
  match p with
  | .fabric a _ => a / 128 == line
  | _ => false

/-- Whether a lane of a load waits for a fabric line. -/
def LaneLoad.waitsFor (l : LaneLoad) (line : Nat) : Bool :=
  match l.got with
  | .waits p => p.inLine line
  | _ => false

/-- A lane of a load that waits for a fabric line with the line's failure. -/
def LaneLoad.failLine (l : LaneLoad) (line cause : Nat) : LaneLoad := if l.waitsFor line then { l with got := .fault cause } else l

/-- Whether a command in flight learns of a failed line through its own record. -/
def Work.uses (w : Work) (line : Nat) : Bool :=
  match w with
  | .load c => c.lanes.any fun l => l.waitsFor line
  | .launch _ _ _ ls => ls.any fun a => a.place.inLine line
  | .copy c _ => !c.ran
  | .fetch _ _ _ _ _ _ _ => true
  | _ => false

/-- A command in flight that waits for a line with the line's failure entered (R374). -/
def Pend.failLine (q : Pend) (line cause : Nat) : Pend :=
  match q.work with
  | .load c => { q with work := .load { c with lanes := c.lanes.map fun l => l.failLine line cause } }
  | .launch d pd k ls => { q with work := .launch d pd k (ls.map fun a =>
      if a.place.inLine line then { a with got := some (.fault cause) } else a) }
  | .copy _ _ | .fetch _ _ _ _ _ _ _ => { q with faults := q.faults ++ [(line, cause)] }
  | _ => q

/-- A failed line entered in the commands that wait for it (R374). -/
def faultWork (s : State) (line cause : Nat) : State := { s with pend := s.pend.mapV fun _ q => q.failLine line cause }

/-- Whether a split's word waits for a fabric line. -/
def lineAwaited (s : State) (line : Nat) : Bool :=
  s.warps.any fun w => w.2.splits.any fun p => match p.2.wait with
    | .stall (.lines ws) => ws.any fun x => x.line? == some line
    | _ => false

/-- A failure of the fabric recorded and reported (R374, R382). -/
def fabricFailure (s : State) (part line cause : Nat) : State :=
  (s.record (Source.llc s part (2 ^ 60 + line)) (512 + cause) part (BitVec.ofNat 64 (128 * line)) 0).raise part 2

/-- A line that a peer was asked for and that failed with a cause: what waits for it learns so (R374). -/
def failAsk (s : State) (line cause : Nat) : State :=
  let s1 := faultWork s line cause
  if lineAwaited s line || !(s.pend.any fun q => q.2.work.uses line) then
    { s1 with fab := { s1.fab with faulted := s1.fab.faulted ++ [(line, cause)] } }
  else s1

/-- A message that failed with a cause: a written line is marked lost at the local slice (R374), and a copy recalled from a peer
that is not reached counts as given up (DESIGN CHOICE, log 31). -/
def failMessage (s : State) (cause : Nat) (m : FabMsg) : State :=
  let s1 := fabricFailure { s with fab := s.fab.settled m } m.part m.line cause
  match m.body with
  | .ask _ => failAsk s1 m.line cause
  | .writeBack _ => loseFabric s1 m.line
  | .atom _ _ _ _ _ _ => answerAtom s1 m fun _ => .fault cause
  | .recall l inv => refreshLoads (giveUp s1 m.part m.peer l (!inv))
  | .released | .answer _ _ => s1

/-- A line that a peer has sent is held by the local slice, to share or to own, and what waits for it takes it (R65, R373). -/
def takeLine (s : State) (line : Nat) (own : Bool) (bs : List Byte) : State :=
  let s1 := { s with fab := { s.fab with
    lines := s.fab.lines.put line ((List.range 128).map fun i => bs.getD i 0)
    owned := if own && !s.fab.owned.contains line then s.fab.owned ++ [line] else s.fab.owned
    faulted := s.fab.faulted.filter fun f => f.1 != line } }
  refreshLoads (arriveHome s1 (linePart line) none (2 ^ 60 + line) .normal)

/-- A line recalled by its peer home: invalidated, or only its ownership ended; what it has written goes back, else the home is
told that the line is given up (R58, R373). -/
def recalledLine (s : State) (line : Nat) (invalidate : Bool) : State :=
  let writes := s.fab.dirty.contains line && !s.lost.contains (2 ^ 60 + line)
  let m := lineMsg line (if writes then .writeBack ((s.fab.lines.get? line).getD []) else .released)
  if invalidate then if writes then evictFabric s line else sendMsg (evictFabric s line) m
  else sendMsg { s with fab := { s.fab with dirty := s.fab.dirty.filter fun l => l != line
                                            owned := s.fab.owned.filter fun l => l != line } } m

/-- The answer of a peer to a message (R100, R373, R374). -/
def answered (s : State) (m : FabMsg) (answer : PeerAnswer) : State :=
  let s1 := { s with fab := s.fab.settled m }
  match answer with
  | .data bs => match m.body with
    | .ask own => takeLine s1 m.line own bs
    | .atom _ _ _ _ _ _ => answerAtom s1 m fun n => .bytes ((List.range n).map fun i => bs.getD i 0)
    | _ => s1
  | .retry us => { s1 with fab := { s1.fab with
      retries := s1.fab.retries ++ [(m, s.tsc + 1000 * Nat.min 15 (Nat.max 1 us))] } }
  | .fault p => failMessage s (if p then Code.protection else Code.pageFault) m
  | _ => s

/-- What a peer has written into a line that it gives up is stored through the export that admitted it; where that no longer
leads to a writable page the line is lost at its home (DESIGN CHOICE, log 31). -/
def storeReleased (s : State) (m : FabMsg) (line : Nat) (bs : List Byte) : State :=
  let va : Word := BitVec.ofNat 64 (128 * m.line)
  let asid := ((s.parts.get? m.part).bind fun p => p.exportFor (m.peer / 8) (m.peer % 8)).elim 0 fun e => e.toNat % 2 ^ 10
  match resolve s m.part asid 0 va 128 .engineWrite with
  | .ok (s1, p) => match outsideBirth s1 m.part p with
    | some s2 => writePlace (homeTouch s2 m.part (some (asid, va)) p true) m.part p bs
    | none => s1
  | .error _ => { s with lost := if s.lost.contains line then s.lost else s.lost ++ [line] }

/-- A peer gives up a line that this package has recalled, with what it has written there (R58). -/
def released (s : State) (m : FabMsg) (data : Option (List Byte)) : State :=
  match m.body with
  | .recall l inv =>
    let s1 := giveUp { s with fab := s.fab.settled m } m.part m.peer l (!inv)
    refreshLoads (data.elim s1 fun bs => storeReleased s1 m l ((List.range 128).map fun i => bs.getD i 0))
  | _ => s

/-- An answer that has arrived: it is acknowledged. -/
def acknowledged (s : State) (m : FabMsg) : State :=
  { s with fab := { s.fab.settled m with outbox := if m.body = .released then s.fab.outbox else s.fab.outbox ++ [m] } }

/-- Whether a message is a recall. -/
def FabMsg.isRecall (m : FabMsg) : Bool :=
  match m.body with
  | .recall _ _ => true
  | _ => false

/-- FABRIC_PEER_RESPONSE (R58, R100, R373, R374): the answer to the oldest message about a line, the acknowledgement of an answer,
the recall of a line, or the release of one. -/
def execFabricPeerResponse (line : Nat) (answer : PeerAnswer) (s : State) : Host.Outcome State Fault Refusal :=
  .next (match answer with
    | .recall inv => recalledLine s line inv
    | .ack => (s.fab.messageFor line fun m => !m.request && !m.isRecall).elim s (acknowledged s)
    | .released data => (s.fab.messageFor line FabMsg.isRecall).elim s fun m => released s m data
    | a => (s.fab.messageFor line FabMsg.request).elim s fun m => answered s m a)

/-- FABRIC_DELIVERY_TIMEOUT (R374): a message about a line, one that writes it back or another, has not been delivered within
50 µs. -/
def execFabricDeliveryTimeout (line : Nat) (dirty : Bool) (s : State) : Host.Outcome State Fault Refusal :=
  match (s.fab.unacked ++ s.fab.waiting).find? fun x =>
      x.2.tag == line && x.2.writes == dirty && decide (x.2.sent + 50000 ≤ s.tsc) with
  | some m => .next (failMessage s Code.asyncError m.2)
  | none => .next s

/-! ## Planes (R375, R376) -/

/-- The map with plane addresses moved. -/
def Fabric.newMap (f : Fabric) (as : List Nat) : Nat :=
  (List.range 4).foldl (fun m a => m + (if as.contains a then f.movedTo a else f.plane a) * 4 ^ a) 0

/-- Waiting messages that need not wait any more sent, in their order, each under the version bit in force (R376, R379). -/
def flushWaiting (s : State) : State :=
  let f := s.fab
  let free := fun (x : Nat × FabMsg) => !f.blocked x.1 x.2.dest
  let go := (f.waiting.filter free).map fun x => (f.planeFor x.1 x.2.dest, { s.stampMsg x.2 with sent := x.2.sent })
  (go.map (·.1)).foldl countSent { s with fab := { f with
    unacked := f.unacked ++ go
    waiting := f.waiting.filter fun x => !free x } }

/-- A remap announced to every peer by a stamped event: messages on its plane addresses wait until their peer has acknowledged it;
with no plane alive nothing moves, and all messages wait (R376; the announcement's form DESIGN CHOICE, log 31). -/
def startRemap (s : State) (plane : Nat) (as : List Nat) : State :=
  let s1 := s.record Source.kiln 768 0 (BitVec.ofNat 64 plane) (BitVec.ofNat 64 s.fab.alive)
  if s.fab.alive = 0 then { s1 with fab := { s1.fab with remap := none, acked := [] } }
  else flushWaiting { s1 with fab := { s1.fab with
    remap := some (plane, (as ++ s.fab.remap.elim [] (·.2)).dedup), acked := [] } }

/-- A plane taken out of service (R376). -/
def planeDown (s : State) (plane : Nat) : State :=
  if s.fab.planeAlive plane then
    let s1 := { s with fab := { s.fab with alive := s.fab.alive - 2 ^ plane } }
    startRemap s1 plane ((List.range 4).filter fun a => s.fab.plane a == plane)
  else s

/-- A plane returned to service with its links: it is given back its own plane address (R376). -/
def planeUp (s : State) (plane : Nat) : State :=
  if s.fab.planeAlive plane then s
  else
    let s1 := { s with fab := { s.fab with
      alive := s.fab.alive + 2 ^ plane
      links := s.fab.links.mapV fun i l => if i / 4 = plane then { l with up := true, attempts := 0, damaged := none } else l } }
    startRemap s1 plane ((List.range 4).filter fun a => a == plane || !s1.fab.planeAlive (s1.fab.plane a))

/-- PLANE_REMAP (R376): a plane dies or returns. -/
def execPlaneRemap (plane : Nat) (up : Bool) (s : State) : Host.Outcome State Fault Refusal :=
  if 4 ≤ plane then .next s else .next (if up then planeUp s plane else planeDown s plane)

/-- Messages that a test selects, sent on a plane that is dead and not acknowledged, sent again on the new plane in their order
(R376). -/
def resendDead (f : Fabric) (which : FabMsg → Bool) : Fabric :=
  { f with unacked := f.unacked.map fun x =>
      if which x.2 && !f.planeAlive x.1 then (f.planeFor (planeAddr x.2.line) x.2.dest, x.2) else x }

/-- The package that acknowledges a remap next: free; 1,024 when with it every package has (R376; DESIGN CHOICE, log 31). -/
def remapPeer (s : State) : Nat := Config.choice s.draws 1025 % 1025

/-- REMAP_ACKNOWLEDGE (R376): a package has acknowledged the remap: its messages sent on a dead plane go again on the new plane,
then the waiting ones; once every package has, fabplane shows the new map. -/
def execRemapAcknowledge (s : State) : Host.Outcome State Fault Refusal :=
  match s.fab.remap with
  | none => .next s
  | some (_, as) =>
    let peer := remapPeer s
    let f := if peer = 1024 then resendDead { s.fab with map := s.fab.newMap as, remap := none, acked := [] } fun _ => true
      else resendDead { s.fab with acked := (s.fab.acked ++ [peer]).dedup } fun m => m.dest == peer
    .next (flushWaiting { s with fab := f })

/-! ## Flits (R377, R378) -/

/-- A link as it is trained. -/
def Link.start : Link := ⟨true, 0, none, 0, none, 0, 0, 0⟩

/-- A link of the package. -/
def Fabric.link (f : Fabric) (n : Nat) : Link := (f.links.get? n).getD Link.start

/-- The state with a link replaced. -/
def State.setLink (s : State) (n : Nat) (l : Link) : State := { s with fab := { s.fab with links := s.fab.links.put n l } }

/-- Flits held, in the order of arrival, split into those that are delivered and those that stay: of each plane, what comes after a
flit that is still damaged stays (R377). -/
def splitHeld : (stuck : List Nat) → List (Nat × Option (List Byte)) → List (Nat × List Byte) × List (Nat × Option (List Byte))
  | _, [] => ([], [])
  | stuck, (n, x) :: rest =>
    match x with
    | some bs =>
      if stuck.contains (n / 4) then let t := splitHeld stuck rest; (t.1, (n, x) :: t.2)
      else let t := splitHeld stuck rest; ((n, bs) :: t.1, t.2)
    | none => let t := splitHeld (n / 4 :: stuck) rest; (t.1, (n, x) :: t.2)

/-- The flits delivered that stand in their place in the order of their plane (R377). -/
def flushHeld (s : State) : State :=
  let t := splitHeld [] s.fab.held
  { s with fab := { s.fab with held := t.2, inbox := s.fab.inbox ++ t.1 } }

/-- The flits held with a link's damaged flit repaired, or gone; a link with none has its new flit last. -/
def placeFlit (held : List (Nat × Option (List Byte))) (n : Nat) (payload : Option (List Byte)) : List (Nat × Option (List Byte)) :=
  if held.contains (n, none) then held.filterMap fun x => if x = (n, none) then payload.map fun bs => (n, some bs) else some x
  else held ++ (payload.toList.map fun bs => (n, some bs))

/-- A received flit counted under the key; after 2^32 flits the key rotates (R378). -/
def Link.received (l : Link) : Link :=
  if l.flits + 1 < 2 ^ 32 then { l with flits := l.flits + 1 }
  else { l with key := l.key + 1, prevKey := some l.key, flits := 0 }

/-- A flit delivered once, in its place; the link holds no damaged flit any more. -/
def deliverFlit (s : State) (n : Nat) (l : Link) (payload : List Byte) : State :=
  let s1 := s.setLink n { l.received with attempts := 0, damaged := none }
  flushHeld { s1 with fab := { s1.fab with held := placeFlit s1.fab.held n (some payload) } }

/-- A link that has failed: its damaged flit is gone, it is recorded, and its plane goes out of service (R376-R378). -/
def failLink (s : State) (n : Nat) (l : Link) : State :=
  let s1 := s.setLink n { l with up := false, attempts := 0, damaged := none }
  let s2 := flushHeld { s1 with fab := { s1.fab with held := placeFlit s1.fab.held n none } }
  planeDown (s2.record (Source.port n) 769 0 (BitVec.ofNat 64 n) 0) (n / 4)

/-- A flit whose CRC is correct, or that has been repaired: its tag under the key its key-index bit names decides (R378). A flit of
the current key shows that every flit of the previous key has been acknowledged. -/
def goodFlit (s : State) (n : Nat) (l : Link) (payload : List Byte) (keyBit : Nat) (tagOk : Bool) : State :=
  let current := l.key % 2 == keyBit % 2
  let previous := l.prevKey.elim false fun k => k % 2 == keyBit % 2
  if !tagOk || !(current || previous) then failLink s n l
  else deliverFlit s n (if current then { l with prevKey := none } else l) payload

/-- A damaged flit kept in its place, and counted (R377). -/
def keepDamaged (s : State) (part n : Nat) (l : Link) (payload : List Byte) (keyBit : Nat) : State :=
  let s1 := s.setLink n { l with attempts := 1, damaged := some (payload, keyBit) }
  { s1 with fab := { s1.fab with held := s1.fab.held ++ [(n, none)] } }.countErr (Source.port n) part 4 (BitVec.ofNat 64 n)

/-- FLIT_RECEIVE (R377, R378): a flit as the sender sent it, with whether its CRC and tag are correct on arrival. A link
that waits for parity takes no other flit; after two extensions the same flit is sent again whole, under the same key-index
bit, up to attempt 10. -/
def execFlitReceive (part link : Nat) (payload : List Byte) (keyBit : Nat) (crcOk tagOk : Bool) (s : State) :
    Host.Outcome State Fault Refusal :=
  let l := s.fab.link link
  if 16 ≤ link ∨ !l.up ∨ payload.length ≠ 256 then .next s
  else if l.attempts = 0 then
    if crcOk then .next (goodFlit s link l payload keyBit tagOk) else .next (keepDamaged s part link l payload keyBit)
  else if l.attempts ≤ 2 ∨ l.damaged ≠ some (payload, keyBit) then .next s
  else if crcOk then .next (goodFlit s link l payload keyBit tagOk)
  else if l.attempts < 10 then .next (s.setLink link { l with attempts := l.attempts + 1 })
  else .next (failLink s link l)

/-- PARITY_EXTENSION_RECEIVE (R377, R378): up to 16 erroneous symbols are corrected with the first extension, up to 32 with
both, and the tag of the repaired flit decides. -/
def execParityExtensionReceive (link : Nat) (repair : Repair) (s : State) : Host.Outcome State Fault Refusal :=
  let l := s.fab.link link
  match l.damaged with
  | none => .next s
  | some (payload, keyBit) =>
    if l.attempts = 0 ∨ 2 < l.attempts then .next s
    else if repair.symbols ≤ 16 * l.attempts then .next (goodFlit s link l payload keyBit repair.tagOk)
    else .next (s.setLink link { l with attempts := l.attempts + 1 })

/-- KEY_ROTATION (R378): a new key for what a link sends or receives; the receiver keeps the previous one, so a rotation waits while
a damaged flit may still need it. -/
def execKeyRotation (link : LinkEnd) (s : State) : Host.Outcome State Fault Refusal :=
  let l := s.fab.link link.link
  if 16 ≤ link.link ∨ !l.up ∨ (!link.tx ∧ l.damaged.isSome ∧ l.prevKey.isSome) then .next s
  else if link.tx then .next (s.setLink link.link { l with txKey := l.txKey + 1, txFlits := 0 })
  else .next (s.setLink link.link { l with key := l.key + 1, prevKey := some l.key, flits := 0 })

/-! ## Routes (R379) -/

/-- ROUTE_UPDATE (R379): a source takes the new version for a destination once nothing sent to it under the old one is
unacknowledged; the old table is removed by the next such update of the same version. -/
def execRouteUpdate (dest version : Nat) (s : State) : Host.Outcome State Fault Refusal :=
  let f := s.fab
  let old := (f.routes.get? dest).getD 0
  if f.unacked.any fun x => x.2.dest == dest && x.2.version == old && old != version % 2 then .next s
  else if old = version % 2 then
    .next (if f.unacked.any fun x => x.2.dest == dest && x.2.version != old then s
      else { s with fab := { f with oldRoutes := f.oldRoutes.del dest } })
  else .next { s with fab := { f with routes := f.routes.put dest (version % 2), oldRoutes := f.oldRoutes.put dest old } }

end Sys2Proof.Machine
end

