-- ==== Sys2Proof/Machine/Sha.lean ====
section
/-! DEFINITION. SHA-256, HMAC-SHA-256 and HKDF-Expand, the published functions that R387, R388 and R389 name. Words are
numbers below 2^32, bytes numbers below 256. -/

namespace Sys2Proof.Machine

/-- The first 64 primes: the numbers below 312 that no smaller prime below 18 divides. -/
def shaPrimes : List Nat :=
  (List.range 312).filter fun n => decide (2 ≤ n) && [2, 3, 5, 7, 11, 13, 17].all fun d => n == d || n % d != 0

/-- The greatest number with `n` bits whose `k`-th power is at most `x`, its highest bits first, from `r` on. -/
def rootBits (k x : Nat) : (n : Nat) → (r : Nat) → Nat
  | 0, r => r
  | n + 1, r => rootBits k x n (if (r + 2 ^ n) ^ k ≤ x then r + 2 ^ n else r)

/-- The first 32 bits of the fraction of a number's `k`-th root. -/
def rootFraction (k p : Nat) : Nat := rootBits k (p * 2 ^ (32 * k)) 37 0 % 2 ^ 32

/-- The round constants: of the cube roots of the first 64 primes. -/
def shaK : List Nat := shaPrimes.map (rootFraction 3)

/-- The starting hash: of the square roots of the first 8 primes. -/
def shaStart : List Nat := (shaPrimes.take 8).map (rootFraction 2)

/-- Rotation of a word to the right. -/
def shaRotr (k x : Nat) : Nat := x / 2 ^ k + x % 2 ^ k * 2 ^ (32 - k)

/-- Exclusive or of three words. -/
def xor3 (a b c : Nat) : Nat := Nat.xor a (Nat.xor b c)

/-- The message schedule, newest word first, `n` more to make. -/
def shaSchedule : (n : Nat) → List Nat → List Nat
  | 0, ws => ws
  | n + 1, ws =>
    let w := fun i => ws.getD (i - 1) 0
    let s0 := xor3 (shaRotr 7 (w 15)) (shaRotr 18 (w 15)) (w 15 / 2 ^ 3)
    let s1 := xor3 (shaRotr 17 (w 2)) (shaRotr 19 (w 2)) (w 2 / 2 ^ 10)
    shaSchedule n (((w 16 + s0 + w 7 + s1) % 2 ^ 32) :: ws)

/-- The working words of a block: what the rounds made of `a` and of `e`, newest first, with the four of each the block
began with last. -/
structure ShaWork where
  as : List Nat
  es : List Nat

/-- One round: one new word of each sequence. -/
def ShaWork.round (x : ShaWork) (kw : Nat × Nat) : ShaWork :=
  let a := fun i => x.as.getD i 0
  let e := fun i => x.es.getD i 0
  let choice := Nat.xor (Nat.land (e 0) (e 1)) (Nat.land (2 ^ 32 - 1 - e 0) (e 2))
  let majority := xor3 (Nat.land (a 0) (a 1)) (Nat.land (a 0) (a 2)) (Nat.land (a 1) (a 2))
  let mixed := e 3 + choice + xor3 (shaRotr 6 (e 0)) (shaRotr 11 (e 0)) (shaRotr 25 (e 0)) + kw.1 + kw.2
  ⟨(mixed + majority + xor3 (shaRotr 2 (a 0)) (shaRotr 13 (a 0)) (shaRotr 22 (a 0))) % 2 ^ 32 :: x.as,
    (a 3 + mixed) % 2 ^ 32 :: x.es⟩

/-- Big-endian value of bytes. -/
def beNat (bs : List Nat) : Nat := bs.foldl (fun a b => 256 * a + b) 0

/-- The `n` bytes of a value, big-endian. -/
def beBytes (n x : Nat) : List Nat := (List.range n).map fun i => x / 256 ^ (n - 1 - i) % 256

/-- One block of 64 bytes. -/
def shaBlock (h : List Nat) (b : List Nat) : List Nat :=
  let ws := (List.range 16).map fun i => beNat ((b.drop (4 * i)).take 4)
  let all := (shaSchedule 48 ws.reverse).reverse
  let x := (List.zip shaK all).foldl ShaWork.round ⟨h.take 4, h.drop 4⟩
  List.zipWith (fun x y => (x + y) % 2 ^ 32) h (x.as.take 4 ++ x.es.take 4)

/-- The padded message. -/
def shaPad (m : List Nat) : List Nat :=
  m ++ 0x80 :: List.replicate ((119 - m.length % 64) % 64) 0 ++ beBytes 8 (8 * m.length)

/-- The blocks of a padded message, hashed. -/
def shaBlocks : (n : Nat) → List Nat → List Nat → List Nat
  | 0, h, _ => h
  | n + 1, h, m => shaBlocks n (shaBlock h (m.take 64)) (m.drop 64)

/-- SHA-256 of bytes as numbers. -/
def sha256Nat (m : List Nat) : List Nat :=
  let p := shaPad m
  (shaBlocks (p.length / 64) shaStart p).flatMap (beBytes 4)

/-- SHA-256. -/
def sha256 (m : List Byte) : List Byte := (sha256Nat (m.map (·.toNat))).map (BitVec.ofNat 8)

/-- HMAC-SHA-256 under a key of at most 64 bytes. -/
def hmac256 (key m : List Byte) : List Byte :=
  let k := (List.range 64).map fun i => key.getD i 0
  let pad := fun (x : Byte) => k.map fun b => b ^^^ x
  sha256 (pad 0x5C#8 ++ sha256 (pad 0x36#8 ++ m))

/-- 64 bytes of HKDF-Expand (R389). -/
def hkdfExpand64 (secret info : List Byte) : List Byte :=
  let t1 := hmac256 secret (info ++ [1#8])
  t1 ++ hmac256 secret (t1 ++ info ++ [2#8])

end Sys2Proof.Machine
end

