-- ==== Sys2Proof/Machine/Kiln.lean ====
section
/-! DEFINITION. The Kiln: bring-up (R394), the mailbox and partitions (R384-R386), halt and swap (R354, R355),
firmware (R391, R392), SPDM (R387, R388), key records (R389), and clock steps (R396). -/

namespace Sys2Proof.Machine

/-! ## Memory of a partition (R385; DESIGN CHOICE, log 6) -/

/-- The launch frame of a partition: the first frame of its memory (DESIGN CHOICE, log 14). -/
def frameOf (first : Nat) : Nat := first * quarterBytes

/-- A partition's memory zero-filled, with no line lost (R385). -/
def zeroQuarters (s : State) (first count : Nat) : State :=
  zeroFill s none (first * quarterBytes) (count * quarterBytes)

/-! ## Bring-up (R391, R392, R394) -/

/-- The security version an image carries (PRESUMED, log 30). -/
def imageVersion (image : List Byte) : Half := BitVec.ofNat 32 (leNat (Config.derive 2 image 4))

/-- Whether the Kiln ROM accepts an image: signed, and not below the version in fuses (R391). -/
def Kiln.accepts (k : Kiln) (image : List Byte) : Bool :=
  Config.verifies 0 image && decide (k.fuseVersion.toNat ≤ (imageVersion image).toNat)

/-- The planes that train, as alive bits and map (R376, R394 step 5; DESIGN CHOICE, log 31). -/
def trainPlanes (s : State) : State :=
  let f := { s.fab with alive := Config.choice s.draws 16 % 16 }
  { s with fab := { f with map := if f.alive = 0 then f.map else f.newMap [0, 1, 2, 3] } }.draw

/-- Steps 2 to 6 of R394 with a verified image: no partition, memory zero, time 0, the mailbox open; where training
fails the package stays in step 2 with code 1. -/
def bringUp (s : State) (image : List Byte) : State :=
  let k := { s.kiln with recovery := false, staged := some image, fwHash := sha256 image,
                         fwVersion := imageVersion image, romHash := sha256 (Config.derive 0 [] 32),
                         mbcmd := 0, mbarg := [0, 0, 0, 0], part := 0, doe := [], reply := [], quarters := []
                         begun := true, latched := none }
  let s0 := { State.reset with draws := s.draws, seq := s.seq, agenda := s.agenda, port := s.port
                               fab := { Fabric.reset with pkg := s.fab.pkg } }
  if Config.choice s.draws 2 % 2 = 0 then { s0 with kiln := { k with phase := 7, busy := false, code := 0 } }.draw |> trainPlanes
  else { s0 with kiln := { k with phase := 2, busy := true, code := 1 } }.draw

/-- ROM recovery: no partition exists, and the mailbox accepts only FWSTAGE (R392). -/
def enterRecovery (s : State) : State :=
  { State.reset with
    draws := s.draws
    seq := s.seq
    agenda := s.agenda
    port := s.port
    fab := { Fabric.reset with pkg := s.fab.pkg }
    kiln := { Kiln.reset with
      recovery := true, busy := false, staged := s.kiln.staged, fuseVersion := s.kiln.fuseVersion
      romHash := sha256 (Config.derive 0 [] 32) } }

/-- PACKAGE_RESET (R391-R394). -/
def execPackageReset (s : State) : Host.Outcome State Fault Refusal :=
  let image := s.kiln.staged.getD (Config.derive 1 [] 64)
  .next (if s.kiln.accepts image then bringUp s image else enterRecovery s)

/-! ## The mailbox (R384-R386) -/

/-- A command answered: the code and the partition it named. -/
def State.answer (s : State) (code part : Nat) : State :=
  { s with kiln := { s.kiln with busy := false, code := code, part := part } }

/-- Whether the mailbox takes a command: none runs, or it is the one that was written there and has not begun (R384). -/
def Kiln.takes (k : Kiln) (i : Instr) (cmd : Nat) : Bool :=
  !k.busy || (!k.begun && k.mbcmd == BitVec.ofNat 32 cmd && k.latched.elim true fun j => j == i)

/-- A command carried out: ignored while another runs, refused with code 1 in recovery; what the agenda still holds of a command
written to mbcmd is over with it (R384, R392; DEDUCED, log 29). -/
def mailbox (s : State) (i : Instr) (cmd : Nat) (args : List Half) (part : Nat) (body : State → State) : State :=
  if !s.kiln.takes i cmd then s
  else
    let s1 := { s with
      agenda := if s.kiln.busy then s.agenda.erase (.event i) else s.agenda
      kiln := { s.kiln with busy := true
                            begun := true
                            latched := none
                            mbcmd := BitVec.ofNat 32 cmd
                            mbarg := if s.kiln.busy then s.kiln.mbarg else args ++ s.kiln.mbarg.drop args.length } }
    if s1.kiln.recovery && cmd != 8 then s1.answer 1 part else body s1

/-- The partition index a command names. -/
def argPart (arg0 : Half) : Nat := arg0.toNat / 2 ^ 24 % 2 ^ 3

/-- A partition as CREATE leaves it: every register at its reset value (R5, R42, R68, R96, R159, R385). -/
def Partition.start (first count asidFirst asidCount : Nat) : Partition where
  first := first
  count := count
  sysregs := [(0x0C0, 1), (0x0D5, 4), (0x0D8, 0x00081000), (0x0E5, 1)]
  asidFirst := asidFirst
  asidCount := asidCount
  issuectr := 0
  dnhead := 0
  qlist := []
  qlost := false
  errcnt := []
  fxent := []
  frame := frameOf first
  regions := []
  tlb := []
  pages := []
  incs := []
  pool := []
  hod := []
  pairTable := []
  sealed := false
  keys := []
  launchedOnce := false
  halt := .running
  resCnt := []
  l2 := []
  llc := []
  shadow := none

/-- The fabric lines a partition's LLC holds go, those it has written to their peer homes; it asks for nothing more, and peers give
up what they hold of its lines (R373, R385; DEDUCED, log 29). -/
def dropFabric (s : State) (part : Nat) : State :=
  let mine := fun (line : Nat) => linePart line == part
  let s0 := ((s.fab.lines.keys).filter mine).foldl evictFabric s
  let s1 := (s0.fab.peers.filter fun c => c.part == part).foldl
    (fun s c => sendOnce s ⟨c.part, c.peer, c.eline, .recall c.line true, 0, 0⟩) s0
  let kept := fun (m : FabMsg) => m.part != part || !m.asks
  { s1 with
    lost := s1.lost.filter fun l => !(decide (2 ^ 60 ≤ l) && mine (l - 2 ^ 60))
    fab := { s1.fab with
      lines := s1.fab.lines.drop mine
      keys := s1.fab.keys.drop mine
      owned := s1.fab.owned.filter fun l => !mine l
      dirty := s1.fab.dirty.filter fun l => !mine l
      peers := s1.fab.peers.filter fun c => c.part != part
      faulted := s1.fab.faulted.filter fun x => !mine x.1
      refused := s1.fab.refused.filter fun r => r.part != part
      unacked := s1.fab.unacked.filter fun x => kept x.2
      waiting := s1.fab.waiting.filter fun x => kept x.2
      retries := s1.fab.retries.filter fun x => kept x.1 } }

/-- The cores of a partition as at creation (R40). -/
def freshCores (s : State) (first count : Nat) : State :=
  { s with cores := s.cores.drop fun c => decide (16 * first ≤ c ∧ c < 16 * (first + count)) }

/-- The code of CREATE; a swapped-out partition is refused with code 5 (R20, R385, R386; DEDUCED, log 29). -/
def createCode (s : State) (p count first af ac : Nat) : Nat :=
  if !(count == 2 || count == 4 || count == 8 || count == 16) || first % count != 0 then 1
  else if (s.parts.get? p).elim false fun x => x.halt == .swapped then 5
  else if (s.parts.get? p).isSome then 2
  else if (List.range count).any fun i => (s.kiln.quarters.get? (first + i)).isSome then 3
  else if decide (1024 < af + ac)
      || s.parts.any fun x => decide (af < x.2.asidFirst + x.2.asidCount ∧ x.2.asidFirst < af + ac) then 4
  else 0

/-- CREATE (R20, R385). -/
def execCreate (arg0 arg1 : Half) (s : State) : Host.Outcome State Fault Refusal :=
  let p := argPart arg0
  let count := arg0.toNat / 2 ^ 4 % 2 ^ 5
  let first := arg0.toNat % 2 ^ 4
  let af := arg1.toNat / 2 ^ 16 % 2 ^ 10
  let ac := arg1.toNat % 2 ^ 11
  .next (mailbox s (.create arg0 arg1) 1 [arg0, arg1] p fun s =>
    let code := createCode s p count first af ac
    if code ≠ 0 then s.answer code p
    else
      let s1 := freshCores (zeroQuarters s first count) first count
      let s2 := { s1 with
        parts := s1.parts.put p (Partition.start first count af ac)
        kiln := { s1.kiln with quarters := (List.range count).foldl (fun t i => t.put (first + i) p) s1.kiln.quarters } }
      s2.answer 0 p)

/-- The blocks of a partition's kernels. -/
def partBlocks (s : State) (part : Nat) : List Nat :=
  (s.blocks.filter fun b => (s.kernels.get? b.2.kernel).elim false fun k => k.part == part).map (·.1)

/-- Everything a partition's kernels hold removed: the kernels, their blocks with scratch and tiles, warps, commands in flight. -/
def clearPartition (s : State) (part : Nat) (bs : List Nat) : State :=
  { s with
    kernels := s.kernels.filter fun k => k.2.part != part
    blocks := s.blocks.filter fun b => !bs.contains b.1
    warps := s.warps.filter fun w => !bs.contains w.2.block
    pend := s.pend.filter fun q => q.2.part != part }

/-- The root kernels of a partition aborted (R352). -/
def abortAll (s : State) (part : Nat) : State :=
  (s.kernels.filter fun k => k.2.part == part && k.2.parent.isNone).foldl (fun s k => abortKernel s k.1) s

/-- The lanes of ATOMs in flight that are still to be sent to peers sent there (R352). -/
def sendAtoms (s : State) (part : Nat) : State :=
  (s.pend.filter fun q => q.2.part == part).foldl (fun s q => match q.2.work with
    | .atom op _ ls => ls.foldl (fun s a => match a.place with
      | .fabric x _ => if a.got.isNone then sendAtom s q.1 op a x else s
      | _ => s) s
    | _ => s) s

/-- A kernel whose partition is destroyed completes as an aborted one; a completion word on a line that peers hold is not written
(R352, R385; DEDUCED, log 29). -/
def endKernel (s : State) (id : Nat) : State :=
  match s.kernels.get? id with
  | some k => completeKernel s id (if (wordWants s k).isEmpty then k else { k with cwa := 0 })
  | none => s

/-- Every kernel of a partition that is destroyed aborts and completes, launched ones first (R352, R385). -/
def endKernels (s : State) (part : Nat) : State :=
  let s1 := sendAtoms (abortAll s part) part
  (((s1.kernels.filter fun k => k.2.part == part).insertionSort fun a b => b.2.depth ≤ a.2.depth).map (·.1)).foldl endKernel s1

/-- DESTROY (R385, R386, R389). -/
def execDestroy (arg0 : Half) (s : State) : Host.Outcome State Fault Refusal :=
  let p := argPart arg0
  .next (mailbox s (.destroy arg0) 2 [arg0] p fun s => match s.parts.get? p with
    | none => s.answer 2 p
    | some x =>
      let s1 := clearPartition (dropFabric (endKernels s p) p) p (partBlocks s p)
      let s2 := freshCores (zeroQuarters s1 x.first x.count) x.first x.count
      let s3 := { s2 with parts := s2.parts.del p
                          kiln := { s2.kiln with quarters := s2.kiln.quarters.filter fun q => q.2 != p } }
      s3.answer 0 p)

/-- SWAPOUT (R354, R385, R386): the halt is requested; the command runs until the swap ends or the halt is
abandoned. -/
def execSwapout (arg0 : Half) (s : State) : Host.Outcome State Fault Refusal :=
  let p := argPart arg0
  .next (mailbox s (.swapout arg0) 3 [arg0] p fun s => match s.parts.get? p with
    | none => s.answer 2 p
    | some x =>
      if x.halt ≠ .running then s.answer 5 p
      else { s.mapPart p fun x => { x with halt := .halting } with
             kiln := { s.kiln with part := p, haltAt := s.tsc } })

/-- Whether a command must finish before a halt completes: all but copies, which stop at a word boundary, and XSWAPs
that wait for their partner (R354, R355). -/
def Work.holdsHalt : Work → Bool
  | .copy _ _ | .crel _ => false
  | .xswap _ _ _ _ _ _ none => false
  | _ => true

/-- Whether every warp of a partition has stopped, with what must finish finished (R354; DEDUCED, log 29). -/
def haltReady (s : State) (part : Nat) (p : Partition) : Bool :=
  (s.warps.all fun w => s.partOf w.2 != part || w.2.splits.all fun x => x.2.stopped)
    && !(s.pend.any fun q => q.2.part == part && q.2.work.holdsHalt)
    && p.coreList.all fun c => (s.core c).change.isNone

/-- The copies of a partition that have not been made stop at a word boundary, after some words of the device's choice; the rest is
saved and made after the restore (R354). A copy that waits for a peer, or whose words meet an error, has made none. -/
def stopCopies (s : State) (part : Nat) : State :=
  (s.pend.filter fun q => q.2.part == part).foldl (fun s q => match q.2.work with
    | .copy c false =>
      let g := engineOf s part c.block c.opcode q.2.faults
      let n := Config.choice s.draws q.1 % (c.rest.length + 1)
      let x := runPairs s g c (c.rest.take n)
      if c.ran || !(copyMissing s g c).isEmpty || x.2.isSome then s
      else (setWork x.1 q.1 (.copy { c with made := c.made + n } false)).draw
    | _ => s) s

/-- What the swap does to the caches of a partition: the L1 is written back and dropped, the fetch caches invalidated, the
last-page registers cleared, stash lines written back (R22, R64, R67, R91, R355). A core held for a block that has not started
(R55) is placed on anew. -/
def swapCaches (s : State) (part : Nat) (p : Partition) : State :=
  { s with
    cores := s.cores.mapV fun i c => if p.coreList.contains i then { c with l1 := [], fcache := [], held := none } else c
    parts := s.parts.mapV fun i p => if i = part then { p with pages := [] } else p
    blocks := s.blocks.mapV fun _ b => if s.partOfBlock b = part then
        { b with windows := b.windows.mapV fun _ w => { w with owned := [] } } else b }

/-- HALT_COMPLETE (R354, R355): within 20 µs of the request, the live state goes to the shadow area, which a sealed partition
stores under key slot 0 (R386, R390), and the SWAPOUT is done. The model keeps the live state in place (DEDUCED, log 29). -/
def execHaltComplete (part : Nat) (s : State) : Host.Outcome State Fault Refusal :=
  match s.parts.get? part with
  | none => .next s
  | some p =>
    if p.halt = .halting ∧ haltReady s part p ∧ s.tsc ≤ s.kiln.haltAt + 20000 then
      .next (((swapCaches (stopCopies s part) part p).mapPart part fun p =>
        { p with halt := .swapped, shadow := some (p.key 0) }).answer 0 part)
    else .next s

/-- The splits of a partition go on. -/
def resumeWarps (s : State) (part : Nat) : State :=
  { s with warps := s.warps.mapV fun _ w => if s.partOf w = part then
      { w with splits := w.splits.mapV fun _ p => { p with stopped := false } } else w }

/-- HALT_TIMEOUT (R354, R357, R382, R385): a halt not complete within 20 µs is abandoned. -/
def execHaltTimeout (part : Nat) (s : State) : Host.Outcome State Fault Refusal :=
  match s.parts.get? part with
  | none => .next s
  | some p =>
    if p.halt = .halting ∧ s.kiln.haltAt + 20000 < s.tsc then
      let s1 := (resumeWarps s part).mapPart part fun p => { p with halt := .running }
      .next (((s1.countErr Source.kiln part 10 0).raise part 2).answer 6 part)
    else .next s

/-- SWAPIN (R354, R385, R397). -/
def execSwapin (arg0 : Half) (s : State) : Host.Outcome State Fault Refusal :=
  let p := argPart arg0
  .next (mailbox s (.swapin arg0) 4 [arg0] p fun s => match s.parts.get? p with
    | none => s.answer 2 p
    | some x =>
      if x.halt ≠ .swapped then s.answer 5 p
      else
        let s1 := (resumeWarps s p).mapPart p fun x => { x with halt := .running, shadow := none }
        let s2 := { s1 with cores := s1.cores.mapV fun i c =>
          if x.coreList.contains i then { c with evctl := [], evblk := [], evcnt := [], evnow := [] } else c }
        s2.answer 0 p)

/-- FWSTAGE (R385, R391, R392): an image that verifies is staged, and in recovery it is booted at once. -/
def execFwstage (arg0 arg1 : Half) (image : List Byte) (s : State) : Host.Outcome State Fault Refusal :=
  .next (mailbox s (.fwstage arg0 arg1 image) 8 [arg0, arg1, BitVec.ofNat 32 image.length] 0 fun s =>
    if !s.kiln.accepts image then s.answer 1 0
    else
      let s1 := { s with kiln := { s.kiln with staged := some image } }
      if s.kiln.recovery then bringUp s1 image else s1.answer 0 0)

/-! ## SPDM (R387, R388) -/

/-- A reply of the Kiln on a DOE instance. -/
def spdmReply (s : State) (bs : List Nat) : State :=
  { s with kiln := { s.kiln with reply := bs.map (BitVec.ofNat 8) } }

/-- ERROR with an error code (PRESUMED, log 30). -/
def spdmError (s : State) (code : Nat) : State := spdmReply s [0x13, 0x7F, code, 0]

/-- A reply with a response code and the bytes a derivation gives. -/
def spdmAnswer (s : State) (code what : Nat) (input : List Byte) (len : Nat) : State :=
  let s1 := spdmReply s [0x13, code, 0, 0]
  { s1 with kiln := { s1.kiln with reply := s1.kiln.reply ++ Config.derive what input len } }

/-- The session of an instance: stage 0 none, 1 key exchange done, 2 established, then the bytes of its secret. -/
def Kiln.session (k : Kiln) (inst : Nat) : List Nat := (k.doe.get? inst).getD [0]
/-- The stage of an instance's session. -/
def Kiln.stage (k : Kiln) (inst : Nat) : Nat := (k.session inst).headD 0
/-- The state with the session of an instance replaced. -/
def State.setSession (s : State) (inst : Nat) (x : List Nat) : State :=
  { s with kiln := { s.kiln with doe := s.kiln.doe.put inst x } }

/-- A request on one of the nine instances; others do not exist (R380). -/
def onInstance (s : State) (inst : Nat) (f : State) : Host.Outcome State Fault Refusal :=
  if inst < 9 ∧ s.kiln.phase = 7 then .next f else .next s

/-- GET_VERSION (R387). -/
def execGetVersion (inst : Nat) (s : State) : Host.Outcome State Fault Refusal :=
  onInstance s inst (spdmReply s [0x10, 0x04, 0, 0, 0, 1, 0, 0x13])

/-- GET_CAPABILITIES (R387): CERT, CHAL, MEAS with signatures, ENCRYPT, MAC and KEY_EX. -/
def execGetCapabilities (inst : Nat) (s : State) : Host.Outcome State Fault Refusal :=
  onInstance s inst (spdmReply s [0x13, 0x61, 0, 0, 0, 0, 0, 0, 0xD6, 0x02, 0, 0])

/-- The ALGORITHMS response (R387; its layout PRESUMED, log 30): of the algorithms the Kiln negotiates, those offered, SHA-256 for
hashes and measurements, SLH-DSA-SHA2-128s as an extended algorithm, ECDHE P-384, AES-256-GCM. -/
def algorithmsReply (x : Offer) : List Nat :=
  let tables := (if x.dhe then [2, 0x20, 0x10, 0] else []) ++ if x.aead then [3, 0x20, 0x02, 0] else []
  let ext := if x.asym then [0, 0, 1, 0] else []
  [0x13, 0x63, x.dhe.toNat + x.aead.toNat, 0, 36 + ext.length + tables.length, 0, x.hash.toNat, 0, 2 * x.hash.toNat, 0, 0, 0]
    ++ [0, 0, 0, 0, x.hash.toNat, 0, 0, 0] ++ List.replicate 12 0 ++ [x.asym.toNat, 0, 0, 0] ++ ext ++ tables

/-- NEGOTIATE_ALGORITHMS (R387): which of the listed algorithms the request offers; one that offers none gets InvalidRequest. -/
def execNegotiateAlgorithms (inst : Nat) (offered : Offer) (s : State) : Host.Outcome State Fault Refusal :=
  onInstance s inst (if offered = ⟨false, false, false, false⟩ then spdmError s 1 else spdmReply s (algorithmsReply offered))

/-- The device identity chain of certificate slot 0: free bytes (R387; DESIGN CHOICE, log 30). -/
def identityChain : List Byte := Config.derive 6 [] 1024

/-- GET_DIGESTS (R387): the digest of the chain in slot 0, under the negotiated hash. -/
def execGetDigests (inst : Nat) (s : State) : Host.Outcome State Fault Refusal :=
  onInstance s inst (spdmReply s ([0x13, 0x01, 0x01, 0x01] ++ (sha256 identityChain).map (·.toNat)))

/-- GET_CERTIFICATE (R387): slot 0 holds the chain, the other slots are empty. -/
def execGetCertificate (inst slot : Nat) (s : State) : Host.Outcome State Fault Refusal :=
  onInstance s inst (if slot = 0 then spdmReply s ([0x13, 0x02, 0, 0] ++ identityChain.map (·.toNat)) else spdmError s 1)

/-- CHALLENGE (R387). -/
def execChallenge (inst slot : Nat) (nonce : List Byte) (s : State) : Host.Outcome State Fault Refusal :=
  onInstance s inst (if slot = 0 then spdmAnswer s 0x03 7 nonce 128 else spdmError s 1)

/-- Measurement block 4: the configuration a partition had at CREATE (R388). -/
def Partition.configBytes (p : Partition) (part pkg : Nat) : List Byte :=
  leBytes 4 (p.count * 16 + p.first) ++ leBytes 4 (p.asidCount * 2 ^ 16 + p.asidFirst) ++ leBytes 4 0x00081000
    ++ leBytes 4 1 ++ leBytes 4 (part * 2 ^ 10 + pkg)

/-- The occupancy mask of the key slots, and the sealed flag (R388). -/
def Partition.keyBytes (p : Partition) : List Byte :=
  leBytes 1 p.sealed.toNat
    ++ leBytes 8 ((List.range 64).foldl (fun m i => m + (if (p.keys.get? i).isSome then 2 ^ i else 0)) 0)

/-- A measurement block of an instance (R388); `none` where the instance has no such block. -/
def measurement (s : State) (inst index : Nat) : Option (List Byte) :=
  match index with
  | 1 => some s.kiln.romHash
  | 2 => some s.kiln.fwHash
  | 3 => some (leBytes 4 s.kiln.fwVersion.toNat)
  | 4 => if inst = 0 then none else (s.parts.get? (inst - 1)).map fun p => p.configBytes (inst - 1) s.fab.pkg
  | 5 => if inst = 0 then none else (s.parts.get? (inst - 1)).map Partition.keyBytes
  | _ => none

/-- GET_MEASUREMENTS (R388): the block, then a signature over it and the nonce. -/
def execGetMeasurements (inst index : Nat) (nonce : List Byte) (s : State) : Host.Outcome State Fault Refusal :=
  onInstance s inst (match measurement s inst index with
    | some bs =>
      let s1 := spdmReply s [0x13, 0x60, 0, 0]
      { s1 with kiln := { s1.kiln with reply := s1.kiln.reply ++ bs ++ Config.derive 8 (bs ++ nonce) 64 } }
    | none => spdmError s 1)

/-- KEY_EXCHANGE (R387): opens a session, of which an instance holds at most one. -/
def execKeyExchange (inst : Nat) (exchange : List Byte) (s : State) : Host.Outcome State Fault Refusal :=
  onInstance s inst (if s.kiln.stage inst ≠ 0 then spdmError s 0x0A
    else spdmAnswer (s.setSession inst (1 :: exchange.map (·.toNat))) 0x64 9 exchange 128)

/-- FINISH (R387): completes session establishment. -/
def execFinish (inst : Nat) (verify : List Byte) (s : State) : Host.Outcome State Fault Refusal :=
  onInstance s inst (if s.kiln.stage inst ≠ 1 then spdmError s 1
    else if Config.verifies 1 verify then
      spdmAnswer (s.setSession inst (2 :: (s.kiln.session inst).drop 1)) 0x65 10 verify 32
    else spdmError (s.setSession inst [0]) 6)

/-- END_SESSION (R387, R389): the session ends, keys survive. -/
def execEndSession (inst : Nat) (s : State) : Host.Outcome State Fault Refusal :=
  onInstance s inst (if s.kiln.stage inst = 0 then spdmError s 1
    else spdmReply (s.setSession inst [0]) [0x13, 0x6C, 0, 0])

/-- Any other SPDM request (R387). -/
def execUnsupportedRequest (inst : Nat) (s : State) : Host.Outcome State Fault Refusal :=
  onInstance s inst (spdmError s 7)

/-! ## Key records (R389) -/

/-- The one-byte reply to a key record. -/
def keyReply (s : State) (code : Nat) : State := spdmReply s [code]

/-- The binding a record must carry (R389). -/
def bindingOf (s : State) (inst : Nat) : List Byte :=
  sha256 ((measurement s inst 2).getD [] ++ (measurement s inst 4).getD [])

/-- Whether a record is well formed: operation, slot, reserved bytes, length. -/
def keyRecordOk (record : List Byte) (op len : Nat) : Bool :=
  let slot := (record.getD 1 0).toNat
  record.length == len && (record.getD 0 0).toNat == op && record.getD 2 0 == 0 && record.getD 3 0 == 0
    && (if op = 1 then slot == 0 else decide (1 ≤ slot ∧ slot ≤ 63))

/-- A key record within an established session: the checks common to the three operations, then its own. -/
def keyRecord (s : State) (inst op len : Nat) (record : List Byte) (body : Nat → Partition → Nat → State) :
    Host.Outcome State Fault Refusal :=
  if s.kiln.stage inst ≠ 2 ∨ 9 ≤ inst then .next s
  else match (if inst = 0 then none else s.parts.get? (inst - 1)) with
    | none => .next (keyReply s 1)
    | some p =>
      if !keyRecordOk record op len then .next (keyReply s 1)
      else if (record.drop 4).take 32 ≠ bindingOf s inst then .next (keyReply s 2)
      else .next (body (inst - 1) p (record.getD 1 0).toNat)

/-- The label of slot 0's derivation: the bytes of "L8 slot0". -/
def slot0Label : List Byte := [0x4C, 0x38, 0x20, 0x73, 0x6C, 0x6F, 0x74, 0x30]

/-- The export master secret of a session (PRESUMED, log 30). -/
def sessionSecret (k : Kiln) (inst : Nat) : List Byte :=
  Config.derive 3 (((k.session inst).drop 1).map (BitVec.ofNat 8)) 32

/-- SEAL (R389): the partition is sealed and slot 0 derived. What the launch slots then hold is not stated: the frame's bytes stay,
and the device reads them decrypted under slot 0 (R390; DESIGN CHOICE, log 16). -/
def execSeal (inst : Nat) (record : List Byte) (s : State) : Host.Outcome State Fault Refusal :=
  keyRecord s inst 1 36 record fun part p _ =>
    if p.launchedOnce then keyReply s 3
    else keyReply (s.mapPart part fun p =>
      { p with sealed := true, keys := p.keys.put 0 (hkdfExpand64 (sessionSecret s.kiln inst) slot0Label) }) 0

/-- KEYLOAD (R389). -/
def execKeyload (inst : Nat) (record : List Byte) (s : State) : Host.Outcome State Fault Refusal :=
  keyRecord s inst 2 100 record fun part p slot =>
    if !p.sealed then keyReply s 3
    else if (p.keys.get? slot).isSome then keyReply s 4
    else keyReply (s.mapPart part fun p => { p with keys := p.keys.put slot (record.drop 36) }) 0

/-- KEYDROP (R389). -/
def execKeydrop (inst : Nat) (record : List Byte) (s : State) : Host.Outcome State Fault Refusal :=
  keyRecord s inst 3 36 record fun part p slot =>
    if !p.sealed then keyReply s 3
    else if s.kernels.any fun k => k.2.part == part then keyReply s 5
    else keyReply (s.mapPart part fun p => { p with keys := p.keys.del slot }) 0

/-! ## The clock (R396) -/

/-- CLOCK_STEP_CHANGE (R396): one step of 50 MHz between 700 MHz and 1.4 GHz; down while a limit requires it, up once
both allow; or no step, while the limits that keep clk down change. -/
def execClockStepChange (clk : Nat) (therm power : Bool) (s : State) : Host.Outcome State Fault Refusal :=
  if (clk + 1 = s.pwrClk ∧ 14 ≤ clk ∧ (therm || power)) ∨ (clk = s.pwrClk + 1 ∧ clk ≤ 28 ∧ !(therm || power))
      ∨ (clk = s.pwrClk ∧ (clk < 28 ∨ !(therm || power))) then
    .next { s with pwrClk := clk, pwrTherm := therm, pwrPower := power }
  else .next s

end Sys2Proof.Machine
end

