-- ==== Sys2Proof/Machine/HostLink.lean ====
section
/-! DEFINITION. Host accesses: CXL.mem to device memory (R35, R380, R381), and the BAR0 window of the mailbox and the
die counters (R384, R398), which the model places at 2^40 (DESIGN CHOICE, log 33). -/

namespace Sys2Proof.Machine

/-! ## CXL.mem -/

/-- The partition that holds a device physical address (R380). -/
def partAt (s : State) (pa : Nat) : Option (Nat × Partition) :=
  (s.kiln.quarters.get? (quarterOf pa)).bind fun i => (s.parts.get? i).map fun p => (i, p)

/-- Whether the host may write a byte: not a status word of the launch frame, nor the frame past its slots (R35, R156). -/
def hostWritable (p : Partition) (pa : Nat) : Bool :=
  let o := pa - p.frame
  if p.frame ≤ pa ∧ o < 65536 then decide (o < 8192) && !decide (60 ≤ o % 128 ∧ o % 128 < 64) else true

/-- Copies of the line of an address recalled before the home answers the host (R381). -/
def hostRecall (s : State) (part pa : Nat) (write : Bool) : State := homeTouch s part none (.phys pa none) write

/-- The launch slots whose arm word a write covers (R157). A write of part of an arm word, of which no rule speaks, arms nothing
(DESIGN CHOICE, log 33). -/
def armedSlots (p : Partition) (pa n : Nat) : List Nat :=
  (List.range 64).filter fun i => decide (pa ≤ p.frame + 128 * i + 56 ∧ p.frame + 128 * i + 60 ≤ pa + n)

/-- The arm word of a slot as the device reads it. -/
def armWord (s : State) (p : Partition) (slot : Nat) : Half :=
  BitVec.ofNat 32 (leNat (plainBytes s (p.key 0) (p.frame + 128 * slot + 56) 4))

/-- A host write of bytes of one line (R381): stored as it is, also in a sealed partition (R390); the home's
observation of an arm word with go = 1 comes next (R157). -/
def hostWrite (s : State) (pa : Nat) (bs : List Byte) : State :=
  match partAt s pa with
  | none => s
  | some (part, p) =>
    let cells := (cellsFrom pa bs).filter fun c => hostWritable p c.1
    let s1 := writeCells (hostRecall s part pa true) none cells
    let arms := ((armedSlots p pa bs.length).map fun i => (i, armWord s1 p i)).filter fun x => x.2.getLsbD 0
    { s1 with agenda := (arms.map fun x => Turn.event (.launchSlotArm part x.1 x.2)) ++ s1.agenda }

/-- A byte the host reads; a byte of a lost line has no stated value (R25; DESIGN CHOICE, log 33). -/
def hostByte (s : State) (p : Partition) (pa : Nat) : Byte :=
  let o := pa - p.frame
  if p.frame ≤ pa ∧ 8192 ≤ o ∧ o < 65536 then 0
  else if s.lost.contains (pa / 128) then BitVec.ofNat 8 (Config.choice s.draws pa)
  else s.mem.num pa

/-- A host read of bytes of one line: all ones where no partition holds the quarter (R380, R381, R390). -/
def hostRead (s : State) (pa n : Nat) : State :=
  match partAt s pa with
  | none => { s with hostOut := List.replicate n 0xFF#8 }
  | some (part, p) =>
    let s1 := hostRecall s part pa false
    { s1 with hostOut := (List.range n).map fun i => hostByte s1 p (pa + i) }.draw

/-- The line of an address by its number in the home directory: a line of memory, or of the tile whose storage it is in (R57). -/
def hostLine (part : Nat) (p : Partition) (pa : Nat) : Nat :=
  ((p.tileAt (pa / 128)).bind fun x => ((p.regions.get? x.1).bind fun g => g.tiles.get? x.2).bind fun base =>
    homeLine part (.tile x.1 x.2 (pa - base) none)).getD (pa / 128)

/-- What a host access needs of peers first: copies of its line back (R58, R381). -/
def hostWants (s : State) (pa : Nat) (write : Bool) : List Want :=
  match partAt s pa with
  | some (part, p) => if s.fab.heldAway (hostLine part p pa) write then [.home (hostLine part p pa) write] else []
  | none => []

/-- A host access to device memory, or its wait for peers (R58, R381). -/
def hostAccess (s : State) (i : Instr) (pa : Nat) (write : Bool) (body : State → State) : State :=
  let s1 := { s with hostWait := s.hostWait.erase i }
  match hostWants s1 pa write with
  | [] => body s1
  | ws => askAll { s1 with hostWait := s1.hostWait ++ [i] } ws

/-! ## The BAR0 window -/

/-- Where the model places the window of BAR0 among host addresses (DESIGN CHOICE, log 33). -/
def bar0 : Nat := 2 ^ 40

/-- The counter a window offset names, and whether it is the selector (R398). -/
def dieCounter (o : Nat) : Option (Nat × Bool) :=
  if 0x1000 ≤ o ∧ o < 0x2000 ∧ o % 0x400 < 128 ∧ o % 4 = 0 then
    some ((o - 0x1000) / 0x400 * 16 + o % 0x400 / 8, o % 8 == 0)
  else none

/-- The command that a word written to mbcmd starts, with the operands as they stand; FWSTAGE reads its image from host memory, so
it is the event `fwstage` that brings it. -/
def Kiln.command (k : Kiln) (c : Nat) : Option Instr :=
  let a := fun i => k.mbarg.getD i 0
  match c with
  | 1 => some (.create (a 0) (a 1))
  | 2 => some (.destroy (a 0))
  | 3 => some (.swapout (a 0))
  | 4 => some (.swapin (a 0))
  | _ => none

/-- A write to mbcmd: it starts the command while none runs, and busy is 1 until the Kiln has answered (R384, R385). -/
def startMailbox (s : State) (c : Nat) : State :=
  if s.kiln.busy then s
  else
    let s1 := { s with kiln := { s.kiln with mbcmd := BitVec.ofNat 32 c, busy := true, begun := false,
                                             latched := s.kiln.command c } }
    match s.kiln.command c with
    | some i => { s1 with agenda := s1.agenda ++ [Turn.event i] }
    | none => if c = 8 then s1 else { s1 with kiln := { s1.kiln with begun := true } }.answer 1 (argPart (s.kiln.mbarg.getD 0 0))

/-- A word written to the window: a command, an operand, a selector (R384, R398). -/
def barWrite (s : State) (o : Nat) (x : Half) : State :=
  if o = 0 then startMailbox s (x.toNat % 2 ^ 8)
  else if o = 4 ∨ o = 8 ∨ o = 12 ∨ o = 16 then
    { s with kiln := { s.kiln with mbarg := s.kiln.mbarg.set (o / 4 - 1) x } }
  else match dieCounter o with
    | some (k, true) => { s with dieSel := s.dieSel.setNum k (x &&& 0x80000FFF#32) }
    | _ => s

/-- mbstat (R384). -/
def Kiln.mbstat (k : Kiln) : Half := BitVec.ofNat 32 (k.busy.toNat * 2 ^ 31 + k.code % 2 ^ 8 * 2 ^ 8 + k.part % 2 ^ 8)

/-- A word read from the window. -/
def barRead (s : State) (o : Nat) : Half :=
  if o = 0 then s.kiln.mbcmd
  else if o = 4 ∨ o = 8 ∨ o = 12 ∨ o = 16 then s.kiln.mbarg.getD (o / 4 - 1) 0
  else if o = 0x14 then s.kiln.mbstat
  else match dieCounter o with
    | some (k, true) => s.dieSel.num k
    | some (k, false) => s.dieCnt.num k
    | none => 0

/-- A die counter read through the window is a counter snapshot, stamped as a record (R26; DESIGN CHOICE, log 35). -/
def snapshot (s : State) (o : Nat) : State :=
  match dieCounter o with
  | some (k, false) => s.record Source.kiln 770 0 (BitVec.ofNat 64 k) ((s.dieCnt.num k).setWidth 64)
  | _ => s

/-! ## The two events -/

/-- Whether bytes lie in one line of the 384 GiB of HDM (R380). -/
def inHdm (a n : Nat) : Bool := decide (0 < n ∧ a % 128 + n ≤ 128 ∧ a < 16 * quarterBytes)

/-- HOST_CXL_WRITE (R380, R381, R157, R384). -/
def execHostCxlWrite (addr : Word) (data : List Byte) (s : State) : Host.Outcome State Fault Refusal :=
  let a := addr.toNat
  if inHdm a data.length then .next (hostAccess s (.hostCxlWrite addr data) a true fun s => hostWrite s a data)
  else if bar0 ≤ a ∧ a < bar0 + 65536 ∧ a % 4 = 0 ∧ data.length = 4 then
    .next (barWrite s (a - bar0) (BitVec.ofNat 32 (leNat data)))
  else .next s

/-- HOST_CXL_READ (R380, R381, R384, R398). -/
def execHostCxlRead (addr : Word) (len : Nat) (s : State) : Host.Outcome State Fault Refusal :=
  let a := addr.toNat
  if inHdm a len then .next (hostAccess s (.hostCxlRead addr len) a false fun s => hostRead s a len)
  else if bar0 ≤ a ∧ a < bar0 + 65536 ∧ a % 4 = 0 ∧ len = 4 then
    .next { snapshot s (a - bar0) with hostOut := leBytes 4 (barRead s (a - bar0)).toNat }
  else .next s

end Sys2Proof.Machine
end

