-- ==== Sys2Proof/Machine/Sched.lean ====
section
/-! DEFINITION. What moves next: time (R396, R399), the issue choice of a scheduler (R137, R167), the fetch and decoding
of a word with the checks that come before its instruction (R149, R192, R211), and the device's own steps (DESIGN CHOICE, log 1). -/

namespace Sys2Proof.Machine

/-- What the next step is: an instruction or event run in a state, or a state in which nothing more happens. -/
inductive Move where
  | run (i : Instr) (s : State)
  | rest (s : State)

/-! ## Time (DESIGN CHOICE, log 3) -/

/-- Ready splits and splits that wait on flags, with their warps. -/
def allSplits (s : State) : List (Nat × Warp × Nat × Split) :=
  s.warps.flatMap fun w => w.2.splits.map fun p => (w.1, w.2, p.1, p.2)

/-- The ready splits of the machine. -/
def readySplits (s : State) : List (Nat × Warp × Nat × Split) :=
  (allSplits s).filter fun x => splitReady s x.1 x.2.1 x.2.2.2

/-- The clk that pass with the next step. -/
def State.stepTime (s : State) : Nat := Config.stepClk s.draws

/-- Whether a split waits on flags that are not all set (R397). -/
def flagsStall (s : State) (x : Nat × Warp × Nat × Split) : Bool := x.2.2.2.wait == .flags && !waitOver s x.1 x.2.1 x.2.2.2

/-- The clk of cores and of stalls on wait masks counted (R397). -/
def countClk (s : State) (d : Nat) : State :=
  let s1 := { s with cores := s.cores.mapV fun _ c => if c.evctl.isEmpty then c else c.countEvent s.clk 1 d none }
  ((allSplits s).filter (flagsStall s)).foldl
    (fun s x => s.event x.2.1.core (some x.2.1.block) 0x0A d) s1

/-- Whether a split has issued in the present clk. -/
def issuedNow (s : State) (uid i : Nat) (w : Warp) : Bool :=
  s.issued.get? w.port == some s.clk && s.owner.get? w.port == some (splitKey uid i)

/-- The clk of `d` in which a ready split does not issue: all but the one in which it has (R167). -/
def State.unissued (s : State) (x : Nat × Warp × Nat × Split) (d : Nat) : Nat :=
  if issuedNow s x.1 x.2.2.1 x.2.1 then d - 1 else d

/-- Every split of the machine changed at once. -/
def State.mapSplits (s : State) (f : Nat → Warp → Nat → Split → Split) : State :=
  { s with warps := s.warps.mapV fun n w => { w with splits := w.splits.mapV fun i p => f n w i p } }

/-- The clk of ready splits that do not issue counted, as events of their cores (R397). -/
def countReady (s : State) (d : Nat) : State :=
  (readySplits s).foldl (fun t x => t.event x.2.1.core (some x.2.1.block) 9 (s.unissued x d)) s

/-- What `d` clk count in a split: those in which it was ready and did not issue (R167), and those for which a YIELD keeps it
from being ready (R306). -/
def State.passSplit (s : State) (d uid : Nat) (w : Warp) (i : Nat) (p : Split) : Split :=
  { p with unchosen := if splitReady s uid w p then p.unchosen + s.unissued (uid, w, i, p) d else p.unchosen
           yields := p.yields.map fun n => n - d }

/-- The parts of a ns in which `tscRem` counts: their number is divided by every clk of R396, 14 to 28 steps of 50 MHz. -/
def tscParts : Nat := 80313433200

/-- Some clk pass: clk, the time-stamp at 20/clk ns a clk, what splits count (R167, R306, R396, R399). -/
def passTime (s : State) (d : Nat) : State :=
  let acc := s.tscRem + 20 * d * (tscParts / s.pwrClk)
  { (countReady (countClk s d) d).mapSplits (s.passSplit d) with
    clk := s.clk + d
    tsc := s.tsc + acc / tscParts
    tscRem := acc % tscParts }

/-- The time of a step passes; lines that the LLC has given up leave the package. -/
def tick (s : State) : State := { passTime (sweepFabric s) s.stepTime with draws := s.draws + 1 }

/-! ## The issue choice (R137, R167) -/

/-- Memory operations and engine commands of a split that have not completed (R167; DEDUCED, log 23). -/
def outstanding (s : State) (uid : Nat) (mask : Lanes) : Nat :=
  (s.pend.filter fun q => q.2.work.inFlight && q.2.warps.any fun x => x.1 == uid && x.2 &&& mask != 0).length

/-- The key by which R167 orders ready splits; the smallest is chosen. -/
def choiceKey (s : State) (x : Nat × Warp × Nat × Split) : List Nat :=
  let place := [2 ^ 32 - x.2.2.2.unchosen, x.2.1.slot, Lanes.lowest x.2.2.2.mask]
  if 256 ≤ x.2.2.2.unchosen then 0 :: place
  else [1, 255 - x.2.1.prio, outstanding s x.1 x.2.2.2.mask, x.2.1.startClk] ++ place

/-- Lexicographic order of keys. -/
def keyLt : List Nat → List Nat → Bool
  | _, [] => false
  | [], _ :: _ => true
  | a :: as, b :: bs => decide (a < b) || (a == b && keyLt as bs)

/-- The split R167 chooses among ready ones. -/
def bestSplit (s : State) : List (Nat × Warp × Nat × Split) → Option (Nat × Warp × Nat × Split)
  | [] => none
  | [x] => some x
  | x :: r => match bestSplit s r with
    | some y => if keyLt (choiceKey s y) (choiceKey s x) then some y else some x
    | none => some x

/-- The split that holds a scheduler within its clause, if it is ready (R167). -/
def ownerSplit (s : State) (port : Nat) (cands : List (Nat × Warp × Nat × Split)) : Option (Nat × Warp × Nat × Split) :=
  match s.owner.get? port with
  | none => none
  | some k => cands.find? fun x => splitKey x.1 x.2.2.1 == k && x.2.2.2.idx != 0 && x.2.2.2.wait == .none

/-- The splits a scheduler may choose: ready, with the header's wait over. -/
def candidates (s : State) : List (Nat × Warp × Nat × Split) := (readySplits s).filter fun x => x.2.2.2.idx != 0

/-- The choice of a scheduler. -/
def choose (s : State) (port : Nat) : Option (Nat × Warp × Nat × Split) :=
  let cands := (candidates s).filter fun x => x.2.1.port == port
  (ownerSplit s port cands).orElse fun _ => bestSplit s cands

/-- The nearest scheduler with a ready split, from the one that is next. -/
def nearestPort (s : State) : Option Nat :=
  let far := fun (p : Nat) => (p + 1024 - s.port % 1024) % 1024
  ((candidates s).map fun x => x.2.1.port).foldl (fun b p => match b with
    | none => some p
    | some q => if far p < far q then some p else some q) none

/-! ## The word a split is at (R192, R211) -/

/-- The first of steps 3 to 7 of R211 that a word which is no instruction fails: code, tinfo0-tinfo3. -/
def rejectTrap (w : Word) (e : Reject) (x : Warp) (p : Split) : Nat × Half × Half × Half × Half :=
  let r := Raw.of w.toNat
  let hdr := Header.of p.header
  let noFlag := match Flag.of r.flag with
    | some f => f != .none && flagNumber hdr f == 15
    | none => true
  let sr := r.m % 2 ^ 12
  let super := r.op == 0x119 || ((r.op == 0x11A || r.op == 0x11B) && srKnown sr && !srUser sr)
  if endsClause r.op && p.idx != hdr.count then (Code.illegalClause, lo32 w, hi32 w, 0, 0)
  else if e == .form || noFlag then (Code.illegalForm, lo32 w, hi32 w, 0, 0)
  else if e == .scope || (Scope.of r.scope == .set && x.setId.isNone) then
    (Code.illegalScope, BitVec.ofNat 32 r.scope, BitVec.ofNat 32 r.op, 0, 0)
  else if super && p.saved.isNone then
    (Code.privilege, BitVec.ofNat 32 r.op, BitVec.ofNat 32 (if r.op = 0x119 then 0 else sr), 0, 0)
  else match e with
    | .operand v f => (Code.illegalOperand, BitVec.ofNat 32 v, 0, 0xFFFFFFFF, BitVec.ofNat 32 f)
    | _ => (Code.illegalForm, lo32 w, hi32 w, 0, 0)

/-- The word at a split fetched and decoded (R192, R211): a fetch fault or a word that is no instruction traps. -/
def wordMove (s : State) (uid i : Nat) (w : Warp) (p : Split) : Move :=
  match fetchWord s (s.partOf w) (s.asidOf w) w.block p.at_ with
  | .error c => .rest (takeTrap s [soloPart uid i p] .lane (fetchTrap c p.at_ w p))
  | .ok (s1, x) => match decode x with
    | .ok ins => .run ins s1
    | .error e =>
      let t := rejectTrap x e w p
      .rest (takeWordTrap s1 uid i w p t.1 t.2.1 t.2.2.1 t.2.2.2.1 t.2.2.2.2)

/-- Whether the kernel of a warp has aborted. -/
def State.warpAborted (s : State) (w : Warp) : Bool := (s.kernelOf w).elim true (·.aborted)

/-- Whether the partition of a warp halts. -/
def State.warpHalting (s : State) (w : Warp) : Bool := haltRequested s (s.partOf w)

/-- What a chosen split does: it ends with an aborted kernel (R352), is pre-empted at a safe point (R354), fetches its
header, or, after the incumbent check (R149), goes to its word. -/
def splitMove (s : State) (uid i : Nat) (w : Warp) (p : Split) : Move :=
  if s.warpAborted w then .rest (settle (afterWait (endLanes s uid i p.mask) w.block))
  else if s.warpHalting w && p.atSafePoint then .run (.warpPreempt uid) s
  else if p.idx = 0 then .run .clauseHeaderFetch s
  else
    let dead := dominatedLanes s w p
    if dead = 0 then wordMove s uid i w p
    else
      let s1 := afterWait (cancelLanes s uid i dead) w.block
      match (s1.warps.get? uid).bind fun w1 => (w1.splits.get? i).map fun p1 => (w1, p1) with
      | some (w1, p1) => if p.mask &&& ~~~dead = 0 then .rest (settle s1) else wordMove s1 uid i w1 p1
      | none => .rest (settle s1)

/-- Whether a word of a split has been tried and has not issued. -/
def Wait.tried (w : Wait) : Bool := w.issued || match w with
  | .rendezvous _ => true
  | _ => false

/-- Whether the split that holds a scheduler waits in the word it was chosen for, which has not issued. -/
def ownerWaits (s : State) (port : Nat) : Bool :=
  (allSplits s).any fun x => x.2.1.port == port && s.owner.get? port == some (splitKey x.1 x.2.2.1) && x.2.2.2.wait.tried

/-- The state in which a scheduler may choose: it issues at most one instruction in a clk (R15, R167). -/
def freshClk (s : State) (port : Nat) : State :=
  if s.issued.get? port = some s.clk ∧ !ownerWaits s port then passTime s 1 else s

/-- A split at a header that its scheduler looks at next: that uses no clk of the scheduler (R167, R192). -/
def headerSplit (s : State) : Option (Nat × Warp × Nat × Split) :=
  (allSplits s).find? fun x => headerReady s x.1 x.2.1 x.2.2.2

/-- A header looked at. -/
def headerMove (s : State) (x : Nat × Warp × Nat × Split) : Move :=
  splitMove { s with act := (x.1, x.2.2.1) } x.1 x.2.2.1 x.2.1 x.2.2.2

/-- A scheduler issues. -/
def portMove (s : State) (port : Nat) : Move :=
  let s1 := { freshClk s port with port := (port + 1) % 1024 }
  match choose s1 port with
  | none => .rest s1
  | some (uid, w, i, p) =>
    splitMove { s1 with act := (uid, i), owner := s1.owner.put port (splitKey uid i), issued := s1.issued.put port s1.clk }
      uid i w p

/-! ## The device's own steps -/

/-- The event that may complete a command in flight. -/
def completionOf (id : Nat) (q : Pend) : Option Instr :=
  match q.work with
  | .result .load _ => some (.xswapCompletion id)
  | .result .exist _ => some (.existenceCompletion id)
  | .result .kread _ => some (.kreadCompletion id)
  | .result (.matrix _ _) _ => some (.matrixCommandCompletion id)
  | .atom _ _ _ => some (.atomPerform id)
  | .xswap _ _ _ _ _ _ _ => some (.xswapCompletion id)
  | .kupd k f32 ups _ => some (.incumbentUpdateArrival q.part k f32 ups)
  | .launch _ _ _ _ => some (.launchCompletion id)
  | .poolset _ _ _ => none
  | .unstash _ _ => some (.unstashCompletion id)
  | .copy c w => some (if w && !(c.queue.isNone) then .cpyQueueSlotTake id else .copyCommandCompletion id)
  | .crel _ => some (.copyCommandCompletion id)
  | .binc _ _ _ _ => some (.binCommandCompletion id)
  | .binp _ => some (.binCommandCompletion id)
  | .fetch _ _ _ _ _ _ _ => some (.fetchCompletion id)
  | .tjac _ _ _ _ _ _ _ _ _ _ _ _ _ _ _ => some (.tjacSweepEnd id)
  | .inval _ => some (.invalidationComplete id)
  | .reload _ _ => some (.descriptorReloadComplete id)
  | .load c => some (if c.exist then .existenceCompletion id else .loadCompletion id)

/-- Events of the cores of a partition: copies of incumbents, split changes, packing. -/
def coreEvents (s : State) (core : Nat) : List Instr :=
  let c := s.core core
  (if c.bcast.isEmpty then [] else [.incumbentCopyUpdate core])
    ++ (match c.change with
      | some ch => if ch.state = 1 then [.splitDrainEnd core] else if ch.state = 2 then [.splitRelocateEnd core]
        else if ch.state = 3 then [.splitRemapEnd core] else []
      | none => [])

/-- Whether a partition has spawn records to pack. -/
def State.spawnsAny (s : State) (part : Nat) : Bool := s.kernels.any fun k => k.2.part == part && s.spawnsOf k.1

/-- Events of a partition: placement, packing, retirement, and the steps of a halt. -/
def partEvents (s : State) (part : Nat) (p : Partition) : List Instr :=
  [.blockPlacement part]
    ++ ((p.coreList.filter fun c => s.spawnsAny part || (s.core c).held.elim false (·.2)).map fun c => .packWarp c)
    ++ (s.kernels.filter fun k => k.2.part == part && k.2.det).map (fun k => .blockRetire k.1)
    ++ (if p.halt = .halting then
        (s.warps.filter fun w => s.partOf w.2 == part).map (fun w => .warpPreempt w.1)
          ++ [.haltComplete part, .haltTimeout part]
      else [])

/-- Copies that wait for no slot any more, because their kernel has aborted (R352; DEDUCED, log 26). -/
def abortedCopies (s : State) : List Instr :=
  s.pend.filterMap fun q => match q.2.work with
    | .copy c true => if slotNever s c then some (.copyCommandCompletion q.1) else none
    | _ => none

/-- Events of the fabric: messages to be sent again, and those that were not delivered within 50 µs. -/
def fabricEvents (s : State) : List Instr :=
  ((List.range s.fab.retries.length).map fun n => .remoteResend n)
    ++ ((s.fab.unacked ++ s.fab.waiting).filter fun x => decide (x.2.sent + 50000 ≤ s.tsc)).map fun x =>
      .fabricDeliveryTimeout x.2.tag x.2.writes

/-- Events of commands in flight, of partitions that run (R355). -/
def pendEvents (s : State) : List Instr :=
  s.pend.filterMap fun q => if partRuns s q.2.part then completionOf q.1 q.2 else none

/-- The steps the device may take on its own. -/
def deviceEvents (s : State) : List Instr :=
  (if s.kiln.phase = 1 ∧ !s.kiln.recovery then [.packageReset] else [])
    ++ (((allSplits s).filter fun x => x.2.2.2.yields == some 0).map fun x => .yieldExpiry x.1 x.2.2.1)
    ++ (((readySplits s).filter fun x => decide (256 ≤ x.2.2.2.unchosen)).map fun x => .splitAged x.1 x.2.2.1)
    ++ pendEvents s ++ abortedCopies s ++ s.hostWait
    ++ (s.cores.flatMap fun c => coreEvents s c.1) ++ (s.parts.flatMap fun p => partEvents s p.1 p.2) ++ fabricEvents s

/-- Waits of every warp looked at again: reconvergence and mismatches (R136, R139). -/
def scanWaits (s : State) : State := settle (s.blocks.keys.foldl afterWait s)

/-- One of the device's own steps, each in its turn; at least one clk passes. -/
def idleMove (t : State) : Move :=
  let s := passTime t 1
  let es := deviceEvents s
  match es[s.draws / 8 % (es.length + 1)]? with
  | some e => .run e s
  | none => .rest (scanWaits s)

/-! ## The next move -/

/-- Whether an entry of the agenda is an event; a word's instruction is issued by its split alone. -/
def Instr.isEvent (i : Instr) : Bool := i.head.isNone && match i with
  | .illegalOpcode _ => false
  | _ => true

/-- WHAT MOVES NEXT (DESIGN CHOICE, log 1): the agenda's first entry; else one of the device's own steps in every eighth step and
where no split is ready; else a split at a header, or the next scheduler with a ready split. -/
def nextMove (s : State) : Move :=
  match s.agenda with
  | .event i :: r =>
    let s1 := tick { s with agenda := r }
    if Instr.isEvent i then .run i s1 else .rest s1
  | .port n :: r => portMove (tick { s with agenda := r }) n
  | [] =>
    let s1 := tick s
    if s.draws % 8 = 7 then idleMove s1
    else match headerSplit s1, nearestPort s1 with
      | some x, _ => headerMove s1 x
      | none, some n => portMove s1 n
      | none, none => idleMove s1

/-- ILLEGAL_OPCODE (R209, R211, R349): the acting split traps at a word whose opcode is unassigned. -/
def execIllegalOpcode (x : Word) (s : State) : Host.Outcome State Fault Refusal :=
  match (s.warps.get? s.act.1).bind fun w => (w.splits.get? s.act.2).map fun p => (w, p) with
  | some (w, p) =>
    if (rowOf (Raw.of x.toNat).op).isNone then
      .next (takeWordTrap s s.act.1 s.act.2 w p Code.illegalOpcode (lo32 x) (hi32 x) 0 0)
    else .next s
  | none => .next s

end Sys2Proof.Machine
end

