-- ==== Sys2Proof/Machine/Setup.lean ====
section
/-! DEFINITION. A word placed where the next step fetches it: what a loader, CREATE and a launch would have set up, and a
clause whose header has been fetched (DEDUCED, log 5). -/

namespace Sys2Proof.Machine

/-- The virtual address of the clause header. -/
def textVa : Word := 0x40000000000#64
/-- The physical address of the text page: the frame after the launch frame of partition 0. -/
def textPa : Nat := 65536

/-- The leaf that maps the text page: valid, leaf, read, write, execute, accessed, dirty (R88). -/
def textLeaf : Word := BitVec.ofNat 64 (textPa / 65536 * 2 ^ 24 + 0x3E3)

/-- The clause header: one instruction, flag A = c0, flag B = c1 (R191). -/
def textHeader : Word := 0x2000010000000000#64

/-- The kernel of the placed word. -/
def setupKernel : Kernel where
  part := 0
  asid := 0
  entry := textVa
  gx := 1
  gy := 1
  gz := 1
  scratch := 65536
  pool := 8
  numver := 1
  det := false
  irq := false
  prio := 0
  prereq := []
  gblk := 0
  tiles := 16
  peak := 192
  warps := 1
  cwa := 0
  affinity := 0
  args := []
  depth := 0
  parent := none
  slot := none
  handle := none
  tag := 0
  order := 0
  state := .running
  nextBid := 1
  started := 1
  liveBlocks := [1]
  aborted := false
  tokenRank := 0
  ended := []
  retired := 0
  lkey := []

/-- The split at the placed word. -/
def setupSplit : Split := { Split.start textVa allLanes with idx := 1, header := textHeader }

/-- The warp of the placed word. -/
def setupWarp (s : State) : Warp :=
  { Warp.start setupKernel 0 0 1 0 s.clk textVa allLanes with splits := [(0, setupSplit)] }

/-- The state with a word placed: partition 0 with its text page mapped, one block of one warp on core 0, and the turn
given to that core's first scheduler. -/
def placeWord (s : State) (w : Nat) : State :=
  let p := Partition.start 0 2 0 1
  let text := cellsFrom textPa (leBytes 8 textHeader.toNat ++ leBytes 8 w)
  { s with
    mem := setCells s.mem text
    lost := s.lost.filter fun l => l != textPa / 128
    kiln := { s.kiln with phase := 7, busy := false, recovery := false, quarters := (s.kiln.quarters.put 0 0).put 1 0 }
    parts := s.parts.put 0 { p with tlb := [(tlbKey 0 textVa, ⟨textLeaf, 0⟩)] }
    kernels := s.kernels.put 1 setupKernel
    blocks := s.blocks.put 1 (Block.start setupKernel 16 1 0 0 0 0 1 [1])
    warps := s.warps.put 1 (setupWarp s)
    seq := Nat.max s.seq 2
    owner := s.owner.put 0 (splitKey 1 0)
    agenda := [.port 0] }

end Sys2Proof.Machine
end

