-- ==== Sys2Proof/Machine/Dispatch.lean ====
section
/-! DEFINITION. The meaning of every constructor of Instr: one call each. -/

namespace Sys2Proof.Machine

open Sys2Proof

def exec (i : Instr) (s : State) : Host.Outcome State Fault Refusal :=
  match i with
  | .add h t d a b => Sys2Proof.Machine.execAdd h t d a b s
  | .sub h t d a b => Sys2Proof.Machine.execSub h t d a b s
  | .addsat h t d a b => Sys2Proof.Machine.execAddsat h t d a b s
  | .subsat h t d a b => Sys2Proof.Machine.execSubsat h t d a b s
  | .min h t d a b => Sys2Proof.Machine.execMin h t d a b s
  | .max h t d a b => Sys2Proof.Machine.execMax h t d a b s
  | .abs h t d a => Sys2Proof.Machine.execAbs h t d a s
  | .mul h d a b => Sys2Proof.Machine.execMul h d a b s
  | .mulhi h t d a b => Sys2Proof.Machine.execMulhi h t d a b s
  | .mad h d a b c => Sys2Proof.Machine.execMad h d a b c s
  | .madw h t d a b c => Sys2Proof.Machine.execMadw h t d a b c s
  | .idiv h t d a b => Sys2Proof.Machine.execIdiv h t d a b s
  | .irem h t d a b => Sys2Proof.Machine.execIrem h t d a b s
  | .dot2 h d a b c sat => Sys2Proof.Machine.execDot2 h d a b c sat s
  | .dot4 h t d a b c sat => Sys2Proof.Machine.execDot4 h t d a b c sat s
  | .sad h d a b c => Sys2Proof.Machine.execSad h d a b c s
  | .lop3 h d a b c lut => Sys2Proof.Machine.execLop3 h d a b c lut s
  | .shl h wide d a b => Sys2Proof.Machine.execShl h wide d a b s
  | .shr h t d a b => Sys2Proof.Machine.execShr h t d a b s
  | .rot h d a b => Sys2Proof.Machine.execRot h d a b s
  | .fsh h d a b c right => Sys2Proof.Machine.execFsh h d a b c right s
  | .shrr h d a b => Sys2Proof.Machine.execShrr h d a b s
  | .bfx h t d a b c => Sys2Proof.Machine.execBfx h t d a b c s
  | .bfi h d a b c => Sys2Proof.Machine.execBfi h d a b c s
  | .popc h d a => Sys2Proof.Machine.execPopc h d a s
  | .clz h d a => Sys2Proof.Machine.execClz h d a s
  | .brev h d a => Sys2Proof.Machine.execBrev h d a s
  | .ffs h d a => Sys2Proof.Machine.execFfs h d a s
  | .cmp h t d a b cond e => Sys2Proof.Machine.execCmp h t d a b cond e s
  | .sel h d a b p neg => Sys2Proof.Machine.execSel h d a b p neg s
  | .plop h d a b c lut => Sys2Proof.Machine.execPlop h d a b c lut s
  | .pmovGet h d => Sys2Proof.Machine.execPmovGet h d s
  | .pmovSet h a mask => Sys2Proof.Machine.execPmovSet h a mask s
  | .mov h d a => Sys2Proof.Machine.execMov h d a s
  | .movi h d imm => Sys2Proof.Machine.execMovi h d imm s
  | .movu h d imm => Sys2Proof.Machine.execMovu h d imm s
  | .lea h t d a b sc => Sys2Proof.Machine.execLea h t d a b sc s
  | .pack h t d a b => Sys2Proof.Machine.execPack h t d a b s
  | .unpack h d a => Sys2Proof.Machine.execUnpack h d a s
  | .shfl h m d a b c keep e pd => Sys2Proof.Machine.execShfl h m d a b c keep e pd s
  | .slide h half d a b c down pd => Sys2Proof.Machine.execSlide h half d a b c down pd s
  | .vote h t a neg => Sys2Proof.Machine.execVote h t a neg s
  | .matchLanes h d a pd => Sys2Proof.Machine.execMatchLanes h d a pd s
  | .reduce h t d a op mem => Sys2Proof.Machine.execReduce h t d a op mem s
  | .scan h t d a op excl mem => Sys2Proof.Machine.execScan h t d a op excl mem s
  | .intersect h d a b c => Sys2Proof.Machine.execIntersect h d a b c s
  | .compact h d a b c p neg => Sys2Proof.Machine.execCompact h d a b c p neg s
  | .xpair h d a => Sys2Proof.Machine.execXpair h d a s
  | .xswap h d a pd => Sys2Proof.Machine.execXswap h d a pd s
  | .fadd h t d a b rm => Sys2Proof.Machine.execFadd h t d a b rm s
  | .fsub h t d a b rm => Sys2Proof.Machine.execFsub h t d a b rm s
  | .fmul h t d a b rm => Sys2Proof.Machine.execFmul h t d a b rm s
  | .ffma h t d a b c rm => Sys2Proof.Machine.execFfma h t d a b c rm s
  | .ffmaw h d a b c rm bf16 hi => Sys2Proof.Machine.execFfmaw h d a b c rm bf16 hi s
  | .fmin h t d a b => Sys2Proof.Machine.execFmin h t d a b s
  | .fmax h t d a b => Sys2Proof.Machine.execFmax h t d a b s
  | .fcmp h t d a b cond e => Sys2Proof.Machine.execFcmp h t d a b cond e s
  | .frnd h d a rm => Sys2Proof.Machine.execFrnd h d a rm s
  | .fscale h d a b rm => Sys2Proof.Machine.execFscale h d a b rm s
  | .fclass h d a t => Sys2Proof.Machine.execFclass h d a t s
  | .frcp h d a rm => Sys2Proof.Machine.execFrcp h d a rm s
  | .fsqrt h d a rm => Sys2Proof.Machine.execFsqrt h d a rm s
  | .frsq h d a => Sys2Proof.Machine.execFrsq h d a s
  | .fexp2 h d a => Sys2Proof.Machine.execFexp2 h d a s
  | .flog2 h d a => Sys2Proof.Machine.execFlog2 h d a s
  | .fsin h d a => Sys2Proof.Machine.execFsin h d a s
  | .fcos h d a => Sys2Proof.Machine.execFcos h d a s
  | .ftanh h d a => Sys2Proof.Machine.execFtanh h d a s
  | .fdot2 h t d a b c rm => Sys2Proof.Machine.execFdot2 h t d a b c rm s
  | .fdot4 h t d a b c rm => Sys2Proof.Machine.execFdot4 h t d a b c rm s
  | .cvt h t d a b => Sys2Proof.Machine.execCvt h t d a b s
  | .fxcvtTo h d a fx16 => Sys2Proof.Machine.execFxcvtTo h d a fx16 s
  | .fxcvtFrom h d a fx16 rm => Sys2Proof.Machine.execFxcvtFrom h d a fx16 rm s
  | .qscale h k d a b => Sys2Proof.Machine.execQscale h k d a b s
  | .qpack h d a b c rm h1 => Sys2Proof.Machine.execQpack h d a b c rm h1 s
  | .qunpack h d a b n rm => Sys2Proof.Machine.execQunpack h d a b n rm s
  | .setfmt h d a b => Sys2Proof.Machine.execSetfmt h d a b s
  | .ld h t d m off => Sys2Proof.Machine.execLd h t d m off s
  | .ldc h t d m off => Sys2Proof.Machine.execLdc h t d m off s
  | .ldg h t d pd m off => Sys2Proof.Machine.execLdg h t d pd m off s
  | .ldr h t d pd m off => Sys2Proof.Machine.execLdr h t d pd m off s
  | .st h t d m off => Sys2Proof.Machine.execSt h t d m off s
  | .scat h t d m off => Sys2Proof.Machine.execScat h t d m off s
  | .lde h t d pd m off => Sys2Proof.Machine.execLde h t d pd m off s
  | .ealloc h d m off => Sys2Proof.Machine.execEalloc h d m off s
  | .erase h m off => Sys2Proof.Machine.execErase h m off s
  | .eraser h d m off => Sys2Proof.Machine.execEraser h d m off s
  | .etest h d m off => Sys2Proof.Machine.execEtest h d m off s
  | .atom h op d m off => Sys2Proof.Machine.execAtom h op d m off s
  | .fence h order sc => Sys2Proof.Machine.execFence h order sc s
  | .tokenTake h => Sys2Proof.Machine.execTokenTake h s
  | .tokenPass h => Sys2Proof.Machine.execTokenPass h s
  | .prefetch h m off => Sys2Proof.Machine.execPrefetch h m off s
  | .reserve h d m off => Sys2Proof.Machine.execReserve h d m off s
  | .discard h m off => Sys2Proof.Machine.execDiscard h m off s
  | .reqpage h m off => Sys2Proof.Machine.execReqpage h m off s
  | .bra h target reconv => Sys2Proof.Machine.execBra h target reconv s
  | .brx h a reconv => Sys2Proof.Machine.execBrx h a reconv s
  | .call h d target reconv => Sys2Proof.Machine.execCall h d target reconv s
  | .callx h d a reconv => Sys2Proof.Machine.execCallx h d a reconv s
  | .ret h a => Sys2Proof.Machine.execRet h a s
  | .exit h => Sys2Proof.Machine.execExit h s
  | .rejoin h => Sys2Proof.Machine.execRejoin h s
  | .join h a => Sys2Proof.Machine.execJoin h a s
  | .leave h => Sys2Proof.Machine.execLeave h s
  | .nop h => Sys2Proof.Machine.execNop h s
  | .spawn h a b c pd n => Sys2Proof.Machine.execSpawn h a b c pd n s
  | .launch h d a pd => Sys2Proof.Machine.execLaunch h d a pd s
  | .lwait h d a pd test => Sys2Proof.Machine.execLwait h d a pd test s
  | .kinit h a k dirMin f32 => Sys2Proof.Machine.execKinit h a k dirMin f32 s
  | .kupd h f32 a b k rel => Sys2Proof.Machine.execKupd h f32 a b k rel s
  | .kread h d k acq => Sys2Proof.Machine.execKread h d k acq s
  | .check h d a => Sys2Proof.Machine.execCheck h d a s
  | .abinit h a b c => Sys2Proof.Machine.execAbinit h a b c s
  | .abarrive h d a b => Sys2Proof.Machine.execAbarrive h d a b s
  | .abwait h a b gen => Sys2Proof.Machine.execAbwait h a b gen s
  | .qinit h a b c q => Sys2Proof.Machine.execQinit h a b c q s
  | .qacqFree h d q => Sys2Proof.Machine.execQacqFree h d q s
  | .qacqFull h d q => Sys2Proof.Machine.execQacqFull h d q s
  | .qrelFull h q => Sys2Proof.Machine.execQrelFull h q s
  | .qrelFree h q => Sys2Proof.Machine.execQrelFree h q s
  | .trap h a code => Sys2Proof.Machine.execTrap h a code s
  | .tret h => Sys2Proof.Machine.execTret h s
  | .getsr h d sr => Sys2Proof.Machine.execGetsr h d sr s
  | .setsr h a sr => Sys2Proof.Machine.execSetsr h a sr s
  | .yield h a => Sys2Proof.Machine.execYield h a s
  | .prio h a => Sys2Proof.Machine.execPrio h a s
  | .poolset h d a => Sys2Proof.Machine.execPoolset h d a s
  | .poolq h d n => Sys2Proof.Machine.execPoolq h d n s
  | .talloc h m => Sys2Proof.Machine.execTalloc h m s
  | .tfree h m => Sys2Proof.Machine.execTfree h m s
  | .stash h a b c w => Sys2Proof.Machine.execStash h a b c w s
  | .unstash h w => Sys2Proof.Machine.execUnstash h w s
  | .cpy h dir d a b c twoD ab q sc => Sys2Proof.Machine.execCpy h dir d a b c twoD ab q sc s
  | .cpyh h d a b c size sc => Sys2Proof.Machine.execCpyh h d a b c size sc s
  | .binc h a b c => Sys2Proof.Machine.execBinc h a b c s
  | .binp h => Sys2Proof.Machine.execBinp h s
  | .crel h => Sys2Proof.Machine.execCrel h s
  | .fhnd h a n => Sys2Proof.Machine.execFhnd h a n s
  | .fetch h t d a b n pd => Sys2Proof.Machine.execFetch h t d a b n pd s
  | .mma h t d a b c sat bs => Sys2Proof.Machine.execMma h t d a b c sat bs s
  | .mmas h t d a b c sat bs => Sys2Proof.Machine.execMmas h t d a b c sat bs s
  | .tzero h d => Sys2Proof.Machine.execTzero h d s
  | .tfill h d a => Sys2Proof.Machine.execTfill h d a s
  | .tcvt h d a p src => Sys2Proof.Machine.execTcvt h d a p src s
  | .ttrans h d a w => Sys2Proof.Machine.execTtrans h d a w s
  | .tadd h d a b t => Sys2Proof.Machine.execTadd h d a b t s
  | .tred h d a col op t => Sys2Proof.Machine.execTred h d a col op t s
  | .ttov h d a b => Sys2Proof.Machine.execTtov h d a b s
  | .vtot h d a b => Sys2Proof.Machine.execVtot h d a b s
  | .tlu h d a b n fx16 => Sys2Proof.Machine.execTlu h d a b n fx16 s
  | .ttrsLower h d a b n fx16 p => Sys2Proof.Machine.execTtrsLower h d a b n fx16 p s
  | .ttrsUpper h d a n fx16 => Sys2Proof.Machine.execTtrsUpper h d a n fx16 s
  | .tjac h d a b c n fx16 pd => Sys2Proof.Machine.execTjac h d a b c n fx16 pd s
  | .tupd h d a b fx16 => Sys2Proof.Machine.execTupd h d a b fx16 s
  | .xswapCompletion id => Sys2Proof.Machine.execXswapCompletion id s
  | .loadCompletion id => Sys2Proof.Machine.execLoadCompletion id s
  | .existenceCompletion id => Sys2Proof.Machine.execExistenceCompletion id s
  | .atomPerform id => Sys2Proof.Machine.execAtomPerform id s
  | .launchCompletion id => Sys2Proof.Machine.execLaunchCompletion id s
  | .kreadCompletion id => Sys2Proof.Machine.execKreadCompletion id s
  | .unstashCompletion id => Sys2Proof.Machine.execUnstashCompletion id s
  | .cpyQueueSlotTake id => Sys2Proof.Machine.execCpyQueueSlotTake id s
  | .copyCommandCompletion id => Sys2Proof.Machine.execCopyCommandCompletion id s
  | .binCommandCompletion id => Sys2Proof.Machine.execBinCommandCompletion id s
  | .fetchCompletion id => Sys2Proof.Machine.execFetchCompletion id s
  | .tjacSweepEnd id => Sys2Proof.Machine.execTjacSweepEnd id s
  | .matrixCommandCompletion id => Sys2Proof.Machine.execMatrixCommandCompletion id s
  | .matrixTransientError id => Sys2Proof.Machine.execMatrixTransientError id s
  | .invalidationComplete id => Sys2Proof.Machine.execInvalidationComplete id s
  | .descriptorReloadComplete id => Sys2Proof.Machine.execDescriptorReloadComplete id s
  | .packWarp core => Sys2Proof.Machine.execPackWarp core s
  | .incumbentUpdateArrival part k f32 ups => Sys2Proof.Machine.execIncumbentUpdateArrival part k f32 ups s
  | .incumbentCopyUpdate core => Sys2Proof.Machine.execIncumbentCopyUpdate core s
  | .yieldExpiry warp idx => Sys2Proof.Machine.execYieldExpiry warp idx s
  | .splitDrainEnd core => Sys2Proof.Machine.execSplitDrainEnd core s
  | .splitRelocateEnd core => Sys2Proof.Machine.execSplitRelocateEnd core s
  | .splitRemapEnd core => Sys2Proof.Machine.execSplitRemapEnd core s
  | .stashWriteback block window => Sys2Proof.Machine.execStashWriteback block window s
  | .clauseHeaderFetch => Sys2Proof.Machine.execClauseHeaderFetch s
  | .splitAged warp idx => Sys2Proof.Machine.execSplitAged warp idx s
  | .warpPreempt warp => Sys2Proof.Machine.execWarpPreempt warp s
  | .launchSlotArm part slot arm => Sys2Proof.Machine.execLaunchSlotArm part slot arm s
  | .blockPlacement part => Sys2Proof.Machine.execBlockPlacement part s
  | .blockRetire kernel => Sys2Proof.Machine.execBlockRetire kernel s
  | .pageWalk part asid va => Sys2Proof.Machine.execPageWalk part asid va s
  | .pageMigration part asid va => Sys2Proof.Machine.execPageMigration part asid va s
  | .lineEviction core line => Sys2Proof.Machine.execLineEviction core line s
  | .correctedError part c => Sys2Proof.Machine.execCorrectedError part c s
  | .uncorrectableError part line dirty => Sys2Proof.Machine.execUncorrectableError part line dirty s
  | .remoteRequest part spkg spart va op => Sys2Proof.Machine.execRemoteRequest part spkg spart va op s
  | .remoteResend n => Sys2Proof.Machine.execRemoteResend n s
  | .fabricPeerResponse line answer => Sys2Proof.Machine.execFabricPeerResponse line answer s
  | .fabricDeliveryTimeout line dirty => Sys2Proof.Machine.execFabricDeliveryTimeout line dirty s
  | .flitReceive part link payload keyBit crcOk tagOk => Sys2Proof.Machine.execFlitReceive part link payload keyBit crcOk tagOk s
  | .parityExtensionReceive link repair => Sys2Proof.Machine.execParityExtensionReceive link repair s
  | .planeRemap plane up => Sys2Proof.Machine.execPlaneRemap plane up s
  | .remapAcknowledge => Sys2Proof.Machine.execRemapAcknowledge s
  | .routeUpdate dest version => Sys2Proof.Machine.execRouteUpdate dest version s
  | .keyRotation link => Sys2Proof.Machine.execKeyRotation link s
  | .hostCxlWrite addr data => Sys2Proof.Machine.execHostCxlWrite addr data s
  | .hostCxlRead addr len => Sys2Proof.Machine.execHostCxlRead addr len s
  | .create arg0 arg1 => Sys2Proof.Machine.execCreate arg0 arg1 s
  | .destroy arg0 => Sys2Proof.Machine.execDestroy arg0 s
  | .swapout arg0 => Sys2Proof.Machine.execSwapout arg0 s
  | .haltComplete part => Sys2Proof.Machine.execHaltComplete part s
  | .haltTimeout part => Sys2Proof.Machine.execHaltTimeout part s
  | .swapin arg0 => Sys2Proof.Machine.execSwapin arg0 s
  | .fwstage arg0 arg1 image => Sys2Proof.Machine.execFwstage arg0 arg1 image s
  | .getVersion inst => Sys2Proof.Machine.execGetVersion inst s
  | .getCapabilities inst => Sys2Proof.Machine.execGetCapabilities inst s
  | .negotiateAlgorithms inst offered => Sys2Proof.Machine.execNegotiateAlgorithms inst offered s
  | .getDigests inst => Sys2Proof.Machine.execGetDigests inst s
  | .getCertificate inst slot => Sys2Proof.Machine.execGetCertificate inst slot s
  | .challenge inst slot nonce => Sys2Proof.Machine.execChallenge inst slot nonce s
  | .getMeasurements inst index nonce => Sys2Proof.Machine.execGetMeasurements inst index nonce s
  | .keyExchange inst exchange => Sys2Proof.Machine.execKeyExchange inst exchange s
  | .finish inst verify => Sys2Proof.Machine.execFinish inst verify s
  | .endSession inst => Sys2Proof.Machine.execEndSession inst s
  | .unsupportedRequest inst => Sys2Proof.Machine.execUnsupportedRequest inst s
  | .sealRequest inst record => Sys2Proof.Machine.execSeal inst record s
  | .keyload inst record => Sys2Proof.Machine.execKeyload inst record s
  | .keydrop inst record => Sys2Proof.Machine.execKeydrop inst record s
  | .packageReset => Sys2Proof.Machine.execPackageReset s
  | .clockStepChange clk therm power => Sys2Proof.Machine.execClockStepChange clk therm power s
  | .tlbinvAddress part value => Sys2Proof.Machine.execTlbinvAddress part value s
  | .tlbinvAsid part value => Sys2Proof.Machine.execTlbinvAsid part value s
  | .tlbinvPartition part value => Sys2Proof.Machine.execTlbinvPartition part value s
  | .qpost part frame => Sys2Proof.Machine.execQpost part frame s
  | .qpop warp d => Sys2Proof.Machine.execQpop warp d s
  | .rgnselWrite part value => Sys2Proof.Machine.execRgnselWrite part value s
  | .reservationRangeWrite part reg value => Sys2Proof.Machine.execReservationRangeWrite part reg value s
  | .tscloRead warp d => Sys2Proof.Machine.execTscloRead warp d s
  | .systemRegisterWrite warp idx sr value => Sys2Proof.Machine.execSystemRegisterWrite warp idx sr value s
  | .illegalOpcode w => Sys2Proof.Machine.execIllegalOpcode w s

end Sys2Proof.Machine
end

