-- ==== Sys2Proof/Machine/Step.lean ====
section
/-! DEFINITION. One step of the machine, and a word placed where the next step fetches it. -/

namespace Sys2Proof.Machine

/-- ONE STEP: what moves next (DESIGN CHOICE, log 1) is run, or only time passes and the device arranges itself. -/
def step (s : State) : Host.Outcome State Fault Refusal :=
  match nextMove s with
  | .run i s1 => exec i s1
  | .rest s1 => .next s1

/-- The state with a word placed where the next step fetches it (DEDUCED, log 5). -/
def State.withFetchWord (s : State) (_nbits w : Nat) : State := placeWord s (w % 2 ^ 64)

end Sys2Proof.Machine
end

