-- ==== Sys2Proof/Safety.lean ====
section
/-! DEFINITION. What claims about the machine are stated in: the canonical form of memory, the unit a word issues as,
and what an instruction that writes registers and predicates leaves. -/

namespace Sys2Proof.Machine

/-! ## Memory -/

/-- Memory is in its canonical form: rising addresses, no listed 0. -/
abbrev State.memWf (s : State) : Prop := s.mem.wf = true

/-- A byte of device memory; what is not listed reads 0 (DEDUCED, log 5). -/
def State.byte (s : State) (pa : Nat) : Byte := s.mem.num pa

/-! ## The unit a word issues as -/

/-- Whether an issue has to wait: a set-scope or block-scope word for accesses of its warps that are not performed (R108,
R112), a word that counts in a full flag (R197). -/
def State.mustWait (s : State) (u : IssueUnit) (h : Head) : Bool :=
  ((h.scope == .block || h.scope == .set) && accessesPending s u)
    || (h.flag != .none && flagFull s u.uids (flagNumber u.header h.flag))

/-- The unit as which the word at the acting split issues, and the state its rendezvous and its incumbent check leave
(R138-R149, R197, R211); `none` where the word traps, waits for its unit or has no lane left. -/
def State.issues (s : State) (i : Instr) : Option (State × IssueUnit) :=
  i.head.bind fun h => (s.warps.get? s.act.1).bind fun w => (w.splits.get? s.act.2).bind fun p =>
    if (dynamicCheck i h w p).isSome then none
    else match rendezvous s s.act.1 s.act.2 w p h with
      | .waits _ => none
      | .meets s1 parts =>
        let s2 := checkParts s1 parts
        match liveParts s2 h parts with
        | [] => none
        | ps =>
          let u := formUnit s2 i h w p ps
          if s2.mustWait u h then none else some (s2, u)

/-- The state with the entries emptied that the last-use bits of a word name (R49); results are written into it. -/
def emptied (i : Instr) (u : IssueUnit) (s : State) : State := i.head.elim s fun h => useSources u h i s

/-! ## Registers of a unit -/

/-- Lane `l` of a register of a part, at its own split. -/
def State.reg (s : State) (x : UPart) (r : Reg) (l : Nat) : Half :=
  (s.warps.get? x.uid).elim 0 fun w => (w.splits.get? x.idx).elim 0 fun p => readReg s w p r l

/-- Bits of a predicate of a part's warp. -/
def State.predOf (s : State) (x : UPart) (p : Pred) : Lanes := (s.warps.get? x.uid).elim 0 fun w => w.pred p

/-- A register written by a unit: the value of each lane. -/
abbrev RegResult := Reg × (UPart → Nat → Half)

/-- A predicate written by a unit: the value of each lane. -/
abbrev PredResult := Pred × (UPart → Nat → Bool)

/-- Lane `l` of register `r` of part `x` after one result, from the value before (R133, R207, R208): vector registers and
bnd take it in active lanes, scalar registers take the value of the unit's lowest active lane, the others discard it. -/
def IssueUnit.put (u : IssueUnit) (x : UPart) (r : Reg) (l : Nat) (old : Half) (w : RegResult) : Half :=
  if r = w.1 then
    match u.lead with
    | none => old
    | some y => match r with
      | .v _ | .bnd => if x.act.getLsbD l then w.2 x l else old
      | .s _ | .kw => w.2 y.1 y.2
      | .fmt => fmtOf (w.2 y.1 y.2)
      | .fst => fstOf (w.2 y.1 y.2)
      | _ => old
  else old

/-- The bits that an issue ORs into fst: those of its status, and fmtconflict, which a command sets with its flag (R142, R181,
R183). -/
def IssueUnit.fstBits (u : IssueUnit) (bits : Half) : Half :=
  fstOf bits ||| (if u.conflict && !u.async then 0x10 else 0)

/-- Lane `l` of register `r` of part `x` after an instruction with these results and status. -/
def IssueUnit.regAfter (u : IssueUnit) (s : State) (ws : List RegResult) (bits : Half) (x : UPart) (r : Reg) (l : Nat) :
    Half :=
  ws.foldl (u.put x r l) (s.reg x r l) ||| (if r = .fst then u.fstBits bits else 0)

/-- A predicate of a part's warp after an instruction with these results; p7 stays 1 (R208). -/
def IssueUnit.predAfter (s : State) (ps : List PredResult) (x : UPart) (p : Pred) : Lanes :=
  ps.foldl (fun old w => if p = w.1 ∧ p ≠ 7 then (old &&& ~~~x.act) ||| (lanesWhere (w.2 x) &&& x.act) else old)
    (s.predOf x p)

/-- The number of vector registers among some results for which a warp counts no row yet. -/
def Warp.newRows (w : Warp) (ws : List RegResult) : Nat :=
  (ws.filter fun r => match r.1 with
    | .v i => !w.counts i.val
    | _ => false).length

/-- No warp of the unit comes to map more rows than its kernel's declared peak (R50). -/
def IssueUnit.room (u : IssueUnit) (s : State) (ws : List RegResult) : Prop :=
  ∀ x ∈ u.parts, ∀ w, s.warps.get? x.uid = some w → w.newRows ws = 0 ∨ w.rowsMapped + w.newRows ws ≤ s.peakOf u.kernel

/-! ## Frames -/

/-- The cores, but for their event counters, are as before (R397). -/
def SameCores (s t : State) : Prop :=
  ∀ c, { t.core c with evcnt := [], evclk := 0, evnow := [] } = { s.core c with evcnt := [], evclk := 0, evnow := [] }

/-- Everything but warps and event counters is as before: memory, lost lines, blocks with scratch and tiles,
kernels, partitions with their special registers, commands in flight, time, the host's and the fabric's state. -/
def SameBut (s t : State) : Prop := t = { s with warps := t.warps, cores := t.cores } ∧ SameCores s t

/-- A warp is as before but for its registers, predicates and splits: flags, trap registers, live lanes, set, pair. -/
def SameWarp (w w' : Warp) : Prop :=
  w' = { w with vregs := w'.vregs, sregs := w'.sregs, preds := w'.preds, bnd := w'.bnd, kw := w'.kw, splits := w'.splits }

/-- A split has gone to its next word or to the header of the next clause (R190), and is otherwise as before but for
fmt and fst. -/
def MovedOn (p p' : Split) : Prop := p' = { p.advance with fmt := p'.fmt, fst := p'.fst }

/-- What an instruction that writes only registers and predicates of its unit leaves of a state: the results, the
splits of the unit moved on, and nothing else changed. -/
def IssueUnit.Leaves (u : IssueUnit) (s t : State) (ws : List RegResult) (ps : List PredResult) (bits : Half) : Prop :=
  SameBut s t
  ∧ (∀ n, (∀ x ∈ u.parts, x.uid ≠ n) → t.warps.get? n = s.warps.get? n)
  ∧ ∀ x ∈ u.parts,
    (∀ r l, l < 32 → t.reg x r l = u.regAfter s ws bits x r l)
    ∧ (∀ p, t.predOf x p = IssueUnit.predAfter s ps x p)
    ∧ ∃ w w', s.warps.get? x.uid = some w ∧ t.warps.get? x.uid = some w' ∧ SameWarp w w'
      ∧ (∀ n, n ≠ x.idx → w'.splits.get? n = w.splits.get? n)
      ∧ ∃ p p', w.splits.get? x.idx = some p ∧ w'.splits.get? x.idx = some p' ∧ MovedOn p p'

/-- An instruction that writes registers and predicates: wherever its word issues and `pre` holds, with room for its rows, it
answers a next state that holds its results, computed from the state before. -/
def ComputesIf (i : Instr) (pre : State → IssueUnit → Prop) (ws : State → IssueUnit → List RegResult)
    (ps : State → IssueUnit → List PredResult) (bits : State → IssueUnit → Half) : Prop :=
  ∀ s s1 u, s.issues i = some (s1, u) → pre s1 u → u.room s1 (ws s1 u) →
    ∃ t, exec i s = .next t ∧ u.Leaves (emptied i u s1) t (ws s1 u) (ps s1 u) (bits s1 u)

/-- An instruction that writes registers and predicates: wherever its word issues, with room for its rows, it answers
a next state that holds its results, computed from the state before. -/
def Computes (i : Instr) (ws : State → IssueUnit → List RegResult) (ps : State → IssueUnit → List PredResult)
    (bits : State → IssueUnit → Half) : Prop :=
  ∀ s s1 u, s.issues i = some (s1, u) → u.room s1 (ws s1 u) →
    ∃ t, exec i s = .next t ∧ u.Leaves (emptied i u s1) t (ws s1 u) (ps s1 u) (bits s1 u)

/-! ## One result -/

/-- The operands of a lane. -/
abbrev Operands := Reg → Half

/-- A 64-bit operand: the even register holds bits [31:0] (R208). -/
def Operands.wide (g : Operands) (r : Reg) : Word := g (Reg.plus r 1) ++ g r

/-- The operands of a lane of a part of a unit. -/
def IssueUnit.operands (u : IssueUnit) (s : State) (x : UPart) (l : Nat) : Operands := fun r => u.read s x r l

/-- D receives in each lane a value of the lane's operands; nothing else changes. -/
def Gives (i : Instr) (d : Reg) (f : IssueUnit → Operands → Half) : Prop :=
  Computes i (fun s u => [(d, fun x l => f u (u.operands s x l))]) (fun _ _ => []) fun _ _ => 0

/-- D receives a value of the lane's operands, and the status bits of the active lanes are ORed into fst (R183). -/
def GivesStatus (i : Instr) (d : Reg) (f : IssueUnit → Operands → Res) : Prop :=
  Computes i (fun s u => [(d, fun x l => (f u (u.operands s x l)).1)]) (fun _ _ => [])
    fun s u => u.status fun x l => (f u (u.operands s x l)).2

/-- The pair D, D+1 receives a 64-bit value of the lane's operands. -/
def GivesPair (i : Instr) (d : Reg) (f : IssueUnit → Operands → Word) : Prop :=
  Computes i (fun s u => [(d, fun x l => lo32 (f u (u.operands s x l))),
    (Reg.plus d 1, fun x l => hi32 (f u (u.operands s x l)))]) (fun _ _ => []) fun _ _ => 0

/-- Predicates receive tests of the lane's operands, in the order named. -/
def GivesPreds (i : Instr) (ps : List (Pred × (IssueUnit → Operands → Bool))) : Prop :=
  Computes i (fun _ _ => []) (fun s u => ps.map fun p => (p.1, fun x l => p.2 u (u.operands s x l))) fun _ _ => 0

/-! ## Issues with other effects -/

/-- The unit moved on after an issue: fst.fmtconflict where the fmt values of its splits differ (R142, R181), every split
at its next word or header (R190), the issue counted (R397). -/
def IssueUnit.movedOn (u : IssueUnit) (s : State) : State := countIssue (advanceAll (noteConflict s u) u.parts) u

/-- Wherever the word issues and `pre` holds, and no warp comes to map more rows than its kernel's peak (R50), exec
answers exactly the state `post` gives. Both are functions of the state operands are read from, the unit, and that state
with last-use entries emptied, into which the effect is written. -/
def Ends (i : Instr) (pre : State → IssueUnit → State → Prop) (post : State → IssueUnit → State → State) : Prop :=
  ∀ s s1 u, s.issues i = some (s1, u) → pre s1 u (emptied i u s1) →
    overPeak s1 (post s1 u (emptied i u s1)) u = none → exec i s = .next (post s1 u (emptied i u s1))

/-- As `Ends`, with the unit moved on afterwards. -/
def Does (i : Instr) (pre : State → IssueUnit → State → Prop) (post : State → IssueUnit → State → State) : Prop :=
  ∀ s s1 u, s.issues i = some (s1, u) → pre s1 u (emptied i u s1) →
    overPeak s1 (post s1 u (emptied i u s1)) u = none → exec i s = .next (u.movedOn (post s1 u (emptied i u s1)))

/-- As `Ends`, for a transfer of control, which places the splits itself; the issue is counted. -/
def Goes (i : Instr) (pre : State → IssueUnit → State → Prop) (post : State → IssueUnit → State → State) : Prop :=
  ∀ s s1 u, s.issues i = some (s1, u) → pre s1 u (emptied i u s1) →
    overPeak s1 (post s1 u (emptied i u s1)) u = none → exec i s = .next (countIssue (post s1 u (emptied i u s1)) u)

/-- Wherever the word issues and `pre` holds, the unit waits at its word with the wait `v` in the state `post`. -/
def Stalls (i : Instr) (pre : State → IssueUnit → State → Prop) (post : State → IssueUnit → State)
    (v : State → IssueUnit → Wait) : Prop :=
  ∀ s s1 u, s.issues i = some (s1, u) → pre s1 u (emptied i u s1) → exec i s = .next (waitAll (post s1 u) u (v s1 u))

/-- Wherever the word issues and `pre` holds, the unit takes a trap, and nothing else of the word's effect stays
(R211). -/
def Traps (i : Instr) (pre : State → IssueUnit → State → Prop) (t : State → IssueUnit → State → Trap) : Prop :=
  ∀ s s1 u, s.issues i = some (s1, u) → pre s1 u (emptied i u s1) →
    exec i s = .next (takeTrap s1 u.parts u.scope (t s1 u (emptied i u s1)))

/-- A matrix command that passes its checks is in flight with the result of the tiles as they stand (DESIGN CHOICE, log 10). -/
def IssueUnit.commits (u : IssueUnit) (h : Head) (tiles : List Nat) (w : State) (r : Result) : State :=
  u.start w h tiles none (.result (.matrix u.opcode 0) r)

end Sys2Proof.Machine
end

