-- ==== Sys2Proof/Certificates/Slice0/Obligations.lean ====
section
/-! DEFINITION. The statements for the provers: what each instruction and event does, what a step does, what stays. -/

open Sys2Proof Sys2Proof.Machine

/-! ## Integer instructions -/

/-- ADD, SUB, ADDSAT, SUBSAT, MIN, MAX and ABS: sums, differences, extremes and magnitudes, element by element, 64-bit
forms on pairs; the saturating forms set fst.sat where the clamp applied. MUL, MULHI, MAD, MADW, IDIV, IREM, DOT2,
DOT4 and SAD: products and quotients, with the edge cases of division and the one clamp of the dot products. -/
def Obligations.IntegerArithmetic : Prop :=
  ((∀ h d a b,
    Gives (.add h .i32 d a b) d (fun _ g => g a + g b)
    ∧ GivesPair (.add h .i64 d a b) d (fun _ g => g.wide a + g.wide b)
    ∧ Gives (.add h .i16x2 d a b) d (fun _ g =>
        pack16 (elem16 (g a) 0 + elem16 (g b) 0) (elem16 (g a) 1 + elem16 (g b) 1))
    ∧ Gives (.add h .i8x4 d a b) d (fun _ g =>
        pack8 (elem8 (g a) 0 + elem8 (g b) 0) (elem8 (g a) 1 + elem8 (g b) 1)
          (elem8 (g a) 2 + elem8 (g b) 2) (elem8 (g a) 3 + elem8 (g b) 3))
    ∧ Gives (.sub h .i32 d a b) d (fun _ g => g a - g b)
    ∧ GivesPair (.sub h .i64 d a b) d (fun _ g => g.wide a - g.wide b)
    ∧ Gives (.sub h .i16x2 d a b) d (fun _ g =>
        pack16 (elem16 (g a) 0 - elem16 (g b) 0) (elem16 (g a) 1 - elem16 (g b) 1))
    ∧ Gives (.sub h .i8x4 d a b) d (fun _ g =>
        pack8 (elem8 (g a) 0 - elem8 (g b) 0) (elem8 (g a) 1 - elem8 (g b) 1)
          (elem8 (g a) 2 - elem8 (g b) 2) (elem8 (g a) 3 - elem8 (g b) 3)))
  ∧ (∀ h d a b,
    GivesStatus (.addsat h .i32 d a b) d (fun _ g => Res.sat (satSigned 32 ((g a).toInt + (g b).toInt)))
    ∧ GivesStatus (.addsat h .n32 d a b) d (fun _ g => Res.sat (satUnsigned 32 (((g a).toNat : Int) + (g b).toNat)))
    ∧ GivesStatus (.addsat h .i16x2 d a b) d (fun _ g =>
        Res.sat (map16 (fun x y => satSigned 16 (x.toInt + y.toInt)) (g a) (g b)))
    ∧ GivesStatus (.addsat h .i8x4 d a b) d (fun _ g =>
        Res.sat (map8 (fun x y => satSigned 8 (x.toInt + y.toInt)) (g a) (g b)))
    ∧ GivesStatus (.subsat h .i32 d a b) d (fun _ g => Res.sat (satSigned 32 ((g a).toInt - (g b).toInt)))
    ∧ GivesStatus (.subsat h .n32 d a b) d (fun _ g => Res.sat (satUnsigned 32 (((g a).toNat : Int) - (g b).toNat)))
    ∧ GivesStatus (.subsat h .i16x2 d a b) d (fun _ g =>
        Res.sat (map16 (fun x y => satSigned 16 (x.toInt - y.toInt)) (g a) (g b)))
    ∧ GivesStatus (.subsat h .i8x4 d a b) d (fun _ g =>
        Res.sat (map8 (fun x y => satSigned 8 (x.toInt - y.toInt)) (g a) (g b))))
  ∧ (∀ h d a b,
    Gives (.min h .i32 d a b) d (fun _ g => if (g a).toInt ≤ (g b).toInt then g a else g b)
    ∧ Gives (.min h .n32 d a b) d (fun _ g => if (g a).toNat ≤ (g b).toNat then g a else g b)
    ∧ GivesPair (.min h .i64 d a b) d (fun _ g => if (g.wide a).toInt ≤ (g.wide b).toInt then g.wide a else g.wide b)
    ∧ GivesPair (.min h .n64 d a b) d (fun _ g => if (g.wide a).toNat ≤ (g.wide b).toNat then g.wide a else g.wide b)
    ∧ Gives (.min h .i16x2 d a b) d (fun _ g => (map16 (fun x y => (sMin x y, false)) (g a) (g b)).1)
    ∧ Gives (.min h .i8x4 d a b) d (fun _ g => (map8 (fun x y => (sMin x y, false)) (g a) (g b)).1)
    ∧ Gives (.max h .i32 d a b) d (fun _ g => if (g a).toInt ≤ (g b).toInt then g b else g a)
    ∧ Gives (.max h .n32 d a b) d (fun _ g => if (g a).toNat ≤ (g b).toNat then g b else g a)
    ∧ GivesPair (.max h .i64 d a b) d (fun _ g => if (g.wide a).toInt ≤ (g.wide b).toInt then g.wide b else g.wide a)
    ∧ GivesPair (.max h .n64 d a b) d (fun _ g => if (g.wide a).toNat ≤ (g.wide b).toNat then g.wide b else g.wide a)
    ∧ Gives (.max h .i16x2 d a b) d (fun _ g => (map16 (fun x y => (sMax x y, false)) (g a) (g b)).1)
    ∧ Gives (.max h .i8x4 d a b) d (fun _ g => (map8 (fun x y => (sMax x y, false)) (g a) (g b)).1))
  ∧ (∀ h d a,
    Gives (.abs h .i32 d a) d (fun _ g => if (g a).toInt < 0 then 0 - g a else g a)
    ∧ Gives (.abs h .i16x2 d a) d (fun _ g => pack16 (absBv (elem16 (g a) 0)) (absBv (elem16 (g a) 1)))))
  ∧ ((∀ h d a b,
    Gives (.mul h d a b) d (fun _ g => g a * g b)
    ∧ Gives (.mulhi h .i32 d a b) d (fun _ g => BitVec.ofInt 32 ((g a).toInt * (g b).toInt / 2 ^ 32))
    ∧ Gives (.mulhi h .n32 d a b) d (fun _ g => BitVec.ofInt 32 (((g a).toNat : Int) * (g b).toNat / 2 ^ 32)))
  ∧ (∀ h d a b c,
    Gives (.mad h d a b c) d (fun _ g => g a * g b + g c)
    ∧ GivesPair (.madw h .i32 d a b c) d (fun _ g => BitVec.ofInt 64 ((g a).toInt * (g b).toInt) + g.wide c)
    ∧ GivesPair (.madw h .n32 d a b c) d (fun _ g =>
        BitVec.ofInt 64 (((g a).toNat : Int) * (g b).toNat) + g.wide c))
  ∧ (∀ h d a b,
    GivesStatus (.idiv h .i32 d a b) d (fun _ g =>
      if g b = 0 then (BitVec.allOnes 32, fstInvalid)
      else if g a = 0x80000000#32 ∧ g b = BitVec.allOnes 32 then (0x80000000#32, fstOverflow)
      else (BitVec.ofInt 32 ((g a).toInt.tdiv (g b).toInt), 0))
    ∧ GivesStatus (.idiv h .n32 d a b) d (fun _ g =>
      if g b = 0 then (BitVec.allOnes 32, fstInvalid)
      else (BitVec.ofInt 32 (((g a).toNat : Int).tdiv (g b).toNat), 0))
    ∧ GivesStatus (.irem h .i32 d a b) d (fun _ g =>
      if g b = 0 then (g a, fstInvalid) else (BitVec.ofInt 32 ((g a).toInt.tmod (g b).toInt), 0))
    ∧ GivesStatus (.irem h .n32 d a b) d (fun _ g =>
      if g b = 0 then (g a, fstInvalid) else (BitVec.ofInt 32 (((g a).toNat : Int).tmod (g b).toNat), 0)))
  ∧ (∀ h d a b c sat,
    GivesStatus (.dot2 h d a b c sat) d (fun _ g =>
      let v := (g c).toInt + (elem16 (g a) 0).toInt * (elem16 (g b) 0).toInt
        + (elem16 (g a) 1).toInt * (elem16 (g b) 1).toInt
      if sat then Res.sat (satSigned 32 v) else (BitVec.ofInt 32 v, 0))
    ∧ GivesStatus (.dot4 h .i8 d a b c sat) d (fun _ g =>
      let v := (g c).toInt + ((elem8 (g a) 0).toInt * (elem8 (g b) 0).toInt + (elem8 (g a) 1).toInt * (elem8 (g b) 1).toInt
        + (elem8 (g a) 2).toInt * (elem8 (g b) 2).toInt + (elem8 (g a) 3).toInt * (elem8 (g b) 3).toInt)
      if sat then Res.sat (satSigned 32 v) else (BitVec.ofInt 32 v, 0))
    ∧ GivesStatus (.dot4 h .n8 d a b c sat) d (fun _ g =>
      let p := fun e => ((elem8 (g a) e).toNat : Int) * (elem8 (g b) e).toNat
      let v := ((g c).toNat : Int) + (p 0 + p 1 + p 2 + p 3)
      if sat then Res.sat (satUnsigned 32 v) else (BitVec.ofInt 32 v, 0))
    ∧ GivesStatus (.dot4 h .i8n8 d a b c sat) d (fun _ g =>
      let p := fun e => (elem8 (g a) e).toInt * ((elem8 (g b) e).toNat : Int)
      let v := (g c).toInt + (p 0 + p 1 + p 2 + p 3)
      if sat then Res.sat (satSigned 32 v) else (BitVec.ofInt 32 v, 0)))
  ∧ ∀ h d a b c, Gives (.sad h d a b c) d (fun _ g =>
      let p := fun e => byteDist (elem8 (g a) e) (elem8 (g b) e)
      g c + BitVec.ofNat 32 (p 0 + p 1 + p 2 + p 3)))

/-- LOP3, the shifts, rotations and bit-field instructions, POPC, CLZ, BREV and FFS. -/
def Obligations.LogicShiftsAndFields : Prop :=
  (∀ h d a b c lut, Gives (.lop3 h d a b c lut) d (fun _ g => lanesWhere fun i =>
      lut.getLsbD (((g a).getLsbD i).toNat + 2 * ((g b).getLsbD i).toNat + 4 * ((g c).getLsbD i).toNat)))
  ∧ (∀ h d a b,
    Gives (.shl h false d a b) d (fun _ g => if 32 ≤ (g b).toNat then 0 else g a <<< (g b).toNat)
    ∧ GivesPair (.shl h true d a b) d (fun _ g => if 64 ≤ (g b).toNat then 0 else g.wide a <<< (g b).toNat)
    ∧ Gives (.shr h .n32 d a b) d (fun _ g => if 32 ≤ (g b).toNat then 0 else g a >>> (g b).toNat)
    ∧ GivesPair (.shr h .n64 d a b) d (fun _ g => if 64 ≤ (g b).toNat then 0 else g.wide a >>> (g b).toNat)
    ∧ Gives (.shr h .i32 d a b) d (fun _ g =>
        if 32 ≤ (g b).toNat then (if (g a).toInt < 0 then BitVec.allOnes 32 else 0) else (g a).sshiftRight (g b).toNat)
    ∧ GivesPair (.shr h .i64 d a b) d (fun _ g =>
        if 64 ≤ (g b).toNat then (if (g.wide a).toInt < 0 then BitVec.allOnes 64 else 0)
        else (g.wide a).sshiftRight (g b).toNat)
    ∧ Gives (.rot h d a b) d (fun _ g => (g a).rotateLeft ((g b).toNat % 32))
    ∧ Gives (.shrr h d a b) d (fun _ g =>
        if 32 ≤ (g b).toNat then 0 else BitVec.ofInt 32 (divRne (g a).toInt (g b).toNat)))
  ∧ (∀ h d a b c,
    Gives (.fsh h d a b c false) d (fun _ g =>
      BitVec.ofNat 32 (((g a).toNat * 2 ^ 32 + (g b).toNat) * 2 ^ ((g c).toNat % 32) / 2 ^ 32))
    ∧ Gives (.fsh h d a b c true) d (fun _ g =>
      BitVec.ofNat 32 (((g a).toNat * 2 ^ 32 + (g b).toNat) / 2 ^ ((g c).toNat % 32)))
    ∧ (∀ t, Gives (.bfx h t d a b c) d (fun _ g => bfxOf t (g a) (g b) (g c)))
    ∧ Gives (.bfi h d a b c) d (fun _ g => bfiOf (g a) (g b) (g c)))
  ∧ ∀ h d a,
    Gives (.popc h d a) d (fun _ g => BitVec.ofNat 32 ((List.range 32).filter fun i => (g a).getLsbD i).length)
    ∧ Gives (.clz h d a) d (fun _ g => BitVec.ofNat 32 (((List.range 32).find? fun i => (g a).getLsbD (31 - i)).getD 32))
    ∧ Gives (.brev h d a) d (fun _ g => lanesWhere fun i => (g a).getLsbD (31 - i))
    ∧ Gives (.ffs h d a) d (fun _ g =>
        (((List.range 32).find? fun i => (g a).getLsbD i).map (BitVec.ofNat 32)).getD (BitVec.allOnes 32))

/-- CMP, SEL, PLOP, PMOV and CHECK: the predicates of the active lanes receive the tests, p7 discards its write; SEL
and PMOV.get write D. CHECK waits while a KUPD of its own warps on an incumbent it reads has not come to the core's
copy (log 9). -/
def Obligations.ComparesAndPredicates : Prop :=
  (∀ h d a b cond e,
    GivesPreds (.cmp h .i32 d a b cond e) [(d, fun _ g => condOf cond (g a).toInt (g b).toInt)]
    ∧ GivesPreds (.cmp h .n32 d a b cond e) [(d, fun _ g => condOf cond (g a).toNat (g b).toNat)]
    ∧ GivesPreds (.cmp h .i64 d a b cond e) [(d, fun _ g => condOf cond (g.wide a).toInt (g.wide b).toInt)]
    ∧ GivesPreds (.cmp h .n64 d a b cond e) [(d, fun _ g => condOf cond (g.wide a).toNat (g.wide b).toNat)]
    ∧ GivesPreds (.cmp h .i16x2 d a b cond e)
        [(d, fun _ g => condOf cond (elem16 (g a) 0).toInt (elem16 (g b) 0).toInt),
          (e, fun _ g => condOf cond (elem16 (g a) 1).toInt (elem16 (g b) 1).toInt)])
  ∧ (∀ h d a b p neg, Computes (.sel h d a b p neg)
      (fun s u => [(d, fun x l => if (s.predOf x p).getLsbD l != neg then u.read s x a l else u.read s x b l)])
      (fun _ _ => []) fun _ _ => 0)
  ∧ (∀ h d a b c lut, Computes (.plop h d a b c lut) (fun _ _ => [])
      (fun s _ => [(d, fun x l => lut.getLsbD (4 * ((s.predOf x a).getLsbD l).toNat + 2 * ((s.predOf x b).getLsbD l).toNat
        + ((s.predOf x c).getLsbD l).toNat))]) fun _ _ => 0)
  ∧ (∀ h d, Computes (.pmovGet h d)
      (fun s _ => [(d, fun x l =>
        BitVec.ofNat 32 ((List.range 8).foldr (fun i n => ((s.predOf x (Fin.ofNat 8 i)).getLsbD l).toNat + 2 * n) 0))])
      (fun _ _ => []) fun _ _ => 0)
  ∧ (∀ h a mask, GivesPreds (.pmovSet h a mask)
      (((List.range 7).filter fun i => mask.getLsbD i).map fun i => (Fin.ofNat 8 i, fun _ g => (g a).getLsbD i)))
  ∧ ∀ h d a,
    ComputesIf (.check h d a)
      (fun s u => ((u.watched s).find? fun k => incumbentBusy s u.uids u.core k false) = none) (fun _ _ => [])
      (fun s u => [(d, fun x l => decide ((u.read s x .kw l).toNat < 16)
        && dominates (s.copy u.core (u.read s x .kw l).toNat) (u.read s x a l))]) (fun _ _ => 0)
    ∧ ∀ k, Stalls (.check h d a)
      (fun s u _ => ((u.watched s).find? fun k => incumbentBusy s u.uids u.core k false) = some k)
      (fun s _ => s) fun _ u => .stall (.incumbent u.uids u.core k false)

/-- MOV, MOVI and MOVU. MOV writes any writable name: a vector register or bnd in active lanes, a scalar, kw, fmt or
fst with the value of the lowest active lane; every other name discards the write. -/
def Obligations.Moves : Prop :=
  (∀ h d a, Gives (.mov h d a) d (fun _ g => g a))
  ∧ ∀ h d imm,
    Gives (.movi h d imm) d (fun _ _ => imm.setWidth 32)
    ∧ Gives (.movu h d imm) d (fun _ g => BitVec.ofNat 32 (imm.toNat * 16 + (g d).toNat % 16))

/-! ## Other lanes -/

/-- SHFL, SLIDE, VOTE and MATCH: each active lane reads lanes of its own warp; a predicate tells where a source lane
was there. INTERSECT and COMPACT: each lane learns the place of its value in the other list and how far each list
advances; the selected values move to the front in lane order, and their number is written. -/
def Obligations.OtherLanesAndLists : Prop :=
  ((∀ h m d a b c keep e pd, Computes (.shfl h m d a b c keep e pd)
      (fun s u => [(d, fun x l =>
        match (shflSource m e.val l (u.read s x b l)).filter x.act.getLsbD with
        | some t => u.read s x a t
        | none => if keep then u.read s x a l else u.read s x c l)])
      (fun s u => [(pd, fun x l => ((shflSource m e.val l (u.read s x b l)).filter x.act.getLsbD).isSome)]) fun _ _ => 0)
  ∧ (∀ h d a b c down pd,
    Computes (.slide h false d a b c down pd)
      (fun s u => [(d, fun x l => ((slideSource down 1 l (u.read s x b l).toNat x.act).map (u.read s x a)).getD
        (u.read s x c l))])
      (fun s u => [(pd, fun x l => (slideSource down 1 l (u.read s x b l).toNat x.act).isSome)]) (fun _ _ => 0)
    ∧ Computes (.slide h true d a b c down pd)
      (fun s u => [(d, fun x l =>
        let el := fun k => ((slideSource down 2 (2 * l + k) (u.read s x b l).toNat x.act).map fun t =>
          elem16 (u.read s x a (t / 2)) (t % 2)).getD (elem16 (u.read s x c l) 0)
        pack16 (el 0) (el 1))])
      (fun s u => [(pd, fun x l => (slideSource down 2 (2 * l) (u.read s x b l).toNat x.act).isSome
        && (slideSource down 2 (2 * l + 1) (u.read s x b l).toNat x.act).isSome)]) fun _ _ => 0)
  ∧ (∀ h d q a neg,
    Computes (.vote h (.any q) a neg) (fun _ _ => [])
      (fun s _ => [(q, fun x _ => (if neg then ~~~(s.predOf x a) else s.predOf x a) &&& x.act != 0)]) (fun _ _ => 0)
    ∧ Computes (.vote h (.all q) a neg) (fun _ _ => [])
      (fun s _ => [(q, fun x _ => (if neg then ~~~(s.predOf x a) else s.predOf x a) &&& x.act == x.act)]) (fun _ _ => 0)
    ∧ Computes (.vote h (.ballot d false) a neg)
      (fun s _ => [(d, fun x _ => (if neg then ~~~(s.predOf x a) else s.predOf x a) &&& x.act)]) (fun _ _ => []) (fun _ _ => 0)
    ∧ Computes (.vote h (.ballot d true) a neg)
      (fun s _ => [(d, fun x _ => BitVec.ofNat 32 (Lanes.count ((if neg then ~~~(s.predOf x a) else s.predOf x a) &&& x.act)))])
      (fun _ _ => []) fun _ _ => 0)
  ∧ ∀ h d a pd, Computes (.matchLanes h d a pd)
      (fun s u => [(d, fun x l => lanesWhere fun k => x.act.getLsbD k && u.read s x a k == u.read s x a l)])
      (fun s u => [(pd, fun x l => (lanesWhere fun k => x.act.getLsbD k && u.read s x a k == u.read s x a l) == x.act)])
      fun _ _ => 0)
  ∧ ((∀ h d a b k, Computes (.intersect h d a b (.s k))
      (fun s u =>
        let xs := listOf u s a
        let ys := listOf u s b
        [(d, fun x l => if u.read s x a l = BitVec.allOnes 32 then BitVec.allOnes 32
            else ((ys.findIdx? fun y => y == u.read s x a l).map (BitVec.ofNat 32)).getD (BitVec.allOnes 32)),
          (.s k, fun _ _ => BitVec.ofNat 32 (advanceCounts xs ys).1),
          (Reg.plus (.s k) 1, fun _ _ => BitVec.ofNat 32 (advanceCounts xs ys).2)]) (fun _ _ => []) fun _ _ => 0)
  ∧ ∀ h d a k c p neg, Computes (.compact h d a (.s k) c p neg)
      (fun s u =>
        let xs := (u.lanes.filter fun x => (s.predOf x.1 p).getLsbD x.2 != neg).map fun x => u.read s x.1 a x.2
        [(d, fun x l => (xs[(u.lanes.findIdx? fun y => y.1.uid == x.uid && y.2 == l).getD 0]?).getD (u.read s x c l)),
          (.s k, fun _ _ => BitVec.ofNat 32 xs.length)]) (fun _ _ => []) fun _ _ => 0)

/-- REDUCE and SCAN: the active lanes' values combined in unit order, or over the members of a set lane by lane with
.mem; float sums by the tree of R187 with their status; an exclusive scan leaves its own element out. -/
def Obligations.ReductionsAndScans : Prop :=
  (∀ h d a op mem,
    Computes (.reduce h .i32 d a op mem)
      (fun s u => [(d, fun _ l => (foldSome (redInt op false) (redElems u mem l (u.read s · a ·))).getD 0)])
      (fun _ _ => []) (fun _ _ => 0)
    ∧ Computes (.reduce h .n32 d a op mem)
      (fun s u => [(d, fun _ l => (foldSome (redInt op true) (redElems u mem l (u.read s · a ·))).getD 0)])
      (fun _ _ => []) (fun _ _ => 0)
    ∧ Computes (.reduce h .i64 d a op mem)
      (fun s u => let v := fun l => (foldSome (redWide op) (redElems u mem l (u.read64 s · a ·))).getD 0
        [(d, fun _ l => lo32 (v l)), (Reg.plus d 1, fun _ l => hi32 (v l))])
      (fun _ _ => []) (fun _ _ => 0)
    ∧ Computes (.reduce h .f32 d a op mem)
      (fun s u => [(d, fun _ l => (floatTree op (fmtFlush u.fmt) (redElems u mem l (u.read s · a ·))).1)])
      (fun _ _ => [])
      fun s u => redStatus u mem fun l => (floatTree op (fmtFlush u.fmt) (redElems u mem l (u.read s · a ·))).2)
  ∧ ∀ h d a op excl mem,
    Computes (.scan h .i32 d a op excl mem)
      (fun s u => [(d, fun x l => (foldSome (redInt op false) (cutElems (ownPlace u mem x l + (!excl).toNat)
        (redElems u mem l (u.read s · a ·)))).getD (scanIdentity op))]) (fun _ _ => []) (fun _ _ => 0)
    ∧ Computes (.scan h .f32 d a op excl mem)
      (fun s u => [(d, fun x l => (floatTree .add (fmtFlush u.fmt) (cutElems (ownPlace u mem x l + (!excl).toNat)
        (redElems u mem l (u.read s · a ·)))).1)]) (fun _ _ => [])
      fun s u => u.status fun x l => (floatTree .add (fmtFlush u.fmt) (cutElems (ownPlace u mem x l + (!excl).toNat)
        (redElems u mem l (u.read s · a ·)))).2

/-! ## Float and conversion instructions -/

/-- FADD, FSUB, FMUL, FFMA, FFMAW, FDOT2 and FDOT4: the exact sum or product of the operands rounded once in the mode
of the instruction, element by element, with the status bits of the operation. -/
def Obligations.FloatArithmetic : Prop :=
  (∀ h d a b rm t,
    GivesStatus (.fadd h t d a b rm) d (fun u g =>
      perElem t (fun f p q _ => f.add (rmOf rm u.fmt) (fmtFlush u.fmt) p q) (g a) (g b) 0)
    ∧ GivesStatus (.fsub h t d a b rm) d (fun u g =>
      perElem t (fun f p q _ => f.sub (rmOf rm u.fmt) (fmtFlush u.fmt) p q) (g a) (g b) 0)
    ∧ GivesStatus (.fmul h t d a b rm) d (fun u g =>
      perElem t (fun f p q _ => f.mul (rmOf rm u.fmt) (fmtFlush u.fmt) p q) (g a) (g b) 0)
    ∧ ∀ c, GivesStatus (.ffma h t d a b c rm) d (fun u g =>
      perElem t (fun f p q v => f.fma (rmOf rm u.fmt) (fmtFlush u.fmt) p q v) (g a) (g b) (g c)))
  ∧ (∀ h d a b c rm bf16 hi, GivesStatus (.ffmaw h d a b c rm bf16 hi) d (fun u g =>
      ffmawOf (rmOf rm u.fmt) (fmtFlush u.fmt) bf16 hi (g a) (g b) (g c)))
  ∧ (∀ h t d a b c rm, GivesStatus (.fdot2 h t d a b c rm) d (fun u g =>
      let f := if t = .f16 then Fmt.f16 else Fmt.bf16
      let els := fun v => [f.read (fmtFlush u.fmt) (elem16 v 0).toNat, f.read (fmtFlush u.fmt) (elem16 v 1).toNat]
      fdotOf (rmOf rm u.fmt) (fmtFlush u.fmt) (els (g a)) (els (g b)) (Fmt.f32.read (fmtFlush u.fmt) (g c).toNat)))
  ∧ ∀ h t d a b c rm, GivesStatus (.fdot4 h t d a b c rm) d (fun u g =>
      let f := if t = .e4m3 then Fmt.e4m3 else Fmt.e5m2
      let els := fun v => (List.range 4).map fun e => f.decode (elem8 v e).toNat
      fdotOf (rmOf rm u.fmt) (fmtFlush u.fmt) (els (g a)) (els (g b)) (Fmt.f32.read (fmtFlush u.fmt) (g c).toNat))

/-- FMIN, FMAX, FCMP, FRND, FSCALE and FCLASS. FRCP and FSQRT, rounded once, and FRSQ, FEXP2, FLOG2, FSIN, FCOS and
FTANH, whose inexact results are a free value within the error the spec allows (log 12): each completes with the
status of its result. -/
def Obligations.FloatComparesAndFunctions : Prop :=
  ((∀ h d a b t,
    GivesStatus (.fmin h t d a b) d (fun u g =>
      perElem (FTy2.ty t) (fun f p q _ => f.pick false (fmtFlush u.fmt) p q) (g a) (g b) 0)
    ∧ GivesStatus (.fmax h t d a b) d (fun u g =>
      perElem (FTy2.ty t) (fun f p q _ => f.pick true (fmtFlush u.fmt) p q) (g a) (g b) 0))
  ∧ (∀ h d a b cond e,
    Computes (.fcmp h .f32 d a b cond e) (fun _ _ => [])
      (fun s u => [(d, fun x l => (fcmpElem .f32 cond (fmtFlush u.fmt) 0 (u.read s x a l) (u.read s x b l)).1)])
      (fun s u => u.status fun x l =>
        flagIf (fcmpElem .f32 cond (fmtFlush u.fmt) 0 (u.read s x a l) (u.read s x b l)).2 fstInvalid)
    ∧ Computes (.fcmp h .f16x2 d a b cond e) (fun _ _ => [])
      (fun s u => [(d, fun x l => (fcmpElem .f16x2 cond (fmtFlush u.fmt) 0 (u.read s x a l) (u.read s x b l)).1),
        (e, fun x l => (fcmpElem .f16x2 cond (fmtFlush u.fmt) 1 (u.read s x a l) (u.read s x b l)).1)])
      fun s u => u.status fun x l =>
        flagIf ((fcmpElem .f16x2 cond (fmtFlush u.fmt) 0 (u.read s x a l) (u.read s x b l)).2
          || (fcmpElem .f16x2 cond (fmtFlush u.fmt) 1 (u.read s x a l) (u.read s x b l)).2) fstInvalid)
  ∧ (∀ h d a rm, GivesStatus (.frnd h d a rm) d (fun u g => frndOf (rmOf rm u.fmt) (fmtFlush u.fmt) (g a)))
  ∧ (∀ h d a b rm, GivesStatus (.fscale h d a b rm) d (fun u g =>
      fscaleOf (rmOf rm u.fmt) (fmtFlush u.fmt) (g a) (g b)))
  ∧ ∀ h d a t, Gives (.fclass h d a t) d (fun _ g => fclassOf t (g a)))
  ∧ ((∀ h d a rm,
    GivesStatus (.frcp h d a rm) d (fun u g => frcpOf (rmOf rm u.fmt) (fmtFlush u.fmt) (g a))
    ∧ GivesStatus (.fsqrt h d a rm) d (fun u g => fsqrtOf (rmOf rm u.fmt) (fmtFlush u.fmt) (g a)))
  ∧ ∀ h d a,
    GivesStatus (.frsq h d a) d (fun u g => frsqOf (fmtFlush u.fmt) (g a))
    ∧ GivesStatus (.fexp2 h d a) d (fun u g => fexp2Of (fmtFlush u.fmt) (g a))
    ∧ GivesStatus (.flog2 h d a) d (fun u g => flog2Of (fmtFlush u.fmt) (g a))
    ∧ GivesStatus (.fsin h d a) d (fun u g => fsinOf (fmtFlush u.fmt) (g a))
    ∧ GivesStatus (.fcos h d a) d (fun u g => fcosOf (fmtFlush u.fmt) (g a))
    ∧ GivesStatus (.ftanh h d a) d (fun u g => ftanhOf (fmtFlush u.fmt) (g a)))

/-- CVT, FXCVT, QSCALE, QPACK and QUNPACK. -/
def Obligations.Conversions : Prop :=
  (∀ h t d a b, GivesStatus (.cvt h t d a b) d (fun u g => cvtOf u.fmt t (g a) (g b)))
  ∧ (∀ h d a fx16, GivesStatus (.fxcvtTo h d a fx16) d (fun u g =>
      let n := fixedResult (if fx16 then 16 else 32) (fmtQD u.fmt) (Fmt.f32.read (fmtFlush u.fmt) (g a).toNat)
      (BitVec.ofInt 32 n.1, n.2)))
  ∧ (∀ h d a fx16 rm, GivesStatus (.fxcvtFrom h d a fx16 rm) d (fun u g =>
      let n := if fx16 then (elem16 (g a) 0).toInt else (g a).toInt
      halfOf (Fmt.f32.round (rmOf rm u.fmt) false (.fin (decide (n < 0)) n.natAbs (-(fmtQA u.fmt : Int))))))
  ∧ (∀ h k d a b, Computes (.qscale h k d a b)
      (fun s u => [(d, fun x l => match emaxOf (fmtD u.fmt) with
        | none => 0xFF#32
        | some e => BitVec.ofNat 32 (scaleCode e (qscaleBlock u s k a b x l)))]) (fun _ _ => [])
      fun _ u => u.status fun _ _ => if (emaxOf (fmtD u.fmt)).isNone then fstFormat else 0)
  ∧ (∀ h d a b c rm h1, GivesStatus (.qpack h d a b c rm h1) d (fun u g =>
      qpackOf u.fmt (rmOf rm u.fmt) h1 [g a, g (Reg.plus a 1), g b, g (Reg.plus b 1)] ((g c).toNat % 256) (g d)))
  ∧ ∀ h d a b n rm, Computes (.qunpack h d a b n rm)
      (fun s u => [(d, fun x l => (qunpackOf u.fmt (rmOf rm u.fmt) n.val 0 (u.read s x a l) (u.read s x b l)).1),
        (Reg.plus d 1, fun x l => (qunpackOf u.fmt (rmOf rm u.fmt) n.val 1 (u.read s x a l) (u.read s x b l)).1)])
      (fun _ _ => [])
      fun s u => u.status fun x l => (qunpackOf u.fmt (rmOf rm u.fmt) n.val 0 (u.read s x a l) (u.read s x b l)).2
        ||| (qunpackOf u.fmt (rmOf rm u.fmt) n.val 1 (u.read s x a l) (u.read s x b l)).2

/-! ## Memory instructions -/

/-- LD, LDC, LDG, LDR and LDE start: with no earlier read of the unit's warps still to take its value and no lane with
a cause of R37, the lanes' bytes are taken (at issue, which the rules leave open: DESIGN CHOICE, log 8), the lines
touched, and the load is in flight with its flag counted; an LDG lane outside its bound makes no access, LDC makes one
access for all lanes. LOAD_COMPLETION and EXISTENCE_COMPLETION: a load whose lanes have all been answered, and the
result of an existence instruction, are delivered: registers, predicates and flag; the other completion leaves it
alone. -/
def Obligations.Loads : Prop :=
  ((∀ h t d m off, let n := Sys2Proof.Machine.LdTy.bytes t
    let c := fun (r w : State) (u : IssueUnit) => checkLanes u n n .load w (u.addrs r m off.toInt n)
    Does (.ld h t d m off)
      (fun r u w => u.lanes ≠ [] ∧ readsPending r u = false ∧ accessTrap u r (c r w u).2 = none)
      (fun r u w =>
        let s1 := touchAll (c r w u).1 u m.policy false (c r w u).2
        startLoad u h s1 d n none u.opcode (loadLanes u s1 n (c r w u).2 fun _ => true) (c r w u).2))
  ∧ (∀ h t d m off, let n := Sys2Proof.Machine.LdcTy.bytes t
    let c := fun (r w : State) (u : IssueUnit) => checkLanes u n n .load w ((u.addrs r m off.toInt n).take 1)
    Does (.ldc h t d m off)
      (fun r u w => u.lanes ≠ [] ∧ readsPending r u = false ∧ accessTrap u r (c r w u).2 = none)
      (fun r u w =>
        let s1 := touchAll (c r w u).1 u m.policy false (c r w u).2
        startLoad u h s1 d n none u.opcode (ldcLanes u s1 n (c r w u).2) (c r w u).2))
  ∧ (∀ h t d pd m off, let n := Sys2Proof.Machine.W2.bytes t
    let c := fun (acc : Acc) (r w : State) (u : IssueUnit) => checkLanes u n n acc w (u.addrs r m off.toInt n)
    let b := fun (r w : State) (u : IssueUnit) =>
      checkLanes u n n .load w ((u.addrs r m off.toInt n).filter fun x => inBound u r m x.1 x.2.1)
    Does (.ldg h t d pd m off)
      (fun r u w => u.lanes ≠ [] ∧ readsPending r u = false ∧ accessTrap u r (b r w u).2 = none)
      (fun r u w =>
        let s1 := touchAll (b r w u).1 u m.policy false (b r w u).2
        startLoad u h s1 d n (some pd) u.opcode (loadLanes u s1 n (b r w u).2 fun _ => true) (b r w u).2)
    ∧ Does (.ldr h t d pd m off)
      (fun r u w => u.lanes ≠ [] ∧ readsPending r u = false ∧ accessTrap u r (c .ldr r w u).2 = none)
      (fun r u w =>
        let s1 := touchAll (c .ldr r w u).1 u m.policy false (c .ldr r w u).2
        startLoad u h s1 d n (some pd) u.opcode (loadLanes u s1 n (c .ldr r w u).2 fun a => a.place != .absent)
          (c .ldr r w u).2)
    ∧ Does (.lde h t d pd m off)
      (fun r u w => u.lanes ≠ [] ∧ readsPending r u = false ∧ accessTrap u r (c .lde r w u).2 = none)
      (fun r u w =>
        let s1 := touchAll (c .lde r w u).1 u .normal false (c .lde r w u).2
        startLoad u h s1 d n (some pd) u.opcode (loadLanes u s1 n (c .lde r w u).2 (existsAt s1 u.part))
          (c .lde r w u).2)))
  ∧ ((∀ id s q c, s.pend.get? id = some q → q.work = .load c → c.ready = true →
    (c.exist = false → exec (.loadCompletion id) s = .next (deliver s id q false (c.resultIn s q.warps q.order))
      ∧ exec (.existenceCompletion id) s = .next s)
    ∧ (c.exist = true → exec (.existenceCompletion id) s = .next (deliver s id q false (c.resultIn s q.warps q.order))
      ∧ exec (.loadCompletion id) s = .next s))
  ∧ ∀ id s q res, s.pend.get? id = some q → q.work = .result .exist res →
    exec (.existenceCompletion id) s = .next (deliver s id q false res) ∧ exec (.loadCompletion id) s = .next s)

/-- ST and SCAT: with no cause of R37 in a lane that accesses, no line still to come from a peer, no tile held for
another's birth and every birth granted, the lanes' bytes are written in unit order; a SCAT lane outside its bound
writes nothing. -/
def Obligations.StoresWrite : Prop :=
  (∀ h t d m off, let n := Sys2Proof.Machine.LdTy.bytes t
    let c := fun (r w : State) (u : IssueUnit) => checkLanes u n n .store w (u.addrs r m off.toInt n)
    let got := fun (r w : State) (u : IssueUnit) => takeFaulted (c r w u).1 (missingLines (c r w u).1 u.part true n (c r w u).2)
    let born := fun (r w : State) (u : IssueUnit) => births true (got r w u) u.part (tilesOf (c r w u).2) []
    Does (.st h t d m off)
      (fun r u w => u.lanes ≠ [] ∧ writeWait u r m.order = none ∧ spanWait r u.part u.asid ((u.addrs r m off.toInt n).map (·.2.2)) = none
        ∧ accessTrap u r (c r w u).2 = none ∧ (∀ a ∈ (c r w u).2, tileReserved (c r w u).1 u.part a.place = false)
        ∧ missingLines (got r w u) u.part true n (c r w u).2 = [] ∧ existFullTrap u r (c r w u).2 (born r w u).2 = none)
      (fun r u w => writePlaces (touchAll (born r w u).1 u m.policy true (c r w u).2) u.part
        ((c r w u).2.map fun a => (a.place, storeBytes u r d n a.part a.lane))))
  ∧ ∀ h t d m off, let n := Sys2Proof.Machine.W2.bytes t
    let c := fun (r w : State) (u : IssueUnit) =>
      checkLanes u n n .store w ((u.addrs r m off.toInt n).filter fun x => inBound u r m x.1 x.2.1)
    let got := fun (r w : State) (u : IssueUnit) => takeFaulted (c r w u).1 (missingLines (c r w u).1 u.part true n (c r w u).2)
    let born := fun (r w : State) (u : IssueUnit) => births true (got r w u) u.part (tilesOf (c r w u).2) []
    Does (.scat h t d m off)
      (fun r u w => u.lanes ≠ [] ∧ writeWait u r m.order = none ∧ spanWait r u.part u.asid
          (((u.addrs r m off.toInt n).filter fun x => inBound u r m x.1 x.2.1).map (·.2.2)) = none
        ∧ accessTrap u r (c r w u).2 = none ∧ (∀ a ∈ (c r w u).2, tileReserved (c r w u).1 u.part a.place = false)
        ∧ missingLines (got r w u) u.part true n (c r w u).2 = [] ∧ existFullTrap u r (c r w u).2 (born r w u).2 = none)
      (fun r u w => writePlaces (touchAll (born r w u).1 u m.policy true (c r w u).2) u.part
        ((c r w u).2.map fun a => (a.place, storeBytes u r d n a.part a.lane)))

/-- ATOM is put in flight with the operands of its lanes, those on a discarded page performed at once, and
ATOM_PERFORM performs the lanes in unit order at their homes, each old value to the lane, the new one of R279 to
memory; once every lane has its old value, D and the flag are written; until then, with a line at a peer, what has
been performed is kept. That the lanes are performed in one step, of its own, is the model's (DESIGN CHOICE, log 8).
-/
def Obligations.Atomics : Prop :=
  (∀ h op d m off, let n := Sys2Proof.Machine.AtomOp.bytes op
    let c := fun (r w : State) (u : IssueUnit) => checkLanes u n n .atom w (u.addrs r m off.toInt n)
    let born := fun (r w : State) (u : IssueUnit) => births false (c r w u).1 u.part (tilesOf (c r w u).2) []
    let first := fun (r w : State) (u : IssueUnit) =>
      performDiscarded w u op (born r w u).1 ((c r w u).2.map (atomLane u r op d))
    Does (.atom h op d m off)
      (fun r u w => u.lanes ≠ [] ∧ writeWait u r m.order = none
        ∧ spanWait r u.part u.asid ((u.addrs r m off.toInt n).map (·.2.2)) = none ∧ accessTrap u r (c r w u).2 = none
        ∧ (∀ a ∈ (c r w u).2, atomWait (c r w u).1 u.part a = none)
        ∧ existFullTrap u r (c r w u).2 (born r w u).2 = none)
      (fun r u w => u.start (reserve (first r w u).1 u d (sizeRegs n)) h [] none (.atom op d (first r w u).2)))
  ∧ ∀ id s q op d lanes, s.pend.get? id = some q → q.work = .atom op d lanes →
    let x := performLanes id q.part q.block (s.asidOfBlock q.block) op s lanes
    ((∀ a ∈ x.2, a.got.isSome) → exec (.atomPerform id) s = .next (deliver x.1 id q false
      (LoadCmd.resultIn ⟨d, Sys2Proof.Machine.AtomOp.bytes op, none, 0x0D9 + op.code, x.2.map fun a => a.loaded false⟩
        x.1 q.warps q.order)))
    ∧ ((∃ a ∈ x.2, a.got = none) → exec (.atomPerform id) s = .next (setWork x.1 id (.atom op d x.2)))

/-- EALLOC, ERASE, ERASER and ETEST. -/
def Obligations.ExistenceInstructions : Prop :=
  (∀ h d m off,
    let c := fun (r w : State) (u : IssueUnit) => checkLanes u 256 256 .exist w (u.addrs r m off.toInt 256)
    let born := fun (r w : State) (u : IssueUnit) => births true (c r w u).1 u.part (tilesOf (c r w u).2) []
    Does (.ealloc h d m off)
      (fun r u w => u.lanes ≠ [] ∧ writeWait u r m.order = none
        ∧ (∀ a ∈ (c r w u).2, tileReserved (c r w u).1 u.part a.place = false)
        ∧ eallocTrap u r (c r w u).2 (born r w u).2 = none)
      (fun r u w => startExist u h (born r w u).1 d (eallocResult (c r w u).1 u.part (c r w u).2)))
  ∧ (∀ h d m off,
    let c := fun (r w : State) (u : IssueUnit) => checkLanes u 256 256 .etest w (u.addrs r m off.toInt 256)
    Does (.etest h d m off)
      (fun r u w => u.lanes ≠ [] ∧ readsPending r u = false ∧ accessTrap u r (c r w u).2 = none)
      (fun r u w => startExist u h (c r w u).1 d fun x l =>
        (((c r w u).2.find? fun a => a.part.uid == x.uid && a.lane == l).map fun a =>
          etestMask (c r w u).1 u.part a.place).getD 0))
  ∧ ∀ h d m off,
    let c := fun (r w : State) (u : IssueUnit) => checkLanes u 256 256 .exist w (u.addrs r m off.toInt 256)
    let checked := fun (r w : State) (u : IssueUnit) (n : UPart → Nat → Nat) =>
      addCauses (c r w u).2 fun a => eraseCause (c r w u).1 u.part a (n a.part a.lane)
    let ready := fun (r : State) (u : IssueUnit) (w : State) (n : UPart → Nat → Nat) =>
      u.lanes ≠ [] ∧ writeWait u r m.order = none ∧ accessTrap u r (checked r w u n) = none
        ∧ ∀ a ∈ checked r w u n, anyReserved (c r w u).1 u.part a.place (n a.part a.lane) = false
    let erased := fun (r : State) (u : IssueUnit) (w : State) (n : UPart → Nat → Nat) =>
      (checked r w u n).foldl (fun s a => eraseFrom s u.part a.place (n a.part a.lane)) (c r w u).1
    Does (.erase h m off) (fun r u w => ready r u w fun _ _ => 1) (fun r u w => erased r u w fun _ _ => 1)
    ∧ Does (.eraser h d m off) (fun r u w => ready r u w fun x l => (u.read r x d l).toNat)
        (fun r u w => erased r u w fun x l => (u.read r x d l).toNat)

/-! ## Ordering, residency -/

/-- FENCE, TOKEN.take, TOKEN.pass, PREFETCH and RESERVE: a fence that has nothing left to order moves on, an acquire
at core scope or wider drops the fetch unit's cache; the token's holder keeps it at take and hands it on at pass;
prefetches touch caches only, a reservation brings the lines of each lane's range into the LLC. That every fence
stalls until every earlier access has been performed, where R281 asks .rel for the writes and .acq for the reads
alone, is the model's choice (log 2). DISCARD gives up the pages of the taken lanes, REQPAGE posts a request for each
non-resident page among them that has not been requested. That DISCARD waits while spanFull holds is the model's way
of keeping the bound of R93 (log 24). -/
def Obligations.OrderingAndResidency : Prop :=
  ((∀ h order sc, Does (.fence h order sc)
    (fun r u _ => u.lanes ≠ [] ∧ accessesPending r u = false)
    (fun _ u w => if (order = .acq ∨ order = .acqrel) ∧ sc ≠ .warp then w.mapCore u.core fun c => { c with fcache := [] }
      else w))
  ∧ (∀ h order sc, Stalls (.fence h order sc)
    (fun r u _ => u.lanes ≠ [] ∧ accessesPending r u = true) (fun r _ => r)
    (fun _ u => .stall (.accesses u.uids true)))
  ∧ (∀ h, Does (.tokenTake h)
      (fun r u _ => u.lanes ≠ [] ∧ tokenCode r u = none ∧ holdsToken r u = true) (fun _ _ w => w)
    ∧ Stalls (.tokenTake h)
      (fun r u _ => u.lanes ≠ [] ∧ tokenCode r u = none ∧ holdsToken r u = false) (fun r _ => r)
      (fun _ u => .stall (.token u.kernel u.block))
    ∧ Does (.tokenPass h)
      (fun r u _ => u.lanes ≠ [] ∧ tokenCode r u = none ∧ holdsToken r u = true ∧ engineBusy r u.block = false
        ∧ accessesPending r u = false)
      (fun r u w => w.mapKernel u.kernel fun k => k.passToken ((r.blocks.get? u.block).elim 0 (·.rank))))
  ∧ ∀ h m off,
    Does (.prefetch h m off) (fun r u _ => canonTrap u r (u.addrs r m off.toInt 128) = none)
      (fun r u w =>
        let c := checkLanes u 1 1 .prefetch w (u.addrs r m off.toInt 128)
        let as := c.2.filter fun a => a.cause.isNone && a.place != .absent
        askAll (touchAll c.1 u m.policy false as) (missingLines c.1 u.part false 1 as))
    ∧ ∀ d, Does (.reserve h d m off) (fun r u _ => canonTrap u r (u.addrs r m off.toInt 128) = none)
      (fun r u w => reserveSpans u m.policy w []
        ((u.addrs r m off.toInt 128).map fun a => reserveSpan a.2.2 (u.read r a.1 d a.2.1).toNat)))
  ∧ (∀ h m off,
    (let c := fun (r w : State) (u : IssueUnit) => checkLanes u 1 1 .discard w (u.addrs r m off.toInt 65536)
     Does (.discard h m off)
      (fun r u w => u.lanes ≠ [] ∧ writeWait u r m.order = none ∧ accessTrap u r (c r w u).2 = none
        ∧ spanFull r u.part = false)
      (fun r u w => (c r w u).2.foldl (fun s a => discardPage s u.part u.asid a.ea) (c r w u).1))
    ∧ (let c := fun (r w : State) (u : IssueUnit) => checkLanes u 1 1 .reqpage w (u.addrs r m off.toInt 65536)
       Does (.reqpage h m off) (fun r u w => accessTrap u r (c r w u).2 = none)
      (fun r u w => (c r w u).2.foldl (fun s a => postRequest s u.part u.asid a.ea) (c r w u).1)))

/-! ## Transfers of control -/

/-- BRA, BRX, CALL, CALLX and RET. The parts of the unit go to the target and to the next clause, a part on both sides
divides; calls write the next clause's address to the pair D. The register forms take the lead lane's target when
every taken lane holds it and it is a multiple of 8. Where no part is on both sides, each split goes as a whole. -/
def Obligations.Branches : Prop :=
  (∀ h target reconv (f : State → IssueUnit → State → State),
    Goes (.bra h target reconv)
      (fun r u w => u.lanes ≠ [] ∧ branchMoves u w (u.offsetPc target) (u.rpc reconv) = .ok (f r u w)) f
    ∧ ∀ d, Goes (.call h d target reconv)
      (fun r u w => u.lanes ≠ [] ∧ branchMoves u (u.write64 w d fun _ _ => u.nextPc) (u.offsetPc target) (u.rpc reconv)
        = .ok (f r u w)) f)
  ∧ (∀ h a (reconv : BitVec 12) (t : State → IssueUnit → Word) (f : State → IssueUnit → State → State),
    let agree := fun (r : State) (u : IssueUnit) =>
      u.lanes ≠ [] ∧ (∀ x ∈ u.lanes, u.read64 r x.1 a x.2 = t r u) ∧ (t r u).toNat % 8 = 0
    Goes (.brx h a reconv) (fun r u w => agree r u ∧ branchMoves u w (t r u) (u.rpc reconv) = .ok (f r u w)) f
    ∧ Goes (.ret h a) (fun r u w => agree r u ∧ branchMoves u w (t r u) none = .ok (f r u w)) f
    ∧ ∀ d, Goes (.callx h d a reconv)
      (fun r u w => agree r u ∧ branchMoves u (u.write64 w d fun _ _ => u.nextPc) (t r u) (u.rpc reconv) = .ok (f r u w)) f)
  ∧ ∀ (u : IssueUnit) (w : State) (t : Word) (rpc : Option Word),
    (∀ x ∈ u.parts, x.act = 0 ∨ x.live &&& ~~~x.act = 0) →
    branchMoves u w t rpc = .ok (u.parts.foldl (fun s x => s.mapSplit x.uid x.idx fun p =>
      p.goto (if x.act = 0 then u.nextPc else t)) (noteConflict { w with seq := w.seq + 1 } u))

/-- EXIT, REJOIN, JOIN, LEAVE and NOP. That EXIT goes on over held error records in supervisor mode is the model's
reading (log 23); R291 names no such exception. -/
def Obligations.EndsRejoinsAndSets : Prop :=
  (∀ h, Goes (.exit h)
      (fun r u _ => u.lanes ≠ [] ∧ unitFlagsSet r u = true ∧ (u.super = true ∨ unitRecords r u = []))
      (fun _ u w => settle (afterWait (exitLanes u (noteConflict w u)) u.block))
    ∧ Stalls (.exit h) (fun r u _ => u.lanes ≠ [] ∧ unitFlagsSet r u = false) (fun r _ => r)
      (fun _ u => .stall (.flags u.uids))
    ∧ (∀ f : State → IssueUnit → State → State, Goes (.rejoin h)
      (fun r u w => u.lanes ≠ [] ∧ (∀ x ∈ u.parts, x.act ≠ 0 → (rejoinPc r x).isSome)
        ∧ moveParts (fun p q => q.goto ((rejoinPc r p).getD 0)) (fun _ q => q.goto u.nextPc) (noteConflict w u) u.parts
          = .ok (f r u w)) f)
    ∧ Does (.nop h) (fun _ _ _ => True) fun _ _ w => w)
  ∧ ∀ h (x : UPart) (l : Nat),
    (∀ a k, Does (.join h a)
      (fun r u _ => u.lead = some (x, l) ∧ (u.read r x a l).toNat = k ∧ k < 8
        ∧ ((r.warps.get? x.uid).bind (·.setId)) = none
        ∧ (((r.blocks.get? u.block).bind fun b => b.sets.get? k).getD []).length < 16)
      (fun _ _ w => joinSet w x.uid k))
    ∧ ∀ k sid, Does (.leave h)
      (fun r u _ => u.lead = some (x, l) ∧ (r.warps.get? x.uid).bind (·.setId) = some (k, sid))
      (fun _ u w => afterWait (leaveSet w x.uid) u.block)

/-- TRAP: the taken lanes trap with the code and A, the passing lanes go on, no last-use entry is emptied. TRET
returns the handling split. -/
def Obligations.TrapAndReturnWords : Prop :=
  (∀ h a code s s1 u s2, s.issues (.trap h a code) = some (s1, u) → u.lanes ≠ [] →
    moveParts (fun _ q => q) (fun _ q => q.goto u.nextPc) s1 u.parts = .ok s2 →
    exec (.trap h a code) s = .next (takeTrap (countIssue s2 u) (takenParts u) u.scope
      (u.trapAll s1 Code.swTrap (u.once s1 a) (code.setWidth 32) 0 0)))
  ∧ ∀ h (x : UPart) (l : Nat), Goes (.tret h) (fun _ u _ => u.lead = some (x, l))
    fun _ u w => afterWait (returnTrap w x.uid x.idx) u.block

/-! ## Launching -/

/-- SPAWN, LAUNCH, LAUNCH_COMPLETION, LWAIT and PACK_WARP. -/
def Obligations.Launching : Prop :=
  (∀ h a b c pd (n : Fin 9), Does (.spawn h a b c pd n)
    (fun r u _ => u.lanes ≠ [] ∧ n.val ≤ r.peakOf u.kernel ∧ accessTrap u r (spawnEntries u r a) = none)
    (fun r u w => let q := queueAll u r a b c n.val w u.lanes
      u.writePred q.1 pd fun p l => q.2.contains (p.uid, l)))
  ∧ (∀ h d a pd,
    let c := fun (r w : State) (u : IssueUnit) =>
      checkLanes u 128 128 .load w (u.lanes.map fun x => (x.1, x.2, u.read64 r x.1 a x.2))
    Does (.launch h d a pd)
      (fun r u w => u.lanes ≠ [] ∧ accessTrap u r (launchCauses (c r w u).2) = none)
      (fun r u w => u.start (askAll (reserve (c r w u).1 u d 1) (missingLines (c r w u).1 u.part false 128 (c r w u).2)) h [] none
        (.launch d pd u.kernel ((c r w u).2.map fun x =>
          ⟨x.part.uid, x.lane, x.part.lane x.lane, x.ea, x.place, 0, 0, none⟩))))
  ∧ (∀ id s q d pd k lanes, s.pend.get? id = some q → q.work = .launch d pd k lanes →
    launchWaits s q lanes = false →
    exec (.launchCompletion id) s = .next
      (let x := launchLanes q k s lanes
       deliver x.1 id q false (LoadCmd.resultIn ⟨d, 4, some pd, 0x10B, x.2⟩ x.1 q.warps q.order)))
  ∧ (∀ h d a pd,
    Does (.lwait h d a pd true) (fun _ u _ => u.lanes ≠ [])
      (fun r u w => u.writePred (u.write (freeHandles w u (takenHandles u r (lwaitLanes u r a))) d fun p l =>
        (lwaitTest u r (u.read r p a l)).1) pd fun p l => (lwaitTest u r (u.read r p a l)).2)
    ∧ (∀ ls, Does (.lwait h d a pd false)
      (fun r u _ => u.lanes ≠ [] ∧ u.waitOf r = .lwait ls ∧ ∀ x ∈ ls, x.got.isSome)
      (fun _ u w => lwaitWrite u w d pd ls))
    ∧ Does (.lwait h d a pd false)
      (fun r u _ => u.lanes ≠ [] ∧ (∀ ls, u.waitOf r ≠ .lwait ls) ∧ ∀ x ∈ lwaitWaits u r (lwaitLanes u r a), x.got.isSome)
      (fun r u w => lwaitWrite u (freeHandles w u (takenHandles u r (lwaitLanes u r a))) d pd
        (lwaitWaits u r (lwaitLanes u r a))))
  ∧ ∀ core s part p k, partOfCore s core = some (part, p) → p.halt = .running → packReady (s.core core) = true →
    let s1 := releaseHeld s [core]
    let rs := packGroup s1 p core fun a => fitsNow s1 core a || admitted s1 core a
    (rs.head?.bind fun r => s1.kernels.get? r.kernel) = some k →
    (fitsNow s1 core k.packAsk = true → exec (.packWarp core) s = .next (startPacked s1 part core k rs))
    ∧ (fitsNow s1 core k.packAsk = false →
      exec (.packWarp core) s = .next (startAdmission s1 ((rs.head?).elim 0 (·.kernel)) true k.packAsk [core]))

/-! ## Incumbents -/

/-- KINIT, KUPD, KREAD and the events behind them: the home is written, updates arrive and are applied in lane order,
broadcasts reach the copies of the cores; KINIT waits until every copy holds the new state. That KREAD takes its value
at issue and that an update is performed at its arrival are the model's choices (log 9), the Kiln as the source of a
type mismatch is its reading (log 35). -/
def Obligations.IncumbentRegisters : Prop :=
  (∀ h a (k : Fin 16) dirMin f32 (x : UPart) (l : Nat),
    Stalls (.kinit h a k dirMin f32) (fun r u _ => u.lead = some (x, l) ∧ (∀ j n, u.waitOf r ≠ .kinit j n)
        ∧ readsPending r u = false ∧ incumbentBusy r u.uids u.core k.val false = false)
      (fun r u => setIncumbent r u.part k.val ⟨f32, dirMin, u.read r x (Reg.plus a 1) l, u.read r x a l⟩ u.uids)
      (fun r _ => .kinit k.val r.seq)
    ∧ (∀ j n, Stalls (.kinit h a k dirMin f32)
      (fun r u _ => u.lead = some (x, l) ∧ u.waitOf r = .kinit j n ∧ copiesBehind r u.part j n = true)
      (fun r _ => r) (fun _ _ => .kinit j n))
    ∧ ∀ j n, Does (.kinit h a k dirMin f32)
      (fun r u _ => u.lead = some (x, l) ∧ u.waitOf r = .kinit j n ∧ copiesBehind r u.part j n = false) fun _ _ w => w)
  ∧ (∀ h f32 a b (k : Fin 16) rel, Does (.kupd h f32 a b k rel) (fun _ u _ => u.lanes ≠ [])
      (fun r u w => startCommand w u.part u.warps 15 u.block [] none false (.kupd k.val f32
        (u.lanes.map fun x => (u.read r x.1 a x.2, u.read r x.1 b x.2)) rel)))
  ∧ (∀ part k f32 ups s id q, arriving s part k f32 ups = some (id, q) →
    ((s.incumbent part k).f32 = f32 → exec (.incumbentUpdateArrival part k f32 ups) s = .next (deliver
      (if ((s.incumbent part k).applyAll ups).2 then
        dieUpdates (setIncumbent s part k ((s.incumbent part k).applyAll ups).1 (q.warps.map (·.1))) part 1
      else s) id q false Result.empty))
    ∧ ((s.incumbent part k).f32 ≠ f32 → exec (.incumbentUpdateArrival part k f32 ups) s
      = .next (deliver (s.countErr Source.kiln part 11 (BitVec.ofNat 64 k)) id q false Result.empty)))
  ∧ (∀ part k f32 ups s, arriving s part k f32 ups = none → exec (.incumbentUpdateArrival part k f32 ups) s = .next s)
  ∧ (∀ part k f32 ups s id q, arriving s part k f32 ups = some (id, q) → q.part = part
    ∧ ∃ rel, q.work = .kupd k f32 ups rel ∧ kupdWaits s q k rel = false)
  ∧ (∀ h d (k : Fin 16) acq,
    Does (.kread h d k acq)
      (fun r u _ => u.lanes ≠ [] ∧ readsPending r u = false ∧ incumbentBusy r u.uids u.core k.val acq = false)
      (fun _ u w =>
        let i := if acq = true then w.incumbent u.part k.val else w.copy u.core k.val
        u.start (reserve w u d 2) h [] none (.result .kread
          ⟨u.regWrites64 d (fun _ _ => i.value ++ i.witness) fun _ _ => true, [], [], 0, none⟩)))
  ∧ (∀ id s q res, s.pend.get? id = some q → q.work = .result .kread res →
    exec (.kreadCompletion id) s = .next (deliver s id q false res))
  ∧ ∀ core s k n i ws rest, (s.core core).bcast = (k, n, i, ws) :: rest →
    exec (.incumbentCopyUpdate core) s = .next (settle (afterCore (checkWaiting
      (s.mapCore core fun c => { c with copies := c.copies.put k i, bcast := rest }) core) core))

/-! ## Barriers and queues -/

/-- ABINIT, ABARRIVE and ABWAIT, at a 16-aligned offset whose object lies in the block's scratch; a split that waits
keeps the offset and the value it read once. -/
def Obligations.ArriveWaitBarriers : Prop :=
  (∀ h a b c, Does (.abinit h a b c)
    (fun r u _ => u.lanes ≠ [] ∧ abarTrap u r (u.once r a) = none ∧ (u.once r b).toNat ≤ 65535 ∧ readsPending r u = false)
    (fun r u w => w.mapBlock u.block fun x => x.writeScratch (u.once r a).toNat
      (leBytes 4 (u.once r b).toNat ++ leBytes 4 (u.once r c).toNat ++ List.replicate 8 0)))
  ∧ (∀ h d a b, Does (.abarrive h d a b)
    (fun r u _ => u.lanes ≠ [] ∧ abarTrap u r (u.once r a) = none ∧ accessesPending r u = false)
    (fun r u w => u.write (abarUpdate w u.block (u.once r a).toNat (u.once r b).toNat 0) d fun _ _ =>
      BitVec.ofNat 32 ((r.blocks.get? u.block).elim 0 fun x => (x.abar (u.once r a).toNat).gen)))
  ∧ ∀ h a b gen,
    let first := fun (r : State) (u : IssueUnit) =>
      u.lanes ≠ [] ∧ (∀ o g v m, u.waitOf r ≠ .abwait o g v m) ∧ abarTrap u r (u.once r a) = none
    let met := fun (r : State) (u : IssueUnit) => abarMet r u.block (u.once r a).toNat gen (u.once r b)
    Does (.abwait h a b gen) (fun r u _ => first r u ∧ met r u = true) (fun _ _ w => w)
    ∧ Stalls (.abwait h a b gen) (fun r u _ => first r u ∧ met r u = false) (fun r _ => r)
      (fun r u => .abwait (u.once r a).toNat gen (u.once r b) false)
    ∧ ∀ o g v m,
      Does (.abwait h a b gen)
        (fun r u _ => u.lanes ≠ [] ∧ u.waitOf r = .abwait o g v m ∧ (m = true ∨ abarMet r u.block o g v = true))
        (fun _ _ w => w)
      ∧ Stalls (.abwait h a b gen)
        (fun r u _ => u.lanes ≠ [] ∧ u.waitOf r = .abwait o g v m ∧ m = false ∧ abarMet r u.block o g v = false)
        (fun r _ => r) fun _ _ => .abwait o g v false

/-- QINIT, QACQ and QREL: slots are taken in ring order, counts move between free, filled and taken. -/
def Obligations.ProducerConsumerQueues : Prop :=
  (∀ h a b c (q : Fin 8), Does (.qinit h a b c q)
    (fun r u _ => u.lanes ≠ [] ∧ qinitTrap u r (u.once r a) (u.once r b) (u.once r c) = none
      ∧ queueBusy r u.block q.val = false)
    (fun r u w => setQueue w u.block q.val
      ⟨(u.once r a).toNat, (u.once r b).toNat, (u.once r c).toNat, (u.once r b).toNat, 0, 0, 0, 0, 0⟩))
  ∧ (∀ h d (q : Fin 8) (x : Queue),
    Does (.qacqFree h d q) (fun r u _ => u.lanes ≠ [] ∧ queueOf r u.block q.val = some x ∧ x.free ≠ 0)
      (fun _ u w => u.write (setQueue w u.block q.val
        { x with free := x.free - 1, pi := (x.pi + 1) % x.slots, takenFree := x.takenFree + 1 }) d fun _ _ =>
        BitVec.ofNat 32 (x.base + x.size * x.pi))
    ∧ Does (.qacqFull h d q) (fun r u _ => u.lanes ≠ [] ∧ queueOf r u.block q.val = some x ∧ x.full ≠ 0)
      (fun _ u w => u.write (setQueue w u.block q.val
        { x with full := x.full - 1, ci := (x.ci + 1) % x.slots, takenFull := x.takenFull + 1 }) d fun _ _ =>
        BitVec.ofNat 32 (x.base + x.size * x.ci))
    ∧ Stalls (.qacqFree h d q) (fun r u _ => u.lanes ≠ [] ∧ queueOf r u.block q.val = some x ∧ x.free = 0)
      (fun r _ => r) (fun _ u => .stall (.slot u.block q.val false))
    ∧ Stalls (.qacqFull h d q) (fun r u _ => u.lanes ≠ [] ∧ queueOf r u.block q.val = some x ∧ x.full = 0)
      (fun r _ => r) fun _ u => .stall (.slot u.block q.val true))
  ∧ ∀ h (q : Fin 8) (x : Queue),
    Does (.qrelFull h q)
      (fun r u _ => u.lanes ≠ [] ∧ queueOf r u.block q.val = some x ∧ x.takenFree ≠ 0 ∧ accessesPending r u = false)
      (fun _ u w => setQueue w u.block q.val { x with full := x.full + 1, takenFree := x.takenFree - 1 })
    ∧ Does (.qrelFree h q)
      (fun r u _ => u.lanes ≠ [] ∧ queueOf r u.block q.val = some x ∧ x.takenFull ≠ 0 ∧ accessesPending r u = false)
      (fun _ u w => setQueue w u.block q.val { x with free := x.free + 1, takenFull := x.takenFull - 1 })

/-! ## System registers and issue control -/

/-- GETSR, SETSR and the events that stand for single register accesses: a read gives the register's value in each
part's split and has its effect once, a write goes by the register's access code; where the write has a completion,
the unit waits for it. That a register of which each warp has its own is written in every warp of the unit is the
model's reading (log 24); R305 says once. -/
def Obligations.SystemRegisters : Prop :=
  (∀ h d sr, Does (.getsr h d sr) (fun _ u _ => u.lanes ≠ [])
    (fun r u w => u.write (readParts u w sr.toNat) d fun p _ => partRead r p sr.toNat))
  ∧ (∀ h a sr (f : State → IssueUnit → State → State),
    Does (.setsr h a sr)
      (fun r u w => u.lanes ≠ [] ∧ (∀ id, u.waitOf r ≠ .command id)
        ∧ writeParts u w sr.toNat (u.once r a) = (f r u w, none)) f)
  ∧ (∀ h a sr (f : State → IssueUnit → State) (id : State → IssueUnit → Nat),
    Stalls (.setsr h a sr)
      (fun r u w => u.lanes ≠ [] ∧ (∀ id, u.waitOf r ≠ .command id) ∧ (writeParts u w sr.toNat (u.once r a)).2.isSome
        ∧ writeParts u r sr.toNat (u.once r a) = (f r u, some (id r u))) f fun r u => .command (id r u))
  ∧ (∀ h a sr id,
    Does (.setsr h a sr) (fun r u _ => u.lanes ≠ [] ∧ u.waitOf r = .command id ∧ r.pend.get? id = none) (fun _ _ w => w)
    ∧ Stalls (.setsr h a sr) (fun r u _ => u.lanes ≠ [] ∧ u.waitOf r = .command id ∧ (r.pend.get? id).isSome)
      (fun r _ => r) fun _ _ => .command id)
  ∧ (∀ warp idx sr value s, exec (.systemRegisterWrite warp idx sr value) s
      = .next (sysWrite s warp idx sr.toNat value).1)
  ∧ ∀ warp d s w q, s.warps.get? warp = some w → w.splits.vals.head? = some q →
    exec (.tscloRead warp d) s = .next ((s.mapWarp warp fun w => { w with tsHi := s.tscHi }).mapWarp warp fun w =>
      w.writeLate d w.lanes (fun _ => s.tscLo) s.tscLo)
    ∧ ∀ p, s.parts.get? (s.partOf w) = some p → exec (.qpop warp d) s = .next
        (let v : Half := (popFrame s (s.partOf w) p).elim 0xFFFFFFFF fun e => lo32 e.1
         let s1 := match popFrame s (s.partOf w) p with
          | some e => s.mapPart (s.partOf w) fun p => { p with qlist := p.qlist.erase e }
          | none => s
         s1.mapWarp warp fun w => w.writeLate d w.lanes (fun _ => v) v)

/-- YIELD gives up the scheduler and holds the splits for at most 4096 clk, in which they are not ready and which the
clk that pass count down; YIELD_EXPIRY ends a hold that has passed and leaves another alone; PRIO sets the warps'
level, at user level not above the kernel's. -/
def Obligations.IssueControl : Prop :=
  (∀ h a,
    Does (.yield h a) (fun _ u _ => u.lanes ≠ [])
      (fun r u w =>
        let n := Nat.min (u.once r a).toNat 4096
        u.parts.foldl (fun s p => (dropOwner s p.uid p.idx).mapSplit p.uid p.idx fun q =>
          { q with yields := if n = 0 then none else some n }) w)
    ∧ Does (.prio h a) (fun _ u _ => u.lanes ≠ [])
      (fun r u w =>
        let want := Nat.min (u.once r a).toNat 3
        let level := if u.super then want else Nat.min want ((r.kernels.get? u.kernel).elim 0 (·.prio))
        u.parts.foldl (fun s p => s.mapWarp p.uid fun x => { x with prio := level }) w))
  ∧ (∀ s uid w p n, p.yields = some (n + 1) → splitReady s uid w p = false)
  ∧ (∀ s uid idx w p n d, s.warps.get? uid = some w → w.splits.get? idx = some p → p.yields = some n →
    ∃ w' p', (passTime s d).warps.get? uid = some w' ∧ w'.splits.get? idx = some p' ∧ p'.yields = some (n - d))
  ∧ ∀ uid idx s w p, s.warps.get? uid = some w → w.splits.get? idx = some p →
    ∃ t, exec (.yieldExpiry uid idx) s = .next t ∧ t = { s with warps := t.warps }
      ∧ (∀ n, n ≠ uid → t.warps.get? n = s.warps.get? n)
      ∧ ∃ w', t.warps.get? uid = some w' ∧ w' = { w with splits := w'.splits }
        ∧ (∀ n, n ≠ idx → w'.splits.get? n = w.splits.get? n)
        ∧ w'.splits.get? idx = some (if p.yields = some 0 then { p with yields := none } else p)

/-- The events behind registers of a partition: invalidations, descriptor reloads, quarantine posts, reservation
ranges. That an invalidation does not complete while spanFull holds is the model's way of keeping the bound of R93
(log 24). -/
def Obligations.RegisterEvents : Prop :=
  (∀ part value s p, s.parts.get? part = some p →
    exec (.tlbinvAddress part value) s = .next (startCommand s part [] 15 0 [] none false (.inval
      (.address (value.toNat % 1024) (p.sys 0x0CC ++ p.sys 0x0CB))))
    ∧ exec (.tlbinvAsid part value) s = .next (startCommand s part [] 15 0 [] none false (.inval (.asid (value.toNat % 1024))))
    ∧ exec (.tlbinvPartition part value) s = .next (startCommand s part [] 15 0 [] none false (.inval .all))
    ∧ exec (.qpost part value) s = .next (s.mapPart part fun p => p.post value)
    ∧ exec (.rgnselWrite part value) s = .next (startCommand
        (s.mapPart part fun p => { p with sysregs := p.sysregs.setNum 0x0C6 (value &&& 0xFF#32) }) part [] 15 0 [] none false
        (.reload (value.toNat % 256) []))
    ∧ ∀ reg, 0xA0 ≤ reg → reg ≤ 0xBF → exec (.reservationRangeWrite part reg value) s
        = .next (s.mapPart part fun p => p.write reg value))
  ∧ ∀ id s q, s.pend.get? id = some q →
    (∀ c, q.work = .inval c →
      (spanFull s q.part = false → exec (.invalidationComplete id) s
        = .next (({ s with pend := s.pend.del id }).mapPart q.part fun p => p.invalidate c))
      ∧ (spanFull s q.part = true → exec (.invalidationComplete id) s = .next s))
    ∧ ∀ r ws, q.work = .reload r ws →
      (reloadWaits s q r ws = false → exec (.descriptorReloadComplete id) s
        = .next (reloadRegion { s with pend := s.pend.del id } q.part r))
      ∧ (reloadWaits s q r ws = true → exec (.descriptorReloadComplete id) s = .next s)

/-! ## The core pool -/

/-- POOLSET answers the code of the first failing check, and an accepted change starts; POOLQ answers its quantity; a
change of split passes its phases at SPLIT_DRAIN_END, SPLIT_RELOCATE_END and SPLIT_REMAP_END. Which L1 lines stay at
the end of a drain is the model's choice (log 13). -/
def Obligations.PoolAndSplitChanges : Prop :=
  (∀ h d a c, Does (.poolset h d a)
    (fun r u w => u.lanes ≠ [] ∧ overPeak r (reserve w u d 1) u = none ∧ poolCheck r u (u.once r a) = some c)
    (fun _ u w => u.write w d fun _ _ => BitVec.ofNat 32 c))
  ∧ (∀ h d a, Does (.poolset h d a)
    (fun r u w => u.lanes ≠ [] ∧ overPeak r (reserve w u d 1) u = none ∧ poolCheck r u (u.once r a) = none)
    (fun r u w => enterPhase ((u.start (reserve w u d 1) h [] none (.poolset u.core d (u.masksOf d))).mapCore u.core fun c =>
      { c with change := some ⟨1, false, u.once r a, u.block, w.seq⟩ }) u.core 1))
  ∧ (∀ h d n, Computes (.poolq h d n)
    (fun s u => [(d, fun _ _ => BitVec.ofNat 32 (poolQuantity s u.core u.block (u.lead.elim 0 fun x => x.1.uid) n.val))])
    (fun _ _ => []) fun _ _ => 0)
  ∧ ∀ core s ch, (s.core core).change = some ch →
    (ch.state = 1 → exec (.splitDrainEnd core) s = .next (enterPhase (s.mapCore core fun c =>
      { c with l1 := c.l1.filter fun t => decide (t.1 % (64 * c.cch) < 64 * poolCch ch.target) }) core 2))
    ∧ (ch.state = 2 → exec (.splitRelocateEnd core) s = .next (enterPhase s core 3))
    ∧ (ch.state = 3 → exec (.splitRemapEnd core) s = .next (enterPhase s core 4))

/-- TALLOC, TFREE, STASH, UNSTASH and the events of stash windows. The bytes that scratch holds under a new window
(Config.stashByte, log 26) and the bank of a new tile (pickBank, log 13) are the model's choices. -/
def Obligations.TilesAndStashWindows : Prop :=
  (∀ h m b, Does (.talloc h m)
    (fun r u _ => u.lanes ≠ [] ∧ r.blocks.get? u.block = some b ∧ b.tiles.get? m.val = none
      ∧ b.tiles.length < (r.kernels.get? u.kernel).elim 0 (·.tiles))
    (fun r u w => w.mapBlock u.block fun b =>
      { b with tiles := b.tiles.put m.val [], banks := b.banks.put m.val (pickBank r u.core) }))
  ∧ (∀ h m b, Does (.tfree h m)
    (fun r u _ => u.lanes ≠ [] ∧ r.blocks.get? u.block = some b ∧ (b.tiles.get? m.val).isSome
      ∧ tileBusy r u.block m.val = false)
    (fun _ u w => w.mapBlock u.block fun b => { b with tiles := b.tiles.del m.val, banks := b.banks.del m.val }))
  ∧ (∀ h a b c (n : Fin 4) x (f : State → IssueUnit → State → State × List (Word × Xlat)), Does (.stash h a b c n)
    (fun r u w => u.lanes ≠ [] ∧ r.blocks.get? u.block = some x
      ∧ stashTrap u r x n.val (u.once64 r a) (u.once r b) (u.once r c) = none
      ∧ stashPages w u.part u.asid (rangePages (u.once64 r a) (u.once r b).toNat) = .ok (f r u w)
      ∧ ∀ y ∈ (f r u w).2, stashable (f r u w).1 u.part y.2 = true)
    (fun r u w => { (f r u w).1 with draws := (f r u w).1.draws + 1 }.mapBlock u.block fun x =>
      { x.writeScratch (u.once r c).toNat ((List.range (u.once r b).toNat).map fun i =>
          Config.stashByte (f r u w).1.draws i) with
        windows := x.windows.put n.val ⟨u.once64 r a, (u.once r b).toNat, (u.once r c).toNat, false, []⟩ }))
  ∧ (∀ h (n : Fin 4) x, Does (.unstash h n)
    (fun r u _ => u.lanes ≠ [] ∧ ((r.blocks.get? u.block).bind fun b => b.windows.get? n.val) = some x ∧ x.closing = false)
    (fun _ u w => u.start (w.mapBlock u.block fun b =>
      { b with windows := b.windows.put n.val { x with closing := true } }) h [] none (.unstash u.block n.val)))
  ∧ (∀ id s q b n, s.pend.get? id = some q → q.work = .unstash b n → exec (.unstashCompletion id) s
      = .next (deliver (s.mapBlock b fun x => x.closeWindow n) id q false Result.empty))
  ∧ ∀ block window s x w, s.blocks.get? block = some x → x.windows.get? window = some w →
    let w1 : Window := { w with owned := w.owned.map fun o => (o.1, false, o.2.2) }
    let x1 : Block := { x with windows := x.windows.put window w1 }
    exec (.stashWriteback block window) s = .next { s with blocks := s.blocks.put block x1 }

/-! ## Engines -/

/-- CPY, the queue slots it takes, and its completion: a copy to global memory that waits for no line is made at issue
(the model's choice of moment, log 9), any other at completion; then its slot is filled, its bytes are counted, its
flag is set. -/
def Obligations.CopyEngine : Prop :=
  (∀ h dir d a b c twoD ab (q : Fin 8) sc,
    let o := fun (r : State) (u : IssueUnit) => copyOps u r dir d a b c twoD ab
    let qn : Option Nat := if d = .queue then some q.val else none
    let cmd := fun (r : State) (u : IssueUnit) => (o r u).cmd u.block u.opcode dir qn sc
    let g := fun (r : State) (u : IssueUnit) => engineOf r u.part u.block u.opcode r.fab.faulted
    Does (.cpy h dir d a b c twoD ab q sc)
      (fun r u _ => u.lanes ≠ [] ∧ copyTrap u r (o r u) dir twoD qn = none ∧ accessesPending r u = false
        ∧ (o r u).rb = 0 ∧ d ≠ .queue)
      (fun r u w => (o r u).abar.elim w fun a => abarUpdate w u.block a.toNat 0 0)
    ∧ Does (.cpy h dir d a b c twoD ab q sc)
      (fun r u _ => u.lanes ≠ [] ∧ copyTrap u r (o r u) dir twoD qn = none ∧ ((o r u).rb ≠ 0 ∨ d = .queue)
        ∧ accessesPending r u = false ∧ dir.dKind ≠ .global)
      (fun r u w => u.start w h ((o r u).tiles dir) qn (.copy (cmd r u) qn.isSome))
    ∧ Does (.cpy h dir d a b c twoD ab q sc)
      (fun r u _ => u.lanes ≠ [] ∧ copyTrap u r (o r u) dir twoD qn = none ∧ ((o r u).rb ≠ 0 ∨ d = .queue)
        ∧ dir.dKind = .global ∧ accessesPending r u = false ∧ copiesWait r (g r u) [cmd r u] = none)
      (fun r u w =>
        let x := runCopy w (g r u) (cmd r u)
        u.start (noteFaulted x.1 (copyLines r (g r u) (cmd r u))) h ((o r u).tiles dir) none (.copy { cmd r u with ran := true, err := x.2 } false)))
  ∧ (∀ id s q c n x, s.pend.get? id = some q → q.work = .copy c true → c.queue = some n → queueOf s c.block n = some x →
    0 < x.free → firstInQueue s id q = true → partRuns s q.part = true →
    exec (.cpyQueueSlotTake id) s = .next (setWork (setQueue s c.block n
      { x with free := x.free - 1, pi := (x.pi + 1) % x.slots, takenFree := x.takenFree + 1 }) id
      (.copy { c with dst := BitVec.ofNat 64 (x.base + x.size * x.pi) } false)))
  ∧ ∀ id s q c, s.pend.get? id = some q → q.work = .copy c false → partRuns s q.part = true →
    (c.ran = true → exec (.copyCommandCompletion id) s = .next (finishCopy s id q c c.err))
    ∧ (c.ran = false → copyMissing s (engineOf s q.part c.block c.opcode q.faults) c = [] →
      exec (.copyCommandCompletion id) s = .next
        (let x := runCopy s (engineOf s q.part c.block c.opcode q.faults) c
         finishCopy x.1 id q c x.2))

/-- BINC, BINP and their completion; CPYH appends an entry to the hold list, CREL copies every patched entry in list
order and empties the list. That CREL makes its copies at issue is the model's choice of moment (log 9). -/
def Obligations.BinningAndHeldCopies : Prop :=
  (∀ h a b c, Does (.binc h a b c)
    (fun r u _ => u.lanes ≠ [] ∧ u.once r c ≠ 0 ∧ (u.once r c).toNat ≤ 4096 ∧ (u.once r a).toNat % 4 = 0
      ∧ (u.once r a).toNat + 4 * (u.once r c).toNat ≤ (r.blocks.get? u.block).elim 0 (·.scratchSize)
      ∧ accessesPending r u = false)
    (fun r u w => u.start w h [] none (.binc u.block (u.once r a).toNat (u.once r c).toNat
      (u.lanes.map fun x => (u.read r x.1 b x.2).toNat))))
  ∧ (∀ h, Does (.binp h) (fun r u _ => u.lanes ≠ [] ∧ accessesPending r u = false) (fun _ u w => u.start w h [] none (.binp u.block)))
  ∧ (∀ id s q, s.pend.get? id = some q →
    (∀ b array nb bins, q.work = .binc b array nb bins → exec (.binCommandCompletion id) s = .next (deliver
      (s.mapBlock b fun x => bins.foldl (fun x i => x.count array nb i) x) id q false Result.empty))
    ∧ ∀ b x, q.work = .binp b → s.blocks.get? b = some x → exec (.binCommandCompletion id) s = .next (deliver
      (s.mapBlock b fun y => { y with holds := (patchHolds x x.holds).1 }) id q false
      ⟨[], [], [], 0, (patchHolds x x.holds).2.map fun e => { e with order := q.order }⟩))
  ∧ (∀ h d a b c (size : Fin 8) sc, Does (.cpyh h d a b c size sc)
    (fun r u _ => u.lanes ≠ [] ∧ cpyhTrap u r (u.once64 r d) (u.once r a) (u.once r c) = none)
    (fun r u w => w.mapBlock u.block fun x => { x with holds := x.holds ++
      [⟨u.once64 r d, (u.once r a).toNat, u.once r b, (u.once r c).toNat, size.val, sc, none⟩] }))
  ∧ (∀ h x, let g := fun (r : State) (u : IssueUnit) => engineOf r u.part u.block u.opcode r.fab.faulted
    Does (.crel h)
    (fun r u _ => u.lanes ≠ [] ∧ r.blocks.get? u.block = some x ∧ crelCheck u r x = none ∧ accessesPending r u = false
      ∧ copiesWait r (g r u) (x.holds.map fun e => e.cmd u.block) = none)
    (fun r u w =>
      let y := runCopies (g r u) (w.mapBlock u.block fun b => { b with holds := [] }) (x.holds.map fun e => e.cmd u.block)
      u.start (noteFaulted y.1 ((x.holds.map fun e => e.cmd u.block).flatMap (copyLines r (g r u)))) h [] none (.crel y.2)))
  ∧ ∀ id s q e, s.pend.get? id = some q → q.work = .crel e → partRuns s q.part = true → exec (.copyCommandCompletion id) s
    = .next (deliver s id q false ⟨[], [], [], 0, e.map fun x => { x with order := q.order }⟩)

/-- FHND keeps a descriptor under a handle; FETCH starts with indices inside it, and its completion reads the elements
through the core's fetch cache. That they are read at completion is the model's choice of moment (log 9). -/
def Obligations.FetchUnit : Prop :=
  (∀ h a (n : Fin 8) (x : UPart) (l : Nat),
    let c := fun (r w : State) (u : IssueUnit) => checkLanes u 32 32 .engineRead w [(x, l, u.read64 r x a l)]
    let p := fun (r w : State) (u : IssueUnit) => (((c r w u).2.head?).map (·.place)).getD .absent
    let c1 := fun (r w : State) (u : IssueUnit) => takeFaulted (c r w u).1 (placeMissing (c r w u).1 u.part false (p r w u) 32)
    let s1 := fun (r w : State) (u : IssueUnit) => touchAll (c1 r w u) u .normal false (c r w u).2
    let bs := fun (r w : State) (u : IssueUnit) => placeBytes (s1 r w u) u.part (p r w u) 32
    Does (.fhnd h a n)
      (fun r u w => u.lead = some (x, l) ∧ readsPending r u = false
        ∧ ¬(inAperture (u.read64 r x a l) = true ∧ (u.read64 r x a l).toNat % 32 = 0)
        ∧ accessTrap u r (c r w u).2 = none ∧ placeMissing (c1 r w u) u.part false (p r w u) 32 = [] ∧ placeLost (c1 r w u) u.part (p r w u) 32 = false
        ∧ (Desc.ofBytes (bs r w u)).refusal = none)
      (fun r u w => (s1 r w u).mapBlock u.block fun b =>
        { b with handles := b.handles.put n.val ⟨u.read64 r x a l, bs r w u⟩ }))
  ∧ (∀ h t d a b (n : Fin 8) pd hd, let wide := t == .b64
    Does (.fetch h t d a b n pd)
      (fun r u _ => u.lanes ≠ [] ∧ ((r.blocks.get? u.block).bind fun x => x.handles.get? n.val) = some hd
        ∧ ∀ x ∈ u.lanes, indexFails (Desc.ofBytes hd.desc) wide (u.read r x.1 a x.2).toNat (u.read r x.1 b x.2).toNat = none)
      (fun r u w => u.start (reserve w u d (sizeRegs (Sys2Proof.Machine.W2.bytes t))) h [] none (.fetch hd wide d pd
        (u.lanes.map fun x => (x.1.uid, x.2, (u.read r x.1 a x.2).toNat, (u.read r x.1 b x.2).toNat)) u.asid u.core)))
  ∧ ∀ id s q hd wide d pd lanes asid core, s.pend.get? id = some q → q.work = .fetch hd wide d pd lanes asid core →
    let op := if wide then 0x152 else 0x151
    ∀ s1 ls st, fetchLanes ⟨q.part, asid, q.block, op, q.faults⟩ core (Desc.ofBytes hd.desc) wide s lanes = .ok (s1, ls, st) →
      exec (.fetchCompletion id) s = .next (deliver s1 id q false
        { LoadCmd.result ⟨d, if wide then 8 else 4, some pd, op, ls⟩ q.warps q.order with fst := st })

/-! ## Matrix commands -/

/-- MMA and MMAS: with their tiles bound and formats that pair, the words of D are those of R184 to R186 from A, B, D
and the scale tile as they stand. -/
def Obligations.MatrixMultiply : Prop :=
  ∀ h (d a b c : Tile) sat bs,
    let tiles := [d.val, a.val, b.val] ++ if bs then [c.val] else []
    let args := fun (code : Nat) (sparse : Bool) (r : State) (u : IssueUnit) =>
      let t := tileOfBlock r u.block
      ({ aFmt := code, bFmt := fmtB u.fmt, sparse := sparse, a := t a.val, b := t b.val, c := t d.val
         scale := if bs then t c.val else [], scA := scalesA (fmtBsm u.fmt) code
         scB := scalesB (fmtBsm u.fmt) (fmtB u.fmt), fmt := u.fmt, sat := sat } : MmaArgs)
    (∀ t : MmaTy, let code := Sys2Proof.Machine.MmaTy.code t
      Does (.mma h t d a b c sat bs) (fun r u _ => u.lanes ≠ [] ∧ mmaTrap u r code bs tiles = none)
        (fun r u w => u.commits h tiles w
          ⟨[], [], [⟨u.block, d.val, (args code false r u).result.1⟩], (args code false r u).result.2, none⟩))
    ∧ ∀ t : MmasTy, let code := Sys2Proof.Machine.MmasTy.code t
      Does (.mmas h t d a b c sat bs) (fun r u _ => u.lanes ≠ [] ∧ mmaTrap u r code bs tiles = none)
        (fun r u w => u.commits h tiles w
          ⟨[], [], [⟨u.block, d.val, (args code true r u).result.1⟩], (args code true r u).result.2, none⟩)

/-- TZERO, TFILL, TCVT, TTRANS, TADD, TRED, TTOV and VTOT. MATRIX_COMMAND_COMPLETION commits a result in all lanes it
names; MATRIX_TRANSIENT_ERROR runs a command again up to three times and leaves only ASYNC_ERROR the fourth time. The
core as the source of a transient error is the model's reading (log 35), and so is that the counter counts the
repeated runs alone (log 27). -/
def Obligations.TileUtilitiesAndCompletion : Prop :=
  ((∀ h (d : Tile),
    let ready := fun (r : State) (u : IssueUnit) (_ : State) => u.lanes ≠ [] ∧ unboundTrap u r [d.val] = none
    Does (.tzero h d) ready (fun _ u w => u.commits h [d.val] w
      ⟨[], [], [⟨u.block, d.val, (List.range 1024).map fun i => (i, 0)⟩], 0, none⟩)
    ∧ (∀ a, Does (.tfill h d a) ready (fun r u w => u.commits h [d.val] w
      ⟨[], [], [⟨u.block, d.val, (List.range 1024).map fun i => (i, u.once r a)⟩], 0, none⟩))
    ∧ ∀ a b (x : UPart) (l : Nat), Does (.vtot h d a b)
      (fun r u _ => u.lead = some (x, l) ∧ unboundTrap u r [d.val] = none ∧ (u.once r b).toNat < 32)
      (fun r u w => u.commits h [d.val] w ⟨[], [], [⟨u.block, d.val,
        (List.range 32).map fun l => (32 * (u.once r b).toNat + l, u.read r x a l)⟩], 0, none⟩))
  ∧ (∀ h (d a : Tile),
    let ready := fun (r : State) (u : IssueUnit) => u.lanes ≠ [] ∧ unboundTrap u r [d.val, a.val] = none
    (∀ (p : Fin 8) src, Does (.tcvt h d a p src)
      (fun r u _ => ready r u ∧ fmtD u.fmt ≠ 13 ∧ p.val * boxBits (fmtD u.fmt) < 32)
      (fun r u w =>
        let x := tcvtTile src u.fmt p.val (tileOfBlock r u.block a.val)
        u.commits h [d.val, a.val] w ⟨[], [], [⟨u.block, d.val, x.1⟩], x.2, none⟩))
    ∧ (∀ wd : Fin 4, Does (.ttrans h d a wd) (fun r u _ => ready r u)
      (fun r u w => u.commits h [d.val, a.val] w
        ⟨[], [], [⟨u.block, d.val, (transposed (32 / 2 ^ wd.val) (tileOfBlock r u.block a.val)).1⟩], 0, none⟩))
    ∧ ∀ (b : Tile) t, Does (.tadd h d a b t)
      (fun r u _ => u.lanes ≠ [] ∧ unboundTrap u r [d.val, a.val, b.val] = none)
      (fun r u w =>
        let x := gather (allElems fun i j => taddElem t u.fmt ((tileOfBlock r u.block a.val).num (32 * i + j))
          ((tileOfBlock r u.block b.val).num (32 * i + j))) 0
        u.commits h [d.val, a.val, b.val] w ⟨[], [], [⟨u.block, d.val, x.1⟩], x.2, none⟩))
  ∧ ∀ h (a : Tile) (d b : Reg),
    let ready := fun (r : State) (u : IssueUnit) => u.lanes ≠ [] ∧ unboundTrap u r [a.val] = none
    (∀ col op t, Does (.tred h d a col op t) (fun r u _ => ready r u)
      (fun r u w =>
        let lane := fun i => tredLane t op u.fmt ((List.range 32).map fun j =>
          (tileOfBlock r u.block a.val).num (if col then 32 * j + i else 32 * i + j))
        u.commits h [a.val] (reserveAll w u d) ⟨u.parts.map fun p => ⟨p.uid, d, allLanes, rowOfLanes fun i => (lane i).1⟩,
          [], [], (List.range 32).foldl (fun acc i => acc ||| (lane i).2) 0, none⟩))
    ∧ Does (.ttov h d a b) (fun r u _ => ready r u ∧ (u.once r b).toNat < 32)
      (fun r u w => u.commits h [a.val] (reserveAll w u d) ⟨u.parts.map fun p => ⟨p.uid, d, allLanes, rowOfLanes fun l =>
        (tileOfBlock r u.block a.val).num (32 * (u.once r b).toNat + l)⟩, [], [], 0, none⟩))
  ∧ (∀ id s q op n res, s.pend.get? id = some q → q.work = .result (.matrix op n) res →
    exec (.matrixCommandCompletion id) s
      = .next (deliver (s.event ((s.blocks.get? q.block).elim 0 (·.core)) (some q.block) 3 1) id q true res)
    ∧ (n < 3 → exec (.matrixTransientError id) s
        = .next ((setWork s id (.result (.matrix op (n + 1)) res)).countErr (Source.core (s.coreOf q.block)) q.part 6 0))
    ∧ (n = 3 → exec (.matrixTransientError id) s = .next (setWork s id (.result (.matrix op 4)
        ⟨res.regs.map fun x => { x with mask := 0 }, [], [], 0,
          some ⟨Code.asyncError, 0, 0, 0, BitVec.ofNat 32 op, 0, q.order, none⟩⟩))))

/-- TLU, TTRS, TUPD and TJAC with the sweeps that follow it. -/
def Obligations.TileSolver : Prop :=
  (∀ h (d : Tile) a b (n : Fin 32) fx16, Does (.tlu h d a b n fx16)
    (fun r u _ => u.lanes ≠ [] ∧ unboundTrap u r [d.val] = none)
    (fun r u w =>
      let t := tileOfBlock r u.block d.val
      let x := tluRun (if fx16 then 16 else 32) (fmtQA u.fmt) (n.val + 1) (solverMat t fx16 (n.val + 1) (n.val + 1))
      u.commits h [d.val] (reserveAll w u a)
        ⟨u.parts.map (fun p => ⟨p.uid, a, allLanes, rowOfLanes fun l => BitVec.ofNat 32 (x.piv.getD l l)⟩)
          ++ u.parts.map (fun p => ⟨p.uid, b, allLanes,
            rowOfLanes fun _ => x.z.elim (BitVec.allOnes 32) fun z => BitVec.ofNat 32 z⟩),
          [], [⟨u.block, d.val, solverWords t fx16 x.m⟩], x.st, none⟩))
  ∧ (∀ h (d a : Tile) (n : Fin 32) fx16,
    let k := n.val + 1
    let w32 := if fx16 then 16 else 32
    let solved := fun (r : State) (u : IssueUnit) (order : Mat → Mat) (f : Mat → List Int → List Int × Half) =>
      solveColumns k (order (solverMat (tileOfBlock r u.block d.val) fx16 k 32))
        (f (solverMat (tileOfBlock r u.block a.val) fx16 k k))
    let done := fun (r : State) (u : IssueUnit) (w : State) (x : Mat × Half) => u.commits h [d.val, a.val] w
      ⟨[], [], [⟨u.block, d.val, solverWords (tileOfBlock r u.block d.val) fx16 x.1⟩], x.2, none⟩
    Does (.ttrsUpper h d a n fx16) (fun r u _ => u.lanes ≠ [] ∧ unboundTrap u r [d.val, a.val] = none)
      (fun r u w => done r u w (solved r u id (upperColumn w32 (fmtQA u.fmt) k)))
    ∧ ∀ b (x : UPart) (l : Nat),
      Does (.ttrsLower h d a b n fx16 false) (fun r u _ => u.lead = some (x, l) ∧ unboundTrap u r [d.val, a.val] = none)
        (fun r u w => done r u w (solved r u id (lowerColumn w32 (fmtQA u.fmt) k)))
      ∧ Does (.ttrsLower h d a b n fx16 true)
        (fun r u _ => u.lead = some (x, l) ∧ unboundTrap u r [d.val, a.val] = none
          ∧ ∀ i < k, (u.read r x b i).toNat < k)
        (fun r u w => done r u w (solved r u (fun m => (List.range k).foldl (fun m i =>
          m.swap i (((List.range k).map fun l => (u.read r x b l).toNat).getD i i)) m) (lowerColumn w32 (fmtQA u.fmt) k))))
  ∧ (∀ h (d : Tile) a b fx16,
    let es := fun (r : State) (u : IssueUnit) => (List.range (u.once r b).toNat).map fun i => UpdEntry.ofBytes
      ((((r.blocks.get? u.block).elim [] fun x => x.bytes (u.once r a).toNat (8 * (u.once r b).toNat)).drop (8 * i)).take 8)
    let x := fun (r : State) (u : IssueUnit) => applyEntries fx16 (tileOfBlock r u.block d.val) 0 (es r u)
    Does (.tupd h d a b fx16)
      (fun r u _ => u.lanes ≠ [] ∧ unboundTrap u r [d.val] = none ∧ tupdTrap u r (u.once r a) (u.once r b) = none
        ∧ accessesPending r u = false)
      (fun r u w => u.commits h [d.val] w
        ⟨[], [], [⟨u.block, d.val, (x r u).2.1.dedup.map fun k => (k, (x r u).1.num k)⟩], 0,
          (x r u).2.2.map fun i => ⟨Code.asyncError, BitVec.ofNat 32 i, 0, 3, BitVec.ofNat 32 u.opcode, 0, w.seq, none⟩⟩))
  ∧ (∀ h d (a : Tile) b c (n : Fin 32) fx16 pd (x : UPart) (l : Nat), Does (.tjac h d a b c n fx16 pd)
    (fun r u _ => u.lead = some (x, l) ∧ unboundTrap u r [a.val] = none ∧ 0 < (u.once r c).toNat
      ∧ (u.once r c).toNat ≤ 65535)
    (fun r u w =>
      let x0 := solverVec u r x d fx16 (n.val + 1)
      u.start (reserveAll w u d) h [a.val] none (.tjac
        (solverMat (tileOfBlock r u.block a.val) fx16 (n.val + 1) (n.val + 1)) (solverVec u r x b fx16 (n.val + 1)) x0 x0
        (n.val + 1) 0 (u.once r c).toNat ((r.warps.get? x.uid).elim 0 (·.dl)) (fmtQA u.fmt) (if fx16 then 16 else 32)
        d c pd 0 0)))
  ∧ ∀ id s q a b x0 x n done limit dead qp wd d c pd st e, s.pend.get? id = some q →
    q.work = .tjac a b x0 x n done limit dead qp wd d c pd st e →
    let y := sweep wd qp a b x
    (done + 1 = limit ∨ deadlinePassed s dead = true ∨ haltRequested s q.part = true →
      exec (.tjacSweepEnd id) s = .next (deliver
        (s.event ((s.blocks.get? q.block).elim 0 (·.core)) (some q.block) 3 1) id q true
        (tjacResult q y.1 n (done + 1) limit d c pd (st ||| y.2))))
    ∧ (done + 1 ≠ limit → deadlinePassed s dead = false → haltRequested s q.part = false →
      exec (.tjacSweepEnd id) s
        = .next (setWork s id (.tjac a b x0 y.1 n (done + 1) limit dead qp wd d c pd (st ||| y.2) e)))

/-! ## Pairs of warps, fmt -/

/-- XPAIR, XSWAP, XSWAP_COMPLETION and SETFMT. The first of a pair waits and answers 0, the second answers 1; tag 0
answers 2; a full table answers 3. Each side of an XSWAP offers its A, and both write once both have issued. -/
def Obligations.PairedWarpsAndFormat : Prop :=
  (∀ h d a (x : UPart) (l : Nat),
    let tag := fun (r : State) (u : IssueUnit) => u.read r x a l &&& 0xFFFF#32
    let fresh := fun (r : State) (u : IssueUnit) => ∀ role, u.waitOf r ≠ .xpair role
    Does (.xpair h d a) (fun r u _ => u.lead = some (x, l) ∧ fresh r u ∧ tag r u = 0)
      (fun _ u w => u.write (dissolvePair w x.uid) d fun _ _ => 2)
    ∧ (∀ o, Does (.xpair h d a)
      (fun r u w => u.lead = some (x, l) ∧ fresh r u ∧ tag r u ≠ 0
        ∧ findPartner (dissolvePair w x.uid) u.part u.core (tag r u) = some o)
      (fun _ u w => u.write (formPair ((dissolvePair w x.uid).dieEvent u.core 4 1) o x.uid) d fun _ _ => 1))
    ∧ Does (.xpair h d a)
      (fun r u w => u.lead = some (x, l) ∧ fresh r u ∧ tag r u ≠ 0
        ∧ findPartner (dissolvePair w x.uid) u.part u.core (tag r u) = none
        ∧ 64 ≤ pairWaiters (dissolvePair w x.uid) u.part (dieOf u.core))
      (fun _ u w => u.write (dissolvePair w x.uid) d fun _ _ => 3)
    ∧ Stalls (.xpair h d a)
      (fun r u w => u.lead = some (x, l) ∧ fresh r u ∧ tag r u ≠ 0
        ∧ findPartner (dissolvePair w x.uid) u.part u.core (tag r u) = none
        ∧ pairWaiters (dissolvePair w x.uid) u.part (dieOf u.core) < 64)
      (fun r u => (dissolvePair r x.uid).mapPart u.part fun p =>
        { p with pairTable := p.pairTable ++ [(dieOf u.core, x.uid, tag r u)] }) (fun _ _ => .xpair none)
    ∧ ∀ k, Does (.xpair h d a) (fun r u _ => u.lead = some (x, l) ∧ u.waitOf r = .xpair (some k))
      (fun _ u w => u.write w d fun _ _ => k))
  ∧ (∀ h d a pd (x : UPart) (l : Nat),
    let vals := fun (r : State) (u : IssueUnit) => rowOfLanes fun l => if x.act.getLsbD l then u.read r x a l else 0
    let took := fun (u : IssueUnit) (w : State) (p : Pair) =>
      (reserve w u d 1).mapWarp x.uid fun y => { y with pair := some { p with swaps := p.swaps + 1 } }
    Does (.xswap h d a pd) (fun r u _ => u.lead = some (x, l) ∧ ((r.warps.get? x.uid).bind (·.pair)) = none)
      (fun r u w => u.start (reserve w u d 1) h [] none (.result .load (xswapAlone x.uid d pd x.act (vals r u))))
    ∧ ∀ p : Pair,
      Does (.xswap h d a pd)
        (fun r u w => u.lead = some (x, l) ∧ ((r.warps.get? x.uid).bind (·.pair)) = some p
          ∧ findSwap (took u w p) p.partner p.swaps = none)
        (fun r u w => u.start (took u w p) h [] none (.xswap p.swaps d pd x.act (vals r u) (some p.partner) none))
      ∧ ∀ id q k d2 pd2 m2 v2 o2 got, Does (.xswap h d a pd)
        (fun r u w => u.lead = some (x, l) ∧ ((r.warps.get? x.uid).bind (·.pair)) = some p
          ∧ findSwap (took u w p) p.partner p.swaps = some (id, q) ∧ q.work = .xswap k d2 pd2 m2 v2 o2 got)
        (fun r u w => u.start (setWork (took u w p) id (.xswap k d2 pd2 m2 v2 o2 (some (x.act, vals r u)))) h [] none
          (.xswap p.swaps d pd x.act (vals r u) (some p.partner) (some (m2, v2)))))
  ∧ (∀ id s q, s.pend.get? id = some q →
    (∀ res, q.work = .result .load res → exec (.xswapCompletion id) s = .next (deliver s id q false res))
    ∧ ∀ k d pd mask vals o m v, q.work = .xswap k d pd mask vals o (some (m, v)) →
      exec (.xswapCompletion id) s = .next (deliver s id q false
        ⟨[⟨(q.warps.headD (0, 0)).1, d, mask, rowOfLanes fun l => if m.getLsbD l then Row.lane v l else Row.lane vals l⟩],
          [⟨(q.warps.headD (0, 0)).1, pd, mask, m⟩], [], 0, none⟩))
  ∧ ∀ h d a b (x : UPart) (l : Nat), Does (.setfmt h d a b) (fun _ u _ => u.lead = some (x, l))
    (fun r u w =>
      let new := fmtOf ((u.fmt &&& ~~~(u.read r x b l)) ||| (u.read r x a l &&& u.read r x b l))
      u.parts.foldl (fun s p => s.mapSplit p.uid p.idx fun q => { q with fmt := new }) (u.write w d fun _ _ => u.fmt))

/-! ## Headers, ageing, halting -/

/-- CLAUSE_HEADER_FETCH: the acting split, with those it merges with, reads its header; an illegal one is
ILLEGAL_CLAUSE; a page of its clause that may not be executed traps; at its recorded reconvergence point the split
waits for the others; a legal header whose flags are set leads to the first word of its clause, and one with an unset
flag is waited at. SPLIT_AGED: the scheduler of a split ready and unchosen for 256 clk chooses next, and in the choice
such a split comes before every other; each clk that passes counts for a ready split, but for one in which it issues.
WARP_PREEMPT stops the splits at safe points while the partition halts, of a suspended warp every split, and clears
the warp's last-page registers. That the scheduler of an aged split comes next through the agenda is the model's
choice (log 1), that waiting splits at the acting split's header merge with it before the header is read its reading
(log 22). -/
def Obligations.HeadersAgeingAndHalting : Prop :=
  (∀ s w p q s1 w1 header, s.warps.get? s.act.1 = some w → w.splits.get? s.act.2 = some p →
    w.suspended = false → p.idx = 0 → p.stopped = false →
    (p.wait = .none →
      let x := w.mergeAll s.act.2 p.coincides
      let s0 := s.setWarp s.act.1 x
      x.splits.get? s.act.2 = some q → q.wait = .none →
      fetchWord s0 (s0.partOf x) (s0.asidOf x) x.block q.pc = .ok (s1, header) → s1.warps.get? s.act.1 = some w1 →
      ((Header.of header).legal = false → exec .clauseHeaderFetch s
        = .next (takeWordTrap s1 s.act.1 s.act.2 w1 q Code.illegalClause (lo32 header) (hi32 header) 0 0))
      ∧ (∀ c va, (Header.of header).legal = true → pageCheck s1 w1 q.pc (Header.of header) = some (c, va) →
        exec .clauseHeaderFetch s
          = .next (takeTrap s1 [⟨s.act.1, s.act.2, q.mask, q.mask, 0⟩] .lane { fetchTrap c va w1 q with tpc := q.pc }))
      ∧ ((Header.of header).legal = true → pageCheck s1 w1 q.pc (Header.of header) = none →
        (∀ d, (Header.of header).reconv = true → q.reconvAt q.pc = some d → exec .clauseHeaderFetch s
          = .next (afterWait (s1.mapSplit s.act.1 s.act.2 fun y => { y with wait := .reconv d.id }) w1.block))
        ∧ ((Header.of header).reconv = false ∨ q.reconvAt q.pc = none →
          q.saved.isSome ∨ waitedRecords w1 (Header.of header).wait = [] →
          (w1.flagsSet (Header.of header).wait = true → exec .clauseHeaderFetch s
            = .next (s1.mapSplit s.act.1 s.act.2 fun y => { y with header := header, idx := 1, wait := .none, origins := [] }))
          ∧ (w1.flagsSet (Header.of header).wait = false → exec .clauseHeaderFetch s
            = .next (s1.mapSplit s.act.1 s.act.2 fun y => { y with header := header, wait := .flags })))))
    ∧ (p.wait = .flags → w.mergeAll s.act.2 p.coincides = w → p.saved.isSome ∨ waitedRecords w (Header.of p.header).wait = [] →
      w.flagsSet (Header.of p.header).wait = true → exec .clauseHeaderFetch s
        = .next ((s.setWarp s.act.1 w).mapSplit s.act.1 s.act.2 fun y =>
          { y with header := p.header, idx := 1, wait := .none, origins := [] })))
  ∧ ((∀ warp idx s w p, s.warps.get? warp = some w → w.splits.get? idx = some p → splitReady s warp w p = true →
    (256 ≤ p.unchosen → exec (.splitAged warp idx) s = .next { s with agenda := s.agenda ++ [.port (4 * w.core + w.slot % 4)] })
    ∧ (p.unchosen < 256 → exec (.splitAged warp idx) s = .next s))
  ∧ (∀ s (x y : Nat × Warp × Nat × Split), 256 ≤ x.2.2.2.unchosen → y.2.2.2.unchosen < 256 →
    keyLt (choiceKey s x) (choiceKey s y) = true ∧ keyLt (choiceKey s y) (choiceKey s x) = false)
  ∧ (∀ s uid idx w p d, s.warps.get? uid = some w → w.splits.get? idx = some p →
    (∃ w' p', (passTime s d).warps.get? uid = some w' ∧ w'.splits.get? idx = some p'
      ∧ (splitReady s uid w p = true → issuedNow s uid idx w = false → p'.unchosen = p.unchosen + d)
      ∧ (splitReady s uid w p = true → issuedNow s uid idx w = true → p'.unchosen = p.unchosen + (d - 1))
      ∧ (splitReady s uid w p = false → p'.unchosen = p.unchosen)))
  ∧ (∀ s, tick s = { passTime (sweepFabric s) s.stepTime with draws := s.draws + 1 })
  ∧ ∀ warp s w p, s.warps.get? warp = some w → s.parts.get? (s.partOf w) = some p → p.halt = .halting →
    ∃ t, exec (.warpPreempt warp) s = .next t ∧ t = { dropPages s warp with warps := t.warps }
      ∧ (∀ n, n ≠ warp → t.warps.get? n = s.warps.get? n)
      ∧ ∃ w', t.warps.get? warp = some w' ∧ w' = { w with splits := w'.splits }
        ∧ ∀ i, w'.splits.get? i = (w.splits.get? i).map fun p =>
          if w.suspended ∨ p.atSafePoint = true then { p with stopped := true } else p)

/-! ## Launch slots, placement, retirement -/

/-- LAUNCH_SLOT_ARM writes the arm word at byte 56 of its slot and the home observes it: bit 0 clear launches nothing;
a slot whose launch is accepted or running counts an error; a refused record answers with its code, and an accepted
one becomes a kernel in the launch queue. The Kiln as the source of that error is the model's reading (log 35), the
refusal for reserved bits of a slot its choice (log 15). BLOCK_PLACEMENT places the first ready kernel's next block or
gang on the cores chosen, at once where their split fits it and else through an admission, which it waits for and
ends; BLOCK_RETIRE retires in rank order. -/
def Obligations.LaunchSlotsAndPlacement : Prop :=
  (∀ part slot (arm : Half) s p, s.parts.get? part = some p → slot < 64 →
    let t := writeBytes s (p.key 0) (p.frame + 128 * slot + 56) (leBytes 4 arm.toNat)
    let r := slotRecord t p slot
    let why := LaunchRec.refusal t part (slotAsid t part slot) r (slotReserved t part slot arm)
    let word := fun c => refusedWord t part (slotAsid t part slot) r (arm >>> 16) c
    (arm.getLsbD 0 = false → exec (.launchSlotArm part slot arm) s = .next t)
    ∧ (arm.getLsbD 0 = true → slotState t part slot = 1 ∨ slotState t part slot = 2 →
      exec (.launchSlotArm part slot arm) s = .next (t.countErr Source.kiln part 12 (BitVec.ofNat 64 slot)))
    ∧ (arm.getLsbD 0 = true → slotState t part slot ≠ 1 → slotState t part slot ≠ 2 →
      (why = some .malformed → exec (.launchSlotArm part slot arm) s = .next (slotStatus (word 1) part slot (arm >>> 16) 1 4))
      ∧ (why = some .never → exec (.launchSlotArm part slot arm) s = .next (slotStatus (word 2) part slot (arm >>> 16) 2 4))
      ∧ (why = some .cwa → exec (.launchSlotArm part slot arm) s = .next (slotStatus t part slot (arm >>> 16) 3 4))
      ∧ (why = none → exec (.launchSlotArm part slot arm) s
        = .next (slotStatus (acceptKernel t (LaunchRec.kernel r t part (slotAsid t part slot) 0 none (some slot) none
          (arm >>> 16) [])) part slot (arm >>> 16) 0 1))))
  ∧ ((∀ part s p kid k, s.parts.get? part = some p → p.halt = .running → heldCores s p = [] →
    firstReady s part = some (kid, k) →
    (∀ cores, choosePlacement s p k = some cores →
      ((∀ c ∈ cores, fitsNow s c k.ask = true) → exec (.blockPlacement part) s = .next (placeOn s.draw kid k cores))
      ∧ ((∃ c ∈ cores, fitsNow s c k.ask = false) →
        exec (.blockPlacement part) s = .next (startAdmission s.draw kid false k.ask cores)))
    ∧ (choosePlacement s p k = none → exec (.blockPlacement part) s = .next s))
  ∧ (∀ part s p hs kid k, s.parts.get? part = some p → p.halt = .running → heldCores s p = hs → hs ≠ [] →
    ((∃ h ∈ hs, (s.core h.1).admitting = true) → exec (.blockPlacement part) s = .next s)
    ∧ let s1 := releaseHeld s (hs.map (·.1))
      ((∀ h ∈ hs, (s.core h.1).admitting = false) → (hs.map (·.2)).head? = some kid → s1.kernels.get? kid = some k →
        k.ready s1 = true → hs.length = k.gblk + 1 → (∀ h ∈ hs, fitsNow s1 h.1 k.ask = true) →
        exec (.blockPlacement part) s = .next (placeOn s1 kid k (hs.map (·.1)))))
  ∧ ∀ kernel s k, s.kernels.get? kernel = some k → k.det = true → k.ended.contains k.retired = true →
    partRuns s k.part = true →
    exec (.blockRetire kernel) s = .next (settle { s with kernels := s.kernels.put kernel { k with retired := k.retired + 1 } }))

/-! ## Translation, migration, lines, errors -/

/-- PAGE_WALK caches the translation it makes, and nothing of a refused walk, of a page that is not resident or of a
leaf that serves no load, store or fetch; PAGE_MIGRATION moves the page of a frame to one of those qpop could return,
on another base stack, once peers have given back its lines; LINE_EVICTION takes a line out of the L1 or the caches
below. One table of translations for the partition is the model's choice (log 7), and so are which free frame a
migration takes and its single step (log 20) and eviction as an event of its own (log 11); the sources of records are
its reading (log 35). CORRECTED_ERROR counts and changes no data; UNCORRECTABLE_ERROR drops a clean line from every
cache and loses a dirty one at its home; CLOCK_STEP_CHANGE moves one step of 50 MHz: down to 700 MHz under a limit, up
to 1.4 GHz without; at a step a limit may also begin or end below 1.4 GHz. -/
def Obligations.WalksLinesAndErrors : Prop :=
  ((∀ part asid va s, inAperture va = false → va.toNat < 2 ^ 56 →
    (∀ w, walk s part asid va = some w →
      let s1 := walkTouch s part asid va
      let kept := leafType w.leaf ≠ 2 ∨ ebit w.leaf 20 = true
      let serves := cacheable w.leaf .load = true ∨ cacheable w.leaf .store = true ∨ cacheable w.leaf .fetch = true
      (∀ p, kept → serves → s1.parts.get? part = some p → exec (.pageWalk part asid va) s = .next
        { s1 with parts := s1.parts.put part { p with tlb := p.tlb.put (tlbKey asid va) ⟨w.leaf, w.level⟩ } })
      ∧ (¬(kept ∧ serves) → exec (.pageWalk part asid va) s = .next s1))
    ∧ (walk s part asid va = none → exec (.pageWalk part asid va) s = .next s))
  ∧ (∀ part asid va s p w k, inAperture va = false → va.toNat < 2 ^ 56 → s.parts.get? part = some p →
    walk s part asid va = some w → leafKey s part w.leaf = some k →
    let old := efield w.leaf 24 40 * 2 ^ 16
    let es := newFrames s part p old
    ((p.sys 0x0C0).getLsbD 0 = true → leafType w.leaf = 0 → w.level = 0 → ebit w.leaf 19 = false →
      ebit w.leaf 18 = false → frameBusy s old = false → spanFull s part = false →
      exec (.pageMigration part asid va) s = .next
        (match es[Config.choice s.draws es.length % Nat.max 1 es.length]? with
          | some e => if frameWants s old = [] then movePage (walkTouch s.draw part asid va) part asid va k w old e
            else askAll s (frameWants s old)
          | none => s))
    ∧ (es ≠ [] → (es[Config.choice s.draws es.length % Nat.max 1 es.length]?).isSome)
    ∧ (es = [] → exec (.pageMigration part asid va) s = .next s)
    ∧ ∀ e ∈ es, e ∈ p.qlist ∧ s.foreign part (e.1.toNat * 2 ^ 16) = false
      ∧ p.stackOf (e.1.toNat * 2 ^ 16) ≠ p.stackOf old)
  ∧ ∀ core line s,
    (∀ t, (s.core core).l1.get? line = some t →
      exec (.lineEviction core line) s = .next (s.mapCore core fun c => { c with l1 := c.l1.del line }))
    ∧ ∀ part p, (s.core core).l1.get? line = none → partOfCore s core = some (part, p) →
      (∀ t, (p.l2At (dieOf core)).get? line = some t → exec (.lineEviction core line) s
        = .next ((dropL1 s (dieOf core) line).mapPart part fun p =>
          { p with l2 := p.l2.put (dieOf core) ((p.l2At (dieOf core)).del line) }))
      ∧ ((p.l2At (dieOf core)).get? line = none →
        (line < 2 ^ 60 → exec (.lineEviction core line) s = .next (s.mapPart part fun p => { p with llc := p.llc.del line }))
        ∧ (2 ^ 60 ≤ line → exec (.lineEviction core line) s = .next (evictFabric s (line - 2 ^ 60)))))
  ∧ ((∀ part c s p, s.parts.get? part = some p →
    ∃ t, exec (.correctedError part c) s = .next t
      ∧ t = s.countErr (Sys2Proof.Machine.Corrected.source c) part (Sys2Proof.Machine.Corrected.index c) 0
      ∧ t.mem = s.mem ∧ t.lost = s.lost ∧ t.cores = s.cores ∧ t.warps = s.warps)
  ∧ (∀ part line s p, s.parts.get? part = some p →
    let s1 := dropLlc (dropCopies s fun l => l == line) fun l => l == line
    exec (.uncorrectableError part line false) s
      = .next (s1.countErr (Source.llc s part line) part 5 (BitVec.ofNat 64 (128 * line)))
    ∧ let lost := if s1.lost.contains line then s1.lost else s1.lost ++ [line]
      exec (.uncorrectableError part line true) s
        = .next ({ s1 with lost := lost }.countErr (Source.llc s part line) part 7 (BitVec.ofNat 64 (128 * line))))
  ∧ ∀ clk therm power s,
    (clk + 1 = s.pwrClk → 14 ≤ clk → therm = true ∨ power = true → exec (.clockStepChange clk therm power) s
      = .next { s with pwrClk := clk, pwrTherm := therm, pwrPower := power })
    ∧ (clk = s.pwrClk + 1 → clk ≤ 28 → therm = false → power = false → exec (.clockStepChange clk therm power) s
      = .next { s with pwrClk := clk, pwrTherm := therm, pwrPower := power })
    ∧ (clk = s.pwrClk → clk < 28 → exec (.clockStepChange clk therm power) s
      = .next { s with pwrTherm := therm, pwrPower := power }))

/-! ## The fabric -/

/-- REMOTE_REQUEST is served under the ASID of its export entry or answered with a fault; REMOTE_RESEND sends a
message again once its hint has passed; FABRIC_PEER_RESPONSE gives a line to share or own, what an ATOM read, the end
of a write-back, a hint, a fault, an acknowledgement, a recall, or a line given up; FABRIC_DELIVERY_TIMEOUT fails a
message that has not been delivered within 50 µs. The forms of messages, the bounds of the hint and the causes of
failed messages are the model's choices (log 31), the sources of records its reading (log 35). PLANE_REMAP,
REMAP_ACKNOWLEDGE of one package or of the last (which of them is free), FLIT_RECEIVE, PARITY_EXTENSION_RECEIVE,
KEY_ROTATION and ROUTE_UPDATE. How a remap is announced and acknowledged is the model's choice (log 31). -/
def Obligations.FabricEvents : Prop :=
  ((∀ part spkg spart va op s p, s.parts.get? part = some p → Sys2Proof.Machine.RemoteOp.wellFormed op va = true →
    let k : Asker := ⟨part, 8 * spkg + spart % 8, va.toNat / 128⟩
    (p.exportFor spkg spart = none → exec (.remoteRequest part spkg spart va op) s = .next (answerFault s k Code.protection))
    ∧ ∀ e, p.exportFor spkg spart = some e →
      ((Sys2Proof.Machine.RemoteOp.acc op = .load ∨ e.getLsbD 30 = true) → p.asidFirst ≤ e.toNat % 1024 →
        e.toNat % 1024 < p.asidFirst + p.asidCount →
        exec (.remoteRequest part spkg spart va op) s = .next (serveRemote s k (e.toNat % 1024) va op))
      ∧ ((Sys2Proof.Machine.RemoteOp.acc op ≠ .load ∧ e.getLsbD 30 = false) ∨ e.toNat % 1024 < p.asidFirst
          ∨ p.asidFirst + p.asidCount ≤ e.toNat % 1024 →
        exec (.remoteRequest part spkg spart va op) s = .next (answerFault s k Code.protection)))
  ∧ (∀ n s m t, s.fab.retries[n]? = some (m, t) →
    (t ≤ s.tsc → exec (.remoteResend n) s
      = .next (sendMsg { s with fab := { s.fab with retries := s.fab.retries.erase (m, t) } } m))
    ∧ (s.tsc < t → exec (.remoteResend n) s = .next s))
  ∧ (∀ line s m, s.fab.messageFor line FabMsg.request = some m →
    let s1 := { s with fab := s.fab.settled m }
    (∀ bs, (∀ own, m.body = .ask own → exec (.fabricPeerResponse line (.data bs)) s = .next (takeLine s1 m.line own bs))
      ∧ (m.writes = true → exec (.fabricPeerResponse line (.data bs)) s = .next s1)
      ∧ (m.atoms = true → exec (.fabricPeerResponse line (.data bs)) s
        = .next (answerAtom s1 m fun n => .bytes ((List.range n).map fun i => bs.getD i 0))))
    ∧ (∀ us, exec (.fabricPeerResponse line (.retry us)) s
      = .next { s with fab := { s1.fab with retries := s1.fab.retries ++ [(m, s.tsc + 1000 * Nat.min 15 (Nat.max 1 us))] } })
    ∧ ∀ f, exec (.fabricPeerResponse line (.fault f)) s
      = .next (failMessage s (if f then Code.protection else Code.pageFault) m))
  ∧ (∀ line s m, (s.fab.messageFor line fun m => !m.request && !m.isRecall) = some m →
    exec (.fabricPeerResponse line .ack) s = .next (acknowledged s m))
  ∧ (∀ line s m data, s.fab.messageFor line FabMsg.isRecall = some m →
    exec (.fabricPeerResponse line (.released data)) s = .next (released s m data))
  ∧ (∀ line s, s.lost.contains (2 ^ 60 + line) = false →
    let kept := { s with fab := { s.fab with dirty := s.fab.dirty.filter fun l => l != line
                                             owned := s.fab.owned.filter fun l => l != line } }
    (s.fab.dirty.contains line = true →
      exec (.fabricPeerResponse line (.recall true)) s = .next (evictFabric s line)
      ∧ exec (.fabricPeerResponse line (.recall false)) s
        = .next (sendMsg kept (lineMsg line (.writeBack ((s.fab.lines.get? line).getD [])))))
    ∧ (s.fab.dirty.contains line = false →
      exec (.fabricPeerResponse line (.recall true)) s = .next (sendMsg (evictFabric s line) (lineMsg line .released))
      ∧ exec (.fabricPeerResponse line (.recall false)) s = .next (sendMsg kept (lineMsg line .released))))
  ∧ ∀ line dirty s,
    let late := fun (x : Nat × FabMsg) => x.2.tag = line ∧ x.2.writes = dirty ∧ x.2.sent + 50000 ≤ s.tsc
    (∀ m, (s.fab.unacked ++ s.fab.waiting).find? (fun x => decide (late x)) = some m →
      exec (.fabricDeliveryTimeout line dirty) s = .next (failMessage s Code.asyncError m.2))
    ∧ ((∀ x ∈ s.fab.unacked ++ s.fab.waiting, ¬late x) → exec (.fabricDeliveryTimeout line dirty) s = .next s))
  ∧ ((∀ plane s, plane < 4 → exec (.planeRemap plane true) s = .next (planeUp s plane)
    ∧ exec (.planeRemap plane false) s = .next (planeDown s plane))
  ∧ (∀ s pl as, s.fab.remap = some (pl, as) →
    ∃ t, exec .remapAcknowledge s = .next t
      ∧ if remapPeer s = 1024 then
          t.fab.remap = none ∧ t.fab.acked = [] ∧ t.fab.map = s.fab.newMap as ∧ (s.fab.alive ≠ 0 → t.fab.waiting = [])
          ∧ t = { s with fab := { s.fab with
              map := t.fab.map, remap := none, acked := [], unacked := t.fab.unacked, waiting := t.fab.waiting,
              links := t.fab.links } }
        else t = flushWaiting
          { s with fab := resendDead { s.fab with acked := (s.fab.acked ++ [remapPeer s]).dedup } fun m => m.dest == remapPeer s })
  ∧ (∀ part link payload keyBit tagOk s, link < 16 → (s.fab.link link).up = true → payload.length = 256 →
    ((s.fab.link link).attempts = 0 →
      exec (.flitReceive part link payload keyBit true tagOk) s
        = .next (goodFlit s link (s.fab.link link) payload keyBit tagOk)
      ∧ exec (.flitReceive part link payload keyBit false tagOk) s
        = .next (keepDamaged s part link (s.fab.link link) payload keyBit))
    ∧ (2 < (s.fab.link link).attempts → (s.fab.link link).damaged = some (payload, keyBit) →
      exec (.flitReceive part link payload keyBit true tagOk) s
        = .next (goodFlit s link (s.fab.link link) payload keyBit tagOk)
      ∧ exec (.flitReceive part link payload keyBit false tagOk) s
        = .next (if (s.fab.link link).attempts < 10 then
            s.setLink link { s.fab.link link with attempts := (s.fab.link link).attempts + 1 }
          else failLink s link (s.fab.link link))))
  ∧ (∀ link repair s payload keyBit, (s.fab.link link).damaged = some (payload, keyBit) →
    0 < (s.fab.link link).attempts → (s.fab.link link).attempts ≤ 2 → exec (.parityExtensionReceive link repair) s
      = .next (if repair.symbols ≤ 16 * (s.fab.link link).attempts then
          goodFlit s link (s.fab.link link) payload keyBit repair.tagOk
        else s.setLink link { s.fab.link link with attempts := (s.fab.link link).attempts + 1 }))
  ∧ (∀ link s, link < 16 → (s.fab.link link).up = true →
    exec (.keyRotation ⟨link, true⟩) s = .next (s.setLink link { s.fab.link link with
      txKey := (s.fab.link link).txKey + 1, txFlits := 0 })
    ∧ ((s.fab.link link).damaged = none ∨ (s.fab.link link).prevKey = none → exec (.keyRotation ⟨link, false⟩) s
      = .next (s.setLink link { s.fab.link link with
          key := (s.fab.link link).key + 1, prevKey := some (s.fab.link link).key, flits := 0 })))
  ∧ ∀ dest version s, (∀ x ∈ s.fab.unacked, x.2.dest ≠ dest) →
    let old := (s.fab.routes.get? dest).getD 0
    exec (.routeUpdate dest version) s = .next
      (if old = version % 2 then { s with fab := { s.fab with oldRoutes := s.fab.oldRoutes.del dest } }
       else { s with fab := { s.fab with
        routes := s.fab.routes.put dest (version % 2), oldRoutes := s.fab.oldRoutes.put dest old } }))

/-! ## The host and the Kiln -/

/-- HOST_CXL_WRITE and HOST_CXL_READ: bytes of one line of device memory, once peers have given back what the access
needs of it, and words of the BAR0 window, which the model places at 2^40 (log 33). -/
def Obligations.HostAccesses : Prop :=
  (∀ (addr : Word) data s, 0 < data.length → addr.toNat % 128 + data.length ≤ 128 → addr.toNat < 384 * 2 ^ 30 →
    let i : Instr := .hostCxlWrite addr data
    let s1 := { s with hostWait := s.hostWait.erase i }
    (hostWants s addr.toNat true = [] → exec i s = .next (hostWrite s1 addr.toNat data))
    ∧ (hostWants s addr.toNat true ≠ [] → exec i s
      = .next (askAll { s1 with hostWait := s1.hostWait ++ [i] } (hostWants s addr.toNat true))))
  ∧ (∀ (addr : Word) n s, 0 < n → addr.toNat % 128 + n ≤ 128 → addr.toNat < 384 * 2 ^ 30 →
    let i : Instr := .hostCxlRead addr n
    let s1 := { s with hostWait := s.hostWait.erase i }
    (hostWants s addr.toNat false = [] → exec i s = .next (hostRead s1 addr.toNat n))
    ∧ (hostWants s addr.toNat false ≠ [] → exec i s
      = .next (askAll { s1 with hostWait := s1.hostWait ++ [i] } (hostWants s addr.toNat false)))
    ∧ (partAt s addr.toNat = none → exec i s = .next { s1 with hostOut := List.replicate n 0xFF#8 }))
  ∧ ∀ (o : Nat) s, o < 65536 → o % 4 = 0 →
    (∀ x : Half, exec (.hostCxlWrite (BitVec.ofNat 64 (2 ^ 40 + o)) (leBytes 4 x.toNat)) s = .next (barWrite s o x))
    ∧ exec (.hostCxlRead (BitVec.ofNat 64 (2 ^ 40 + o)) 4) s
      = .next { snapshot s o with hostOut := leBytes 4 (barRead s o).toNat }

/-- CREATE answers the code of its first failing check or makes the partition: its cores as at creation, its memory
zero, its quarters held. DESTROY removes all it held: kernels, blocks with their scratch and tiles, warps, commands in
flight, cores, memory. That quarter q holds the 24 GiB from q × 24 GiB on is the model's choice (log 6). -/
def Obligations.PartitionLifetime : Prop :=
  (∀ (a0 a1 : Half) s, s.kiln.busy = false → s.kiln.recovery = false →
    let p := a0.toNat / 2 ^ 24 % 8
    let count := a0.toNat / 2 ^ 4 % 32
    let first := a0.toNat % 16
    let af := a1.toNat / 2 ^ 16 % 1024
    let ac := a1.toNat % 2048
    let c := { s with kiln := { s.kiln with
      busy := true, begun := true, latched := none, mbcmd := 1, mbarg := [a0, a1] ++ s.kiln.mbarg.drop 2 } }
    (createCode s p count first af ac ≠ 0 →
      exec (.create a0 a1) s = .next (c.answer (createCode s p count first af ac) p))
    ∧ (createCode s p count first af ac = 0 → ∃ t, exec (.create a0 a1) s = .next t
      ∧ t.parts = s.parts.put p (Partition.start first count af ac)
      ∧ t.kiln.quarters = (List.range count).foldl (fun q i => q.put (first + i) p) s.kiln.quarters
      ∧ t.kiln.code = 0 ∧ t.kiln.part = p
      ∧ (∀ c, t.cores.get? c = if 16 * first ≤ c ∧ c < 16 * (first + count) then none else s.cores.get? c)
      ∧ ∀ pa, t.byte pa = if first * (24 * 2 ^ 30) ≤ pa ∧ pa < first * (24 * 2 ^ 30) + count * (24 * 2 ^ 30) then 0
        else s.byte pa))
  ∧ ∀ (a0 : Half) s x, s.kiln.busy = false → s.kiln.recovery = false → s.parts.get? (a0.toNat / 2 ^ 24 % 8) = some x →
    ∃ t, exec (.destroy a0) s = .next t ∧ t.parts.get? (a0.toNat / 2 ^ 24 % 8) = none ∧ t.kiln.code = 0
      ∧ t.kiln.part = a0.toNat / 2 ^ 24 % 8 ∧ (∀ q ∈ t.kiln.quarters, q.2 ≠ a0.toNat / 2 ^ 24 % 8)
      ∧ (∀ k ∈ t.kernels, k.2.part ≠ a0.toNat / 2 ^ 24 % 8)
      ∧ (∀ b k, (∃ x, s.blocks.get? b = some x ∧ s.kernels.get? x.kernel = some k) → k.part = a0.toNat / 2 ^ 24 % 8 →
        t.blocks.get? b = none ∧ ∀ w ∈ t.warps, w.2.block ≠ b)
      ∧ (∀ q ∈ t.pend, q.2.part ≠ a0.toNat / 2 ^ 24 % 8)
      ∧ (∀ c, 16 * x.first ≤ c → c < 16 * (x.first + x.count) → t.cores.get? c = none)
      ∧ ∀ pa, x.first * (24 * 2 ^ 30) ≤ pa → pa < x.first * (24 * 2 ^ 30) + x.count * (24 * 2 ^ 30) → t.byte pa = 0

/-- SWAPOUT requests a halt, HALT_COMPLETE ends it once every warp has stopped and within 20 µs, HALT_TIMEOUT abandons
it after 20 µs, SWAPIN lets the partition go on with its event counters 0. Code 5 for a command in the wrong state is
the model's reading (log 29), and so is the Kiln as the source of an abandoned halt (log 35). -/
def Obligations.HaltAndSwap : Prop :=
  (∀ (a0 : Half) s x, s.kiln.busy = false → s.kiln.recovery = false → s.parts.get? (a0.toNat / 2 ^ 24 % 8) = some x →
    let p := a0.toNat / 2 ^ 24 % 8
    (x.halt = .running → ∃ t, exec (.swapout a0) s = .next t ∧ t.parts = s.parts.put p { x with halt := .halting }
      ∧ t.kiln.busy = true ∧ t.kiln.part = p ∧ t.kiln.haltAt = s.tsc ∧ t.warps = s.warps ∧ t.mem = s.mem)
    ∧ (x.halt ≠ .running → ∃ t, exec (.swapout a0) s = .next t ∧ t.kiln.code = 5 ∧ t.parts = s.parts)
    ∧ (x.halt = .swapped → ∃ t, exec (.swapin a0) s = .next t
      ∧ t.parts = s.parts.put p { x with halt := .running, shadow := none }
      ∧ t.kiln.code = 0 ∧ t.kiln.part = p ∧ t.mem = s.mem
      ∧ (∀ c, 16 * x.first ≤ c → c < 16 * (x.first + x.count) → (t.core c).evctl = [] ∧ (t.core c).evcnt = [])
      ∧ t.warps = s.warps.mapV fun _ w => if s.partOf w = p then
        { w with splits := w.splits.mapV fun _ q => { q with stopped := false } } else w)
    ∧ (x.halt ≠ .swapped → ∃ t, exec (.swapin a0) s = .next t ∧ t.kiln.code = 5 ∧ t.parts = s.parts))
  ∧ ∀ part s p, s.parts.get? part = some p → p.halt = .halting →
    (haltReady s part p = true → s.tsc ≤ s.kiln.haltAt + 20000 → exec (.haltComplete part) s
      = .next (((swapCaches (stopCopies s part) part p).mapPart part fun p =>
        { p with halt := .swapped, shadow := some (p.key 0) }).answer 0 part))
    ∧ (haltReady s part p = false ∨ s.kiln.haltAt + 20000 < s.tsc → exec (.haltComplete part) s = .next s)
    ∧ (s.kiln.haltAt + 20000 < s.tsc → exec (.haltTimeout part) s
      = .next (((((resumeWarps s part).mapPart part fun p => { p with halt := .running }).countErr Source.kiln part 10 0).raise
        part 2).answer 6 part))

/-- PACKAGE_RESET boots the staged image where the Kiln ROM accepts it and else enters recovery; FWSTAGE stages an
image that verifies, and boots it in recovery (outcomes of verification and training are free, log 30). A package that
is up has no partition, memory zero, the image's hash measured and, where training succeeds, its mailbox open. -/
def Obligations.BootAndFirmware : Prop :=
  (∀ s image, s.kiln.staged = some image →
    (s.kiln.accepts image = true → exec .packageReset s = .next (bringUp s image))
    ∧ (s.kiln.accepts image = false → ∃ t, exec .packageReset s = .next t ∧ t.kiln.recovery = true ∧ t.kiln.busy = false
      ∧ t.parts = [] ∧ t.kernels = [] ∧ t.warps = [] ∧ t.mem = [] ∧ t.kiln.quarters = [] ∧ t.kiln.staged = some image
      ∧ t.kiln.fuseVersion = s.kiln.fuseVersion))
  ∧ (∀ (a0 a1 : Half) image s, s.kiln.busy = false →
    let c := { s with kiln := { s.kiln with
      busy := true, begun := true, latched := none, mbcmd := 8, mbarg := [a0, a1, BitVec.ofNat 32 image.length] ++ s.kiln.mbarg.drop 3 } }
    let staged := { c with kiln := { c.kiln with staged := some image } }
    (s.kiln.accepts image = false → exec (.fwstage a0 a1 image) s = .next (c.answer 1 0))
    ∧ (s.kiln.accepts image = true → s.kiln.recovery = true → exec (.fwstage a0 a1 image) s = .next (bringUp staged image))
    ∧ (s.kiln.accepts image = true → s.kiln.recovery = false → exec (.fwstage a0 a1 image) s = .next (staged.answer 0 0)))
  ∧ ∀ s image, let t := bringUp s image
    t.parts = [] ∧ t.kernels = [] ∧ t.warps = [] ∧ t.mem = [] ∧ t.kiln.recovery = false ∧ t.kiln.staged = some image
    ∧ t.kiln.fwHash = sha256 image ∧ (t.kiln.phase = 7 ∧ t.kiln.busy = false ∧ t.kiln.code = 0
      ∨ t.kiln.phase = 2 ∧ t.kiln.busy = true ∧ t.kiln.code = 1)

/-- The SPDM requests on the nine instances, once the package is up: replies with their response codes (codes from
SPDM 1.3 and derived bytes are the model's, log 30), one session to an instance, measurement blocks of R388. -/
def Obligations.Attestation : Prop :=
  ∀ inst s, inst < 9 → s.kiln.phase = 7 →
    exec (.getVersion inst) s = .next (spdmReply s [0x10, 0x04, 0, 0, 0, 1, 0, 0x13])
    ∧ exec (.getCapabilities inst) s = .next (spdmReply s [0x13, 0x61, 0, 0, 0, 0, 0, 0, 0xD6, 0x02, 0, 0])
    ∧ (∀ offered, exec (.negotiateAlgorithms inst offered) s
      = .next (if offered = ⟨false, false, false, false⟩ then spdmError s 1 else spdmReply s (algorithmsReply offered)))
    ∧ exec (.getDigests inst) s
      = .next (spdmReply s ([0x13, 0x01, 0x01, 0x01] ++ (sha256 identityChain).map (·.toNat)))
    ∧ (∀ slot, exec (.getCertificate inst slot) s
      = .next (if slot = 0 then spdmReply s ([0x13, 0x02, 0, 0] ++ identityChain.map (·.toNat)) else spdmError s 1))
    ∧ (∀ slot nonce, exec (.challenge inst slot nonce) s
      = .next (if slot = 0 then spdmAnswer s 0x03 7 nonce 128 else spdmError s 1))
    ∧ (∀ index nonce, ∃ t, exec (.getMeasurements inst index nonce) s = .next t ∧
      match measurement s inst index with
      | some bs => (t.kiln.reply.drop 4).take bs.length = bs ∧ t = { s with kiln := { s.kiln with reply := t.kiln.reply } }
      | none => t = spdmError s 1)
    ∧ (∀ ex, exec (.keyExchange inst ex) s = .next (if s.kiln.stage inst = 0 then
        spdmAnswer (s.setSession inst (1 :: ex.map (·.toNat))) 0x64 9 ex 128 else spdmError s 0x0A))
    ∧ (∀ v, s.kiln.stage inst = 1 → exec (.finish inst v) s = .next (if Config.verifies 1 v then
        spdmAnswer (s.setSession inst (2 :: (s.kiln.session inst).drop 1)) 0x65 10 v 32
        else spdmError (s.setSession inst [0]) 6))
    ∧ (s.kiln.stage inst ≠ 0 → exec (.endSession inst) s
      = .next (spdmReply (s.setSession inst [0]) [0x13, 0x6C, 0, 0]))
    ∧ exec (.unsupportedRequest inst) s = .next (spdmError s 7)

/-- SEAL, KEYLOAD and KEYDROP within an established session, for a record that is well formed and carries the binding:
each refuses with its code or changes the partition's keys and answers 0. The export master secret (sessionSecret) and
the info bytes slot0Label of HKDF-Expand are the model's (log 30). -/
def Obligations.KeyRecords : Prop :=
  ∀ inst s p (record : List Byte), inst < 8 → s.kiln.stage (inst + 1) = 2 → s.parts.get? inst = some p →
    (record.drop 4).take 32 = bindingOf s (inst + 1) →
    (keyRecordOk record 1 36 = true →
      (p.launchedOnce = true → exec (.sealRequest (inst + 1) record) s = .next (keyReply s 3))
      ∧ (p.launchedOnce = false → exec (.sealRequest (inst + 1) record) s = .next (keyReply
        { s with parts := s.parts.put inst { p with
          sealed := true, keys := p.keys.put 0 (hkdfExpand64 (sessionSecret s.kiln (inst + 1)) slot0Label) } } 0)))
    ∧ (keyRecordOk record 2 100 = true → let slot := (record.getD 1 0).toNat
      (p.sealed = false → exec (.keyload (inst + 1) record) s = .next (keyReply s 3))
      ∧ (p.sealed = true → (p.keys.get? slot).isSome → exec (.keyload (inst + 1) record) s = .next (keyReply s 4))
      ∧ (p.sealed = true → p.keys.get? slot = none → exec (.keyload (inst + 1) record) s
        = .next (keyReply { s with parts := s.parts.put inst { p with keys := p.keys.put slot (record.drop 36) } } 0)))
    ∧ (keyRecordOk record 3 36 = true → let slot := (record.getD 1 0).toNat
      (p.sealed = false → exec (.keydrop (inst + 1) record) s = .next (keyReply s 3))
      ∧ (p.sealed = true → (∃ k ∈ s.kernels, k.2.part = inst) → exec (.keydrop (inst + 1) record) s = .next (keyReply s 5))
      ∧ (p.sealed = true → (∀ k ∈ s.kernels, k.2.part ≠ inst) → exec (.keydrop (inst + 1) record) s
        = .next (keyReply { s with parts := s.parts.put inst { p with keys := p.keys.del slot } } 0)))

/-! ## Steps -/

/-- What a step runs. In the turn of a scheduler (from the agenda, or the nearest with a ready split, log 1) time
passes, the chosen split `p` is made the acting one, and step is exec of the instruction its word decodes to, in the
state the fetch leaves. A scheduler that has issued in this clk lets one pass first. A split at a clause header comes
before, and what runs is the fetch of that header. An event of the agenda runs as it stands. -/
def Obligations.StepRunsTheFetchedWord : Prop :=
  (∀ s a n uid w i p,
    (∃ r, s.agenda = .port n :: r ∧ a = tick { s with agenda := r })
      ∨ (s.agenda = [] ∧ s.draws % 8 ≠ 7 ∧ a = tick s ∧ headerSplit a = none ∧ nearestPort a = some n) →
    let f := { freshClk a n with port := (n + 1) % 1024 }
    choose f n = some (uid, w, i, p) →
    let b := { f with act := (uid, i), owner := f.owner.put n (splitKey uid i), issued := f.issued.put n f.clk }
    b.warpAborted w = false → (b.warpHalting w = false ∨ p.atSafePoint = false) →
    ∀ c x ins, p.idx ≠ 0 → dominatedLanes b w p = 0 →
      fetchWord b (b.partOf w) (b.asidOf w) w.block p.at_ = .ok (c, x) → decode x = .ok ins → step s = exec ins c)
  ∧ (∀ s part asid blk va c place, va.toNat % 8 = 0 → resolve s part asid blk va 8 .fetch = .ok (c, place) →
    placeLost c part place 8 = false →
    ∃ t, fetchWord s part asid blk va = .ok (t, BitVec.ofNat 64 (leNat (placeBytes c part place 8))))
  ∧ (∀ s uid w i p, s.agenda = [] → s.draws % 8 ≠ 7 → headerSplit (tick s) = some (uid, w, i, p) → p.idx = 0 →
    let b := { tick s with act := (uid, i) }
    b.warpAborted w = false → (b.warpHalting w = false ∨ p.atSafePoint = false) → step s = exec .clauseHeaderFetch b)
  ∧ ∀ s r i, s.agenda = .event i :: r → i.head = none → (∀ x, i ≠ .illegalOpcode x) →
    step s = exec i (tick { s with agenda := r })

/-- Every step of every state answers a next state: no instruction, event or word stops the machine. That an event
whose condition fails leaves the state is the model's choice (DESIGN CHOICE, log 4). -/
def Obligations.EveryStepAnswersANextState : Prop := ∀ s, ∃ t, step s = .next t

/-- Memory stays in its canonical form: strictly rising addresses and no listed byte 0 (log 5), whatever runs. -/
def Obligations.StepsKeepMemoryCanonical : Prop := ∀ s t, s.memWf → step s = .next t → t.memWf

/-- Right after reset, in phase 1 of R394 and before its step 3 (that memory is zero already then is the model's,
DEDUCED, log 5): no partition, kernel, block or warp, memory with nothing listed and in canonical form, time 0, the
clock at 1.4 GHz with no limit (28 steps of 50 MHz), the bring-up in phase 1 with the mailbox busy. -/
def Obligations.ResetState : Prop :=
  State.reset.parts = [] ∧ State.reset.kernels = [] ∧ State.reset.blocks = [] ∧ State.reset.warps = []
  ∧ State.reset.pend = [] ∧ State.reset.mem = [] ∧ State.reset.memWf ∧ State.reset.lost = []
  ∧ State.reset.clk = 0 ∧ State.reset.tsc = 0 ∧ State.reset.pwrClk = 28 ∧ State.reset.pwrTherm = false
  ∧ State.reset.pwrPower = false ∧ State.reset.kiln.phase = 1 ∧ State.reset.kiln.busy = true
  ∧ State.reset.kiln.quarters = [] ∧ (∀ pa, State.reset.byte pa = 0)
  ∧ ∀ c, (State.reset.core c).reg = 16 ∧ (State.reset.core c).scr = 16 ∧ (State.reset.core c).cch = 16
    ∧ (State.reset.core c).mat = 16

/-! ## Encodings -/

/-- The word of every well-formed instruction that has one decodes to that instruction. -/
def Obligations.DecodeInvertsEncode : Prop := ∀ i w, i.wf = true → encode i = some w → decode w = .ok i

/-- Words of the manual's worked examples: the load of "One word, decoded", and the fates of "Malformed words,
worked". -/
def Obligations.ManualWordsDecode : Prop :=
  decode 0x6117046164800E00#64 = .ok (.ld ⟨.lane, .b, 7, false, false, false, false⟩ .b32 (.v 8)
    ⟨.s 2, .n32 (.s 9), .warp, .plain, .normal, 2, false⟩ 0)
  ∧ decode 0x3207000000000000#64 = .ok (.illegalOpcode 0x3207000000000000#64)
  ∧ decode 0x001F018081000000#64 = .error .form
  ∧ decode 0x2107640000200020#64 = .error .form
  ∧ decode 0x2C07000000000000#64 = .error .scope
  ∧ decode 0x00070180FE800000#64 = .error (.operand 0xFD 2)
  ∧ decode 0x3217000000000000#64 = .ok (.illegalOpcode 0x3217000000000000#64)
  ∧ decode 0x6107047C00000000#64 = .error .form
  ∧ (Header.of 0x0000FF0000000000#64).legal = false

/-! ## Traps, privilege -/

/-- Taking a trap at user level with a handler: the trap registers, the saved and cleared predicates, fmt and fst, the
split at tvec in supervisor mode, the other parts' warps suspended, memory and all other warps as before. A trap in
supervisor mode or with tvec = 0 aborts the kernel. ILLEGAL_OPCODE is such a trap. -/
def Obligations.TrapEntry : Prop :=
  (∀ s (h : UPart) rest sc t w p, s.warps.get? h.uid = some w → w.splits.get? h.idx = some p →
    (∀ x ∈ rest, x.uid ≠ h.uid) → (rest.map (·.uid)).Nodup →
    let tvec := (s.parts.get? (s.partOf w)).elim 0 Partition.tvec
    p.saved = none → tvec ≠ 0 → ∃ w' p', (takeTrap s (h :: rest) sc t).warps.get? h.uid = some w'
      ∧ w'.splits.get? h.idx = some p' ∧ (∀ n, n ≠ h.idx → w'.splits.get? n = w.splits.get? n)
      ∧ p'.pc = tvec ∧ p'.idx = 0 ∧ p'.mask = p.mask ∧ p'.fmt = 0 ∧ p'.fst = 0 ∧ p'.wait = .none
      ∧ p'.saved = some ⟨(List.range 7).map fun i => w.preds.num i, p.fmt, p.fst, sc, rest.map (·.uid), t.tpc, p.pc,
          p.header⟩
      ∧ (∀ q : Pred, w'.pred q = if q = 7 then allLanes else w.pred q &&& ~~~p.mask)
      ∧ w'.trapRegs.tpcLo = BitVec.ofNat 32 t.tpc.toNat ∧ w'.trapRegs.tpcHi = BitVec.ofNat 32 (t.tpc.toNat / 2 ^ 32)
      ∧ w'.trapRegs.tmask = t.mask ∧ w'.trapRegs.tunit = p.mask
      ∧ w'.trapRegs.tinfo = [t.info0, t.info1, t.info2, t.info3] ∧ w'.trapRegs.tsave = w.trapRegs.tsave
      ∧ w'.trapRegs.tcause
          = BitVec.ofNat 32 (t.wid % 32 * 2 ^ 16 + t.flag * 2 ^ 12 + t.async.toNat * 2 ^ 11 + sc.code * 2 ^ 8 + t.code)
      ∧ w'.vregs = w.vregs ∧ w'.sregs = w.sregs ∧ w'.bnd = w.bnd ∧ w'.kw = w.kw ∧ w'.flags = w.flags)
  ∧ (∀ s (h : UPart) rest sc t w p, s.warps.get? h.uid = some w → w.splits.get? h.idx = some p →
    let tvec := (s.parts.get? (s.partOf w)).elim 0 Partition.tvec
    (p.saved = none → tvec ≠ 0 → (takeTrap s (h :: rest) sc t).mem = s.mem
      ∧ (∀ n, n ≠ h.uid → (∀ x ∈ rest, x.uid ≠ n) → (takeTrap s (h :: rest) sc t).warps.get? n = s.warps.get? n)
      ∧ ((rest.map (·.uid)).Nodup → ∀ x ∈ rest, x.uid ≠ h.uid → ∀ y, s.warps.get? x.uid = some y →
        (takeTrap s (h :: rest) sc t).warps.get? x.uid = some { y with
          suspended := true
          splits := (y.splits.get? x.idx).elim y.splits fun q => y.splits.put x.idx { q with wait := .trapped } }))
    ∧ ((p.saved.isSome ∨ tvec = 0) → ∃ s1, s1.warps = s.warps ∧ s1.mem = s.mem ∧ s1.kernels = s.kernels
      ∧ takeTrap s (h :: rest) sc t = abortKernel s1 ((s.blockOf w).elim 0 (·.kernel))))
  ∧ ∀ s x w p, s.warps.get? s.act.1 = some w → w.splits.get? s.act.2 = some p → rowOf (Raw.of x.toNat).op = none →
    exec (.illegalOpcode x) s = .next (takeTrap s [⟨s.act.1, s.act.2, p.mask, p.mask, 0⟩] .lane
      ⟨Code.illegalOpcode, BitVec.ofNat 32 x.toNat, BitVec.ofNat 32 (x.toNat / 2 ^ 32), 0, 0, w.wid, p.mask, 15, false,
        p.pc + BitVec.ofNat 64 (8 * p.idx)⟩)

/-- Returning from a trap: the lanes take back p0-p6, fmt and fst, are at user level again, and go on at tpc: within
the trapping clause at that word, whose header is read again, else at the header tpc names; lanes left out of tunit
end. At set and block scope the suspended warps resume with the same place and header, their other splits where they
are. Where the header cannot be read again the unit takes the fetch trap (DEDUCED, log 23). -/
def Obligations.TrapReturn : Prop :=
  (∀ (w : Warp) i v tpc header unit p, w.splits.get? i = some p → p.saved = some v → let w' := w.leaveHandler i v tpc header unit
    (∀ q : Pred, w'.pred q = if q = 7 then allLanes else (w.pred q &&& ~~~p.mask) ||| (v.preds.getD q.val 0 &&& p.mask))
    ∧ (∀ n, n ≠ i → w'.splits.get? n = w.splits.get? n)
    ∧ w'.vregs = w.vregs ∧ w'.sregs = w.sregs ∧ w'.bnd = w.bnd ∧ w'.kw = w.kw ∧ w'.flags = w.flags
    ∧ w'.trapRegs = w.trapRegs
    ∧ ∃ p', w'.splits.get? i = some p' ∧ p'.fmt = v.fmt ∧ p'.fst = v.fst ∧ p'.saved = none ∧ p'.mask = p.mask
      ∧ p'.wait = .none
      ∧ (∀ k, 1 ≤ k → k ≤ (Header.of v.header).count → k < 2 ^ 60 → tpc = v.pc + BitVec.ofNat 64 (8 * k) →
        p'.pc = v.pc ∧ p'.idx = k ∧ p'.header = header)
      ∧ ((∀ k, 1 ≤ k → k ≤ (Header.of v.header).count → tpc ≠ v.pc + BitVec.ofNat 64 (8 * k)) → p'.pc = tpc ∧ p'.idx = 0))
  ∧ (∀ s u i w p v, s.warps.get? u = some w → w.splits.get? i = some p → p.saved = some v →
    let tpc := w.trapRegs.tpcHi ++ w.trapRegs.tpcLo
    let rr := rereadHeader s w v tpc
    let s3 := v.suspended.foldl (fun t o => t.mapWarp o fun x => x.resume v tpc rr.2.1)
      ((endLanes rr.1 u i (p.mask &&& ~~~w.trapRegs.tunit)).mapWarp u fun x => x.leaveHandler i v tpc rr.2.1 (u :: v.suspended))
    rr.1.warps = s.warps ∧ rr.1.kernels = s.kernels ∧ (rr.2.2 = none → returnTrap s u i = settle s3)
    ∧ ∀ c, rr.2.2 = some c → returnTrap s u i = takeTrap (settle s3) (resumedParts s3 (u :: v.suspended) tpc) v.scope
      { fetchTrap c v.pc w p with tpc := tpc })
  ∧ (∀ s w v tpc, (resumeIdx v tpc = none → rereadHeader s w v tpc = (s, v.header, none))
    ∧ (resumeIdx v tpc ≠ none → (∀ t x, fetchWord s (s.partOf w) (s.asidOf w) w.block v.pc = .ok (t, x) →
        rereadHeader s w v tpc = (t, x, none))
      ∧ ∀ c, fetchWord s (s.partOf w) (s.asidOf w) w.block v.pc = .error c → (rereadHeader s w v tpc).2.2 = some c))
  ∧ ∀ (x : Warp) v tpc header, let x' := x.resume v tpc header
    x' = { x with suspended := false, splits := x'.splits }
    ∧ ∀ n, (x.splits.get? n = none → x'.splits.get? n = none)
      ∧ ∀ q, x.splits.get? n = some q → ∃ q', x'.splits.get? n = some q' ∧ q'.stopped = false
        ∧ (q.wait ≠ .trapped → q' = { q with stopped := false })
        ∧ (q.wait = .trapped → q'.mask = q.mask ∧ q'.fmt = q.fmt ∧ q'.fst = q.fst ∧ q'.saved = q.saved
          ∧ (∀ k, 1 ≤ k → k ≤ (Header.of v.header).count → k < 2 ^ 60 → tpc = v.pc + BitVec.ofNat 64 (8 * k) →
            q'.pc = v.pc ∧ q'.idx = k ∧ q'.header = header
            ∧ q'.wait = if tpc = v.word then .rendezvous v.scope else .none)
          ∧ ((∀ k, 1 ≤ k → k ≤ (Header.of v.header).count → tpc ≠ v.pc + BitVec.ofNat 64 (8 * k)) →
            q'.pc = tpc ∧ q'.idx = 0 ∧ q'.wait = .none))

/-- The user registers of R210; at user level TRET, and GETSR and SETSR of any other register, trap PRIVILEGE with the
opcode and the number; in supervisor mode, and for a user register, this check passes; no other instruction has it; an
unknown number is no well-formed operand; a write to a user register that only reads has no effect. -/
def Obligations.PrivilegeChecks : Prop :=
  (∀ n, srUser n = true ↔ n ∈ [0x0E0, 0x0E1, 0x0E4, 0x0E6, 0x0E7, 0x0F0, 0x0F1, 0x0F8, 0x0FA, 0x0FB] ∨
    (0x100 ≤ n ∧ n ≤ 0x10F))
  ∧ (∀ s (h : Head) w p, s.warps.get? s.act.1 = some w → w.splits.get? s.act.2 = some p → p.saved = none →
    h.flag = .none → (h.scope = .set → w.setId.isSome) →
    (p.idx = (Header.of p.header).count →
      exec (.tret h) s = .next (takeWordTrap s s.act.1 s.act.2 w p Code.privilege 0x119 0 0 0))
    ∧ (∀ d (sr : BitVec 12), srUser sr.toNat = false →
      exec (.getsr h d sr) s = .next (takeWordTrap s s.act.1 s.act.2 w p Code.privilege 0x11A (sr.setWidth 32) 0 0))
    ∧ ∀ a (sr : BitVec 12), srUser sr.toNat = false →
      exec (.setsr h a sr) s = .next (takeWordTrap s s.act.1 s.act.2 w p Code.privilege 0x11B (sr.setWidth 32) 0 0))
  ∧ (∀ (h : Head) (w : Warp) (p : Split), h.flag = .none → (h.scope = .set → w.setId.isSome) →
    (p.saved.isSome → p.idx = (Header.of p.header).count → dynamicCheck (.tret h) h w p = none)
    ∧ ∀ r (sr : BitVec 12), p.saved.isSome ∨ srUser sr.toNat = true →
      dynamicCheck (.getsr h r sr) h w p = none ∧ dynamicCheck (.setsr h r sr) h w p = none)
  ∧ (∀ i h w p a b, dynamicCheck i h w p = some (Code.privilege, a, b) →
    (∃ h', i = .tret h') ∨ ∃ h' r sr, i = .getsr h' r sr ∨ i = .setsr h' r sr)
  ∧ (∀ h r (sr : BitVec 12), srKnown sr.toNat = false → (Instr.getsr h r sr).wf = false ∧ (Instr.setsr h r sr).wf = false)
  ∧ ∀ s uid i n x, n ∈ [0x0E0, 0x0E4, 0x0F0, 0x0F1, 0x0F8, 0x0FA, 0x0FB] → sysWrite s uid i n x = (s, none)

/-- Access checks: a misaligned lane meets MISALIGNED, an aligned non-canonical one PAGE_FAULT, before anything else,
but for a lane of LDR in a page that is not resident, which raises no fault; LD, LDC, ST and ATOM with a lane that has
a cause trap as R37 says, and nothing of the word stays. A store or ATOM first waits while it would re-establish a
discarded page with no stamp free (DEDUCED, log 24). -/
def Obligations.AccessChecksTrap : Prop :=
  (∀ u s uid l (ea : Word) size align acc, acc ≠ .ldr ∨ nonResident s u.part u.asid ea = false → ea.toNat % align ≠ 0 →
    checkLane u s uid l ea size align acc = (s, some Code.misaligned, 0, .absent))
  ∧ (∀ u s uid l (ea : Word) size align acc, ea.toNat % align = 0 → 2 ^ 56 ≤ ea.toNat →
    checkLane u s uid l ea size align acc = (s, some Code.pageFault, 0, .absent))
  ∧ (∀ u s uid l (ea : Word) size align, nonResident s u.part u.asid ea = true →
    checkLane u s uid l ea size align .ldr = (s, none, 0, .absent))
  ∧ ∀ h d m off t,
    (∀ ty, let n := Sys2Proof.Machine.LdTy.bytes ty
      let c := fun (acc : Acc) (r w : State) (u : IssueUnit) => checkLanes u n n acc w (u.addrs r m off.toInt n)
      Traps (.ld h ty d m off) (fun r u w => u.lanes ≠ [] ∧ readsPending r u = false
        ∧ accessTrap u r (c .load r w u).2 = some t) (fun _ _ _ => t)
      ∧ Traps (.st h ty d m off) (fun r u w => u.lanes ≠ [] ∧ writeWait u r m.order = none
        ∧ spanWait r u.part u.asid ((u.addrs r m off.toInt n).map (·.2.2)) = none ∧ accessTrap u r (c .store r w u).2 = some t) fun _ _ _ => t)
    ∧ (∀ ty, let n := Sys2Proof.Machine.LdcTy.bytes ty
      Traps (.ldc h ty d m off) (fun r u w => u.lanes ≠ [] ∧ readsPending r u = false
        ∧ accessTrap u r (checkLanes u n n .load w ((u.addrs r m off.toInt n).take 1)).2 = some t) fun _ _ _ => t)
    ∧ ∀ op, let n := Sys2Proof.Machine.AtomOp.bytes op
      Traps (.atom h op d m off) (fun r u w => u.lanes ≠ [] ∧ writeWait u r m.order = none
        ∧ spanWait r u.part u.asid ((u.addrs r m off.toInt n).map (·.2.2)) = none
        ∧ accessTrap u r (checkLanes u n n .atom w (u.addrs r m off.toInt n)).2 = some t) fun _ _ _ => t

/-- The check of an access, of whatever kind, to a non-canonical address, one with bits [63:56] not all 0, has the
cause PAGE_FAULT: of R28 this states the cause that `resolve` gives alone, not that the words which call it trap. -/
def Obligations.NonCanonicalAddressesFault : Prop :=
  ∀ s part asid blk (ea : Word) n acc, ea.toNat / 2 ^ 56 ≠ 0 → resolve s part asid blk ea n acc = .error Code.pageFault

/-! ## Frames of memory accesses -/

/-- What the access instructions leave unchanged. A store changes no byte outside those it stores, whose places its
lanes' checks gave (for a sealed page, outside their lines), counted from the state its translations and births leave,
and no register; a load leaves the load in flight that its lanes name, no byte changed at all from there, and of no
warp anything but its rows awaited and its flags before it completes; lanes whose cached translations serve them, and
an access without an absent tile, leave the state as it was. -/
def Obligations.StoresAndLoadsFrame : Prop :=
  (∀ h t d m off s s1 u, let n := Sys2Proof.Machine.LdTy.bytes t
    let w := emptied (.st h t d m off) u s1
    let c := checkLanes u n n .store w (u.addrs s1 m off.toInt n)
    let born := births true c.1 u.part (tilesOf c.2) []
    s.issues (.st h t d m off) = some (s1, u) → u.lanes ≠ [] → writeWait u s1 m.order = none →
    spanWait s1 u.part u.asid ((u.addrs s1 m off.toInt n).map (·.2.2)) = none → accessTrap u s1 c.2 = none →
    (∀ a ∈ c.2, tileReserved c.1 u.part a.place = false) → missingLines c.1 u.part true n c.2 = [] →
    existFullTrap u s1 c.2 born.2 = none →
    ∃ t1, exec (.st h t d m off) s = .next (settleEffect s1 u (.st h t d m off) (.done t1))
      ∧ (overPeak s1 t1 u = none → exec (.st h t d m off) s = .next (u.movedOn t1)) ∧ t1.warps = w.warps
      ∧ t1.kernels = w.kernels
      ∧ ∀ pa, (∀ a ∈ c.2, ∀ x ∈ placeCells born.1 u.part a.place (storeBytes u s1 d n a.part a.lane),
          if a.place.key = none then x.1 ≠ pa else x.1 / 128 ≠ pa / 128) → t1.byte pa = born.1.byte pa)
  ∧ (∀ h t d m off s s1 u, let n := Sys2Proof.Machine.LdTy.bytes t
    let w := emptied (.ld h t d m off) u s1
    let c := checkLanes u n n .load w (u.addrs s1 m off.toInt n)
    let touched := touchAll c.1 u m.policy false c.2
    let t1 := startLoad u h touched d n none u.opcode (loadLanes u touched n c.2 fun _ => true) c.2
    s.issues (.ld h t d m off) = some (s1, u) → u.lanes ≠ [] → readsPending s1 u = false → accessTrap u s1 c.2 = none →
    exec (.ld h t d m off) s = .next (settleEffect s1 u (.ld h t d m off) (.done t1))
      ∧ (overPeak s1 t1 u = none → exec (.ld h t d m off) s = .next (u.movedOn t1)) ∧ t1.mem = c.1.mem
      ∧ t1.kernels = w.kernels ∧ ∀ n y, w.warps.get? n = some y →
        ∃ y', t1.warps.get? n = some y' ∧ y' = { y with pending := y'.pending, flags := y'.flags })
  ∧ (∀ s part, births true s part [] [] = (s, []))
  ∧ ∀ s part asid blk (ea : Word) n acc p e, inAperture ea = false → s.parts.get? part = some p →
    p.tlb.get? (tlbKey asid ea) = some e → (acc.writes = true → ebit e.leaf 9 = true ∧ ebit e.leaf 18 = false) →
    (acc.hints = false → ebit e.leaf 8 = true) → acc ≠ .discard →
    ∀ s1 pl, resolve s part asid blk ea n acc = .ok (s1, pl) → s1 = s

/-! ## Registers that read as constants, words without a lane -/

/-- zero reads 0, ones all ones, lid the lane, lit the clause literal, a vector name with no row 0, p7 all lanes; a
write to any name but a vector, a scalar, bnd, kw, fmt and fst changes nothing, and neither does one to p7. -/
def Obligations.ConstantRegisters : Prop :=
  (∀ s w p l, readReg s w p .zero l = 0 ∧ readReg s w p .ones l = 0xFFFFFFFF#32 ∧ readReg s w p .lid l = BitVec.ofNat 32 l
    ∧ readReg s w p .lit l = BitVec.ofNat 32 p.header.toNat ∧ readReg s w p .clk l = BitVec.ofNat 32 s.clk
    ∧ (w.packed = false → readReg s w p .wid l = BitVec.ofNat 32 w.wid)
    ∧ (w.setId = none → readReg s w p .sid l = 0xFFFFFFFF#32)
    ∧ (∀ i : Fin 192, w.vregs.get? i.val = none → readReg s w p (.v i) l = 0) ∧ w.pred 7 = 0xFFFFFFFF#32)
  ∧ ∀ (u : IssueUnit) s n,
    (∀ f, ∀ d ∈ [Reg.lid, .wid, .bid, .sid, .zero, .ones, .lit, .gid, .clk],
      (u.write s d f).warps.get? n = s.warps.get? n ∧ u.write s d f = { s with warps := (u.write s d f).warps })
    ∧ ∀ f, (u.writePred s 7 f).warps.get? n = s.warps.get? n ∧ u.writePred s 7 f = { s with warps := (u.writePred s 7 f).warps }

/-- Words whose guard leaves no active lane only move on: accesses, atomics, existence instructions, fences and
tokens, barriers, queues, engine, matrix and solver commands, branches, calls and returns, spawns and launches,
incumbents and POOLSET. -/
def Obligations.WordsWithoutLanes : Prop :=
  let idle := fun (i : Instr) => Does i (fun _ u _ => u.lanes = []) fun _ _ w => w
  (∀ h d m off, (∀ t, idle (.ld h t d m off) ∧ idle (.st h t d m off)) ∧ (∀ t, idle (.ldc h t d m off))
    ∧ (∀ op, idle (.atom h op d m off)) ∧ idle (.ealloc h d m off) ∧ idle (.etest h d m off) ∧ idle (.erase h m off)
    ∧ idle (.eraser h d m off) ∧ idle (.discard h m off))
  ∧ (∀ h t d pd m off, idle (.ldg h t d pd m off) ∧ idle (.ldr h t d pd m off) ∧ idle (.lde h t d pd m off))
  ∧ (∀ h t d m off, idle (.scat h t d m off))
  ∧ (∀ h d a b c, idle (.abinit h a b c) ∧ idle (.abarrive h d a b) ∧ (∀ g, idle (.abwait h a b g))
    ∧ (∀ q, idle (.qinit h a b c q) ∧ idle (.qacqFree h d q) ∧ idle (.qacqFull h d q) ∧ idle (.qrelFull h q)
      ∧ idle (.qrelFree h q)) ∧ idle (.binc h a b c) ∧ idle (.binp h) ∧ idle (.crel h)
    ∧ ∀ dir dd aa twoD ab q sc, idle (.cpy h dir dd aa b c twoD ab q sc))
  ∧ (∀ h (d a b c : Tile) sat bs, (∀ t, idle (.mma h t d a b c sat bs)) ∧ (∀ t, idle (.mmas h t d a b c sat bs))
    ∧ idle (.tzero h d) ∧ (∀ w, idle (.ttrans h d a w)) ∧ (∀ t, idle (.tadd h d a b t)) ∧ (∀ p s, idle (.tcvt h d a p s))
    ∧ idle (.talloc h d) ∧ idle (.tfree h d))
  ∧ (∀ h d (a : Tile), (∀ col op t, idle (.tred h d a col op t)) ∧ ∀ b, idle (.ttov h d a b))
  ∧ (∀ h d a sr, idle (.getsr h d sr) ∧ idle (.setsr h a sr) ∧ idle (.exit h) ∧ (∀ t r, idle (.bra h t r))
    ∧ (∀ r, idle (.brx h a r) ∧ idle (.callx h d a r)) ∧ (∀ t r, idle (.call h d t r)) ∧ idle (.ret h a))
  ∧ (∀ h, (∀ o sc, idle (.fence h o sc)) ∧ idle (.tokenTake h) ∧ idle (.tokenPass h)
    ∧ (∀ a b c w, idle (.stash h a b c w) ∧ idle (.unstash h w)) ∧ (∀ d a, idle (.poolset h d a))
    ∧ (∀ d a b c z sc, idle (.cpyh h d a b c z sc)) ∧ (∀ a n, idle (.fhnd h a n)) ∧ ∀ t d a b n pd, idle (.fetch h t d a b n pd))
  ∧ (∀ h (d : Tile) a b x, idle (.tfill h d a) ∧ idle (.vtot h d a b) ∧ idle (.tupd h d a b x)
    ∧ (∀ n, idle (.tlu h d a b n x) ∧ (∀ (e : Tile) p, idle (.ttrsLower h d e a n x p) ∧ idle (.ttrsUpper h d e n x)))
    ∧ ∀ r c n pd, idle (.tjac h r d b c n x pd))
  ∧ ∀ h d a b c pd n, idle (.spawn h a b c pd n) ∧ idle (.launch h d a pd) ∧ (∀ t, idle (.lwait h d a pd t))
    ∧ ∀ k x y, idle (.kinit h a k x y) ∧ idle (.kupd h x a b k y) ∧ idle (.kread h d k y)

/-! ## Single rules -/

/-- LEA forms a + ext(b) × s modulo 2^64, ext signed for .i32, s in 1, 2, 4, 8; its modifier holds log2 s in [1:0] and
.i32 in [2], its opcode is 0x044. PACK.i16x2 (0x04A), PACK.i8x4 (0x04B) and UNPACK.i16 (0x04C). -/
def Obligations.LeaAndPacking : Prop :=
  (∀ h d a b (k : Fin 4),
    GivesPair (.lea h .n32 d a b k) d (fun _ g => g.wide a + BitVec.ofInt 64 ((g b).toNat * 2 ^ k.val))
    ∧ GivesPair (.lea h .i32 d a b k) d (fun _ g => g.wide a + BitVec.ofInt 64 ((g b).toInt * 2 ^ k.val))
    ∧ ∀ t, (Instr.lea h t d a b k).opcode = 0x044 ∧ (Instr.lea h t d a b k).operands.f % 4096 % 4 = k.val
      ∧ (Instr.lea h t d a b k).operands.f % 4096 / 4 = (if t = .i32 then 1 else 0))
  ∧ (∀ h d a b,
    GivesStatus (.pack h .i16x2 d a b) d (fun _ g =>
      Res.sat (pack16 (satSigned 16 (g a).toInt).1 (satSigned 16 (g b).toInt).1,
        (satSigned 16 (g a).toInt).2 || (satSigned 16 (g b).toInt).2))
    ∧ GivesStatus (.pack h .i8x4 d a b) d (fun _ g =>
      let f := fun (r : Reg) (e : Nat) => satSigned 8 (elem16 (g r) e).toInt
      Res.sat (pack8 (f a 0).1 (f a 1).1 (f b 0).1 (f b 1).1, (f a 0).2 || (f a 1).2 || (f b 0).2 || (f b 1).2))
    ∧ (Instr.pack h .i16x2 d a b).opcode = 0x04A ∧ (Instr.pack h .i8x4 d a b).opcode = 0x04B)
  ∧ ∀ h d a, GivesPair (.unpack h d a) d (fun _ g => (elem16 (g a) 1).signExtend 32 ++ (elem16 (g a) 0).signExtend 32)
    ∧ (Instr.unpack h d a).opcode = 0x04C

/-- Integer MMA, A and B in codes 8 to 12: each word of D is C plus the exact sum of the K products, wrapped to I32
without status, or with .sat clamped once, sat set where the clamp applied. TTRANS: element (i, 32 sq + j) of D is
element (j, 32 sq + i) of A for every square, without status. -/
def Obligations.IntegerProductsAndTransposes : Prop :=
  (∀ m : MmaArgs, 8 ≤ m.aFmt → m.aFmt ≤ 12 → m.sparse = false → ∀ i < 32, ∀ j < 32,
    let k := kOf m.aFmt
    let v := (m.c.num (32 * i + j)).toInt + ((List.range k).map fun n =>
      codeInt m.aFmt (tileCode m.a m.aFmt i n) * codeInt m.bFmt (tileCode m.b m.bFmt j n)).foldl (· + ·) 0
    8 ≤ m.bFmt → m.bFmt ≤ 12 → kOf m.bFmt = k →
    (m.sat = false → (32 * i + j, BitVec.ofInt 32 v) ∈ m.result.1 ∧ m.result.2 = 0)
    ∧ (m.sat = true → (32 * i + j, (satSigned 32 v).1) ∈ m.result.1
      ∧ ((satSigned 32 v).2 = true → m.result.2 &&& 1#32 = 1#32)))
  ∧ ∀ (wd : Fin 4) (a : TileData), let w := 32 / 2 ^ wd.val
    (transposed w a).2 = 0 ∧ ∀ i < 32, ∀ sq < 32 / w, ∀ j < 32,
      let t : TileData := (transposed w a).1.foldl (fun t x => t.setNum x.1 x.2) []
      rowField t i (w * (32 * sq + j)) w = rowField a j (w * (32 * sq + i)) w

/-- poolctl: bit 0, upool, is 1 at reset and allows POOLSET at user level, 0 refuses it with code 5; bits [31:1] read
0. Bytes of an absent tile: byte b reads as byte b mod 4 of the default word, the pattern for dkind 0 and the format's
NaN for dkind 1, other formats refused: such a region is not in use. -/
def Obligations.PoolControlAndAbsentTiles : Prop :=
  (∀ first count af ac, (Partition.start first count af ac).sys 0x0E5 = 1)
  ∧ (∀ (p : Partition) x, (p.write 0x0E5 x).sys 0x0E5 = x &&& 1)
  ∧ (∀ s (u : IssueUnit) x p, s.parts.get? u.part = some p → u.super = false → (p.sys 0x0E5).getLsbD 0 = false →
    poolCheck s u x = some 5)
  ∧ (∀ s (u : IssueUnit) x p, s.parts.get? u.part = some p → u.super = false → (p.sys 0x0E5).getLsbD 0 = true →
    poolBad x = false → (s.core u.core).change = none →
    (((heldAsk s u.core).floor :: coreFloors s u.core).any (belowFloor x)) = false →
    poolCheck s u x ≠ some 5)
  ∧ (∀ s part r t o k i g, s.region? part r = some g → g.tiles.get? t = none →
    placeByte s part (.tile r t o k) i = BitVec.ofNat 8 (g.pattern.toNat / 256 ^ ((o + i) % 4)))
  ∧ ∀ (g : Region) bs, let top := fieldOf bs 19 1
    ((g.load bs).valid = true →
      (top / 32 % 2 = 0 → (g.load bs).pattern = BitVec.ofNat 32 (fieldOf bs 20 4))
      ∧ (top / 32 % 2 = 1 →
        (top / 2 % 16 = 0 → (g.load bs).pattern = 0x7FC00000#32) ∧ (top / 2 % 16 = 1 → (g.load bs).pattern = 0x7E007E00#32)
        ∧ (top / 2 % 16 = 2 → (g.load bs).pattern = 0x7FC07FC0#32) ∧ (top / 2 % 16 = 3 → (g.load bs).pattern = 0x7E7E7E7E#32)
        ∧ (top / 2 % 16 = 4 → (g.load bs).pattern = 0x7F7F7F7F#32)))
    ∧ (top / 32 % 2 = 1 → 4 < top / 2 % 16 → (g.load bs).valid = false)
end

