-- ==== Sys2Proof/Laws/Tab.lean ====
section
/-! SUPPORT. Lemmas about maps from numbers: reading after writing, and the canonical form. -/

namespace Sys2Proof.Machine

variable {α : Type}

theorem Tab.get?_put_self (m : Tab α) (n : Nat) (x : α) : (m.put n x).get? n = some x := by
  induction m with
  | nil => simp [Tab.put, Tab.get?]
  | cons c r ih =>
    obtain ⟨k, v⟩ := c
    simp only [Tab.put]
    split_ifs with h1 h2
    · simp [Tab.get?]
    · simp [Tab.get?]
    · simp [Tab.get?, h2, ih]

theorem Tab.get?_put_ne (m : Tab α) {n k : Nat} (x : α) (h : k ≠ n) : (m.put n x).get? k = m.get? k := by
  induction m with
  | nil => simp [Tab.put, Tab.get?, h]
  | cons c r ih =>
    obtain ⟨j, v⟩ := c
    simp only [Tab.put]
    split_ifs with h1 h2
    · simp [Tab.get?, h]
    · subst h2; simp [Tab.get?, h]
    · simp [Tab.get?, ih]

theorem Tab.get?_put (m : Tab α) (n k : Nat) (x : α) : (m.put n x).get? k = if k = n then some x else m.get? k := by
  by_cases h : k = n
  · subst h; simp [Tab.get?_put_self]
  · simp [h, Tab.get?_put_ne m x h]

/-! ## Rising keys -/

/-- Every key is above a bound. -/
def Tab.above (n : Nat) (m : Tab α) : Prop := ∀ c ∈ m, n < c.1

theorem Tab.sorted_cons (k : Nat) (v : α) (r : Tab α) :
    Tab.sorted ((k, v) :: r) = true ↔ Tab.above k r ∧ Tab.sorted r = true := by
  induction r generalizing k v with
  | nil => simp [Tab.sorted, Tab.above]
  | cons c r ih =>
    obtain ⟨k', v'⟩ := c
    simp only [Tab.sorted, Bool.and_eq_true, decide_eq_true_eq]
    constructor
    · rintro ⟨h1, h2⟩
      refine ⟨?_, h2⟩
      intro c hc
      simp only [List.mem_cons] at hc
      rcases hc with rfl | hc
      · exact h1
      · exact Nat.lt_trans h1 (((ih k' v').1 h2).1 c hc)
    · rintro ⟨h1, h2⟩
      exact ⟨h1 (k', v') (by simp), h2⟩

theorem Tab.mem_put (m : Tab α) (n : Nat) (x : α) : ∀ c ∈ m.put n x, c = (n, x) ∨ c ∈ m := by
  induction m with
  | nil => simp [Tab.put]
  | cons c r ih =>
    obtain ⟨k, v⟩ := c
    simp only [Tab.put]
    split
    · intro c hc; simpa using hc
    · split
      · intro c hc
        simp only [List.mem_cons] at hc ⊢
        tauto
      · intro c hc
        simp only [List.mem_cons] at hc ⊢
        rcases hc with rfl | hc
        · tauto
        · rcases ih c hc with h | h <;> tauto

theorem Tab.mem_del (m : Tab α) (n : Nat) : ∀ c ∈ m.del n, c ∈ m := fun _ hc => List.mem_of_mem_filter hc

theorem Tab.get?_del (m : Tab α) (n k : Nat) : (m.del n).get? k = if k = n then none else m.get? k := by
  induction m with
  | nil => simp [Tab.del, Tab.get?]
  | cons c r ih =>
    obtain ⟨j, v⟩ := c
    unfold Tab.del at ih ⊢
    rw [List.filter_cons]
    by_cases hj : j = n
    · subst hj
      simp only [bne_self_eq_false, Bool.false_eq_true, if_false, ih, Tab.get?]
      split_ifs <;> rfl
    · simp only [bne_iff_ne.2 hj, if_true, Tab.get?, ih]
      by_cases hk : k = j
      · subst hk; simp [hj]
      · simp [hk]

/-- Reading after the keys a test selects are dropped. -/
theorem Tab.get?_drop (m : Tab α) (p : Nat → Bool) (k : Nat) : (m.drop p).get? k = if p k then none else m.get? k := by
  induction m with
  | nil => simp [Tab.drop, Tab.get?]
  | cons c r ih =>
    obtain ⟨j, v⟩ := c
    unfold Tab.drop at ih ⊢
    rw [List.filter_cons]
    cases hj : p j
    · simp only [hj, Bool.not_false, if_true, Tab.get?, ih]
      by_cases hk : k = j
      · subst hk; simp [hj]
      · simp [hk]
    · simp only [hj, Bool.not_true, Bool.false_eq_true, if_false, ih, Tab.get?]
      by_cases hk : k = j
      · subst hk; simp [hj]
      · simp [hk]

theorem Tab.get?_mapV {β : Type} (m : Tab α) (f : Nat → α → β) (k : Nat) :
    (m.mapV f).get? k = (m.get? k).map (f k) := by
  induction m with
  | nil => rfl
  | cons c r ih =>
    obtain ⟨j, v⟩ := c
    simp only [Tab.mapV, List.map_cons, Tab.get?] at ih ⊢
    by_cases hk : k = j
    · subst hk; simp
    · simp [hk, ih]

theorem Tab.sorted_put {m : Tab α} (n : Nat) (x : α) (h : Tab.sorted m = true) : Tab.sorted (m.put n x) = true := by
  induction m with
  | nil => simp [Tab.put, Tab.sorted]
  | cons c r ih =>
    obtain ⟨k, v⟩ := c
    have hs := (Tab.sorted_cons k v r).1 h
    simp only [Tab.put]
    split
    · rename_i h1
      rw [Tab.sorted_cons]
      refine ⟨?_, h⟩
      intro c hc
      simp only [List.mem_cons] at hc
      rcases hc with rfl | hc
      · exact h1
      · exact Nat.lt_trans h1 (hs.1 c hc)
    · split
      · subst_vars
        rw [Tab.sorted_cons]
        exact hs
      · rw [Tab.sorted_cons]
        refine ⟨?_, ih hs.2⟩
        intro c hc
        rcases Tab.mem_put r n x c hc with rfl | hc
        · dsimp only; omega
        · exact hs.1 c hc

theorem Tab.sorted_filter {m : Tab α} (p : Nat × α → Bool) (h : Tab.sorted m = true) :
    Tab.sorted (List.filter p m) = true := by
  induction m with
  | nil => exact h
  | cons c r ih =>
    obtain ⟨k, v⟩ := c
    have hs := (Tab.sorted_cons k v r).1 h
    rw [List.filter_cons]
    split
    · rw [Tab.sorted_cons]
      exact ⟨fun c hc => hs.1 c (List.mem_of_mem_filter hc), ih hs.2⟩
    · exact ih hs.2

theorem Tab.sorted_del {m : Tab α} (n : Nat) (h : Tab.sorted m = true) : Tab.sorted (m.del n) = true :=
  Tab.sorted_filter _ h

theorem Tab.get?_above {m : Tab α} {n : Nat} (h : Tab.above n m) : m.get? n = none := by
  induction m with
  | nil => rfl
  | cons c r ih =>
    obtain ⟨k, v⟩ := c
    have h1 := h (k, v) (by simp)
    have : n ≠ k := by simp at h1; omega
    simp only [Tab.get?, this, if_false]
    exact ih fun c hc => h c (List.mem_cons_of_mem _ hc)

/-! ## The canonical form of maps of numbers -/

variable {w : Nat}

theorem Tab.wf_iff (m : Tab (BitVec w)) : m.wf = true ↔ Tab.sorted m = true ∧ ∀ c ∈ m, c.2 ≠ 0 := by
  simp [Tab.wf, List.all_eq_true]

theorem Tab.wf_nil : Tab.wf ([] : Tab (BitVec w)) = true := by simp [Tab.wf, Tab.sorted]

/-- Writing a number keeps the canonical form. -/
theorem Tab.wf_setNum {m : Tab (BitVec w)} (n : Nat) (x : BitVec w) (h : m.wf = true) : (m.setNum n x).wf = true := by
  rw [Tab.wf_iff] at h ⊢
  unfold Tab.setNum
  split
  · exact ⟨Tab.sorted_del n h.1, fun c hc => h.2 c (Tab.mem_del m n c hc)⟩
  · refine ⟨Tab.sorted_put n x h.1, fun c hc => ?_⟩
    rcases Tab.mem_put m n x c hc with rfl | hc
    · assumption
    · exact h.2 c hc

/-- Reading a number after writing one. -/
theorem Tab.num_setNum (m : Tab (BitVec w)) (n k : Nat) (x : BitVec w) :
    (m.setNum n x).num k = if k = n then x else m.num k := by
  unfold Tab.setNum Tab.num
  split
  · rw [Tab.get?_del]
    split <;> simp_all
  · rw [Tab.get?_put]
    split <;> simp_all

theorem Tab.num_drop (m : Tab (BitVec w)) (p : Nat → Bool) (k : Nat) :
    Tab.num (m.drop p) k = if p k then 0 else m.num k := by
  unfold Tab.num
  rw [Tab.get?_drop]
  split <;> simp_all

theorem Tab.num_put (m : Tab (BitVec w)) (n k : Nat) (x : BitVec w) :
    Tab.num (m.put n x) k = if k = n then x else m.num k := by
  unfold Tab.num
  rw [Tab.get?_put]
  split <;> simp_all

end Sys2Proof.Machine
end

