-- ==== Sys2Proof/Laws/State.lean ====
section
/-! SUPPORT. What each update of the state leaves of each field, and what a changed table reads. -/

namespace Sys2Proof.Machine

/-! ## setWarp -/

@[simp] theorem State.setWarp_mem (s : State) (u : Nat) (w : Warp) : (s.setWarp u w).mem = s.mem := rfl
@[simp] theorem State.setWarp_lost (s : State) (u : Nat) (w : Warp) : (s.setWarp u w).lost = s.lost := rfl
@[simp] theorem State.setWarp_clk (s : State) (u : Nat) (w : Warp) : (s.setWarp u w).clk = s.clk := rfl
@[simp] theorem State.setWarp_tsc (s : State) (u : Nat) (w : Warp) : (s.setWarp u w).tsc = s.tsc := rfl
@[simp] theorem State.setWarp_tscRem (s : State) (u : Nat) (w : Warp) : (s.setWarp u w).tscRem = s.tscRem := rfl
@[simp] theorem State.setWarp_pwrClk (s : State) (u : Nat) (w : Warp) : (s.setWarp u w).pwrClk = s.pwrClk := rfl
@[simp] theorem State.setWarp_pwrTherm (s : State) (u : Nat) (w : Warp) : (s.setWarp u w).pwrTherm = s.pwrTherm := rfl
@[simp] theorem State.setWarp_pwrPower (s : State) (u : Nat) (w : Warp) : (s.setWarp u w).pwrPower = s.pwrPower := rfl
@[simp] theorem State.setWarp_dieSel (s : State) (u : Nat) (w : Warp) : (s.setWarp u w).dieSel = s.dieSel := rfl
@[simp] theorem State.setWarp_dieCnt (s : State) (u : Nat) (w : Warp) : (s.setWarp u w).dieCnt = s.dieCnt := rfl
@[simp] theorem State.setWarp_records (s : State) (u : Nat) (w : Warp) : (s.setWarp u w).records = s.records := rfl
@[simp] theorem State.setWarp_msix (s : State) (u : Nat) (w : Warp) : (s.setWarp u w).msix = s.msix := rfl
@[simp] theorem State.setWarp_kiln (s : State) (u : Nat) (w : Warp) : (s.setWarp u w).kiln = s.kiln := rfl
@[simp] theorem State.setWarp_fab (s : State) (u : Nat) (w : Warp) : (s.setWarp u w).fab = s.fab := rfl
@[simp] theorem State.setWarp_parts (s : State) (u : Nat) (w : Warp) : (s.setWarp u w).parts = s.parts := rfl
@[simp] theorem State.setWarp_cores (s : State) (u : Nat) (w : Warp) : (s.setWarp u w).cores = s.cores := rfl
@[simp] theorem State.setWarp_kernels (s : State) (u : Nat) (w : Warp) : (s.setWarp u w).kernels = s.kernels := rfl
@[simp] theorem State.setWarp_blocks (s : State) (u : Nat) (w : Warp) : (s.setWarp u w).blocks = s.blocks := rfl
@[simp] theorem State.setWarp_pend (s : State) (u : Nat) (w : Warp) : (s.setWarp u w).pend = s.pend := rfl
@[simp] theorem State.setWarp_hostOut (s : State) (u : Nat) (w : Warp) : (s.setWarp u w).hostOut = s.hostOut := rfl
@[simp] theorem State.setWarp_hostWait (s : State) (u : Nat) (w : Warp) : (s.setWarp u w).hostWait = s.hostWait := rfl
@[simp] theorem State.setWarp_draws (s : State) (u : Nat) (w : Warp) : (s.setWarp u w).draws = s.draws := rfl
@[simp] theorem State.setWarp_seq (s : State) (u : Nat) (w : Warp) : (s.setWarp u w).seq = s.seq := rfl
@[simp] theorem State.setWarp_agenda (s : State) (u : Nat) (w : Warp) : (s.setWarp u w).agenda = s.agenda := rfl
@[simp] theorem State.setWarp_port (s : State) (u : Nat) (w : Warp) : (s.setWarp u w).port = s.port := rfl
@[simp] theorem State.setWarp_act (s : State) (u : Nat) (w : Warp) : (s.setWarp u w).act = s.act := rfl
@[simp] theorem State.setWarp_owner (s : State) (u : Nat) (w : Warp) : (s.setWarp u w).owner = s.owner := rfl
@[simp] theorem State.setWarp_issued (s : State) (u : Nat) (w : Warp) : (s.setWarp u w).issued = s.issued := rfl

/-! ## mapWarp -/

@[simp] theorem State.mapWarp_mem (s : State) (u : Nat) (f : Warp → Warp) : (s.mapWarp u f).mem = s.mem := by
  unfold State.mapWarp; split <;> rfl
@[simp] theorem State.mapWarp_lost (s : State) (u : Nat) (f : Warp → Warp) : (s.mapWarp u f).lost = s.lost := by
  unfold State.mapWarp; split <;> rfl
@[simp] theorem State.mapWarp_clk (s : State) (u : Nat) (f : Warp → Warp) : (s.mapWarp u f).clk = s.clk := by
  unfold State.mapWarp; split <;> rfl
@[simp] theorem State.mapWarp_tsc (s : State) (u : Nat) (f : Warp → Warp) : (s.mapWarp u f).tsc = s.tsc := by
  unfold State.mapWarp; split <;> rfl
@[simp] theorem State.mapWarp_tscRem (s : State) (u : Nat) (f : Warp → Warp) : (s.mapWarp u f).tscRem = s.tscRem := by
  unfold State.mapWarp; split <;> rfl
@[simp] theorem State.mapWarp_pwrClk (s : State) (u : Nat) (f : Warp → Warp) : (s.mapWarp u f).pwrClk = s.pwrClk := by
  unfold State.mapWarp; split <;> rfl
@[simp] theorem State.mapWarp_pwrTherm (s : State) (u : Nat) (f : Warp → Warp) : (s.mapWarp u f).pwrTherm = s.pwrTherm := by
  unfold State.mapWarp; split <;> rfl
@[simp] theorem State.mapWarp_pwrPower (s : State) (u : Nat) (f : Warp → Warp) : (s.mapWarp u f).pwrPower = s.pwrPower := by
  unfold State.mapWarp; split <;> rfl
@[simp] theorem State.mapWarp_dieSel (s : State) (u : Nat) (f : Warp → Warp) : (s.mapWarp u f).dieSel = s.dieSel := by
  unfold State.mapWarp; split <;> rfl
@[simp] theorem State.mapWarp_dieCnt (s : State) (u : Nat) (f : Warp → Warp) : (s.mapWarp u f).dieCnt = s.dieCnt := by
  unfold State.mapWarp; split <;> rfl
@[simp] theorem State.mapWarp_records (s : State) (u : Nat) (f : Warp → Warp) : (s.mapWarp u f).records = s.records := by
  unfold State.mapWarp; split <;> rfl
@[simp] theorem State.mapWarp_msix (s : State) (u : Nat) (f : Warp → Warp) : (s.mapWarp u f).msix = s.msix := by
  unfold State.mapWarp; split <;> rfl
@[simp] theorem State.mapWarp_kiln (s : State) (u : Nat) (f : Warp → Warp) : (s.mapWarp u f).kiln = s.kiln := by
  unfold State.mapWarp; split <;> rfl
@[simp] theorem State.mapWarp_fab (s : State) (u : Nat) (f : Warp → Warp) : (s.mapWarp u f).fab = s.fab := by
  unfold State.mapWarp; split <;> rfl
@[simp] theorem State.mapWarp_parts (s : State) (u : Nat) (f : Warp → Warp) : (s.mapWarp u f).parts = s.parts := by
  unfold State.mapWarp; split <;> rfl
@[simp] theorem State.mapWarp_cores (s : State) (u : Nat) (f : Warp → Warp) : (s.mapWarp u f).cores = s.cores := by
  unfold State.mapWarp; split <;> rfl
@[simp] theorem State.mapWarp_kernels (s : State) (u : Nat) (f : Warp → Warp) : (s.mapWarp u f).kernels = s.kernels := by
  unfold State.mapWarp; split <;> rfl
@[simp] theorem State.mapWarp_blocks (s : State) (u : Nat) (f : Warp → Warp) : (s.mapWarp u f).blocks = s.blocks := by
  unfold State.mapWarp; split <;> rfl
@[simp] theorem State.mapWarp_pend (s : State) (u : Nat) (f : Warp → Warp) : (s.mapWarp u f).pend = s.pend := by
  unfold State.mapWarp; split <;> rfl
@[simp] theorem State.mapWarp_hostOut (s : State) (u : Nat) (f : Warp → Warp) : (s.mapWarp u f).hostOut = s.hostOut := by
  unfold State.mapWarp; split <;> rfl
@[simp] theorem State.mapWarp_hostWait (s : State) (u : Nat) (f : Warp → Warp) : (s.mapWarp u f).hostWait = s.hostWait := by
  unfold State.mapWarp; split <;> rfl
@[simp] theorem State.mapWarp_draws (s : State) (u : Nat) (f : Warp → Warp) : (s.mapWarp u f).draws = s.draws := by
  unfold State.mapWarp; split <;> rfl
@[simp] theorem State.mapWarp_seq (s : State) (u : Nat) (f : Warp → Warp) : (s.mapWarp u f).seq = s.seq := by
  unfold State.mapWarp; split <;> rfl
@[simp] theorem State.mapWarp_agenda (s : State) (u : Nat) (f : Warp → Warp) : (s.mapWarp u f).agenda = s.agenda := by
  unfold State.mapWarp; split <;> rfl
@[simp] theorem State.mapWarp_port (s : State) (u : Nat) (f : Warp → Warp) : (s.mapWarp u f).port = s.port := by
  unfold State.mapWarp; split <;> rfl
@[simp] theorem State.mapWarp_act (s : State) (u : Nat) (f : Warp → Warp) : (s.mapWarp u f).act = s.act := by
  unfold State.mapWarp; split <;> rfl
@[simp] theorem State.mapWarp_owner (s : State) (u : Nat) (f : Warp → Warp) : (s.mapWarp u f).owner = s.owner := by
  unfold State.mapWarp; split <;> rfl
@[simp] theorem State.mapWarp_issued (s : State) (u : Nat) (f : Warp → Warp) : (s.mapWarp u f).issued = s.issued := by
  unfold State.mapWarp; split <;> rfl

/-! ## mapSplit -/

@[simp] theorem State.mapSplit_mem (s : State) (u i : Nat) (f : Split → Split) : (s.mapSplit u i f).mem = s.mem := State.mapWarp_mem _ _ _
@[simp] theorem State.mapSplit_lost (s : State) (u i : Nat) (f : Split → Split) : (s.mapSplit u i f).lost = s.lost := State.mapWarp_lost _ _ _
@[simp] theorem State.mapSplit_clk (s : State) (u i : Nat) (f : Split → Split) : (s.mapSplit u i f).clk = s.clk := State.mapWarp_clk _ _ _
@[simp] theorem State.mapSplit_tsc (s : State) (u i : Nat) (f : Split → Split) : (s.mapSplit u i f).tsc = s.tsc := State.mapWarp_tsc _ _ _
@[simp] theorem State.mapSplit_tscRem (s : State) (u i : Nat) (f : Split → Split) : (s.mapSplit u i f).tscRem = s.tscRem := State.mapWarp_tscRem _ _ _
@[simp] theorem State.mapSplit_pwrClk (s : State) (u i : Nat) (f : Split → Split) : (s.mapSplit u i f).pwrClk = s.pwrClk := State.mapWarp_pwrClk _ _ _
@[simp] theorem State.mapSplit_pwrTherm (s : State) (u i : Nat) (f : Split → Split) : (s.mapSplit u i f).pwrTherm = s.pwrTherm := State.mapWarp_pwrTherm _ _ _
@[simp] theorem State.mapSplit_pwrPower (s : State) (u i : Nat) (f : Split → Split) : (s.mapSplit u i f).pwrPower = s.pwrPower := State.mapWarp_pwrPower _ _ _
@[simp] theorem State.mapSplit_dieSel (s : State) (u i : Nat) (f : Split → Split) : (s.mapSplit u i f).dieSel = s.dieSel := State.mapWarp_dieSel _ _ _
@[simp] theorem State.mapSplit_dieCnt (s : State) (u i : Nat) (f : Split → Split) : (s.mapSplit u i f).dieCnt = s.dieCnt := State.mapWarp_dieCnt _ _ _
@[simp] theorem State.mapSplit_records (s : State) (u i : Nat) (f : Split → Split) : (s.mapSplit u i f).records = s.records := State.mapWarp_records _ _ _
@[simp] theorem State.mapSplit_msix (s : State) (u i : Nat) (f : Split → Split) : (s.mapSplit u i f).msix = s.msix := State.mapWarp_msix _ _ _
@[simp] theorem State.mapSplit_kiln (s : State) (u i : Nat) (f : Split → Split) : (s.mapSplit u i f).kiln = s.kiln := State.mapWarp_kiln _ _ _
@[simp] theorem State.mapSplit_fab (s : State) (u i : Nat) (f : Split → Split) : (s.mapSplit u i f).fab = s.fab := State.mapWarp_fab _ _ _
@[simp] theorem State.mapSplit_parts (s : State) (u i : Nat) (f : Split → Split) : (s.mapSplit u i f).parts = s.parts := State.mapWarp_parts _ _ _
@[simp] theorem State.mapSplit_cores (s : State) (u i : Nat) (f : Split → Split) : (s.mapSplit u i f).cores = s.cores := State.mapWarp_cores _ _ _
@[simp] theorem State.mapSplit_kernels (s : State) (u i : Nat) (f : Split → Split) : (s.mapSplit u i f).kernels = s.kernels := State.mapWarp_kernels _ _ _
@[simp] theorem State.mapSplit_blocks (s : State) (u i : Nat) (f : Split → Split) : (s.mapSplit u i f).blocks = s.blocks := State.mapWarp_blocks _ _ _
@[simp] theorem State.mapSplit_pend (s : State) (u i : Nat) (f : Split → Split) : (s.mapSplit u i f).pend = s.pend := State.mapWarp_pend _ _ _
@[simp] theorem State.mapSplit_hostOut (s : State) (u i : Nat) (f : Split → Split) : (s.mapSplit u i f).hostOut = s.hostOut := State.mapWarp_hostOut _ _ _
@[simp] theorem State.mapSplit_hostWait (s : State) (u i : Nat) (f : Split → Split) : (s.mapSplit u i f).hostWait = s.hostWait := State.mapWarp_hostWait _ _ _
@[simp] theorem State.mapSplit_draws (s : State) (u i : Nat) (f : Split → Split) : (s.mapSplit u i f).draws = s.draws := State.mapWarp_draws _ _ _
@[simp] theorem State.mapSplit_seq (s : State) (u i : Nat) (f : Split → Split) : (s.mapSplit u i f).seq = s.seq := State.mapWarp_seq _ _ _
@[simp] theorem State.mapSplit_agenda (s : State) (u i : Nat) (f : Split → Split) : (s.mapSplit u i f).agenda = s.agenda := State.mapWarp_agenda _ _ _
@[simp] theorem State.mapSplit_port (s : State) (u i : Nat) (f : Split → Split) : (s.mapSplit u i f).port = s.port := State.mapWarp_port _ _ _
@[simp] theorem State.mapSplit_act (s : State) (u i : Nat) (f : Split → Split) : (s.mapSplit u i f).act = s.act := State.mapWarp_act _ _ _
@[simp] theorem State.mapSplit_owner (s : State) (u i : Nat) (f : Split → Split) : (s.mapSplit u i f).owner = s.owner := State.mapWarp_owner _ _ _
@[simp] theorem State.mapSplit_issued (s : State) (u i : Nat) (f : Split → Split) : (s.mapSplit u i f).issued = s.issued := State.mapWarp_issued _ _ _

/-! ## mapBlock -/

@[simp] theorem State.mapBlock_mem (s : State) (b : Nat) (f : Block → Block) : (s.mapBlock b f).mem = s.mem := by
  unfold State.mapBlock; split <;> rfl
@[simp] theorem State.mapBlock_lost (s : State) (b : Nat) (f : Block → Block) : (s.mapBlock b f).lost = s.lost := by
  unfold State.mapBlock; split <;> rfl
@[simp] theorem State.mapBlock_clk (s : State) (b : Nat) (f : Block → Block) : (s.mapBlock b f).clk = s.clk := by
  unfold State.mapBlock; split <;> rfl
@[simp] theorem State.mapBlock_tsc (s : State) (b : Nat) (f : Block → Block) : (s.mapBlock b f).tsc = s.tsc := by
  unfold State.mapBlock; split <;> rfl
@[simp] theorem State.mapBlock_tscRem (s : State) (b : Nat) (f : Block → Block) : (s.mapBlock b f).tscRem = s.tscRem := by
  unfold State.mapBlock; split <;> rfl
@[simp] theorem State.mapBlock_pwrClk (s : State) (b : Nat) (f : Block → Block) : (s.mapBlock b f).pwrClk = s.pwrClk := by
  unfold State.mapBlock; split <;> rfl
@[simp] theorem State.mapBlock_pwrTherm (s : State) (b : Nat) (f : Block → Block) : (s.mapBlock b f).pwrTherm = s.pwrTherm := by
  unfold State.mapBlock; split <;> rfl
@[simp] theorem State.mapBlock_pwrPower (s : State) (b : Nat) (f : Block → Block) : (s.mapBlock b f).pwrPower = s.pwrPower := by
  unfold State.mapBlock; split <;> rfl
@[simp] theorem State.mapBlock_dieSel (s : State) (b : Nat) (f : Block → Block) : (s.mapBlock b f).dieSel = s.dieSel := by
  unfold State.mapBlock; split <;> rfl
@[simp] theorem State.mapBlock_dieCnt (s : State) (b : Nat) (f : Block → Block) : (s.mapBlock b f).dieCnt = s.dieCnt := by
  unfold State.mapBlock; split <;> rfl
@[simp] theorem State.mapBlock_records (s : State) (b : Nat) (f : Block → Block) : (s.mapBlock b f).records = s.records := by
  unfold State.mapBlock; split <;> rfl
@[simp] theorem State.mapBlock_msix (s : State) (b : Nat) (f : Block → Block) : (s.mapBlock b f).msix = s.msix := by
  unfold State.mapBlock; split <;> rfl
@[simp] theorem State.mapBlock_kiln (s : State) (b : Nat) (f : Block → Block) : (s.mapBlock b f).kiln = s.kiln := by
  unfold State.mapBlock; split <;> rfl
@[simp] theorem State.mapBlock_fab (s : State) (b : Nat) (f : Block → Block) : (s.mapBlock b f).fab = s.fab := by
  unfold State.mapBlock; split <;> rfl
@[simp] theorem State.mapBlock_parts (s : State) (b : Nat) (f : Block → Block) : (s.mapBlock b f).parts = s.parts := by
  unfold State.mapBlock; split <;> rfl
@[simp] theorem State.mapBlock_cores (s : State) (b : Nat) (f : Block → Block) : (s.mapBlock b f).cores = s.cores := by
  unfold State.mapBlock; split <;> rfl
@[simp] theorem State.mapBlock_kernels (s : State) (b : Nat) (f : Block → Block) : (s.mapBlock b f).kernels = s.kernels := by
  unfold State.mapBlock; split <;> rfl
@[simp] theorem State.mapBlock_warps (s : State) (b : Nat) (f : Block → Block) : (s.mapBlock b f).warps = s.warps := by
  unfold State.mapBlock; split <;> rfl
@[simp] theorem State.mapBlock_pend (s : State) (b : Nat) (f : Block → Block) : (s.mapBlock b f).pend = s.pend := by
  unfold State.mapBlock; split <;> rfl
@[simp] theorem State.mapBlock_hostOut (s : State) (b : Nat) (f : Block → Block) : (s.mapBlock b f).hostOut = s.hostOut := by
  unfold State.mapBlock; split <;> rfl
@[simp] theorem State.mapBlock_hostWait (s : State) (b : Nat) (f : Block → Block) : (s.mapBlock b f).hostWait = s.hostWait := by
  unfold State.mapBlock; split <;> rfl
@[simp] theorem State.mapBlock_draws (s : State) (b : Nat) (f : Block → Block) : (s.mapBlock b f).draws = s.draws := by
  unfold State.mapBlock; split <;> rfl
@[simp] theorem State.mapBlock_seq (s : State) (b : Nat) (f : Block → Block) : (s.mapBlock b f).seq = s.seq := by
  unfold State.mapBlock; split <;> rfl
@[simp] theorem State.mapBlock_agenda (s : State) (b : Nat) (f : Block → Block) : (s.mapBlock b f).agenda = s.agenda := by
  unfold State.mapBlock; split <;> rfl
@[simp] theorem State.mapBlock_port (s : State) (b : Nat) (f : Block → Block) : (s.mapBlock b f).port = s.port := by
  unfold State.mapBlock; split <;> rfl
@[simp] theorem State.mapBlock_act (s : State) (b : Nat) (f : Block → Block) : (s.mapBlock b f).act = s.act := by
  unfold State.mapBlock; split <;> rfl
@[simp] theorem State.mapBlock_owner (s : State) (b : Nat) (f : Block → Block) : (s.mapBlock b f).owner = s.owner := by
  unfold State.mapBlock; split <;> rfl
@[simp] theorem State.mapBlock_issued (s : State) (b : Nat) (f : Block → Block) : (s.mapBlock b f).issued = s.issued := by
  unfold State.mapBlock; split <;> rfl

/-! ## mapKernel -/

@[simp] theorem State.mapKernel_mem (s : State) (k : Nat) (f : Kernel → Kernel) : (s.mapKernel k f).mem = s.mem := by
  unfold State.mapKernel; split <;> rfl
@[simp] theorem State.mapKernel_lost (s : State) (k : Nat) (f : Kernel → Kernel) : (s.mapKernel k f).lost = s.lost := by
  unfold State.mapKernel; split <;> rfl
@[simp] theorem State.mapKernel_clk (s : State) (k : Nat) (f : Kernel → Kernel) : (s.mapKernel k f).clk = s.clk := by
  unfold State.mapKernel; split <;> rfl
@[simp] theorem State.mapKernel_tsc (s : State) (k : Nat) (f : Kernel → Kernel) : (s.mapKernel k f).tsc = s.tsc := by
  unfold State.mapKernel; split <;> rfl
@[simp] theorem State.mapKernel_tscRem (s : State) (k : Nat) (f : Kernel → Kernel) : (s.mapKernel k f).tscRem = s.tscRem := by
  unfold State.mapKernel; split <;> rfl
@[simp] theorem State.mapKernel_pwrClk (s : State) (k : Nat) (f : Kernel → Kernel) : (s.mapKernel k f).pwrClk = s.pwrClk := by
  unfold State.mapKernel; split <;> rfl
@[simp] theorem State.mapKernel_pwrTherm (s : State) (k : Nat) (f : Kernel → Kernel) : (s.mapKernel k f).pwrTherm = s.pwrTherm := by
  unfold State.mapKernel; split <;> rfl
@[simp] theorem State.mapKernel_pwrPower (s : State) (k : Nat) (f : Kernel → Kernel) : (s.mapKernel k f).pwrPower = s.pwrPower := by
  unfold State.mapKernel; split <;> rfl
@[simp] theorem State.mapKernel_dieSel (s : State) (k : Nat) (f : Kernel → Kernel) : (s.mapKernel k f).dieSel = s.dieSel := by
  unfold State.mapKernel; split <;> rfl
@[simp] theorem State.mapKernel_dieCnt (s : State) (k : Nat) (f : Kernel → Kernel) : (s.mapKernel k f).dieCnt = s.dieCnt := by
  unfold State.mapKernel; split <;> rfl
@[simp] theorem State.mapKernel_records (s : State) (k : Nat) (f : Kernel → Kernel) : (s.mapKernel k f).records = s.records := by
  unfold State.mapKernel; split <;> rfl
@[simp] theorem State.mapKernel_msix (s : State) (k : Nat) (f : Kernel → Kernel) : (s.mapKernel k f).msix = s.msix := by
  unfold State.mapKernel; split <;> rfl
@[simp] theorem State.mapKernel_kiln (s : State) (k : Nat) (f : Kernel → Kernel) : (s.mapKernel k f).kiln = s.kiln := by
  unfold State.mapKernel; split <;> rfl
@[simp] theorem State.mapKernel_fab (s : State) (k : Nat) (f : Kernel → Kernel) : (s.mapKernel k f).fab = s.fab := by
  unfold State.mapKernel; split <;> rfl
@[simp] theorem State.mapKernel_parts (s : State) (k : Nat) (f : Kernel → Kernel) : (s.mapKernel k f).parts = s.parts := by
  unfold State.mapKernel; split <;> rfl
@[simp] theorem State.mapKernel_cores (s : State) (k : Nat) (f : Kernel → Kernel) : (s.mapKernel k f).cores = s.cores := by
  unfold State.mapKernel; split <;> rfl
@[simp] theorem State.mapKernel_blocks (s : State) (k : Nat) (f : Kernel → Kernel) : (s.mapKernel k f).blocks = s.blocks := by
  unfold State.mapKernel; split <;> rfl
@[simp] theorem State.mapKernel_warps (s : State) (k : Nat) (f : Kernel → Kernel) : (s.mapKernel k f).warps = s.warps := by
  unfold State.mapKernel; split <;> rfl
@[simp] theorem State.mapKernel_pend (s : State) (k : Nat) (f : Kernel → Kernel) : (s.mapKernel k f).pend = s.pend := by
  unfold State.mapKernel; split <;> rfl
@[simp] theorem State.mapKernel_hostOut (s : State) (k : Nat) (f : Kernel → Kernel) : (s.mapKernel k f).hostOut = s.hostOut := by
  unfold State.mapKernel; split <;> rfl
@[simp] theorem State.mapKernel_hostWait (s : State) (k : Nat) (f : Kernel → Kernel) : (s.mapKernel k f).hostWait = s.hostWait := by
  unfold State.mapKernel; split <;> rfl
@[simp] theorem State.mapKernel_draws (s : State) (k : Nat) (f : Kernel → Kernel) : (s.mapKernel k f).draws = s.draws := by
  unfold State.mapKernel; split <;> rfl
@[simp] theorem State.mapKernel_seq (s : State) (k : Nat) (f : Kernel → Kernel) : (s.mapKernel k f).seq = s.seq := by
  unfold State.mapKernel; split <;> rfl
@[simp] theorem State.mapKernel_agenda (s : State) (k : Nat) (f : Kernel → Kernel) : (s.mapKernel k f).agenda = s.agenda := by
  unfold State.mapKernel; split <;> rfl
@[simp] theorem State.mapKernel_port (s : State) (k : Nat) (f : Kernel → Kernel) : (s.mapKernel k f).port = s.port := by
  unfold State.mapKernel; split <;> rfl
@[simp] theorem State.mapKernel_act (s : State) (k : Nat) (f : Kernel → Kernel) : (s.mapKernel k f).act = s.act := by
  unfold State.mapKernel; split <;> rfl
@[simp] theorem State.mapKernel_owner (s : State) (k : Nat) (f : Kernel → Kernel) : (s.mapKernel k f).owner = s.owner := by
  unfold State.mapKernel; split <;> rfl
@[simp] theorem State.mapKernel_issued (s : State) (k : Nat) (f : Kernel → Kernel) : (s.mapKernel k f).issued = s.issued := by
  unfold State.mapKernel; split <;> rfl

/-! ## mapPart -/

@[simp] theorem State.mapPart_mem (s : State) (p : Nat) (f : Partition → Partition) : (s.mapPart p f).mem = s.mem := by
  unfold State.mapPart; split <;> rfl
@[simp] theorem State.mapPart_lost (s : State) (p : Nat) (f : Partition → Partition) : (s.mapPart p f).lost = s.lost := by
  unfold State.mapPart; split <;> rfl
@[simp] theorem State.mapPart_clk (s : State) (p : Nat) (f : Partition → Partition) : (s.mapPart p f).clk = s.clk := by
  unfold State.mapPart; split <;> rfl
@[simp] theorem State.mapPart_tsc (s : State) (p : Nat) (f : Partition → Partition) : (s.mapPart p f).tsc = s.tsc := by
  unfold State.mapPart; split <;> rfl
@[simp] theorem State.mapPart_tscRem (s : State) (p : Nat) (f : Partition → Partition) : (s.mapPart p f).tscRem = s.tscRem := by
  unfold State.mapPart; split <;> rfl
@[simp] theorem State.mapPart_pwrClk (s : State) (p : Nat) (f : Partition → Partition) : (s.mapPart p f).pwrClk = s.pwrClk := by
  unfold State.mapPart; split <;> rfl
@[simp] theorem State.mapPart_pwrTherm (s : State) (p : Nat) (f : Partition → Partition) : (s.mapPart p f).pwrTherm = s.pwrTherm := by
  unfold State.mapPart; split <;> rfl
@[simp] theorem State.mapPart_pwrPower (s : State) (p : Nat) (f : Partition → Partition) : (s.mapPart p f).pwrPower = s.pwrPower := by
  unfold State.mapPart; split <;> rfl
@[simp] theorem State.mapPart_dieSel (s : State) (p : Nat) (f : Partition → Partition) : (s.mapPart p f).dieSel = s.dieSel := by
  unfold State.mapPart; split <;> rfl
@[simp] theorem State.mapPart_dieCnt (s : State) (p : Nat) (f : Partition → Partition) : (s.mapPart p f).dieCnt = s.dieCnt := by
  unfold State.mapPart; split <;> rfl
@[simp] theorem State.mapPart_records (s : State) (p : Nat) (f : Partition → Partition) : (s.mapPart p f).records = s.records := by
  unfold State.mapPart; split <;> rfl
@[simp] theorem State.mapPart_msix (s : State) (p : Nat) (f : Partition → Partition) : (s.mapPart p f).msix = s.msix := by
  unfold State.mapPart; split <;> rfl
@[simp] theorem State.mapPart_kiln (s : State) (p : Nat) (f : Partition → Partition) : (s.mapPart p f).kiln = s.kiln := by
  unfold State.mapPart; split <;> rfl
@[simp] theorem State.mapPart_fab (s : State) (p : Nat) (f : Partition → Partition) : (s.mapPart p f).fab = s.fab := by
  unfold State.mapPart; split <;> rfl
@[simp] theorem State.mapPart_cores (s : State) (p : Nat) (f : Partition → Partition) : (s.mapPart p f).cores = s.cores := by
  unfold State.mapPart; split <;> rfl
@[simp] theorem State.mapPart_kernels (s : State) (p : Nat) (f : Partition → Partition) : (s.mapPart p f).kernels = s.kernels := by
  unfold State.mapPart; split <;> rfl
@[simp] theorem State.mapPart_blocks (s : State) (p : Nat) (f : Partition → Partition) : (s.mapPart p f).blocks = s.blocks := by
  unfold State.mapPart; split <;> rfl
@[simp] theorem State.mapPart_warps (s : State) (p : Nat) (f : Partition → Partition) : (s.mapPart p f).warps = s.warps := by
  unfold State.mapPart; split <;> rfl
@[simp] theorem State.mapPart_pend (s : State) (p : Nat) (f : Partition → Partition) : (s.mapPart p f).pend = s.pend := by
  unfold State.mapPart; split <;> rfl
@[simp] theorem State.mapPart_hostOut (s : State) (p : Nat) (f : Partition → Partition) : (s.mapPart p f).hostOut = s.hostOut := by
  unfold State.mapPart; split <;> rfl
@[simp] theorem State.mapPart_hostWait (s : State) (p : Nat) (f : Partition → Partition) : (s.mapPart p f).hostWait = s.hostWait := by
  unfold State.mapPart; split <;> rfl
@[simp] theorem State.mapPart_draws (s : State) (p : Nat) (f : Partition → Partition) : (s.mapPart p f).draws = s.draws := by
  unfold State.mapPart; split <;> rfl
@[simp] theorem State.mapPart_seq (s : State) (p : Nat) (f : Partition → Partition) : (s.mapPart p f).seq = s.seq := by
  unfold State.mapPart; split <;> rfl
@[simp] theorem State.mapPart_agenda (s : State) (p : Nat) (f : Partition → Partition) : (s.mapPart p f).agenda = s.agenda := by
  unfold State.mapPart; split <;> rfl
@[simp] theorem State.mapPart_port (s : State) (p : Nat) (f : Partition → Partition) : (s.mapPart p f).port = s.port := by
  unfold State.mapPart; split <;> rfl
@[simp] theorem State.mapPart_act (s : State) (p : Nat) (f : Partition → Partition) : (s.mapPart p f).act = s.act := by
  unfold State.mapPart; split <;> rfl
@[simp] theorem State.mapPart_owner (s : State) (p : Nat) (f : Partition → Partition) : (s.mapPart p f).owner = s.owner := by
  unfold State.mapPart; split <;> rfl
@[simp] theorem State.mapPart_issued (s : State) (p : Nat) (f : Partition → Partition) : (s.mapPart p f).issued = s.issued := by
  unfold State.mapPart; split <;> rfl

/-! ## mapCore -/

@[simp] theorem State.mapCore_mem (s : State) (c : Nat) (f : Core → Core) : (s.mapCore c f).mem = s.mem := rfl
@[simp] theorem State.mapCore_lost (s : State) (c : Nat) (f : Core → Core) : (s.mapCore c f).lost = s.lost := rfl
@[simp] theorem State.mapCore_clk (s : State) (c : Nat) (f : Core → Core) : (s.mapCore c f).clk = s.clk := rfl
@[simp] theorem State.mapCore_tsc (s : State) (c : Nat) (f : Core → Core) : (s.mapCore c f).tsc = s.tsc := rfl
@[simp] theorem State.mapCore_tscRem (s : State) (c : Nat) (f : Core → Core) : (s.mapCore c f).tscRem = s.tscRem := rfl
@[simp] theorem State.mapCore_pwrClk (s : State) (c : Nat) (f : Core → Core) : (s.mapCore c f).pwrClk = s.pwrClk := rfl
@[simp] theorem State.mapCore_pwrTherm (s : State) (c : Nat) (f : Core → Core) : (s.mapCore c f).pwrTherm = s.pwrTherm := rfl
@[simp] theorem State.mapCore_pwrPower (s : State) (c : Nat) (f : Core → Core) : (s.mapCore c f).pwrPower = s.pwrPower := rfl
@[simp] theorem State.mapCore_dieSel (s : State) (c : Nat) (f : Core → Core) : (s.mapCore c f).dieSel = s.dieSel := rfl
@[simp] theorem State.mapCore_dieCnt (s : State) (c : Nat) (f : Core → Core) : (s.mapCore c f).dieCnt = s.dieCnt := rfl
@[simp] theorem State.mapCore_records (s : State) (c : Nat) (f : Core → Core) : (s.mapCore c f).records = s.records := rfl
@[simp] theorem State.mapCore_msix (s : State) (c : Nat) (f : Core → Core) : (s.mapCore c f).msix = s.msix := rfl
@[simp] theorem State.mapCore_kiln (s : State) (c : Nat) (f : Core → Core) : (s.mapCore c f).kiln = s.kiln := rfl
@[simp] theorem State.mapCore_fab (s : State) (c : Nat) (f : Core → Core) : (s.mapCore c f).fab = s.fab := rfl
@[simp] theorem State.mapCore_parts (s : State) (c : Nat) (f : Core → Core) : (s.mapCore c f).parts = s.parts := rfl
@[simp] theorem State.mapCore_kernels (s : State) (c : Nat) (f : Core → Core) : (s.mapCore c f).kernels = s.kernels := rfl
@[simp] theorem State.mapCore_blocks (s : State) (c : Nat) (f : Core → Core) : (s.mapCore c f).blocks = s.blocks := rfl
@[simp] theorem State.mapCore_warps (s : State) (c : Nat) (f : Core → Core) : (s.mapCore c f).warps = s.warps := rfl
@[simp] theorem State.mapCore_pend (s : State) (c : Nat) (f : Core → Core) : (s.mapCore c f).pend = s.pend := rfl
@[simp] theorem State.mapCore_hostOut (s : State) (c : Nat) (f : Core → Core) : (s.mapCore c f).hostOut = s.hostOut := rfl
@[simp] theorem State.mapCore_hostWait (s : State) (c : Nat) (f : Core → Core) : (s.mapCore c f).hostWait = s.hostWait := rfl
@[simp] theorem State.mapCore_draws (s : State) (c : Nat) (f : Core → Core) : (s.mapCore c f).draws = s.draws := rfl
@[simp] theorem State.mapCore_seq (s : State) (c : Nat) (f : Core → Core) : (s.mapCore c f).seq = s.seq := rfl
@[simp] theorem State.mapCore_agenda (s : State) (c : Nat) (f : Core → Core) : (s.mapCore c f).agenda = s.agenda := rfl
@[simp] theorem State.mapCore_port (s : State) (c : Nat) (f : Core → Core) : (s.mapCore c f).port = s.port := rfl
@[simp] theorem State.mapCore_act (s : State) (c : Nat) (f : Core → Core) : (s.mapCore c f).act = s.act := rfl
@[simp] theorem State.mapCore_owner (s : State) (c : Nat) (f : Core → Core) : (s.mapCore c f).owner = s.owner := rfl
@[simp] theorem State.mapCore_issued (s : State) (c : Nat) (f : Core → Core) : (s.mapCore c f).issued = s.issued := rfl

/-! ## record -/

@[simp] theorem State.record_mem (s : State) (src k p : Nat) (a b : Word) : (s.record src k p a b).mem = s.mem := rfl
@[simp] theorem State.record_lost (s : State) (src k p : Nat) (a b : Word) : (s.record src k p a b).lost = s.lost := rfl
@[simp] theorem State.record_clk (s : State) (src k p : Nat) (a b : Word) : (s.record src k p a b).clk = s.clk := rfl
@[simp] theorem State.record_tsc (s : State) (src k p : Nat) (a b : Word) : (s.record src k p a b).tsc = s.tsc := rfl
@[simp] theorem State.record_tscRem (s : State) (src k p : Nat) (a b : Word) : (s.record src k p a b).tscRem = s.tscRem := rfl
@[simp] theorem State.record_pwrClk (s : State) (src k p : Nat) (a b : Word) : (s.record src k p a b).pwrClk = s.pwrClk := rfl
@[simp] theorem State.record_pwrTherm (s : State) (src k p : Nat) (a b : Word) : (s.record src k p a b).pwrTherm = s.pwrTherm := rfl
@[simp] theorem State.record_pwrPower (s : State) (src k p : Nat) (a b : Word) : (s.record src k p a b).pwrPower = s.pwrPower := rfl
@[simp] theorem State.record_dieSel (s : State) (src k p : Nat) (a b : Word) : (s.record src k p a b).dieSel = s.dieSel := rfl
@[simp] theorem State.record_dieCnt (s : State) (src k p : Nat) (a b : Word) : (s.record src k p a b).dieCnt = s.dieCnt := rfl
@[simp] theorem State.record_msix (s : State) (src k p : Nat) (a b : Word) : (s.record src k p a b).msix = s.msix := rfl
@[simp] theorem State.record_kiln (s : State) (src k p : Nat) (a b : Word) : (s.record src k p a b).kiln = s.kiln := rfl
@[simp] theorem State.record_fab (s : State) (src k p : Nat) (a b : Word) : (s.record src k p a b).fab = s.fab := rfl
@[simp] theorem State.record_parts (s : State) (src k p : Nat) (a b : Word) : (s.record src k p a b).parts = s.parts := rfl
@[simp] theorem State.record_cores (s : State) (src k p : Nat) (a b : Word) : (s.record src k p a b).cores = s.cores := rfl
@[simp] theorem State.record_kernels (s : State) (src k p : Nat) (a b : Word) : (s.record src k p a b).kernels = s.kernels := rfl
@[simp] theorem State.record_blocks (s : State) (src k p : Nat) (a b : Word) : (s.record src k p a b).blocks = s.blocks := rfl
@[simp] theorem State.record_warps (s : State) (src k p : Nat) (a b : Word) : (s.record src k p a b).warps = s.warps := rfl
@[simp] theorem State.record_pend (s : State) (src k p : Nat) (a b : Word) : (s.record src k p a b).pend = s.pend := rfl
@[simp] theorem State.record_hostOut (s : State) (src k p : Nat) (a b : Word) : (s.record src k p a b).hostOut = s.hostOut := rfl
@[simp] theorem State.record_hostWait (s : State) (src k p : Nat) (a b : Word) : (s.record src k p a b).hostWait = s.hostWait := rfl
@[simp] theorem State.record_draws (s : State) (src k p : Nat) (a b : Word) : (s.record src k p a b).draws = s.draws := rfl
@[simp] theorem State.record_seq (s : State) (src k p : Nat) (a b : Word) : (s.record src k p a b).seq = s.seq := rfl
@[simp] theorem State.record_agenda (s : State) (src k p : Nat) (a b : Word) : (s.record src k p a b).agenda = s.agenda := rfl
@[simp] theorem State.record_port (s : State) (src k p : Nat) (a b : Word) : (s.record src k p a b).port = s.port := rfl
@[simp] theorem State.record_act (s : State) (src k p : Nat) (a b : Word) : (s.record src k p a b).act = s.act := rfl
@[simp] theorem State.record_owner (s : State) (src k p : Nat) (a b : Word) : (s.record src k p a b).owner = s.owner := rfl
@[simp] theorem State.record_issued (s : State) (src k p : Nat) (a b : Word) : (s.record src k p a b).issued = s.issued := rfl

/-! ## raise -/

@[simp] theorem State.raise_mem (s : State) (p i : Nat) : (s.raise p i).mem = s.mem := rfl
@[simp] theorem State.raise_lost (s : State) (p i : Nat) : (s.raise p i).lost = s.lost := rfl
@[simp] theorem State.raise_clk (s : State) (p i : Nat) : (s.raise p i).clk = s.clk := rfl
@[simp] theorem State.raise_tsc (s : State) (p i : Nat) : (s.raise p i).tsc = s.tsc := rfl
@[simp] theorem State.raise_tscRem (s : State) (p i : Nat) : (s.raise p i).tscRem = s.tscRem := rfl
@[simp] theorem State.raise_pwrClk (s : State) (p i : Nat) : (s.raise p i).pwrClk = s.pwrClk := rfl
@[simp] theorem State.raise_pwrTherm (s : State) (p i : Nat) : (s.raise p i).pwrTherm = s.pwrTherm := rfl
@[simp] theorem State.raise_pwrPower (s : State) (p i : Nat) : (s.raise p i).pwrPower = s.pwrPower := rfl
@[simp] theorem State.raise_dieSel (s : State) (p i : Nat) : (s.raise p i).dieSel = s.dieSel := rfl
@[simp] theorem State.raise_dieCnt (s : State) (p i : Nat) : (s.raise p i).dieCnt = s.dieCnt := rfl
@[simp] theorem State.raise_records (s : State) (p i : Nat) : (s.raise p i).records = s.records := rfl
@[simp] theorem State.raise_kiln (s : State) (p i : Nat) : (s.raise p i).kiln = s.kiln := rfl
@[simp] theorem State.raise_fab (s : State) (p i : Nat) : (s.raise p i).fab = s.fab := rfl
@[simp] theorem State.raise_parts (s : State) (p i : Nat) : (s.raise p i).parts = s.parts := rfl
@[simp] theorem State.raise_cores (s : State) (p i : Nat) : (s.raise p i).cores = s.cores := rfl
@[simp] theorem State.raise_kernels (s : State) (p i : Nat) : (s.raise p i).kernels = s.kernels := rfl
@[simp] theorem State.raise_blocks (s : State) (p i : Nat) : (s.raise p i).blocks = s.blocks := rfl
@[simp] theorem State.raise_warps (s : State) (p i : Nat) : (s.raise p i).warps = s.warps := rfl
@[simp] theorem State.raise_pend (s : State) (p i : Nat) : (s.raise p i).pend = s.pend := rfl
@[simp] theorem State.raise_hostOut (s : State) (p i : Nat) : (s.raise p i).hostOut = s.hostOut := rfl
@[simp] theorem State.raise_hostWait (s : State) (p i : Nat) : (s.raise p i).hostWait = s.hostWait := rfl
@[simp] theorem State.raise_draws (s : State) (p i : Nat) : (s.raise p i).draws = s.draws := rfl
@[simp] theorem State.raise_seq (s : State) (p i : Nat) : (s.raise p i).seq = s.seq := rfl
@[simp] theorem State.raise_agenda (s : State) (p i : Nat) : (s.raise p i).agenda = s.agenda := rfl
@[simp] theorem State.raise_port (s : State) (p i : Nat) : (s.raise p i).port = s.port := rfl
@[simp] theorem State.raise_act (s : State) (p i : Nat) : (s.raise p i).act = s.act := rfl
@[simp] theorem State.raise_owner (s : State) (p i : Nat) : (s.raise p i).owner = s.owner := rfl
@[simp] theorem State.raise_issued (s : State) (p i : Nat) : (s.raise p i).issued = s.issued := rfl

/-! ## Tables read after a change -/

theorem State.setWarp_get (s : State) (u n : Nat) (w : Warp) :
    (s.setWarp u w).warps.get? n = if n = u then some w else s.warps.get? n := Tab.get?_put _ _ _ _

theorem State.mapWarp_get (s : State) (u n : Nat) (f : Warp → Warp) :
    (s.mapWarp u f).warps.get? n = if n = u then (s.warps.get? n).map f else s.warps.get? n := by
  unfold State.mapWarp
  cases h : s.warps.get? u with
  | none => by_cases hn : n = u <;> simp [hn, h]
  | some w => by_cases hn : n = u <;> simp [State.setWarp_get, hn, h]

theorem State.mapBlock_get (s : State) (u n : Nat) (f : Block → Block) :
    (s.mapBlock u f).blocks.get? n = if n = u then (s.blocks.get? n).map f else s.blocks.get? n := by
  unfold State.mapBlock
  cases h : s.blocks.get? u with
  | none => by_cases hn : n = u <;> simp [hn, h]
  | some w => by_cases hn : n = u <;> simp [Tab.get?_put, hn, h]

theorem State.mapKernel_get (s : State) (u n : Nat) (f : Kernel → Kernel) :
    (s.mapKernel u f).kernels.get? n = if n = u then (s.kernels.get? n).map f else s.kernels.get? n := by
  unfold State.mapKernel
  cases h : s.kernels.get? u with
  | none => by_cases hn : n = u <;> simp [hn, h]
  | some w => by_cases hn : n = u <;> simp [Tab.get?_put, hn, h]

theorem State.mapPart_get (s : State) (u n : Nat) (f : Partition → Partition) :
    (s.mapPart u f).parts.get? n = if n = u then (s.parts.get? n).map f else s.parts.get? n := by
  unfold State.mapPart
  cases h : s.parts.get? u with
  | none => by_cases hn : n = u <;> simp [hn, h]
  | some w => by_cases hn : n = u <;> simp [Tab.get?_put, hn, h]

theorem State.mapCore_core (s : State) (u n : Nat) (f : Core → Core) :
    (s.mapCore u f).core n = if n = u then f (s.core n) else s.core n := by
  unfold State.mapCore State.core
  by_cases hn : n = u <;> simp [Tab.get?_put, hn]

end Sys2Proof.Machine
end

