-- ==== Sys2Proof/Laws/Regs.lean ====
section
/-! SUPPORT. Reading registers and predicates of one warp after writing them. -/

namespace Sys2Proof.Machine

/-! ## Rows and entries -/

theorem Row.lane_rowOfLanes (f : Nat → Half) {l : Nat} (h : l < 32) : Row.lane (rowOfLanes f) l = f l := by
  simp [Row.lane, rowOfLanes, laneList, List.getD, h]

theorem Row.lane_merge (old : Row) (m : Lanes) (f : Nat → Half) {l : Nat} (h : l < 32) :
    Row.lane (Row.merge old m f) l = if m.getLsbD l then f l else Row.lane old l := by
  rw [Row.merge, Row.lane_rowOfLanes _ h]

theorem Entry.lane_ofRow (r : Row) {l : Nat} (h : l < 32) : Entry.lane (some (Entry.ofRow r)) l = Row.lane r l := by
  unfold Entry.ofRow
  dsimp only
  have hl : l ∈ laneList := by simp [laneList, h]
  split
  · rename_i h1
    have := (List.all_eq_true.1 h1) l hl
    simp only [beq_iff_eq] at this
    simp [Entry.lane, this]
  · split
    · rename_i h1
      have := (List.all_eq_true.1 h1) l hl
      simp only [beq_iff_eq] at this
      rw [this]
      rfl
    · rfl

theorem Entry.lane_toRow (e : Option Entry) {l : Nat} (h : l < 32) : Row.lane (Entry.toRow e) l = Entry.lane e l :=
  Row.lane_rowOfLanes _ h

/-! ## One warp -/

/-- Lane `l` of a register of a warp, at its split `i`. -/
def Warp.reg (s : State) (w : Warp) (i : Nat) (r : Reg) (l : Nat) : Half :=
  (w.splits.get? i).elim 0 fun p => readReg s w p r l

theorem State.ident_congr {s t : State} {w w' : Warp} (hb : t.blocks = s.blocks) (hc : t.clk = s.clk)
    (h1 : w'.block = w.block) (h2 : w'.packed = w.packed) (h3 : w'.setId = w.setId) : t.ident w' = s.ident w := by
  simp [State.ident, hb, hc, h1, h2, h3]

/-- A register write seen by every register of the warp. -/
theorem Warp.reg_writeReg (s : State) (w : Warp) (i : Nat) (d : Reg) (m : Lanes) (f : Nat → Half) (x : Half) (r : Reg)
    {l : Nat} (h : l < 32) (hp : (w.splits.get? i).isSome) :
    (w.writeReg i d m f x).reg s i r l = if r = d then
      (match r with
        | .v _ | .bnd => if m.getLsbD l then f l else w.reg s i r l
        | .s _ | .kw => x
        | .fmt => fmtOf x
        | .fst => fstOf x
        | _ => w.reg s i r l) else w.reg s i r l := by
  obtain ⟨p, hp⟩ := Option.isSome_iff_exists.1 hp
  have hself : w.reg s i r l = readReg s w p r l := by rw [Warp.reg, hp]; rfl
  have hreg : ∀ w' : Warp, w'.splits = w.splits → w'.reg s i r l = readReg s w' p r l := fun w' e => by
    rw [Warp.reg, e, hp]; rfl
  have hput : ∀ p' : Split, (w.setSplit i p').reg s i r l = readReg s w p' r l := fun p' => by
    rw [Warp.reg, Warp.setSplit, Tab.get?_put_self]; cases r <;> rfl
  by_cases hrd : r = d
  · subst hrd
    rw [if_pos rfl]
    cases r with
    | v v =>
      unfold Warp.writeReg
      dsimp only
      by_cases hm : m = 0
      · rw [if_pos hm, hm]
        simp
      · rw [if_neg hm, hself]
        refine (hreg _ ?_).trans ?_
        · rfl
        show Entry.lane (Tab.get? (Tab.put _ _ _) _) l = _
        rw [Tab.get?_put_self, Entry.lane_ofRow _ h, Row.lane_merge _ _ _ h, Entry.lane_toRow _ h]
        rfl
    | s v =>
      unfold Warp.writeReg
      dsimp only
      refine (hreg _ ?_).trans ?_
      · rfl
      show Tab.num (Tab.setNum _ _ _) _ = _
      rw [Tab.num_setNum, if_pos rfl]
    | bnd =>
      unfold Warp.writeReg
      dsimp only
      try rw [hself]
      refine (hreg _ ?_).trans ?_
      · rfl
      exact Row.lane_merge _ _ _ h
    | kw =>
      unfold Warp.writeReg
      dsimp only
      refine (hreg _ ?_).trans ?_
      · rfl
      rfl
    | fmt =>
      unfold Warp.writeReg
      dsimp only
      rw [hp]
      exact hput _
    | fst =>
      unfold Warp.writeReg
      dsimp only
      rw [hp]
      exact hput _
    | _ => rfl
  · rw [if_neg hrd]
    cases d with
    | v v =>
      unfold Warp.writeReg
      dsimp only
      split
      · rfl
      · try rw [hself]
        refine (hreg _ ?_).trans ?_
        · rfl
        cases r with
        | v k =>
          show Entry.lane (Tab.get? (Tab.put _ _ _) _) l = _
          rw [Tab.get?_put_ne _ _ fun e => hrd (congrArg Reg.v (Fin.ext e))]
          rfl
        | _ => rfl
    | s v =>
      unfold Warp.writeReg
      dsimp only
      try rw [hself]
      refine (hreg _ ?_).trans ?_
      · rfl
      cases r with
      | s k =>
        show Tab.num (Tab.setNum _ _ _) _ = _
        rw [Tab.num_setNum, if_neg fun e => hrd (congrArg Reg.s (Fin.ext e))]
        rfl
      | _ => rfl
    | bnd =>
      unfold Warp.writeReg
      dsimp only
      try rw [hself]
      refine (hreg _ ?_).trans ?_
      · rfl
      cases r <;> first | rfl | exact absurd rfl hrd
    | kw =>
      unfold Warp.writeReg
      dsimp only
      try rw [hself]
      refine (hreg _ ?_).trans ?_
      · rfl
      cases r <;> first | rfl | exact absurd rfl hrd
    | fmt =>
      unfold Warp.writeReg
      dsimp only
      rw [hp]
      dsimp only
      rw [hself, hput]
      cases r <;> first | rfl | exact absurd rfl hrd
    | fst =>
      unfold Warp.writeReg
      dsimp only
      rw [hp]
      dsimp only
      rw [hself, hput]
      cases r <;> first | rfl | exact absurd rfl hrd
    | _ => rfl

/-- What a register write leaves of a warp. -/
theorem Warp.writeReg_same (w : Warp) (i : Nat) (d : Reg) (m : Lanes) (f : Nat → Half) (x : Half) :
    SameWarp w (w.writeReg i d m f x) ∧ (w.writeReg i d m f x).preds = w.preds
      ∧ (∀ n, n ≠ i → (w.writeReg i d m f x).splits.get? n = w.splits.get? n)
      ∧ (∀ p, w.splits.get? i = some p →
          ∃ p', (w.writeReg i d m f x).splits.get? i = some p' ∧ p' = { p with fmt := p'.fmt, fst := p'.fst }) := by
  cases d
  case v v =>
    unfold Warp.writeReg
    dsimp only
    split
    · exact ⟨rfl, rfl, fun _ _ => rfl, fun p hp => ⟨p, hp, rfl⟩⟩
    · exact ⟨rfl, rfl, fun _ _ => rfl, fun p hp => ⟨p, hp, rfl⟩⟩
  case fmt =>
    unfold Warp.writeReg
    dsimp only
    split
    · rename_i p hp
      refine ⟨rfl, rfl, fun n hn => Tab.get?_put_ne _ _ hn, fun q hq => ⟨_, Tab.get?_put_self _ _ _, ?_⟩⟩
      rw [hp] at hq; cases hq; rfl
    · exact ⟨rfl, rfl, fun _ _ => rfl, fun p hp => ⟨p, hp, rfl⟩⟩
  case fst =>
    unfold Warp.writeReg
    dsimp only
    split
    · rename_i p hp
      refine ⟨rfl, rfl, fun n hn => Tab.get?_put_ne _ _ hn, fun q hq => ⟨_, Tab.get?_put_self _ _ _, ?_⟩⟩
      rw [hp] at hq; cases hq; rfl
    · exact ⟨rfl, rfl, fun _ _ => rfl, fun p hp => ⟨p, hp, rfl⟩⟩
  all_goals exact ⟨rfl, rfl, fun _ _ => rfl, fun p hp => ⟨p, hp, rfl⟩⟩

/-- A predicate read after a predicate is written. -/
theorem Warp.pred_setPred (w : Warp) (d : Pred) (m b : Lanes) (p : Pred) :
    (w.setPred d m b).pred p = if p = d ∧ p ≠ 7 then (w.pred p &&& ~~~m) ||| (b &&& m) else w.pred p := by
  unfold Warp.setPred
  by_cases h7 : d = 7
  · simp only [h7, if_true]
    split
    · rename_i h; exact absurd h.1 h.2
    · rfl
  · simp only [h7, if_false]
    unfold Warp.pred
    dsimp only
    rw [Tab.num_setNum]
    by_cases hp : p = d
    · subst hp
      rw [if_neg h7, if_pos rfl, if_pos ⟨rfl, h7⟩, if_neg h7]
    · have : p.val ≠ d.val := fun e => hp (Fin.ext e)
      rw [if_neg this]
      rw [if_neg fun e : p = d ∧ p ≠ 7 => hp e.1]

theorem Warp.setPred_same (w : Warp) (d : Pred) (m b : Lanes) :
    SameWarp w (w.setPred d m b) ∧ (w.setPred d m b).splits = w.splits ∧ (w.setPred d m b).vregs = w.vregs
      ∧ ∀ s i r l, (w.setPred d m b).reg s i r l = w.reg s i r l := by
  unfold Warp.setPred
  split
  · exact ⟨rfl, rfl, rfl, fun _ _ _ _ => rfl⟩
  · refine ⟨rfl, rfl, rfl, fun s i r l => ?_⟩
    unfold Warp.reg
    dsimp only
    cases w.splits.get? i with
    | none => rfl
    | some p => cases r <;> rfl

theorem SameWarp.trans {a b c : Warp} (h : SameWarp a b) (h' : SameWarp b c) : SameWarp a c := by
  unfold SameWarp at *
  rw [h', h]

end Sys2Proof.Machine
end

