-- ==== Sys2Proof/Laws/Unit.lean ====
section
/-! SUPPORT. An issuing unit: changes made warp by warp, and what an instruction that computes registers and predicates
leaves. -/

namespace Sys2Proof.Machine

/-! ## A change made in the warp of each part -/

/-- `t` is `s` with `F x` applied to the warp of each part `x`. -/
def PartMap (ps : List UPart) (s t : State) (F : UPart → Warp → Warp) : Prop :=
  t = { s with warps := t.warps }
  ∧ (∀ n, (∀ x ∈ ps, x.uid ≠ n) → t.warps.get? n = s.warps.get? n)
  ∧ ∀ x ∈ ps, t.warps.get? x.uid = (s.warps.get? x.uid).map (F x)

theorem State.mapWarp_only (s : State) (u : Nat) (f : Warp → Warp) :
    s.mapWarp u f = { s with warps := (s.mapWarp u f).warps } := by
  unfold State.mapWarp; split <;> rfl

theorem PartMap.refl (ps : List UPart) (s : State) : PartMap ps s s fun _ w => w :=
  ⟨rfl, fun _ _ => rfl, fun x _ => by simp⟩

theorem PartMap.trans {ps : List UPart} {s t r : State} {F G : UPart → Warp → Warp} (h : PartMap ps s t F)
    (h' : PartMap ps t r G) : PartMap ps s r fun x w => G x (F x w) := by
  refine ⟨?_, fun n hn => (h'.2.1 n hn).trans (h.2.1 n hn), fun x hx => ?_⟩
  · rw [h'.1, h.1]
  · rw [h'.2.2 x hx, h.2.2 x hx, Option.map_map]; rfl

theorem PartMap.fold (F : UPart → Warp → Warp) (ps : List UPart) (hn : (ps.map UPart.uid).Nodup) (s : State) :
    PartMap ps s (ps.foldl (fun s x => s.mapWarp x.uid (F x)) s) F := by
  induction ps generalizing s with
  | nil => exact ⟨rfl, fun _ _ => rfl, fun x hx => by simp at hx⟩
  | cons y r ih =>
    simp only [List.map_cons, List.nodup_cons, List.mem_map, not_exists, not_and] at hn
    obtain ⟨h1, h2, h3⟩ := ih hn.2 (s.mapWarp y.uid (F y))
    rw [List.foldl_cons]
    refine ⟨?_, fun n hx => ?_, fun x hx => ?_⟩
    · rw [h1, State.mapWarp_only s]
    · rw [h2 n fun x hx' => hx x (List.mem_cons_of_mem _ hx'), State.mapWarp_get,
        if_neg fun e => hx y (by simp) e.symm]
    · simp only [List.mem_cons] at hx
      rcases hx with rfl | hx
      · rw [h2 _ fun z hz e => hn.1 z hz e, State.mapWarp_get, if_pos rfl]
      · rw [h3 x hx, State.mapWarp_get, if_neg fun e => hn.1 x hx e]

theorem PartMap.congr {ps : List UPart} {s t : State} {F G : UPart → Warp → Warp} (h : PartMap ps s t F)
    (he : ∀ x ∈ ps, ∀ w, F x w = G x w) : PartMap ps s t G :=
  ⟨h.1, h.2.1, fun x hx => by rw [h.2.2 x hx]; cases s.warps.get? x.uid <;> simp [he x hx]⟩

/-! ## The changes an instruction makes -/

/-- A register result in one warp. -/
def RegResult.inWarp (u : IssueUnit) (r : RegResult) (x : UPart) (w : Warp) : Warp :=
  match u.lead with
  | none => w
  | some y => w.writeReg x.idx r.1 x.act (r.2 x) (r.2 y.1 y.2)

theorem IssueUnit.write_parts (u : IssueUnit) (s : State) (r : RegResult) (hn : (u.parts.map UPart.uid).Nodup) :
    PartMap u.parts s (u.write s r.1 r.2) (r.inWarp u) := by
  unfold IssueUnit.write
  cases h : u.lead with
  | none => exact (PartMap.refl _ _).congr fun x _ w => by simp [RegResult.inWarp, h]
  | some y => exact (PartMap.fold _ _ hn _).congr fun x _ w => by simp [RegResult.inWarp, h]

/-- A predicate result in one warp. -/
def PredResult.inWarp (r : PredResult) (x : UPart) (w : Warp) : Warp := w.setPred r.1 x.act (lanesWhere (r.2 x))

theorem IssueUnit.writePred_parts (u : IssueUnit) (s : State) (r : PredResult) (hn : (u.parts.map UPart.uid).Nodup) :
    PartMap u.parts s (u.writePred s r.1 r.2) r.inWarp := PartMap.fold _ _ hn _

/-- A change of the split of a part. -/
def splitInWarp (f : Split → Split) (x : UPart) (w : Warp) : Warp :=
  match w.splits.get? x.idx with
  | some p => w.setSplit x.idx (f p)
  | none => w

/-- fst bits set in the split of a part. -/
def bitsInWarp (bits : Half) (x : UPart) (w : Warp) : Warp :=
  if bits = 0 then w else splitInWarp (fun p => { p with fst := p.fst ||| fstOf bits }) x w

theorem orFst_parts (ps : List UPart) (s : State) (bits : Half) (hn : (ps.map UPart.uid).Nodup) :
    PartMap ps s (orFst s ps bits) (bitsInWarp bits) := by
  unfold orFst bitsInWarp
  by_cases h : bits = 0
  · simp only [if_pos h]; exact PartMap.refl _ _
  · simp only [if_neg h]; exact PartMap.fold _ _ hn _

theorem advanceAll_parts (ps : List UPart) (s : State) (hn : (ps.map UPart.uid).Nodup) :
    PartMap ps s (advanceAll s ps) (splitInWarp Split.advance) := PartMap.fold _ _ hn _

/-- All results of an instruction. -/
def IssueUnit.results (u : IssueUnit) (s : State) (ws : List RegResult) (ps : List PredResult) (bits : Half) : State :=
  orFst (ps.foldl (fun s r => u.writePred s r.1 r.2) (ws.foldl (fun s r => u.write s r.1 r.2) s)) u.parts bits

theorem PartMap.foldl {α : Type} {ps : List UPart} (f : State → α → State) (F : α → UPart → Warp → Warp)
    (h : ∀ s a, PartMap ps s (f s a) (F a)) (l : List α) (s : State) :
    PartMap ps s (l.foldl f s) fun x w => l.foldl (fun w a => F a x w) w := by
  induction l generalizing s with
  | nil => exact PartMap.refl _ _
  | cons a r ih => exact (h s a).trans (ih _)

/-! ## What the warp of a part holds after the results -/

/-- A warp after the results of its part. -/
def inWarp (u : IssueUnit) (ws : List RegResult) (ps : List PredResult) (bits : Half) (x : UPart) (w : Warp) : Warp :=
  bitsInWarp bits x (ps.foldl (fun w r => PredResult.inWarp r x w) (ws.foldl (fun w r => RegResult.inWarp u r x w) w))

theorem IssueUnit.results_parts (u : IssueUnit) (s : State) (ws : List RegResult) (ps : List PredResult) (bits : Half)
    (hn : (u.parts.map UPart.uid).Nodup) : PartMap u.parts s (u.results s ws ps bits) (inWarp u ws ps bits) :=
  ((PartMap.foldl _ _ (fun s r => u.write_parts s r hn) ws s).trans
    (PartMap.foldl _ _ (fun s r => u.writePred_parts s r hn) ps _)).trans (orFst_parts u.parts _ bits hn)

/-- What stays of a warp and of its split, whatever results it has taken. -/
def Stays (i : Nat) (w w' : Warp) : Prop :=
  SameWarp w w' ∧ (∀ n, n ≠ i → w'.splits.get? n = w.splits.get? n)
    ∧ ∀ p, w.splits.get? i = some p → ∃ p', w'.splits.get? i = some p' ∧ p' = { p with fmt := p'.fmt, fst := p'.fst }

theorem Stays.refl (i : Nat) (w : Warp) : Stays i w w := ⟨rfl, fun _ _ => rfl, fun p hp => ⟨p, hp, rfl⟩⟩

theorem Stays.trans {i : Nat} {a b c : Warp} (h : Stays i a b) (h' : Stays i b c) : Stays i a c := by
  refine ⟨h.1.trans h'.1, fun n hn => (h'.2.1 n hn).trans (h.2.1 n hn), fun p hp => ?_⟩
  obtain ⟨q, hq, e⟩ := h.2.2 p hp
  obtain ⟨r, hr, e'⟩ := h'.2.2 q hq
  exact ⟨r, hr, by rw [e', e]⟩

theorem Stays.reg (u : IssueUnit) (r : RegResult) (x : UPart) (w : Warp) : Stays x.idx w (RegResult.inWarp u r x w) := by
  unfold RegResult.inWarp
  split
  · exact Stays.refl _ _
  · have h := w.writeReg_same x.idx r.1 x.act (r.2 x) (r.2 (by assumption : UPart × Nat).1 (by assumption : UPart × Nat).2)
    exact ⟨h.1, h.2.2.1, h.2.2.2⟩

theorem Stays.pred (r : PredResult) (x : UPart) (w : Warp) : Stays x.idx w (PredResult.inWarp r x w) := by
  have h := w.setPred_same r.1 x.act (lanesWhere (r.2 x))
  exact ⟨h.1, fun n _ => by rw [PredResult.inWarp, h.2.1], fun p hp => ⟨p, by rw [PredResult.inWarp, h.2.1]; exact hp, rfl⟩⟩

theorem Stays.split (f : Split → Split) (x : UPart) (w : Warp) (hf : ∀ p, f p = { p with fmt := (f p).fmt, fst := (f p).fst }) :
    Stays x.idx w (splitInWarp f x w) := by
  unfold splitInWarp
  cases h : w.splits.get? x.idx with
  | none => exact Stays.refl _ _
  | some p =>
    refine ⟨rfl, fun n hn => Tab.get?_put_ne _ _ hn, fun q hq => ⟨_, Tab.get?_put_self _ _ _, ?_⟩⟩
    rw [h] at hq; cases hq; exact hf p

theorem Stays.bits (b : Half) (x : UPart) (w : Warp) : Stays x.idx w (bitsInWarp b x w) := by
  unfold bitsInWarp
  split
  · exact Stays.refl _ _
  · exact Stays.split _ _ _ fun _ => rfl

theorem foldl_stays {α : Type} (i : Nat) (F : α → Warp → Warp) (h : ∀ a w, Stays i w (F a w)) (l : List α) (w : Warp) :
    Stays i w (l.foldl (fun w a => F a w) w) := by
  induction l generalizing w with
  | nil => exact Stays.refl _ _
  | cons a r ih => exact (h a w).trans (ih _)

theorem inWarp_stays (u : IssueUnit) (ws : List RegResult) (ps : List PredResult) (bits : Half) (x : UPart) (w : Warp) :
    Stays x.idx w (inWarp u ws ps bits x w) := by
  have h1 := foldl_stays x.idx (fun r => RegResult.inWarp u r x) (fun r w => Stays.reg u r x w) ws w
  have h2 := foldl_stays x.idx (fun r => PredResult.inWarp r x) (fun r w => Stays.pred r x w) ps
    (ws.foldl (fun w r => RegResult.inWarp u r x w) w)
  exact (h1.trans h2).trans (Stays.bits _ _ _)

/-- Registers of a warp after one result. -/
theorem RegResult.reg_inWarp (u : IssueUnit) (s : State) (r : RegResult) (x : UPart) (w : Warp) (q : Reg) {l : Nat}
    (hl : l < 32) (hp : (w.splits.get? x.idx).isSome) :
    (RegResult.inWarp u r x w).reg s x.idx q l = u.put x q l (w.reg s x.idx q l) r := by
  unfold RegResult.inWarp IssueUnit.put
  cases h : u.lead with
  | none => simp
  | some y =>
    dsimp only
    rw [Warp.reg_writeReg _ _ _ _ _ _ _ _ hl hp] <;> cases q <;> rfl

theorem regs_inWarp (u : IssueUnit) (s : State) (ws : List RegResult) (x : UPart) (w : Warp) (q : Reg) {l : Nat}
    (hl : l < 32) (hp : (w.splits.get? x.idx).isSome) :
    (ws.foldl (fun w r => RegResult.inWarp u r x w) w).reg s x.idx q l = ws.foldl (u.put x q l) (w.reg s x.idx q l) := by
  induction ws generalizing w with
  | nil => rfl
  | cons r rest ih =>
    rw [List.foldl_cons, List.foldl_cons, ih, RegResult.reg_inWarp u s r x w q hl hp]
    obtain ⟨p, hp⟩ := Option.isSome_iff_exists.1 hp
    obtain ⟨p', hp', -⟩ := (Stays.reg u r x w).2.2 p hp
    rw [hp']; rfl

theorem preds_inWarp_reg (s : State) (ps : List PredResult) (x : UPart) (w : Warp) (i : Nat) (q : Reg) (l : Nat) :
    (ps.foldl (fun w r => PredResult.inWarp r x w) w).reg s i q l = w.reg s i q l := by
  induction ps generalizing w with
  | nil => rfl
  | cons r rest ih => rw [List.foldl_cons, ih, PredResult.inWarp, (w.setPred_same _ _ _).2.2.2]

theorem regResult_preds (u : IssueUnit) (ws : List RegResult) (x : UPart) (w : Warp) :
    (ws.foldl (fun w r => RegResult.inWarp u r x w) w).preds = w.preds := by
  induction ws generalizing w with
  | nil => rfl
  | cons r rest ih =>
    rw [List.foldl_cons, ih]
    unfold RegResult.inWarp
    split
    · rfl
    · exact (w.writeReg_same _ _ _ _ _).2.1

theorem Warp.pred_congr {w w' : Warp} (h : w'.preds = w.preds) (p : Pred) : w'.pred p = w.pred p := by
  unfold Warp.pred; rw [h]

theorem preds_inWarp (ps : List PredResult) (x : UPart) (w : Warp) (p : Pred) :
    (ps.foldl (fun w r => PredResult.inWarp r x w) w).pred p
      = ps.foldl (fun old r => if p = r.1 ∧ p ≠ 7 then (old &&& ~~~x.act) ||| (lanesWhere (r.2 x) &&& x.act) else old)
        (w.pred p) := by
  induction ps generalizing w with
  | nil => rfl
  | cons r rest ih => rw [List.foldl_cons, List.foldl_cons, ih, PredResult.inWarp, Warp.pred_setPred]

/-- Registers of a warp after fst bits have been set in its split. -/
theorem reg_bits (s : State) (b : Half) (x : UPart) (w : Warp) (q : Reg) (l : Nat) (hp : (w.splits.get? x.idx).isSome) :
    (bitsInWarp b x w).reg s x.idx q l = w.reg s x.idx q l ||| (if q = .fst then fstOf b else 0) := by
  unfold bitsInWarp
  split
  · rename_i h
    subst h
    split <;> exact (BitVec.or_zero).symm
  · obtain ⟨p, hp⟩ := Option.isSome_iff_exists.1 hp
    unfold splitInWarp Warp.reg
    rw [hp]
    dsimp only
    rw [Warp.setSplit, Tab.get?_put_self]
    cases q <;> first | exact (BitVec.or_zero).symm | rfl

theorem splitInWarp_preds (f : Split → Split) (x : UPart) (w : Warp) : (splitInWarp f x w).preds = w.preds := by
  unfold splitInWarp; split <;> rfl

theorem bitsInWarp_preds (b : Half) (x : UPart) (w : Warp) : (bitsInWarp b x w).preds = w.preds := by
  unfold bitsInWarp; split
  · rfl
  · exact splitInWarp_preds _ _ _

/-- Registers of a warp after all results of its part. -/
theorem inWarp_reg (u : IssueUnit) (s : State) (ws : List RegResult) (ps : List PredResult) (bits : Half) (x : UPart)
    (w : Warp) (r : Reg) {l : Nat} (hl : l < 32) (hp : (w.splits.get? x.idx).isSome) :
    (inWarp u ws ps bits x w).reg s x.idx r l
      = ws.foldl (u.put x r l) (w.reg s x.idx r l) ||| (if r = .fst then fstOf bits else 0) := by
  unfold inWarp
  obtain ⟨p, hp'⟩ := Option.isSome_iff_exists.1 hp
  have hs := (foldl_stays x.idx (fun r => RegResult.inWarp u r x) (fun r w => Stays.reg u r x w) ws w).trans
    (foldl_stays x.idx (fun r => PredResult.inWarp r x) (fun r w => Stays.pred r x w) ps _)
  obtain ⟨q, hq, -⟩ := hs.2.2 p hp'
  rw [reg_bits _ _ _ _ _ _ (by rw [hq]; rfl), preds_inWarp_reg, regs_inWarp u s ws x w r hl hp]

/-- Predicates of a warp after all results of its part. -/
theorem inWarp_pred (u : IssueUnit) (ws : List RegResult) (ps : List PredResult) (bits : Half) (x : UPart) (w : Warp)
    (p : Pred) :
    (inWarp u ws ps bits x w).pred p
      = ps.foldl (fun old r => if p = r.1 ∧ p ≠ 7 then (old &&& ~~~x.act) ||| (lanesWhere (r.2 x) &&& x.act) else old)
        (w.pred p) := by
  unfold inWarp
  rw [Warp.pred_congr (bitsInWarp_preds _ _ _), preds_inWarp, Warp.pred_congr (regResult_preds u ws x w)]

theorem reg_advance (s : State) (x : UPart) (w : Warp) (q : Reg) (l : Nat) :
    (splitInWarp Split.advance x w).reg s x.idx q l = w.reg s x.idx q l := by
  unfold splitInWarp Warp.reg
  cases h : w.splits.get? x.idx with
  | none => simp [h]
  | some p =>
    dsimp only
    rw [Warp.setSplit, Tab.get?_put_self]
    simp only [Option.elim]
    have e : p.advance.fmt = p.fmt ∧ p.advance.fst = p.fst ∧ p.advance.header = p.header := by
      unfold Split.advance; split <;> exact ⟨rfl, rfl, rfl⟩
    cases q <;> first | rfl | exact e.1 | exact e.2.1 | (show Split.lit _ = Split.lit _; rw [Split.lit, e.2.2]; rfl)

end Sys2Proof.Machine
end

