-- ==== Sys2Proof/Laws/Issue.lean ====
section
/-! SUPPORT. What issuing a word does: the unit it issues as, and the state an instruction that computes registers and
predicates leaves. -/

namespace Sys2Proof.Machine

/-! ## Parts of a unit -/

theorem distinctParts_sub (ps : List UPart) : ∀ x ∈ distinctParts ps, x ∈ ps := by
  induction ps with
  | nil => simp [distinctParts]
  | cons y r ih =>
    intro x hx
    simp only [distinctParts, List.mem_cons, List.mem_filter] at hx ⊢
    rcases hx with h | ⟨h, -⟩
    · exact Or.inl h
    · exact Or.inr (ih x h)

theorem distinctParts_nodup (ps : List UPart) : ((distinctParts ps).map UPart.uid).Nodup := by
  induction ps with
  | nil => simp [distinctParts]
  | cons y r ih =>
    simp only [distinctParts, List.map_cons, List.nodup_cons, List.mem_map, List.mem_filter, not_exists, not_and]
    refine ⟨?_, ?_⟩
    · rintro x ⟨-, h⟩ e
      simp [e] at h
    · exact ih.sublist (List.Sublist.map _ List.filter_sublist)

theorem filterMap_uid_nodup {f : UPart → Option UPart} (hf : ∀ x y, f x = some y → y.uid = x.uid) (ps : List UPart)
    (h : (ps.map UPart.uid).Nodup) : ((ps.filterMap f).map UPart.uid).Nodup := by
  induction ps with
  | nil => simp
  | cons y r ih =>
    simp only [List.map_cons, List.nodup_cons, List.mem_map, not_exists, not_and] at h
    rw [List.filterMap_cons]
    split
    · exact ih h.2
    · rename_i z hz
      simp only [List.map_cons, List.nodup_cons, List.mem_map, List.mem_filterMap, not_exists, not_and]
      refine ⟨?_, ih h.2⟩
      rintro x ⟨v, hv, hx⟩ e
      rw [hf v x hx, hf y z hz] at e
      exact h.1 v hv e

theorem liveParts_nodup (s : State) (h : Head) (ps : List UPart) : ((liveParts s h ps).map UPart.uid).Nodup := by
  refine filterMap_uid_nodup ?_ _ (distinctParts_nodup ps)
  intro x y hy
  simp only [Option.bind_eq_some_iff] at hy
  obtain ⟨w, -, p, -, hy⟩ := hy
  split at hy
  · cases hy
  · cases hy; rfl

/-- A live part names a warp and one of its splits, and its live lanes are lanes of that split. -/
theorem liveParts_mem {s : State} {h : Head} {ps : List UPart} {x : UPart} (hx : x ∈ liveParts s h ps) :
    ∃ w p, s.warps.get? x.uid = some w ∧ w.splits.get? x.idx = some p ∧ x.live ≠ 0 ∧ x.live &&& p.mask = x.live
      ∧ x.act = x.live &&& w.guard h.guard h.neg := by
  simp only [liveParts, List.mem_filterMap, Option.bind_eq_some_iff] at hx
  obtain ⟨y, -, w, hw, p, hp, hx⟩ := hx
  split at hx
  · cases hx
  · rename_i hne
    cases hx
    refine ⟨w, p, hw, hp, hne, ?_, rfl⟩
    dsimp only
    rw [BitVec.and_assoc, BitVec.and_self]

/-! ## The unit a word issues as -/

/-- What `issues` says: the instruction's effect is applied to that unit in that state. -/
theorem issues_spec {s s1 : State} {i : Instr} {u : IssueUnit} (hi : s.issues i = some (s1, u)) :
    ∃ h, i.head = some h
      ∧ (∀ eff, issue i h eff s = .next (settleEffect s1 u i (eff u s1 (useSources u h i s1))))
      ∧ (u.parts.map UPart.uid).Nodup
      ∧ (∀ x ∈ u.parts, ∃ w p, s1.warps.get? x.uid = some w ∧ w.splits.get? x.idx = some p ∧ x.live ≠ 0
          ∧ x.live &&& p.mask = x.live ∧ x.act = x.live &&& w.guard h.guard h.neg)
      ∧ u.scope = h.scope ∧ u.opcode = i.opcode := by
  unfold State.issues at hi
  simp only [Option.bind_eq_some_iff] at hi
  obtain ⟨h, hh, w, hw, p, hp, hi⟩ := hi
  refine ⟨h, hh, ?_⟩
  split at hi
  · cases hi
  · rename_i hd
    have hd : dynamicCheck i h w p = none := by simpa using hd
    cases hm : rendezvous s s.act.1 s.act.2 w p h with
    | waits t => rw [hm] at hi; cases hi
    | meets s0 parts =>
      rw [hm] at hi
      dsimp only at hi
      cases hl : liveParts (checkParts s0 parts) h parts with
      | nil => rw [hl] at hi; cases hi
      | cons y r =>
        rw [hl] at hi
        dsimp only at hi
        split at hi
        · cases hi
        · rename_i hg
          cases hi
          refine ⟨fun eff => ?_, ?_, fun x hx => ?_, rfl, rfl⟩
          · unfold issue
            rw [hw]
            dsimp only
            rw [hp]
            dsimp only
            rw [hd]
            dsimp only
            rw [hm]
            dsimp only
            rw [hl]
            dsimp only
            congr 2
            simp only [State.mustWait, Bool.or_eq_true, not_or] at hg
            unfold gated
            rw [if_neg hg.1, if_neg hg.2]
          · have := liveParts_nodup (checkParts s0 parts) h parts
            rw [hl] at this
            exact this
          · exact liveParts_mem (by rw [hl]; exact hx)

/-! ## Rows -/

theorem filter_length_le_of_imp {α : Type} [DecidableEq α] (l : List α) (hl : l.Nodup) (p q : α → Bool) (a : α)
    (h : ∀ x, x ≠ a → p x = q x) :
    (l.filter p).length ≤ (l.filter q).length + (if p a ∧ ¬ q a then 1 else 0) := by
  induction l with
  | nil => simp
  | cons x r ih =>
    simp only [List.nodup_cons] at hl
    by_cases hx : x = a
    · subst hx
      have hr : r.filter p = r.filter q := List.filter_congr fun y hy => h y fun e => hl.1 (e ▸ hy)
      by_cases h1 : p x = true <;> by_cases h2 : q x = true <;> simp [h1, h2, hr]
    · have := ih hl.2
      have hx' := h x hx
      rw [List.filter_cons, List.filter_cons, hx']
      split
      · rw [List.length_cons, List.length_cons]; omega
      · exact this

/-- Changing what is counted for one vector register changes the rows by at most one. -/
theorem Warp.rowsMapped_le {w w' : Warp} (n : Nat) (h : ∀ v, v ≠ n → w'.counts v = w.counts v) :
    w'.rowsMapped ≤ w.rowsMapped + (if w'.counts n ∧ ¬ w.counts n then 1 else 0) :=
  filter_length_le_of_imp (List.range 192) List.nodup_range _ _ n h

theorem Warp.newRows_cons (w : Warp) (r : RegResult) (ws : List RegResult) :
    w.newRows (r :: ws) = (match r.1 with
      | .v i => if w.counts i.val then 0 else 1
      | _ => 0) + w.newRows ws := by
  unfold Warp.newRows
  rw [List.filter_cons]
  cases r.1 with
  | v i =>
    dsimp only
    by_cases hm : w.counts i.val = true
    · simp [hm]
    · simp [hm, Nat.add_comm]
  | _ => simp

/-! Rows after results are counted through the set of vector registers that hold a row in neither warp. -/

theorem Warp.writeReg_vregs (w : Warp) (i : Nat) (d : Reg) (m : Lanes) (f : Nat → Half) (x : Half) :
    (w.writeReg i d m f x).pending = w.pending
      ∧ ((w.writeReg i d m f x).vregs = w.vregs
        ∨ ∃ v e, d = .v v ∧ (w.writeReg i d m f x).vregs = w.vregs.put v.val e) := by
  cases d with
  | v v =>
    unfold Warp.writeReg
    dsimp only
    split
    · exact ⟨rfl, Or.inl rfl⟩
    · exact ⟨rfl, Or.inr ⟨v, _, rfl, rfl⟩⟩
  | fmt =>
    unfold Warp.writeReg
    dsimp only
    split <;> exact ⟨rfl, Or.inl rfl⟩
  | fst =>
    unfold Warp.writeReg
    dsimp only
    split <;> exact ⟨rfl, Or.inl rfl⟩
  | _ => exact ⟨rfl, Or.inl rfl⟩

/-- The vector registers among some results. -/
def vectorsOf (ws : List RegResult) : List Nat := ws.filterMap fun r => match r.1 with
  | .v i => some i.val
  | _ => none

theorem Warp.rowsMapped_congr {w w' : Warp} (h : w'.vregs = w.vregs) (h' : w'.pending = w.pending) :
    w'.rowsMapped = w.rowsMapped := by unfold Warp.rowsMapped Warp.counts; rw [h, h']

theorem Warp.newRows_congr {w w' : Warp} (ws : List RegResult)
    (h : ∀ v ∈ vectorsOf ws, w'.counts v = w.counts v) : w'.newRows ws = w.newRows ws := by
  induction ws with
  | nil => rfl
  | cons r rest ih =>
    rw [Warp.newRows_cons, Warp.newRows_cons]
    have hr : ∀ v ∈ vectorsOf rest, v ∈ vectorsOf (r :: rest) := by
      intro v hv
      simp only [vectorsOf, List.mem_filterMap] at hv ⊢
      obtain ⟨a, ha, e⟩ := hv
      exact ⟨a, List.mem_cons_of_mem _ ha, e⟩
    rw [ih fun v hv => h v (hr v hv)]
    congr 1
    cases hd : r.1 with
    | v i =>
      dsimp only
      rw [h i.val (by simp only [vectorsOf, List.mem_filterMap]; exact ⟨r, by simp, by rw [hd]⟩)]
    | _ => rfl

/-- The rows a warp maps after register results: at most those before and those of registers that held none. -/
theorem rowsMapped_results (u : IssueUnit) (ws : List RegResult) (x : UPart) (w : Warp) (hv : (vectorsOf ws).Nodup) :
    (ws.foldl (fun w r => RegResult.inWarp u r x w) w).rowsMapped ≤ w.rowsMapped + w.newRows ws := by
  induction ws generalizing w with
  | nil => simp [Warp.newRows]
  | cons r rest ih =>
    rw [List.foldl_cons]
    have hrest : (vectorsOf rest).Nodup := by
      unfold vectorsOf at hv ⊢
      rw [List.filterMap_cons] at hv
      split at hv
      · exact hv
      · exact (List.nodup_cons.1 hv).2
    refine (ih _ hrest).trans ?_
    rw [Warp.newRows_cons]
    unfold RegResult.inWarp
    cases hl : u.lead with
    | none => dsimp only; omega
    | some y =>
      dsimp only
      obtain ⟨hp, h | ⟨v, e, hd, h⟩⟩ := w.writeReg_vregs x.idx r.1 x.act (r.2 x) (r.2 y.1 y.2)
      · have h3 : (w.writeReg x.idx r.1 x.act (r.2 x) (r.2 y.1 y.2)).newRows rest = w.newRows rest :=
          Warp.newRows_congr rest fun v _ => by rw [Warp.counts, h, hp]; rfl
        rw [Warp.rowsMapped_congr h hp, h3]
        omega
      · have h1 := Warp.rowsMapped_le (w := w) (w' := w.writeReg x.idx r.1 x.act (r.2 x) (r.2 y.1 y.2)) v.val
          fun k hk => by rw [Warp.counts, h, hp, Tab.get?_put_ne _ _ hk]; rfl
        have h3 : (w.writeReg x.idx r.1 x.act (r.2 x) (r.2 y.1 y.2)).newRows rest = w.newRows rest := by
          refine Warp.newRows_congr rest fun k hk => ?_
          have : k ≠ v.val := by
            rintro rfl
            simp only [vectorsOf, List.filterMap_cons, hd, List.nodup_cons] at hv
            exact hv.1 hk
          rw [Warp.counts, h, hp, Tab.get?_put_ne _ _ this]
          rfl
        rw [h3]
        have h4 : (match r.1 with
            | .v i => if w.counts i.val then 0 else 1
            | _ => 0) = if w.counts v.val then 0 else 1 := by rw [hd]
        rw [h4]
        have h5 : ∀ b c : Bool, (if b = true ∧ ¬ c = true then 1 else 0) ≤ (if c = true then 0 else 1) := by decide
        have h6 := h5 ((w.writeReg x.idx r.1 x.act (r.2 x) (r.2 y.1 y.2)).counts v.val) (w.counts v.val)
        omega

theorem preds_inWarp_rows (ps : List PredResult) (x : UPart) (w : Warp) :
    (ps.foldl (fun w r => PredResult.inWarp r x w) w).rowsMapped = w.rowsMapped := by
  induction ps generalizing w with
  | nil => rfl
  | cons r rest ih =>
    rw [List.foldl_cons, ih]
    unfold PredResult.inWarp Warp.setPred
    split <;> rfl

theorem splitInWarp_rows (f : Split → Split) (x : UPart) (w : Warp) : (splitInWarp f x w).rowsMapped = w.rowsMapped := by
  unfold splitInWarp
  split <;> rfl

theorem inWarp_rows (u : IssueUnit) (ws : List RegResult) (ps : List PredResult) (bits : Half) (x : UPart) (w : Warp)
    (hv : (vectorsOf ws).Nodup) : (inWarp u ws ps bits x w).rowsMapped ≤ w.rowsMapped + w.newRows ws := by
  have h : ∀ w, (bitsInWarp bits x w).rowsMapped = w.rowsMapped := fun w => by
    unfold bitsInWarp; split
    · rfl
    · exact splitInWarp_rows _ _ _
  unfold inWarp
  rw [h, preds_inWarp_rows]
  exact rowsMapped_results u ws x w hv

/-- Emptied entries and the rows their registers may take again. -/
theorem rows_emptied_one (w : Warp) (n : Nat) (ws : List RegResult) (hv : (vectorsOf ws).Nodup) :
    (w.emptyV n).rowsMapped + (w.emptyV n).newRows ws ≤ w.rowsMapped + w.newRows ws
      ∧ (w.emptyV n).rowsMapped ≤ w.rowsMapped := by
  have hc : ∀ v, v ≠ n → (w.emptyV n).counts v = w.counts v := fun v hvn => by
    simp [Warp.counts, Warp.emptyV, Tab.get?_del, hvn]
  have h1 := Warp.rowsMapped_le (w := w) n hc
  have h2 := Warp.rowsMapped_le (w := w.emptyV n) (w' := w) n fun v hv => (hc v hv).symm
  have himp : (w.emptyV n).counts n = true → w.counts n = true := by
    simp only [Warp.counts, Warp.emptyV, Tab.get?_del, if_true, Option.elim, Bool.false_or, Bool.or_eq_true]
    exact Or.inr
  by_cases hn : n < 192
  · have h3 : (w.emptyV n).newRows ws ≤ w.newRows ws + (if w.counts n ∧ ¬ (w.emptyV n).counts n then 1 else 0) := by
      clear h1 h2
      induction ws with
      | nil => simp [Warp.newRows]
      | cons r rest ih =>
        have hrest : (vectorsOf rest).Nodup := by
          unfold vectorsOf at hv ⊢
          rw [List.filterMap_cons] at hv
          split at hv
          · exact hv
          · exact (List.nodup_cons.1 hv).2
        have ih := ih hrest
        rw [Warp.newRows_cons, Warp.newRows_cons]
        cases hd : r.1 with
        | v i =>
          dsimp only
          by_cases hi : i.val = n
          · have hnot : ∀ v ∈ vectorsOf rest, (w.emptyV n).counts v = w.counts v := by
              intro v hv'
              refine hc v ?_
              rintro rfl
              simp only [vectorsOf, List.filterMap_cons, hd, List.nodup_cons, hi] at hv
              exact hv.1 hv'
            rw [Warp.newRows_congr rest hnot, hi]
            by_cases a : w.counts n = true <;> by_cases b : (w.emptyV n).counts n = true <;> simp [a, b]
            all_goals omega
          · rw [hc _ hi]; omega
        | _ => dsimp only; omega
    have h4 : w.counts n = true → (w.emptyV n).counts n = false → (w.emptyV n).rowsMapped + 1 ≤ w.rowsMapped := by
      intro a b
      have he : (w.emptyV n).rowsMapped
          = (((List.range 192).filter fun v => w.counts v).filter fun v => (w.emptyV n).counts v).length := by
        unfold Warp.rowsMapped
        rw [List.filter_filter]
        congr 1
        refine List.filter_congr fun v _ => ?_
        by_cases hvn : v = n
        · subst hvn; simp [b]
        · rw [hc v hvn]; simp
      rw [he]
      exact List.length_filter_lt_length_iff_exists.2 ⟨n, by simp [hn, a], by simp [b]⟩
    by_cases a : w.counts n = true <;> by_cases b : (w.emptyV n).counts n = true
    · simp [a, b] at h1 h3; omega
    · have := h4 a (by simpa using b)
      simp [a, b] at h1 h3; omega
    · exact absurd (himp b) a
    · simp [a, b] at h1 h3; omega
  · have hlt : ∀ v ∈ vectorsOf ws, v ≠ n := by
      intro v hv' e
      simp only [vectorsOf, List.mem_filterMap] at hv'
      obtain ⟨r, -, hr⟩ := hv'
      split at hr
      · rename_i i _
        cases hr
        omega
      · cases hr
    have h3 : (w.emptyV n).rowsMapped = w.rowsMapped := by
      unfold Warp.rowsMapped
      congr 1
      refine List.filter_congr fun v hv => hc v ?_
      rw [List.mem_range] at hv
      omega
    rw [Warp.newRows_congr ws fun v hv => hc v (hlt v hv), h3]
    exact ⟨le_refl _, le_refl _⟩

theorem rows_emptied (vs : List Nat) (ws : List RegResult) (w : Warp) (hv : (vectorsOf ws).Nodup) :
    (vs.foldl Warp.emptyV w).rowsMapped + (vs.foldl Warp.emptyV w).newRows ws ≤ w.rowsMapped + w.newRows ws
      ∧ (vs.foldl Warp.emptyV w).rowsMapped ≤ w.rowsMapped := by
  induction vs generalizing w with
  | nil => exact ⟨le_refl _, le_refl _⟩
  | cons n r ih =>
    rw [List.foldl_cons]
    have h1 := ih (w.emptyV n)
    have h2 := rows_emptied_one w n ws hv
    constructor <;> omega

/-! ## Last-use bits -/

theorem Stays.empty (vs : List Nat) (w : Warp) :
    SameWarp w (vs.foldl Warp.emptyV w) ∧ (vs.foldl Warp.emptyV w).splits = w.splits := by
  induction vs generalizing w with
  | nil => exact ⟨rfl, rfl⟩
  | cons n r ih =>
    have h := ih (w.emptyV n)
    exact ⟨SameWarp.trans (b := w.emptyV n) (by rfl) h.1, h.2⟩

/-- The change last-use bits make in the warp of each part. -/
theorem lastUse_parts (u : IssueUnit) (h : Head) (i : Instr) (s : State) (hn : (u.parts.map UPart.uid).Nodup) :
    ∃ vs : Warp → List Nat, PartMap u.parts s (lastUse u h i s) fun _ w => (vs w).foldl Warp.emptyV w := by
  unfold lastUse
  dsimp only
  split
  · exact ⟨fun _ => [], PartMap.refl _ _⟩
  · refine ⟨fun w => if u.scope != .lane || (w.splits.length == 1 && w.stack.isEmpty) then
        lastUseRegs h.luA i.sources.1 (Instr.sourceWidths i).1 ++ lastUseRegs h.luB i.sources.2.1 (Instr.sourceWidths i).2.1
          ++ lastUseRegs h.luC i.sources.2.2 (Instr.sourceWidths i).2.2 else [], ?_⟩
    refine (PartMap.fold _ _ hn _).congr fun x _ w => ?_
    dsimp only
    split <;> rfl

theorem useSources_parts (u : IssueUnit) (h : Head) (i : Instr) (s : State) (hn : (u.parts.map UPart.uid).Nodup) :
    ∃ vs : Warp → List Nat, PartMap u.parts s (useSources u h i s) fun _ w => (vs w).foldl Warp.emptyV w := by
  unfold useSources
  split
  · exact ⟨fun _ => [], PartMap.refl _ _⟩
  · exact lastUse_parts u h i s hn

/-! ## Counting an issue -/

theorem Core.countEvent_evcnt (c : Core) (clk src n : Nat) (b : Option Nat) :
    { c.countEvent clk src n b with evcnt := [], evclk := 0, evnow := [] }
      = { c with evcnt := [], evclk := 0, evnow := [] } := by
  unfold Core.countEvent
  generalize List.range 8 = l
  induction l generalizing c with
  | nil => rfl
  | cons i r ih =>
    rw [List.foldl_cons, ih]
    split <;> rfl

theorem State.event_same (s : State) (core src n : Nat) (b : Option Nat) :
    s.event core b src n = { s with cores := (s.event core b src n).cores } ∧ SameCores s (s.event core b src n) := by
  unfold State.event
  split
  · split
    · exact ⟨rfl, fun _ => rfl⟩
    · refine ⟨rfl, fun c => ?_⟩
      rw [State.mapCore_core]
      split
      · exact Core.countEvent_evcnt _ _ _ _ _
      · rfl
  · exact ⟨rfl, fun _ => rfl⟩

/-! ## The state an instruction that computes leaves -/

theorem SameBut.ident {s t : State} {w w' : Warp} (h : SameBut s t) (hw : SameWarp w w') : t.ident w' = s.ident w := by
  have e := h.1
  unfold SameWarp at hw
  refine State.ident_congr ?_ ?_ ?_ ?_ ?_
  · rw [e]
  · rw [e]
  · rw [hw]
  · rw [hw]
  · rw [hw]

/-- Reading a register depends on the state only through the blocks and the clock. -/
theorem Warp.reg_state {s t : State} (hb : t.blocks = s.blocks) (hc : t.clk = s.clk) (w : Warp) (i : Nat) (r : Reg)
    (l : Nat) : w.reg t i r l = w.reg s i r l := by
  unfold Warp.reg
  cases w.splits.get? i with
  | none => rfl
  | some p =>
    have := State.ident_congr (s := s) (t := t) (w := w) (w' := w) hb hc rfl rfl rfl
    cases r
    case bid => exact congrArg Ident.bid this
    case sid => exact congrArg Ident.sid this
    case gid => exact congrArg Ident.gid this
    case clk => exact congrArg Ident.clk this
    all_goals rfl

theorem State.reg_eq {s : State} {x : UPart} {w : Warp} (h : s.warps.get? x.uid = some w) (r : Reg) (l : Nat) :
    s.reg x r l = w.reg s x.idx r l := by
  unfold State.reg Warp.reg
  rw [h]
  rfl

/-- The state that an issue leaves of results: status, fst.fmtconflict, the splits moved on, the issue counted. -/
def IssueUnit.after (u : IssueUnit) (s : State) (ws : List RegResult) (ps : List PredResult) (bits : Half) : State :=
  countIssue (advanceAll (noteConflict (u.results s ws ps bits) u) u.parts) u

/-- The bits that differing fmt values set in fst (R181). -/
def IssueUnit.conflictBits (u : IssueUnit) : Half := if u.conflict && !u.async then 0x10 else 0

theorem IssueUnit.fstBits_eq (u : IssueUnit) (bits : Half) : u.fstBits bits = fstOf bits ||| fstOf u.conflictBits := by
  unfold IssueUnit.fstBits IssueUnit.conflictBits
  split
  · rfl
  · rfl

/-- A warp of a unit after an instruction that computes. -/
def IssueUnit.afterInWarp (u : IssueUnit) (ws : List RegResult) (ps : List PredResult) (bits : Half) (x : UPart)
    (w : Warp) : Warp := splitInWarp Split.advance x (bitsInWarp u.conflictBits x (inWarp u ws ps bits x w))

theorem only_warps_cores {s a t : State} (h1 : a = { s with warps := a.warps }) (h2 : t = { a with cores := t.cores }) :
    t = { s with warps := t.warps, cores := t.cores } ∧ t.warps = a.warps ∧ a.cores = s.cores := by
  have h3 : t.warps = a.warps := by rw [h2]
  refine ⟨?_, h3, by rw [h1]⟩
  cases s; cases a; cases t
  simp only [State.mk.injEq] at h1 h2 h3 ⊢
  simp_all

/-- The warps after an instruction that computes: those of its parts changed, nothing else. -/
theorem IssueUnit.after_parts (u : IssueUnit) (s : State) (ws : List RegResult) (ps : List PredResult) (bits : Half)
    (hn : (u.parts.map UPart.uid).Nodup) :
    SameBut s (u.after s ws ps bits)
      ∧ (∀ n, (∀ x ∈ u.parts, x.uid ≠ n) → (u.after s ws ps bits).warps.get? n = s.warps.get? n)
      ∧ ∀ x ∈ u.parts, (u.after s ws ps bits).warps.get? x.uid = (s.warps.get? x.uid).map (u.afterInWarp ws ps bits x) := by
  have h : PartMap u.parts s (advanceAll (noteConflict (u.results s ws ps bits) u) u.parts) (u.afterInWarp ws ps bits) :=
    ((u.results_parts s ws ps bits hn).trans (orFst_parts u.parts _ u.conflictBits hn)).trans (advanceAll_parts u.parts _ hn)
  have he := State.event_same (advanceAll (noteConflict (u.results s ws ps bits) u) u.parts) u.core 2 1 (some u.block)
  have ht : u.after s ws ps bits
      = (advanceAll (noteConflict (u.results s ws ps bits) u) u.parts).event u.core (some u.block) 2 1 := rfl
  rw [ht]
  generalize advanceAll (noteConflict (u.results s ws ps bits) u) u.parts = a at h he ⊢
  obtain ⟨hE, hw, hcores⟩ := only_warps_cores h.1 he.1
  refine ⟨⟨hE, fun c => (he.2 c).trans ?_⟩, fun n hx => ?_, fun x hx => ?_⟩
  · unfold State.core
    rw [hcores]
  · rw [hw]; exact h.2.1 n hx
  · rw [hw]; exact h.2.2 x hx

theorem IssueUnit.after_leaves (u : IssueUnit) (s : State) (ws : List RegResult) (ps : List PredResult) (bits : Half)
    (hn : (u.parts.map UPart.uid).Nodup)
    (hp : ∀ x ∈ u.parts, ∃ w p, s.warps.get? x.uid = some w ∧ w.splits.get? x.idx = some p) :
    u.Leaves s (u.after s ws ps bits) ws ps bits := by
  obtain ⟨hsame, hother, hpart⟩ := u.after_parts s ws ps bits hn
  generalize u.after s ws ps bits = t at hsame hother hpart ⊢
  refine ⟨hsame, hother, fun x hx => ?_⟩
  obtain ⟨w, p, hsw, hsp⟩ := hp x hx
  have htw := hpart x hx
  rw [hsw] at htw
  simp only [Option.map_some] at htw
  have hsome : (w.splits.get? x.idx).isSome := by rw [hsp]; rfl
  have hst := (inWarp_stays u ws ps bits x w)
  have hst2 := hst.trans (Stays.bits u.conflictBits x (inWarp u ws ps bits x w))
  have hb : t.blocks = s.blocks := by rw [hsame.1]
  have hc : t.clk = s.clk := by rw [hsame.1]
  obtain ⟨q, hq, eq⟩ := hst2.2.2 p hsp
  refine ⟨fun r l hl => ?_, fun k => ?_, w, _, hsw, htw, ?_, fun n hne => ?_, p, q.advance, hsp, ?_, ?_⟩
  · have hs1 : ((inWarp u ws ps bits x w).splits.get? x.idx).isSome := by
      obtain ⟨p', hp', -⟩ := hst.2.2 p hsp
      rw [hp']; rfl
    rw [State.reg_eq htw, Warp.reg_state hb hc, IssueUnit.afterInWarp, reg_advance, reg_bits _ _ _ _ _ _ hs1,
      inWarp_reg u s ws ps bits x w r hl hsome, IssueUnit.regAfter, State.reg_eq hsw, IssueUnit.fstBits_eq]
    split
    · rw [BitVec.or_assoc]
    · exact BitVec.or_zero
  · unfold State.predOf IssueUnit.predAfter State.predOf
    rw [htw, hsw]
    exact (Warp.pred_congr (splitInWarp_preds _ _ _) k).trans
      ((Warp.pred_congr (bitsInWarp_preds _ _ _) k).trans (inWarp_pred u ws ps bits x w k))
  · refine hst2.1.trans ?_
    unfold IssueUnit.afterInWarp splitInWarp
    split <;> rfl
  · refine Eq.trans ?_ (hst2.2.1 n hne)
    unfold IssueUnit.afterInWarp splitInWarp
    split
    · exact Tab.get?_put_ne _ _ hne
    · rfl
  · unfold IssueUnit.afterInWarp splitInWarp
    rw [hq]
    exact Tab.get?_put_self _ _ _
  · unfold MovedOn
    rw [eq]
    unfold Split.advance
    dsimp only
    split <;> rfl

/-- WHAT AN INSTRUCTION THAT COMPUTES DOES: its word, issued where it need not wait, with room for its rows, leaves its results. -/
theorem computesIf_of {i : Instr} {h : Head} {eff : IssueUnit → State → State → Effect} {pre : State → IssueUnit → Prop}
    {ws : State → IssueUnit → List RegResult} {ps : State → IssueUnit → List PredResult} {bits : State → IssueUnit → Half}
    (hh : i.head = some h) (hx : ∀ s, exec i s = issue i h eff s)
    (he : ∀ u r w, pre r u → eff u r w = .done (u.results w (ws r u) (ps r u) (bits r u)))
    (hv : ∀ r u, (vectorsOf (ws r u)).Nodup) : ComputesIf i pre ws ps bits := by
  intro s s1 u hi hpre hroom
  obtain ⟨h', hh', hiss, hn, hparts, -, -⟩ := issues_spec hi
  rw [hh] at hh'
  cases hh'
  obtain ⟨vs, hlu⟩ := useSources_parts u h i s1 hn
  have hem : emptied i u s1 = useSources u h i s1 := by unfold emptied; rw [hh]; rfl
  have hbase : ∀ x ∈ u.parts, ∃ w p, (useSources u h i s1).warps.get? x.uid = some w ∧ w.splits.get? x.idx = some p := by
    intro x hx
    obtain ⟨w, p, hw, hp, -⟩ := hparts x hx
    refine ⟨_, p, by rw [hlu.2.2 x hx, hw]; rfl, ?_⟩
    rw [(Stays.empty _ _).2]
    exact hp
  refine ⟨u.after (useSources u h i s1) (ws s1 u) (ps s1 u) (bits s1 u), ?_, ?_⟩
  · rw [hx, hiss, he _ _ _ hpre]
    congr 1
    unfold settleEffect
    have hpk : overPeak s1 (u.results (useSources u h i s1) (ws s1 u) (ps s1 u) (bits s1 u)) u = none := by
      unfold overPeak
      rw [List.findSome?_eq_none_iff]
      intro x hxm
      have hres := (u.results_parts (useSources u h i s1) (ws s1 u) (ps s1 u) (bits s1 u) hn).2.2 x hxm
      obtain ⟨w, p, hw, hp, -⟩ := hparts x hxm
      rw [hlu.2.2 x hxm, hw] at hres
      simp only [Option.map_some] at hres
      rw [hw, hres]
      dsimp only
      have h1 := inWarp_rows u (ws s1 u) (ps s1 u) (bits s1 u) x ((vs w).foldl Warp.emptyV w) (hv s1 u)
      have h2 := rows_emptied (vs w) (ws s1 u) w (hv s1 u)
      have h3 := hroom x hxm w hw
      rw [if_neg]
      simp only [decide_eq_true_eq, not_and]
      omega
    dsimp only
    rw [hpk]
    rfl
  · rw [hem]
    exact u.after_leaves _ _ _ _ hn hbase

/-- An instruction that never waits computes wherever its word issues. -/
theorem computes_of {i : Instr} {h : Head} {eff : IssueUnit → State → State → Effect}
    {ws : State → IssueUnit → List RegResult} {ps : State → IssueUnit → List PredResult} {bits : State → IssueUnit → Half}
    (hh : i.head = some h) (hx : ∀ s, exec i s = issue i h eff s)
    (he : ∀ u r w, eff u r w = .done (u.results w (ws r u) (ps r u) (bits r u)))
    (hv : ∀ r u, (vectorsOf (ws r u)).Nodup) : Computes i ws ps bits := fun s s1 u hi hroom =>
  computesIf_of (pre := fun _ _ => True) hh hx (fun u r w _ => he u r w) hv s s1 u hi trivial hroom

end Sys2Proof.Machine
end

