-- ==== Sys2Proof/Laws/Complete.lean ====
section
/-! SUPPORT. How a word that issues completes: from the effect of its meaning to what exec answers. -/

namespace Sys2Proof.Machine

/-- A word that issues: exec answers what its effect leaves, whatever the effect is. -/
theorem exec_issues {s s1 : State} {i : Instr} {u : IssueUnit} {h : Head} {eff : IssueUnit → State → State → Effect}
    (hh : i.head = some h) (hx : ∀ s, exec i s = issue i h eff s) (hi : s.issues i = some (s1, u)) :
    exec i s = .next (settleEffect s1 u i (eff u s1 (emptied i u s1))) := by
  obtain ⟨h', hh', hiss, -⟩ := issues_spec hi
  rw [hh] at hh'
  cases hh'
  have hem : emptied i u s1 = useSources u h i s1 := by unfold emptied; rw [hh]; rfl
  rw [hx, hiss, hem]

theorem ends_of {i : Instr} {h : Head} {eff : IssueUnit → State → State → Effect}
    {pre : State → IssueUnit → State → Prop} {post : State → IssueUnit → State → State} (hh : i.head = some h)
    (hx : ∀ s, exec i s = issue i h eff s)
    (he : ∀ r u w, pre r u w → overPeak r (post r u w) u = none → settleEffect r u i (eff u r w) = post r u w) :
    Ends i pre post := by
  intro s s1 u hi hp hr
  rw [exec_issues hh hx hi, he _ _ _ hp hr]

theorem does_of {i : Instr} {h : Head} {eff : IssueUnit → State → State → Effect}
    {pre : State → IssueUnit → State → Prop} {post : State → IssueUnit → State → State} (hh : i.head = some h)
    (hx : ∀ s, exec i s = issue i h eff s) (he : ∀ r u w, pre r u w → eff u r w = .done (post r u w)) :
    Does i pre post := by
  intro s s1 u hi hp hr
  rw [exec_issues hh hx hi, he _ _ _ hp]
  unfold settleEffect
  dsimp only
  rw [hr]
  rfl

theorem goes_of {i : Instr} {h : Head} {eff : IssueUnit → State → State → Effect}
    {pre : State → IssueUnit → State → Prop} {post : State → IssueUnit → State → State} (hh : i.head = some h)
    (hx : ∀ s, exec i s = issue i h eff s) (he : ∀ r u w, pre r u w → eff u r w = .moved (post r u w)) :
    Goes i pre post := by
  intro s s1 u hi hp hr
  rw [exec_issues hh hx hi, he _ _ _ hp]
  unfold settleEffect
  dsimp only
  rw [hr]

theorem stalls_of {i : Instr} {h : Head} {eff : IssueUnit → State → State → Effect}
    {pre : State → IssueUnit → State → Prop} {post : State → IssueUnit → State} {v : State → IssueUnit → Wait}
    (hh : i.head = some h) (hx : ∀ s, exec i s = issue i h eff s)
    (he : ∀ r u w, pre r u w → eff u r w = .wait (post r u) (v r u)) : Stalls i pre post v := by
  intro s s1 u hi hp
  rw [exec_issues hh hx hi, he _ _ _ hp]
  rfl

theorem traps_of {i : Instr} {h : Head} {eff : IssueUnit → State → State → Effect}
    {pre : State → IssueUnit → State → Prop} {t : State → IssueUnit → State → Trap} (hh : i.head = some h)
    (hx : ∀ s, exec i s = issue i h eff s) (he : ∀ r u w, pre r u w → eff u r w = .trap (t r u w)) : Traps i pre t := by
  intro s s1 u hi hp
  rw [exec_issues hh hx hi, he _ _ _ hp]
  rfl

/-! ## Lanes and predicates -/

theorem testBit_foldr (p : Nat → Bool) (xs : List Nat) (i : Nat) :
    (xs.foldr (fun l acc => (p l).toNat + 2 * acc) 0).testBit i = (xs[i]?).any p := by
  induction xs generalizing i with
  | nil => simp
  | cons a r ih =>
    simp only [List.foldr_cons]
    cases i with
    | zero => cases h : p a <;> simp [h]
    | succ i =>
      have : ((p a).toNat + 2 * r.foldr (fun l acc => (p l).toNat + 2 * acc) 0) / 2
          = r.foldr (fun l acc => (p l).toNat + 2 * acc) 0 := by cases p a <;> simp <;> omega
      rw [Nat.testBit_succ, this, ih, List.getElem?_cons_succ]

theorem lanesWhere_bit (p : Nat → Bool) {l : Nat} (h : l < 32) : (lanesWhere p).getLsbD l = p l := by
  unfold lanesWhere
  rw [BitVec.getLsbD_ofNat, testBit_foldr]
  simp [h, laneList]

/-- A predicate of a lane is a bit of the warp's predicate. -/
theorem IssueUnit.pred_eq (u : IssueUnit) (s : State) (x : UPart) (p : Pred) (l : Nat) :
    u.pred s x p l = (s.predOf x p).getLsbD l := by
  unfold IssueUnit.pred State.predOf
  cases s.warps.get? x.uid <;> simp

/-- The lanes VOTE counts. -/
theorem vote_lanes (u : IssueUnit) (r : State) (x : UPart) (a : Pred) (neg : Bool) :
    voteLanes u r x a neg = (if neg then ~~~(r.predOf x a) else r.predOf x a) &&& x.act := by
  unfold voteLanes
  apply BitVec.eq_of_getLsbD_eq
  intro i hi
  rw [lanesWhere_bit _ hi, u.pred_eq, BitVec.getLsbD_and]
  have n : (~~~(r.predOf x a)).getLsbD i = !(r.predOf x a).getLsbD i := by rw [BitVec.getLsbD_not]; simp [hi]
  cases neg
  · show (x.act.getLsbD i && ((r.predOf x a).getLsbD i != false)) = ((r.predOf x a).getLsbD i && x.act.getLsbD i)
    generalize (r.predOf x a).getLsbD i = p, x.act.getLsbD i = q
    revert p q; decide
  · show (x.act.getLsbD i && ((r.predOf x a).getLsbD i != true)) = ((~~~(r.predOf x a)).getLsbD i && x.act.getLsbD i)
    rw [n]
    generalize (r.predOf x a).getLsbD i = p, x.act.getLsbD i = q
    revert p q; decide

/-! ## Instructions that compute -/

theorem IssueUnit.status_zero (u : IssueUnit) : (u.status fun _ _ => 0) = 0 := by
  unfold IssueUnit.status
  induction u.lanes with
  | nil => rfl
  | cons a r ih => simp

theorem orFst_zero (s : State) (ps : List UPart) : orFst s ps 0 = s := by unfold orFst; rw [if_pos rfl]

theorem vectorsOf_single (d : Reg) (f : UPart → Nat → Half) : (vectorsOf [(d, f)]).Nodup := by
  unfold vectorsOf
  cases d <;> simp

theorem gives_of {i : Instr} {h : Head} {eff : IssueUnit → State → State → Effect} {d : Reg}
    {f : IssueUnit → Operands → Half} (hh : i.head = some h) (hx : ∀ s, exec i s = issue i h eff s)
    (he : ∀ u r w, eff u r w = .done (u.write w d fun x l => f u (u.operands r x l))) : Gives i d f :=
  computes_of hh hx (fun u r w => by rw [he]; simp only [IssueUnit.results, List.foldl_nil, List.foldl_cons, orFst_zero])
    fun _ _ => vectorsOf_single _ _

theorem gives_plain {i : Instr} {h : Head} {eff : IssueUnit → State → State → Effect} {d : Reg}
    {f : IssueUnit → Operands → Half} (hh : i.head = some h) (hx : ∀ s, exec i s = issue i h eff s)
    (he : ∀ u r w, eff u r w = laneRes u w d fun x l => (f u (u.operands r x l), 0)) : Gives i d f :=
  gives_of hh hx fun u r w => by rw [he]; unfold laneRes; dsimp only; rw [u.status_zero, orFst_zero]

theorem givesStatus_of {i : Instr} {h : Head} {eff : IssueUnit → State → State → Effect} {d : Reg}
    {f : IssueUnit → Operands → Res} (hh : i.head = some h) (hx : ∀ s, exec i s = issue i h eff s)
    (he : ∀ u r w, eff u r w = laneRes u w d fun x l => f u (u.operands r x l)) : GivesStatus i d f :=
  computes_of hh hx (fun u r w => by rw [he]; rfl) fun _ _ => vectorsOf_single _ _

theorem vectorsOf_pair (d : Reg) (f g : UPart → Nat → Half) : (vectorsOf [(d, f), (Reg.plus d 1, g)]).Nodup := by
  unfold vectorsOf Reg.plus
  cases d <;> simp
  rename_i x
  intro hc
  have h2 := x.isLt
  omega

theorem givesPair_of {i : Instr} {h : Head} {eff : IssueUnit → State → State → Effect} {d : Reg}
    {f : IssueUnit → Operands → Word} (hh : i.head = some h) (hx : ∀ s, exec i s = issue i h eff s)
    (he : ∀ u r w, eff u r w = lanePair u w d fun x l => f u (u.operands r x l)) : GivesPair i d f :=
  computes_of hh hx (fun u r w => by
    rw [he]; unfold lanePair IssueUnit.write64
    simp only [IssueUnit.results, List.foldl_nil, List.foldl_cons, orFst_zero]; rfl) fun _ _ => vectorsOf_pair _ _ _

theorem givesPreds_of {i : Instr} {h : Head} {eff : IssueUnit → State → State → Effect}
    {ps : List (Pred × (IssueUnit → Operands → Bool))} (hh : i.head = some h) (hx : ∀ s, exec i s = issue i h eff s)
    (he : ∀ u r w, eff u r w
      = .done (ps.foldl (fun s p => u.writePred s p.1 fun x l => p.2 u (u.operands r x l)) w)) : GivesPreds i ps :=
  computes_of hh hx (fun u r w => by
    rw [he]
    simp only [IssueUnit.results, List.foldl_nil, orFst_zero, List.foldl_map]) fun _ _ => by simp [vectorsOf]

end Sys2Proof.Machine
end

