-- ==== Sys2Proof/Laws/Fields.lean ====
section
/-! SUPPORT. The fields the encoder writes are read back by the decoder. -/

namespace Sys2Proof.Laws

theorem ofCode_code (r : Reg) : Reg.ofCode r.code = some r := by
  cases r with
  | v i => exact dif_pos i.isLt
  | s i =>
    have h1 : ¬ (0xC0 + i.val < 192) := by omega
    have h2 : 0xC0 + i.val - 192 < 48 := by have := i.isLt; omega
    have h3 : 0xC0 + i.val - 192 = i.val := by omega
    unfold Reg.code Reg.ofCode
    rw [dif_neg h1, dif_pos h2]
    simp only [h3]
  | _ => decide

theorem code_lt (r : Reg) : r.code < 256 := by cases r <;> simp [Reg.code] <;> omega

theorem code_isVector {r : Reg} (h : r.isVector = true) : r.code < 192 := by
  cases r <;> simp [Reg.isVector] at h
  rename_i i; exact i.isLt

@[simp] theorem regField_code {cls : RegClass} {r : Reg} (k : Nat) (h : cls.ok r = true) :
    regField cls r.code k = .ok r := by simp [regField, ofCode_code, h]
@[simp] theorem read_ok (r : Reg) : RegClass.ok .read r = true := rfl
@[simp] theorem tileField_val (m : Tile) (k : Nat) : tileField m.val k = .ok m := by
  simp [tileField, m.isLt]
@[simp] theorem predOf_val (p : Pred) : predOf p.val = some p := by simp [predOf, finOf, p.isLt]
@[simp] theorem finOf_val {n : Nat} (x : Fin n) : finOf n x.val = some x := by simp [finOf, x.isLt]
@[simp] theorem finOfNat_val {n : Nat} [NeZero n] (x : Fin n) : Fin.ofNat n x.val = x := by
  simp [Fin.ofNat, Nat.mod_eq_of_lt x.isLt]
@[simp] theorem toNat_beq_one (b : Bool) : (b.toNat == 1) = b := by cases b <;> rfl
theorem toNat_lt (b : Bool) : b.toNat < 2 := by cases b <;> decide


/-- The last-use bit of one operand: set only where the operand is a vector register that is read. -/
theorem lastUse_some {b : Bool} {r : Reg} (h : lastUseOk b (some r) = true) : (!b || decide (r.code < 192)) = true := by
  cases b <;> simp [lastUseOk] at h ⊢
  exact code_isVector h
theorem lastUse_none {b : Bool} (h : lastUseOk b none = true) : b = false := by
  cases b <;> simp [lastUseOk] at h ⊢

/-- The fields of an instruction's word. -/
def raw (i : Instr) (h : Head) : Raw :=
  let o := i.operands
  ⟨o.f, o.lu + h.lu, o.b, o.a, o.d, h.neg.toNat, h.guard.val, h.flag.code, h.scope.code, i.opcode⟩

@[simp] theorem raw_lu (i : Instr) (h : Head) : (raw i h).lu = i.operands.lu + h.lu := rfl
theorem luA_of {r : Raw} {h : Head} (e : r.lu = h.lu) : r.luA = h.luA := by
  obtain ⟨_, _, _, _, a, b, c⟩ := h; cases a <;> cases b <;> cases c <;> simp [Raw.luA, e, Head.lu]
theorem luB_of {r : Raw} {h : Head} (e : r.lu = h.lu) : r.luB = h.luB := by
  obtain ⟨_, _, _, _, a, b, c⟩ := h; cases a <;> cases b <;> cases c <;> simp [Raw.luB, e, Head.lu]
theorem luC_of {r : Raw} {h : Head} (e : r.lu = h.lu) : r.luC = h.luC := by
  obtain ⟨_, _, _, _, a, b, c⟩ := h; cases a <;> cases b <;> cases c <;> simp [Raw.luC, e, Head.lu]

/-- Last-use bits that follow R204 pass the decoder's check. -/
theorem lastUse_checked {r : Raw} {h : Head} {a b c : Bool} (e : r.lu = h.lu)
    (ha : h.luA = true → a = true ∧ r.a < 192) (hb : h.luB = true → b = true ∧ r.b < 192)
    (hc : h.luC = true → c = true ∧ r.c < 192) : r.lastUseOk a b c = true := by
  simp only [Raw.lastUseOk, luA_of e, luB_of e, luC_of e, Bool.and_eq_true, Bool.or_eq_true, Bool.not_eq_true',
    decide_eq_true_eq]
  refine ⟨⟨?_, ?_⟩, ?_⟩
  · cases k : h.luA
    · exact .inl rfl
    · exact .inr (ha k)
  · cases k : h.luB
    · exact .inl rfl
    · exact .inr (hb k)
  · cases k : h.luC
    · exact .inl rfl
    · exact .inr (hc k)

theorem marked {b : Bool} {r : Reg} (h : lastUseOk b (some r) = true) (e : b = true) : r.code < 192 := by
  subst e; exact code_isVector (by simpa [lastUseOk] using h)
theorem unmarked {b : Bool} {p : Prop} (h : lastUseOk b none = true) (e : b = true) : p := by
  subst e; simp [lastUseOk] at h

theorem chk_of {b : Bool} (h : b = true) : chk b = some () := by simp [chk, h]
theorem someBind {α β : Type} (a : α) (f : α → Option β) : (some a >>= f) = f a := rfl
theorem okBind {α β : Type} (a : α) (f : α → Except Reject β) : (Except.ok a >>= f) = f a := rfl
theorem okPure {α : Type} (a : α) : (pure a : Except Reject α) = .ok a := rfl
theorem wf_parts {i : Instr} {h : Head} (hi : i.head = some h) (w : i.wf = true) :
    lastUseOk h.luA i.sources.1 = true ∧ lastUseOk h.luB i.sources.2.1 = true
      ∧ lastUseOk h.luC i.sources.2.2 = true ∧ i.operandsOk = true := by
  unfold Instr.wf Instr.headOk at w
  simp only [hi, Bool.and_eq_true] at w
  exact ⟨w.1.1.1.2, w.1.1.2, w.1.2, w.2⟩
theorem notMarked {b : Bool} (h : lastUseOk b none = true) : (!b) = true := by
  cases b <;> simp [lastUseOk] at h ⊢
theorem code_beq_zero (r : Reg) : (r.code == 0) = (r == .v 0) := by
  cases r with
  | v i =>
    by_cases h : i = 0
    · subst h; rfl
    · have h1 : i.val ≠ 0 := fun e => h (Fin.ext e)
      have h2 : Reg.v i ≠ .v 0 := fun e => h (Reg.v.inj e)
      rw [beq_eq_false_iff_ne.mpr h2]; exact beq_eq_false_iff_ne.mpr h1
  | s i =>
    have h1 : 0xC0 + i.val ≠ 0 := by omega
    have h2 : Reg.s i ≠ .v 0 := fun e => Reg.noConfusion e
    rw [beq_eq_false_iff_ne.mpr h2]; exact beq_eq_false_iff_ne.mpr h1
  | _ => decide
theorem val_beq_zero (m : Tile) : (m.val == 0) = (m == 0) := by revert m; decide
theorem srField_ok {x : Nat} (h : srKnown x = true) : srField x = .ok () := if_pos h
theorem lu_lt (h : Head) : h.lu < 8 := by
  obtain ⟨_, _, _, _, a, b, c⟩ := h; cases a <;> cases b <;> cases c <;> simp [Head.lu]
theorem scopeOf_code (x : Scope) : Scope.of x.code = x := by cases x <;> rfl
theorem tile_lt (m : Tile) : m.val < 256 := Nat.lt_trans m.isLt (by decide)
theorem pred_lt (m : Pred) : m.val < 256 := Nat.lt_trans m.isLt (by decide)

/-- Every field has its width (R201). -/
def Fits (r : Raw) : Prop := r.f < 2 ^ 20 ∧ r.lu < 8 ∧ r.b < 256 ∧ r.a < 256 ∧ r.d < 256

/-- Outside the B form the common fields are read back. -/
theorem head_of {i : Instr} {h : Head} (e : (raw i h).lu = h.lu) (a : i.opcode ≠ 0x100) (b : i.opcode ≠ 0x102) :
    (raw i h).head h.flag = h := by
  have x : ((raw i h).op == 0x100 || (raw i h).op == 0x102) = false := by
    show (i.opcode == 0x100 || i.opcode == 0x102) = false
    rw [beq_eq_false_iff_ne.mpr a, beq_eq_false_iff_ne.mpr b]; rfl
  simp only [Raw.head, x, luA_of e, luB_of e, luC_of e]
  obtain ⟨s, f, g, n, p, q, t⟩ := h
  simp only [raw, scopeOf_code, finOfNat_val, toNat_beq_one, Bool.not_false, Bool.and_true]
/-- In the B form no last-use bit is set. -/
theorem branch_head_of {i : Instr} {h : Head} (x : i.opcode = 0x100 ∨ i.opcode = 0x102)
    (a : h.luA = false) (b : h.luB = false) (c : h.luC = false) : (raw i h).head h.flag = h := by
  have x : ((raw i h).op == 0x100 || (raw i h).op == 0x102) = true := by
    show (i.opcode == 0x100 || i.opcode == 0x102) = true
    rcases x with x | x <;> rw [x] <;> rfl
  simp only [Raw.head, x]
  obtain ⟨s, f, g, n, p, q, t⟩ := h
  simp only at a b c
  subst a b c
  simp only [raw, scopeOf_code, finOfNat_val, toNat_beq_one, Bool.not_true, Bool.and_false]

/-! ## Codes read back -/

theorem classTy_of_code (x : ClassTy) : ClassTy.of x.code = some x := by cases x <;> rfl
theorem cond_of_code (x : Cond) : Cond.of x.code = some x := by cases x <;> rfl
theorem fCond_of_code (x : FCond) : FCond.of x.code = some x := by cases x <;> rfl
theorem mScope_of_code (x : MScope) : MScope.of x.code = some x := by cases x <;> rfl
theorem qK_of_code (x : QK) : QK.of x.code = some x := by cases x <;> rfl
theorem redOp_of_code (x : RedOp) : RedOp.of x.code = some x := by cases x <;> rfl
theorem rm_of_code (x : Rm) : Rm.of x.code = some x := by cases x <;> rfl
theorem tSrc_of_code (x : TSrc) : TSrc.of x.code = some x := by cases x <;> rfl
theorem TAddTy_of_code (x : TAddTy) : TAddTy.of x.code = x := by cases x <;> rfl
theorem sgn_ofLeaBit (x : Sgn) : Sgn.ofLeaBit x.leaBit = x := by cases x <;> rfl

theorem orderOf_code (x : Order) : Order.of x.code = x := by cases x <;> rfl
theorem policyOf_code (x : Policy) : Policy.of x.code = x := by cases x <;> rfl
theorem index_code (x : Index) (h : x.ok = true) : indexField x.mode x.code = .ok x := by
  cases x <;> simp only [Index.mode, indexField, Index.code]
  all_goals (simp only [Index.ok] at h; simp only [regField_code 2 h]; rfl)

/-- The address fields of a well-formed M-form word are read back. -/
theorem memBody_form {r : Raw} {m : Addr} {off : Nat} {o : OrdSet} {k : MKind} {dSrc : Bool} {h : Head}
    (ef : r.f = m.form off) (lt : off < 128) (ea : r.a = m.base.code) (eb : r.b = m.index.code)
    (elu : r.lu = h.lu) (hm : m.ok o k off = true) (hA : lastUseOk h.luA (some m.base) = true)
    (hB : lastUseOk h.luB m.index.reg = true) (hC : h.luC = true → dSrc = true ∧ r.d < 192) :
    memBody r o k dSrc = some (off, .ok m) := by
  have q0 := toNat_lt m.fromLit
  have q1 := m.scale.isLt
  have q2 : m.index.mode < 6 := by cases m.index <;> simp [Index.mode]
  have q3 : m.policy.code < 4 := by cases m.policy <;> decide
  have q4 : m.order.code < 4 := by cases m.order <;> decide
  have q5 : m.mscope.code < 8 := by cases m.mscope <;> decide
  have em : cut [7, 1, 2, 3, 2, 2] r.f
      = [off, m.fromLit.toNat, m.scale.val, m.index.mode, m.policy.code, m.order.code, m.mscope.code] := by
    simp only [ef, Addr.form, glue, cut, List.cons.injEq]
    refine ⟨?_, ?_, ?_, ?_, ?_, ?_, ?_, trivial⟩ <;> omega
  simp only [Addr.ok, Bool.and_eq_true] at hm
  obtain ⟨⟨⟨⟨h1, h2⟩, h3⟩, h4⟩, h5⟩ := hm
  have c1 : chk (decide (m.index.mode < 6)) = some () := chk_of (decide_eq_true q2)
  have c2 : chk (o.ok m.order && (!(m.order == .plain) || m.mscope == .warp)) = some () :=
    chk_of (by rw [h1, h2]; rfl)
  have c3 : chk (m.index.mode != 0 || m.index.code == 0) = some () := chk_of (by cases m.index <;> rfl)
  have c4 : chk (!h.luA || decide (m.base.code < 192)) = some () := chk_of (by
    cases q : h.luA
    · rfl
    · exact decide_eq_true (marked hA q))
  have c5 : chk (!h.luB || (m.index.mode != 0 && decide (m.index.code < 192))) = some () := chk_of (by
    cases q : h.luB
    · rfl
    · rw [q] at hB
      cases hi : m.index <;> rw [hi] at hB <;> first
        | exact unmarked hB rfl
        | exact decide_eq_true (marked hB rfl))
  have c6 : chk (!h.luC || (dSrc && decide (r.d < 192))) = some () := chk_of (by
    cases q : h.luC
    · rfl
    · obtain ⟨x, y⟩ := hC q; subst x; exact decide_eq_true y)
  have c7 := chk_of h3
  unfold memBody
  simp only [em, luA_of elu, luB_of elu, luC_of elu, ea, eb, mScope_of_code, orderOf_code, policyOf_code, toNat_beq_one,
    finOfNat_val, someBind, c1, c2, c3, c4, c5, c6, c7, regField_code 1 h4, index_code m.index h5]
  rfl
theorem index_lt (x : Index) : x.code < 256 := by
  cases x <;> first | exact Nat.zero_lt_succ _ | exact code_lt _
theorem form_lt (m : Addr) {off : Nat} (lt : off < 128) : m.form off < 2 ^ 20 := by
  have q0 := toNat_lt m.fromLit
  have q1 := m.scale.isLt
  have q2 : m.index.mode < 6 := by cases m.index <;> simp [Index.mode]
  have q3 : m.policy.code < 4 := by cases m.policy <;> decide
  have q4 : m.order.code < 4 := by cases m.order <;> decide
  have q5 : m.mscope.code < 8 := by cases m.mscope <;> decide
  simp only [Addr.form, glue]; omega

theorem cvt_code (t : CvtTy) : CvtTy.of t.code (t.modifier % 2 ^ 12) = some t ∧ t.modifier / 2 ^ 12 = 0 := by
  cases t <;> rename_i x <;> first
    | (cases x <;> decide)
    | (revert x; decide)
theorem cvt_lt (t : CvtTy) : t.modifier < 2 ^ 20 := by
  cases t <;> rename_i x <;> first
    | (cases x <;> decide)
    | (revert x; decide)
theorem vote_lt (t : VoteOp) : t.dCode < 256 := by
  cases t <;> first | exact pred_lt _ | exact code_lt _
theorem cpyOpd_lt (d : CpyOpd) : d.code < 256 := by
  cases d <;> first | exact code_lt _ | exact tile_lt _ | exact Nat.zero_lt_succ _
theorem cpyField_code {k : CpyKind} {d : CpyOpd} (i : Nat) (h : k.ok d = true) : cpyField k d.code i = .ok d := by
  cases k <;> cases d <;> first
    | (simp only [CpyKind.ok, Bool.false_eq_true] at h; done)
    | (simp only [CpyKind.ok] at h; simp only [cpyField, CpyOpd.code, regField_code i h]; rfl)
    | (simp only [cpyField, CpyOpd.code, tileField_val]; rfl)
theorem fin8_beq : ∀ q : Fin 8, (q.val == 0) = (q == 0) := by decide
theorem cpyOf_code (x : CpyDir) : CpyDir.of x.code = x := by cases x <;> rfl
theorem cpyKind_tile {k : CpyKind} {a : CpyOpd} {b : Bool} (h : k.ok a = true) (l : lastUseOk b a.theReg = true)
    (e : b = true) : (!(k == .tile)) = true ∧ a.code < 192 := by
  cases k <;> cases a <;> first
    | (simp only [CpyKind.ok, Bool.false_eq_true] at h; done)
    | exact unmarked l e
    | exact ⟨rfl, marked l e⟩

end Sys2Proof.Laws
end

