-- ==== Sys2Proof/Laws/Memory.lean ====
section
/-! SUPPORT. Memory stays in its canonical form: one lemma per operation. An operation that leaves memory as it was has
the equation `_mem`; one that writes memory has `_memWf`, which says that the form is kept; `_ok` and `_some` are for
operations that may answer nothing. -/

namespace Sys2Proof.Machine

/-- If an operation answers, memory in the state it answers is in canonical form. -/
def ExceptWf {ε α : Type} (g : α → State) : Except ε α → Prop
  | .ok a => (g a).mem.wf = true
  | .error _ => True

/-- If an operation answers, memory in the state it answers is in canonical form. -/
def OptionWf {α : Type} (g : α → State) : Option α → Prop
  | some a => (g a).mem.wf = true
  | none => True

/-- Memory is in canonical form in the state an effect leaves. -/
def EffectWf : Effect → Prop
  | .done s => s.mem.wf = true
  | .moved s => s.mem.wf = true
  | .trap _ => True
  | .trapIn s _ _ => s.mem.wf = true
  | .wait s _ => s.mem.wf = true

/-- Memory is in canonical form in a next state. -/
def OutcomeWf : Host.Outcome State Fault Refusal → Prop
  | .next s => s.mem.wf = true
  | _ => True

@[simp] theorem ExceptWf_ok {ε α : Type} (g : α → State) (a : α) :
    ExceptWf (ε := ε) g (.ok a) = ((g a).mem.wf = true) := rfl

@[simp] theorem ExceptWf_error {ε α : Type} (g : α → State) (e : ε) : ExceptWf g (.error e) = True := rfl

@[simp] theorem OptionWf_some {α : Type} (g : α → State) (a : α) : OptionWf g (some a) = ((g a).mem.wf = true) := rfl

@[simp] theorem OptionWf_none {α : Type} (g : α → State) : OptionWf g none = True := rfl

@[simp] theorem EffectWf_done (s : State) : EffectWf (.done s) = (s.mem.wf = true) := rfl

@[simp] theorem EffectWf_moved (s : State) : EffectWf (.moved s) = (s.mem.wf = true) := rfl

@[simp] theorem EffectWf_trap (t : Trap) : EffectWf (.trap t) = True := rfl

@[simp] theorem EffectWf_trapIn (s : State) (p : List UPart) (t : Trap) :
    EffectWf (.trapIn s p t) = (s.mem.wf = true) := rfl

@[simp] theorem EffectWf_wait (s : State) (w : Wait) : EffectWf (.wait s w) = (s.mem.wf = true) := rfl

@[simp] theorem OutcomeWf_next (s : State) : OutcomeWf (.next s) = (s.mem.wf = true) := rfl

theorem ExceptWf.of {ε α : Type} {g : α → State} {r : Except ε α} {a : α} (h : ExceptWf g r) (e : r = .ok a) :
    (g a).mem.wf = true := by subst e; exact h

theorem OptionWf.of {α : Type} {g : α → State} {r : Option α} {a : α} (h : OptionWf g r) (e : r = some a) :
    (g a).mem.wf = true := by subst e; exact h

@[simp] theorem State.ite_mem (c : Prop) [Decidable c] (s t : State) :
    (if c then s else t).mem = if c then s.mem else t.mem := by
  split <;> rfl

@[simp] theorem Tab.ite_wf {w : Nat} (c : Prop) [Decidable c] (s t : Tab (BitVec w)) :
    (if c then s else t).wf = if c then s.wf else t.wf := by split <;> rfl

@[simp] theorem foldl_mem {α : Type} (f : State → α → State) (hf : ∀ s a, (f s a).mem = s.mem) (l : List α) (s : State) :
    (l.foldl f s).mem = s.mem := by
  induction l generalizing s with
  | nil => rfl
  | cons a r ih => rw [List.foldl_cons, ih, hf]

theorem foldl_memWf {α : Type} (f : State → α → State) (hf : ∀ s a, s.mem.wf = true → (f s a).mem.wf = true) (l : List α)
    (s : State) (h : s.mem.wf = true) : (l.foldl f s).mem.wf = true := by
  induction l generalizing s with
  | nil => exact h
  | cons a r ih => exact ih _ (hf _ _ h)

/-- Memory is in canonical form in the state a move starts from. -/
def MoveWf : Move → Prop
  | .run _ s => s.mem.wf = true
  | .rest s => s.mem.wf = true

@[simp] theorem MoveWf_run (i : Instr) (s : State) : MoveWf (.run i s) = (s.mem.wf = true) := rfl

@[simp] theorem MoveWf_rest (s : State) : MoveWf (.rest s) = (s.mem.wf = true) := rfl

theorem ExceptWf.fst {ε α : Type} {r : Except ε (State × α)} {s : State} {x : α} (h : ExceptWf Prod.fst r)
    (e : r = .ok (s, x)) : s.mem.wf = true := by subst e; exact h

theorem ExceptWf.ok {ε : Type} {r : Except ε State} {s : State} (h : ExceptWf id r) (e : r = .ok s) :
    s.mem.wf = true := by
  subst e; exact h

theorem setCells_wf (m : Tab Byte) (cs : List (Nat × Byte)) (h : m.wf = true) : (setCells m cs).wf = true := by
  unfold setCells
  induction cs generalizing m with
  | nil => exact h
  | cons c r ih => exact ih _ (Tab.wf_setNum _ _ h)

@[simp] theorem writeCells_memWf (s : State) (k : Key) (cells : List (Nat × Byte)) (hs : s.mem.wf = true) :
    (writeCells s k cells).mem.wf = true := by
  unfold writeCells; exact setCells_wf _ _ hs

@[simp] theorem writeBytes_memWf (s : State) (k : Key) (pa : Nat) (bs : List Byte) (hs : s.mem.wf = true) :
    (writeBytes s k pa bs).mem.wf = true := by
  unfold writeBytes; simp [*]

theorem Tab.wf_drop {w : Nat} {m : Tab (BitVec w)} (p : Nat → Bool) (h : m.wf = true) : (m.drop p).wf = true := by
  rw [Tab.wf_iff] at h ⊢
  exact ⟨Tab.sorted_filter _ h.1, fun c hc => h.2 c (List.mem_of_mem_filter hc)⟩

@[simp] theorem zeroFill_memWf (s : State) (k : Key) (pa : Nat) (n : Nat) (hs : s.mem.wf = true) :
    (zeroFill s k pa n).mem.wf = true := by
  unfold zeroFill; split
  · have h1 := Tab.wf_drop (fun a => decide (pa ≤ a ∧ a < pa + n)) hs
    simpa using h1
  · simp [hs]

@[simp] theorem fabricWrite_mem (s : State) (k : Key) (a : Nat) (b : Byte) :
    (fabricWrite s k a b).mem = s.mem := by
  unfold fabricWrite; simp

@[simp] theorem writePlace_memWf (s : State) (part : Nat) (p : Place) (bs : List Byte) (hs : s.mem.wf = true) :
    (writePlace s part p bs).mem.wf = true := by
  unfold writePlace; split <;> simp [*]

@[simp] theorem writePlaces_memWf (s : State) (part : Nat) (ws : List (Place × List Byte)) (hs : s.mem.wf = true) :
    (writePlaces s part ws).mem.wf = true := by
  unfold writePlaces; exact foldl_memWf _ (fun _ _ h => writePlace_memWf _ _ _ _ h) _ _ hs

@[simp] theorem State.draw_mem (s : State) : (State.draw s).mem = s.mem := by
  unfold State.draw; simp

@[simp] theorem recallL1_mem (s : State) (at_ : Nat → Bool) (line : Nat) (write : Bool) :
    (recallL1 s at_ line write).mem = s.mem := rfl

@[simp] theorem recallStash_mem (s : State) (keep : Option Nat) (line : Nat) :
    (recallStash s keep line).mem = s.mem := by
  unfold recallStash; simp

@[simp] theorem recallLine_mem (s : State) (part : Nat) (keep : Option Nat) (line : Nat) (write : Bool) :
    (recallLine s part keep line write).mem = s.mem := by
  unfold recallLine; simp

@[simp] theorem dropCopies_mem (s : State) (gone : Nat → Bool) : (dropCopies s gone).mem = s.mem := rfl

@[simp] theorem dropLlc_mem (s : State) (gone : Nat → Bool) : (dropLlc s gone).mem = s.mem := rfl

@[simp] theorem devTouch_mem (s : State) (part : Nat) (pa : Nat) : (devTouch s part pa).mem = s.mem := by
  unfold devTouch; simp

@[simp] theorem devTouchAll_mem (s : State) (part : Nat) (as : List Nat) : (devTouchAll s part as).mem = s.mem := by
  unfold devTouchAll; simp

@[simp] theorem devWrite_memWf (s : State) (part : Nat) (pa : Nat) (bs : List Byte) (hs : s.mem.wf = true) :
    (devWrite s part pa bs).mem.wf = true := by
  unfold devWrite; (try dsimp only); (repeat' split) <;> simp [*]

@[simp] theorem countSent_mem (s : State) (plane : Nat) : (countSent s plane).mem = s.mem := by
  unfold countSent; split <;> rfl

@[simp] theorem sendMsg_mem (s : State) (m : FabMsg) : (sendMsg s m).mem = s.mem := by
  unfold sendMsg; dsimp only; split <;> simp

@[simp] theorem sendOnce_mem (s : State) (m : FabMsg) : (sendOnce s m).mem = s.mem := by
  unfold sendOnce; split <;> simp

@[simp] theorem askPeer_mem (s : State) (w : Want) : (askPeer s w).mem = s.mem := by
  unfold askPeer; split <;> first
    | (simp; done)
    | exact foldl_mem _ (fun _ _ => sendOnce_mem _ _) _ _

@[simp] theorem askAll_mem (s : State) (ws : List Want) : (askAll s ws).mem = s.mem :=
  foldl_mem _ askPeer_mem _ _

@[simp] theorem evictFabric_mem (s : State) (line : Nat) : (evictFabric s line).mem = s.mem := by
  unfold evictFabric; split
  · rfl
  · dsimp only; split <;> simp

@[simp] theorem sweepFabric_mem (s : State) : (sweepFabric s).mem = s.mem := foldl_mem _ evictFabric_mem _ _

@[simp] theorem recallPeers_mem (s : State) (gone : Nat → Bool) : (recallPeers s gone).mem = s.mem :=
  foldl_mem _ (fun _ _ => sendOnce_mem _ _) _ _

@[simp] theorem walkTouch_mem (s : State) (part : Nat) (asid : Nat) (va : Word) :
    (walkTouch s part asid va).mem = s.mem := by
  unfold walkTouch; simp

@[simp] theorem writeLeaf_memWf (s : State) (part : Nat) (w : Walk) (e : Word) (hs : s.mem.wf = true) :
    (writeLeaf s part w e).mem.wf = true := by
  unfold writeLeaf; simp [*]

@[simp] theorem walkFor_memWf (s : State) (part : Nat) (asid : Nat) (va : Word) (acc : Acc) (hs : s.mem.wf = true) :
    ExceptWf Prod.fst (walkFor s part asid va acc) := by
  unfold walkFor; (try dsimp only); (repeat' split) <;> simp [*]

theorem walkFor_ok {s s1 : State} {part asid : Nat} {va : Word} {acc : Acc} {x : Xlat} (h : s.mem.wf = true)
    (e : walkFor s part asid va acc = .ok (s1, x)) : s1.mem.wf = true := ExceptWf.of (walkFor_memWf _ _ _ _ _ h) e

@[simp] theorem xlate_memWf (s : State) (part : Nat) (asid : Nat) (va : Word) (acc : Acc) (hs : s.mem.wf = true) :
    ExceptWf Prod.fst (xlate s part asid va acc) := by
  unfold xlate; (repeat' split) <;> first
    | exact walkFor_memWf _ _ _ _ _ hs
    | simp [hs]

theorem xlate_ok {s s1 : State} {part asid : Nat} {va : Word} {acc : Acc} {x : Xlat} (h : s.mem.wf = true)
    (e : xlate s part asid va acc = .ok (s1, x)) : s1.mem.wf = true := ExceptWf.of (xlate_memWf _ _ _ _ _ h) e

@[simp] theorem zeroFrame_memWf (s : State) (part : Nat) (k : Key) (base : Nat) (n : Nat) (hs : s.mem.wf = true) :
    (zeroFrame s part k base n).mem.wf = true := by
  unfold zeroFrame; split
  · have h1 := Tab.wf_drop (fun a => decide (base ≤ a ∧ a < base + n) && !s.foreign part a) hs
    simpa using h1
  · exact writeCells_memWf _ _ _ hs

@[simp] theorem reestablish_memWf (s : State) (part : Nat) (asid : Nat) (va : Word) (k : Key) (hs : s.mem.wf = true) :
    (reestablish s part asid va k).mem.wf = true := by
  unfold reestablish; split <;> simp [*]

@[simp] theorem framePlace_memWf (s : State) (part : Nat) (asid : Nat) (va : Word) (acc : Acc) (x : Xlat) (k : Key)
    (hs : s.mem.wf = true) : ExceptWf Prod.fst (framePlace s part asid va acc x k) := by
  unfold framePlace; dsimp only; (repeat' split) <;> first
    | (simp [hs]; done)
    | exact walkFor_ok (reestablish_memWf _ _ _ _ _ hs) ‹_›

@[simp] theorem absentPlace_memWf (s : State) (acc : Acc) (hs : s.mem.wf = true) :
    ExceptWf Prod.fst (absentPlace s acc) := by
  unfold absentPlace; split <;> simp [hs]

@[simp] theorem keyedPlace_memWf (s : State) (part : Nat) (asid : Nat) (va : Word) (acc : Acc) (x : Xlat) (k : Key)
    (hs : s.mem.wf = true) : ExceptWf Prod.fst (keyedPlace s part asid va acc x k) := by
  unfold keyedPlace; dsimp only; (repeat' split) <;> simp [hs]

@[simp] theorem classPlace_memWf (s : State) (part : Nat) (asid : Nat) (va : Word) (acc : Acc) (x : Xlat) (hs :
    s.mem.wf = true) : ExceptWf Prod.fst (classPlace s part asid va acc x) := by
  unfold classPlace; (repeat' split) <;> simp [hs]

@[simp] theorem resolve_memWf (s : State) (part : Nat) (asid : Nat) (blk : Nat) (ea : Word) (n : Nat) (acc : Acc) (hs
    : s.mem.wf = true) : ExceptWf Prod.fst (resolve s part asid blk ea n acc) := by
  unfold resolve; (repeat' split) <;> first
    | (simp [hs]; done)
    | exact classPlace_memWf _ _ _ _ _ _ (xlate_ok hs ‹_›)

theorem resolve_ok {s s1 : State} {part asid blk n : Nat} {ea : Word} {acc : Acc} {p : Place} (h : s.mem.wf = true)
    (e : resolve s part asid blk ea n acc = .ok (s1, p)) : s1.mem.wf = true := ExceptWf.of (resolve_memWf _ _ _ _ _ _ _ h) e

@[simp] theorem notePage_mem (s : State) (part : Nat) (asid : Nat) (uid : Nat) (l : Nat) (va : Word) :
    (notePage s part asid uid l va).mem = s.mem := by
  unfold notePage; simp

@[simp] theorem dropPages_mem (s : State) (uid : Nat) : (dropPages s uid).mem = s.mem := by
  rfl

@[simp] theorem resolveLane_memWf (s : State) (part asid blk uid l : Nat) (ea : Word) (n : Nat) (acc : Acc)
    (hs : s.mem.wf = true) : ExceptWf Prod.fst (resolveLane s part asid blk uid l ea n acc) := by
  unfold resolveLane
  cases (if inAperture ea ∨ 2 ^ 56 ≤ ea.toNat then none else lastPage s part uid l ea acc) with
  | some r => exact classPlace_memWf _ _ _ _ _ _ hs
  | none =>
    dsimp only
    split
    · have h1 := resolve_ok hs ‹_›
      simp [h1]
    · trivial

theorem resolveLane_ok {s s1 : State} {part asid blk uid l n : Nat} {ea : Word} {acc : Acc} {p : Place}
    (h : s.mem.wf = true) (e : resolveLane s part asid blk uid l ea n acc = .ok (s1, p)) : s1.mem.wf = true :=
  ExceptWf.of (resolveLane_memWf _ _ _ _ _ _ _ _ _ h) e

@[simp] theorem State.mapRegion_mem (s : State) (part : Nat) (r : Nat) (f : Region → Region) :
    (State.mapRegion s part r f).mem = s.mem := by
  unfold State.mapRegion; simp

@[simp] theorem State.event_mem (s : State) (core : Nat) (block : Option Nat) (src : Nat) (n : Nat) :
    (State.event s core block src n).mem = s.mem := by
  unfold State.event; split <;> simp

@[simp] theorem State.dieEvent_mem (s : State) (core : Nat) (src : Nat) (n : Nat) :
    (State.dieEvent s core src n).mem = s.mem := by
  unfold State.dieEvent; simp

@[simp] theorem dropL1_mem (s : State) (die : Nat) (line : Nat) : (dropL1 s die line).mem = s.mem := rfl

@[simp] theorem flit_mem (s : State) (src : Nat) (dst : Nat) (line : Nat) : (flit s src dst line).mem = s.mem := by
  unfold flit; simp

@[simp] theorem crossDies_mem (s : State) (part : Nat) (core : Nat) (line : Nat) :
    (crossDies s part core line).mem = s.mem := by
  unfold crossDies; simp

@[simp] theorem recallFlits_mem (s : State) (part : Nat) (keep : Option Nat) (line : Nat) (write : Bool) :
    (recallFlits s part keep line write).mem = s.mem := by
  unfold recallFlits; simp

@[simp] theorem l2Use_mem (s : State) (part : Nat) (die : Nat) (line : Nat) (pol : Policy) (own : Bool) :
    (l2Use s part die line pol own).mem = s.mem := by
  unfold l2Use; dsimp only; (repeat' split) <;> first
    | (simp; done)
    | (rw [State.mapPart_mem]; cases (fillSet _ _ _ _ _).2 <;> simp)

@[simp] theorem recallOthers_mem (s : State) (part : Nat) (core : Nat) (line : Nat) (write : Bool) :
    (recallOthers s part core line write).mem = s.mem := by
  unfold recallOthers; simp

@[simp] theorem arriveHome_mem (s : State) (part : Nat) (who : Option (Nat × Word)) (line : Nat) (pol : Policy) :
    (arriveHome s part who line pol).mem = s.mem := by
  unfold arriveHome; simp

@[simp] theorem coreArrives_mem (s : State) (part : Nat) (core : Nat) (block : Nat) (who : Option (Nat × Word)) (line
    : Nat) (pol : Policy) : (coreArrives s part core block who line pol).mem = s.mem := by
  unfold coreArrives; simp

@[simp] theorem throughL2_mem (s : State) (part : Nat) (core : Nat) (block : Nat) (who : Option (Nat × Word)) (line : Nat) (pol : Policy) (own : Bool) :
    (throughL2 s part core block who line pol own).mem = s.mem := by
  unfold throughL2; (try dsimp only); (repeat' split) <;> simp

@[simp] theorem cacheAccess_mem (s : State) (part : Nat) (core : Nat) (block : Nat) (who : Option (Nat × Word)) (line : Nat) (pol : Policy) (write : Bool) :
    (cacheAccess s part core block who line pol write).mem = s.mem := by
  unfold cacheAccess; (try dsimp only); (repeat' split) <;> simp

@[simp] theorem pastL1_mem (s : State) (part : Nat) (core : Nat) (block : Nat) (who : Option (Nat × Word)) (line :
    Nat) (write : Bool) : (pastL1 s part core block who line write).mem = s.mem := by
  unfold pastL1; simp

@[simp] theorem takeBack_mem (s : State) (part : Nat) (r : Nat) (q : Quarantined) :
    (takeBack s part r q).1.mem = s.mem := by
  unfold takeBack; simp

theorem takeKept_some {s : State} {part r : Nat} {g : Region} {home : Option Nat} {x : State × Nat}
    (e : takeKept s part r g home = some x) : x.1.mem = s.mem := by
  unfold takeKept at e
  dsimp only at e
  split at e
  · cases e; simp
  · obtain ⟨q, -, rfl⟩ := Option.map_eq_some_iff.mp e
    exact takeBack_mem _ _ _ _

theorem popFree_some {s : State} {part : Nat} {g : Region} {x : State × Nat} (hs : s.mem.wf = true)
    (e : popFree s part g = some x) : x.1.mem.wf = true := by
  unfold popFree at e
  dsimp only at e
  (repeat' split at e) <;> cases e
  exact devWrite_memWf _ _ _ _ (by simpa using hs)

theorem carveFree_some {s : State} {part r home : Nat} {g : Region} {x : State × Nat} (hs : s.mem.wf = true)
    (e : carveFree s part r g home = some x) : x.1.mem.wf = true := by
  unfold carveFree at e
  obtain ⟨y, hy, e⟩ := Option.bind_eq_some_iff.mp e
  split at e <;> cases e
  simpa using popFree_some hs hy

theorem takeStorage_some {s s1 : State} {part r t pa : Nat} (hs : s.mem.wf = true)
    (e : takeStorage s part r t = some (s1, pa)) : s1.mem.wf = true := by
  unfold takeStorage at e
  split at e
  · cases e
  · dsimp only at e
    rcases h1 : takeKept s part r _ (some (homeOf s part r t)) with _ | x
    · rw [h1] at e
      rcases h2 : carveFree s part r _ (homeOf s part r t) with _ | y
      · rw [h2] at e
        have h3 := takeKept_some (show takeKept s part r _ none = some (s1, pa) by simpa using e)
        rw [h3]; exact hs
      · rw [h2] at e
        have h3 : y = (s1, pa) := by simpa using e
        have h4 := carveFree_some hs h2
        rw [h3] at h4; exact h4
    · rw [h1] at e
      have h3 : x = (s1, pa) := by simpa using e
      have h4 := takeKept_some h1
      rw [h3] at h4; rw [h4]; exact hs

@[simp] theorem dropTile_mem (s : State) (part : Nat) (r : Nat) (t : Nat) (pa : Nat) (n : Nat) :
    (dropTile s part r t pa n).mem = s.mem := by
  unfold dropTile; simp

@[simp] theorem installTile_memWf (s : State) (part : Nat) (r : Nat) (t : Nat) (pa : Nat) (k : Key) (hs : s.mem.wf =
    true) : (installTile s part r t pa k).mem.wf = true := by
  unfold installTile; split <;> simp [*]

@[simp] theorem reserveTile_mem (s : State) (part : Nat) (r : Nat) (t : Nat) (pa : Nat) :
    (reserveTile s part r t pa).mem = s.mem := by
  unfold reserveTile; simp

@[simp] theorem commitTile_memWf (s : State) (part : Nat) (r : Nat) (t : Nat) (k : Key) (hs : s.mem.wf = true) :
    (commitTile s part r t k).mem.wf = true := by
  unfold commitTile; split <;> simp [*]

@[simp] theorem birth_memWf (s : State) (part : Nat) (r : Nat) (t : Nat) (k : Key) (hs : s.mem.wf = true) :
    ExceptWf id (birth s part r t k) := by
  unfold birth; (repeat' split) <;> first
    | (simp [hs]; done)
    | exact installTile_memWf _ _ _ _ _ _ (takeStorage_some hs ‹_›)

theorem birth_ok {s s1 : State} {part r t : Nat} {k : Key} (h : s.mem.wf = true)
    (e : birth s part r t k = .ok s1) : s1.mem.wf = true := ExceptWf.of (birth_memWf _ _ _ _ _ h) e

@[simp] theorem births_memWf (now : Bool) (s : State) (part : Nat) (l : List (Nat × Nat × Key)) (extra : Tab Nat) (hs
    : s.mem.wf = true) : (births now s part l extra).1.mem.wf = true := by
  induction l generalizing s extra with
  | nil => simpa [births] using hs
  | cons c rest ih =>
    obtain ⟨r, t, k⟩ := c
    unfold births
    dsimp only
    (repeat' split) <;> first
      | exact ih _ _ hs
      | exact ih _ _ (installTile_memWf _ _ _ _ _ _ (takeStorage_some hs ‹_›))
      | exact ih _ _ (by rw [reserveTile_mem]; exact takeStorage_some hs ‹_›)

@[simp] theorem eraseTile_mem (s : State) (part : Nat) (r : Nat) (t : Nat) : (eraseTile s part r t).mem = s.mem := by
  unfold eraseTile; (try dsimp only); (repeat' split) <;> simp

@[simp] theorem rebirth_memWf (s : State) (part : Nat) (r : Nat) (t : Nat) (k : Key) (hs : s.mem.wf = true) :
    (rebirth s part r t k).mem.wf = true := by
  unfold rebirth; dsimp only; (repeat' split) <;> first
    | (simp [hs]; done)
    | exact installTile_memWf _ _ _ _ _ _ (takeStorage_some hs ‹_›)

@[simp] theorem State.countErr_mem (s : State) (source : Nat) (part : Nat) (i : Nat) (a : Word) :
    (State.countErr s source part i a).mem = s.mem := by
  unfold State.countErr; simp

@[simp] theorem renumber_mem (s : State) (setId : Nat) (members : List Nat) :
    (renumber s setId members).mem = s.mem := by
  unfold renumber; simp

@[simp] theorem leaveSet_mem (s : State) (u : Nat) : (leaveSet s u).mem = s.mem := by
  unfold leaveSet; (try dsimp only); (repeat' split) <;> simp

@[simp] theorem dissolveSwaps_mem (s : State) (u : Nat) : (dissolveSwaps s u).mem = s.mem := by
  unfold dissolveSwaps; simp

@[simp] theorem dissolvePair_mem (s : State) (u : Nat) : (dissolvePair s u).mem = s.mem := by
  unfold dissolvePair; (try dsimp only); (repeat' split) <;> simp

@[simp] theorem leavePairTable_mem (s : State) (u : Nat) : (leavePairTable s u).mem = s.mem := by
  unfold leavePairTable; simp

@[simp] theorem leaveAll_mem (s : State) (u : Nat) : (leaveAll s u).mem = s.mem := by
  unfold leaveAll; split <;> simp

@[simp] theorem endLanes_mem (s : State) (u : Nat) (i : Nat) (m : Lanes) : (endLanes s u i m).mem = s.mem := by
  unfold endLanes; simp

@[simp] theorem dropSpawns_mem (s : State) (p : SpawnRec → Bool) : (dropSpawns s p).mem = s.mem := by
  unfold dropSpawns; simp

@[simp] theorem dropLwaits_mem (s : State) (u : Nat) (m : Lanes) : (dropLwaits s u m).mem = s.mem := by
  unfold dropLwaits; simp

@[simp] theorem cancelLanes_mem (s : State) (u : Nat) (i : Nat) (m : Lanes) : (cancelLanes s u i m).mem = s.mem := by
  unfold cancelLanes; (try dsimp only); (repeat' split) <;> simp

@[simp] theorem homeTouch_mem (s : State) (part : Nat) (who : Option (Nat × Word)) (p : Place) (write : Bool) :
    (homeTouch s part who p write).mem = s.mem := by
  unfold homeTouch; (try dsimp only); (repeat' split) <;> simp

@[simp] theorem coreTouch_mem (s : State) (part : Nat) (core : Nat) (block : Nat) (who : Option (Nat × Word)) (p :
    Place) (write : Bool) : (coreTouch s part core block who p write).mem = s.mem := by
  unfold coreTouch; split <;> simp

@[simp] theorem deviceWrite_memWf (s : State) (part : Nat) (asid : Nat) (va : Word) (bs : List Byte) (hs : s.mem.wf =
    true) : (deviceWrite s part asid va bs).mem.wf = true := by
  unfold deviceWrite; dsimp only; split
  · have h1 := resolve_ok hs ‹_›
    refine writePlace_memWf _ _ _ _ ?_
    rw [homeTouch_mem]
    (repeat' split) <;> first
      | exact birth_ok h1 ‹_›
      | exact h1
  · exact hs

@[simp] theorem slotStatus_memWf (s : State) (part : Nat) (slot : Nat) (tag : Half) (code : Nat) (st : Nat) (hs :
    s.mem.wf = true) : (slotStatus s part slot tag code st).mem.wf = true := by
  unfold slotStatus; split <;> simp [*]

@[simp] theorem deliverLwait_mem (s : State) (parent : Nat) (h : Half) (blocks : Half) :
    (deliverLwait s parent h blocks).mem = s.mem := by
  unfold deliverLwait; simp

@[simp] theorem completeKernel_memWf (s : State) (id : Nat) (k : Kernel) (hs : s.mem.wf = true) :
    (completeKernel s id k).mem.wf = true := by
  unfold completeKernel; (try dsimp only); (repeat' split) <;> simp [*]

@[simp] theorem completeOnce_memWf (s : State) (hs : s.mem.wf = true) : (completeOnce s).mem.wf = true := by
  unfold completeOnce
  refine foldl_memWf _ (fun s c h => ?_) _ _ hs
  (repeat' split) <;> first
    | exact h
    | exact completeKernel_memWf _ _ _ h
    | simpa using h

@[simp] theorem completeKernels_memWf (fuel : Nat) (s : State) (hs : s.mem.wf = true) :
    (completeKernels fuel s).mem.wf = true := by
  induction fuel generalizing s with
  | zero => exact hs
  | succ n ih => exact ih _ (completeOnce_memWf _ hs)

@[simp] theorem endBlock_mem (s : State) (id : Nat) (b : Block) : (endBlock s id b).mem = s.mem := by
  unfold endBlock; simp

@[simp] theorem settle_memWf (s : State) (hs : s.mem.wf = true) : (settle s).mem.wf = true := by
  unfold settle; dsimp only; exact completeKernels_memWf _ _ (by simpa using hs)

@[simp] theorem abortWarp_mem (s : State) (u : Nat) (w : Warp) : (abortWarp s u w).mem = s.mem := by
  unfold abortWarp; simp

@[simp] theorem abortCount_mem (s : State) (k : Kernel) : (abortCount s k).mem = s.mem := by
  unfold abortCount; simp

@[simp] theorem abortKernel_memWf (s : State) (id : Nat) (hs : s.mem.wf = true) :
    (abortKernel s id).mem.wf = true := by
  unfold abortKernel; split <;> simp [*]

@[simp] theorem takeTrap_memWf (s : State) (parts : List UPart) (scope : Scope) (t : Trap) (hs : s.mem.wf = true) :
    (takeTrap s parts scope t).mem.wf = true := by
  unfold takeTrap; (try dsimp only); (repeat' split) <;> simp [*]

@[simp] theorem touchText_mem (s : State) (part : Nat) (asid : Nat) (blk : Nat) (va : Word) (p : Place) :
    (touchText s part asid blk va p).mem = s.mem := by
  unfold touchText; (try dsimp only); (repeat' split) <;> simp

@[simp] theorem fetchWord_memWf (s : State) (part : Nat) (asid : Nat) (blk : Nat) (va : Word) (hs : s.mem.wf = true) :
    ExceptWf Prod.fst (fetchWord s part asid blk va) := by
  unfold fetchWord; (repeat' split) <;> first
    | (simp; done)
    | simpa using resolve_ok hs ‹_›

theorem fetchWord_ok {s s1 : State} {part asid blk : Nat} {va x : Word} (h : s.mem.wf = true)
    (e : fetchWord s part asid blk va = .ok (s1, x)) : s1.mem.wf = true := ExceptWf.of (fetchWord_memWf _ _ _ _ _ h) e

@[simp] theorem advanceAll_mem (s : State) (parts : List UPart) : (advanceAll s parts).mem = s.mem := by
  unfold advanceAll; simp

@[simp] theorem rereadHeader_memWf (s : State) (w : Warp) (v : Saved) (tpc : Word) (hs : s.mem.wf = true) :
    (rereadHeader s w v tpc).1.mem.wf = true := by
  unfold rereadHeader; (repeat' split) <;> first
    | exact hs
    | exact fetchWord_ok hs ‹_›

@[simp] theorem returnTrap_memWf (s : State) (u : Nat) (i : Nat) (hs : s.mem.wf = true) :
    (returnTrap s u i).mem.wf = true := by
  unfold returnTrap; dsimp only; (repeat' split) <;> first
    | exact hs
    | (simp [hs]; done)
    | (refine takeTrap_memWf _ _ _ _ (settle_memWf _ ?_); simp [hs])

@[simp] theorem orFst_mem (s : State) (parts : List UPart) (bits : Half) : (orFst s parts bits).mem = s.mem := by
  unfold orFst; simp

@[simp] theorem startCommand_mem (s : State) (part : Nat) (warps : List (Nat × Lanes)) (flag : Nat) (block : Nat) (tiles : List Nat) (queue : Option Nat) (conflict : Bool) (work : Work) :
    (startCommand s part warps flag block tiles queue conflict work).mem = s.mem := by
  unfold startCommand; simp

@[simp] theorem applyReg_mem (s : State) (all : Bool) (x : RegWrite) : (applyReg s all x).mem = s.mem := by
  unfold applyReg; simp

@[simp] theorem applyPred_mem (s : State) (all : Bool) (x : PredWrite) : (applyPred s all x).mem = s.mem := by
  unfold applyPred; simp

@[simp] theorem applyTile_mem (s : State) (x : TileWrite) : (applyTile s x).mem = s.mem := by
  unfold applyTile; simp

@[simp] theorem deliver_memWf (s : State) (id : Nat) (q : Pend) (all : Bool) (r : Result) (hs : s.mem.wf = true) :
    (deliver s id q all r).mem.wf = true := by
  unfold deliver; simp [*]

@[simp] theorem setWork_mem (s : State) (id : Nat) (w : Work) : (setWork s id w).mem = s.mem := by
  unfold setWork; split <;> simp

@[simp] theorem takeMismatch_memWf (s : State) (ws : List (Nat × Warp)) (sc : Scope) (hs : s.mem.wf = true) :
    (takeMismatch s ws sc).mem.wf = true := by
  unfold takeMismatch; simp [*]

@[simp] theorem reconvergeBlock_mem (s : State) (blk : Nat) :
    (reconvergeBlock s blk).mem = s.mem := by
  unfold reconvergeBlock; (try dsimp only); (repeat' split) <;> simp

@[simp] theorem checkMismatch_memWf (s : State) (blk : Nat) (hs : s.mem.wf = true) :
    (checkMismatch s blk).mem.wf = true := by
  unfold checkMismatch; dsimp only; cases List.find? _ (blockWarps s blk) <;> dsimp only <;>
    (repeat' split) <;> simp [hs]

@[simp] theorem afterWait_memWf (s : State) (u : Nat) (hs : s.mem.wf = true) : (afterWait s u).mem.wf = true := by
  unfold afterWait; simp [*]

@[simp] theorem IssueUnit.write_mem (u : IssueUnit) (s : State) (r : Reg) (f : UPart → Nat → Half) :
    (IssueUnit.write u s r f).mem = s.mem := by
  unfold IssueUnit.write; split <;> simp

@[simp] theorem IssueUnit.write64_mem (u : IssueUnit) (s : State) (r : Reg) (f : UPart → Nat → Word) :
    (IssueUnit.write64 u s r f).mem = s.mem := by
  unfold IssueUnit.write64; simp

@[simp] theorem IssueUnit.writePred_mem (u : IssueUnit) (s : State) (pd : Pred) (f : UPart → Nat → Bool) :
    (IssueUnit.writePred u s pd f).mem = s.mem := by
  unfold IssueUnit.writePred; simp

@[simp] theorem lastUse_mem (u : IssueUnit) (h : Head) (i : Instr) (s : State) : (lastUse u h i s).mem = s.mem := by
  unfold lastUse; simp

@[simp] theorem waitAll_mem (s : State) (u : IssueUnit) (w : Wait) : (waitAll s u w).mem = s.mem := by
  unfold waitAll; simp

@[simp] theorem noteConflict_mem (s : State) (u : IssueUnit) : (noteConflict s u).mem = s.mem := by
  unfold noteConflict; simp

@[simp] theorem countIssue_mem (s : State) (u : IssueUnit) : (countIssue s u).mem = s.mem := by
  unfold countIssue; simp

@[simp] theorem settleEffect_memWf (s : State) (u : IssueUnit) (i : Instr) (e : Effect) (hs : s.mem.wf = true) (he :
    EffectWf e) : (settleEffect s u i e).mem.wf = true := by
  cases e <;> rw [settleEffect] <;> (repeat' split) <;> simp_all

/-- Memory is in canonical form in the state a rendezvous leaves. -/
def MeetingWf : Meeting → Prop
  | .waits s => s.mem.wf = true
  | .meets s _ => s.mem.wf = true

theorem rendezvous_memWf (s : State) (u i : Nat) (w : Warp) (p : Split) (h : Head) (hs : s.mem.wf = true) :
    MeetingWf (rendezvous s u i w p h) := by
  unfold rendezvous; dsimp only; (repeat' split) <;> first
    | exact hs
    | (show (afterWait _ _).mem.wf = true; simp [hs])

@[simp] theorem takeWordTrap_memWf (s : State) (u : Nat) (i : Nat) (w : Warp) (p : Split) (code : Nat) (i0 : Half) (i1
    : Half) (i2 : Half) (i3 : Half) (hs : s.mem.wf = true) :
    (takeWordTrap s u i w p code i0 i1 i2 i3).mem.wf = true := by
  unfold takeWordTrap; simp [*]

@[simp] theorem gated_memWf (s : State) (u : IssueUnit) (h : Head) (e : Effect) (hs : s.mem.wf = true) (he : EffectWf
    e) : EffectWf (gated s u h e) := by
  unfold gated; (repeat' split) <;> first
    | exact hs
    | exact he

@[simp] theorem checkParts_mem (s : State) (parts : List UPart) : (checkParts s parts).mem = s.mem := by
  unfold checkParts; exact foldl_mem _ (fun _ _ => by (repeat' split) <;> simp) _ _

@[simp] theorem useSources_mem (u : IssueUnit) (h : Head) (i : Instr) (s : State) :
    (useSources u h i s).mem = s.mem := by
  unfold useSources; simp

theorem issue_memWf (i : Instr) (h : Head) (eff : IssueUnit → State → State → Effect) (s : State) (hs : s.mem.wf = true)
    (he : ∀ u r w, r.mem.wf = true → w.mem.wf = true → EffectWf (eff u r w)) : OutcomeWf (issue i h eff s) := by
  unfold issue
  split
  · exact hs
  · rename_i w _
    split
    · exact hs
    · rename_i p _
      split
      · exact takeWordTrap_memWf _ _ _ _ _ _ _ _ _ _ hs
      · have hm := rendezvous_memWf s s.act.1 s.act.2 w p h hs
        generalize rendezvous s s.act.1 s.act.2 w p h = m at hm
        cases m with
        | waits s1 => exact hm
        | meets s1 parts =>
          have h2 : (checkParts s1 parts).mem.wf = true := by rw [checkParts_mem]; exact hm
          dsimp only
          split
          · exact settle_memWf _ (afterWait_memWf _ _ h2)
          · exact settleEffect_memWf _ _ _ _ h2 (gated_memWf _ _ _ _ h2 (he _ _ _ h2 (by simpa using h2)))

@[simp] theorem laneRes_memWf (u : IssueUnit) (w : State) (d : Reg) (f : UPart → Nat → Res) (hw : w.mem.wf = true) :
    EffectWf (laneRes u w d f) := by
  unfold laneRes; simp [*]

@[simp] theorem lane1_memWf (u : IssueUnit) (r : State) (w : State) (d : Reg) (a : Reg) (f : Half → Res) (hw :
    w.mem.wf = true) : EffectWf (lane1 u r w d a f) := by
  unfold lane1; simp [*]

@[simp] theorem lane2_memWf (u : IssueUnit) (r : State) (w : State) (d : Reg) (a : Reg) (b : Reg) (f : Half → Half →
    Res) (hw : w.mem.wf = true) : EffectWf (lane2 u r w d a b f) := by
  unfold lane2; simp [*]

@[simp] theorem lane3_memWf (u : IssueUnit) (r : State) (w : State) (d : Reg) (a : Reg) (b : Reg) (c : Reg) (f : Half
    → Half → Half → Res) (hw : w.mem.wf = true) : EffectWf (lane3 u r w d a b c f) := by
  unfold lane3; simp [*]

@[simp] theorem lanePair_memWf (u : IssueUnit) (w : State) (d : Reg) (f : UPart → Nat → Word) (hw : w.mem.wf = true) :
    EffectWf (lanePair u w d f) := by
  unfold lanePair; simp [*]

@[simp] theorem lane2w_memWf (u : IssueUnit) (r : State) (w : State) (d : Reg) (a : Reg) (b : Reg) (f : Word → Word →
    Word) (hw : w.mem.wf = true) : EffectWf (lane2w u r w d a b f) := by
  unfold lane2w; simp [*]

@[simp] theorem formPair_mem (s : State) (first : Nat) (second : Nat) : (formPair s first second).mem = s.mem := by
  unfold formPair; simp

@[simp] theorem reserve_mem (s : State) (u : IssueUnit) (d : Reg) (n : Nat) : (reserve s u d n).mem = s.mem := by
  unfold reserve; simp

@[simp] theorem IssueUnit.start_mem (u : IssueUnit) (s : State) (h : Head) (tiles : List Nat) (queue : Option Nat)
    (work : Work) : (IssueUnit.start u s h tiles queue work).mem = s.mem := by
  unfold IssueUnit.start; simp

@[simp] theorem checkLane_memWf (u : IssueUnit) (s : State) (uid l : Nat) (ea : Word) (size align : Nat) (acc : Acc)
    (hs : s.mem.wf = true) : (checkLane u s uid l ea size align acc).1.mem.wf = true := by
  unfold checkLane; (repeat' split) <;> first
    | exact hs
    | exact resolveLane_ok hs ‹_›

@[simp] theorem checkLanes_memWf (u : IssueUnit) (size align : Nat) (acc : Acc) (s : State) (l : List (UPart × Nat × Word))
    (hs : s.mem.wf = true) : (checkLanes u size align acc s l).1.mem.wf = true := by
  induction l generalizing s with
  | nil => exact hs
  | cons c rest ih => exact ih _ (checkLane_memWf _ _ _ _ _ _ _ _ hs)

@[simp] theorem touchWindow_mem (s : State) (part : Nat) (core : Nat) (block : Nat) (who : Option (Nat × Word)) (n :
    Nat) (line : Nat) (write : Bool) : (touchWindow s part core block who n line write).mem = s.mem := by
  unfold touchWindow; simp

@[simp] theorem touch_mem (s : State) (u : IssueUnit) (pol : Policy) (write : Bool) (line : Nat) (a : LaneAcc) :
    (touch s u pol write line a).mem = s.mem := by
  unfold touch; split <;> simp

@[simp] theorem touchAll_mem (s : State) (u : IssueUnit) (pol : Policy) (write : Bool) (as : List LaneAcc) :
    (touchAll s u pol write as).mem = s.mem := by
  unfold touchAll; simp

@[simp] theorem loseFabric_mem (s : State) (line : Nat) : (loseFabric s line).mem = s.mem := by
  unfold loseFabric; simp

@[simp] theorem takeFaulted_mem (s : State) (ws : List Want) : (takeFaulted s ws).mem = s.mem := by
  unfold takeFaulted; simp

@[simp] theorem startLoad_mem (u : IssueUnit) (h : Head) (s : State) (d : Reg) (size : Nat) (pd : Option Pred) (opcode
    : Nat) (lanes : List LaneLoad) (as : List LaneAcc) : (startLoad u h s d size pd opcode lanes as).mem = s.mem := by
  unfold startLoad; simp

@[simp] theorem loadEffect_memWf (u : IssueUnit) (h : Head) (r : State) (w : State) (d : Reg) (size : Nat) (pd :
    Option Pred) (opcode : Nat) (acc : Acc) (pol : Policy) (addrs : List (UPart × Nat × Word)) (pred : State → LaneAcc
    → Bool) (hr : r.mem.wf = true) (hw : w.mem.wf = true) :
    EffectWf (loadEffect u h r w d size pd opcode acc pol addrs pred) := by
  unfold loadEffect; (try dsimp only); (repeat' split) <;> simp [*]

@[simp] theorem finishLoad_memWf (s : State) (id : Nat) (q : Pend) (c : LoadCmd) (hs : s.mem.wf = true) :
    (finishLoad s id q c).mem.wf = true := by
  unfold finishLoad; simp [*]

@[simp] theorem storeEffect_memWf (u : IssueUnit) (r : State) (w : State) (d : Reg) (size : Nat) (m : Addr) (addrs :
    List (UPart × Nat × Word)) (hr : r.mem.wf = true) (hw : w.mem.wf = true) :
    EffectWf (storeEffect u r w d size m addrs) := by
  unfold storeEffect; (try dsimp only); (repeat' split) <;> first
    | (simp [*]; done)
    | exact foldl_memWf _ (fun _ _ _ => by (repeat' split) <;> simp [*]) _ _ (by simp [*])

@[simp] theorem eraseAt_mem (s : State) (part : Nat) (r : Nat) (t : Nat) : (eraseAt s part r t).mem = s.mem := by
  unfold eraseAt; (try dsimp only); (repeat' split) <;> simp

@[simp] theorem eraseRun_mem (s : State) (part : Nat) (r : Nat) (t : Nat) (n : Nat) :
    (eraseRun s part r t n).mem = s.mem := by
  unfold eraseRun; simp

@[simp] theorem eraseFrom_mem (s : State) (part : Nat) (p : Place) (n : Nat) :
    (eraseFrom s part p n).mem = s.mem := by
  unfold eraseFrom; split <;> simp

@[simp] theorem eraseEffect_memWf (u : IssueUnit) (r : State) (w : State) (o : Order) (addrs : List (UPart × Nat × Word)) (n : UPart → Nat → Nat) (hr : r.mem.wf = true) (hw : w.mem.wf = true) :
    EffectWf (eraseEffect u r w o addrs n) := by
  unfold eraseEffect; (try dsimp only); (repeat' split) <;> simp [*]

@[simp] theorem startExist_mem (u : IssueUnit) (h : Head) (s : State) (d : Reg) (f : UPart → Nat → Half) :
    (startExist u h s d f).mem = s.mem := by
  unfold startExist; simp

@[simp] theorem atomTouch_mem (s : State) (part : Nat) (block : Nat) (asid : Nat) (ea : Word) (p : Place) :
    (atomTouch s part block asid ea p).mem = s.mem := by
  unfold atomTouch; split <;> simp

@[simp] theorem atomTile_memWf (s : State) (part : Nat) (p : Place) (hs : s.mem.wf = true) :
    (atomTile s part p).mem.wf = true := by
  unfold atomTile; split <;> simp [*]

@[simp] theorem atomApply_memWf (s : State) (part : Nat) (op : AtomOp) (p : Place) (v c : Word) (hs : s.mem.wf = true) :
    (atomApply s part op p v c).1.mem.wf = true := writePlace_memWf _ _ _ _ hs

@[simp] theorem performLane_memWf (s : State) (part block asid : Nat) (op : AtomOp) (a : AtomLane) (hs : s.mem.wf =
    true) : (performLane s part block asid op a).1.mem.wf = true := by
  unfold performLane; dsimp only; split
  · exact hs
  · exact atomApply_memWf _ _ _ _ _ _ (atomTile_memWf _ _ _ (by simp [hs]))

@[simp] theorem performDiscarded_memWf (w : State) (u : IssueUnit) (op : AtomOp) (s : State) (l : List AtomLane)
    (hs : s.mem.wf = true) : (performDiscarded w u op s l).1.mem.wf = true := by
  induction l generalizing s with
  | nil => exact hs
  | cons a rest ih =>
    unfold performDiscarded
    split
    · exact ih _ (performLane_memWf _ _ _ _ _ _ hs)
    · exact ih _ hs

@[simp] theorem sendAtom_mem (s : State) (id : Nat) (op : AtomOp) (a : AtomLane) (x : Nat) :
    (sendAtom s id op a x).mem = s.mem := by
  unfold sendAtom; (try dsimp only); (repeat' split) <;> simp

@[simp] theorem performLanes_memWf (id part block asid : Nat) (op : AtomOp) (s : State) (l : List AtomLane) (hs :
    s.mem.wf = true) : (performLanes id part block asid op s l).1.mem.wf = true := by
  induction l generalizing s with
  | nil => exact hs
  | cons a rest ih =>
    unfold performLanes
    dsimp only
    (repeat' split) <;> first
      | exact ih _ hs
      | exact ih _ (performLane_memWf _ _ _ _ _ _ hs)
      | simpa using hs

@[simp] theorem dropFetchCache_mem (s : State) (core : Nat) : (dropFetchCache s core).mem = s.mem := by
  unfold dropFetchCache; simp

@[simp] theorem reserveLine_memWf (u : IssueUnit) (pol : Policy) (s : State) (va : Word) (hs : s.mem.wf = true) :
    (reserveLine u pol s va).mem.wf = true := by
  unfold reserveLine; split
  · exact hs
  · split
    · exact hs
    · have h1 := resolve_ok hs ‹_›
      (repeat' split) <;> simp [h1]

@[simp] theorem reservePage_memWf (u : IssueUnit) (pol : Policy) (seen : List (Nat × Nat)) (x : Nat × Nat) (s : State)
    (page : Nat) (hs : s.mem.wf = true) : (reservePage u pol seen x s page).mem.wf = true := by
  unfold reservePage; dsimp only; (repeat' split) <;> first
    | exact hs
    | exact foldl_memWf _ (fun _ _ h => reserveLine_memWf _ _ _ _ h) _ _ hs

@[simp] theorem reserveSpans_memWf (u : IssueUnit) (pol : Policy) (s : State) (seen l : List (Nat × Nat))
    (hs : s.mem.wf = true) : (reserveSpans u pol s seen l).mem.wf = true := by
  induction l generalizing s seen with
  | nil => exact hs
  | cons x rest ih =>
    unfold reserveSpans
    split
    · exact ih _ _ hs
    · exact ih _ _ (foldl_memWf _ (fun _ _ h => reservePage_memWf _ _ _ _ _ _ h) _ _ hs)

@[simp] theorem discardPage_memWf (s : State) (part : Nat) (asid : Nat) (va : Word) (hs : s.mem.wf = true) :
    (discardPage s part asid va).mem.wf = true := by
  unfold discardPage; split <;> simp [*]

@[simp] theorem postRequest_memWf (s : State) (part : Nat) (asid : Nat) (va : Word) (hs : s.mem.wf = true) :
    (postRequest s part asid va).mem.wf = true := by
  unfold postRequest; split <;> simp [*]

@[simp] theorem acceptKernel_mem (s : State) (k : Kernel) : (acceptKernel s k).mem = s.mem := by
  unfold acceptKernel; simp

@[simp] theorem refusedWord_memWf (s : State) (part : Nat) (asid : Nat) (r : LaunchRec) (tag : Half) (code : Nat)
    (hs : s.mem.wf = true) : (refusedWord s part asid r tag code).mem.wf = true := by
  unfold refusedWord; split <;> simp [hs]

@[simp] theorem observeArm_memWf (s : State) (part : Nat) (slot : Nat) (arm : Half) (hs : s.mem.wf = true) :
    (observeArm s part slot arm).mem.wf = true := by
  unfold observeArm; (try dsimp only); (repeat' split) <;> simp [*]

@[simp] theorem State.abortOf_mem (s : State) (id : Nat) : (State.abortOf s id).mem = s.mem := by
  unfold State.abortOf; cases s.kernels.get? id <;> simp

@[simp] theorem launchLane_mem (s : State) (part : Nat) (kernel : Nat) (lkey : List Nat) (bs : List Byte) :
    (launchLane s part kernel lkey bs).1.mem = s.mem := by
  unfold launchLane; (try dsimp only); (repeat' split) <;> simp

@[simp] theorem launchLanes_memWf (q : Pend) (kernel : Nat) (s : State) (l : List AtomLane) (hs : s.mem.wf = true) :
    (launchLanes q kernel s l).1.mem.wf = true := by
  induction l generalizing s with
  | nil => exact hs
  | cons a rest ih =>
    unfold launchLanes
    dsimp only
    apply ih
    (repeat' split) <;> simp [hs]

@[simp] theorem movePart_memWf (s : State) (p : UPart) (tp : Split → Split) (op : Split → Split) (hs : s.mem.wf =
    true) : OptionWf id (movePart s p tp op) := by
  unfold movePart; (repeat' split) <;> first
    | (simp [hs]; done)
    | (cases Warp.divide _ _ _ _ _ <;> simp [hs])

@[simp] theorem moveParts_memWf (tp op : UPart → Split → Split) (s : State) (ps : List UPart) (hs : s.mem.wf = true) :
    ExceptWf id (moveParts tp op s ps) := by
  induction ps generalizing s with
  | nil => exact hs
  | cons p rest ih =>
    unfold moveParts
    split
    · exact ih _ (OptionWf.of (g := id) (movePart_memWf _ _ _ _ hs) ‹_›)
    · trivial

@[simp] theorem branchMoves_memWf (u : IssueUnit) (w : State) (t : Word) (rpc : Option Word) (hw : w.mem.wf = true) :
    ExceptWf id (branchMoves u w t rpc) := by
  unfold branchMoves; exact moveParts_memWf _ _ _ _ (by simpa using hw)

@[simp] theorem branchTo_memWf (u : IssueUnit) (r : State) (w : State) (t : Word) (rpc : Option Word) (hw : w.mem.wf =
    true) : EffectWf (branchTo u r w t rpc) := by
  unfold branchTo; (repeat' split) <;> first
    | exact hw
    | trivial
    | exact ExceptWf.ok (branchMoves_memWf _ _ _ _ hw) ‹_›

@[simp] theorem clearRecord_mem (s : State) (uid : Nat) (n : Nat) : (clearRecord s uid n).mem = s.mem := by
  unfold clearRecord; simp

@[simp] theorem exitLanes_mem (u : IssueUnit) (s : State) : (exitLanes u s).mem = s.mem := by
  unfold exitLanes; simp

@[simp] theorem joinSet_mem (s : State) (uid : Nat) (k : Nat) : (joinSet s uid k).mem = s.mem := by
  unfold joinSet; split <;> simp

@[simp] theorem queueSpawn_mem (s : State) (part : Nat) (x : SpawnRec) : (queueSpawn s part x).1.mem = s.mem := by
  unfold queueSpawn; (try dsimp only); (repeat' split) <;> simp

@[simp] theorem queueAll_memWf (u : IssueUnit) (r : State) (a b c : Reg) (n : Nat) (s : State) (l : List (UPart ×
    Nat)) (hs : s.mem.wf = true) : (queueAll u r a b c n s l).1.mem.wf = true := by
  induction l generalizing s with
  | nil => exact hs
  | cons x rest ih => exact ih _ (by rw [queueSpawn_mem]; exact hs)

@[simp] theorem freeHandles_mem (s : State) (u : IssueUnit) (ks : List Half) : (freeHandles s u ks).mem = s.mem := by
  unfold freeHandles; simp

@[simp] theorem lwaitWrite_mem (u : IssueUnit) (w : State) (d : Reg) (pd : Pred) (ls : List LwaitLane) :
    (lwaitWrite u w d pd ls).mem = w.mem := by
  unfold lwaitWrite; simp

@[simp] theorem broadcast_mem (s : State) (part : Nat) (k : Nat) (i : Incumbent) (warps : List Nat) :
    (broadcast s part k i warps).mem = s.mem := by
  unfold broadcast; exact foldl_mem _ (fun _ _ => by (repeat' split) <;> simp) _ _

@[simp] theorem setIncumbent_mem (s : State) (part : Nat) (k : Nat) (i : Incumbent) (warps : List Nat) :
    (setIncumbent s part k i warps).mem = s.mem := by
  unfold setIncumbent; simp

@[simp] theorem startKupd_mem (s : State) (u : IssueUnit) (k : Nat) (f32 : Bool) (ups : List (Half × Half)) (rel : Bool) :
    (startKupd s u k f32 ups rel).mem = s.mem := by
  unfold startKupd; (try dsimp only); (repeat' split) <;> simp

@[simp] theorem dieUpdates_mem (s : State) (part : Nat) (n : Nat) : (dieUpdates s part n).mem = s.mem := by
  unfold dieUpdates; simp

@[simp] theorem applyUpdates_mem (s : State) (q : Pend) (k : Nat) (f32 : Bool) (ups : List (Half × Half)) :
    (applyUpdates s q k f32 ups).mem = s.mem := by
  unfold applyUpdates; (try dsimp only); (repeat' split) <;> simp

@[simp] theorem checkWaiting_memWf (s : State) (core : Nat) (hs : s.mem.wf = true) :
    (checkWaiting s core).mem.wf = true := by
  unfold checkWaiting; exact foldl_memWf _ (fun _ _ h => foldl_memWf _ (fun _ _ h => by (repeat' split) <;> simp [h]) _ _ h) _ _ hs

@[simp] theorem afterCore_memWf (s : State) (core : Nat) (hs : s.mem.wf = true) :
    (afterCore s core).mem.wf = true := by
  unfold afterCore; exact foldl_memWf _ (fun _ _ h => afterWait_memWf _ _ h) _ _ hs

@[simp] theorem markWaits_mem (s : State) (blk : Nat) (off : Nat) (a : Abar) :
    (markWaits s blk off a).mem = s.mem := by
  unfold markWaits; simp

@[simp] theorem abarUpdate_mem (s : State) (blk : Nat) (off : Nat) (arr : Nat) (bytes : Nat) :
    (abarUpdate s blk off arr bytes).mem = s.mem := by
  unfold abarUpdate; split <;> simp

@[simp] theorem setQueue_mem (s : State) (blk : Nat) (n : Nat) (q : Queue) : (setQueue s blk n q).mem = s.mem := by
  unfold setQueue; simp

@[simp] theorem dropOwner_mem (s : State) (uid : Nat) (idx : Nat) : (dropOwner s uid idx).mem = s.mem := by
  unfold dropOwner; simp

@[simp] theorem sysReadEffect_mem (s : State) (uid : Nat) (n : Nat) : (sysReadEffect s uid n).mem = s.mem := by
  unfold sysReadEffect; (try dsimp only); (repeat' split) <;> simp

@[simp] theorem readParts_mem (u : IssueUnit) (w : State) (n : Nat) : (readParts u w n).mem = w.mem := by
  unfold readParts; simp

@[simp] theorem startInval_mem (s : State) (part : Nat) (c : Cover) : (startInval s part c).mem = s.mem := by
  unfold startInval; simp

@[simp] theorem startReload_mem (s : State) (part : Nat) (region : Nat) (warps : List Nat) :
    (startReload s part region warps).mem = s.mem := by
  rfl

@[simp] theorem partWrite_mem (s : State) (part : Nat) (n : Nat) (x : Half) (warps : List Nat) :
    (partWrite s part n x warps).1.mem = s.mem := by
  unfold partWrite; (try dsimp only); (repeat' split) <;> simp

@[simp] theorem sysWrite_mem (s : State) (uid : Nat) (i : Nat) (n : Nat) (x : Half) :
    (sysWrite s uid i n x).1.mem = s.mem := by
  unfold sysWrite; (try dsimp only); (repeat' split) <;> simp

@[simp] theorem writeParts_mem (u : IssueUnit) (w : State) (n : Nat) (x : Half) :
    (writeParts u w n x).1.mem = w.mem := by
  unfold writeParts; (try dsimp only); (repeat' split) <;> simp

@[simp] theorem retileRegion_mem (s : State) (part : Nat) (r : Nat) (g : Region) :
    (retileRegion s part r g).mem = s.mem := by
  unfold retileRegion; (try dsimp only); (repeat' split) <;> simp

@[simp] theorem reloadRegion_mem (s : State) (part : Nat) (r : Nat) : (reloadRegion s part r).mem = s.mem := by
  unfold reloadRegion; split <;> simp

@[simp] theorem warpRead_mem (s : State) (uid : Nat) (d : Reg) (n : Nat) : (warpRead s uid d n).mem = s.mem := by
  unfold warpRead; (try dsimp only); (repeat' split) <;> simp

@[simp] theorem answerPoolset_memWf (s : State) (ch : Change) (hs : s.mem.wf = true) :
    (answerPoolset s ch).mem.wf = true := by
  unfold answerPoolset; (repeat' split) <;> simp [hs]

@[simp] theorem keepRows_mem (s : State) (core : Nat) (banks : Nat) : (keepRows s core banks).mem = s.mem := by
  rfl

@[simp] theorem commitChange_memWf (s : State) (core : Nat) (hs : s.mem.wf = true) :
    (commitChange s core).mem.wf = true := by
  unfold commitChange; (try dsimp only); (repeat' split) <;> simp [*]

@[simp] theorem enterPhase_memWf (s : State) (core : Nat) (phase : Nat) (hs : s.mem.wf = true) :
    (enterPhase s core phase).mem.wf = true := by
  unfold enterPhase; (try dsimp only); (repeat' split) <;> simp [*]

@[simp] theorem stashPages_memWf (s : State) (part asid : Nat) (vas : List Word) (hs : s.mem.wf = true) :
    ExceptWf Prod.fst (stashPages s part asid vas) := by
  induction vas generalizing s with
  | nil => exact hs
  | cons va rest ih =>
    unfold stashPages
    split
    · trivial
    · split
      · trivial
      · rename_i y hy; exact ExceptWf.of (a := y) (ih _ (xlate_ok hs ‹_›)) hy

@[simp] theorem evictBelow_mem (s : State) (part : Nat) (p : Partition) (core : Nat) (line : Nat) :
    (evictBelow s part p core line).mem = s.mem := by
  unfold evictBelow; (try dsimp only); (repeat' split) <;> simp

@[simp] theorem noteFaulted_mem (s : State) (ws : List Want) : (noteFaulted s ws).mem = s.mem := by
  rfl

@[simp] theorem engineTouch_mem (s : State) (g : Engine) (va : Word) (first : Bool) (p : Place) (write : Bool) :
    (engineTouch s g va first p write).mem = s.mem := by
  unfold engineTouch; split <;> simp

@[simp] theorem engineRead_memWf (s : State) (g : Engine) (va : Word) (first : Bool) (n : Nat) (hs : s.mem.wf = true) :
    ExceptWf Prod.fst (engineRead s g va first n) := by
  unfold engineRead; (repeat' split) <;> first
    | trivial
    | simpa using resolve_ok hs ‹_›

@[simp] theorem engineBirth_memWf (s : State) (g : Engine) (va : Word) (p : Place) (hs : s.mem.wf = true) :
    ExceptWf id (engineBirth s g va p) := by
  unfold engineBirth; (repeat' split) <;> first
    | trivial
    | exact hs
    | exact birth_ok hs ‹_›

@[simp] theorem engineWrite_memWf (s : State) (g : Engine) (va : Word) (first : Bool) (bs : List Byte) (hs : s.mem.wf =
    true) : ExceptWf Prod.fst (engineWrite s g va first bs) := by
  unfold engineWrite; dsimp only; (repeat' split) <;> first
    | trivial
    | exact writePlace_memWf _ _ _ _ (by simpa using ExceptWf.ok (engineBirth_memWf _ _ _ _ (resolve_ok hs ‹_›)) ‹_›)

@[simp] theorem copyRead_memWf (s : State) (g : Engine) (k : CpyKind) (base : Word) (step o : Nat) (hs : s.mem.wf =
    true) : ExceptWf Prod.fst (copyRead s g k base step o) := by
  unfold copyRead; split
  · exact hs
  · exact hs
  · exact engineRead_memWf _ _ _ _ _ hs

@[simp] theorem copyWrite_memWf (s : State) (g : Engine) (k : CpyKind) (base : Word) (step o : Nat) (bs : List Byte)
    (hs : s.mem.wf = true) : ExceptWf Prod.fst (copyWrite s g k base step o bs) := by
  unfold copyWrite; split
  · simpa using hs
  · simpa using hs
  · exact engineWrite_memWf _ _ _ _ _ hs

@[simp] theorem readPairs_memWf (g : Engine) (k : CpyKind) (base : Word) (step : Nat) (s : State) (ps : List (Nat × Nat)) (hs :
    s.mem.wf = true) : (readPairs g k base step s ps).1.mem.wf = true := by
  induction ps generalizing s with
  | nil => exact hs
  | cons p rest ih =>
    obtain ⟨a, b⟩ := p
    unfold readPairs
    split
    · exact hs
    · exact ih _ (ExceptWf.of (copyRead_memWf _ _ _ _ _ _ hs) ‹_›)

@[simp] theorem writePairs_memWf (g : Engine) (k : CpyKind) (base : Word) (step : Nat) (s : State) (ps : List (Nat × List Byte))
    (hs : s.mem.wf = true) : (writePairs g k base step s ps).1.mem.wf = true := by
  induction ps generalizing s with
  | nil => exact hs
  | cons p rest ih =>
    obtain ⟨a, b⟩ := p
    unfold writePairs
    split
    · exact hs
    · exact ih _ (ExceptWf.of (copyWrite_memWf _ _ _ _ _ _ _ hs) ‹_›)

@[simp] theorem runPairs_memWf (s : State) (g : Engine) (c : CopyCmd) (ps : List (Nat × Nat)) (hs : s.mem.wf = true) :
    (runPairs s g c ps).1.mem.wf = true := by
  unfold runPairs; simp [*]

@[simp] theorem runCopy_memWf (s : State) (g : Engine) (c : CopyCmd) (hs : s.mem.wf = true) :
    (runCopy s g c).1.mem.wf = true := by
  unfold runCopy; simp [*]

@[simp] theorem copiesWait_memWf (s : State) (g : Engine) (cs : List CopyCmd) (hs : s.mem.wf = true) :
    OptionWf Prod.fst (copiesWait s g cs) := by
  unfold copiesWait; (repeat' split) <;> simp [hs]

@[simp] theorem copyDone_mem (s : State) (c : CopyCmd) : (copyDone s c).mem = s.mem := by
  unfold copyDone; (try dsimp only); (repeat' split) <;> simp

@[simp] theorem finishCopy_memWf (s : State) (id : Nat) (q : Pend) (c : CopyCmd) (e : Option ErrRec) (hs : s.mem.wf =
    true) : (finishCopy s id q c e).mem.wf = true := by
  unfold finishCopy; simp [*]

@[simp] theorem runCopies_memWf (g : Engine) (s : State) (cs : List CopyCmd) (hs : s.mem.wf = true) :
    (runCopies g s cs).1.mem.wf = true := by
  induction cs generalizing s with
  | nil => exact hs
  | cons c rest ih =>
    unfold runCopies
    have h1 := runCopy_memWf s g c hs
    (repeat' split) <;> first
      | exact ih _ h1
      | exact h1
      | simp_all

@[simp] theorem fetchTouch_mem (s : State) (g : Engine) (core : Nat) (va : Word) (p : Place) :
    (fetchTouch s g core va p).mem = s.mem := by
  unfold fetchTouch; (try dsimp only); (repeat' split) <;> simp

@[simp] theorem fillFetch_mem (s : State) (part : Nat) (core : Nat) (key : Nat) (p : Place) :
    (fillFetch s part core key p).mem = s.mem := by
  unfold fillFetch; simp

@[simp] theorem cachedByte_mem (s : State) (g : Engine) (core : Nat) (va : Word) (p : Place) :
    (cachedByte s g core va p).1.mem = s.mem := by
  unfold cachedByte; (repeat' split) <;> first
    | rfl
    | simp

@[simp] theorem fetchByte_memWf (s : State) (g : Engine) (core : Nat) (va : Word) (hs : s.mem.wf = true) :
    ExceptWf Prod.fst (fetchByte s g core va) := by
  unfold fetchByte; (repeat' split) <;> first
    | trivial
    | exact resolve_ok hs ‹_›
    | exact (by simpa using resolve_ok hs ‹_›)

@[simp] theorem fetchBytes_memWf (g : Engine) (core : Nat) (s : State) (va n : Nat) (hs : s.mem.wf = true) :
    ExceptWf Prod.fst (fetchBytes g core s va n) := by
  induction n generalizing s va with
  | zero => exact hs
  | succ n ih =>
    unfold fetchBytes
    (repeat' split) <;> first
      | trivial
      | exact ExceptWf.fst (ih _ _ (ExceptWf.fst (fetchByte_memWf _ _ _ _ hs) ‹_›)) ‹_›

theorem fetchBytes_ok {g : Engine} {core : Nat} {s s1 : State} {va n : Nat} {bs : List Byte} (h : s.mem.wf = true)
    (e : fetchBytes g core s va n = .ok (s1, bs)) : s1.mem.wf = true := ExceptWf.of (fetchBytes_memWf _ _ _ _ _ h) e

@[simp] theorem rawElem_memWf (g : Engine) (core : Nat) (s : State) (efmt : Nat) (base : Nat) (i : Nat) (hs : s.mem.wf
    = true) : ExceptWf Prod.fst (rawElem g core s efmt base i) := by
  unfold rawElem; dsimp only; split
  · trivial
  · exact fetchBytes_ok hs ‹_›

@[simp] theorem findBlock_memWf (g : Engine) (core idx col : Nat) (s : State) (k n : Nat) (hs : s.mem.wf = true) :
    ExceptWf Prod.fst (findBlock g core idx col s k n) := by
  induction n generalizing s k with
  | zero => exact hs
  | succ n ih =>
    unfold findBlock
    (repeat' split) <;> first
      | trivial
      | exact fetchBytes_ok hs ‹_›
      | exact ih _ _ (fetchBytes_ok hs ‹_›)

@[simp] theorem csrElem_memWf (g : Engine) (core : Nat) (s : State) (d : Desc) (r : Nat) (c : Nat) (hs : s.mem.wf =
    true) : ExceptWf Prod.fst (csrElem g core s d r c) := by
  unfold csrElem
  dsimp only
  split
  · trivial
  · have h1 := fetchBytes_ok hs ‹_›
    split
    · trivial
    · have h2 := fetchBytes_ok h1 ‹_›
      split
      · exact h2
      · split
        · trivial
        · exact ExceptWf.fst (findBlock_memWf _ _ _ _ _ _ _ h2) ‹_›
        · exact rawElem_memWf _ _ _ _ _ _ (ExceptWf.fst (findBlock_memWf _ _ _ _ _ _ _ h2) ‹_›)

@[simp] theorem elemAt_memWf (g : Engine) (core : Nat) (s : State) (d : Desc) (r : Nat) (c : Nat) (hs : s.mem.wf =
    true) : ExceptWf Prod.fst (elemAt g core s d r c) := by
  unfold elemAt; dsimp only; (repeat' split) <;> first
    | trivial
    | exact rawElem_memWf _ _ _ _ _ _ hs
    | exact csrElem_memWf _ _ _ _ _ _ hs
    | exact rawElem_memWf _ _ _ _ _ _ (fetchBytes_ok hs ‹_›)
    | exact fetchBytes_ok hs ‹_›

theorem elemAt_ok {g : Engine} {core : Nat} {s s1 : State} {d : Desc} {r c : Nat} {x : Elem} (h : s.mem.wf = true)
    (e : elemAt g core s d r c = .ok (s1, x)) : s1.mem.wf = true := ExceptWf.of (elemAt_memWf _ _ _ _ _ _ h) e

@[simp] theorem laneElems_memWf (g : Engine) (core : Nat) (s : State) (d : Desc) (wide : Bool) (r : Nat) (c : Nat) (hs
    : s.mem.wf = true) : ExceptWf Prod.fst (laneElems g core s d wide r c) := by
  unfold laneElems
  split
  · trivial
  · have h1 := elemAt_ok hs ‹_›
    (repeat' split) <;> first
      | trivial
      | exact elemAt_ok h1 ‹_›
      | exact h1

@[simp] theorem fetchLanes_memWf (g : Engine) (core : Nat) (d : Desc) (wide : Bool) (s : State) (ls : List (Nat × Nat
    × Nat × Nat)) (hs : s.mem.wf = true) : ExceptWf Prod.fst (fetchLanes g core d wide s ls) := by
  induction ls generalizing s with
  | nil => exact hs
  | cons x rest ih =>
    obtain ⟨u, l, r, c⟩ := x
    unfold fetchLanes
    (repeat' split) <;> first
      | trivial
      | exact ExceptWf.fst (ih _ (ExceptWf.fst (laneElems_memWf _ _ _ _ _ _ _ hs) ‹_›)) ‹_›

@[simp] theorem startMatrix_memWf (u : IssueUnit) (h : Head) (w : State) (tiles : List Nat) (r : Result) (hw :
    w.mem.wf = true) : EffectWf (startMatrix u h w tiles r) := by
  unfold startMatrix; simp [*]

@[simp] theorem reserveAll_mem (s : State) (u : IssueUnit) (d : Reg) : (reserveAll s u d).mem = s.mem := by
  unfold reserveAll; simp

@[simp] theorem mmaEffect_memWf (u : IssueUnit) (h : Head) (r : State) (w : State) (aFmt : Nat) (sparse : Bool) (d :
    Tile) (a : Tile) (b : Tile) (c : Tile) (sat : Bool) (bs : Bool) (hw : w.mem.wf = true) :
    EffectWf (mmaEffect u h r w aFmt sparse d a b c sat bs) := by
  unfold mmaEffect; (try dsimp only); (repeat' split) <;> simp [*]

@[simp] theorem utility_memWf (u : IssueUnit) (h : Head) (r : State) (w : State) (tiles : List Nat) (f : Result) (hw :
    w.mem.wf = true) : EffectWf (utility u h r w tiles f) := by
  unfold utility startMatrix; (repeat' split) <;> first
    | trivial
    | simp [hw]

@[simp] theorem ttrsStart_memWf (u : IssueUnit) (h : Head) (r : State) (w : State) (d : Tile) (a : Tile) (k : Nat)
    (fx16 : Bool) (order : Mat → Mat) (f : Mat → List Int → List Int × Half) (hw : w.mem.wf =
    true) : EffectWf (ttrsStart u h r w d a k fx16 order f) := by
  unfold ttrsStart; simp [*]

@[simp] theorem addWarp_mem (s : State) (w : Warp) : (addWarp s w).mem = s.mem := by
  unfold addWarp; simp

@[simp] theorem enterBlock_memWf (s : State) (kid : Nat) (id : Nat) (k : Kernel) (b : Block) (hs : s.mem.wf = true) :
    (enterBlock s kid id k b).mem.wf = true := by
  unfold enterBlock; simp [*]

@[simp] theorem noteRunning_memWf (s : State) (k : Kernel) (hs : s.mem.wf = true) :
    (noteRunning s k).mem.wf = true := by
  unfold noteRunning; split <;> simp [*]

@[simp] theorem placeOn_memWf (s : State) (kid : Nat) (k : Kernel) (cores : List Nat) (hs : s.mem.wf = true) :
    (placeOn s kid k cores).mem.wf = true := by
  unfold placeOn; exact foldl_memWf _ (fun _ _ _ => by (repeat' split) <;> simp [*]) _ _ (by simp [*])

@[simp] theorem startAdmission_memWf (s : State) (kid : Nat) (command : Nat) (a : Ask) (cores : List Nat) (hs :
    s.mem.wf = true) : (startAdmission s kid command a cores).mem.wf = true := by
  unfold startAdmission; exact foldl_memWf _ (fun _ _ _ => by (repeat' split) <;> simp [*]) _ _ (by simp [*])

@[simp] theorem releaseHeld_mem (s : State) (cores : List Nat) : (releaseHeld s cores).mem = s.mem := by
  unfold releaseHeld; exact foldl_mem _ (fun _ _ => by (repeat' split) <;> simp) _ _

@[simp] theorem startPlacement_memWf (s : State) (p : Partition) (kid : Nat) (k : Kernel) (hs : s.mem.wf = true) :
    (startPlacement s p kid k).mem.wf = true := by
  unfold startPlacement; (try dsimp only); (repeat' split) <;> first
    | (simp [*]; done)
    | exact foldl_memWf _ (fun _ _ _ => by (repeat' split) <;> simp [*]) _ _ (by simp [*])

@[simp] theorem finishPlacement_memWf (s : State) (ks : List (Nat × Nat)) (hs : s.mem.wf = true) :
    (finishPlacement s ks).mem.wf = true := by
  unfold finishPlacement; (try dsimp only); (repeat' split) <;> simp [*]

@[simp] theorem takeRecords_mem (s : State) (part : Nat) (core : Nat) (rs : List SpawnRec) :
    (takeRecords s part core rs).mem = s.mem := by
  unfold takeRecords; simp

@[simp] theorem startPacked_mem (s : State) (part : Nat) (core : Nat) (k : Kernel) (rs : List SpawnRec) :
    (startPacked s part core k rs).mem = s.mem := by
  unfold startPacked; simp

@[simp] theorem headerWait_memWf (s : State) (uid : Nat) (i : Nat) (w : Warp) (p : Split) (header : Word) (hs :
    s.mem.wf = true) : (headerWait s uid i w p header).mem.wf = true := by
  unfold headerWait; (try dsimp only); (repeat' split) <;> simp [*]

@[simp] theorem headerArrive_memWf (s : State) (uid : Nat) (i : Nat) (w : Warp) (p : Split) (header : Word) (hs :
    s.mem.wf = true) : (headerArrive s uid i w p header).mem.wf = true := by
  unfold headerArrive; (try dsimp only); (repeat' split) <;> simp [*]

@[simp] theorem headerFetch_memWf (s : State) (uid : Nat) (i : Nat) (w : Warp) (p : Split) (hs : s.mem.wf = true) :
    (headerFetch s uid i w p).mem.wf = true := by
  unfold headerFetch; (repeat' split) <;> first
    | exact headerWait_memWf _ _ _ _ _ _ hs
    | exact takeTrap_memWf _ _ _ _ hs
    | exact headerArrive_memWf _ _ _ _ _ _ (fetchWord_ok hs ‹_›)
    | exact fetchWord_ok hs ‹_›

@[simp] theorem cacheWalk_mem (s : State) (part : Nat) (asid : Nat) (va : Word) (accs : List Acc) :
    (cacheWalk s part asid va accs).mem = s.mem := by
  unfold cacheWalk; split <;> simp

@[simp] theorem copyFrame_memWf (s : State) (k : Key) (src : Nat) (dst : Nat) (hs : s.mem.wf = true) :
    (copyFrame s k src dst).mem.wf = true := by
  unfold copyFrame; simp [*]

@[simp] theorem dropFetched_mem (s : State) (gone : Nat → Bool) : (dropFetched s gone).mem = s.mem := rfl

@[simp] theorem moveFrame_memWf (s : State) (part : Nat) (k : Key) (w : Walk) (old new : Nat) (hs : s.mem.wf = true) :
    (moveFrame s part k w old new).mem.wf = true := by
  unfold moveFrame; rw [dropFetched_mem]; exact writeLeaf_memWf _ _ _ _ (copyFrame_memWf _ _ _ _ hs)

@[simp] theorem movePage_memWf (s : State) (part : Nat) (asid : Nat) (va : Word) (k : Key) (w : Walk) (old : Nat)
    (e : Word × Half) (hs : s.mem.wf = true) : (movePage s part asid va k w old e).mem.wf = true := by
  unfold movePage; simp [hs]

@[simp] theorem answerPeer_mem (s : State) (k : Asker) (status : Nat) (bs : List Byte) :
    (answerPeer s k status bs).mem = s.mem := by
  unfold answerPeer; simp

@[simp] theorem answerFault_mem (s : State) (k : Asker) (cause : Nat) : (answerFault s k cause).mem = s.mem := by
  unfold answerFault; simp

@[simp] theorem answerLater_mem (s : State) (k : Asker) : (answerLater s k).mem = s.mem := by
  unfold answerLater; simp

@[simp] theorem answerRetry_mem (s : State) (k : Asker) (asid : Nat) (va : Word) (acc : Acc) :
    (answerRetry s k asid va acc).mem = s.mem := by
  unfold answerRetry; simp

@[simp] theorem outsideBirth_memWf (s : State) (part : Nat) (p : Place) (hs : s.mem.wf = true) :
    OptionWf id (outsideBirth s part p) := by
  unfold outsideBirth; (repeat' split) <;> first
    | trivial
    | exact hs
    | exact birth_ok hs ‹_›

@[simp] theorem recallCopies_mem (s : State) (cs : List PeerCopy) (write : Bool) :
    (recallCopies s cs write).mem = s.mem := by
  unfold recallCopies; simp

@[simp] theorem listCopy_mem (s : State) (k : Asker) (p : Place) (own : Bool) : (listCopy s k p own).mem = s.mem := by
  unfold listCopy; split <;> simp

@[simp] theorem giveUp_mem (s : State) (part : Nat) (peer : Nat) (line : Nat) (keep : Bool) :
    (giveUp s part peer line keep).mem = s.mem := by
  rfl

@[simp] theorem wroteBack_mem (s : State) (k : Asker) (p : Place) : (wroteBack s k p).mem = s.mem := by
  unfold wroteBack; split <;> simp

@[simp] theorem leftLine_mem (s : State) (k : Asker) (p : Place) : (leftLine s k p).mem = s.mem := by
  unfold leftLine; split <;> simp

@[simp] theorem refreshLoads_mem (s : State) : (refreshLoads s).mem = s.mem := by
  rfl

@[simp] theorem performRemote_memWf (s : State) (k : Asker) (asid : Nat) (va : Word) (p : Place) (op : RemoteOp)
    (hs : s.mem.wf = true) : (performRemote s k asid va p op).mem.wf = true := by
  have hb := outsideBirth_memWf s k.part p hs
  unfold performRemote; dsimp only; (repeat' split) <;> first
    | (simp [hs]; done)
    | (rename_i h1; rw [h1] at hb; simp at hb; simp [hb]; done)
    | (rename_i h1 _; rw [h1] at hb; simp at hb; simp [hb]; done)

@[simp] theorem remoteWaits_memWf (s : State) (k : Asker) (p : Place) (op : RemoteOp) (hs : s.mem.wf = true) :
    OptionWf id (remoteWaits s k p op) := by
  unfold remoteWaits; (try dsimp only); (repeat' split) <;> simp [*]

@[simp] theorem serveRemote_memWf (s : State) (k : Asker) (asid : Nat) (va : Word) (op : RemoteOp) (hs : s.mem.wf = true) :
    (serveRemote s k asid va op).mem.wf = true := by
  unfold serveRemote
  dsimp only
  have h0 : ({ s with fab := { s.fab with refused := s.fab.refused.filter fun r => !r.names k va } } :
    State).mem.wf = true := hs
  generalize ({ s with fab := { s.fab with refused := s.fab.refused.filter fun r => !r.names k va } } :
    State) = t at h0 ⊢
  split
  · simp [h0]
  · split
    · simp [h0]
    · split
      · simp [h0]
      · split
        · simp [h0]
        · have h1 := resolve_ok h0 ‹_›
          split
          · rename_i h2; simpa using OptionWf.of (remoteWaits_memWf _ k _ op h1) h2
          · split <;> simp [h1]

@[simp] theorem answerAtom_mem (s : State) (m : FabMsg) (got : Nat → LaneGot) : (answerAtom s m got).mem = s.mem := by
  unfold answerAtom; (try dsimp only); (repeat' split) <;> simp

@[simp] theorem faultWork_mem (s : State) (line : Nat) (cause : Nat) : (faultWork s line cause).mem = s.mem := by
  unfold faultWork; simp

@[simp] theorem fabricFailure_mem (s : State) (part : Nat) (line : Nat) (cause : Nat) :
    (fabricFailure s part line cause).mem = s.mem := by
  unfold fabricFailure; simp

@[simp] theorem failAsk_mem (s : State) (line : Nat) (cause : Nat) : (failAsk s line cause).mem = s.mem := by
  unfold failAsk; simp

@[simp] theorem failMessage_mem (s : State) (cause : Nat) (m : FabMsg) : (failMessage s cause m).mem = s.mem := by
  unfold failMessage; split <;> simp

@[simp] theorem takeLine_mem (s : State) (line : Nat) (own : Bool) (bs : List Byte) :
    (takeLine s line own bs).mem = s.mem := by
  unfold takeLine; simp

@[simp] theorem recalledLine_mem (s : State) (line : Nat) (invalidate : Bool) :
    (recalledLine s line invalidate).mem = s.mem := by
  unfold recalledLine; (try dsimp only); (repeat' split) <;> simp

@[simp] theorem answered_mem (s : State) (m : FabMsg) (answer : PeerAnswer) : (answered s m answer).mem = s.mem := by
  unfold answered; (try dsimp only); (repeat' split) <;> simp

@[simp] theorem storeReleased_memWf (s : State) (m : FabMsg) (line : Nat) (bs : List Byte) (hs : s.mem.wf = true) :
    (storeReleased s m line bs).mem.wf = true := by
  unfold storeReleased
  dsimp only
  split
  · have h1 := resolve_ok hs ‹_›
    have hb := fun p => outsideBirth_memWf _ m.part p h1
    split
    · rename_i h2; have h3 := OptionWf.of (hb _) h2; simp at h3; simp [h3]
    · exact h1
  · exact hs

@[simp] theorem released_memWf (s : State) (m : FabMsg) (data : Option (List Byte)) (hs : s.mem.wf = true) :
    (released s m data).mem.wf = true := by
  unfold released
  split
  · cases data <;> simp [hs]
  · exact hs

@[simp] theorem acknowledged_mem (s : State) (m : FabMsg) : (acknowledged s m).mem = s.mem := by
  rfl

@[simp] theorem flushWaiting_mem (s : State) : (flushWaiting s).mem = s.mem := by
  unfold flushWaiting; simp

@[simp] theorem startRemap_mem (s : State) (plane : Nat) (as : List Nat) : (startRemap s plane as).mem = s.mem := by
  unfold startRemap; simp

@[simp] theorem planeDown_mem (s : State) (plane : Nat) : (planeDown s plane).mem = s.mem := by
  unfold planeDown; simp

@[simp] theorem planeUp_mem (s : State) (plane : Nat) : (planeUp s plane).mem = s.mem := by
  unfold planeUp; simp

@[simp] theorem State.setLink_mem (s : State) (n : Nat) (l : Link) : (State.setLink s n l).mem = s.mem := by
  unfold State.setLink; simp

@[simp] theorem flushHeld_mem (s : State) : (flushHeld s).mem = s.mem := by
  rfl

@[simp] theorem deliverFlit_mem (s : State) (n : Nat) (l : Link) (payload : List Byte) :
    (deliverFlit s n l payload).mem = s.mem := by
  unfold deliverFlit; simp

@[simp] theorem failLink_mem (s : State) (n : Nat) (l : Link) : (failLink s n l).mem = s.mem := by
  unfold failLink; simp

@[simp] theorem goodFlit_mem (s : State) (n : Nat) (l : Link) (payload : List Byte) (keyBit : Nat) (tagOk : Bool) :
    (goodFlit s n l payload keyBit tagOk).mem = s.mem := by
  unfold goodFlit; simp

@[simp] theorem keepDamaged_mem (s : State) (part : Nat) (n : Nat) (l : Link) (payload : List Byte) (keyBit : Nat) :
    (keepDamaged s part n l payload keyBit).mem = s.mem := by
  unfold keepDamaged; simp

@[simp] theorem zeroQuarters_memWf (s : State) (first : Nat) (count : Nat) (hs : s.mem.wf = true) :
    (zeroQuarters s first count).mem.wf = true := by
  unfold zeroQuarters; simp [*]

@[simp] theorem trainPlanes_mem (s : State) : (trainPlanes s).mem = s.mem := by
  unfold trainPlanes; simp

@[simp] theorem bringUp_memWf (s : State) (image : List Byte) :
    (bringUp s image).mem.wf = true := by
  unfold bringUp; dsimp only; split
  · rw [trainPlanes_mem]; rfl
  · rfl

@[simp] theorem enterRecovery_memWf (s : State) : (enterRecovery s).mem.wf = true := rfl

@[simp] theorem State.answer_mem (s : State) (code : Nat) (part : Nat) : (State.answer s code part).mem = s.mem := by
  unfold State.answer; simp

@[simp] theorem mailbox_memWf (s : State) (i : Instr) (cmd : Nat) (args : List Half) (part : Nat) (body : State → State)
    (hs : s.mem.wf = true) (hb : ∀ s : State, s.mem.wf = true → (body s).mem.wf = true) :
    (mailbox s i cmd args part body).mem.wf = true := by
  unfold mailbox; dsimp only; (repeat' split) <;> first
    | exact hs
    | (simp [hs]; done)
    | exact hb _ hs

@[simp] theorem dropFabric_mem (s : State) (part : Nat) :
    (dropFabric s part).mem = s.mem := by
  unfold dropFabric; (try dsimp only); (repeat' split) <;> simp

@[simp] theorem freshCores_mem (s : State) (first : Nat) (count : Nat) : (freshCores s first count).mem = s.mem := by
  unfold freshCores; simp

@[simp] theorem clearPartition_mem (s : State) (part : Nat) (bs : List Nat) : (clearPartition s part bs).mem = s.mem := by
  unfold clearPartition; simp

@[simp] theorem abortAll_memWf (s : State) (part : Nat) (hs : s.mem.wf = true) : (abortAll s part).mem.wf = true := by
  unfold abortAll; exact foldl_memWf _ (fun _ _ _ => by (repeat' split) <;> simp [*]) _ _ (by simp [*])

@[simp] theorem sendAtoms_mem (s : State) (part : Nat) : (sendAtoms s part).mem = s.mem := by
  unfold sendAtoms
  refine foldl_mem _ (fun _ _ => ?_) _ _
  split
  · refine foldl_mem _ (fun _ _ => ?_) _ _
    (repeat' split) <;> simp
  · rfl

@[simp] theorem endKernel_memWf (s : State) (id : Nat) (hs : s.mem.wf = true) : (endKernel s id).mem.wf = true := by
  unfold endKernel; split <;> simp [*]

@[simp] theorem endKernels_memWf (s : State) (part : Nat) (hs : s.mem.wf = true) :
    (endKernels s part).mem.wf = true := by
  unfold endKernels; exact foldl_memWf _ (fun _ _ _ => by (repeat' split) <;> simp [*]) _ _ (by simp [*])

@[simp] theorem stopCopies_memWf (s : State) (part : Nat) (hs : s.mem.wf = true) :
    (stopCopies s part).mem.wf = true := by
  unfold stopCopies
  refine foldl_memWf _ (fun t q ht => ?_) _ _ hs
  split
  · dsimp only; split
    · exact ht
    · simp [ht]
  · exact ht

@[simp] theorem swapCaches_mem (s : State) (part : Nat) (p : Partition) : (swapCaches s part p).mem = s.mem := by
  unfold swapCaches; simp

@[simp] theorem resumeWarps_mem (s : State) (part : Nat) : (resumeWarps s part).mem = s.mem := by
  unfold resumeWarps; simp

@[simp] theorem spdmReply_mem (s : State) (bs : List Nat) : (spdmReply s bs).mem = s.mem := by
  unfold spdmReply; simp

@[simp] theorem spdmError_mem (s : State) (code : Nat) : (spdmError s code).mem = s.mem := by
  unfold spdmError; simp

@[simp] theorem spdmAnswer_mem (s : State) (code : Nat) (what : Nat) (input : List Byte) (len : Nat) :
    (spdmAnswer s code what input len).mem = s.mem := by
  unfold spdmAnswer; simp

@[simp] theorem State.setSession_mem (s : State) (inst : Nat) (x : List Nat) :
    (State.setSession s inst x).mem = s.mem := by
  unfold State.setSession; simp

@[simp] theorem keyReply_mem (s : State) (code : Nat) : (keyReply s code).mem = s.mem := by
  unfold keyReply; simp

@[simp] theorem hostRecall_mem (s : State) (part : Nat) (pa : Nat) (write : Bool) :
    (hostRecall s part pa write).mem = s.mem := by
  unfold hostRecall; simp

@[simp] theorem hostWrite_memWf (s : State) (pa : Nat) (bs : List Byte) (hs : s.mem.wf = true) :
    (hostWrite s pa bs).mem.wf = true := by
  unfold hostWrite; split <;> simp [*]

@[simp] theorem hostRead_mem (s : State) (pa : Nat) (n : Nat) : (hostRead s pa n).mem = s.mem := by
  unfold hostRead; split <;> simp

@[simp] theorem hostAccess_memWf (s : State) (i : Instr) (pa : Nat) (write : Bool) (body : State → State)
    (hs : s.mem.wf = true) (hb : ∀ s : State, s.mem.wf = true → (body s).mem.wf = true) :
    (hostAccess s i pa write body).mem.wf = true := by
  unfold hostAccess; dsimp only; split
  · exact hb _ hs
  · simp [hs]

@[simp] theorem startMailbox_mem (s : State) (c : Nat) : (startMailbox s c).mem = s.mem := by
  unfold startMailbox; (try dsimp only); (repeat' split) <;> simp

@[simp] theorem barWrite_memWf (s : State) (o : Nat) (x : Half) (hs : s.mem.wf = true) :
    (barWrite s o x).mem.wf = true := by
  unfold barWrite; (try dsimp only); (repeat' split) <;> simp [*]

@[simp] theorem snapshot_mem (s : State) (o : Nat) : (snapshot s o).mem = s.mem := by
  unfold snapshot; split <;> simp

@[simp] theorem countClk_mem (s : State) (d : Nat) : (countClk s d).mem = s.mem := by
  unfold countClk; simp

@[simp] theorem countReady_mem (s : State) (d : Nat) : (countReady s d).mem = s.mem := by
  unfold countReady; simp

@[simp] theorem mapSplits_mem (s : State) (f : Nat → Warp → Nat → Split → Split) : (s.mapSplits f).mem = s.mem := rfl

@[simp] theorem passTime_mem (s : State) (d : Nat) : (passTime s d).mem = s.mem := by
  unfold passTime; simp

@[simp] theorem tick_mem (s : State) : (tick s).mem = s.mem := by
  unfold tick; simp

@[simp] theorem wordMove_memWf (s : State) (uid : Nat) (i : Nat) (w : Warp) (p : Split) (hs : s.mem.wf = true) :
    MoveWf (wordMove s uid i w p) := by
  unfold wordMove; dsimp only; (repeat' split) <;> first
    | (simp [hs]; done)
    | (simp [fetchWord_ok hs ‹_›]; done)

@[simp] theorem splitMove_memWf (s : State) (uid : Nat) (i : Nat) (w : Warp) (p : Split) (hs : s.mem.wf = true) :
    MoveWf (splitMove s uid i w p) := by
  unfold splitMove; dsimp only; (repeat' split) <;> first
    | (simp [hs]; done)
    | exact wordMove_memWf _ _ _ _ _ hs
    | exact wordMove_memWf _ _ _ _ _ (by simp [hs])

@[simp] theorem freshClk_mem (s : State) (port : Nat) :
    (freshClk s port).mem = s.mem := by
  unfold freshClk; (try dsimp only); (repeat' split) <;> simp

@[simp] theorem headerMove_memWf (s : State) (x : Nat × Warp × Nat × Split) (hs : s.mem.wf = true) :
    MoveWf (headerMove s x) := by
  unfold headerMove; simp [*]

@[simp] theorem portMove_memWf (s : State) (port : Nat) (hs : s.mem.wf = true) :
    MoveWf (portMove s port) := by
  unfold portMove; dsimp only; split
  · simpa using hs
  · exact splitMove_memWf _ _ _ _ _ (by simp [hs])

@[simp] theorem scanWaits_memWf (s : State) (hs : s.mem.wf = true) : (scanWaits s).mem.wf = true := by
  unfold scanWaits; exact settle_memWf _ (foldl_memWf _ (fun _ _ h => by simp [h]) _ _ hs)

@[simp] theorem idleMove_memWf (t : State) (ht : t.mem.wf = true) : MoveWf (idleMove t) := by
  unfold idleMove; dsimp only; split <;> simp [ht]

@[simp] theorem nextMove_memWf (s : State) (hs : s.mem.wf = true) : MoveWf (nextMove s) := by
  unfold nextMove; dsimp only; (repeat' split) <;> first
    | (simp [hs]; done)
    | exact portMove_memWf _ _ _ (by simp [hs])
    | exact idleMove_memWf _ (by simp [hs])

@[simp] theorem placeWord_memWf (s : State) (w : Nat) (hs : s.mem.wf = true) : (placeWord s w).mem.wf = true := by
  unfold placeWord; exact setCells_wf _ _ hs

@[simp] theorem State.withFetchWord_memWf (s : State) (x_nbits : Nat) (w : Nat) (hs : s.mem.wf = true) :
    (State.withFetchWord s x_nbits w).mem.wf = true := by
  unfold State.withFetchWord; simp [*]

end Sys2Proof.Machine
end

