-- ==== Sys2Proof/Laws/Frames.lean ====
section
/-! SUPPORT. What the operations of memory accesses leave of warps and kernels, and of the bytes they do not write. -/

namespace Sys2Proof.Machine

theorem foldl_keeps {α : Type} (f : State → α → State)
    (hf : ∀ s a, (f s a).warps = s.warps ∧ (f s a).kernels = s.kernels) (l : List α) (s : State) :
    (l.foldl f s).warps = s.warps ∧ (l.foldl f s).kernels = s.kernels := by
  induction l generalizing s with
  | nil => exact ⟨rfl, rfl⟩
  | cons a r ih => exact ⟨(ih _).1.trans (hf _ _).1, (ih _).2.trans (hf _ _).2⟩

@[simp] theorem State.ite_warps (c : Prop) [Decidable c] (s t : State) :
    (if c then s else t).warps = if c then s.warps else t.warps := by split <;> rfl

@[simp] theorem State.ite_kernels (c : Prop) [Decidable c] (s t : State) :
    (if c then s else t).kernels = if c then s.kernels else t.kernels := by split <;> rfl

@[simp] theorem writeCells_keeps (s : State) (k : Key) (cells : List (Nat × Byte)) :
    (writeCells s k cells).warps = s.warps ∧ (writeCells s k cells).kernels = s.kernels := ⟨rfl, rfl⟩

@[simp] theorem writeBytes_keeps (s : State) (k : Key) (pa : Nat) (bs : List Byte) :
    (writeBytes s k pa bs).warps = s.warps ∧ (writeBytes s k pa bs).kernels = s.kernels := ⟨rfl, rfl⟩

@[simp] theorem zeroFill_keeps (s : State) (k : Key) (pa : Nat) (n : Nat) :
    (zeroFill s k pa n).warps = s.warps ∧ (zeroFill s k pa n).kernels = s.kernels :=
  by
  unfold zeroFill; (repeat' split) <;> simp

@[simp] theorem recallL1_keeps (s : State) (at_ : Nat → Bool) (line : Nat) (write : Bool) :
    (recallL1 s at_ line write).warps = s.warps ∧ (recallL1 s at_ line write).kernels = s.kernels := ⟨rfl, rfl⟩

@[simp] theorem recallStash_keeps (s : State) (keep : Option Nat) (line : Nat) :
    (recallStash s keep line).warps = s.warps ∧ (recallStash s keep line).kernels = s.kernels := ⟨rfl, rfl⟩

@[simp] theorem recallLine_keeps (s : State) (part : Nat) (keep : Option Nat) (line : Nat) (write : Bool) :
    (recallLine s part keep line write).warps = s.warps ∧ (recallLine s part keep line write).kernels = s.kernels := by
  unfold recallLine; (try dsimp only); (repeat' split) <;> simp

@[simp] theorem devTouch_keeps (s : State) (part : Nat) (pa : Nat) :
    (devTouch s part pa).warps = s.warps ∧ (devTouch s part pa).kernels = s.kernels := by
  unfold devTouch; (try dsimp only); (repeat' split) <;> simp

@[simp] theorem devTouchAll_keeps (s : State) (part : Nat) (as : List Nat) :
    (devTouchAll s part as).warps = s.warps ∧ (devTouchAll s part as).kernels = s.kernels := foldl_keeps _ (fun _ _ => devTouch_keeps ..) _ _

@[simp] theorem devWrite_keeps (s : State) (part : Nat) (pa : Nat) (bs : List Byte) :
    (devWrite s part pa bs).warps = s.warps ∧ (devWrite s part pa bs).kernels = s.kernels := by
  unfold devWrite; split
  · exact ⟨rfl, rfl⟩
  · have h := foldl_keeps _ (fun s l => recallLine_keeps s part none l true) (cellLines (cellsFrom pa bs)) s
    simpa using h

@[simp] theorem countSent_keeps (s : State) (plane : Nat) :
    (countSent s plane).warps = s.warps ∧ (countSent s plane).kernels = s.kernels := by
  unfold countSent; split <;> exact ⟨rfl, rfl⟩

@[simp] theorem sendMsg_keeps (s : State) (m : FabMsg) :
    (sendMsg s m).warps = s.warps ∧ (sendMsg s m).kernels = s.kernels := by
  unfold sendMsg; (try dsimp only); (repeat' split) <;> simp

@[simp] theorem sendOnce_keeps (s : State) (m : FabMsg) :
    (sendOnce s m).warps = s.warps ∧ (sendOnce s m).kernels = s.kernels := by
  unfold sendOnce; (try dsimp only); (repeat' split) <;> simp

@[simp] theorem askPeer_keeps (s : State) (w : Want) :
    (askPeer s w).warps = s.warps ∧ (askPeer s w).kernels = s.kernels := by
  unfold askPeer; split
  · simp
  · simp
  · exact foldl_keeps _ (fun _ _ => sendOnce_keeps ..) _ _

@[simp] theorem askAll_keeps (s : State) (ws : List Want) :
    (askAll s ws).warps = s.warps ∧ (askAll s ws).kernels = s.kernels := foldl_keeps _ (fun _ _ => askPeer_keeps ..) _ _

@[simp] theorem evictFabric_keeps (s : State) (line : Nat) :
    (evictFabric s line).warps = s.warps ∧ (evictFabric s line).kernels = s.kernels := by
  unfold evictFabric; dsimp only; (repeat' split) <;> simp [dropLlc, dropCopies]

@[simp] theorem recallPeers_keeps (s : State) (gone : Nat → Bool) :
    (recallPeers s gone).warps = s.warps ∧ (recallPeers s gone).kernels = s.kernels := foldl_keeps _ (fun _ _ => sendOnce_keeps ..) _ _

@[simp] theorem fabricWrite_keeps (s : State) (k : Key) (a : Nat) (b : Byte) :
    (fabricWrite s k a b).warps = s.warps ∧ (fabricWrite s k a b).kernels = s.kernels := ⟨rfl, rfl⟩

@[simp] theorem writePlace_keeps (s : State) (part : Nat) (p : Place) (bs : List Byte) :
    (writePlace s part p bs).warps = s.warps ∧ (writePlace s part p bs).kernels = s.kernels :=
  by
  unfold writePlace; split <;> first
    | exact foldl_keeps _ (fun _ _ => fabricWrite_keeps ..) _ _
    | simp

@[simp] theorem writePlaces_keeps (s : State) (part : Nat) (ws : List (Place × List Byte)) :
    (writePlaces s part ws).warps = s.warps ∧ (writePlaces s part ws).kernels = s.kernels :=
  foldl_keeps _ (fun _ _ => writePlace_keeps ..) _ _

@[simp] theorem State.draw_keeps (s : State) :
    (State.draw s).warps = s.warps ∧ (State.draw s).kernels = s.kernels := ⟨rfl, rfl⟩

@[simp] theorem writeLeaf_keeps (s : State) (part : Nat) (w : Walk) (e : Word) :
    (writeLeaf s part w e).warps = s.warps ∧ (writeLeaf s part w e).kernels = s.kernels :=
  by
  unfold writeLeaf; (repeat' split) <;> simp

@[simp] theorem walkTouch_keeps (s : State) (part : Nat) (asid : Nat) (va : Word) :
    (walkTouch s part asid va).warps = s.warps ∧ (walkTouch s part asid va).kernels = s.kernels := by
  unfold walkTouch; (try dsimp only); (repeat' split) <;> simp

@[simp] theorem zeroFrame_keeps (s : State) (part : Nat) (k : Key) (base : Nat) (n : Nat) :
    (zeroFrame s part k base n).warps = s.warps ∧ (zeroFrame s part k base n).kernels = s.kernels := by
  unfold zeroFrame; split <;> exact ⟨rfl, rfl⟩

theorem walkFor_keeps {s s1 : State} {part asid : Nat} {va : Word} {acc : Acc} {x : Xlat}
    (e : walkFor s part asid va acc = .ok (s1, x)) : s1.warps = s.warps ∧ s1.kernels = s.kernels := by
  unfold walkFor at e; dsimp only at e; (repeat' split at e) <;> cases e <;> simp

theorem xlate_keeps {s s1 : State} {part asid : Nat} {va : Word} {acc : Acc} {x : Xlat}
    (e : xlate s part asid va acc = .ok (s1, x)) : s1.warps = s.warps ∧ s1.kernels = s.kernels := by
  unfold xlate at e; (repeat' split at e) <;> first
    | exact walkFor_keeps e
    | (cases e; done)
    | (cases e; exact ⟨rfl, rfl⟩)

@[simp] theorem reestablish_keeps (s : State) (part : Nat) (asid : Nat) (va : Word) (k : Key) :
    (reestablish s part asid va k).warps = s.warps ∧ (reestablish s part asid va k).kernels = s.kernels :=
  by
  unfold reestablish; (repeat' split) <;> simp

theorem framePlace_keeps {s s1 : State} {part asid : Nat} {va : Word} {acc : Acc} {x : Xlat} {k : Key} {p : Place}
    (e : framePlace s part asid va acc x k = .ok (s1, p)) : s1.warps = s.warps ∧ s1.kernels = s.kernels := by
  unfold framePlace at e; dsimp only at e; (repeat' split at e) <;> first
    | (cases e; done)
    | (cases e; exact ⟨rfl, rfl⟩)
    | (cases e; rename_i h; have h1 := walkFor_keeps h; simpa using h1)

theorem absentPlace_keeps {s s1 : State} {acc : Acc} {p : Place} (e : absentPlace s acc = .ok (s1, p)) :
    s1.warps = s.warps ∧ s1.kernels = s.kernels := by
  unfold absentPlace at e; split at e <;> cases e <;> exact ⟨rfl, rfl⟩

theorem keyedPlace_keeps {s s1 : State} {part asid : Nat} {va : Word} {acc : Acc} {x : Xlat} {k : Key} {p : Place}
    (e : keyedPlace s part asid va acc x k = .ok (s1, p)) : s1.warps = s.warps ∧ s1.kernels = s.kernels := by
  unfold keyedPlace at e; dsimp only at e; (repeat' split at e) <;> first
    | exact framePlace_keeps e
    | (cases e; done)
    | (cases e; exact ⟨rfl, rfl⟩)

theorem classPlace_keeps {s s1 : State} {part asid : Nat} {va : Word} {acc : Acc} {x : Xlat} {p : Place}
    (e : classPlace s part asid va acc x = .ok (s1, p)) : s1.warps = s.warps ∧ s1.kernels = s.kernels := by
  unfold classPlace at e; (repeat' split at e) <;> first
    | exact absentPlace_keeps e
    | exact keyedPlace_keeps e
    | (cases e; done)

theorem resolve_keeps {s s1 : State} {part asid blk n : Nat} {ea : Word} {acc : Acc} {p : Place}
    (e : resolve s part asid blk ea n acc = .ok (s1, p)) : s1.warps = s.warps ∧ s1.kernels = s.kernels := by
  unfold resolve at e; (repeat' split at e) <;> first
    | (cases e; done)
    | (cases e; exact ⟨rfl, rfl⟩)
    | exact ⟨(classPlace_keeps e).1.trans (xlate_keeps ‹_›).1, (classPlace_keeps e).2.trans (xlate_keeps ‹_›).2⟩

@[simp] theorem notePage_keeps (s : State) (part : Nat) (asid : Nat) (uid : Nat) (l : Nat) (va : Word) :
    (notePage s part asid uid l va).warps = s.warps ∧ (notePage s part asid uid l va).kernels = s.kernels := by
  unfold notePage; (try dsimp only); (repeat' split) <;> simp

theorem resolveLane_keeps {s s1 : State} {part asid blk uid l n : Nat} {ea : Word} {acc : Acc} {p : Place}
    (e : resolveLane s part asid blk uid l ea n acc = .ok (s1, p)) : s1.warps = s.warps ∧ s1.kernels = s.kernels := by
  unfold resolveLane at e
  cases h : (if inAperture ea ∨ 2 ^ 56 ≤ ea.toNat then none else lastPage s part uid l ea acc) with
  | some r => rw [h] at e; exact classPlace_keeps e
  | none =>
    rw [h] at e
    dsimp only at e
    split at e
    · cases e
      have h1 := resolve_keeps ‹_›
      simpa using h1
    · cases e

@[simp] theorem State.mapRegion_keeps (s : State) (part : Nat) (r : Nat) (f : Region → Region) :
    (State.mapRegion s part r f).warps = s.warps ∧ (State.mapRegion s part r f).kernels = s.kernels :=
  by unfold State.mapRegion; simp

@[simp] theorem takeBack_keeps (s : State) (part : Nat) (r : Nat) (q : Quarantined) :
    (takeBack s part r q).1.warps = s.warps ∧ (takeBack s part r q).1.kernels = s.kernels := State.mapRegion_keeps ..

theorem popFree_keeps {s : State} {part : Nat} {g : Region} {x : State × Nat} (e : popFree s part g = some x) :
    x.1.warps = s.warps ∧ x.1.kernels = s.kernels := by
  unfold popFree at e
  dsimp only at e
  (repeat' split at e) <;> cases e
  simp

theorem takeKept_keeps {s : State} {part r : Nat} {g : Region} {home : Option Nat} {x : State × Nat}
    (e : takeKept s part r g home = some x) : x.1.warps = s.warps ∧ x.1.kernels = s.kernels := by
  unfold takeKept at e
  dsimp only at e
  split at e
  · cases e; simp
  · obtain ⟨q, -, rfl⟩ := Option.map_eq_some_iff.mp e
    exact takeBack_keeps ..

theorem carveFree_keeps {s : State} {part r home : Nat} {g : Region} {x : State × Nat} (e : carveFree s part r g home = some x) :
    x.1.warps = s.warps ∧ x.1.kernels = s.kernels := by
  unfold carveFree at e
  obtain ⟨y, hy, e⟩ := Option.bind_eq_some_iff.mp e
  split at e <;> cases e
  simpa using popFree_keeps hy

theorem takeStorage_keeps {s s1 : State} {part r t pa : Nat} (e : takeStorage s part r t = some (s1, pa)) :
    s1.warps = s.warps ∧ s1.kernels = s.kernels := by
  unfold takeStorage at e
  split at e
  · cases e
  · dsimp only at e
    rcases h1 : takeKept s part r _ (some (homeOf s part r t)) with _ | x
    · rw [h1] at e
      rcases h2 : carveFree s part r _ (homeOf s part r t) with _ | y
      · rw [h2] at e
        exact takeKept_keeps (show takeKept s part r _ none = some (s1, pa) by simpa using e)
      · rw [h2] at e
        have h3 : y = (s1, pa) := by simpa using e
        have h4 := carveFree_keeps h2
        rw [h3] at h4; exact h4
    · rw [h1] at e
      have h3 : x = (s1, pa) := by simpa using e
      have h4 := takeKept_keeps h1
      rw [h3] at h4; exact h4

@[simp] theorem dropTile_keeps (s : State) (part : Nat) (r : Nat) (t : Nat) (pa : Nat) (n : Nat) :
    (dropTile s part r t pa n).warps = s.warps ∧ (dropTile s part r t pa n).kernels = s.kernels := by
  unfold dropTile; exact (recallPeers_keeps ..)

@[simp] theorem installTile_keeps (s : State) (part : Nat) (r : Nat) (t : Nat) (pa : Nat) (k : Key) :
    (installTile s part r t pa k).warps = s.warps ∧ (installTile s part r t pa k).kernels = s.kernels :=
  by
  unfold installTile; (repeat' split) <;> simp

@[simp] theorem reserveTile_keeps (s : State) (part : Nat) (r : Nat) (t : Nat) (pa : Nat) :
    (reserveTile s part r t pa).warps = s.warps ∧ (reserveTile s part r t pa).kernels = s.kernels :=
  by unfold reserveTile; simp

@[simp] theorem births_keeps (now : Bool) (s : State) (part : Nat) (l : List (Nat × Nat × Key)) (extra : Tab Nat) :
    (births now s part l extra).1.warps = s.warps ∧ (births now s part l extra).1.kernels = s.kernels := by
  induction l generalizing s extra with
  | nil => simp [births]
  | cons c rest ih =>
    obtain ⟨r, t, k⟩ := c
    unfold births
    dsimp only
    (repeat' split) <;> first
      | exact ih _ _
      | simpa [ih] using takeStorage_keeps ‹_›

@[simp] theorem State.event_keeps (s : State) (core : Nat) (block : Option Nat) (src : Nat) (n : Nat) :
    (State.event s core block src n).warps = s.warps ∧ (State.event s core block src n).kernels = s.kernels :=
  by
  unfold State.event; (repeat' split) <;> simp

@[simp] theorem State.dieEvent_keeps (s : State) (core : Nat) (src : Nat) (n : Nat) :
    (State.dieEvent s core src n).warps = s.warps ∧ (State.dieEvent s core src n).kernels = s.kernels :=
  by
  unfold State.dieEvent; split
  · exact ⟨rfl, rfl⟩
  · exact foldl_keeps _ (fun _ _ => by dsimp only; split <;> simp) _ _

@[simp] theorem dropL1_keeps (s : State) (die : Nat) (line : Nat) :
    (dropL1 s die line).warps = s.warps ∧ (dropL1 s die line).kernels = s.kernels := ⟨rfl, rfl⟩

@[simp] theorem flit_keeps (s : State) (src : Nat) (dst : Nat) (line : Nat) :
    (flit s src dst line).warps = s.warps ∧ (flit s src dst line).kernels = s.kernels := by
  unfold flit; (try dsimp only); (repeat' split) <;> simp

@[simp] theorem l2Use_keeps (s : State) (part : Nat) (die : Nat) (line : Nat) (pol : Policy) (own : Bool) :
    (l2Use s part die line pol own).warps = s.warps ∧ (l2Use s part die line pol own).kernels = s.kernels := by
  unfold l2Use; dsimp only; (repeat' split) <;> first
    | (simp; done)
    | (simp only [State.mapPart_warps, State.mapPart_kernels]; cases (fillSet _ _ _ _ _).2 <;> (try dsimp only) <;> (repeat' split) <;> simp)

@[simp] theorem recallFlits_keeps (s : State) (part : Nat) (keep : Option Nat) (line : Nat) (write : Bool) :
    (recallFlits s part keep line write).warps = s.warps ∧ (recallFlits s part keep line write).kernels = s.kernels := by
  unfold recallFlits; (repeat' split) <;> first
    | exact ⟨rfl, rfl⟩
    | exact foldl_keeps _ (fun _ _ => by simp) _ _

@[simp] theorem recallOthers_keeps (s : State) (part : Nat) (core : Nat) (line : Nat) (write : Bool) :
    (recallOthers s part core line write).warps = s.warps ∧ (recallOthers s part core line write).kernels = s.kernels :=
  by unfold recallOthers; simp

@[simp] theorem arriveHome_keeps (s : State) (part : Nat) (who : Option (Nat × Word)) (line : Nat) (pol : Policy) :
    (arriveHome s part who line pol).warps = s.warps ∧ (arriveHome s part who line pol).kernels = s.kernels :=
  by unfold arriveHome; simp

@[simp] theorem crossDies_keeps (s : State) (part : Nat) (core : Nat) (line : Nat) :
    (crossDies s part core line).warps = s.warps ∧ (crossDies s part core line).kernels = s.kernels :=
  by unfold crossDies; simp

@[simp] theorem State.countErr_keeps (s : State) (source : Nat) (part : Nat) (i : Nat) (a : Word) :
    (State.countErr s source part i a).warps = s.warps ∧ (State.countErr s source part i a).kernels = s.kernels := by
  unfold State.countErr; (try dsimp only); (repeat' split) <;> simp

@[simp] theorem coreArrives_keeps (s : State) (part : Nat) (core : Nat) (block : Nat) (who : Option (Nat × Word))
    (line : Nat) (pol : Policy) :
    (coreArrives s part core block who line pol).warps = s.warps ∧ (coreArrives s part core block who line pol).kernels = s.kernels := by
  unfold coreArrives; (try dsimp only); (repeat' split) <;> simp

@[simp] theorem throughL2_keeps (s : State) (part : Nat) (core : Nat) (block : Nat) (who : Option (Nat × Word)) (line
    : Nat) (pol : Policy) (own : Bool) :
    (throughL2 s part core block who line pol own).warps = s.warps ∧ (throughL2 s part core block who line pol own).kernels = s.kernels := by
  unfold throughL2; (try dsimp only); (repeat' split) <;> simp

@[simp] theorem cacheAccess_keeps (s : State) (part : Nat) (core : Nat) (block : Nat) (who : Option (Nat × Word))
    (line : Nat) (pol0 : Policy) (write : Bool) :
    (cacheAccess s part core block who line pol0 write).warps = s.warps ∧ (cacheAccess s part core block who line pol0 write).kernels = s.kernels := by
  unfold cacheAccess; (try dsimp only); (repeat' split) <;> simp

@[simp] theorem pastL1_keeps (s : State) (part : Nat) (core : Nat) (block : Nat) (who : Option (Nat × Word)) (line :
    Nat) (write : Bool) :
    (pastL1 s part core block who line write).warps = s.warps ∧ (pastL1 s part core block who line write).kernels = s.kernels := by
  unfold pastL1; (try dsimp only); (repeat' split) <;> simp

@[simp] theorem checkLane_keeps (u : IssueUnit) (s : State) (uid l : Nat) (ea : Word) (size align : Nat) (acc : Acc) :
    (checkLane u s uid l ea size align acc).1.warps = s.warps ∧ (checkLane u s uid l ea size align acc).1.kernels = s.kernels := by
  unfold checkLane; (repeat' split) <;> first
    | exact ⟨rfl, rfl⟩
    | exact resolveLane_keeps ‹_›

@[simp] theorem checkLanes_keeps (u : IssueUnit) (size align : Nat) (acc : Acc) (s : State) (l : List (UPart × Nat × Word)) :
    (checkLanes u size align acc s l).1.warps = s.warps ∧ (checkLanes u size align acc s l).1.kernels = s.kernels := by
  induction l generalizing s with
  | nil => exact ⟨rfl, rfl⟩
  | cons c rest ih => exact ⟨(ih _).1.trans (checkLane_keeps ..).1, (ih _).2.trans (checkLane_keeps ..).2⟩

@[simp] theorem touchWindow_keeps (s : State) (part : Nat) (core : Nat) (block : Nat) (who : Option (Nat × Word)) (n :
    Nat) (line : Nat) (write : Bool) :
    (touchWindow s part core block who n line write).warps = s.warps ∧ (touchWindow s part core block who n line write).kernels = s.kernels := by
  unfold touchWindow; (try dsimp only); (repeat' split) <;> simp

@[simp] theorem touch_keeps (s : State) (u : IssueUnit) (pol : Policy) (write : Bool) (line : Nat) (a : LaneAcc) :
    (touch s u pol write line a).warps = s.warps ∧ (touch s u pol write line a).kernels = s.kernels := by
  unfold touch; (try dsimp only); (repeat' split) <;> simp

@[simp] theorem touchAll_keeps (s : State) (u : IssueUnit) (pol : Policy) (write : Bool) (as : List LaneAcc) :
    (touchAll s u pol write as).warps = s.warps ∧ (touchAll s u pol write as).kernels = s.kernels := foldl_keeps _ (fun _ _ => touch_keeps ..) _ _

@[simp] theorem loseFabric_keeps (s : State) (line : Nat) :
    (loseFabric s line).warps = s.warps ∧ (loseFabric s line).kernels = s.kernels := by
  unfold loseFabric; (try dsimp only); (repeat' split) <;> simp

@[simp] theorem takeFaulted_keeps (s : State) (ws : List Want) :
    (takeFaulted s ws).warps = s.warps ∧ (takeFaulted s ws).kernels = s.kernels := foldl_keeps _ (fun _ _ => by dsimp only; split <;> simp) _ _

@[simp] theorem touchText_keeps (s : State) (part asid blk : Nat) (va : Word) (p : Place) :
    (touchText s part asid blk va p).warps = s.warps ∧ (touchText s part asid blk va p).kernels = s.kernels := by
  unfold touchText; dsimp only; split <;> simp

theorem fetchWord_keeps {s s1 : State} {part asid blk : Nat} {va x : Word} (e : fetchWord s part asid blk va = .ok (s1, x)) :
    s1.warps = s.warps ∧ s1.kernels = s.kernels := by
  unfold fetchWord at e
  (repeat' split at e) <;> cases e
  rename_i h _
  simp [resolve_keeps h]

theorem rereadHeader_keeps {s s0 : State} {w : Warp} {v : Saved} {tpc : Word} {y : Word × Option Nat}
    (h : rereadHeader s w v tpc = (s0, y)) : s0.warps = s.warps ∧ s0.kernels = s.kernels := by
  unfold rereadHeader at h
  (repeat' split at h) <;> cases h <;> first
    | exact ⟨rfl, rfl⟩
    | exact fetchWord_keeps ‹_›

/-! ## Bytes that are not written -/

theorem setCells_num (m : Tab Byte) (cs : List (Nat × Byte)) (pa : Nat) (h : ∀ c ∈ cs, c.1 ≠ pa) :
    (setCells m cs).num pa = m.num pa := by
  unfold setCells
  induction cs generalizing m with
  | nil => rfl
  | cons c r ih =>
    rw [List.foldl_cons, ih _ fun d hd => h d (List.mem_cons_of_mem _ hd), Tab.num_setNum,
      if_neg fun e => h c (List.mem_cons_self ..) e.symm]

/-- A write event changes no byte but those of its cells; under a key, none outside their lines. -/
theorem writeCells_num (s : State) (k : Key) (cs : List (Nat × Byte)) (pa : Nat)
    (h : ∀ c ∈ cs, if k = none then c.1 ≠ pa else c.1 / 128 ≠ pa / 128) : (writeCells s k cs).mem.num pa = s.mem.num pa := by
  unfold writeCells
  cases k with
  | none => exact setCells_num _ _ _ fun c hc => by simpa using h c hc
  | some k =>
    refine setCells_num _ _ _ fun c hc e => ?_
    obtain ⟨l, hl, hc⟩ := List.mem_flatten.1 hc
    obtain ⟨n, hn, rfl⟩ := List.mem_map.1 hl
    obtain ⟨d, hd, rfl⟩ := List.mem_map.1 (List.mem_dedup.1 hn)
    have h1 := h d hd
    obtain ⟨i, hi, rfl⟩ := List.mem_map.1 hc
    have hi := List.mem_range.1 hi
    simp only [reduceCtorEq, if_false] at h1
    have e : 128 * (d.1 / 128) + i = pa := e
    omega

/-- Writing a place changes no byte but those of its cells. -/
theorem writePlace_num (s : State) (part : Nat) (p : Place) (bs : List Byte) (pa : Nat)
    (h : ∀ c ∈ placeCells s part p bs, if p.key = none then c.1 ≠ pa else c.1 / 128 ≠ pa / 128) :
    (writePlace s part p bs).mem.num pa = s.mem.num pa := by
  unfold writePlace
  split
  · simp
  · simp
  · rfl
  · rfl
  · exact writeCells_num _ _ _ _ h

/-- The cells of a place depend on the partition's regions alone. -/
theorem placeCells_congr {s t : State} (h : t.parts = s.parts) (part : Nat) (p : Place) (bs : List Byte) :
    placeCells t part p bs = placeCells s part p bs := by
  unfold placeCells State.region?
  rw [h]

@[simp] theorem writePlace_parts (s : State) (part : Nat) (p : Place) (bs : List Byte) :
    (writePlace s part p bs).parts = s.parts := by
  unfold writePlace
  split
  · simp
  · generalize cellsFrom _ _ = cs
    induction cs generalizing s with
    | nil => rfl
    | cons c r ih => rw [List.foldl_cons, ih]; rfl
  · rfl
  · rfl
  · rfl

/-- The writes of several lanes change no byte but those of their cells. -/
theorem writePlaces_num (s : State) (part : Nat) (ws : List (Place × List Byte)) (pa : Nat)
    (h : ∀ w ∈ ws, ∀ c ∈ placeCells s part w.1 w.2, if w.1.key = none then c.1 ≠ pa else c.1 / 128 ≠ pa / 128) :
    (writePlaces s part ws).mem.num pa = s.mem.num pa := by
  unfold writePlaces
  show (ws.foldl (fun s w => writePlace s part w.1 w.2) s).mem.num pa = _
  induction ws generalizing s with
  | nil => rfl
  | cons w r ih =>
    rw [List.foldl_cons, ih, writePlace_num _ _ _ _ _ (h w (List.mem_cons_self ..))]
    intro x hx c hc
    rw [placeCells_congr (writePlace_parts ..)] at hc
    exact h x (List.mem_cons_of_mem _ hx) c hc

end Sys2Proof.Machine
end

