-- ==== Sys2Proof/Laws/PerInstr.lean ====
section
/-! SUPPORT. One lemma per constructor: what the encoder writes into the fields of a well-formed instruction, the
decoder reads back. -/

namespace Sys2Proof.Laws.FieldsReadBack

/-- The fields of a well-formed instruction's word have their widths, and the decoder reads the common fields and
the operand fields back as they were. -/
def Statement (i : Instr) : Prop :=
  i.wf = true → ∀ h, i.head = some h →
    Fits (raw i h) ∧ (raw i h).head h.flag = h ∧ body i.opcode h (raw i h) = some (.ok i)

/-- An instruction without a word has no fields. -/
theorem no_word {i : Instr} (e : i.head = none) : Statement i := fun _ h k => by rw [e] at k; cases k

theorem add (h : Head) (t : AddTy) (d : Reg) (a : Reg) (b : Reg) : Statement (.add h t d a b) := by
  intro hw g k
  cases k
  obtain ⟨hA, hB, hC, hw⟩ : lastUseOk h.luA (some a) = true ∧ lastUseOk h.luB (some b) = true
      ∧ lastUseOk h.luC none = true ∧ (RegClass.ok (if t.wide then .pair else .write) d && RegClass.ok (if t.wide then .pair else .read) a && RegClass.ok (if t.wide then .pair else .read) b) = true := wf_parts rfl hw
  simp only [Bool.and_eq_true] at hw
  obtain ⟨⟨w0, w1⟩, w2⟩ := hw
  obtain ⟨r, hr⟩ : ∃ r, raw (.add h t d a b) h = r := ⟨_, rfl⟩
  have ef : r.f = glue [(12, 0), (8, 0)] := by subst hr; rfl
  have ec : r.c = 0 := by simp only [Raw.c, ef, glue]; omega
  have em : r.m = 0 := by simp only [Raw.m, ef, glue]; omega
  have ed : r.d = d.code := by subst hr; rfl
  have ea : r.a = a.code := by subst hr; rfl
  have eb : r.b = b.code := by subst hr; rfl
  have elu : r.lu = h.lu := by subst hr; exact Nat.zero_add _
  have hl : r.lastUseOk true true false = true :=
    lastUse_checked (h := h) elu
      (fun e => ⟨rfl, ea ▸ marked hA e⟩) (fun e => ⟨rfl, eb ▸ marked hB e⟩) (unmarked hC)
  have fd := regField_code 0 (w0)
  have fa := regField_code 1 (w1)
  have fb := regField_code 2 (w2)
  refine ⟨⟨by show (raw _ h).f < _; rw [hr, ef]; simp only [glue]; omega, by show (raw _ h).lu < _; rw [hr, elu]; exact lu_lt h,
    (code_lt b), (code_lt a), (code_lt d)⟩, head_of (by rw [hr, elu])
    (show 0x0 + t.code ≠ 0x100 by cases t <;> decide) (show 0x0 + t.code ≠ 0x102 by cases t <;> decide), ?_⟩
  show body (0x0 + t.code) h (raw _ h) = _
  rw [hr]; clear hr ef
  cases t <;>
    (unfold body bodyInt
     simp only [ec, ed, ea, eb, hl, chk_of, someBind, beq_self_eq_true, ↓reduceIte, Nat.reduceLT, Nat.reduceAdd, Nat.reduceSub, fd, fa, fb, AddTy.code, AddTy.of, em]
     rfl)

theorem sub (h : Head) (t : AddTy) (d : Reg) (a : Reg) (b : Reg) : Statement (.sub h t d a b) := by
  intro hw g k
  cases k
  obtain ⟨hA, hB, hC, hw⟩ : lastUseOk h.luA (some a) = true ∧ lastUseOk h.luB (some b) = true
      ∧ lastUseOk h.luC none = true ∧ (RegClass.ok (if t.wide then .pair else .write) d && RegClass.ok (if t.wide then .pair else .read) a && RegClass.ok (if t.wide then .pair else .read) b) = true := wf_parts rfl hw
  simp only [Bool.and_eq_true] at hw
  obtain ⟨⟨w0, w1⟩, w2⟩ := hw
  obtain ⟨r, hr⟩ : ∃ r, raw (.sub h t d a b) h = r := ⟨_, rfl⟩
  have ef : r.f = glue [(12, 0), (8, 0)] := by subst hr; rfl
  have ec : r.c = 0 := by simp only [Raw.c, ef, glue]; omega
  have em : r.m = 0 := by simp only [Raw.m, ef, glue]; omega
  have ed : r.d = d.code := by subst hr; rfl
  have ea : r.a = a.code := by subst hr; rfl
  have eb : r.b = b.code := by subst hr; rfl
  have elu : r.lu = h.lu := by subst hr; exact Nat.zero_add _
  have hl : r.lastUseOk true true false = true :=
    lastUse_checked (h := h) elu
      (fun e => ⟨rfl, ea ▸ marked hA e⟩) (fun e => ⟨rfl, eb ▸ marked hB e⟩) (unmarked hC)
  have fd := regField_code 0 (w0)
  have fa := regField_code 1 (w1)
  have fb := regField_code 2 (w2)
  refine ⟨⟨by show (raw _ h).f < _; rw [hr, ef]; simp only [glue]; omega, by show (raw _ h).lu < _; rw [hr, elu]; exact lu_lt h,
    (code_lt b), (code_lt a), (code_lt d)⟩, head_of (by rw [hr, elu])
    (show 0x4 + t.code ≠ 0x100 by cases t <;> decide) (show 0x4 + t.code ≠ 0x102 by cases t <;> decide), ?_⟩
  show body (0x4 + t.code) h (raw _ h) = _
  rw [hr]; clear hr ef
  cases t <;>
    (unfold body bodyInt
     simp only [ec, ed, ea, eb, hl, chk_of, someBind, beq_self_eq_true, ↓reduceIte, Nat.reduceLT, Nat.reduceAdd, Nat.reduceSub, fd, fa, fb, AddTy.code, AddTy.of, em]
     rfl)

theorem addsat (h : Head) (t : SatTy) (d : Reg) (a : Reg) (b : Reg) : Statement (.addsat h t d a b) := by
  intro hw g k
  cases k
  obtain ⟨hA, hB, hC, hw⟩ : lastUseOk h.luA (some a) = true ∧ lastUseOk h.luB (some b) = true
      ∧ lastUseOk h.luC none = true ∧ (RegClass.ok .write d) = true := wf_parts rfl hw
  have w0 := hw
  obtain ⟨r, hr⟩ : ∃ r, raw (.addsat h t d a b) h = r := ⟨_, rfl⟩
  have ef : r.f = glue [(12, 0), (8, 0)] := by subst hr; rfl
  have ec : r.c = 0 := by simp only [Raw.c, ef, glue]; omega
  have em : r.m = 0 := by simp only [Raw.m, ef, glue]; omega
  have ed : r.d = d.code := by subst hr; rfl
  have ea : r.a = a.code := by subst hr; rfl
  have eb : r.b = b.code := by subst hr; rfl
  have elu : r.lu = h.lu := by subst hr; exact Nat.zero_add _
  have hl : r.lastUseOk true true false = true :=
    lastUse_checked (h := h) elu
      (fun e => ⟨rfl, ea ▸ marked hA e⟩) (fun e => ⟨rfl, eb ▸ marked hB e⟩) (unmarked hC)
  have fd := regField_code 0 (w0)
  have fa := regField_code 1 (read_ok a)
  have fb := regField_code 2 (read_ok b)
  refine ⟨⟨by show (raw _ h).f < _; rw [hr, ef]; simp only [glue]; omega, by show (raw _ h).lu < _; rw [hr, elu]; exact lu_lt h,
    (code_lt b), (code_lt a), (code_lt d)⟩, head_of (by rw [hr, elu])
    (show 0x8 + t.code ≠ 0x100 by cases t <;> decide) (show 0x8 + t.code ≠ 0x102 by cases t <;> decide), ?_⟩
  show body (0x8 + t.code) h (raw _ h) = _
  rw [hr]; clear hr ef
  cases t <;>
    (unfold body bodyInt
     simp only [ec, ed, ea, eb, hl, chk_of, someBind, beq_self_eq_true, ↓reduceIte, Nat.reduceLT, Nat.reduceAdd, Nat.reduceSub, fd, fa, fb, SatTy.code, SatTy.of, em]
     rfl)

theorem subsat (h : Head) (t : SatTy) (d : Reg) (a : Reg) (b : Reg) : Statement (.subsat h t d a b) := by
  intro hw g k
  cases k
  obtain ⟨hA, hB, hC, hw⟩ : lastUseOk h.luA (some a) = true ∧ lastUseOk h.luB (some b) = true
      ∧ lastUseOk h.luC none = true ∧ (RegClass.ok .write d) = true := wf_parts rfl hw
  have w0 := hw
  obtain ⟨r, hr⟩ : ∃ r, raw (.subsat h t d a b) h = r := ⟨_, rfl⟩
  have ef : r.f = glue [(12, 0), (8, 0)] := by subst hr; rfl
  have ec : r.c = 0 := by simp only [Raw.c, ef, glue]; omega
  have em : r.m = 0 := by simp only [Raw.m, ef, glue]; omega
  have ed : r.d = d.code := by subst hr; rfl
  have ea : r.a = a.code := by subst hr; rfl
  have eb : r.b = b.code := by subst hr; rfl
  have elu : r.lu = h.lu := by subst hr; exact Nat.zero_add _
  have hl : r.lastUseOk true true false = true :=
    lastUse_checked (h := h) elu
      (fun e => ⟨rfl, ea ▸ marked hA e⟩) (fun e => ⟨rfl, eb ▸ marked hB e⟩) (unmarked hC)
  have fd := regField_code 0 (w0)
  have fa := regField_code 1 (read_ok a)
  have fb := regField_code 2 (read_ok b)
  refine ⟨⟨by show (raw _ h).f < _; rw [hr, ef]; simp only [glue]; omega, by show (raw _ h).lu < _; rw [hr, elu]; exact lu_lt h,
    (code_lt b), (code_lt a), (code_lt d)⟩, head_of (by rw [hr, elu])
    (show 0xc + t.code ≠ 0x100 by cases t <;> decide) (show 0xc + t.code ≠ 0x102 by cases t <;> decide), ?_⟩
  show body (0xc + t.code) h (raw _ h) = _
  rw [hr]; clear hr ef
  cases t <;>
    (unfold body bodyInt
     simp only [ec, ed, ea, eb, hl, chk_of, someBind, beq_self_eq_true, ↓reduceIte, Nat.reduceLT, Nat.reduceAdd, Nat.reduceSub, fd, fa, fb, SatTy.code, SatTy.of, em]
     rfl)

theorem min (h : Head) (t : MinTy) (d : Reg) (a : Reg) (b : Reg) : Statement (.min h t d a b) := by
  intro hw g k
  cases k
  obtain ⟨hA, hB, hC, hw⟩ : lastUseOk h.luA (some a) = true ∧ lastUseOk h.luB (some b) = true
      ∧ lastUseOk h.luC none = true ∧ (RegClass.ok (if t.wide then .pair else .write) d && RegClass.ok (if t.wide then .pair else .read) a && RegClass.ok (if t.wide then .pair else .read) b) = true := wf_parts rfl hw
  simp only [Bool.and_eq_true] at hw
  obtain ⟨⟨w0, w1⟩, w2⟩ := hw
  obtain ⟨r, hr⟩ : ∃ r, raw (.min h t d a b) h = r := ⟨_, rfl⟩
  have ef : r.f = glue [(12, 0), (8, 0)] := by subst hr; rfl
  have ec : r.c = 0 := by simp only [Raw.c, ef, glue]; omega
  have em : r.m = 0 := by simp only [Raw.m, ef, glue]; omega
  have ed : r.d = d.code := by subst hr; rfl
  have ea : r.a = a.code := by subst hr; rfl
  have eb : r.b = b.code := by subst hr; rfl
  have elu : r.lu = h.lu := by subst hr; exact Nat.zero_add _
  have hl : r.lastUseOk true true false = true :=
    lastUse_checked (h := h) elu
      (fun e => ⟨rfl, ea ▸ marked hA e⟩) (fun e => ⟨rfl, eb ▸ marked hB e⟩) (unmarked hC)
  have fd := regField_code 0 (w0)
  have fa := regField_code 1 (w1)
  have fb := regField_code 2 (w2)
  refine ⟨⟨by show (raw _ h).f < _; rw [hr, ef]; simp only [glue]; omega, by show (raw _ h).lu < _; rw [hr, elu]; exact lu_lt h,
    (code_lt b), (code_lt a), (code_lt d)⟩, head_of (by rw [hr, elu])
    (show 0x1a + t.code ≠ 0x100 by cases t <;> decide) (show 0x1a + t.code ≠ 0x102 by cases t <;> decide), ?_⟩
  show body (0x1a + t.code) h (raw _ h) = _
  rw [hr]; clear hr ef
  cases t <;>
    (unfold body bodyInt
     simp only [ec, ed, ea, eb, hl, chk_of, someBind, beq_self_eq_true, ↓reduceIte, Nat.reduceLT, Nat.reduceAdd, Nat.reduceSub, fd, fa, fb, MinTy.code, MinTy.of, em]
     rfl)

theorem max (h : Head) (t : MinTy) (d : Reg) (a : Reg) (b : Reg) : Statement (.max h t d a b) := by
  intro hw g k
  cases k
  obtain ⟨hA, hB, hC, hw⟩ : lastUseOk h.luA (some a) = true ∧ lastUseOk h.luB (some b) = true
      ∧ lastUseOk h.luC none = true ∧ (RegClass.ok (if t.wide then .pair else .write) d && RegClass.ok (if t.wide then .pair else .read) a && RegClass.ok (if t.wide then .pair else .read) b) = true := wf_parts rfl hw
  simp only [Bool.and_eq_true] at hw
  obtain ⟨⟨w0, w1⟩, w2⟩ := hw
  obtain ⟨r, hr⟩ : ∃ r, raw (.max h t d a b) h = r := ⟨_, rfl⟩
  have ef : r.f = glue [(12, 0), (8, 0)] := by subst hr; rfl
  have ec : r.c = 0 := by simp only [Raw.c, ef, glue]; omega
  have em : r.m = 0 := by simp only [Raw.m, ef, glue]; omega
  have ed : r.d = d.code := by subst hr; rfl
  have ea : r.a = a.code := by subst hr; rfl
  have eb : r.b = b.code := by subst hr; rfl
  have elu : r.lu = h.lu := by subst hr; exact Nat.zero_add _
  have hl : r.lastUseOk true true false = true :=
    lastUse_checked (h := h) elu
      (fun e => ⟨rfl, ea ▸ marked hA e⟩) (fun e => ⟨rfl, eb ▸ marked hB e⟩) (unmarked hC)
  have fd := regField_code 0 (w0)
  have fa := regField_code 1 (w1)
  have fb := regField_code 2 (w2)
  refine ⟨⟨by show (raw _ h).f < _; rw [hr, ef]; simp only [glue]; omega, by show (raw _ h).lu < _; rw [hr, elu]; exact lu_lt h,
    (code_lt b), (code_lt a), (code_lt d)⟩, head_of (by rw [hr, elu])
    (show 0x20 + t.code ≠ 0x100 by cases t <;> decide) (show 0x20 + t.code ≠ 0x102 by cases t <;> decide), ?_⟩
  show body (0x20 + t.code) h (raw _ h) = _
  rw [hr]; clear hr ef
  cases t <;>
    (unfold body bodyInt
     simp only [ec, ed, ea, eb, hl, chk_of, someBind, beq_self_eq_true, ↓reduceIte, Nat.reduceLT, Nat.reduceAdd, Nat.reduceSub, fd, fa, fb, MinTy.code, MinTy.of, em]
     rfl)

theorem abs (h : Head) (t : AbsTy) (d : Reg) (a : Reg) : Statement (.abs h t d a) := by
  intro hw g k
  cases k
  obtain ⟨hA, hB, hC, hw⟩ : lastUseOk h.luA (some a) = true ∧ lastUseOk h.luB none = true
      ∧ lastUseOk h.luC none = true ∧ (RegClass.ok .write d) = true := wf_parts rfl hw
  have w0 := hw
  obtain ⟨r, hr⟩ : ∃ r, raw (.abs h t d a) h = r := ⟨_, rfl⟩
  have ef : r.f = glue [(12, 0), (8, 0)] := by subst hr; rfl
  have ec : r.c = 0 := by simp only [Raw.c, ef, glue]; omega
  have em : r.m = 0 := by simp only [Raw.m, ef, glue]; omega
  have ed : r.d = d.code := by subst hr; rfl
  have ea : r.a = a.code := by subst hr; rfl
  have eb : r.b = 0 := by subst hr; rfl
  have elu : r.lu = h.lu := by subst hr; exact Nat.zero_add _
  have hl : r.lastUseOk true false false = true :=
    lastUse_checked (h := h) elu
      (fun e => ⟨rfl, ea ▸ marked hA e⟩) (unmarked hB) (unmarked hC)
  have fd := regField_code 0 (w0)
  have fa := regField_code 1 (read_ok a)
  refine ⟨⟨by show (raw _ h).f < _; rw [hr, ef]; simp only [glue]; omega, by show (raw _ h).lu < _; rw [hr, elu]; exact lu_lt h,
    (Nat.zero_lt_succ _), (code_lt a), (code_lt d)⟩, head_of (by rw [hr, elu])
    (show 0x26 + t.code ≠ 0x100 by cases t <;> decide) (show 0x26 + t.code ≠ 0x102 by cases t <;> decide), ?_⟩
  show body (0x26 + t.code) h (raw _ h) = _
  rw [hr]; clear hr ef
  cases t <;>
    (unfold body bodyInt
     simp only [ec, ed, ea, eb, hl, chk_of, someBind, beq_self_eq_true, ↓reduceIte, Nat.reduceLT, Nat.reduceAdd, Nat.reduceSub, fd, fa, AbsTy.code, AbsTy.of, em]
     rfl)

theorem mul (h : Head) (d : Reg) (a : Reg) (b : Reg) : Statement (.mul h d a b) := by
  intro hw g k
  cases k
  obtain ⟨hA, hB, hC, hw⟩ : lastUseOk h.luA (some a) = true ∧ lastUseOk h.luB (some b) = true
      ∧ lastUseOk h.luC none = true ∧ (RegClass.ok .write d) = true := wf_parts rfl hw
  have w0 := hw
  obtain ⟨r, hr⟩ : ∃ r, raw (.mul h d a b) h = r := ⟨_, rfl⟩
  have ef : r.f = glue [(12, 0), (8, 0)] := by subst hr; rfl
  have ec : r.c = 0 := by simp only [Raw.c, ef, glue]; omega
  have em : r.m = 0 := by simp only [Raw.m, ef, glue]; omega
  have ed : r.d = d.code := by subst hr; rfl
  have ea : r.a = a.code := by subst hr; rfl
  have eb : r.b = b.code := by subst hr; rfl
  have elu : r.lu = h.lu := by subst hr; exact Nat.zero_add _
  have hl : r.lastUseOk true true false = true :=
    lastUse_checked (h := h) elu
      (fun e => ⟨rfl, ea ▸ marked hA e⟩) (fun e => ⟨rfl, eb ▸ marked hB e⟩) (unmarked hC)
  have fd := regField_code 0 (w0)
  have fa := regField_code 1 (read_ok a)
  have fb := regField_code 2 (read_ok b)
  refine ⟨⟨by show (raw _ h).f < _; rw [hr, ef]; simp only [glue]; omega, by show (raw _ h).lu < _; rw [hr, elu]; exact lu_lt h,
    (code_lt b), (code_lt a), (code_lt d)⟩, head_of (by rw [hr, elu])
    (show 0x10 ≠ 0x100 by decide) (show 0x10 ≠ 0x102 by decide), ?_⟩
  show body (0x10) h (raw _ h) = _
  rw [hr]; clear hr ef
  unfold body bodyInt
  simp only [ec, ed, ea, eb, hl, chk_of, someBind, beq_self_eq_true, ↓reduceIte, Nat.reduceLT, fd, fa, fb, em]
  rfl

theorem mulhi (h : Head) (t : Sgn) (d : Reg) (a : Reg) (b : Reg) : Statement (.mulhi h t d a b) := by
  intro hw g k
  cases k
  obtain ⟨hA, hB, hC, hw⟩ : lastUseOk h.luA (some a) = true ∧ lastUseOk h.luB (some b) = true
      ∧ lastUseOk h.luC none = true ∧ (RegClass.ok .write d) = true := wf_parts rfl hw
  have w0 := hw
  obtain ⟨r, hr⟩ : ∃ r, raw (.mulhi h t d a b) h = r := ⟨_, rfl⟩
  have ef : r.f = glue [(12, 0), (8, 0)] := by subst hr; rfl
  have ec : r.c = 0 := by simp only [Raw.c, ef, glue]; omega
  have em : r.m = 0 := by simp only [Raw.m, ef, glue]; omega
  have ed : r.d = d.code := by subst hr; rfl
  have ea : r.a = a.code := by subst hr; rfl
  have eb : r.b = b.code := by subst hr; rfl
  have elu : r.lu = h.lu := by subst hr; exact Nat.zero_add _
  have hl : r.lastUseOk true true false = true :=
    lastUse_checked (h := h) elu
      (fun e => ⟨rfl, ea ▸ marked hA e⟩) (fun e => ⟨rfl, eb ▸ marked hB e⟩) (unmarked hC)
  have fd := regField_code 0 (w0)
  have fa := regField_code 1 (read_ok a)
  have fb := regField_code 2 (read_ok b)
  refine ⟨⟨by show (raw _ h).f < _; rw [hr, ef]; simp only [glue]; omega, by show (raw _ h).lu < _; rw [hr, elu]; exact lu_lt h,
    (code_lt b), (code_lt a), (code_lt d)⟩, head_of (by rw [hr, elu])
    (show 0x11 + t.code ≠ 0x100 by cases t <;> decide) (show 0x11 + t.code ≠ 0x102 by cases t <;> decide), ?_⟩
  show body (0x11 + t.code) h (raw _ h) = _
  rw [hr]; clear hr ef
  cases t <;>
    (unfold body bodyInt
     simp only [ec, ed, ea, eb, hl, chk_of, someBind, beq_self_eq_true, ↓reduceIte, Nat.reduceLT, Nat.reduceAdd, Nat.reduceSub, fd, fa, fb, Sgn.code, Sgn.of, em]
     rfl)

theorem mad (h : Head) (d : Reg) (a : Reg) (b : Reg) (c : Reg) : Statement (.mad h d a b c) := by
  intro hw g k
  cases k
  obtain ⟨hA, hB, hC, hw⟩ : lastUseOk h.luA (some a) = true ∧ lastUseOk h.luB (some b) = true
      ∧ lastUseOk h.luC (some c) = true ∧ (RegClass.ok .write d) = true := wf_parts rfl hw
  have w0 := hw
  obtain ⟨r, hr⟩ : ∃ r, raw (.mad h d a b c) h = r := ⟨_, rfl⟩
  have ef : r.f = glue [(12, 0), (8, c.code)] := by subst hr; rfl
  have ec : r.c = c.code := by simp only [Raw.c, ef, glue]; omega
  have em : r.m = 0 := by simp only [Raw.m, ef, glue]; omega
  have ed : r.d = d.code := by subst hr; rfl
  have ea : r.a = a.code := by subst hr; rfl
  have eb : r.b = b.code := by subst hr; rfl
  have elu : r.lu = h.lu := by subst hr; exact Nat.zero_add _
  have hl : r.lastUseOk true true true = true :=
    lastUse_checked (h := h) elu
      (fun e => ⟨rfl, ea ▸ marked hA e⟩) (fun e => ⟨rfl, eb ▸ marked hB e⟩) (fun e => ⟨rfl, ec ▸ marked hC e⟩)
  have fd := regField_code 0 (w0)
  have fa := regField_code 1 (read_ok a)
  have fb := regField_code 2 (read_ok b)
  have fc := regField_code 3 (read_ok c)
  refine ⟨⟨by have qc := code_lt c; show (raw _ h).f < _; rw [hr, ef]; simp only [glue]; omega, by show (raw _ h).lu < _; rw [hr, elu]; exact lu_lt h,
    (code_lt b), (code_lt a), (code_lt d)⟩, head_of (by rw [hr, elu])
    (show 0x13 ≠ 0x100 by decide) (show 0x13 ≠ 0x102 by decide), ?_⟩
  show body (0x13) h (raw _ h) = _
  rw [hr]; clear hr ef
  unfold body bodyInt
  simp only [ec, ed, ea, eb, hl, chk_of, someBind, beq_self_eq_true, ↓reduceIte, Nat.reduceLT, fd, fa, fb, fc, em]
  rfl

theorem madw (h : Head) (t : Sgn) (d : Reg) (a : Reg) (b : Reg) (c : Reg) : Statement (.madw h t d a b c) := by
  intro hw g k
  cases k
  obtain ⟨hA, hB, hC, hw⟩ : lastUseOk h.luA (some a) = true ∧ lastUseOk h.luB (some b) = true
      ∧ lastUseOk h.luC (some c) = true ∧ (RegClass.ok .pair d && RegClass.ok .pair c) = true := wf_parts rfl hw
  simp only [Bool.and_eq_true] at hw
  obtain ⟨w0, w1⟩ := hw
  obtain ⟨r, hr⟩ : ∃ r, raw (.madw h t d a b c) h = r := ⟨_, rfl⟩
  have ef : r.f = glue [(12, 0), (8, c.code)] := by subst hr; rfl
  have ec : r.c = c.code := by simp only [Raw.c, ef, glue]; omega
  have em : r.m = 0 := by simp only [Raw.m, ef, glue]; omega
  have ed : r.d = d.code := by subst hr; rfl
  have ea : r.a = a.code := by subst hr; rfl
  have eb : r.b = b.code := by subst hr; rfl
  have elu : r.lu = h.lu := by subst hr; exact Nat.zero_add _
  have hl : r.lastUseOk true true true = true :=
    lastUse_checked (h := h) elu
      (fun e => ⟨rfl, ea ▸ marked hA e⟩) (fun e => ⟨rfl, eb ▸ marked hB e⟩) (fun e => ⟨rfl, ec ▸ marked hC e⟩)
  have fd := regField_code 0 (w0)
  have fa := regField_code 1 (read_ok a)
  have fb := regField_code 2 (read_ok b)
  have fc := regField_code 3 (w1)
  refine ⟨⟨by have qc := code_lt c; show (raw _ h).f < _; rw [hr, ef]; simp only [glue]; omega, by show (raw _ h).lu < _; rw [hr, elu]; exact lu_lt h,
    (code_lt b), (code_lt a), (code_lt d)⟩, head_of (by rw [hr, elu])
    (show 0x14 + t.code ≠ 0x100 by cases t <;> decide) (show 0x14 + t.code ≠ 0x102 by cases t <;> decide), ?_⟩
  show body (0x14 + t.code) h (raw _ h) = _
  rw [hr]; clear hr ef
  cases t <;>
    (unfold body bodyInt
     simp only [ec, ed, ea, eb, hl, chk_of, someBind, beq_self_eq_true, ↓reduceIte, Nat.reduceLT, Nat.reduceAdd, Nat.reduceSub, fd, fa, fb, fc, Sgn.code, Sgn.of, em]
     rfl)

theorem idiv (h : Head) (t : Sgn) (d : Reg) (a : Reg) (b : Reg) : Statement (.idiv h t d a b) := by
  intro hw g k
  cases k
  obtain ⟨hA, hB, hC, hw⟩ : lastUseOk h.luA (some a) = true ∧ lastUseOk h.luB (some b) = true
      ∧ lastUseOk h.luC none = true ∧ (RegClass.ok .write d) = true := wf_parts rfl hw
  have w0 := hw
  obtain ⟨r, hr⟩ : ∃ r, raw (.idiv h t d a b) h = r := ⟨_, rfl⟩
  have ef : r.f = glue [(12, 0), (8, 0)] := by subst hr; rfl
  have ec : r.c = 0 := by simp only [Raw.c, ef, glue]; omega
  have em : r.m = 0 := by simp only [Raw.m, ef, glue]; omega
  have ed : r.d = d.code := by subst hr; rfl
  have ea : r.a = a.code := by subst hr; rfl
  have eb : r.b = b.code := by subst hr; rfl
  have elu : r.lu = h.lu := by subst hr; exact Nat.zero_add _
  have hl : r.lastUseOk true true false = true :=
    lastUse_checked (h := h) elu
      (fun e => ⟨rfl, ea ▸ marked hA e⟩) (fun e => ⟨rfl, eb ▸ marked hB e⟩) (unmarked hC)
  have fd := regField_code 0 (w0)
  have fa := regField_code 1 (read_ok a)
  have fb := regField_code 2 (read_ok b)
  refine ⟨⟨by show (raw _ h).f < _; rw [hr, ef]; simp only [glue]; omega, by show (raw _ h).lu < _; rw [hr, elu]; exact lu_lt h,
    (code_lt b), (code_lt a), (code_lt d)⟩, head_of (by rw [hr, elu])
    (show 0x16 + t.code ≠ 0x100 by cases t <;> decide) (show 0x16 + t.code ≠ 0x102 by cases t <;> decide), ?_⟩
  show body (0x16 + t.code) h (raw _ h) = _
  rw [hr]; clear hr ef
  cases t <;>
    (unfold body bodyInt
     simp only [ec, ed, ea, eb, hl, chk_of, someBind, beq_self_eq_true, ↓reduceIte, Nat.reduceLT, Nat.reduceAdd, Nat.reduceSub, fd, fa, fb, Sgn.code, Sgn.of, em]
     rfl)

theorem irem (h : Head) (t : Sgn) (d : Reg) (a : Reg) (b : Reg) : Statement (.irem h t d a b) := by
  intro hw g k
  cases k
  obtain ⟨hA, hB, hC, hw⟩ : lastUseOk h.luA (some a) = true ∧ lastUseOk h.luB (some b) = true
      ∧ lastUseOk h.luC none = true ∧ (RegClass.ok .write d) = true := wf_parts rfl hw
  have w0 := hw
  obtain ⟨r, hr⟩ : ∃ r, raw (.irem h t d a b) h = r := ⟨_, rfl⟩
  have ef : r.f = glue [(12, 0), (8, 0)] := by subst hr; rfl
  have ec : r.c = 0 := by simp only [Raw.c, ef, glue]; omega
  have em : r.m = 0 := by simp only [Raw.m, ef, glue]; omega
  have ed : r.d = d.code := by subst hr; rfl
  have ea : r.a = a.code := by subst hr; rfl
  have eb : r.b = b.code := by subst hr; rfl
  have elu : r.lu = h.lu := by subst hr; exact Nat.zero_add _
  have hl : r.lastUseOk true true false = true :=
    lastUse_checked (h := h) elu
      (fun e => ⟨rfl, ea ▸ marked hA e⟩) (fun e => ⟨rfl, eb ▸ marked hB e⟩) (unmarked hC)
  have fd := regField_code 0 (w0)
  have fa := regField_code 1 (read_ok a)
  have fb := regField_code 2 (read_ok b)
  refine ⟨⟨by show (raw _ h).f < _; rw [hr, ef]; simp only [glue]; omega, by show (raw _ h).lu < _; rw [hr, elu]; exact lu_lt h,
    (code_lt b), (code_lt a), (code_lt d)⟩, head_of (by rw [hr, elu])
    (show 0x18 + t.code ≠ 0x100 by cases t <;> decide) (show 0x18 + t.code ≠ 0x102 by cases t <;> decide), ?_⟩
  show body (0x18 + t.code) h (raw _ h) = _
  rw [hr]; clear hr ef
  cases t <;>
    (unfold body bodyInt
     simp only [ec, ed, ea, eb, hl, chk_of, someBind, beq_self_eq_true, ↓reduceIte, Nat.reduceLT, Nat.reduceAdd, Nat.reduceSub, fd, fa, fb, Sgn.code, Sgn.of, em]
     rfl)

theorem dot2 (h : Head) (d : Reg) (a : Reg) (b : Reg) (c : Reg) (sat : Bool) : Statement (.dot2 h d a b c sat) := by
  intro hw g k
  cases k
  obtain ⟨hA, hB, hC, hw⟩ : lastUseOk h.luA (some a) = true ∧ lastUseOk h.luB (some b) = true
      ∧ lastUseOk h.luC (some c) = true ∧ (RegClass.ok .write d) = true := wf_parts rfl hw
  have w0 := hw
  obtain ⟨r, hr⟩ : ∃ r, raw (.dot2 h d a b c sat) h = r := ⟨_, rfl⟩
  have ef : r.f = glue [(1, sat.toNat), (11, 0), (8, c.code)] := by subst hr; rfl
  have q0 := toNat_lt sat
  have ec : r.c = c.code := by simp only [Raw.c, ef, glue]; omega
  have em : cut [1] r.m = [sat.toNat, 0] := by
    simp only [Raw.m, ef, glue, cut, List.cons.injEq]; refine ⟨?_, ?_, trivial⟩ <;> omega
  have ed : r.d = d.code := by subst hr; rfl
  have ea : r.a = a.code := by subst hr; rfl
  have eb : r.b = b.code := by subst hr; rfl
  have elu : r.lu = h.lu := by subst hr; exact Nat.zero_add _
  have hl : r.lastUseOk true true true = true :=
    lastUse_checked (h := h) elu
      (fun e => ⟨rfl, ea ▸ marked hA e⟩) (fun e => ⟨rfl, eb ▸ marked hB e⟩) (fun e => ⟨rfl, ec ▸ marked hC e⟩)
  have fd := regField_code 0 (w0)
  have fa := regField_code 1 (read_ok a)
  have fb := regField_code 2 (read_ok b)
  have fc := regField_code 3 (read_ok c)
  refine ⟨⟨by have qc := code_lt c; show (raw _ h).f < _; rw [hr, ef]; simp only [glue]; omega, by show (raw _ h).lu < _; rw [hr, elu]; exact lu_lt h,
    (code_lt b), (code_lt a), (code_lt d)⟩, head_of (by rw [hr, elu])
    (show 0x45 ≠ 0x100 by decide) (show 0x45 ≠ 0x102 by decide), ?_⟩
  show body (0x45) h (raw _ h) = _
  rw [hr]; clear hr ef
  unfold body bodyInt
  simp only [ec, ed, ea, eb, hl, chk_of, someBind, beq_self_eq_true, ↓reduceIte, Nat.reduceLT, toNat_beq_one, fd, fa, fb, fc, em]
  rfl

theorem dot4 (h : Head) (t : Dot4Ty) (d : Reg) (a : Reg) (b : Reg) (c : Reg) (sat : Bool) : Statement (.dot4 h t d a b c sat) := by
  intro hw g k
  cases k
  obtain ⟨hA, hB, hC, hw⟩ : lastUseOk h.luA (some a) = true ∧ lastUseOk h.luB (some b) = true
      ∧ lastUseOk h.luC (some c) = true ∧ (RegClass.ok .write d) = true := wf_parts rfl hw
  have w0 := hw
  obtain ⟨r, hr⟩ : ∃ r, raw (.dot4 h t d a b c sat) h = r := ⟨_, rfl⟩
  have ef : r.f = glue [(1, sat.toNat), (11, 0), (8, c.code)] := by subst hr; rfl
  have q0 := toNat_lt sat
  have ec : r.c = c.code := by simp only [Raw.c, ef, glue]; omega
  have em : cut [1] r.m = [sat.toNat, 0] := by
    simp only [Raw.m, ef, glue, cut, List.cons.injEq]; refine ⟨?_, ?_, trivial⟩ <;> omega
  have ed : r.d = d.code := by subst hr; rfl
  have ea : r.a = a.code := by subst hr; rfl
  have eb : r.b = b.code := by subst hr; rfl
  have elu : r.lu = h.lu := by subst hr; exact Nat.zero_add _
  have hl : r.lastUseOk true true true = true :=
    lastUse_checked (h := h) elu
      (fun e => ⟨rfl, ea ▸ marked hA e⟩) (fun e => ⟨rfl, eb ▸ marked hB e⟩) (fun e => ⟨rfl, ec ▸ marked hC e⟩)
  have fd := regField_code 0 (w0)
  have fa := regField_code 1 (read_ok a)
  have fb := regField_code 2 (read_ok b)
  have fc := regField_code 3 (read_ok c)
  refine ⟨⟨by have qc := code_lt c; show (raw _ h).f < _; rw [hr, ef]; simp only [glue]; omega, by show (raw _ h).lu < _; rw [hr, elu]; exact lu_lt h,
    (code_lt b), (code_lt a), (code_lt d)⟩, head_of (by rw [hr, elu])
    (show 0x46 + t.code ≠ 0x100 by cases t <;> decide) (show 0x46 + t.code ≠ 0x102 by cases t <;> decide), ?_⟩
  show body (0x46 + t.code) h (raw _ h) = _
  rw [hr]; clear hr ef
  cases t <;>
    (unfold body bodyInt
     simp only [ec, ed, ea, eb, hl, chk_of, someBind, beq_self_eq_true, ↓reduceIte, Nat.reduceLT, Nat.reduceAdd, Nat.reduceSub, toNat_beq_one, fd, fa, fb, fc, Dot4Ty.code, Dot4Ty.of, em]
     rfl)

theorem sad (h : Head) (d : Reg) (a : Reg) (b : Reg) (c : Reg) : Statement (.sad h d a b c) := by
  intro hw g k
  cases k
  obtain ⟨hA, hB, hC, hw⟩ : lastUseOk h.luA (some a) = true ∧ lastUseOk h.luB (some b) = true
      ∧ lastUseOk h.luC (some c) = true ∧ (RegClass.ok .write d) = true := wf_parts rfl hw
  have w0 := hw
  obtain ⟨r, hr⟩ : ∃ r, raw (.sad h d a b c) h = r := ⟨_, rfl⟩
  have ef : r.f = glue [(12, 0), (8, c.code)] := by subst hr; rfl
  have ec : r.c = c.code := by simp only [Raw.c, ef, glue]; omega
  have em : r.m = 0 := by simp only [Raw.m, ef, glue]; omega
  have ed : r.d = d.code := by subst hr; rfl
  have ea : r.a = a.code := by subst hr; rfl
  have eb : r.b = b.code := by subst hr; rfl
  have elu : r.lu = h.lu := by subst hr; exact Nat.zero_add _
  have hl : r.lastUseOk true true true = true :=
    lastUse_checked (h := h) elu
      (fun e => ⟨rfl, ea ▸ marked hA e⟩) (fun e => ⟨rfl, eb ▸ marked hB e⟩) (fun e => ⟨rfl, ec ▸ marked hC e⟩)
  have fd := regField_code 0 (w0)
  have fa := regField_code 1 (read_ok a)
  have fb := regField_code 2 (read_ok b)
  have fc := regField_code 3 (read_ok c)
  refine ⟨⟨by have qc := code_lt c; show (raw _ h).f < _; rw [hr, ef]; simp only [glue]; omega, by show (raw _ h).lu < _; rw [hr, elu]; exact lu_lt h,
    (code_lt b), (code_lt a), (code_lt d)⟩, head_of (by rw [hr, elu])
    (show 0x28 ≠ 0x100 by decide) (show 0x28 ≠ 0x102 by decide), ?_⟩
  show body (0x28) h (raw _ h) = _
  rw [hr]; clear hr ef
  unfold body bodyInt
  simp only [ec, ed, ea, eb, hl, chk_of, someBind, beq_self_eq_true, ↓reduceIte, Nat.reduceLT, fd, fa, fb, fc, em]
  rfl

theorem lop3 (h : Head) (d : Reg) (a : Reg) (b : Reg) (c : Reg) (lut : BitVec 8) : Statement (.lop3 h d a b c lut) := by
  intro hw g k
  cases k
  obtain ⟨hA, hB, hC, hw⟩ : lastUseOk h.luA (some a) = true ∧ lastUseOk h.luB (some b) = true
      ∧ lastUseOk h.luC (some c) = true ∧ (RegClass.ok .write d) = true := wf_parts rfl hw
  have w0 := hw
  obtain ⟨r, hr⟩ : ∃ r, raw (.lop3 h d a b c lut) h = r := ⟨_, rfl⟩
  have ef : r.f = glue [(8, lut.toNat), (4, 0), (8, c.code)] := by subst hr; rfl
  have q0 := lut.isLt
  have ec : r.c = c.code := by simp only [Raw.c, ef, glue]; omega
  have em : cut [8] r.m = [lut.toNat, 0] := by
    simp only [Raw.m, ef, glue, cut, List.cons.injEq]; refine ⟨?_, ?_, trivial⟩ <;> omega
  have ed : r.d = d.code := by subst hr; rfl
  have ea : r.a = a.code := by subst hr; rfl
  have eb : r.b = b.code := by subst hr; rfl
  have elu : r.lu = h.lu := by subst hr; exact Nat.zero_add _
  have hl : r.lastUseOk true true true = true :=
    lastUse_checked (h := h) elu
      (fun e => ⟨rfl, ea ▸ marked hA e⟩) (fun e => ⟨rfl, eb ▸ marked hB e⟩) (fun e => ⟨rfl, ec ▸ marked hC e⟩)
  have fd := regField_code 0 (w0)
  have fa := regField_code 1 (read_ok a)
  have fb := regField_code 2 (read_ok b)
  have fc := regField_code 3 (read_ok c)
  refine ⟨⟨by have qc := code_lt c; show (raw _ h).f < _; rw [hr, ef]; simp only [glue]; omega, by show (raw _ h).lu < _; rw [hr, elu]; exact lu_lt h,
    (code_lt b), (code_lt a), (code_lt d)⟩, head_of (by rw [hr, elu])
    (show 0x29 ≠ 0x100 by decide) (show 0x29 ≠ 0x102 by decide), ?_⟩
  show body (0x29) h (raw _ h) = _
  rw [hr]; clear hr ef
  unfold body bodyInt
  simp only [ec, ed, ea, eb, hl, chk_of, someBind, beq_self_eq_true, ↓reduceIte, Nat.reduceLT, BitVec.ofNat_toNat, BitVec.setWidth_eq, fd, fa, fb, fc, em]
  rfl

theorem shl (h : Head) (wide : Bool) (d : Reg) (a : Reg) (b : Reg) : Statement (.shl h wide d a b) := by
  intro hw g k
  cases k
  obtain ⟨hA, hB, hC, hw⟩ : lastUseOk h.luA (some a) = true ∧ lastUseOk h.luB (some b) = true
      ∧ lastUseOk h.luC none = true ∧ (RegClass.ok (if wide then .pair else .write) d && RegClass.ok (if wide then .pair else .read) a) = true := wf_parts rfl hw
  simp only [Bool.and_eq_true] at hw
  obtain ⟨w0, w1⟩ := hw
  obtain ⟨r, hr⟩ : ∃ r, raw (.shl h wide d a b) h = r := ⟨_, rfl⟩
  have ef : r.f = glue [(12, 0), (8, 0)] := by subst hr; rfl
  have ec : r.c = 0 := by simp only [Raw.c, ef, glue]; omega
  have em : r.m = 0 := by simp only [Raw.m, ef, glue]; omega
  have ed : r.d = d.code := by subst hr; rfl
  have ea : r.a = a.code := by subst hr; rfl
  have eb : r.b = b.code := by subst hr; rfl
  have elu : r.lu = h.lu := by subst hr; exact Nat.zero_add _
  have hl : r.lastUseOk true true false = true :=
    lastUse_checked (h := h) elu
      (fun e => ⟨rfl, ea ▸ marked hA e⟩) (fun e => ⟨rfl, eb ▸ marked hB e⟩) (unmarked hC)
  have fd := regField_code 0 (w0)
  have fa := regField_code 1 (w1)
  have fb := regField_code 2 (read_ok b)
  refine ⟨⟨by show (raw _ h).f < _; rw [hr, ef]; simp only [glue]; omega, by show (raw _ h).lu < _; rw [hr, elu]; exact lu_lt h,
    (code_lt b), (code_lt a), (code_lt d)⟩, head_of (by rw [hr, elu])
    (show 0x2a + wide.toNat ≠ 0x100 by cases wide <;> decide) (show 0x2a + wide.toNat ≠ 0x102 by cases wide <;> decide), ?_⟩
  show body (0x2a + wide.toNat) h (raw _ h) = _
  rw [hr]; clear hr ef
  cases wide <;>
    (simp only [↓reduceIte, Bool.false_eq_true] at fd fa
     unfold body bodyInt
     simp only [ec, ed, ea, eb, hl, chk_of, someBind, beq_self_eq_true, ↓reduceIte, Nat.reduceLT, Nat.reduceAdd, fd, fa, fb, Bool.toNat_true, Bool.toNat_false, Nat.reduceBEq, Bool.false_eq_true, em]
     rfl)

theorem shr (h : Head) (t : ShrTy) (d : Reg) (a : Reg) (b : Reg) : Statement (.shr h t d a b) := by
  intro hw g k
  cases k
  obtain ⟨hA, hB, hC, hw⟩ : lastUseOk h.luA (some a) = true ∧ lastUseOk h.luB (some b) = true
      ∧ lastUseOk h.luC none = true ∧ (RegClass.ok (if t.wide then .pair else .write) d && RegClass.ok (if t.wide then .pair else .read) a) = true := wf_parts rfl hw
  simp only [Bool.and_eq_true] at hw
  obtain ⟨w0, w1⟩ := hw
  obtain ⟨r, hr⟩ : ∃ r, raw (.shr h t d a b) h = r := ⟨_, rfl⟩
  have ef : r.f = glue [(12, 0), (8, 0)] := by subst hr; rfl
  have ec : r.c = 0 := by simp only [Raw.c, ef, glue]; omega
  have em : r.m = 0 := by simp only [Raw.m, ef, glue]; omega
  have ed : r.d = d.code := by subst hr; rfl
  have ea : r.a = a.code := by subst hr; rfl
  have eb : r.b = b.code := by subst hr; rfl
  have elu : r.lu = h.lu := by subst hr; exact Nat.zero_add _
  have hl : r.lastUseOk true true false = true :=
    lastUse_checked (h := h) elu
      (fun e => ⟨rfl, ea ▸ marked hA e⟩) (fun e => ⟨rfl, eb ▸ marked hB e⟩) (unmarked hC)
  have fd := regField_code 0 (w0)
  have fa := regField_code 1 (w1)
  have fb := regField_code 2 (read_ok b)
  refine ⟨⟨by show (raw _ h).f < _; rw [hr, ef]; simp only [glue]; omega, by show (raw _ h).lu < _; rw [hr, elu]; exact lu_lt h,
    (code_lt b), (code_lt a), (code_lt d)⟩, head_of (by rw [hr, elu])
    (show 0x2c + t.code ≠ 0x100 by cases t <;> decide) (show 0x2c + t.code ≠ 0x102 by cases t <;> decide), ?_⟩
  show body (0x2c + t.code) h (raw _ h) = _
  rw [hr]; clear hr ef
  cases t <;>
    (unfold body bodyInt
     simp only [ec, ed, ea, eb, hl, chk_of, someBind, beq_self_eq_true, ↓reduceIte, Nat.reduceLT, Nat.reduceAdd, Nat.reduceSub, fd, fa, fb, ShrTy.code, ShrTy.of, em]
     rfl)

theorem rot (h : Head) (d : Reg) (a : Reg) (b : Reg) : Statement (.rot h d a b) := by
  intro hw g k
  cases k
  obtain ⟨hA, hB, hC, hw⟩ : lastUseOk h.luA (some a) = true ∧ lastUseOk h.luB (some b) = true
      ∧ lastUseOk h.luC none = true ∧ (RegClass.ok .write d) = true := wf_parts rfl hw
  have w0 := hw
  obtain ⟨r, hr⟩ : ∃ r, raw (.rot h d a b) h = r := ⟨_, rfl⟩
  have ef : r.f = glue [(12, 0), (8, 0)] := by subst hr; rfl
  have ec : r.c = 0 := by simp only [Raw.c, ef, glue]; omega
  have em : r.m = 0 := by simp only [Raw.m, ef, glue]; omega
  have ed : r.d = d.code := by subst hr; rfl
  have ea : r.a = a.code := by subst hr; rfl
  have eb : r.b = b.code := by subst hr; rfl
  have elu : r.lu = h.lu := by subst hr; exact Nat.zero_add _
  have hl : r.lastUseOk true true false = true :=
    lastUse_checked (h := h) elu
      (fun e => ⟨rfl, ea ▸ marked hA e⟩) (fun e => ⟨rfl, eb ▸ marked hB e⟩) (unmarked hC)
  have fd := regField_code 0 (w0)
  have fa := regField_code 1 (read_ok a)
  have fb := regField_code 2 (read_ok b)
  refine ⟨⟨by show (raw _ h).f < _; rw [hr, ef]; simp only [glue]; omega, by show (raw _ h).lu < _; rw [hr, elu]; exact lu_lt h,
    (code_lt b), (code_lt a), (code_lt d)⟩, head_of (by rw [hr, elu])
    (show 0x30 ≠ 0x100 by decide) (show 0x30 ≠ 0x102 by decide), ?_⟩
  show body (0x30) h (raw _ h) = _
  rw [hr]; clear hr ef
  unfold body bodyInt
  simp only [ec, ed, ea, eb, hl, chk_of, someBind, beq_self_eq_true, ↓reduceIte, Nat.reduceLT, fd, fa, fb, em]
  rfl

theorem fsh (h : Head) (d : Reg) (a : Reg) (b : Reg) (c : Reg) (right : Bool) : Statement (.fsh h d a b c right) := by
  intro hw g k
  cases k
  obtain ⟨hA, hB, hC, hw⟩ : lastUseOk h.luA (some a) = true ∧ lastUseOk h.luB (some b) = true
      ∧ lastUseOk h.luC (some c) = true ∧ (RegClass.ok .write d) = true := wf_parts rfl hw
  have w0 := hw
  obtain ⟨r, hr⟩ : ∃ r, raw (.fsh h d a b c right) h = r := ⟨_, rfl⟩
  have ef : r.f = glue [(1, right.toNat), (11, 0), (8, c.code)] := by subst hr; rfl
  have q0 := toNat_lt right
  have ec : r.c = c.code := by simp only [Raw.c, ef, glue]; omega
  have em : cut [1] r.m = [right.toNat, 0] := by
    simp only [Raw.m, ef, glue, cut, List.cons.injEq]; refine ⟨?_, ?_, trivial⟩ <;> omega
  have ed : r.d = d.code := by subst hr; rfl
  have ea : r.a = a.code := by subst hr; rfl
  have eb : r.b = b.code := by subst hr; rfl
  have elu : r.lu = h.lu := by subst hr; exact Nat.zero_add _
  have hl : r.lastUseOk true true true = true :=
    lastUse_checked (h := h) elu
      (fun e => ⟨rfl, ea ▸ marked hA e⟩) (fun e => ⟨rfl, eb ▸ marked hB e⟩) (fun e => ⟨rfl, ec ▸ marked hC e⟩)
  have fd := regField_code 0 (w0)
  have fa := regField_code 1 (read_ok a)
  have fb := regField_code 2 (read_ok b)
  have fc := regField_code 3 (read_ok c)
  refine ⟨⟨by have qc := code_lt c; show (raw _ h).f < _; rw [hr, ef]; simp only [glue]; omega, by show (raw _ h).lu < _; rw [hr, elu]; exact lu_lt h,
    (code_lt b), (code_lt a), (code_lt d)⟩, head_of (by rw [hr, elu])
    (show 0x31 ≠ 0x100 by decide) (show 0x31 ≠ 0x102 by decide), ?_⟩
  show body (0x31) h (raw _ h) = _
  rw [hr]; clear hr ef
  unfold body bodyInt
  simp only [ec, ed, ea, eb, hl, chk_of, someBind, beq_self_eq_true, ↓reduceIte, Nat.reduceLT, toNat_beq_one, fd, fa, fb, fc, em]
  rfl

theorem shrr (h : Head) (d : Reg) (a : Reg) (b : Reg) : Statement (.shrr h d a b) := by
  intro hw g k
  cases k
  obtain ⟨hA, hB, hC, hw⟩ : lastUseOk h.luA (some a) = true ∧ lastUseOk h.luB (some b) = true
      ∧ lastUseOk h.luC none = true ∧ (RegClass.ok .write d) = true := wf_parts rfl hw
  have w0 := hw
  obtain ⟨r, hr⟩ : ∃ r, raw (.shrr h d a b) h = r := ⟨_, rfl⟩
  have ef : r.f = glue [(12, 0), (8, 0)] := by subst hr; rfl
  have ec : r.c = 0 := by simp only [Raw.c, ef, glue]; omega
  have em : r.m = 0 := by simp only [Raw.m, ef, glue]; omega
  have ed : r.d = d.code := by subst hr; rfl
  have ea : r.a = a.code := by subst hr; rfl
  have eb : r.b = b.code := by subst hr; rfl
  have elu : r.lu = h.lu := by subst hr; exact Nat.zero_add _
  have hl : r.lastUseOk true true false = true :=
    lastUse_checked (h := h) elu
      (fun e => ⟨rfl, ea ▸ marked hA e⟩) (fun e => ⟨rfl, eb ▸ marked hB e⟩) (unmarked hC)
  have fd := regField_code 0 (w0)
  have fa := regField_code 1 (read_ok a)
  have fb := regField_code 2 (read_ok b)
  refine ⟨⟨by show (raw _ h).f < _; rw [hr, ef]; simp only [glue]; omega, by show (raw _ h).lu < _; rw [hr, elu]; exact lu_lt h,
    (code_lt b), (code_lt a), (code_lt d)⟩, head_of (by rw [hr, elu])
    (show 0x49 ≠ 0x100 by decide) (show 0x49 ≠ 0x102 by decide), ?_⟩
  show body (0x49) h (raw _ h) = _
  rw [hr]; clear hr ef
  unfold body bodyInt
  simp only [ec, ed, ea, eb, hl, chk_of, someBind, beq_self_eq_true, ↓reduceIte, Nat.reduceLT, fd, fa, fb, em]
  rfl

theorem bfx (h : Head) (t : Sgn) (d : Reg) (a : Reg) (b : Reg) (c : Reg) : Statement (.bfx h t d a b c) := by
  intro hw g k
  cases k
  obtain ⟨hA, hB, hC, hw⟩ : lastUseOk h.luA (some a) = true ∧ lastUseOk h.luB (some b) = true
      ∧ lastUseOk h.luC (some c) = true ∧ (RegClass.ok .write d) = true := wf_parts rfl hw
  have w0 := hw
  obtain ⟨r, hr⟩ : ∃ r, raw (.bfx h t d a b c) h = r := ⟨_, rfl⟩
  have ef : r.f = glue [(12, 0), (8, c.code)] := by subst hr; rfl
  have ec : r.c = c.code := by simp only [Raw.c, ef, glue]; omega
  have em : r.m = 0 := by simp only [Raw.m, ef, glue]; omega
  have ed : r.d = d.code := by subst hr; rfl
  have ea : r.a = a.code := by subst hr; rfl
  have eb : r.b = b.code := by subst hr; rfl
  have elu : r.lu = h.lu := by subst hr; exact Nat.zero_add _
  have hl : r.lastUseOk true true true = true :=
    lastUse_checked (h := h) elu
      (fun e => ⟨rfl, ea ▸ marked hA e⟩) (fun e => ⟨rfl, eb ▸ marked hB e⟩) (fun e => ⟨rfl, ec ▸ marked hC e⟩)
  have fd := regField_code 0 (w0)
  have fa := regField_code 1 (read_ok a)
  have fb := regField_code 2 (read_ok b)
  have fc := regField_code 3 (read_ok c)
  refine ⟨⟨by have qc := code_lt c; show (raw _ h).f < _; rw [hr, ef]; simp only [glue]; omega, by show (raw _ h).lu < _; rw [hr, elu]; exact lu_lt h,
    (code_lt b), (code_lt a), (code_lt d)⟩, head_of (by rw [hr, elu])
    (show 0x32 + t.code ≠ 0x100 by cases t <;> decide) (show 0x32 + t.code ≠ 0x102 by cases t <;> decide), ?_⟩
  show body (0x32 + t.code) h (raw _ h) = _
  rw [hr]; clear hr ef
  cases t <;>
    (unfold body bodyInt
     simp only [ec, ed, ea, eb, hl, chk_of, someBind, beq_self_eq_true, ↓reduceIte, Nat.reduceLT, Nat.reduceAdd, Nat.reduceSub, fd, fa, fb, fc, Sgn.code, Sgn.of, em]
     rfl)

theorem bfi (h : Head) (d : Reg) (a : Reg) (b : Reg) (c : Reg) : Statement (.bfi h d a b c) := by
  intro hw g k
  cases k
  obtain ⟨hA, hB, hC, hw⟩ : lastUseOk h.luA (some a) = true ∧ lastUseOk h.luB (some b) = true
      ∧ lastUseOk h.luC (some c) = true ∧ (RegClass.ok .write d) = true := wf_parts rfl hw
  have w0 := hw
  obtain ⟨r, hr⟩ : ∃ r, raw (.bfi h d a b c) h = r := ⟨_, rfl⟩
  have ef : r.f = glue [(12, 0), (8, c.code)] := by subst hr; rfl
  have ec : r.c = c.code := by simp only [Raw.c, ef, glue]; omega
  have em : r.m = 0 := by simp only [Raw.m, ef, glue]; omega
  have ed : r.d = d.code := by subst hr; rfl
  have ea : r.a = a.code := by subst hr; rfl
  have eb : r.b = b.code := by subst hr; rfl
  have elu : r.lu = h.lu := by subst hr; exact Nat.zero_add _
  have hl : r.lastUseOk true true true = true :=
    lastUse_checked (h := h) elu
      (fun e => ⟨rfl, ea ▸ marked hA e⟩) (fun e => ⟨rfl, eb ▸ marked hB e⟩) (fun e => ⟨rfl, ec ▸ marked hC e⟩)
  have fd := regField_code 0 (w0)
  have fa := regField_code 1 (read_ok a)
  have fb := regField_code 2 (read_ok b)
  have fc := regField_code 3 (read_ok c)
  refine ⟨⟨by have qc := code_lt c; show (raw _ h).f < _; rw [hr, ef]; simp only [glue]; omega, by show (raw _ h).lu < _; rw [hr, elu]; exact lu_lt h,
    (code_lt b), (code_lt a), (code_lt d)⟩, head_of (by rw [hr, elu])
    (show 0x34 ≠ 0x100 by decide) (show 0x34 ≠ 0x102 by decide), ?_⟩
  show body (0x34) h (raw _ h) = _
  rw [hr]; clear hr ef
  unfold body bodyInt
  simp only [ec, ed, ea, eb, hl, chk_of, someBind, beq_self_eq_true, ↓reduceIte, Nat.reduceLT, fd, fa, fb, fc, em]
  rfl

theorem popc (h : Head) (d : Reg) (a : Reg) : Statement (.popc h d a) := by
  intro hw g k
  cases k
  obtain ⟨hA, hB, hC, hw⟩ : lastUseOk h.luA (some a) = true ∧ lastUseOk h.luB none = true
      ∧ lastUseOk h.luC none = true ∧ (RegClass.ok .write d) = true := wf_parts rfl hw
  have w0 := hw
  obtain ⟨r, hr⟩ : ∃ r, raw (.popc h d a) h = r := ⟨_, rfl⟩
  have ef : r.f = glue [(12, 0), (8, 0)] := by subst hr; rfl
  have ec : r.c = 0 := by simp only [Raw.c, ef, glue]; omega
  have em : r.m = 0 := by simp only [Raw.m, ef, glue]; omega
  have ed : r.d = d.code := by subst hr; rfl
  have ea : r.a = a.code := by subst hr; rfl
  have eb : r.b = 0 := by subst hr; rfl
  have elu : r.lu = h.lu := by subst hr; exact Nat.zero_add _
  have hl : r.lastUseOk true false false = true :=
    lastUse_checked (h := h) elu
      (fun e => ⟨rfl, ea ▸ marked hA e⟩) (unmarked hB) (unmarked hC)
  have fd := regField_code 0 (w0)
  have fa := regField_code 1 (read_ok a)
  refine ⟨⟨by show (raw _ h).f < _; rw [hr, ef]; simp only [glue]; omega, by show (raw _ h).lu < _; rw [hr, elu]; exact lu_lt h,
    (Nat.zero_lt_succ _), (code_lt a), (code_lt d)⟩, head_of (by rw [hr, elu])
    (show 0x35 ≠ 0x100 by decide) (show 0x35 ≠ 0x102 by decide), ?_⟩
  show body (0x35) h (raw _ h) = _
  rw [hr]; clear hr ef
  unfold body bodyInt
  simp only [ec, ed, ea, eb, hl, chk_of, someBind, beq_self_eq_true, ↓reduceIte, Nat.reduceLT, fd, fa, em]
  rfl

theorem clz (h : Head) (d : Reg) (a : Reg) : Statement (.clz h d a) := by
  intro hw g k
  cases k
  obtain ⟨hA, hB, hC, hw⟩ : lastUseOk h.luA (some a) = true ∧ lastUseOk h.luB none = true
      ∧ lastUseOk h.luC none = true ∧ (RegClass.ok .write d) = true := wf_parts rfl hw
  have w0 := hw
  obtain ⟨r, hr⟩ : ∃ r, raw (.clz h d a) h = r := ⟨_, rfl⟩
  have ef : r.f = glue [(12, 0), (8, 0)] := by subst hr; rfl
  have ec : r.c = 0 := by simp only [Raw.c, ef, glue]; omega
  have em : r.m = 0 := by simp only [Raw.m, ef, glue]; omega
  have ed : r.d = d.code := by subst hr; rfl
  have ea : r.a = a.code := by subst hr; rfl
  have eb : r.b = 0 := by subst hr; rfl
  have elu : r.lu = h.lu := by subst hr; exact Nat.zero_add _
  have hl : r.lastUseOk true false false = true :=
    lastUse_checked (h := h) elu
      (fun e => ⟨rfl, ea ▸ marked hA e⟩) (unmarked hB) (unmarked hC)
  have fd := regField_code 0 (w0)
  have fa := regField_code 1 (read_ok a)
  refine ⟨⟨by show (raw _ h).f < _; rw [hr, ef]; simp only [glue]; omega, by show (raw _ h).lu < _; rw [hr, elu]; exact lu_lt h,
    (Nat.zero_lt_succ _), (code_lt a), (code_lt d)⟩, head_of (by rw [hr, elu])
    (show 0x36 ≠ 0x100 by decide) (show 0x36 ≠ 0x102 by decide), ?_⟩
  show body (0x36) h (raw _ h) = _
  rw [hr]; clear hr ef
  unfold body bodyInt
  simp only [ec, ed, ea, eb, hl, chk_of, someBind, beq_self_eq_true, ↓reduceIte, Nat.reduceLT, fd, fa, em]
  rfl

theorem brev (h : Head) (d : Reg) (a : Reg) : Statement (.brev h d a) := by
  intro hw g k
  cases k
  obtain ⟨hA, hB, hC, hw⟩ : lastUseOk h.luA (some a) = true ∧ lastUseOk h.luB none = true
      ∧ lastUseOk h.luC none = true ∧ (RegClass.ok .write d) = true := wf_parts rfl hw
  have w0 := hw
  obtain ⟨r, hr⟩ : ∃ r, raw (.brev h d a) h = r := ⟨_, rfl⟩
  have ef : r.f = glue [(12, 0), (8, 0)] := by subst hr; rfl
  have ec : r.c = 0 := by simp only [Raw.c, ef, glue]; omega
  have em : r.m = 0 := by simp only [Raw.m, ef, glue]; omega
  have ed : r.d = d.code := by subst hr; rfl
  have ea : r.a = a.code := by subst hr; rfl
  have eb : r.b = 0 := by subst hr; rfl
  have elu : r.lu = h.lu := by subst hr; exact Nat.zero_add _
  have hl : r.lastUseOk true false false = true :=
    lastUse_checked (h := h) elu
      (fun e => ⟨rfl, ea ▸ marked hA e⟩) (unmarked hB) (unmarked hC)
  have fd := regField_code 0 (w0)
  have fa := regField_code 1 (read_ok a)
  refine ⟨⟨by show (raw _ h).f < _; rw [hr, ef]; simp only [glue]; omega, by show (raw _ h).lu < _; rw [hr, elu]; exact lu_lt h,
    (Nat.zero_lt_succ _), (code_lt a), (code_lt d)⟩, head_of (by rw [hr, elu])
    (show 0x37 ≠ 0x100 by decide) (show 0x37 ≠ 0x102 by decide), ?_⟩
  show body (0x37) h (raw _ h) = _
  rw [hr]; clear hr ef
  unfold body bodyInt
  simp only [ec, ed, ea, eb, hl, chk_of, someBind, beq_self_eq_true, ↓reduceIte, Nat.reduceLT, fd, fa, em]
  rfl

theorem ffs (h : Head) (d : Reg) (a : Reg) : Statement (.ffs h d a) := by
  intro hw g k
  cases k
  obtain ⟨hA, hB, hC, hw⟩ : lastUseOk h.luA (some a) = true ∧ lastUseOk h.luB none = true
      ∧ lastUseOk h.luC none = true ∧ (RegClass.ok .write d) = true := wf_parts rfl hw
  have w0 := hw
  obtain ⟨r, hr⟩ : ∃ r, raw (.ffs h d a) h = r := ⟨_, rfl⟩
  have ef : r.f = glue [(12, 0), (8, 0)] := by subst hr; rfl
  have ec : r.c = 0 := by simp only [Raw.c, ef, glue]; omega
  have em : r.m = 0 := by simp only [Raw.m, ef, glue]; omega
  have ed : r.d = d.code := by subst hr; rfl
  have ea : r.a = a.code := by subst hr; rfl
  have eb : r.b = 0 := by subst hr; rfl
  have elu : r.lu = h.lu := by subst hr; exact Nat.zero_add _
  have hl : r.lastUseOk true false false = true :=
    lastUse_checked (h := h) elu
      (fun e => ⟨rfl, ea ▸ marked hA e⟩) (unmarked hB) (unmarked hC)
  have fd := regField_code 0 (w0)
  have fa := regField_code 1 (read_ok a)
  refine ⟨⟨by show (raw _ h).f < _; rw [hr, ef]; simp only [glue]; omega, by show (raw _ h).lu < _; rw [hr, elu]; exact lu_lt h,
    (Nat.zero_lt_succ _), (code_lt a), (code_lt d)⟩, head_of (by rw [hr, elu])
    (show 0x38 ≠ 0x100 by decide) (show 0x38 ≠ 0x102 by decide), ?_⟩
  show body (0x38) h (raw _ h) = _
  rw [hr]; clear hr ef
  unfold body bodyInt
  simp only [ec, ed, ea, eb, hl, chk_of, someBind, beq_self_eq_true, ↓reduceIte, Nat.reduceLT, fd, fa, em]
  rfl

theorem cmp (h : Head) (t : CmpTy) (d : Pred) (a : Reg) (b : Reg) (cond : Cond) (e : Pred) : Statement (.cmp h t d a b cond e) := by
  intro hw g k
  cases k
  obtain ⟨hA, hB, hC, hw⟩ : lastUseOk h.luA (some a) = true ∧ lastUseOk h.luB (some b) = true
      ∧ lastUseOk h.luC none = true ∧ (RegClass.ok (if t.wide then .pair else .read) a && RegClass.ok (if t.wide then .pair else .read) b && (t == .i16x2 || e == 0)) = true := wf_parts rfl hw
  simp only [Bool.and_eq_true] at hw
  obtain ⟨⟨w0, w1⟩, w2⟩ := hw
  obtain ⟨r, hr⟩ : ∃ r, raw (.cmp h t d a b cond e) h = r := ⟨_, rfl⟩
  have ef : r.f = glue [(3, cond.code), (1, 0), (3, e.val), (5, 0), (8, 0)] := by subst hr; rfl
  have q0 := (show cond.code < 8 by cases cond <;> decide)
  have q1 := e.isLt
  have ec : r.c = 0 := by simp only [Raw.c, ef, glue]; omega
  have em : cut [3, 1, 3] r.m = [cond.code, 0, e.val, 0] := by
    simp only [Raw.m, ef, glue, cut, List.cons.injEq]; refine ⟨?_, ?_, ?_, ?_, trivial⟩ <;> omega
  have ed : r.d = d.val := by subst hr; rfl
  have ea : r.a = a.code := by subst hr; rfl
  have eb : r.b = b.code := by subst hr; rfl
  have elu : r.lu = h.lu := by subst hr; exact Nat.zero_add _
  have hl : r.lastUseOk true true false = true :=
    lastUse_checked (h := h) elu
      (fun e => ⟨rfl, ea ▸ marked hA e⟩) (fun e => ⟨rfl, eb ▸ marked hB e⟩) (unmarked hC)
  have fa := regField_code 1 (w0)
  have fb := regField_code 2 (w1)
  refine ⟨⟨by show (raw _ h).f < _; rw [hr, ef]; simp only [glue]; omega, by show (raw _ h).lu < _; rw [hr, elu]; exact lu_lt h,
    (code_lt b), (code_lt a), (pred_lt d)⟩, head_of (by rw [hr, elu])
    (show 0x39 + t.code ≠ 0x100 by cases t <;> decide) (show 0x39 + t.code ≠ 0x102 by cases t <;> decide), ?_⟩
  show body (0x39 + t.code) h (raw _ h) = _
  rw [hr]; clear hr ef
  cases t <;>
    (unfold body bodyInt
     simp only [ec, ed, ea, eb, hl, chk_of, someBind, beq_self_eq_true, ↓reduceIte, Nat.reduceLT, Nat.reduceAdd, Nat.reduceSub, cond_of_code, finOfNat_val, predOf_val, fa, fb, w2, CmpTy.code, CmpTy.of, em]
     rfl)

theorem sel (h : Head) (d : Reg) (a : Reg) (b : Reg) (p : Pred) (neg : Bool) : Statement (.sel h d a b p neg) := by
  intro hw g k
  cases k
  obtain ⟨hA, hB, hC, hw⟩ : lastUseOk h.luA (some a) = true ∧ lastUseOk h.luB (some b) = true
      ∧ lastUseOk h.luC none = true ∧ (RegClass.ok .write d) = true := wf_parts rfl hw
  have w0 := hw
  obtain ⟨r, hr⟩ : ∃ r, raw (.sel h d a b p neg) h = r := ⟨_, rfl⟩
  have ef : r.f = glue [(3, p.val), (1, neg.toNat), (8, 0), (8, 0)] := by subst hr; rfl
  have q0 := p.isLt
  have q1 := toNat_lt neg
  have ec : r.c = 0 := by simp only [Raw.c, ef, glue]; omega
  have em : cut [3, 1] r.m = [p.val, neg.toNat, 0] := by
    simp only [Raw.m, ef, glue, cut, List.cons.injEq]; refine ⟨?_, ?_, ?_, trivial⟩ <;> omega
  have ed : r.d = d.code := by subst hr; rfl
  have ea : r.a = a.code := by subst hr; rfl
  have eb : r.b = b.code := by subst hr; rfl
  have elu : r.lu = h.lu := by subst hr; exact Nat.zero_add _
  have hl : r.lastUseOk true true false = true :=
    lastUse_checked (h := h) elu
      (fun e => ⟨rfl, ea ▸ marked hA e⟩) (fun e => ⟨rfl, eb ▸ marked hB e⟩) (unmarked hC)
  have fd := regField_code 0 (w0)
  have fa := regField_code 1 (read_ok a)
  have fb := regField_code 2 (read_ok b)
  refine ⟨⟨by show (raw _ h).f < _; rw [hr, ef]; simp only [glue]; omega, by show (raw _ h).lu < _; rw [hr, elu]; exact lu_lt h,
    (code_lt b), (code_lt a), (code_lt d)⟩, head_of (by rw [hr, elu])
    (show 0x3e ≠ 0x100 by decide) (show 0x3e ≠ 0x102 by decide), ?_⟩
  show body (0x3e) h (raw _ h) = _
  rw [hr]; clear hr ef
  unfold body bodyInt
  simp only [ec, ed, ea, eb, hl, chk_of, someBind, beq_self_eq_true, ↓reduceIte, Nat.reduceLT, finOfNat_val, toNat_beq_one, fd, fa, fb, em]
  rfl

theorem plop (h : Head) (d : Pred) (a : Pred) (b : Pred) (c : Pred) (lut : BitVec 8) : Statement (.plop h d a b c lut) := by
  intro hw g k
  cases k
  obtain ⟨hA, hB, hC, hw⟩ : lastUseOk h.luA none = true ∧ lastUseOk h.luB none = true
      ∧ lastUseOk h.luC none = true ∧ (true) = true := wf_parts rfl hw
  clear hw
  obtain ⟨r, hr⟩ : ∃ r, raw (.plop h d a b c lut) h = r := ⟨_, rfl⟩
  have ef : r.f = glue [(8, lut.toNat), (4, 0), (8, c.val)] := by subst hr; rfl
  have q0 := lut.isLt
  have ec : r.c = c.val := by simp only [Raw.c, ef, glue]; omega
  have em : cut [8] r.m = [lut.toNat, 0] := by
    simp only [Raw.m, ef, glue, cut, List.cons.injEq]; refine ⟨?_, ?_, trivial⟩ <;> omega
  have ed : r.d = d.val := by subst hr; rfl
  have ea : r.a = a.val := by subst hr; rfl
  have eb : r.b = b.val := by subst hr; rfl
  have elu : r.lu = h.lu := by subst hr; exact Nat.zero_add _
  have hl : r.lastUseOk false false false = true :=
    lastUse_checked (h := h) elu
      (unmarked hA) (unmarked hB) (unmarked hC)
  refine ⟨⟨by have qc := pred_lt c; show (raw _ h).f < _; rw [hr, ef]; simp only [glue]; omega, by show (raw _ h).lu < _; rw [hr, elu]; exact lu_lt h,
    (pred_lt b), (pred_lt a), (pred_lt d)⟩, head_of (by rw [hr, elu])
    (show 0x3f ≠ 0x100 by decide) (show 0x3f ≠ 0x102 by decide), ?_⟩
  show body (0x3f) h (raw _ h) = _
  rw [hr]; clear hr ef
  unfold body bodyInt
  simp only [ec, ed, ea, eb, hl, chk_of, someBind, beq_self_eq_true, ↓reduceIte, Nat.reduceLT, BitVec.ofNat_toNat, BitVec.setWidth_eq, predOf_val, em]

theorem pmovGet (h : Head) (d : Reg) : Statement (.pmovGet h d) := by
  intro hw g k
  cases k
  obtain ⟨hA, hB, hC, hw⟩ : lastUseOk h.luA none = true ∧ lastUseOk h.luB none = true
      ∧ lastUseOk h.luC none = true ∧ (RegClass.ok .write d) = true := wf_parts rfl hw
  obtain ⟨r, hr⟩ : ∃ r, raw (.pmovGet h d) h = r := ⟨_, rfl⟩
  have ef : r.f = 0 := by subst hr; rfl
  have ed : r.d = d.code := by subst hr; rfl
  have ea : r.a = 0 := by subst hr; rfl
  have eb : r.b = 0 := by subst hr; rfl
  have elu : r.lu = h.lu := by subst hr; exact Nat.zero_add _
  have hl : r.lastUseOk false false false = true :=
    lastUse_checked (h := h) elu (unmarked hA) (unmarked hB) (unmarked hC)
  have ec : r.c = 0 := by simp only [Raw.c, ef]; omega
  have em : cut [1, 7] r.m = [0, 0, 0] := by simp only [Raw.m, ef, cut]; rfl
  have fd := regField_code 0 hw
  refine ⟨⟨by show (raw _ h).f < _; rw [hr, ef]; omega, by show (raw _ h).lu < _; rw [hr, elu]; exact lu_lt h,
    (Nat.zero_lt_succ _), (Nat.zero_lt_succ _), (code_lt d)⟩, head_of (by rw [hr, elu]) (show 0x40 ≠ 0x100 by decide) (show 0x40 ≠ 0x102 by decide), ?_⟩
  show body 0x40 h (raw _ h) = _
  rw [hr]; clear hr
  unfold body bodyInt
  simp only [ed, ea, eb, hl, chk_of, someBind, beq_self_eq_true, ↓reduceIte, Nat.reduceLT, ec, em, fd]
  rfl

theorem pmovSet (h : Head) (a : Reg) (mask : BitVec 7) : Statement (.pmovSet h a mask) := by
  intro hw g k
  cases k
  obtain ⟨hA, hB, hC, hw⟩ : lastUseOk h.luA (some a) = true ∧ lastUseOk h.luB none = true
      ∧ lastUseOk h.luC none = true ∧ (true) = true := wf_parts rfl hw
  obtain ⟨r, hr⟩ : ∃ r, raw (.pmovSet h a mask) h = r := ⟨_, rfl⟩
  have q := mask.isLt
  have ef : r.f = glue [(1, 1), (7, mask.toNat), (4, 0), (8, 0)] := by subst hr; rfl
  have ed : r.d = 0 := by subst hr; rfl
  have ea : r.a = a.code := by subst hr; rfl
  have eb : r.b = 0 := by subst hr; rfl
  have elu : r.lu = h.lu := by subst hr; exact Nat.zero_add _
  have hl : r.lastUseOk true false false = true :=
    lastUse_checked (h := h) elu (fun e => ⟨rfl, ea ▸ marked hA e⟩) (unmarked hB) (unmarked hC)
  have ec : r.c = 0 := by simp only [Raw.c, ef, glue]; omega
  have em : cut [1, 7] r.m = [1, mask.toNat, 0] := by
    simp only [Raw.m, ef, glue, cut, List.cons.injEq]; refine ⟨?_, ?_, ?_, trivial⟩ <;> omega
  have fa := regField_code 1 (read_ok a)
  refine ⟨⟨by show (raw _ h).f < _; rw [hr, ef]; (try simp only [glue]); omega, by show (raw _ h).lu < _; rw [hr, elu]; exact lu_lt h,
    (Nat.zero_lt_succ _), (code_lt a), (Nat.zero_lt_succ _)⟩, head_of (by rw [hr, elu]) (show 0x40 ≠ 0x100 by decide) (show 0x40 ≠ 0x102 by decide), ?_⟩
  show body 0x40 h (raw _ h) = _
  rw [hr]; clear hr
  unfold body bodyInt
  simp only [ed, ea, eb, hl, chk_of, someBind, beq_self_eq_true, ↓reduceIte, Nat.reduceLT, Nat.reduceBEq, Bool.false_eq_true, ec, em, fa, BitVec.ofNat_toNat, BitVec.setWidth_eq]
  rfl

theorem mov (h : Head) (d : Reg) (a : Reg) : Statement (.mov h d a) := by
  intro hw g k
  cases k
  obtain ⟨hA, hB, hC, hw⟩ : lastUseOk h.luA (some a) = true ∧ lastUseOk h.luB none = true
      ∧ lastUseOk h.luC none = true ∧ (RegClass.ok .write d) = true := wf_parts rfl hw
  have w0 := hw
  obtain ⟨r, hr⟩ : ∃ r, raw (.mov h d a) h = r := ⟨_, rfl⟩
  have ef : r.f = glue [(12, 0), (8, 0)] := by subst hr; rfl
  have ec : r.c = 0 := by simp only [Raw.c, ef, glue]; omega
  have em : r.m = 0 := by simp only [Raw.m, ef, glue]; omega
  have ed : r.d = d.code := by subst hr; rfl
  have ea : r.a = a.code := by subst hr; rfl
  have eb : r.b = 0 := by subst hr; rfl
  have elu : r.lu = h.lu := by subst hr; exact Nat.zero_add _
  have hl : r.lastUseOk true false false = true :=
    lastUse_checked (h := h) elu
      (fun e => ⟨rfl, ea ▸ marked hA e⟩) (unmarked hB) (unmarked hC)
  have fd := regField_code 0 (w0)
  have fa := regField_code 1 (read_ok a)
  refine ⟨⟨by show (raw _ h).f < _; rw [hr, ef]; simp only [glue]; omega, by show (raw _ h).lu < _; rw [hr, elu]; exact lu_lt h,
    (Nat.zero_lt_succ _), (code_lt a), (code_lt d)⟩, head_of (by rw [hr, elu])
    (show 0x41 ≠ 0x100 by decide) (show 0x41 ≠ 0x102 by decide), ?_⟩
  show body (0x41) h (raw _ h) = _
  rw [hr]; clear hr ef
  unfold body bodyInt
  simp only [ec, ed, ea, eb, hl, chk_of, someBind, beq_self_eq_true, ↓reduceIte, Nat.reduceLT, fd, fa, em]
  rfl

theorem movi (h : Head) (d : Reg) (imm : BitVec 28) : Statement (.movi h d imm) := by
  intro hw g k
  cases k
  obtain ⟨hA, hB, hC, hw⟩ : lastUseOk h.luA none = true ∧ lastUseOk h.luB none = true
      ∧ lastUseOk h.luC none = true ∧ (RegClass.ok .write d) = true := wf_parts rfl hw
  obtain ⟨r, hr⟩ : ∃ r, raw (.movi h d imm) h = r := ⟨_, rfl⟩
  have ed : r.d = d.code := by subst hr; rfl
  have ea : r.a = 0 := by subst hr; rfl
  have ei : BitVec.ofNat 28 (r.b * 2 ^ 20 + r.f) = imm := by
    have e : r.b * 2 ^ 20 + r.f = imm.toNat := by
      have e1 : r.b = imm.toNat / 2 ^ 20 := by subst hr; rfl
      have e2 : r.f = imm.toNat % 2 ^ 20 := by subst hr; rfl
      omega
    rw [e, BitVec.ofNat_toNat, BitVec.setWidth_eq]
  have hl : r.lastUseOk false false false = true :=
    lastUse_checked (h := h) (by subst hr; exact Nat.zero_add _) (unmarked hA) (unmarked hB) (unmarked hC)
  have fd := regField_code 0 hw
  have qi := imm.isLt
  refine ⟨⟨show imm.toNat % 2 ^ 20 < _ by omega, by show 0 + h.lu < _; have := lu_lt h; omega, show imm.toNat / 2 ^ 20 < _ by omega, (Nat.zero_lt_succ _), code_lt d⟩,
    head_of (Nat.zero_add _) (show 0x42 ≠ 0x100 by decide) (show 0x42 ≠ 0x102 by decide), ?_⟩
  show body 0x42 h (raw _ h) = _
  rw [hr]; clear hr
  unfold body bodyInt
  simp only [ed, ea, ei, hl, fd, chk_of, someBind, beq_self_eq_true, ↓reduceIte, Nat.reduceLT]
  rfl

theorem movu (h : Head) (d : Reg) (imm : BitVec 28) : Statement (.movu h d imm) := by
  intro hw g k
  cases k
  obtain ⟨hA, hB, hC, hw⟩ : lastUseOk h.luA none = true ∧ lastUseOk h.luB none = true
      ∧ lastUseOk h.luC none = true ∧ (RegClass.ok .write d) = true := wf_parts rfl hw
  obtain ⟨r, hr⟩ : ∃ r, raw (.movu h d imm) h = r := ⟨_, rfl⟩
  have ed : r.d = d.code := by subst hr; rfl
  have ea : r.a = 0 := by subst hr; rfl
  have ei : BitVec.ofNat 28 (r.b * 2 ^ 20 + r.f) = imm := by
    have e : r.b * 2 ^ 20 + r.f = imm.toNat := by
      have e1 : r.b = imm.toNat / 2 ^ 20 := by subst hr; rfl
      have e2 : r.f = imm.toNat % 2 ^ 20 := by subst hr; rfl
      omega
    rw [e, BitVec.ofNat_toNat, BitVec.setWidth_eq]
  have hl : r.lastUseOk false false false = true :=
    lastUse_checked (h := h) (by subst hr; exact Nat.zero_add _) (unmarked hA) (unmarked hB) (unmarked hC)
  have fd := regField_code 0 hw
  have qi := imm.isLt
  refine ⟨⟨show imm.toNat % 2 ^ 20 < _ by omega, by show 0 + h.lu < _; have := lu_lt h; omega, show imm.toNat / 2 ^ 20 < _ by omega, (Nat.zero_lt_succ _), code_lt d⟩,
    head_of (Nat.zero_add _) (show 0x43 ≠ 0x100 by decide) (show 0x43 ≠ 0x102 by decide), ?_⟩
  show body 0x43 h (raw _ h) = _
  rw [hr]; clear hr
  unfold body bodyInt
  simp only [ed, ea, ei, hl, fd, chk_of, someBind, beq_self_eq_true, ↓reduceIte, Nat.reduceLT]
  rfl

theorem lea (h : Head) (t : Sgn) (d : Reg) (a : Reg) (b : Reg) (s : Fin 4) : Statement (.lea h t d a b s) := by
  intro hw g k
  cases k
  obtain ⟨hA, hB, hC, hw⟩ : lastUseOk h.luA (some a) = true ∧ lastUseOk h.luB (some b) = true
      ∧ lastUseOk h.luC none = true ∧ (RegClass.ok .pair d && RegClass.ok .pair a) = true := wf_parts rfl hw
  simp only [Bool.and_eq_true] at hw
  obtain ⟨w0, w1⟩ := hw
  obtain ⟨r, hr⟩ : ∃ r, raw (.lea h t d a b s) h = r := ⟨_, rfl⟩
  have ef : r.f = glue [(2, s.val), (1, t.leaBit), (9, 0), (8, 0)] := by subst hr; rfl
  have q0 := s.isLt
  have q1 := (show t.leaBit < 2 by cases t <;> decide)
  have ec : r.c = 0 := by simp only [Raw.c, ef, glue]; omega
  have em : cut [2, 1] r.m = [s.val, t.leaBit, 0] := by
    simp only [Raw.m, ef, glue, cut, List.cons.injEq]; refine ⟨?_, ?_, ?_, trivial⟩ <;> omega
  have ed : r.d = d.code := by subst hr; rfl
  have ea : r.a = a.code := by subst hr; rfl
  have eb : r.b = b.code := by subst hr; rfl
  have elu : r.lu = h.lu := by subst hr; exact Nat.zero_add _
  have hl : r.lastUseOk true true false = true :=
    lastUse_checked (h := h) elu
      (fun e => ⟨rfl, ea ▸ marked hA e⟩) (fun e => ⟨rfl, eb ▸ marked hB e⟩) (unmarked hC)
  have fd := regField_code 0 (w0)
  have fa := regField_code 1 (w1)
  have fb := regField_code 2 (read_ok b)
  refine ⟨⟨by show (raw _ h).f < _; rw [hr, ef]; simp only [glue]; omega, by show (raw _ h).lu < _; rw [hr, elu]; exact lu_lt h,
    (code_lt b), (code_lt a), (code_lt d)⟩, head_of (by rw [hr, elu])
    (show 0x44 ≠ 0x100 by decide) (show 0x44 ≠ 0x102 by decide), ?_⟩
  show body (0x44) h (raw _ h) = _
  rw [hr]; clear hr ef
  unfold body bodyInt
  simp only [ec, ed, ea, eb, hl, chk_of, someBind, beq_self_eq_true, ↓reduceIte, Nat.reduceLT, finOfNat_val, sgn_ofLeaBit, fd, fa, fb, em]
  rfl

theorem pack (h : Head) (t : PackTy) (d : Reg) (a : Reg) (b : Reg) : Statement (.pack h t d a b) := by
  intro hw g k
  cases k
  obtain ⟨hA, hB, hC, hw⟩ : lastUseOk h.luA (some a) = true ∧ lastUseOk h.luB (some b) = true
      ∧ lastUseOk h.luC none = true ∧ (RegClass.ok .write d) = true := wf_parts rfl hw
  have w0 := hw
  obtain ⟨r, hr⟩ : ∃ r, raw (.pack h t d a b) h = r := ⟨_, rfl⟩
  have ef : r.f = glue [(12, 0), (8, 0)] := by subst hr; rfl
  have ec : r.c = 0 := by simp only [Raw.c, ef, glue]; omega
  have em : r.m = 0 := by simp only [Raw.m, ef, glue]; omega
  have ed : r.d = d.code := by subst hr; rfl
  have ea : r.a = a.code := by subst hr; rfl
  have eb : r.b = b.code := by subst hr; rfl
  have elu : r.lu = h.lu := by subst hr; exact Nat.zero_add _
  have hl : r.lastUseOk true true false = true :=
    lastUse_checked (h := h) elu
      (fun e => ⟨rfl, ea ▸ marked hA e⟩) (fun e => ⟨rfl, eb ▸ marked hB e⟩) (unmarked hC)
  have fd := regField_code 0 (w0)
  have fa := regField_code 1 (read_ok a)
  have fb := regField_code 2 (read_ok b)
  refine ⟨⟨by show (raw _ h).f < _; rw [hr, ef]; simp only [glue]; omega, by show (raw _ h).lu < _; rw [hr, elu]; exact lu_lt h,
    (code_lt b), (code_lt a), (code_lt d)⟩, head_of (by rw [hr, elu])
    (show 0x4a + t.code ≠ 0x100 by cases t <;> decide) (show 0x4a + t.code ≠ 0x102 by cases t <;> decide), ?_⟩
  show body (0x4a + t.code) h (raw _ h) = _
  rw [hr]; clear hr ef
  cases t <;>
    (unfold body bodyInt
     simp only [ec, ed, ea, eb, hl, chk_of, someBind, beq_self_eq_true, ↓reduceIte, Nat.reduceLT, Nat.reduceAdd, Nat.reduceSub, fd, fa, fb, PackTy.code, PackTy.of, em]
     rfl)

theorem unpack (h : Head) (d : Reg) (a : Reg) : Statement (.unpack h d a) := by
  intro hw g k
  cases k
  obtain ⟨hA, hB, hC, hw⟩ : lastUseOk h.luA (some a) = true ∧ lastUseOk h.luB none = true
      ∧ lastUseOk h.luC none = true ∧ (RegClass.ok .pair d) = true := wf_parts rfl hw
  have w0 := hw
  obtain ⟨r, hr⟩ : ∃ r, raw (.unpack h d a) h = r := ⟨_, rfl⟩
  have ef : r.f = glue [(12, 0), (8, 0)] := by subst hr; rfl
  have ec : r.c = 0 := by simp only [Raw.c, ef, glue]; omega
  have em : r.m = 0 := by simp only [Raw.m, ef, glue]; omega
  have ed : r.d = d.code := by subst hr; rfl
  have ea : r.a = a.code := by subst hr; rfl
  have eb : r.b = 0 := by subst hr; rfl
  have elu : r.lu = h.lu := by subst hr; exact Nat.zero_add _
  have hl : r.lastUseOk true false false = true :=
    lastUse_checked (h := h) elu
      (fun e => ⟨rfl, ea ▸ marked hA e⟩) (unmarked hB) (unmarked hC)
  have fd := regField_code 0 (w0)
  have fa := regField_code 1 (read_ok a)
  refine ⟨⟨by show (raw _ h).f < _; rw [hr, ef]; simp only [glue]; omega, by show (raw _ h).lu < _; rw [hr, elu]; exact lu_lt h,
    (Nat.zero_lt_succ _), (code_lt a), (code_lt d)⟩, head_of (by rw [hr, elu])
    (show 0x4c ≠ 0x100 by decide) (show 0x4c ≠ 0x102 by decide), ?_⟩
  show body (0x4c) h (raw _ h) = _
  rw [hr]; clear hr ef
  unfold body bodyInt
  simp only [ec, ed, ea, eb, hl, chk_of, someBind, beq_self_eq_true, ↓reduceIte, Nat.reduceLT, fd, fa, em]
  rfl

theorem shfl (h : Head) (m : ShflMode) (d : Reg) (a : Reg) (b : Reg) (c : Reg) (keep : Bool) (e : Fin 6) (pd : Pred) : Statement (.shfl h m d a b c keep e pd) := by
  intro hw g k
  cases k
  obtain ⟨hA, hB, hC, hw⟩ : lastUseOk h.luA (some a) = true ∧ lastUseOk h.luB (some b) = true
      ∧ lastUseOk h.luC (if keep then none else some c) = true ∧ (RegClass.ok .write d && (!keep || c == .v 0)) = true := wf_parts rfl hw
  simp only [Bool.and_eq_true] at hw
  obtain ⟨w0, w1⟩ := hw
  obtain ⟨r, hr⟩ : ∃ r, raw (.shfl h m d a b c keep e pd) h = r := ⟨_, rfl⟩
  have ef : r.f = glue [(3, pd.val), (3, e.val), (1, keep.toNat), (5, 0), (8, c.code)] := by subst hr; rfl
  have q0 := pd.isLt
  have q1 := e.isLt
  have q2 := toNat_lt keep
  have ec : r.c = c.code := by simp only [Raw.c, ef, glue]; omega
  have em : cut [3, 3, 1] r.m = [pd.val, e.val, keep.toNat, 0] := by
    simp only [Raw.m, ef, glue, cut, List.cons.injEq]; refine ⟨?_, ?_, ?_, ?_, trivial⟩ <;> omega
  have ed : r.d = d.code := by subst hr; rfl
  have ea : r.a = a.code := by subst hr; rfl
  have eb : r.b = b.code := by subst hr; rfl
  have elu : r.lu = h.lu := by subst hr; exact Nat.zero_add _
  have x0 : (!keep || !r.luC) = true := by rw [luC_of elu]; cases keep <;> [rfl; exact notMarked hC]
  have hl : r.lastUseOk true true true = true :=
    lastUse_checked (h := h) elu
      (fun e => ⟨rfl, ea ▸ marked hA e⟩) (fun e => ⟨rfl, eb ▸ marked hB e⟩) (fun e => ⟨rfl, ec ▸ (by cases keep <;> [exact marked hC e; exact unmarked hC e])⟩)
  have fd := regField_code 0 (w0)
  have fa := regField_code 1 (read_ok a)
  have fb := regField_code 2 (read_ok b)
  have fc := regField_code 3 (read_ok c)
  refine ⟨⟨by have qc := code_lt c; show (raw _ h).f < _; rw [hr, ef]; simp only [glue]; omega, by show (raw _ h).lu < _; rw [hr, elu]; exact lu_lt h,
    (code_lt b), (code_lt a), (code_lt d)⟩, head_of (by rw [hr, elu])
    (show 0x50 + m.code ≠ 0x100 by cases m <;> decide) (show 0x50 + m.code ≠ 0x102 by cases m <;> decide), ?_⟩
  show body (0x50 + m.code) h (raw _ h) = _
  rw [hr]; clear hr ef
  cases m <;>
    (unfold body bodyLane
     simp only [ec, ed, ea, eb, hl, chk_of, someBind, beq_self_eq_true, ↓reduceIte, Nat.reduceLT, Nat.reduceAdd, Nat.reduceSub, finOfNat_val, finOf_val, toNat_beq_one, fd, fa, fb, fc, w1, x0, code_beq_zero, ShflMode.code, ShflMode.of, em]
     rfl)

theorem slide (h : Head) (half : Bool) (d : Reg) (a : Reg) (b : Reg) (c : Reg) (down : Bool) (pd : Pred) : Statement (.slide h half d a b c down pd) := by
  intro hw g k
  cases k
  obtain ⟨hA, hB, hC, hw⟩ : lastUseOk h.luA (some a) = true ∧ lastUseOk h.luB (some b) = true
      ∧ lastUseOk h.luC (some c) = true ∧ (RegClass.ok .write d) = true := wf_parts rfl hw
  have w0 := hw
  obtain ⟨r, hr⟩ : ∃ r, raw (.slide h half d a b c down pd) h = r := ⟨_, rfl⟩
  have ef : r.f = glue [(1, down.toNat), (3, pd.val), (8, 0), (8, c.code)] := by subst hr; rfl
  have q0 := toNat_lt down
  have q1 := pd.isLt
  have ec : r.c = c.code := by simp only [Raw.c, ef, glue]; omega
  have em : cut [1, 3] r.m = [down.toNat, pd.val, 0] := by
    simp only [Raw.m, ef, glue, cut, List.cons.injEq]; refine ⟨?_, ?_, ?_, trivial⟩ <;> omega
  have ed : r.d = d.code := by subst hr; rfl
  have ea : r.a = a.code := by subst hr; rfl
  have eb : r.b = b.code := by subst hr; rfl
  have elu : r.lu = h.lu := by subst hr; exact Nat.zero_add _
  have hl : r.lastUseOk true true true = true :=
    lastUse_checked (h := h) elu
      (fun e => ⟨rfl, ea ▸ marked hA e⟩) (fun e => ⟨rfl, eb ▸ marked hB e⟩) (fun e => ⟨rfl, ec ▸ marked hC e⟩)
  have fd := regField_code 0 (w0)
  have fa := regField_code 1 (read_ok a)
  have fb := regField_code 2 (read_ok b)
  have fc := regField_code 3 (read_ok c)
  refine ⟨⟨by have qc := code_lt c; show (raw _ h).f < _; rw [hr, ef]; simp only [glue]; omega, by show (raw _ h).lu < _; rw [hr, elu]; exact lu_lt h,
    (code_lt b), (code_lt a), (code_lt d)⟩, head_of (by rw [hr, elu])
    (show 0x54 + half.toNat ≠ 0x100 by cases half <;> decide) (show 0x54 + half.toNat ≠ 0x102 by cases half <;> decide), ?_⟩
  show body (0x54 + half.toNat) h (raw _ h) = _
  rw [hr]; clear hr ef
  cases half <;>
    (unfold body bodyLane
     simp only [ec, ed, ea, eb, hl, chk_of, someBind, beq_self_eq_true, ↓reduceIte, Nat.reduceLT, Nat.reduceAdd, toNat_beq_one, finOfNat_val, fd, fa, fb, fc, Bool.toNat_true, Bool.toNat_false, Nat.reduceBEq, em]
     rfl)

theorem vote (h : Head) (t : VoteOp) (a : Pred) (neg : Bool) : Statement (.vote h t a neg) := by
  intro hw g k
  cases k
  obtain ⟨hA, hB, hC, hw⟩ : lastUseOk h.luA none = true ∧ lastUseOk h.luB none = true
      ∧ lastUseOk h.luC none = true ∧ t.ok = true := wf_parts rfl hw
  obtain ⟨r, hr⟩ : ∃ r, raw (.vote h t a neg) h = r := ⟨_, rfl⟩
  have ef : r.f = glue [(1, neg.toNat), (1, t.cnt.toNat), (10, 0), (8, 0)] := by subst hr; rfl
  have q0 := toNat_lt neg
  have q1 := toNat_lt t.cnt
  have ec : r.c = 0 := by simp only [Raw.c, ef, glue]; omega
  have em : cut [1, 1] r.m = [neg.toNat, t.cnt.toNat, 0] := by
    simp only [Raw.m, ef, glue, cut, List.cons.injEq]; refine ⟨?_, ?_, ?_, trivial⟩ <;> omega
  have ed : r.d = t.dCode := by subst hr; rfl
  have ea : r.a = a.val := by subst hr; rfl
  have eb : r.b = 0 := by subst hr; rfl
  have elu : r.lu = h.lu := by subst hr; exact Nat.zero_add _
  have hl : r.lastUseOk false false false = true :=
    lastUse_checked (h := h) elu (unmarked hA) (unmarked hB) (unmarked hC)
  refine ⟨⟨by show (raw _ h).f < _; rw [hr, ef]; simp only [glue]; omega, by show (raw _ h).lu < _; rw [hr, elu]; exact lu_lt h,
    Nat.zero_lt_succ _, pred_lt a, vote_lt t⟩, head_of (by rw [hr, elu])
    (show 0x56 + t.code ≠ 0x100 by cases t <;> simp [VoteOp.code]) (show 0x56 + t.code ≠ 0x102 by cases t <;> simp [VoteOp.code]), ?_⟩
  show body (0x56 + t.code) h (raw _ h) = _
  rw [hr]; clear hr ef
  cases t with
  | ballot d cnt =>
    have fd := regField_code (cls := .write) 0 hw
    simp only [VoteOp.dCode] at ed
    unfold body bodyLane
    simp only [VoteOp.code, VoteOp.cnt, ec, em, ed, ea, eb, hl, fd, predOf_val, toNat_beq_one, chk_of, someBind,
      beq_self_eq_true, ↓reduceIte, Nat.reduceLT, Nat.reduceAdd]
    rfl
  | _ d =>
    simp only [VoteOp.dCode] at ed
    unfold body bodyLane
    simp only [VoteOp.code, VoteOp.cnt, ec, em, ed, ea, eb, hl, predOf_val, toNat_beq_one, chk_of, someBind,
      beq_self_eq_true, ↓reduceIte, Nat.reduceLT, Nat.reduceAdd, Nat.reduceBEq, Bool.false_eq_true, Bool.not_false]

theorem matchLanes (h : Head) (d : Reg) (a : Reg) (pd : Pred) : Statement (.matchLanes h d a pd) := by
  intro hw g k
  cases k
  obtain ⟨hA, hB, hC, hw⟩ : lastUseOk h.luA (some a) = true ∧ lastUseOk h.luB none = true
      ∧ lastUseOk h.luC none = true ∧ (RegClass.ok .write d) = true := wf_parts rfl hw
  have w0 := hw
  obtain ⟨r, hr⟩ : ∃ r, raw (.matchLanes h d a pd) h = r := ⟨_, rfl⟩
  have ef : r.f = glue [(3, pd.val), (9, 0), (8, 0)] := by subst hr; rfl
  have q0 := pd.isLt
  have ec : r.c = 0 := by simp only [Raw.c, ef, glue]; omega
  have em : cut [3] r.m = [pd.val, 0] := by
    simp only [Raw.m, ef, glue, cut, List.cons.injEq]; refine ⟨?_, ?_, trivial⟩ <;> omega
  have ed : r.d = d.code := by subst hr; rfl
  have ea : r.a = a.code := by subst hr; rfl
  have eb : r.b = 0 := by subst hr; rfl
  have elu : r.lu = h.lu := by subst hr; exact Nat.zero_add _
  have hl : r.lastUseOk true false false = true :=
    lastUse_checked (h := h) elu
      (fun e => ⟨rfl, ea ▸ marked hA e⟩) (unmarked hB) (unmarked hC)
  have fd := regField_code 0 (w0)
  have fa := regField_code 1 (read_ok a)
  refine ⟨⟨by show (raw _ h).f < _; rw [hr, ef]; simp only [glue]; omega, by show (raw _ h).lu < _; rw [hr, elu]; exact lu_lt h,
    (Nat.zero_lt_succ _), (code_lt a), (code_lt d)⟩, head_of (by rw [hr, elu])
    (show 0x59 ≠ 0x100 by decide) (show 0x59 ≠ 0x102 by decide), ?_⟩
  show body (0x59) h (raw _ h) = _
  rw [hr]; clear hr ef
  unfold body bodyLane
  simp only [ec, ed, ea, eb, hl, chk_of, someBind, beq_self_eq_true, ↓reduceIte, Nat.reduceLT, finOfNat_val, fd, fa, em]
  rfl

theorem reduce (h : Head) (t : RedTy) (d : Reg) (a : Reg) (op : RedOp) (mem : Bool) : Statement (.reduce h t d a op mem) := by
  intro hw g k
  cases k
  obtain ⟨hA, hB, hC, hw⟩ : lastUseOk h.luA (some a) = true ∧ lastUseOk h.luB none = true
      ∧ lastUseOk h.luC none = true ∧ (RegClass.ok (if t.wide then .pair else .write) d && RegClass.ok (if t.wide then .pair else .read) a && !(mem && h.scope == .warp)) = true := wf_parts rfl hw
  simp only [Bool.and_eq_true] at hw
  obtain ⟨⟨w0, w1⟩, w2⟩ := hw
  obtain ⟨r, hr⟩ : ∃ r, raw (.reduce h t d a op mem) h = r := ⟨_, rfl⟩
  have ef : r.f = glue [(2, op.code), (1, mem.toNat), (9, 0), (8, 0)] := by subst hr; rfl
  have q0 := (show op.code < 4 by cases op <;> decide)
  have q1 := toNat_lt mem
  have ec : r.c = 0 := by simp only [Raw.c, ef, glue]; omega
  have em : cut [2, 1] r.m = [op.code, mem.toNat, 0] := by
    simp only [Raw.m, ef, glue, cut, List.cons.injEq]; refine ⟨?_, ?_, ?_, trivial⟩ <;> omega
  have ed : r.d = d.code := by subst hr; rfl
  have ea : r.a = a.code := by subst hr; rfl
  have eb : r.b = 0 := by subst hr; rfl
  have elu : r.lu = h.lu := by subst hr; exact Nat.zero_add _
  have hl : r.lastUseOk true false false = true :=
    lastUse_checked (h := h) elu
      (fun e => ⟨rfl, ea ▸ marked hA e⟩) (unmarked hB) (unmarked hC)
  have fd := regField_code 0 (w0)
  have fa := regField_code 1 (w1)
  refine ⟨⟨by show (raw _ h).f < _; rw [hr, ef]; simp only [glue]; omega, by show (raw _ h).lu < _; rw [hr, elu]; exact lu_lt h,
    (Nat.zero_lt_succ _), (code_lt a), (code_lt d)⟩, head_of (by rw [hr, elu])
    (show 0x5a + t.code ≠ 0x100 by cases t <;> decide) (show 0x5a + t.code ≠ 0x102 by cases t <;> decide), ?_⟩
  show body (0x5a + t.code) h (raw _ h) = _
  rw [hr]; clear hr ef
  cases t <;>
    (unfold body bodyLane
     simp only [ec, ed, ea, eb, hl, chk_of, someBind, beq_self_eq_true, ↓reduceIte, Nat.reduceLT, Nat.reduceAdd, Nat.reduceSub, redOp_of_code, toNat_beq_one, fd, fa, w2, RedTy.code, RedTy.of, em]
     rfl)

theorem scan (h : Head) (t : ScanTy) (d : Reg) (a : Reg) (op : RedOp) (excl : Bool) (mem : Bool) : Statement (.scan h t d a op excl mem) := by
  intro hw g k
  cases k
  obtain ⟨hA, hB, hC, hw⟩ : lastUseOk h.luA (some a) = true ∧ lastUseOk h.luB none = true
      ∧ lastUseOk h.luC none = true ∧ (RegClass.ok .write d && !(mem && h.scope == .warp) && (t == .i32 || op == .add)) = true := wf_parts rfl hw
  simp only [Bool.and_eq_true] at hw
  obtain ⟨⟨w0, w1⟩, w2⟩ := hw
  obtain ⟨r, hr⟩ : ∃ r, raw (.scan h t d a op excl mem) h = r := ⟨_, rfl⟩
  have ef : r.f = glue [(2, op.code), (1, excl.toNat), (1, mem.toNat), (8, 0), (8, 0)] := by subst hr; rfl
  have q0 := (show op.code < 4 by cases op <;> decide)
  have q1 := toNat_lt excl
  have q2 := toNat_lt mem
  have ec : r.c = 0 := by simp only [Raw.c, ef, glue]; omega
  have em : cut [2, 1, 1] r.m = [op.code, excl.toNat, mem.toNat, 0] := by
    simp only [Raw.m, ef, glue, cut, List.cons.injEq]; refine ⟨?_, ?_, ?_, ?_, trivial⟩ <;> omega
  have ed : r.d = d.code := by subst hr; rfl
  have ea : r.a = a.code := by subst hr; rfl
  have eb : r.b = 0 := by subst hr; rfl
  have elu : r.lu = h.lu := by subst hr; exact Nat.zero_add _
  have hl : r.lastUseOk true false false = true :=
    lastUse_checked (h := h) elu
      (fun e => ⟨rfl, ea ▸ marked hA e⟩) (unmarked hB) (unmarked hC)
  have fd := regField_code 0 (w0)
  have fa := regField_code 1 (read_ok a)
  refine ⟨⟨by show (raw _ h).f < _; rw [hr, ef]; simp only [glue]; omega, by show (raw _ h).lu < _; rw [hr, elu]; exact lu_lt h,
    (Nat.zero_lt_succ _), (code_lt a), (code_lt d)⟩, head_of (by rw [hr, elu])
    (show 0x5e + t.code ≠ 0x100 by cases t <;> decide) (show 0x5e + t.code ≠ 0x102 by cases t <;> decide), ?_⟩
  show body (0x5e + t.code) h (raw _ h) = _
  rw [hr]; clear hr ef
  cases t <;>
    (unfold body bodyLane
     simp only [ec, ed, ea, eb, hl, chk_of, someBind, beq_self_eq_true, ↓reduceIte, Nat.reduceLT, Nat.reduceAdd, Nat.reduceSub, redOp_of_code, toNat_beq_one, fd, fa, w1, w2, ScanTy.code, ScanTy.of, em]
     rfl)

theorem intersect (h : Head) (d : Reg) (a : Reg) (b : Reg) (c : Reg) : Statement (.intersect h d a b c) := by
  intro hw g k
  cases k
  obtain ⟨hA, hB, hC, hw⟩ : lastUseOk h.luA (some a) = true ∧ lastUseOk h.luB (some b) = true
      ∧ lastUseOk h.luC none = true ∧ (RegClass.ok .write d && RegClass.ok .sPair c) = true := wf_parts rfl hw
  simp only [Bool.and_eq_true] at hw
  obtain ⟨w0, w1⟩ := hw
  obtain ⟨r, hr⟩ : ∃ r, raw (.intersect h d a b c) h = r := ⟨_, rfl⟩
  have ef : r.f = glue [(12, 0), (8, c.code)] := by subst hr; rfl
  have ec : r.c = c.code := by simp only [Raw.c, ef, glue]; omega
  have em : r.m = 0 := by simp only [Raw.m, ef, glue]; omega
  have ed : r.d = d.code := by subst hr; rfl
  have ea : r.a = a.code := by subst hr; rfl
  have eb : r.b = b.code := by subst hr; rfl
  have elu : r.lu = h.lu := by subst hr; exact Nat.zero_add _
  have hl : r.lastUseOk true true false = true :=
    lastUse_checked (h := h) elu
      (fun e => ⟨rfl, ea ▸ marked hA e⟩) (fun e => ⟨rfl, eb ▸ marked hB e⟩) (unmarked hC)
  have fd := regField_code 0 (w0)
  have fa := regField_code 1 (read_ok a)
  have fb := regField_code 2 (read_ok b)
  have fc := regField_code 3 (w1)
  refine ⟨⟨by have qc := code_lt c; show (raw _ h).f < _; rw [hr, ef]; simp only [glue]; omega, by show (raw _ h).lu < _; rw [hr, elu]; exact lu_lt h,
    (code_lt b), (code_lt a), (code_lt d)⟩, head_of (by rw [hr, elu])
    (show 0x62 ≠ 0x100 by decide) (show 0x62 ≠ 0x102 by decide), ?_⟩
  show body (0x62) h (raw _ h) = _
  rw [hr]; clear hr ef
  unfold body bodyLane
  simp only [ec, ed, ea, eb, hl, chk_of, someBind, beq_self_eq_true, ↓reduceIte, Nat.reduceLT, fd, fa, fb, fc, em]
  rfl

theorem compact (h : Head) (d : Reg) (a : Reg) (b : Reg) (c : Reg) (p : Pred) (neg : Bool) : Statement (.compact h d a b c p neg) := by
  intro hw g k
  cases k
  obtain ⟨hA, hB, hC, hw⟩ : lastUseOk h.luA (some a) = true ∧ lastUseOk h.luB none = true
      ∧ lastUseOk h.luC (some c) = true ∧ (RegClass.ok .write d && RegClass.ok .sZero b) = true := wf_parts rfl hw
  simp only [Bool.and_eq_true] at hw
  obtain ⟨w0, w1⟩ := hw
  obtain ⟨r, hr⟩ : ∃ r, raw (.compact h d a b c p neg) h = r := ⟨_, rfl⟩
  have ef : r.f = glue [(3, p.val), (1, neg.toNat), (8, 0), (8, c.code)] := by subst hr; rfl
  have q0 := p.isLt
  have q1 := toNat_lt neg
  have ec : r.c = c.code := by simp only [Raw.c, ef, glue]; omega
  have em : cut [3, 1] r.m = [p.val, neg.toNat, 0] := by
    simp only [Raw.m, ef, glue, cut, List.cons.injEq]; refine ⟨?_, ?_, ?_, trivial⟩ <;> omega
  have ed : r.d = d.code := by subst hr; rfl
  have ea : r.a = a.code := by subst hr; rfl
  have eb : r.b = b.code := by subst hr; rfl
  have elu : r.lu = h.lu := by subst hr; exact Nat.zero_add _
  have hl : r.lastUseOk true false true = true :=
    lastUse_checked (h := h) elu
      (fun e => ⟨rfl, ea ▸ marked hA e⟩) (unmarked hB) (fun e => ⟨rfl, ec ▸ marked hC e⟩)
  have fd := regField_code 0 (w0)
  have fa := regField_code 1 (read_ok a)
  have fb := regField_code 2 (w1)
  have fc := regField_code 3 (read_ok c)
  refine ⟨⟨by have qc := code_lt c; show (raw _ h).f < _; rw [hr, ef]; simp only [glue]; omega, by show (raw _ h).lu < _; rw [hr, elu]; exact lu_lt h,
    (code_lt b), (code_lt a), (code_lt d)⟩, head_of (by rw [hr, elu])
    (show 0x63 ≠ 0x100 by decide) (show 0x63 ≠ 0x102 by decide), ?_⟩
  show body (0x63) h (raw _ h) = _
  rw [hr]; clear hr ef
  unfold body bodyLane
  simp only [ec, ed, ea, eb, hl, chk_of, someBind, beq_self_eq_true, ↓reduceIte, Nat.reduceLT, finOfNat_val, toNat_beq_one, fd, fa, fb, fc, em]
  rfl

theorem xpair (h : Head) (d : Reg) (a : Reg) : Statement (.xpair h d a) := by
  intro hw g k
  cases k
  obtain ⟨hA, hB, hC, hw⟩ : lastUseOk h.luA (some a) = true ∧ lastUseOk h.luB none = true
      ∧ lastUseOk h.luC none = true ∧ (RegClass.ok .write d) = true := wf_parts rfl hw
  have w0 := hw
  obtain ⟨r, hr⟩ : ∃ r, raw (.xpair h d a) h = r := ⟨_, rfl⟩
  have ef : r.f = glue [(12, 0), (8, 0)] := by subst hr; rfl
  have ec : r.c = 0 := by simp only [Raw.c, ef, glue]; omega
  have em : r.m = 0 := by simp only [Raw.m, ef, glue]; omega
  have ed : r.d = d.code := by subst hr; rfl
  have ea : r.a = a.code := by subst hr; rfl
  have eb : r.b = 0 := by subst hr; rfl
  have elu : r.lu = h.lu := by subst hr; exact Nat.zero_add _
  have hl : r.lastUseOk true false false = true :=
    lastUse_checked (h := h) elu
      (fun e => ⟨rfl, ea ▸ marked hA e⟩) (unmarked hB) (unmarked hC)
  have fd := regField_code 0 (w0)
  have fa := regField_code 1 (read_ok a)
  refine ⟨⟨by show (raw _ h).f < _; rw [hr, ef]; simp only [glue]; omega, by show (raw _ h).lu < _; rw [hr, elu]; exact lu_lt h,
    (Nat.zero_lt_succ _), (code_lt a), (code_lt d)⟩, head_of (by rw [hr, elu])
    (show 0x60 ≠ 0x100 by decide) (show 0x60 ≠ 0x102 by decide), ?_⟩
  show body (0x60) h (raw _ h) = _
  rw [hr]; clear hr ef
  unfold body bodyLane
  simp only [ec, ed, ea, eb, hl, chk_of, someBind, beq_self_eq_true, ↓reduceIte, Nat.reduceLT, fd, fa, em]
  rfl

theorem xswap (h : Head) (d : Reg) (a : Reg) (pd : Pred) : Statement (.xswap h d a pd) := by
  intro hw g k
  cases k
  obtain ⟨hA, hB, hC, hw⟩ : lastUseOk h.luA (some a) = true ∧ lastUseOk h.luB none = true
      ∧ lastUseOk h.luC none = true ∧ (RegClass.ok .write d) = true := wf_parts rfl hw
  have w0 := hw
  obtain ⟨r, hr⟩ : ∃ r, raw (.xswap h d a pd) h = r := ⟨_, rfl⟩
  have ef : r.f = glue [(3, pd.val), (9, 0), (8, 0)] := by subst hr; rfl
  have q0 := pd.isLt
  have ec : r.c = 0 := by simp only [Raw.c, ef, glue]; omega
  have em : cut [3] r.m = [pd.val, 0] := by
    simp only [Raw.m, ef, glue, cut, List.cons.injEq]; refine ⟨?_, ?_, trivial⟩ <;> omega
  have ed : r.d = d.code := by subst hr; rfl
  have ea : r.a = a.code := by subst hr; rfl
  have eb : r.b = 0 := by subst hr; rfl
  have elu : r.lu = h.lu := by subst hr; exact Nat.zero_add _
  have hl : r.lastUseOk true false false = true :=
    lastUse_checked (h := h) elu
      (fun e => ⟨rfl, ea ▸ marked hA e⟩) (unmarked hB) (unmarked hC)
  have fd := regField_code 0 (w0)
  have fa := regField_code 1 (read_ok a)
  refine ⟨⟨by show (raw _ h).f < _; rw [hr, ef]; simp only [glue]; omega, by show (raw _ h).lu < _; rw [hr, elu]; exact lu_lt h,
    (Nat.zero_lt_succ _), (code_lt a), (code_lt d)⟩, head_of (by rw [hr, elu])
    (show 0x61 ≠ 0x100 by decide) (show 0x61 ≠ 0x102 by decide), ?_⟩
  show body (0x61) h (raw _ h) = _
  rw [hr]; clear hr ef
  unfold body bodyLane
  simp only [ec, ed, ea, eb, hl, chk_of, someBind, beq_self_eq_true, ↓reduceIte, Nat.reduceLT, finOfNat_val, fd, fa, em]
  rfl

theorem fadd (h : Head) (t : FTy) (d : Reg) (a : Reg) (b : Reg) (rm : Rm) : Statement (.fadd h t d a b rm) := by
  intro hw g k
  cases k
  obtain ⟨hA, hB, hC, hw⟩ : lastUseOk h.luA (some a) = true ∧ lastUseOk h.luB (some b) = true
      ∧ lastUseOk h.luC none = true ∧ (RegClass.ok .write d) = true := wf_parts rfl hw
  have w0 := hw
  obtain ⟨r, hr⟩ : ∃ r, raw (.fadd h t d a b rm) h = r := ⟨_, rfl⟩
  have ef : r.f = glue [(3, rm.code), (9, 0), (8, 0)] := by subst hr; rfl
  have q0 := (show rm.code < 8 by cases rm <;> decide)
  have ec : r.c = 0 := by simp only [Raw.c, ef, glue]; omega
  have em : cut [3] r.m = [rm.code, 0] := by
    simp only [Raw.m, ef, glue, cut, List.cons.injEq]; refine ⟨?_, ?_, trivial⟩ <;> omega
  have ed : r.d = d.code := by subst hr; rfl
  have ea : r.a = a.code := by subst hr; rfl
  have eb : r.b = b.code := by subst hr; rfl
  have elu : r.lu = h.lu := by subst hr; exact Nat.zero_add _
  have hl : r.lastUseOk true true false = true :=
    lastUse_checked (h := h) elu
      (fun e => ⟨rfl, ea ▸ marked hA e⟩) (fun e => ⟨rfl, eb ▸ marked hB e⟩) (unmarked hC)
  have fd := regField_code 0 (w0)
  have fa := regField_code 1 (read_ok a)
  have fb := regField_code 2 (read_ok b)
  refine ⟨⟨by show (raw _ h).f < _; rw [hr, ef]; simp only [glue]; omega, by show (raw _ h).lu < _; rw [hr, elu]; exact lu_lt h,
    (code_lt b), (code_lt a), (code_lt d)⟩, head_of (by rw [hr, elu])
    (show 0x80 + t.code ≠ 0x100 by cases t <;> decide) (show 0x80 + t.code ≠ 0x102 by cases t <;> decide), ?_⟩
  show body (0x80 + t.code) h (raw _ h) = _
  rw [hr]; clear hr ef
  cases t <;>
    (unfold body bodyFloat
     simp only [ec, ed, ea, eb, hl, chk_of, someBind, beq_self_eq_true, ↓reduceIte, Nat.reduceLT, Nat.reduceAdd, Nat.reduceSub, rm_of_code, fd, fa, fb, FTy.code, FTy.of, em]
     rfl)

theorem fsub (h : Head) (t : FTy) (d : Reg) (a : Reg) (b : Reg) (rm : Rm) : Statement (.fsub h t d a b rm) := by
  intro hw g k
  cases k
  obtain ⟨hA, hB, hC, hw⟩ : lastUseOk h.luA (some a) = true ∧ lastUseOk h.luB (some b) = true
      ∧ lastUseOk h.luC none = true ∧ (RegClass.ok .write d) = true := wf_parts rfl hw
  have w0 := hw
  obtain ⟨r, hr⟩ : ∃ r, raw (.fsub h t d a b rm) h = r := ⟨_, rfl⟩
  have ef : r.f = glue [(3, rm.code), (9, 0), (8, 0)] := by subst hr; rfl
  have q0 := (show rm.code < 8 by cases rm <;> decide)
  have ec : r.c = 0 := by simp only [Raw.c, ef, glue]; omega
  have em : cut [3] r.m = [rm.code, 0] := by
    simp only [Raw.m, ef, glue, cut, List.cons.injEq]; refine ⟨?_, ?_, trivial⟩ <;> omega
  have ed : r.d = d.code := by subst hr; rfl
  have ea : r.a = a.code := by subst hr; rfl
  have eb : r.b = b.code := by subst hr; rfl
  have elu : r.lu = h.lu := by subst hr; exact Nat.zero_add _
  have hl : r.lastUseOk true true false = true :=
    lastUse_checked (h := h) elu
      (fun e => ⟨rfl, ea ▸ marked hA e⟩) (fun e => ⟨rfl, eb ▸ marked hB e⟩) (unmarked hC)
  have fd := regField_code 0 (w0)
  have fa := regField_code 1 (read_ok a)
  have fb := regField_code 2 (read_ok b)
  refine ⟨⟨by show (raw _ h).f < _; rw [hr, ef]; simp only [glue]; omega, by show (raw _ h).lu < _; rw [hr, elu]; exact lu_lt h,
    (code_lt b), (code_lt a), (code_lt d)⟩, head_of (by rw [hr, elu])
    (show 0x83 + t.code ≠ 0x100 by cases t <;> decide) (show 0x83 + t.code ≠ 0x102 by cases t <;> decide), ?_⟩
  show body (0x83 + t.code) h (raw _ h) = _
  rw [hr]; clear hr ef
  cases t <;>
    (unfold body bodyFloat
     simp only [ec, ed, ea, eb, hl, chk_of, someBind, beq_self_eq_true, ↓reduceIte, Nat.reduceLT, Nat.reduceAdd, Nat.reduceSub, rm_of_code, fd, fa, fb, FTy.code, FTy.of, em]
     rfl)

theorem fmul (h : Head) (t : FTy) (d : Reg) (a : Reg) (b : Reg) (rm : Rm) : Statement (.fmul h t d a b rm) := by
  intro hw g k
  cases k
  obtain ⟨hA, hB, hC, hw⟩ : lastUseOk h.luA (some a) = true ∧ lastUseOk h.luB (some b) = true
      ∧ lastUseOk h.luC none = true ∧ (RegClass.ok .write d) = true := wf_parts rfl hw
  have w0 := hw
  obtain ⟨r, hr⟩ : ∃ r, raw (.fmul h t d a b rm) h = r := ⟨_, rfl⟩
  have ef : r.f = glue [(3, rm.code), (9, 0), (8, 0)] := by subst hr; rfl
  have q0 := (show rm.code < 8 by cases rm <;> decide)
  have ec : r.c = 0 := by simp only [Raw.c, ef, glue]; omega
  have em : cut [3] r.m = [rm.code, 0] := by
    simp only [Raw.m, ef, glue, cut, List.cons.injEq]; refine ⟨?_, ?_, trivial⟩ <;> omega
  have ed : r.d = d.code := by subst hr; rfl
  have ea : r.a = a.code := by subst hr; rfl
  have eb : r.b = b.code := by subst hr; rfl
  have elu : r.lu = h.lu := by subst hr; exact Nat.zero_add _
  have hl : r.lastUseOk true true false = true :=
    lastUse_checked (h := h) elu
      (fun e => ⟨rfl, ea ▸ marked hA e⟩) (fun e => ⟨rfl, eb ▸ marked hB e⟩) (unmarked hC)
  have fd := regField_code 0 (w0)
  have fa := regField_code 1 (read_ok a)
  have fb := regField_code 2 (read_ok b)
  refine ⟨⟨by show (raw _ h).f < _; rw [hr, ef]; simp only [glue]; omega, by show (raw _ h).lu < _; rw [hr, elu]; exact lu_lt h,
    (code_lt b), (code_lt a), (code_lt d)⟩, head_of (by rw [hr, elu])
    (show 0x86 + t.code ≠ 0x100 by cases t <;> decide) (show 0x86 + t.code ≠ 0x102 by cases t <;> decide), ?_⟩
  show body (0x86 + t.code) h (raw _ h) = _
  rw [hr]; clear hr ef
  cases t <;>
    (unfold body bodyFloat
     simp only [ec, ed, ea, eb, hl, chk_of, someBind, beq_self_eq_true, ↓reduceIte, Nat.reduceLT, Nat.reduceAdd, Nat.reduceSub, rm_of_code, fd, fa, fb, FTy.code, FTy.of, em]
     rfl)

theorem ffma (h : Head) (t : FTy) (d : Reg) (a : Reg) (b : Reg) (c : Reg) (rm : Rm) : Statement (.ffma h t d a b c rm) := by
  intro hw g k
  cases k
  obtain ⟨hA, hB, hC, hw⟩ : lastUseOk h.luA (some a) = true ∧ lastUseOk h.luB (some b) = true
      ∧ lastUseOk h.luC (some c) = true ∧ (RegClass.ok .write d) = true := wf_parts rfl hw
  have w0 := hw
  obtain ⟨r, hr⟩ : ∃ r, raw (.ffma h t d a b c rm) h = r := ⟨_, rfl⟩
  have ef : r.f = glue [(3, rm.code), (9, 0), (8, c.code)] := by subst hr; rfl
  have q0 := (show rm.code < 8 by cases rm <;> decide)
  have ec : r.c = c.code := by simp only [Raw.c, ef, glue]; omega
  have em : cut [3] r.m = [rm.code, 0] := by
    simp only [Raw.m, ef, glue, cut, List.cons.injEq]; refine ⟨?_, ?_, trivial⟩ <;> omega
  have ed : r.d = d.code := by subst hr; rfl
  have ea : r.a = a.code := by subst hr; rfl
  have eb : r.b = b.code := by subst hr; rfl
  have elu : r.lu = h.lu := by subst hr; exact Nat.zero_add _
  have hl : r.lastUseOk true true true = true :=
    lastUse_checked (h := h) elu
      (fun e => ⟨rfl, ea ▸ marked hA e⟩) (fun e => ⟨rfl, eb ▸ marked hB e⟩) (fun e => ⟨rfl, ec ▸ marked hC e⟩)
  have fd := regField_code 0 (w0)
  have fa := regField_code 1 (read_ok a)
  have fb := regField_code 2 (read_ok b)
  have fc := regField_code 3 (read_ok c)
  refine ⟨⟨by have qc := code_lt c; show (raw _ h).f < _; rw [hr, ef]; simp only [glue]; omega, by show (raw _ h).lu < _; rw [hr, elu]; exact lu_lt h,
    (code_lt b), (code_lt a), (code_lt d)⟩, head_of (by rw [hr, elu])
    (show 0x89 + t.code ≠ 0x100 by cases t <;> decide) (show 0x89 + t.code ≠ 0x102 by cases t <;> decide), ?_⟩
  show body (0x89 + t.code) h (raw _ h) = _
  rw [hr]; clear hr ef
  cases t <;>
    (unfold body bodyFloat
     simp only [ec, ed, ea, eb, hl, chk_of, someBind, beq_self_eq_true, ↓reduceIte, Nat.reduceLT, Nat.reduceAdd, Nat.reduceSub, rm_of_code, fd, fa, fb, fc, FTy.code, FTy.of, em]
     rfl)

theorem ffmaw (h : Head) (d : Reg) (a : Reg) (b : Reg) (c : Reg) (rm : Rm) (bf16 : Bool) (hi : Bool) : Statement (.ffmaw h d a b c rm bf16 hi) := by
  intro hw g k
  cases k
  obtain ⟨hA, hB, hC, hw⟩ : lastUseOk h.luA (some a) = true ∧ lastUseOk h.luB (some b) = true
      ∧ lastUseOk h.luC (some c) = true ∧ (RegClass.ok .write d) = true := wf_parts rfl hw
  have w0 := hw
  obtain ⟨r, hr⟩ : ∃ r, raw (.ffmaw h d a b c rm bf16 hi) h = r := ⟨_, rfl⟩
  have ef : r.f = glue [(3, rm.code), (1, bf16.toNat), (1, hi.toNat), (7, 0), (8, c.code)] := by subst hr; rfl
  have q0 := (show rm.code < 8 by cases rm <;> decide)
  have q1 := toNat_lt bf16
  have q2 := toNat_lt hi
  have ec : r.c = c.code := by simp only [Raw.c, ef, glue]; omega
  have em : cut [3, 1, 1] r.m = [rm.code, bf16.toNat, hi.toNat, 0] := by
    simp only [Raw.m, ef, glue, cut, List.cons.injEq]; refine ⟨?_, ?_, ?_, ?_, trivial⟩ <;> omega
  have ed : r.d = d.code := by subst hr; rfl
  have ea : r.a = a.code := by subst hr; rfl
  have eb : r.b = b.code := by subst hr; rfl
  have elu : r.lu = h.lu := by subst hr; exact Nat.zero_add _
  have hl : r.lastUseOk true true true = true :=
    lastUse_checked (h := h) elu
      (fun e => ⟨rfl, ea ▸ marked hA e⟩) (fun e => ⟨rfl, eb ▸ marked hB e⟩) (fun e => ⟨rfl, ec ▸ marked hC e⟩)
  have fd := regField_code 0 (w0)
  have fa := regField_code 1 (read_ok a)
  have fb := regField_code 2 (read_ok b)
  have fc := regField_code 3 (read_ok c)
  refine ⟨⟨by have qc := code_lt c; show (raw _ h).f < _; rw [hr, ef]; simp only [glue]; omega, by show (raw _ h).lu < _; rw [hr, elu]; exact lu_lt h,
    (code_lt b), (code_lt a), (code_lt d)⟩, head_of (by rw [hr, elu])
    (show 0x8c ≠ 0x100 by decide) (show 0x8c ≠ 0x102 by decide), ?_⟩
  show body (0x8c) h (raw _ h) = _
  rw [hr]; clear hr ef
  unfold body bodyFloat
  simp only [ec, ed, ea, eb, hl, chk_of, someBind, beq_self_eq_true, ↓reduceIte, Nat.reduceLT, rm_of_code, toNat_beq_one, fd, fa, fb, fc, em]
  rfl

theorem fmin (h : Head) (t : FTy2) (d : Reg) (a : Reg) (b : Reg) : Statement (.fmin h t d a b) := by
  intro hw g k
  cases k
  obtain ⟨hA, hB, hC, hw⟩ : lastUseOk h.luA (some a) = true ∧ lastUseOk h.luB (some b) = true
      ∧ lastUseOk h.luC none = true ∧ (RegClass.ok .write d) = true := wf_parts rfl hw
  have w0 := hw
  obtain ⟨r, hr⟩ : ∃ r, raw (.fmin h t d a b) h = r := ⟨_, rfl⟩
  have ef : r.f = glue [(12, 0), (8, 0)] := by subst hr; rfl
  have ec : r.c = 0 := by simp only [Raw.c, ef, glue]; omega
  have em : r.m = 0 := by simp only [Raw.m, ef, glue]; omega
  have ed : r.d = d.code := by subst hr; rfl
  have ea : r.a = a.code := by subst hr; rfl
  have eb : r.b = b.code := by subst hr; rfl
  have elu : r.lu = h.lu := by subst hr; exact Nat.zero_add _
  have hl : r.lastUseOk true true false = true :=
    lastUse_checked (h := h) elu
      (fun e => ⟨rfl, ea ▸ marked hA e⟩) (fun e => ⟨rfl, eb ▸ marked hB e⟩) (unmarked hC)
  have fd := regField_code 0 (w0)
  have fa := regField_code 1 (read_ok a)
  have fb := regField_code 2 (read_ok b)
  refine ⟨⟨by show (raw _ h).f < _; rw [hr, ef]; simp only [glue]; omega, by show (raw _ h).lu < _; rw [hr, elu]; exact lu_lt h,
    (code_lt b), (code_lt a), (code_lt d)⟩, head_of (by rw [hr, elu])
    (show 0x8d + t.code ≠ 0x100 by cases t <;> decide) (show 0x8d + t.code ≠ 0x102 by cases t <;> decide), ?_⟩
  show body (0x8d + t.code) h (raw _ h) = _
  rw [hr]; clear hr ef
  cases t <;>
    (unfold body bodyFloat
     simp only [ec, ed, ea, eb, hl, chk_of, someBind, beq_self_eq_true, ↓reduceIte, Nat.reduceLT, Nat.reduceAdd, Nat.reduceSub, fd, fa, fb, FTy2.code, FTy2.of, em]
     rfl)

theorem fmax (h : Head) (t : FTy2) (d : Reg) (a : Reg) (b : Reg) : Statement (.fmax h t d a b) := by
  intro hw g k
  cases k
  obtain ⟨hA, hB, hC, hw⟩ : lastUseOk h.luA (some a) = true ∧ lastUseOk h.luB (some b) = true
      ∧ lastUseOk h.luC none = true ∧ (RegClass.ok .write d) = true := wf_parts rfl hw
  have w0 := hw
  obtain ⟨r, hr⟩ : ∃ r, raw (.fmax h t d a b) h = r := ⟨_, rfl⟩
  have ef : r.f = glue [(12, 0), (8, 0)] := by subst hr; rfl
  have ec : r.c = 0 := by simp only [Raw.c, ef, glue]; omega
  have em : r.m = 0 := by simp only [Raw.m, ef, glue]; omega
  have ed : r.d = d.code := by subst hr; rfl
  have ea : r.a = a.code := by subst hr; rfl
  have eb : r.b = b.code := by subst hr; rfl
  have elu : r.lu = h.lu := by subst hr; exact Nat.zero_add _
  have hl : r.lastUseOk true true false = true :=
    lastUse_checked (h := h) elu
      (fun e => ⟨rfl, ea ▸ marked hA e⟩) (fun e => ⟨rfl, eb ▸ marked hB e⟩) (unmarked hC)
  have fd := regField_code 0 (w0)
  have fa := regField_code 1 (read_ok a)
  have fb := regField_code 2 (read_ok b)
  refine ⟨⟨by show (raw _ h).f < _; rw [hr, ef]; simp only [glue]; omega, by show (raw _ h).lu < _; rw [hr, elu]; exact lu_lt h,
    (code_lt b), (code_lt a), (code_lt d)⟩, head_of (by rw [hr, elu])
    (show 0x8f + t.code ≠ 0x100 by cases t <;> decide) (show 0x8f + t.code ≠ 0x102 by cases t <;> decide), ?_⟩
  show body (0x8f + t.code) h (raw _ h) = _
  rw [hr]; clear hr ef
  cases t <;>
    (unfold body bodyFloat
     simp only [ec, ed, ea, eb, hl, chk_of, someBind, beq_self_eq_true, ↓reduceIte, Nat.reduceLT, Nat.reduceAdd, Nat.reduceSub, fd, fa, fb, FTy2.code, FTy2.of, em]
     rfl)

theorem fcmp (h : Head) (t : FTy2) (d : Pred) (a : Reg) (b : Reg) (cond : FCond) (e : Pred) : Statement (.fcmp h t d a b cond e) := by
  intro hw g k
  cases k
  obtain ⟨hA, hB, hC, hw⟩ : lastUseOk h.luA (some a) = true ∧ lastUseOk h.luB (some b) = true
      ∧ lastUseOk h.luC none = true ∧ ((t == .f16x2 || e == 0)) = true := wf_parts rfl hw
  have w0 := hw
  obtain ⟨r, hr⟩ : ∃ r, raw (.fcmp h t d a b cond e) h = r := ⟨_, rfl⟩
  have ef : r.f = glue [(3, cond.code), (1, 0), (3, e.val), (5, 0), (8, 0)] := by subst hr; rfl
  have q0 := (show cond.code < 8 by cases cond <;> decide)
  have q1 := e.isLt
  have ec : r.c = 0 := by simp only [Raw.c, ef, glue]; omega
  have em : cut [3, 1, 3] r.m = [cond.code, 0, e.val, 0] := by
    simp only [Raw.m, ef, glue, cut, List.cons.injEq]; refine ⟨?_, ?_, ?_, ?_, trivial⟩ <;> omega
  have ed : r.d = d.val := by subst hr; rfl
  have ea : r.a = a.code := by subst hr; rfl
  have eb : r.b = b.code := by subst hr; rfl
  have elu : r.lu = h.lu := by subst hr; exact Nat.zero_add _
  have hl : r.lastUseOk true true false = true :=
    lastUse_checked (h := h) elu
      (fun e => ⟨rfl, ea ▸ marked hA e⟩) (fun e => ⟨rfl, eb ▸ marked hB e⟩) (unmarked hC)
  have fa := regField_code 1 (read_ok a)
  have fb := regField_code 2 (read_ok b)
  refine ⟨⟨by show (raw _ h).f < _; rw [hr, ef]; simp only [glue]; omega, by show (raw _ h).lu < _; rw [hr, elu]; exact lu_lt h,
    (code_lt b), (code_lt a), (pred_lt d)⟩, head_of (by rw [hr, elu])
    (show 0x91 + t.code ≠ 0x100 by cases t <;> decide) (show 0x91 + t.code ≠ 0x102 by cases t <;> decide), ?_⟩
  show body (0x91 + t.code) h (raw _ h) = _
  rw [hr]; clear hr ef
  cases t <;>
    (unfold body bodyFloat
     simp only [ec, ed, ea, eb, hl, chk_of, someBind, beq_self_eq_true, ↓reduceIte, Nat.reduceLT, Nat.reduceAdd, Nat.reduceSub, fCond_of_code, finOfNat_val, predOf_val, fa, fb, w0, FTy2.code, FTy2.of, em]
     rfl)

theorem frnd (h : Head) (d : Reg) (a : Reg) (rm : Rm) : Statement (.frnd h d a rm) := by
  intro hw g k
  cases k
  obtain ⟨hA, hB, hC, hw⟩ : lastUseOk h.luA (some a) = true ∧ lastUseOk h.luB none = true
      ∧ lastUseOk h.luC none = true ∧ (RegClass.ok .write d) = true := wf_parts rfl hw
  have w0 := hw
  obtain ⟨r, hr⟩ : ∃ r, raw (.frnd h d a rm) h = r := ⟨_, rfl⟩
  have ef : r.f = glue [(3, rm.code), (9, 0), (8, 0)] := by subst hr; rfl
  have q0 := (show rm.code < 8 by cases rm <;> decide)
  have ec : r.c = 0 := by simp only [Raw.c, ef, glue]; omega
  have em : cut [3] r.m = [rm.code, 0] := by
    simp only [Raw.m, ef, glue, cut, List.cons.injEq]; refine ⟨?_, ?_, trivial⟩ <;> omega
  have ed : r.d = d.code := by subst hr; rfl
  have ea : r.a = a.code := by subst hr; rfl
  have eb : r.b = 0 := by subst hr; rfl
  have elu : r.lu = h.lu := by subst hr; exact Nat.zero_add _
  have hl : r.lastUseOk true false false = true :=
    lastUse_checked (h := h) elu
      (fun e => ⟨rfl, ea ▸ marked hA e⟩) (unmarked hB) (unmarked hC)
  have fd := regField_code 0 (w0)
  have fa := regField_code 1 (read_ok a)
  refine ⟨⟨by show (raw _ h).f < _; rw [hr, ef]; simp only [glue]; omega, by show (raw _ h).lu < _; rw [hr, elu]; exact lu_lt h,
    (Nat.zero_lt_succ _), (code_lt a), (code_lt d)⟩, head_of (by rw [hr, elu])
    (show 0x93 ≠ 0x100 by decide) (show 0x93 ≠ 0x102 by decide), ?_⟩
  show body (0x93) h (raw _ h) = _
  rw [hr]; clear hr ef
  unfold body bodyFloat
  simp only [ec, ed, ea, eb, hl, chk_of, someBind, beq_self_eq_true, ↓reduceIte, Nat.reduceLT, rm_of_code, fd, fa, em]
  rfl

theorem fscale (h : Head) (d : Reg) (a : Reg) (b : Reg) (rm : Rm) : Statement (.fscale h d a b rm) := by
  intro hw g k
  cases k
  obtain ⟨hA, hB, hC, hw⟩ : lastUseOk h.luA (some a) = true ∧ lastUseOk h.luB (some b) = true
      ∧ lastUseOk h.luC none = true ∧ (RegClass.ok .write d) = true := wf_parts rfl hw
  have w0 := hw
  obtain ⟨r, hr⟩ : ∃ r, raw (.fscale h d a b rm) h = r := ⟨_, rfl⟩
  have ef : r.f = glue [(3, rm.code), (9, 0), (8, 0)] := by subst hr; rfl
  have q0 := (show rm.code < 8 by cases rm <;> decide)
  have ec : r.c = 0 := by simp only [Raw.c, ef, glue]; omega
  have em : cut [3] r.m = [rm.code, 0] := by
    simp only [Raw.m, ef, glue, cut, List.cons.injEq]; refine ⟨?_, ?_, trivial⟩ <;> omega
  have ed : r.d = d.code := by subst hr; rfl
  have ea : r.a = a.code := by subst hr; rfl
  have eb : r.b = b.code := by subst hr; rfl
  have elu : r.lu = h.lu := by subst hr; exact Nat.zero_add _
  have hl : r.lastUseOk true true false = true :=
    lastUse_checked (h := h) elu
      (fun e => ⟨rfl, ea ▸ marked hA e⟩) (fun e => ⟨rfl, eb ▸ marked hB e⟩) (unmarked hC)
  have fd := regField_code 0 (w0)
  have fa := regField_code 1 (read_ok a)
  have fb := regField_code 2 (read_ok b)
  refine ⟨⟨by show (raw _ h).f < _; rw [hr, ef]; simp only [glue]; omega, by show (raw _ h).lu < _; rw [hr, elu]; exact lu_lt h,
    (code_lt b), (code_lt a), (code_lt d)⟩, head_of (by rw [hr, elu])
    (show 0x94 ≠ 0x100 by decide) (show 0x94 ≠ 0x102 by decide), ?_⟩
  show body (0x94) h (raw _ h) = _
  rw [hr]; clear hr ef
  unfold body bodyFloat
  simp only [ec, ed, ea, eb, hl, chk_of, someBind, beq_self_eq_true, ↓reduceIte, Nat.reduceLT, rm_of_code, fd, fa, fb, em]
  rfl

theorem fclass (h : Head) (d : Reg) (a : Reg) (t : ClassTy) : Statement (.fclass h d a t) := by
  intro hw g k
  cases k
  obtain ⟨hA, hB, hC, hw⟩ : lastUseOk h.luA (some a) = true ∧ lastUseOk h.luB none = true
      ∧ lastUseOk h.luC none = true ∧ (RegClass.ok .write d) = true := wf_parts rfl hw
  have w0 := hw
  obtain ⟨r, hr⟩ : ∃ r, raw (.fclass h d a t) h = r := ⟨_, rfl⟩
  have ef : r.f = glue [(2, t.code), (10, 0), (8, 0)] := by subst hr; rfl
  have q0 := (show t.code < 4 by cases t <;> decide)
  have ec : r.c = 0 := by simp only [Raw.c, ef, glue]; omega
  have em : cut [2] r.m = [t.code, 0] := by
    simp only [Raw.m, ef, glue, cut, List.cons.injEq]; refine ⟨?_, ?_, trivial⟩ <;> omega
  have ed : r.d = d.code := by subst hr; rfl
  have ea : r.a = a.code := by subst hr; rfl
  have eb : r.b = 0 := by subst hr; rfl
  have elu : r.lu = h.lu := by subst hr; exact Nat.zero_add _
  have hl : r.lastUseOk true false false = true :=
    lastUse_checked (h := h) elu
      (fun e => ⟨rfl, ea ▸ marked hA e⟩) (unmarked hB) (unmarked hC)
  have fd := regField_code 0 (w0)
  have fa := regField_code 1 (read_ok a)
  refine ⟨⟨by show (raw _ h).f < _; rw [hr, ef]; simp only [glue]; omega, by show (raw _ h).lu < _; rw [hr, elu]; exact lu_lt h,
    (Nat.zero_lt_succ _), (code_lt a), (code_lt d)⟩, head_of (by rw [hr, elu])
    (show 0x95 ≠ 0x100 by decide) (show 0x95 ≠ 0x102 by decide), ?_⟩
  show body (0x95) h (raw _ h) = _
  rw [hr]; clear hr ef
  unfold body bodyFloat
  simp only [ec, ed, ea, eb, hl, chk_of, someBind, beq_self_eq_true, ↓reduceIte, Nat.reduceLT, classTy_of_code, fd, fa, em]
  rfl

theorem frcp (h : Head) (d : Reg) (a : Reg) (rm : Rm) : Statement (.frcp h d a rm) := by
  intro hw g k
  cases k
  obtain ⟨hA, hB, hC, hw⟩ : lastUseOk h.luA (some a) = true ∧ lastUseOk h.luB none = true
      ∧ lastUseOk h.luC none = true ∧ (RegClass.ok .write d) = true := wf_parts rfl hw
  have w0 := hw
  obtain ⟨r, hr⟩ : ∃ r, raw (.frcp h d a rm) h = r := ⟨_, rfl⟩
  have ef : r.f = glue [(3, rm.code), (9, 0), (8, 0)] := by subst hr; rfl
  have q0 := (show rm.code < 8 by cases rm <;> decide)
  have ec : r.c = 0 := by simp only [Raw.c, ef, glue]; omega
  have em : cut [3] r.m = [rm.code, 0] := by
    simp only [Raw.m, ef, glue, cut, List.cons.injEq]; refine ⟨?_, ?_, trivial⟩ <;> omega
  have ed : r.d = d.code := by subst hr; rfl
  have ea : r.a = a.code := by subst hr; rfl
  have eb : r.b = 0 := by subst hr; rfl
  have elu : r.lu = h.lu := by subst hr; exact Nat.zero_add _
  have hl : r.lastUseOk true false false = true :=
    lastUse_checked (h := h) elu
      (fun e => ⟨rfl, ea ▸ marked hA e⟩) (unmarked hB) (unmarked hC)
  have fd := regField_code 0 (w0)
  have fa := regField_code 1 (read_ok a)
  refine ⟨⟨by show (raw _ h).f < _; rw [hr, ef]; simp only [glue]; omega, by show (raw _ h).lu < _; rw [hr, elu]; exact lu_lt h,
    (Nat.zero_lt_succ _), (code_lt a), (code_lt d)⟩, head_of (by rw [hr, elu])
    (show 0x96 ≠ 0x100 by decide) (show 0x96 ≠ 0x102 by decide), ?_⟩
  show body (0x96) h (raw _ h) = _
  rw [hr]; clear hr ef
  unfold body bodyFloat
  simp only [ec, ed, ea, eb, hl, chk_of, someBind, beq_self_eq_true, ↓reduceIte, Nat.reduceLT, rm_of_code, fd, fa, em]
  rfl

theorem fsqrt (h : Head) (d : Reg) (a : Reg) (rm : Rm) : Statement (.fsqrt h d a rm) := by
  intro hw g k
  cases k
  obtain ⟨hA, hB, hC, hw⟩ : lastUseOk h.luA (some a) = true ∧ lastUseOk h.luB none = true
      ∧ lastUseOk h.luC none = true ∧ (RegClass.ok .write d) = true := wf_parts rfl hw
  have w0 := hw
  obtain ⟨r, hr⟩ : ∃ r, raw (.fsqrt h d a rm) h = r := ⟨_, rfl⟩
  have ef : r.f = glue [(3, rm.code), (9, 0), (8, 0)] := by subst hr; rfl
  have q0 := (show rm.code < 8 by cases rm <;> decide)
  have ec : r.c = 0 := by simp only [Raw.c, ef, glue]; omega
  have em : cut [3] r.m = [rm.code, 0] := by
    simp only [Raw.m, ef, glue, cut, List.cons.injEq]; refine ⟨?_, ?_, trivial⟩ <;> omega
  have ed : r.d = d.code := by subst hr; rfl
  have ea : r.a = a.code := by subst hr; rfl
  have eb : r.b = 0 := by subst hr; rfl
  have elu : r.lu = h.lu := by subst hr; exact Nat.zero_add _
  have hl : r.lastUseOk true false false = true :=
    lastUse_checked (h := h) elu
      (fun e => ⟨rfl, ea ▸ marked hA e⟩) (unmarked hB) (unmarked hC)
  have fd := regField_code 0 (w0)
  have fa := regField_code 1 (read_ok a)
  refine ⟨⟨by show (raw _ h).f < _; rw [hr, ef]; simp only [glue]; omega, by show (raw _ h).lu < _; rw [hr, elu]; exact lu_lt h,
    (Nat.zero_lt_succ _), (code_lt a), (code_lt d)⟩, head_of (by rw [hr, elu])
    (show 0x98 ≠ 0x100 by decide) (show 0x98 ≠ 0x102 by decide), ?_⟩
  show body (0x98) h (raw _ h) = _
  rw [hr]; clear hr ef
  unfold body bodyFloat
  simp only [ec, ed, ea, eb, hl, chk_of, someBind, beq_self_eq_true, ↓reduceIte, Nat.reduceLT, rm_of_code, fd, fa, em]
  rfl

theorem frsq (h : Head) (d : Reg) (a : Reg) : Statement (.frsq h d a) := by
  intro hw g k
  cases k
  obtain ⟨hA, hB, hC, hw⟩ : lastUseOk h.luA (some a) = true ∧ lastUseOk h.luB none = true
      ∧ lastUseOk h.luC none = true ∧ (RegClass.ok .write d) = true := wf_parts rfl hw
  have w0 := hw
  obtain ⟨r, hr⟩ : ∃ r, raw (.frsq h d a) h = r := ⟨_, rfl⟩
  have ef : r.f = glue [(12, 0), (8, 0)] := by subst hr; rfl
  have ec : r.c = 0 := by simp only [Raw.c, ef, glue]; omega
  have em : r.m = 0 := by simp only [Raw.m, ef, glue]; omega
  have ed : r.d = d.code := by subst hr; rfl
  have ea : r.a = a.code := by subst hr; rfl
  have eb : r.b = 0 := by subst hr; rfl
  have elu : r.lu = h.lu := by subst hr; exact Nat.zero_add _
  have hl : r.lastUseOk true false false = true :=
    lastUse_checked (h := h) elu
      (fun e => ⟨rfl, ea ▸ marked hA e⟩) (unmarked hB) (unmarked hC)
  have fd := regField_code 0 (w0)
  have fa := regField_code 1 (read_ok a)
  refine ⟨⟨by show (raw _ h).f < _; rw [hr, ef]; simp only [glue]; omega, by show (raw _ h).lu < _; rw [hr, elu]; exact lu_lt h,
    (Nat.zero_lt_succ _), (code_lt a), (code_lt d)⟩, head_of (by rw [hr, elu])
    (show 0x97 ≠ 0x100 by decide) (show 0x97 ≠ 0x102 by decide), ?_⟩
  show body (0x97) h (raw _ h) = _
  rw [hr]; clear hr ef
  unfold body bodyFloat
  simp only [ec, ed, ea, eb, hl, chk_of, someBind, beq_self_eq_true, ↓reduceIte, Nat.reduceLT, fd, fa, em]
  rfl

theorem fexp2 (h : Head) (d : Reg) (a : Reg) : Statement (.fexp2 h d a) := by
  intro hw g k
  cases k
  obtain ⟨hA, hB, hC, hw⟩ : lastUseOk h.luA (some a) = true ∧ lastUseOk h.luB none = true
      ∧ lastUseOk h.luC none = true ∧ (RegClass.ok .write d) = true := wf_parts rfl hw
  have w0 := hw
  obtain ⟨r, hr⟩ : ∃ r, raw (.fexp2 h d a) h = r := ⟨_, rfl⟩
  have ef : r.f = glue [(12, 0), (8, 0)] := by subst hr; rfl
  have ec : r.c = 0 := by simp only [Raw.c, ef, glue]; omega
  have em : r.m = 0 := by simp only [Raw.m, ef, glue]; omega
  have ed : r.d = d.code := by subst hr; rfl
  have ea : r.a = a.code := by subst hr; rfl
  have eb : r.b = 0 := by subst hr; rfl
  have elu : r.lu = h.lu := by subst hr; exact Nat.zero_add _
  have hl : r.lastUseOk true false false = true :=
    lastUse_checked (h := h) elu
      (fun e => ⟨rfl, ea ▸ marked hA e⟩) (unmarked hB) (unmarked hC)
  have fd := regField_code 0 (w0)
  have fa := regField_code 1 (read_ok a)
  refine ⟨⟨by show (raw _ h).f < _; rw [hr, ef]; simp only [glue]; omega, by show (raw _ h).lu < _; rw [hr, elu]; exact lu_lt h,
    (Nat.zero_lt_succ _), (code_lt a), (code_lt d)⟩, head_of (by rw [hr, elu])
    (show 0x99 ≠ 0x100 by decide) (show 0x99 ≠ 0x102 by decide), ?_⟩
  show body (0x99) h (raw _ h) = _
  rw [hr]; clear hr ef
  unfold body bodyFloat
  simp only [ec, ed, ea, eb, hl, chk_of, someBind, beq_self_eq_true, ↓reduceIte, Nat.reduceLT, fd, fa, em]
  rfl

theorem flog2 (h : Head) (d : Reg) (a : Reg) : Statement (.flog2 h d a) := by
  intro hw g k
  cases k
  obtain ⟨hA, hB, hC, hw⟩ : lastUseOk h.luA (some a) = true ∧ lastUseOk h.luB none = true
      ∧ lastUseOk h.luC none = true ∧ (RegClass.ok .write d) = true := wf_parts rfl hw
  have w0 := hw
  obtain ⟨r, hr⟩ : ∃ r, raw (.flog2 h d a) h = r := ⟨_, rfl⟩
  have ef : r.f = glue [(12, 0), (8, 0)] := by subst hr; rfl
  have ec : r.c = 0 := by simp only [Raw.c, ef, glue]; omega
  have em : r.m = 0 := by simp only [Raw.m, ef, glue]; omega
  have ed : r.d = d.code := by subst hr; rfl
  have ea : r.a = a.code := by subst hr; rfl
  have eb : r.b = 0 := by subst hr; rfl
  have elu : r.lu = h.lu := by subst hr; exact Nat.zero_add _
  have hl : r.lastUseOk true false false = true :=
    lastUse_checked (h := h) elu
      (fun e => ⟨rfl, ea ▸ marked hA e⟩) (unmarked hB) (unmarked hC)
  have fd := regField_code 0 (w0)
  have fa := regField_code 1 (read_ok a)
  refine ⟨⟨by show (raw _ h).f < _; rw [hr, ef]; simp only [glue]; omega, by show (raw _ h).lu < _; rw [hr, elu]; exact lu_lt h,
    (Nat.zero_lt_succ _), (code_lt a), (code_lt d)⟩, head_of (by rw [hr, elu])
    (show 0x9a ≠ 0x100 by decide) (show 0x9a ≠ 0x102 by decide), ?_⟩
  show body (0x9a) h (raw _ h) = _
  rw [hr]; clear hr ef
  unfold body bodyFloat
  simp only [ec, ed, ea, eb, hl, chk_of, someBind, beq_self_eq_true, ↓reduceIte, Nat.reduceLT, fd, fa, em]
  rfl

theorem fsin (h : Head) (d : Reg) (a : Reg) : Statement (.fsin h d a) := by
  intro hw g k
  cases k
  obtain ⟨hA, hB, hC, hw⟩ : lastUseOk h.luA (some a) = true ∧ lastUseOk h.luB none = true
      ∧ lastUseOk h.luC none = true ∧ (RegClass.ok .write d) = true := wf_parts rfl hw
  have w0 := hw
  obtain ⟨r, hr⟩ : ∃ r, raw (.fsin h d a) h = r := ⟨_, rfl⟩
  have ef : r.f = glue [(12, 0), (8, 0)] := by subst hr; rfl
  have ec : r.c = 0 := by simp only [Raw.c, ef, glue]; omega
  have em : r.m = 0 := by simp only [Raw.m, ef, glue]; omega
  have ed : r.d = d.code := by subst hr; rfl
  have ea : r.a = a.code := by subst hr; rfl
  have eb : r.b = 0 := by subst hr; rfl
  have elu : r.lu = h.lu := by subst hr; exact Nat.zero_add _
  have hl : r.lastUseOk true false false = true :=
    lastUse_checked (h := h) elu
      (fun e => ⟨rfl, ea ▸ marked hA e⟩) (unmarked hB) (unmarked hC)
  have fd := regField_code 0 (w0)
  have fa := regField_code 1 (read_ok a)
  refine ⟨⟨by show (raw _ h).f < _; rw [hr, ef]; simp only [glue]; omega, by show (raw _ h).lu < _; rw [hr, elu]; exact lu_lt h,
    (Nat.zero_lt_succ _), (code_lt a), (code_lt d)⟩, head_of (by rw [hr, elu])
    (show 0x9b ≠ 0x100 by decide) (show 0x9b ≠ 0x102 by decide), ?_⟩
  show body (0x9b) h (raw _ h) = _
  rw [hr]; clear hr ef
  unfold body bodyFloat
  simp only [ec, ed, ea, eb, hl, chk_of, someBind, beq_self_eq_true, ↓reduceIte, Nat.reduceLT, fd, fa, em]
  rfl

theorem fcos (h : Head) (d : Reg) (a : Reg) : Statement (.fcos h d a) := by
  intro hw g k
  cases k
  obtain ⟨hA, hB, hC, hw⟩ : lastUseOk h.luA (some a) = true ∧ lastUseOk h.luB none = true
      ∧ lastUseOk h.luC none = true ∧ (RegClass.ok .write d) = true := wf_parts rfl hw
  have w0 := hw
  obtain ⟨r, hr⟩ : ∃ r, raw (.fcos h d a) h = r := ⟨_, rfl⟩
  have ef : r.f = glue [(12, 0), (8, 0)] := by subst hr; rfl
  have ec : r.c = 0 := by simp only [Raw.c, ef, glue]; omega
  have em : r.m = 0 := by simp only [Raw.m, ef, glue]; omega
  have ed : r.d = d.code := by subst hr; rfl
  have ea : r.a = a.code := by subst hr; rfl
  have eb : r.b = 0 := by subst hr; rfl
  have elu : r.lu = h.lu := by subst hr; exact Nat.zero_add _
  have hl : r.lastUseOk true false false = true :=
    lastUse_checked (h := h) elu
      (fun e => ⟨rfl, ea ▸ marked hA e⟩) (unmarked hB) (unmarked hC)
  have fd := regField_code 0 (w0)
  have fa := regField_code 1 (read_ok a)
  refine ⟨⟨by show (raw _ h).f < _; rw [hr, ef]; simp only [glue]; omega, by show (raw _ h).lu < _; rw [hr, elu]; exact lu_lt h,
    (Nat.zero_lt_succ _), (code_lt a), (code_lt d)⟩, head_of (by rw [hr, elu])
    (show 0x9c ≠ 0x100 by decide) (show 0x9c ≠ 0x102 by decide), ?_⟩
  show body (0x9c) h (raw _ h) = _
  rw [hr]; clear hr ef
  unfold body bodyFloat
  simp only [ec, ed, ea, eb, hl, chk_of, someBind, beq_self_eq_true, ↓reduceIte, Nat.reduceLT, fd, fa, em]
  rfl

theorem ftanh (h : Head) (d : Reg) (a : Reg) : Statement (.ftanh h d a) := by
  intro hw g k
  cases k
  obtain ⟨hA, hB, hC, hw⟩ : lastUseOk h.luA (some a) = true ∧ lastUseOk h.luB none = true
      ∧ lastUseOk h.luC none = true ∧ (RegClass.ok .write d) = true := wf_parts rfl hw
  have w0 := hw
  obtain ⟨r, hr⟩ : ∃ r, raw (.ftanh h d a) h = r := ⟨_, rfl⟩
  have ef : r.f = glue [(12, 0), (8, 0)] := by subst hr; rfl
  have ec : r.c = 0 := by simp only [Raw.c, ef, glue]; omega
  have em : r.m = 0 := by simp only [Raw.m, ef, glue]; omega
  have ed : r.d = d.code := by subst hr; rfl
  have ea : r.a = a.code := by subst hr; rfl
  have eb : r.b = 0 := by subst hr; rfl
  have elu : r.lu = h.lu := by subst hr; exact Nat.zero_add _
  have hl : r.lastUseOk true false false = true :=
    lastUse_checked (h := h) elu
      (fun e => ⟨rfl, ea ▸ marked hA e⟩) (unmarked hB) (unmarked hC)
  have fd := regField_code 0 (w0)
  have fa := regField_code 1 (read_ok a)
  refine ⟨⟨by show (raw _ h).f < _; rw [hr, ef]; simp only [glue]; omega, by show (raw _ h).lu < _; rw [hr, elu]; exact lu_lt h,
    (Nat.zero_lt_succ _), (code_lt a), (code_lt d)⟩, head_of (by rw [hr, elu])
    (show 0x9d ≠ 0x100 by decide) (show 0x9d ≠ 0x102 by decide), ?_⟩
  show body (0x9d) h (raw _ h) = _
  rw [hr]; clear hr ef
  unfold body bodyFloat
  simp only [ec, ed, ea, eb, hl, chk_of, someBind, beq_self_eq_true, ↓reduceIte, Nat.reduceLT, fd, fa, em]
  rfl

theorem fdot2 (h : Head) (t : FDot2Ty) (d : Reg) (a : Reg) (b : Reg) (c : Reg) (rm : Rm) : Statement (.fdot2 h t d a b c rm) := by
  intro hw g k
  cases k
  obtain ⟨hA, hB, hC, hw⟩ : lastUseOk h.luA (some a) = true ∧ lastUseOk h.luB (some b) = true
      ∧ lastUseOk h.luC (some c) = true ∧ (RegClass.ok .write d) = true := wf_parts rfl hw
  have w0 := hw
  obtain ⟨r, hr⟩ : ∃ r, raw (.fdot2 h t d a b c rm) h = r := ⟨_, rfl⟩
  have ef : r.f = glue [(3, rm.code), (9, 0), (8, c.code)] := by subst hr; rfl
  have q0 := (show rm.code < 8 by cases rm <;> decide)
  have ec : r.c = c.code := by simp only [Raw.c, ef, glue]; omega
  have em : cut [3] r.m = [rm.code, 0] := by
    simp only [Raw.m, ef, glue, cut, List.cons.injEq]; refine ⟨?_, ?_, trivial⟩ <;> omega
  have ed : r.d = d.code := by subst hr; rfl
  have ea : r.a = a.code := by subst hr; rfl
  have eb : r.b = b.code := by subst hr; rfl
  have elu : r.lu = h.lu := by subst hr; exact Nat.zero_add _
  have hl : r.lastUseOk true true true = true :=
    lastUse_checked (h := h) elu
      (fun e => ⟨rfl, ea ▸ marked hA e⟩) (fun e => ⟨rfl, eb ▸ marked hB e⟩) (fun e => ⟨rfl, ec ▸ marked hC e⟩)
  have fd := regField_code 0 (w0)
  have fa := regField_code 1 (read_ok a)
  have fb := regField_code 2 (read_ok b)
  have fc := regField_code 3 (read_ok c)
  refine ⟨⟨by have qc := code_lt c; show (raw _ h).f < _; rw [hr, ef]; simp only [glue]; omega, by show (raw _ h).lu < _; rw [hr, elu]; exact lu_lt h,
    (code_lt b), (code_lt a), (code_lt d)⟩, head_of (by rw [hr, elu])
    (show 0x9e + t.code ≠ 0x100 by cases t <;> decide) (show 0x9e + t.code ≠ 0x102 by cases t <;> decide), ?_⟩
  show body (0x9e + t.code) h (raw _ h) = _
  rw [hr]; clear hr ef
  cases t <;>
    (unfold body bodyFloat
     simp only [ec, ed, ea, eb, hl, chk_of, someBind, beq_self_eq_true, ↓reduceIte, Nat.reduceLT, Nat.reduceAdd, Nat.reduceSub, rm_of_code, fd, fa, fb, fc, FDot2Ty.code, FDot2Ty.of, em]
     rfl)

theorem fdot4 (h : Head) (t : FDot4Ty) (d : Reg) (a : Reg) (b : Reg) (c : Reg) (rm : Rm) : Statement (.fdot4 h t d a b c rm) := by
  intro hw g k
  cases k
  obtain ⟨hA, hB, hC, hw⟩ : lastUseOk h.luA (some a) = true ∧ lastUseOk h.luB (some b) = true
      ∧ lastUseOk h.luC (some c) = true ∧ (RegClass.ok .write d) = true := wf_parts rfl hw
  have w0 := hw
  obtain ⟨r, hr⟩ : ∃ r, raw (.fdot4 h t d a b c rm) h = r := ⟨_, rfl⟩
  have ef : r.f = glue [(3, rm.code), (9, 0), (8, c.code)] := by subst hr; rfl
  have q0 := (show rm.code < 8 by cases rm <;> decide)
  have ec : r.c = c.code := by simp only [Raw.c, ef, glue]; omega
  have em : cut [3] r.m = [rm.code, 0] := by
    simp only [Raw.m, ef, glue, cut, List.cons.injEq]; refine ⟨?_, ?_, trivial⟩ <;> omega
  have ed : r.d = d.code := by subst hr; rfl
  have ea : r.a = a.code := by subst hr; rfl
  have eb : r.b = b.code := by subst hr; rfl
  have elu : r.lu = h.lu := by subst hr; exact Nat.zero_add _
  have hl : r.lastUseOk true true true = true :=
    lastUse_checked (h := h) elu
      (fun e => ⟨rfl, ea ▸ marked hA e⟩) (fun e => ⟨rfl, eb ▸ marked hB e⟩) (fun e => ⟨rfl, ec ▸ marked hC e⟩)
  have fd := regField_code 0 (w0)
  have fa := regField_code 1 (read_ok a)
  have fb := regField_code 2 (read_ok b)
  have fc := regField_code 3 (read_ok c)
  refine ⟨⟨by have qc := code_lt c; show (raw _ h).f < _; rw [hr, ef]; simp only [glue]; omega, by show (raw _ h).lu < _; rw [hr, elu]; exact lu_lt h,
    (code_lt b), (code_lt a), (code_lt d)⟩, head_of (by rw [hr, elu])
    (show 0xa0 + t.code ≠ 0x100 by cases t <;> decide) (show 0xa0 + t.code ≠ 0x102 by cases t <;> decide), ?_⟩
  show body (0xa0 + t.code) h (raw _ h) = _
  rw [hr]; clear hr ef
  cases t <;>
    (unfold body bodyFloat
     simp only [ec, ed, ea, eb, hl, chk_of, someBind, beq_self_eq_true, ↓reduceIte, Nat.reduceLT, Nat.reduceAdd, Nat.reduceSub, rm_of_code, fd, fa, fb, fc, FDot4Ty.code, FDot4Ty.of, em]
     rfl)

theorem cvt (h : Head) (t : CvtTy) (d a b : Reg) : Statement (.cvt h t d a b) := by
  intro hw g k
  cases k
  obtain ⟨hA, hB, hC, hw⟩ : lastUseOk h.luA (some a) = true
      ∧ lastUseOk h.luB (if t.two then some b else none) = true
      ∧ lastUseOk h.luC none = true ∧ (RegClass.ok .write d && (t.two || b == .v 0)) = true := wf_parts rfl hw
  simp only [Bool.and_eq_true] at hw
  obtain ⟨w0, w1⟩ := hw
  obtain ⟨r, hr⟩ : ∃ r, raw (.cvt h t d a b) h = r := ⟨_, rfl⟩
  have ef : r.f = t.modifier := by subst hr; rfl
  have ec : r.c = 0 := by simp only [Raw.c, ef]; exact (cvt_code t).2
  have em : CvtTy.of t.code r.m = some t := by simp only [Raw.m, ef]; exact (cvt_code t).1
  have ed : r.d = d.code := by subst hr; rfl
  have ea : r.a = a.code := by subst hr; rfl
  have eb : r.b = b.code := by subst hr; rfl
  have elu : r.lu = h.lu := by subst hr; exact Nat.zero_add _
  have fd := regField_code 0 w0
  have fa := regField_code 1 (read_ok a)
  have fb := regField_code 2 (read_ok b)
  have hl : r.lastUseOk true t.two false = true :=
    lastUse_checked (h := h) elu (fun e => ⟨rfl, ea ▸ marked hA e⟩)
      (fun e => by
        cases q : t.two <;> rw [q] at hB
        · exact unmarked hB e
        · exact ⟨rfl, eb ▸ marked hB e⟩) (unmarked hC)
  rw [← code_beq_zero] at w1
  refine ⟨⟨cvt_lt t, by show (raw _ h).lu < _; rw [hr, elu]; exact lu_lt h,
    code_lt b, code_lt a, code_lt d⟩, head_of (by rw [hr, elu])
    (show 0xb0 + t.code ≠ 0x100 by cases t <;> simp [CvtTy.code]) (show 0xb0 + t.code ≠ 0x102 by cases t <;> simp [CvtTy.code]), ?_⟩
  show body (0xb0 + t.code) h (raw _ h) = _
  rw [hr]; clear hr ef
  cases t <;>
    (simp only [CvtTy.two, CvtTy.code, Bool.false_or] at hl w1 em
     unfold body bodyFloat
     simp only [CvtTy.code, ec, em, ed, ea, eb, hl, fd, fa, fb, w1, chk_of, someBind, beq_self_eq_true, ↓reduceIte,
       Nat.reduceLT, Nat.reduceAdd, Nat.reduceSub, Nat.reduceBEq, Bool.or_false, Bool.or_true]
     rfl)

theorem fxcvtTo (h : Head) (d : Reg) (a : Reg) (fx16 : Bool) : Statement (.fxcvtTo h d a fx16) := by
  intro hw g k
  cases k
  obtain ⟨hA, hB, hC, hw⟩ : lastUseOk h.luA (some a) = true ∧ lastUseOk h.luB none = true
      ∧ lastUseOk h.luC none = true ∧ (RegClass.ok .write d) = true := wf_parts rfl hw
  have w0 := hw
  obtain ⟨r, hr⟩ : ∃ r, raw (.fxcvtTo h d a fx16) h = r := ⟨_, rfl⟩
  have ef : r.f = glue [(3, 0), (1, fx16.toNat), (8, 0), (8, 0)] := by subst hr; rfl
  have q0 := toNat_lt fx16
  have ec : r.c = 0 := by simp only [Raw.c, ef, glue]; omega
  have em : cut [3, 1] r.m = [0, fx16.toNat, 0] := by
    simp only [Raw.m, ef, glue, cut, List.cons.injEq]; refine ⟨?_, ?_, ?_, trivial⟩ <;> omega
  have ed : r.d = d.code := by subst hr; rfl
  have ea : r.a = a.code := by subst hr; rfl
  have eb : r.b = 0 := by subst hr; rfl
  have elu : r.lu = h.lu := by subst hr; exact Nat.zero_add _
  have hl : r.lastUseOk true false false = true :=
    lastUse_checked (h := h) elu
      (fun e => ⟨rfl, ea ▸ marked hA e⟩) (unmarked hB) (unmarked hC)
  have fd := regField_code 0 (w0)
  have fa := regField_code 1 (read_ok a)
  refine ⟨⟨by show (raw _ h).f < _; rw [hr, ef]; simp only [glue]; omega, by show (raw _ h).lu < _; rw [hr, elu]; exact lu_lt h,
    (Nat.zero_lt_succ _), (code_lt a), (code_lt d)⟩, head_of (by rw [hr, elu])
    (show 0xbd ≠ 0x100 by decide) (show 0xbd ≠ 0x102 by decide), ?_⟩
  show body (0xbd) h (raw _ h) = _
  rw [hr]; clear hr ef
  unfold body bodyFloat
  simp only [ec, ed, ea, eb, hl, chk_of, someBind, beq_self_eq_true, ↓reduceIte, Nat.reduceLT, toNat_beq_one, fd, fa, em]
  rfl

theorem fxcvtFrom (h : Head) (d : Reg) (a : Reg) (fx16 : Bool) (rm : Rm) : Statement (.fxcvtFrom h d a fx16 rm) := by
  intro hw g k
  cases k
  obtain ⟨hA, hB, hC, hw⟩ : lastUseOk h.luA (some a) = true ∧ lastUseOk h.luB none = true
      ∧ lastUseOk h.luC none = true ∧ (RegClass.ok .write d) = true := wf_parts rfl hw
  have w0 := hw
  obtain ⟨r, hr⟩ : ∃ r, raw (.fxcvtFrom h d a fx16 rm) h = r := ⟨_, rfl⟩
  have ef : r.f = glue [(3, rm.code), (1, fx16.toNat), (8, 0), (8, 0)] := by subst hr; rfl
  have q0 := (show rm.code < 8 by cases rm <;> decide)
  have q1 := toNat_lt fx16
  have ec : r.c = 0 := by simp only [Raw.c, ef, glue]; omega
  have em : cut [3, 1] r.m = [rm.code, fx16.toNat, 0] := by
    simp only [Raw.m, ef, glue, cut, List.cons.injEq]; refine ⟨?_, ?_, ?_, trivial⟩ <;> omega
  have ed : r.d = d.code := by subst hr; rfl
  have ea : r.a = a.code := by subst hr; rfl
  have eb : r.b = 0 := by subst hr; rfl
  have elu : r.lu = h.lu := by subst hr; exact Nat.zero_add _
  have hl : r.lastUseOk true false false = true :=
    lastUse_checked (h := h) elu
      (fun e => ⟨rfl, ea ▸ marked hA e⟩) (unmarked hB) (unmarked hC)
  have fd := regField_code 0 (w0)
  have fa := regField_code 1 (read_ok a)
  refine ⟨⟨by show (raw _ h).f < _; rw [hr, ef]; simp only [glue]; omega, by show (raw _ h).lu < _; rw [hr, elu]; exact lu_lt h,
    (Nat.zero_lt_succ _), (code_lt a), (code_lt d)⟩, head_of (by rw [hr, elu])
    (show 0xbe ≠ 0x100 by decide) (show 0xbe ≠ 0x102 by decide), ?_⟩
  show body (0xbe) h (raw _ h) = _
  rw [hr]; clear hr ef
  unfold body bodyFloat
  simp only [ec, ed, ea, eb, hl, chk_of, someBind, beq_self_eq_true, ↓reduceIte, Nat.reduceLT, rm_of_code, toNat_beq_one, fd, fa, em]
  rfl

theorem qscale (h : Head) (k : QK) (d : Reg) (a : Reg) (b : Reg) : Statement (.qscale h k d a b) := by
  intro hw g k
  cases k
  obtain ⟨hA, hB, hC, hw⟩ : lastUseOk h.luA (some a) = true ∧ lastUseOk h.luB (if k == .x4 then some b else none) = true
      ∧ lastUseOk h.luC none = true ∧ (RegClass.ok .write d && RegClass.ok (if k == .x1 then .read else .pair) a && RegClass.ok (if k == .x4 then .pair else .read) b && (k == .x4 || b == .v 0)) = true := wf_parts rfl hw
  simp only [Bool.and_eq_true] at hw
  obtain ⟨⟨⟨w0, w1⟩, w2⟩, w3⟩ := hw
  obtain ⟨r, hr⟩ : ∃ r, raw (.qscale h k d a b) h = r := ⟨_, rfl⟩
  have ef : r.f = glue [(2, k.code), (10, 0), (8, 0)] := by subst hr; rfl
  have q0 := (show k.code < 4 by cases k <;> decide)
  have ec : r.c = 0 := by simp only [Raw.c, ef, glue]; omega
  have em : cut [2] r.m = [k.code, 0] := by
    simp only [Raw.m, ef, glue, cut, List.cons.injEq]; refine ⟨?_, ?_, trivial⟩ <;> omega
  have ed : r.d = d.code := by subst hr; rfl
  have ea : r.a = a.code := by subst hr; rfl
  have eb : r.b = b.code := by subst hr; rfl
  have elu : r.lu = h.lu := by subst hr; exact Nat.zero_add _
  have x0 : (k == QK.x4 || !r.luB) = true := by rw [luB_of elu]; cases q : k == QK.x4 <;> rw [q] at hB <;> [exact notMarked hB; rfl]
  have hl : r.lastUseOk true true false = true :=
    lastUse_checked (h := h) elu
      (fun e => ⟨rfl, ea ▸ marked hA e⟩) (fun e => ⟨rfl, eb ▸ (by cases q : k == QK.x4 <;> rw [q] at hB <;> [exact unmarked hB e; exact marked hB e])⟩) (unmarked hC)
  have fd := regField_code 0 (w0)
  have fa := regField_code 1 (w1)
  have fb := regField_code 2 (w2)
  refine ⟨⟨by show (raw _ h).f < _; rw [hr, ef]; simp only [glue]; omega, by show (raw _ h).lu < _; rw [hr, elu]; exact lu_lt h,
    (code_lt b), (code_lt a), (code_lt d)⟩, head_of (by rw [hr, elu])
    (show 0xbc ≠ 0x100 by decide) (show 0xbc ≠ 0x102 by decide), ?_⟩
  show body (0xbc) h (raw _ h) = _
  rw [hr]; clear hr ef
  unfold body bodyFloat
  simp only [ec, ed, ea, eb, hl, chk_of, someBind, beq_self_eq_true, ↓reduceIte, Nat.reduceLT, qK_of_code, fd, fa, fb, w3, x0, code_beq_zero, em]
  rfl

theorem qpack (h : Head) (d : Reg) (a : Reg) (b : Reg) (c : Reg) (rm : Rm) (h1 : Bool) : Statement (.qpack h d a b c rm h1) := by
  intro hw g k
  cases k
  obtain ⟨hA, hB, hC, hw⟩ : lastUseOk h.luA (some a) = true ∧ lastUseOk h.luB (some b) = true
      ∧ lastUseOk h.luC (some c) = true ∧ (RegClass.ok .write d && RegClass.ok .pair a && RegClass.ok .pair b) = true := wf_parts rfl hw
  simp only [Bool.and_eq_true] at hw
  obtain ⟨⟨w0, w1⟩, w2⟩ := hw
  obtain ⟨r, hr⟩ : ∃ r, raw (.qpack h d a b c rm h1) h = r := ⟨_, rfl⟩
  have ef : r.f = glue [(3, rm.code), (1, h1.toNat), (8, 0), (8, c.code)] := by subst hr; rfl
  have q0 := (show rm.code < 8 by cases rm <;> decide)
  have q1 := toNat_lt h1
  have ec : r.c = c.code := by simp only [Raw.c, ef, glue]; omega
  have em : cut [3, 1] r.m = [rm.code, h1.toNat, 0] := by
    simp only [Raw.m, ef, glue, cut, List.cons.injEq]; refine ⟨?_, ?_, ?_, trivial⟩ <;> omega
  have ed : r.d = d.code := by subst hr; rfl
  have ea : r.a = a.code := by subst hr; rfl
  have eb : r.b = b.code := by subst hr; rfl
  have elu : r.lu = h.lu := by subst hr; exact Nat.zero_add _
  have hl : r.lastUseOk true true true = true :=
    lastUse_checked (h := h) elu
      (fun e => ⟨rfl, ea ▸ marked hA e⟩) (fun e => ⟨rfl, eb ▸ marked hB e⟩) (fun e => ⟨rfl, ec ▸ marked hC e⟩)
  have fd := regField_code 0 (w0)
  have fa := regField_code 1 (w1)
  have fb := regField_code 2 (w2)
  have fc := regField_code 3 (read_ok c)
  refine ⟨⟨by have qc := code_lt c; show (raw _ h).f < _; rw [hr, ef]; simp only [glue]; omega, by show (raw _ h).lu < _; rw [hr, elu]; exact lu_lt h,
    (code_lt b), (code_lt a), (code_lt d)⟩, head_of (by rw [hr, elu])
    (show 0xba ≠ 0x100 by decide) (show 0xba ≠ 0x102 by decide), ?_⟩
  show body (0xba) h (raw _ h) = _
  rw [hr]; clear hr ef
  unfold body bodyFloat
  simp only [ec, ed, ea, eb, hl, chk_of, someBind, beq_self_eq_true, ↓reduceIte, Nat.reduceLT, rm_of_code, toNat_beq_one, fd, fa, fb, fc, em]
  rfl

theorem qunpack (h : Head) (d : Reg) (a : Reg) (b : Reg) (n : Fin 4) (rm : Rm) : Statement (.qunpack h d a b n rm) := by
  intro hw g k
  cases k
  obtain ⟨hA, hB, hC, hw⟩ : lastUseOk h.luA (some a) = true ∧ lastUseOk h.luB (some b) = true
      ∧ lastUseOk h.luC none = true ∧ (RegClass.ok .pair d) = true := wf_parts rfl hw
  have w0 := hw
  obtain ⟨r, hr⟩ : ∃ r, raw (.qunpack h d a b n rm) h = r := ⟨_, rfl⟩
  have ef : r.f = glue [(3, rm.code), (1, 0), (2, n.val), (6, 0), (8, 0)] := by subst hr; rfl
  have q0 := (show rm.code < 8 by cases rm <;> decide)
  have q1 := n.isLt
  have ec : r.c = 0 := by simp only [Raw.c, ef, glue]; omega
  have em : cut [3, 1, 2] r.m = [rm.code, 0, n.val, 0] := by
    simp only [Raw.m, ef, glue, cut, List.cons.injEq]; refine ⟨?_, ?_, ?_, ?_, trivial⟩ <;> omega
  have ed : r.d = d.code := by subst hr; rfl
  have ea : r.a = a.code := by subst hr; rfl
  have eb : r.b = b.code := by subst hr; rfl
  have elu : r.lu = h.lu := by subst hr; exact Nat.zero_add _
  have hl : r.lastUseOk true true false = true :=
    lastUse_checked (h := h) elu
      (fun e => ⟨rfl, ea ▸ marked hA e⟩) (fun e => ⟨rfl, eb ▸ marked hB e⟩) (unmarked hC)
  have fd := regField_code 0 (w0)
  have fa := regField_code 1 (read_ok a)
  have fb := regField_code 2 (read_ok b)
  refine ⟨⟨by show (raw _ h).f < _; rw [hr, ef]; simp only [glue]; omega, by show (raw _ h).lu < _; rw [hr, elu]; exact lu_lt h,
    (code_lt b), (code_lt a), (code_lt d)⟩, head_of (by rw [hr, elu])
    (show 0xbb ≠ 0x100 by decide) (show 0xbb ≠ 0x102 by decide), ?_⟩
  show body (0xbb) h (raw _ h) = _
  rw [hr]; clear hr ef
  unfold body bodyFloat
  simp only [ec, ed, ea, eb, hl, chk_of, someBind, beq_self_eq_true, ↓reduceIte, Nat.reduceLT, rm_of_code, finOfNat_val, fd, fa, fb, em]
  rfl

theorem setfmt (h : Head) (d : Reg) (a : Reg) (b : Reg) : Statement (.setfmt h d a b) := by
  intro hw g k
  cases k
  obtain ⟨hA, hB, hC, hw⟩ : lastUseOk h.luA (some a) = true ∧ lastUseOk h.luB (some b) = true
      ∧ lastUseOk h.luC none = true ∧ (RegClass.ok .write d) = true := wf_parts rfl hw
  have w0 := hw
  obtain ⟨r, hr⟩ : ∃ r, raw (.setfmt h d a b) h = r := ⟨_, rfl⟩
  have ef : r.f = glue [(12, 0), (8, 0)] := by subst hr; rfl
  have ec : r.c = 0 := by simp only [Raw.c, ef, glue]; omega
  have em : r.m = 0 := by simp only [Raw.m, ef, glue]; omega
  have ed : r.d = d.code := by subst hr; rfl
  have ea : r.a = a.code := by subst hr; rfl
  have eb : r.b = b.code := by subst hr; rfl
  have elu : r.lu = h.lu := by subst hr; exact Nat.zero_add _
  have hl : r.lastUseOk true true false = true :=
    lastUse_checked (h := h) elu
      (fun e => ⟨rfl, ea ▸ marked hA e⟩) (fun e => ⟨rfl, eb ▸ marked hB e⟩) (unmarked hC)
  have fd := regField_code 0 (w0)
  have fa := regField_code 1 (read_ok a)
  have fb := regField_code 2 (read_ok b)
  refine ⟨⟨by show (raw _ h).f < _; rw [hr, ef]; simp only [glue]; omega, by show (raw _ h).lu < _; rw [hr, elu]; exact lu_lt h,
    (code_lt b), (code_lt a), (code_lt d)⟩, head_of (by rw [hr, elu])
    (show 0xbf ≠ 0x100 by decide) (show 0xbf ≠ 0x102 by decide), ?_⟩
  show body (0xbf) h (raw _ h) = _
  rw [hr]; clear hr ef
  unfold body bodyFloat
  simp only [ec, ed, ea, eb, hl, chk_of, someBind, beq_self_eq_true, ↓reduceIte, Nat.reduceLT, fd, fa, fb, em]
  rfl

theorem ld (h : Head) (t : LdTy) (d : Reg) (m : Addr) (off : BitVec 7) : Statement (.ld h t d m off) := by
  intro hw g k
  cases k
  obtain ⟨hA, hB, hC, hw⟩ : lastUseOk h.luA (some m.base) = true ∧ lastUseOk h.luB m.index.reg = true
      ∧ lastUseOk h.luC none = true ∧ (m.ok .acq .plain off.toNat && RegClass.ok (t.dcls) d) = true := wf_parts rfl hw
  simp only [Bool.and_eq_true] at hw
  obtain ⟨w0, w1⟩ := hw
  obtain ⟨r, hr⟩ : ∃ r, raw (.ld h t d m off) h = r := ⟨_, rfl⟩
  have ed : r.d = d.code := by subst hr; rfl
  have elu : r.lu = h.lu := by subst hr; exact Nat.zero_add _
  have em : memBody r .acq .plain false = some (off.toNat, .ok m) :=
    memBody_form (h := h) (by subst hr; rfl) off.isLt (by subst hr; rfl) (by subst hr; rfl)
      (by subst hr; exact Nat.zero_add _) w0 hA hB (unmarked hC)
  have fd := regField_code 0 w1
  refine ⟨⟨form_lt m off.isLt, by show (raw _ h).lu < _; rw [hr, elu]; exact lu_lt h, index_lt m.index, code_lt m.base,
    code_lt d⟩, head_of (by rw [hr, elu]) (show 0xc0 + t.code ≠ 0x100 by cases t <;> decide) (show 0xc0 + t.code ≠ 0x102 by cases t <;> decide), ?_⟩
  show body (0xc0 + t.code) h (raw _ h) = _
  rw [hr]; clear hr
  cases t <;>
    (unfold body bodyMem
     simp only [em, ed, someBind, ↓reduceIte, Nat.reduceLT, Nat.reduceAdd, Nat.reduceSub, fd, BitVec.ofNat_toNat, BitVec.setWidth_eq, LdTy.code, LdTy.of]
     rfl)

theorem ldc (h : Head) (t : LdcTy) (d : Reg) (m : Addr) (off : BitVec 7) : Statement (.ldc h t d m off) := by
  intro hw g k
  cases k
  obtain ⟨hA, hB, hC, hw⟩ : lastUseOk h.luA (some m.base) = true ∧ lastUseOk h.luB m.index.reg = true
      ∧ lastUseOk h.luC none = true ∧ (m.ok .acq .plain off.toNat && RegClass.ok (t.dcls) d) = true := wf_parts rfl hw
  simp only [Bool.and_eq_true] at hw
  obtain ⟨w0, w1⟩ := hw
  obtain ⟨r, hr⟩ : ∃ r, raw (.ldc h t d m off) h = r := ⟨_, rfl⟩
  have ed : r.d = d.code := by subst hr; rfl
  have elu : r.lu = h.lu := by subst hr; exact Nat.zero_add _
  have em : memBody r .acq .plain false = some (off.toNat, .ok m) :=
    memBody_form (h := h) (by subst hr; rfl) off.isLt (by subst hr; rfl) (by subst hr; rfl)
      (by subst hr; exact Nat.zero_add _) w0 hA hB (unmarked hC)
  have fd := regField_code 0 w1
  refine ⟨⟨form_lt m off.isLt, by show (raw _ h).lu < _; rw [hr, elu]; exact lu_lt h, index_lt m.index, code_lt m.base,
    code_lt d⟩, head_of (by rw [hr, elu]) (show 0xca + t.code ≠ 0x100 by cases t <;> decide) (show 0xca + t.code ≠ 0x102 by cases t <;> decide), ?_⟩
  show body (0xca + t.code) h (raw _ h) = _
  rw [hr]; clear hr
  cases t <;>
    (unfold body bodyMem
     simp only [em, ed, someBind, ↓reduceIte, Nat.reduceLT, Nat.reduceAdd, Nat.reduceSub, fd, BitVec.ofNat_toNat, BitVec.setWidth_eq, LdcTy.code, LdcTy.of]
     rfl)

theorem ldg (h : Head) (t : W2) (d : Reg) (pd : Pred) (m : Addr) (off : BitVec 4) : Statement (.ldg h t d pd m off) := by
  intro hw g k
  cases k
  obtain ⟨hA, hB, hC, hw⟩ : lastUseOk h.luA (some m.base) = true ∧ lastUseOk h.luB m.index.reg = true
      ∧ lastUseOk h.luC none = true ∧ (m.ok .acq .bounded (off.toNat + 16 * pd.val) && RegClass.ok (t.dcls) d) = true := wf_parts rfl hw
  simp only [Bool.and_eq_true] at hw
  obtain ⟨w0, w1⟩ := hw
  obtain ⟨r, hr⟩ : ∃ r, raw (.ldg h t d pd m off) h = r := ⟨_, rfl⟩
  have q0 := off.isLt
  have q1 := pd.isLt
  have ed : r.d = d.code := by subst hr; rfl
  have elu : r.lu = h.lu := by subst hr; exact Nat.zero_add _
  have em : memBody r .acq .bounded false = some ((off.toNat + 16 * pd.val), .ok m) :=
    memBody_form (h := h) (by subst hr; rfl) (by omega) (by subst hr; rfl) (by subst hr; rfl)
      (by subst hr; exact Nat.zero_add _) w0 hA hB (unmarked hC)
  have fd := regField_code 0 w1
  have o1 : Fin.ofNat 8 ((off.toNat + 16 * pd.val) / 16) = pd := Fin.ext (by simp only [Fin.ofNat]; omega)
  have o2 : BitVec.ofNat 4 (off.toNat + 16 * pd.val) = off := BitVec.eq_of_toNat_eq (by simp only [BitVec.toNat_ofNat]; omega)
  refine ⟨⟨form_lt m (by omega), by show (raw _ h).lu < _; rw [hr, elu]; exact lu_lt h, index_lt m.index, code_lt m.base,
    code_lt d⟩, head_of (by rw [hr, elu]) (show 0xcd + t.code ≠ 0x100 by cases t <;> decide) (show 0xcd + t.code ≠ 0x102 by cases t <;> decide), ?_⟩
  show body (0xcd + t.code) h (raw _ h) = _
  rw [hr]; clear hr
  cases t <;>
    (unfold body bodyMem
     simp only [em, ed, someBind, ↓reduceIte, Nat.reduceLT, Nat.reduceAdd, Nat.reduceSub, fd, o1, o2, W2.code, W2.of]
     rfl)

theorem ldr (h : Head) (t : W2) (d : Reg) (pd : Pred) (m : Addr) (off : BitVec 4) : Statement (.ldr h t d pd m off) := by
  intro hw g k
  cases k
  obtain ⟨hA, hB, hC, hw⟩ : lastUseOk h.luA (some m.base) = true ∧ lastUseOk h.luB m.index.reg = true
      ∧ lastUseOk h.luC none = true ∧ (m.ok .acq .pred (off.toNat + 16 * pd.val) && RegClass.ok (t.dcls) d) = true := wf_parts rfl hw
  simp only [Bool.and_eq_true] at hw
  obtain ⟨w0, w1⟩ := hw
  obtain ⟨r, hr⟩ : ∃ r, raw (.ldr h t d pd m off) h = r := ⟨_, rfl⟩
  have q0 := off.isLt
  have q1 := pd.isLt
  have ed : r.d = d.code := by subst hr; rfl
  have elu : r.lu = h.lu := by subst hr; exact Nat.zero_add _
  have em : memBody r .acq .pred false = some ((off.toNat + 16 * pd.val), .ok m) :=
    memBody_form (h := h) (by subst hr; rfl) (by omega) (by subst hr; rfl) (by subst hr; rfl)
      (by subst hr; exact Nat.zero_add _) w0 hA hB (unmarked hC)
  have fd := regField_code 0 w1
  have o1 : Fin.ofNat 8 ((off.toNat + 16 * pd.val) / 16) = pd := Fin.ext (by simp only [Fin.ofNat]; omega)
  have o2 : BitVec.ofNat 4 (off.toNat + 16 * pd.val) = off := BitVec.eq_of_toNat_eq (by simp only [BitVec.toNat_ofNat]; omega)
  refine ⟨⟨form_lt m (by omega), by show (raw _ h).lu < _; rw [hr, elu]; exact lu_lt h, index_lt m.index, code_lt m.base,
    code_lt d⟩, head_of (by rw [hr, elu]) (show 0xd3 + t.code ≠ 0x100 by cases t <;> decide) (show 0xd3 + t.code ≠ 0x102 by cases t <;> decide), ?_⟩
  show body (0xd3 + t.code) h (raw _ h) = _
  rw [hr]; clear hr
  cases t <;>
    (unfold body bodyMem
     simp only [em, ed, someBind, ↓reduceIte, Nat.reduceLT, Nat.reduceAdd, Nat.reduceSub, fd, o1, o2, W2.code, W2.of]
     rfl)

theorem st (h : Head) (t : LdTy) (d : Reg) (m : Addr) (off : BitVec 7) : Statement (.st h t d m off) := by
  intro hw g k
  cases k
  obtain ⟨hA, hB, hC, hw⟩ : lastUseOk h.luA (some m.base) = true ∧ lastUseOk h.luB m.index.reg = true
      ∧ lastUseOk h.luC (some d) = true ∧ (m.ok .rel .plain off.toNat && RegClass.ok (t.dcls) d) = true := wf_parts rfl hw
  simp only [Bool.and_eq_true] at hw
  obtain ⟨w0, w1⟩ := hw
  obtain ⟨r, hr⟩ : ∃ r, raw (.st h t d m off) h = r := ⟨_, rfl⟩
  have ed : r.d = d.code := by subst hr; rfl
  have elu : r.lu = h.lu := by subst hr; exact Nat.zero_add _
  have em : memBody r .rel .plain true = some (off.toNat, .ok m) :=
    memBody_form (h := h) (by subst hr; rfl) off.isLt (by subst hr; rfl) (by subst hr; rfl)
      (by subst hr; exact Nat.zero_add _) w0 hA hB (fun e => ⟨rfl, ed ▸ marked hC e⟩)
  have fd := regField_code 0 w1
  refine ⟨⟨form_lt m off.isLt, by show (raw _ h).lu < _; rw [hr, elu]; exact lu_lt h, index_lt m.index, code_lt m.base,
    code_lt d⟩, head_of (by rw [hr, elu]) (show 0xc5 + t.code ≠ 0x100 by cases t <;> decide) (show 0xc5 + t.code ≠ 0x102 by cases t <;> decide), ?_⟩
  show body (0xc5 + t.code) h (raw _ h) = _
  rw [hr]; clear hr
  cases t <;>
    (unfold body bodyMem
     simp only [em, ed, someBind, ↓reduceIte, Nat.reduceLT, Nat.reduceAdd, Nat.reduceSub, fd, BitVec.ofNat_toNat, BitVec.setWidth_eq, LdTy.code, LdTy.of]
     rfl)

theorem scat (h : Head) (t : W2) (d : Reg) (m : Addr) (off : BitVec 7) : Statement (.scat h t d m off) := by
  intro hw g k
  cases k
  obtain ⟨hA, hB, hC, hw⟩ : lastUseOk h.luA (some m.base) = true ∧ lastUseOk h.luB m.index.reg = true
      ∧ lastUseOk h.luC (some d) = true ∧ (m.ok .rel .boundedStore off.toNat && RegClass.ok (t.dcls) d) = true := wf_parts rfl hw
  simp only [Bool.and_eq_true] at hw
  obtain ⟨w0, w1⟩ := hw
  obtain ⟨r, hr⟩ : ∃ r, raw (.scat h t d m off) h = r := ⟨_, rfl⟩
  have ed : r.d = d.code := by subst hr; rfl
  have elu : r.lu = h.lu := by subst hr; exact Nat.zero_add _
  have em : memBody r .rel .boundedStore true = some (off.toNat, .ok m) :=
    memBody_form (h := h) (by subst hr; rfl) off.isLt (by subst hr; rfl) (by subst hr; rfl)
      (by subst hr; exact Nat.zero_add _) w0 hA hB (fun e => ⟨rfl, ed ▸ marked hC e⟩)
  have fd := regField_code 0 w1
  refine ⟨⟨form_lt m off.isLt, by show (raw _ h).lu < _; rw [hr, elu]; exact lu_lt h, index_lt m.index, code_lt m.base,
    code_lt d⟩, head_of (by rw [hr, elu]) (show 0xcf + t.code ≠ 0x100 by cases t <;> decide) (show 0xcf + t.code ≠ 0x102 by cases t <;> decide), ?_⟩
  show body (0xcf + t.code) h (raw _ h) = _
  rw [hr]; clear hr
  cases t <;>
    (unfold body bodyMem
     simp only [em, ed, someBind, ↓reduceIte, Nat.reduceLT, Nat.reduceAdd, Nat.reduceSub, fd, BitVec.ofNat_toNat, BitVec.setWidth_eq, W2.code, W2.of]
     rfl)

theorem lde (h : Head) (t : W2) (d : Reg) (pd : Pred) (m : Addr) (off : BitVec 4) : Statement (.lde h t d pd m off) := by
  intro hw g k
  cases k
  obtain ⟨hA, hB, hC, hw⟩ : lastUseOk h.luA (some m.base) = true ∧ lastUseOk h.luB m.index.reg = true
      ∧ lastUseOk h.luC none = true ∧ (m.ok .acq .pred (off.toNat + 16 * pd.val) && RegClass.ok (t.dcls) d) = true := wf_parts rfl hw
  simp only [Bool.and_eq_true] at hw
  obtain ⟨w0, w1⟩ := hw
  obtain ⟨r, hr⟩ : ∃ r, raw (.lde h t d pd m off) h = r := ⟨_, rfl⟩
  have q0 := off.isLt
  have q1 := pd.isLt
  have ed : r.d = d.code := by subst hr; rfl
  have elu : r.lu = h.lu := by subst hr; exact Nat.zero_add _
  have em : memBody r .acq .pred false = some ((off.toNat + 16 * pd.val), .ok m) :=
    memBody_form (h := h) (by subst hr; rfl) (by omega) (by subst hr; rfl) (by subst hr; rfl)
      (by subst hr; exact Nat.zero_add _) w0 hA hB (unmarked hC)
  have fd := regField_code 0 w1
  have o1 : Fin.ofNat 8 ((off.toNat + 16 * pd.val) / 16) = pd := Fin.ext (by simp only [Fin.ofNat]; omega)
  have o2 : BitVec.ofNat 4 (off.toNat + 16 * pd.val) = off := BitVec.eq_of_toNat_eq (by simp only [BitVec.toNat_ofNat]; omega)
  refine ⟨⟨form_lt m (by omega), by show (raw _ h).lu < _; rw [hr, elu]; exact lu_lt h, index_lt m.index, code_lt m.base,
    code_lt d⟩, head_of (by rw [hr, elu]) (show 0xd1 + t.code ≠ 0x100 by cases t <;> decide) (show 0xd1 + t.code ≠ 0x102 by cases t <;> decide), ?_⟩
  show body (0xd1 + t.code) h (raw _ h) = _
  rw [hr]; clear hr
  cases t <;>
    (unfold body bodyMem
     simp only [em, ed, someBind, ↓reduceIte, Nat.reduceLT, Nat.reduceAdd, Nat.reduceSub, fd, o1, o2, W2.code, W2.of]
     rfl)

theorem ealloc (h : Head) (d : Reg) (m : Addr) (off : BitVec 7) : Statement (.ealloc h d m off) := by
  intro hw g k
  cases k
  obtain ⟨hA, hB, hC, hw⟩ : lastUseOk h.luA (some m.base) = true ∧ lastUseOk h.luB m.index.reg = true
      ∧ lastUseOk h.luC none = true ∧ (m.ok .rel .plain off.toNat && RegClass.ok .dest4 d) = true := wf_parts rfl hw
  simp only [Bool.and_eq_true] at hw
  obtain ⟨w0, w1⟩ := hw
  obtain ⟨r, hr⟩ : ∃ r, raw (.ealloc h d m off) h = r := ⟨_, rfl⟩
  have ed : r.d = d.code := by subst hr; rfl
  have elu : r.lu = h.lu := by subst hr; exact Nat.zero_add _
  have em : memBody r .rel .plain false = some (off.toNat, .ok m) :=
    memBody_form (h := h) (by subst hr; rfl) off.isLt (by subst hr; rfl) (by subst hr; rfl)
      (by subst hr; exact Nat.zero_add _) w0 hA hB (unmarked hC)
  have fd := regField_code 0 w1
  refine ⟨⟨form_lt m off.isLt, by show (raw _ h).lu < _; rw [hr, elu]; exact lu_lt h, index_lt m.index, code_lt m.base,
    code_lt d⟩, head_of (by rw [hr, elu]) (show 0xd5 ≠ 0x100 by decide) (show 0xd5 ≠ 0x102 by decide), ?_⟩
  show body (0xd5) h (raw _ h) = _
  rw [hr]; clear hr
  unfold body bodyMem
  simp only [em, ed, someBind, ↓reduceIte, Nat.reduceLT, fd, BitVec.ofNat_toNat, BitVec.setWidth_eq]
  rfl

theorem erase (h : Head) (m : Addr) (off : BitVec 7) : Statement (.erase h m off) := by
  intro hw g k
  cases k
  obtain ⟨hA, hB, hC, hw⟩ : lastUseOk h.luA (some m.base) = true ∧ lastUseOk h.luB m.index.reg = true
      ∧ lastUseOk h.luC none = true ∧ (m.ok .rel .plain off.toNat) = true := wf_parts rfl hw
  have w0 := hw
  obtain ⟨r, hr⟩ : ∃ r, raw (.erase h m off) h = r := ⟨_, rfl⟩
  have ed : r.d = 0 := by subst hr; rfl
  have elu : r.lu = h.lu := by subst hr; exact Nat.zero_add _
  have em : memBody r .rel .plain false = some (off.toNat, .ok m) :=
    memBody_form (h := h) (by subst hr; rfl) off.isLt (by subst hr; rfl) (by subst hr; rfl)
      (by subst hr; exact Nat.zero_add _) w0 hA hB (unmarked hC)
  refine ⟨⟨form_lt m off.isLt, by show (raw _ h).lu < _; rw [hr, elu]; exact lu_lt h, index_lt m.index, code_lt m.base,
    (Nat.zero_lt_succ _)⟩, head_of (by rw [hr, elu]) (show 0xd6 ≠ 0x100 by decide) (show 0xd6 ≠ 0x102 by decide), ?_⟩
  show body (0xd6) h (raw _ h) = _
  rw [hr]; clear hr
  unfold body bodyMem
  simp only [em, ed, chk_of, someBind, beq_self_eq_true, ↓reduceIte, Nat.reduceLT, BitVec.ofNat_toNat, BitVec.setWidth_eq]
  rfl

theorem eraser (h : Head) (d : Reg) (m : Addr) (off : BitVec 7) : Statement (.eraser h d m off) := by
  intro hw g k
  cases k
  obtain ⟨hA, hB, hC, hw⟩ : lastUseOk h.luA (some m.base) = true ∧ lastUseOk h.luB m.index.reg = true
      ∧ lastUseOk h.luC (some d) = true ∧ (m.ok .rel .plain off.toNat && RegClass.ok .dest4 d) = true := wf_parts rfl hw
  simp only [Bool.and_eq_true] at hw
  obtain ⟨w0, w1⟩ := hw
  obtain ⟨r, hr⟩ : ∃ r, raw (.eraser h d m off) h = r := ⟨_, rfl⟩
  have ed : r.d = d.code := by subst hr; rfl
  have elu : r.lu = h.lu := by subst hr; exact Nat.zero_add _
  have em : memBody r .rel .plain true = some (off.toNat, .ok m) :=
    memBody_form (h := h) (by subst hr; rfl) off.isLt (by subst hr; rfl) (by subst hr; rfl)
      (by subst hr; exact Nat.zero_add _) w0 hA hB (fun e => ⟨rfl, ed ▸ marked hC e⟩)
  have fd := regField_code 0 w1
  refine ⟨⟨form_lt m off.isLt, by show (raw _ h).lu < _; rw [hr, elu]; exact lu_lt h, index_lt m.index, code_lt m.base,
    code_lt d⟩, head_of (by rw [hr, elu]) (show 0xd7 ≠ 0x100 by decide) (show 0xd7 ≠ 0x102 by decide), ?_⟩
  show body (0xd7) h (raw _ h) = _
  rw [hr]; clear hr
  unfold body bodyMem
  simp only [em, ed, someBind, ↓reduceIte, Nat.reduceLT, fd, BitVec.ofNat_toNat, BitVec.setWidth_eq]
  rfl

theorem etest (h : Head) (d : Reg) (m : Addr) (off : BitVec 7) : Statement (.etest h d m off) := by
  intro hw g k
  cases k
  obtain ⟨hA, hB, hC, hw⟩ : lastUseOk h.luA (some m.base) = true ∧ lastUseOk h.luB m.index.reg = true
      ∧ lastUseOk h.luC none = true ∧ (m.ok .acq .plain off.toNat && RegClass.ok .dest4 d) = true := wf_parts rfl hw
  simp only [Bool.and_eq_true] at hw
  obtain ⟨w0, w1⟩ := hw
  obtain ⟨r, hr⟩ : ∃ r, raw (.etest h d m off) h = r := ⟨_, rfl⟩
  have ed : r.d = d.code := by subst hr; rfl
  have elu : r.lu = h.lu := by subst hr; exact Nat.zero_add _
  have em : memBody r .acq .plain false = some (off.toNat, .ok m) :=
    memBody_form (h := h) (by subst hr; rfl) off.isLt (by subst hr; rfl) (by subst hr; rfl)
      (by subst hr; exact Nat.zero_add _) w0 hA hB (unmarked hC)
  have fd := regField_code 0 w1
  refine ⟨⟨form_lt m off.isLt, by show (raw _ h).lu < _; rw [hr, elu]; exact lu_lt h, index_lt m.index, code_lt m.base,
    code_lt d⟩, head_of (by rw [hr, elu]) (show 0xd8 ≠ 0x100 by decide) (show 0xd8 ≠ 0x102 by decide), ?_⟩
  show body (0xd8) h (raw _ h) = _
  rw [hr]; clear hr
  unfold body bodyMem
  simp only [em, ed, someBind, ↓reduceIte, Nat.reduceLT, fd, BitVec.ofNat_toNat, BitVec.setWidth_eq]
  rfl

theorem atom (h : Head) (op : AtomOp) (d : Reg) (m : Addr) (off : BitVec 7) : Statement (.atom h op d m off) := by
  intro hw g k
  cases k
  obtain ⟨hA, hB, hC, hw⟩ : lastUseOk h.luA (some m.base) = true ∧ lastUseOk h.luB m.index.reg = true
      ∧ lastUseOk h.luC (some d) = true ∧ (m.ok .any .plain off.toNat && RegClass.ok (op.dcls) d) = true := wf_parts rfl hw
  simp only [Bool.and_eq_true] at hw
  obtain ⟨w0, w1⟩ := hw
  obtain ⟨r, hr⟩ : ∃ r, raw (.atom h op d m off) h = r := ⟨_, rfl⟩
  have ed : r.d = d.code := by subst hr; rfl
  have elu : r.lu = h.lu := by subst hr; exact Nat.zero_add _
  have em : memBody r .any .plain true = some (off.toNat, .ok m) :=
    memBody_form (h := h) (by subst hr; rfl) off.isLt (by subst hr; rfl) (by subst hr; rfl)
      (by subst hr; exact Nat.zero_add _) w0 hA hB (fun e => ⟨rfl, ed ▸ marked hC e⟩)
  have fd := regField_code 0 w1
  refine ⟨⟨form_lt m off.isLt, by show (raw _ h).lu < _; rw [hr, elu]; exact lu_lt h, index_lt m.index, code_lt m.base,
    code_lt d⟩, head_of (by rw [hr, elu]) (show 0xd9 + op.code ≠ 0x100 by cases op <;> decide) (show 0xd9 + op.code ≠ 0x102 by cases op <;> decide), ?_⟩
  show body (0xd9 + op.code) h (raw _ h) = _
  rw [hr]; clear hr
  cases op <;>
    (unfold body bodyMem
     simp only [em, ed, someBind, ↓reduceIte, Nat.reduceLT, Nat.reduceAdd, Nat.reduceSub, fd, BitVec.ofNat_toNat, BitVec.setWidth_eq, AtomOp.code, AtomOp.of]
     rfl)

theorem fence (h : Head) (order : Order) (s : MScope) : Statement (.fence h order s) := by
  intro hw g k
  cases k
  obtain ⟨hA, hB, hC, hw⟩ : lastUseOk h.luA none = true ∧ lastUseOk h.luB none = true
      ∧ lastUseOk h.luC none = true ∧ (!(order == .plain)) = true := wf_parts rfl hw
  obtain ⟨r, hr⟩ : ∃ r, raw (.fence h order s) h = r := ⟨_, rfl⟩
  have q0 : order.code < 4 := by cases order <;> decide
  have q1 : s.code < 8 := by cases s <;> decide
  have ef : r.f = glue [(15, 0), (2, order.code), (3, s.code)] := by subst hr; rfl
  have ed : r.d = 0 := by subst hr; rfl
  have ea : r.a = 0 := by subst hr; rfl
  have eb : r.b = 0 := by subst hr; rfl
  have elu : r.lu = h.lu := by subst hr; exact Nat.zero_add _
  have hl : r.lastUseOk false false false = true :=
    lastUse_checked (h := h) elu (unmarked hA) (unmarked hB) (unmarked hC)
  have em : cut [15, 2, 3] r.f = [0, order.code, s.code, 0] := by
    simp only [ef, glue, cut, List.cons.injEq]; refine ⟨?_, ?_, ?_, ?_, trivial⟩ <;> omega
  refine ⟨⟨by show (raw _ h).f < _; rw [hr, ef]; (try simp only [glue]); omega, by show (raw _ h).lu < _; rw [hr, elu]; exact lu_lt h,
    (Nat.zero_lt_succ _), (Nat.zero_lt_succ _), (Nat.zero_lt_succ _)⟩, head_of (by rw [hr, elu]) (show 0xf1 ≠ 0x100 by decide) (show 0xf1 ≠ 0x102 by decide), ?_⟩
  show body 0xf1 h (raw _ h) = _
  rw [hr]; clear hr
  unfold body bodyMem
  simp only [ed, ea, eb, hl, chk_of, someBind, beq_self_eq_true, ↓reduceIte, Nat.reduceLT, em, orderOf_code, mScope_of_code, hw]

theorem tokenTake (h : Head) : Statement (.tokenTake h) := by
  intro hw g k
  cases k
  obtain ⟨hA, hB, hC, hw⟩ : lastUseOk h.luA none = true ∧ lastUseOk h.luB none = true
      ∧ lastUseOk h.luC none = true ∧ (true) = true := wf_parts rfl hw
  obtain ⟨r, hr⟩ : ∃ r, raw (.tokenTake h) h = r := ⟨_, rfl⟩
  have ef : r.f = 0 := by subst hr; rfl
  have ed : r.d = 0 := by subst hr; rfl
  have ea : r.a = 0 := by subst hr; rfl
  have eb : r.b = 0 := by subst hr; rfl
  have elu : r.lu = h.lu := by subst hr; exact Nat.zero_add _
  have hl : r.lastUseOk false false false = true :=
    lastUse_checked (h := h) elu (unmarked hA) (unmarked hB) (unmarked hC)
  have ec : r.c = 0 := by simp only [Raw.c, ef]; omega
  have em : r.m = 0 := by simp only [Raw.m, ef]; omega
  refine ⟨⟨by show (raw _ h).f < _; rw [hr, ef]; omega, by show (raw _ h).lu < _; rw [hr, elu]; exact lu_lt h,
    (Nat.zero_lt_succ _), (Nat.zero_lt_succ _), (Nat.zero_lt_succ _)⟩, head_of (by rw [hr, elu]) (show 0xf2 ≠ 0x100 by decide) (show 0xf2 ≠ 0x102 by decide), ?_⟩
  show body 0xf2 h (raw _ h) = _
  rw [hr]; clear hr
  unfold body bodyMem
  simp only [ed, ea, eb, hl, chk_of, someBind, beq_self_eq_true, ↓reduceIte, Nat.reduceLT, ec, em, Nat.reduceLT, decide_true]

theorem tokenPass (h : Head) : Statement (.tokenPass h) := by
  intro hw g k
  cases k
  obtain ⟨hA, hB, hC, hw⟩ : lastUseOk h.luA none = true ∧ lastUseOk h.luB none = true
      ∧ lastUseOk h.luC none = true ∧ (true) = true := wf_parts rfl hw
  obtain ⟨r, hr⟩ : ∃ r, raw (.tokenPass h) h = r := ⟨_, rfl⟩
  have ef : r.f = 1 := by subst hr; rfl
  have ed : r.d = 0 := by subst hr; rfl
  have ea : r.a = 0 := by subst hr; rfl
  have eb : r.b = 0 := by subst hr; rfl
  have elu : r.lu = h.lu := by subst hr; exact Nat.zero_add _
  have hl : r.lastUseOk false false false = true :=
    lastUse_checked (h := h) elu (unmarked hA) (unmarked hB) (unmarked hC)
  have ec : r.c = 0 := by simp only [Raw.c, ef]; omega
  have em : r.m = 1 := by simp only [Raw.m, ef]; omega
  refine ⟨⟨by show (raw _ h).f < _; rw [hr, ef]; omega, by show (raw _ h).lu < _; rw [hr, elu]; exact lu_lt h,
    (Nat.zero_lt_succ _), (Nat.zero_lt_succ _), (Nat.zero_lt_succ _)⟩, head_of (by rw [hr, elu]) (show 0xf2 ≠ 0x100 by decide) (show 0xf2 ≠ 0x102 by decide), ?_⟩
  show body 0xf2 h (raw _ h) = _
  rw [hr]; clear hr
  unfold body bodyMem
  simp only [ed, ea, eb, hl, chk_of, someBind, beq_self_eq_true, ↓reduceIte, Nat.reduceLT, Nat.reduceBEq, Bool.false_eq_true, ec, em, Nat.reduceLT, decide_true]

theorem prefetch (h : Head) (m : Addr) (off : BitVec 7) : Statement (.prefetch h m off) := by
  intro hw g k
  cases k
  obtain ⟨hA, hB, hC, hw⟩ : lastUseOk h.luA (some m.base) = true ∧ lastUseOk h.luB m.index.reg = true
      ∧ lastUseOk h.luC none = true ∧ (m.ok .plain .plain off.toNat) = true := wf_parts rfl hw
  have w0 := hw
  obtain ⟨r, hr⟩ : ∃ r, raw (.prefetch h m off) h = r := ⟨_, rfl⟩
  have ed : r.d = 0 := by subst hr; rfl
  have elu : r.lu = h.lu := by subst hr; exact Nat.zero_add _
  have em : memBody r .plain .plain false = some (off.toNat, .ok m) :=
    memBody_form (h := h) (by subst hr; rfl) off.isLt (by subst hr; rfl) (by subst hr; rfl)
      (by subst hr; exact Nat.zero_add _) w0 hA hB (unmarked hC)
  refine ⟨⟨form_lt m off.isLt, by show (raw _ h).lu < _; rw [hr, elu]; exact lu_lt h, index_lt m.index, code_lt m.base,
    (Nat.zero_lt_succ _)⟩, head_of (by rw [hr, elu]) (show 0xf3 ≠ 0x100 by decide) (show 0xf3 ≠ 0x102 by decide), ?_⟩
  show body (0xf3) h (raw _ h) = _
  rw [hr]; clear hr
  unfold body bodyMem
  simp only [em, ed, chk_of, someBind, beq_self_eq_true, ↓reduceIte, Nat.reduceLT, BitVec.ofNat_toNat, BitVec.setWidth_eq]
  rfl

theorem reserve (h : Head) (d : Reg) (m : Addr) (off : BitVec 7) : Statement (.reserve h d m off) := by
  intro hw g k
  cases k
  obtain ⟨hA, hB, hC, hw⟩ : lastUseOk h.luA (some m.base) = true ∧ lastUseOk h.luB m.index.reg = true
      ∧ lastUseOk h.luC (some d) = true ∧ (m.ok .plain .plain off.toNat && RegClass.ok .dest4 d) = true := wf_parts rfl hw
  simp only [Bool.and_eq_true] at hw
  obtain ⟨w0, w1⟩ := hw
  obtain ⟨r, hr⟩ : ∃ r, raw (.reserve h d m off) h = r := ⟨_, rfl⟩
  have ed : r.d = d.code := by subst hr; rfl
  have elu : r.lu = h.lu := by subst hr; exact Nat.zero_add _
  have em : memBody r .plain .plain true = some (off.toNat, .ok m) :=
    memBody_form (h := h) (by subst hr; rfl) off.isLt (by subst hr; rfl) (by subst hr; rfl)
      (by subst hr; exact Nat.zero_add _) w0 hA hB (fun e => ⟨rfl, ed ▸ marked hC e⟩)
  have fd := regField_code 0 w1
  refine ⟨⟨form_lt m off.isLt, by show (raw _ h).lu < _; rw [hr, elu]; exact lu_lt h, index_lt m.index, code_lt m.base,
    code_lt d⟩, head_of (by rw [hr, elu]) (show 0xf4 ≠ 0x100 by decide) (show 0xf4 ≠ 0x102 by decide), ?_⟩
  show body (0xf4) h (raw _ h) = _
  rw [hr]; clear hr
  unfold body bodyMem
  simp only [em, ed, someBind, ↓reduceIte, Nat.reduceLT, fd, BitVec.ofNat_toNat, BitVec.setWidth_eq]
  rfl

theorem discard (h : Head) (m : Addr) (off : BitVec 7) : Statement (.discard h m off) := by
  intro hw g k
  cases k
  obtain ⟨hA, hB, hC, hw⟩ : lastUseOk h.luA (some m.base) = true ∧ lastUseOk h.luB m.index.reg = true
      ∧ lastUseOk h.luC none = true ∧ (m.ok .rel .plain off.toNat) = true := wf_parts rfl hw
  have w0 := hw
  obtain ⟨r, hr⟩ : ∃ r, raw (.discard h m off) h = r := ⟨_, rfl⟩
  have ed : r.d = 0 := by subst hr; rfl
  have elu : r.lu = h.lu := by subst hr; exact Nat.zero_add _
  have em : memBody r .rel .plain false = some (off.toNat, .ok m) :=
    memBody_form (h := h) (by subst hr; rfl) off.isLt (by subst hr; rfl) (by subst hr; rfl)
      (by subst hr; exact Nat.zero_add _) w0 hA hB (unmarked hC)
  refine ⟨⟨form_lt m off.isLt, by show (raw _ h).lu < _; rw [hr, elu]; exact lu_lt h, index_lt m.index, code_lt m.base,
    (Nat.zero_lt_succ _)⟩, head_of (by rw [hr, elu]) (show 0xf5 ≠ 0x100 by decide) (show 0xf5 ≠ 0x102 by decide), ?_⟩
  show body (0xf5) h (raw _ h) = _
  rw [hr]; clear hr
  unfold body bodyMem
  simp only [em, ed, chk_of, someBind, beq_self_eq_true, ↓reduceIte, Nat.reduceLT, BitVec.ofNat_toNat, BitVec.setWidth_eq]
  rfl

theorem reqpage (h : Head) (m : Addr) (off : BitVec 7) : Statement (.reqpage h m off) := by
  intro hw g k
  cases k
  obtain ⟨hA, hB, hC, hw⟩ : lastUseOk h.luA (some m.base) = true ∧ lastUseOk h.luB m.index.reg = true
      ∧ lastUseOk h.luC none = true ∧ (m.ok .plain .plain off.toNat) = true := wf_parts rfl hw
  have w0 := hw
  obtain ⟨r, hr⟩ : ∃ r, raw (.reqpage h m off) h = r := ⟨_, rfl⟩
  have ed : r.d = 0 := by subst hr; rfl
  have elu : r.lu = h.lu := by subst hr; exact Nat.zero_add _
  have em : memBody r .plain .plain false = some (off.toNat, .ok m) :=
    memBody_form (h := h) (by subst hr; rfl) off.isLt (by subst hr; rfl) (by subst hr; rfl)
      (by subst hr; exact Nat.zero_add _) w0 hA hB (unmarked hC)
  refine ⟨⟨form_lt m off.isLt, by show (raw _ h).lu < _; rw [hr, elu]; exact lu_lt h, index_lt m.index, code_lt m.base,
    (Nat.zero_lt_succ _)⟩, head_of (by rw [hr, elu]) (show 0xf6 ≠ 0x100 by decide) (show 0xf6 ≠ 0x102 by decide), ?_⟩
  show body (0xf6) h (raw _ h) = _
  rw [hr]; clear hr
  unfold body bodyMem
  simp only [em, ed, chk_of, someBind, beq_self_eq_true, ↓reduceIte, Nat.reduceLT, BitVec.ofNat_toNat, BitVec.setWidth_eq]
  rfl

theorem bra (h : Head) (target : BitVec 14) (reconv : BitVec 14) : Statement (.bra h target reconv) := by
  intro hw g k
  cases k
  obtain ⟨hA, hB, hC, hw⟩ : lastUseOk h.luA none = true ∧ lastUseOk h.luB none = true
      ∧ lastUseOk h.luC none = true ∧ (true) = true := wf_parts rfl hw
  obtain ⟨r, hr⟩ : ∃ r, raw (.bra h target reconv) h = r := ⟨_, rfl⟩
  have q0 := target.isLt
  have q1 := reconv.isLt
  have ed : r.d = 0 := by subst hr; rfl
  have ea : r.a = 0 := by subst hr; rfl
  have eb : r.b = target.toNat / 2 ^ 9 := by subst hr; rfl
  have ef : r.f = target.toNat % 2 ^ 6 * 2 ^ 14 + reconv.toNat := by subst hr; rfl
  have a := notMarked hA; have b := notMarked hB; have c := notMarked hC
  simp only [Bool.not_eq_true'] at a b c
  have e0 : h.lu = 0 := by simp only [Head.lu, a, b, c]; rfl
  have elu : r.lu = target.toNat / 2 ^ 6 % 2 ^ 3 := by
    subst hr; show target.toNat / 2 ^ 6 % 2 ^ 3 + h.lu = _; omega
  have et : BitVec.ofNat 14 (r.b * 2 ^ 9 + r.lu * 2 ^ 6 + r.f / 2 ^ 14) = target := by
    apply BitVec.eq_of_toNat_eq; simp only [eb, ef, elu, BitVec.toNat_ofNat]; omega
  have er : BitVec.ofNat 14 (r.f % 2 ^ 14) = reconv := by
    apply BitVec.eq_of_toNat_eq; simp only [ef, BitVec.toNat_ofNat]; omega
  have eb2 : decide (r.b < 32) = true := decide_eq_true (by omega)
  refine ⟨⟨by show (raw _ h).f < _; rw [hr, ef]; omega, by show (raw _ h).lu < _; rw [hr, elu]; omega, by show (raw _ h).b < _; rw [hr, eb]; omega,
    (Nat.zero_lt_succ _), (Nat.zero_lt_succ _)⟩, branch_head_of (.inl rfl) a b c, ?_⟩
  show body 0x100 h (raw _ h) = _
  rw [hr]; clear hr
  unfold body bodyCtl
  simp only [ed, ea, et, er, eb2, chk_of, someBind, beq_self_eq_true, ↓reduceIte, Nat.reduceLT]

theorem brx (h : Head) (a : Reg) (reconv : BitVec 12) : Statement (.brx h a reconv) := by
  intro hw g k
  cases k
  obtain ⟨hA, hB, hC, hw⟩ : lastUseOk h.luA (some a) = true ∧ lastUseOk h.luB none = true
      ∧ lastUseOk h.luC none = true ∧ (RegClass.ok .evenReg a) = true := wf_parts rfl hw
  have w0 := hw
  obtain ⟨r, hr⟩ : ∃ r, raw (.brx h a reconv) h = r := ⟨_, rfl⟩
  have ef : r.f = glue [(12, reconv.toNat), (8, 0)] := by subst hr; rfl
  have q0 := reconv.isLt
  have ec : r.c = 0 := by simp only [Raw.c, ef, glue]; omega
  have em : cut [12] r.m = [reconv.toNat, 0] := by
    simp only [Raw.m, ef, glue, cut, List.cons.injEq]; refine ⟨?_, ?_, trivial⟩ <;> omega
  have ed : r.d = 0 := by subst hr; rfl
  have ea : r.a = a.code := by subst hr; rfl
  have eb : r.b = 0 := by subst hr; rfl
  have elu : r.lu = h.lu := by subst hr; exact Nat.zero_add _
  have hl : r.lastUseOk true false false = true :=
    lastUse_checked (h := h) elu
      (fun e => ⟨rfl, ea ▸ marked hA e⟩) (unmarked hB) (unmarked hC)
  have fa := regField_code 1 (w0)
  refine ⟨⟨by show (raw _ h).f < _; rw [hr, ef]; simp only [glue]; omega, by show (raw _ h).lu < _; rw [hr, elu]; exact lu_lt h,
    (Nat.zero_lt_succ _), (code_lt a), (Nat.zero_lt_succ _)⟩, head_of (by rw [hr, elu])
    (show 0x101 ≠ 0x100 by decide) (show 0x101 ≠ 0x102 by decide), ?_⟩
  show body (0x101) h (raw _ h) = _
  rw [hr]; clear hr ef
  unfold body bodyCtl
  simp only [ec, ed, ea, eb, hl, chk_of, someBind, beq_self_eq_true, ↓reduceIte, Nat.reduceLT, BitVec.ofNat_toNat, BitVec.setWidth_eq, fa, em]
  rfl

theorem call (h : Head) (d : Reg) (target : BitVec 14) (reconv : BitVec 14) : Statement (.call h d target reconv) := by
  intro hw g k
  cases k
  obtain ⟨hA, hB, hC, hw⟩ : lastUseOk h.luA none = true ∧ lastUseOk h.luB none = true
      ∧ lastUseOk h.luC none = true ∧ (RegClass.ok .base d) = true := wf_parts rfl hw
  obtain ⟨r, hr⟩ : ∃ r, raw (.call h d target reconv) h = r := ⟨_, rfl⟩
  have q0 := target.isLt
  have q1 := reconv.isLt
  have ed : r.d = d.code := by subst hr; rfl
  have ea : r.a = 0 := by subst hr; rfl
  have eb : r.b = target.toNat / 2 ^ 9 := by subst hr; rfl
  have ef : r.f = target.toNat % 2 ^ 6 * 2 ^ 14 + reconv.toNat := by subst hr; rfl
  have a := notMarked hA; have b := notMarked hB; have c := notMarked hC
  simp only [Bool.not_eq_true'] at a b c
  have e0 : h.lu = 0 := by simp only [Head.lu, a, b, c]; rfl
  have elu : r.lu = target.toNat / 2 ^ 6 % 2 ^ 3 := by
    subst hr; show target.toNat / 2 ^ 6 % 2 ^ 3 + h.lu = _; omega
  have et : BitVec.ofNat 14 (r.b * 2 ^ 9 + r.lu * 2 ^ 6 + r.f / 2 ^ 14) = target := by
    apply BitVec.eq_of_toNat_eq; simp only [eb, ef, elu, BitVec.toNat_ofNat]; omega
  have er : BitVec.ofNat 14 (r.f % 2 ^ 14) = reconv := by
    apply BitVec.eq_of_toNat_eq; simp only [ef, BitVec.toNat_ofNat]; omega
  have eb2 : decide (r.b < 32) = true := decide_eq_true (by omega)
  have fd := regField_code 0 hw
  refine ⟨⟨by show (raw _ h).f < _; rw [hr, ef]; omega, by show (raw _ h).lu < _; rw [hr, elu]; omega, by show (raw _ h).b < _; rw [hr, eb]; omega,
    (Nat.zero_lt_succ _), code_lt d⟩, branch_head_of (.inr rfl) a b c, ?_⟩
  show body 0x102 h (raw _ h) = _
  rw [hr]; clear hr
  unfold body bodyCtl
  simp only [ed, ea, et, er, eb2, fd, chk_of, someBind, beq_self_eq_true, ↓reduceIte, Nat.reduceLT]
  rfl

theorem callx (h : Head) (d : Reg) (a : Reg) (reconv : BitVec 12) : Statement (.callx h d a reconv) := by
  intro hw g k
  cases k
  obtain ⟨hA, hB, hC, hw⟩ : lastUseOk h.luA (some a) = true ∧ lastUseOk h.luB none = true
      ∧ lastUseOk h.luC none = true ∧ (RegClass.ok .base d && RegClass.ok .evenReg a) = true := wf_parts rfl hw
  simp only [Bool.and_eq_true] at hw
  obtain ⟨w0, w1⟩ := hw
  obtain ⟨r, hr⟩ : ∃ r, raw (.callx h d a reconv) h = r := ⟨_, rfl⟩
  have ef : r.f = glue [(12, reconv.toNat), (8, 0)] := by subst hr; rfl
  have q0 := reconv.isLt
  have ec : r.c = 0 := by simp only [Raw.c, ef, glue]; omega
  have em : cut [12] r.m = [reconv.toNat, 0] := by
    simp only [Raw.m, ef, glue, cut, List.cons.injEq]; refine ⟨?_, ?_, trivial⟩ <;> omega
  have ed : r.d = d.code := by subst hr; rfl
  have ea : r.a = a.code := by subst hr; rfl
  have eb : r.b = 0 := by subst hr; rfl
  have elu : r.lu = h.lu := by subst hr; exact Nat.zero_add _
  have hl : r.lastUseOk true false false = true :=
    lastUse_checked (h := h) elu
      (fun e => ⟨rfl, ea ▸ marked hA e⟩) (unmarked hB) (unmarked hC)
  have fd := regField_code 0 (w0)
  have fa := regField_code 1 (w1)
  refine ⟨⟨by show (raw _ h).f < _; rw [hr, ef]; simp only [glue]; omega, by show (raw _ h).lu < _; rw [hr, elu]; exact lu_lt h,
    (Nat.zero_lt_succ _), (code_lt a), (code_lt d)⟩, head_of (by rw [hr, elu])
    (show 0x103 ≠ 0x100 by decide) (show 0x103 ≠ 0x102 by decide), ?_⟩
  show body (0x103) h (raw _ h) = _
  rw [hr]; clear hr ef
  unfold body bodyCtl
  simp only [ec, ed, ea, eb, hl, chk_of, someBind, beq_self_eq_true, ↓reduceIte, Nat.reduceLT, BitVec.ofNat_toNat, BitVec.setWidth_eq, fd, fa, em]
  rfl

theorem ret (h : Head) (a : Reg) : Statement (.ret h a) := by
  intro hw g k
  cases k
  obtain ⟨hA, hB, hC, hw⟩ : lastUseOk h.luA (some a) = true ∧ lastUseOk h.luB none = true
      ∧ lastUseOk h.luC none = true ∧ (RegClass.ok .evenReg a) = true := wf_parts rfl hw
  have w0 := hw
  obtain ⟨r, hr⟩ : ∃ r, raw (.ret h a) h = r := ⟨_, rfl⟩
  have ef : r.f = glue [(12, 0), (8, 0)] := by subst hr; rfl
  have ec : r.c = 0 := by simp only [Raw.c, ef, glue]; omega
  have em : r.m = 0 := by simp only [Raw.m, ef, glue]; omega
  have ed : r.d = 0 := by subst hr; rfl
  have ea : r.a = a.code := by subst hr; rfl
  have eb : r.b = 0 := by subst hr; rfl
  have elu : r.lu = h.lu := by subst hr; exact Nat.zero_add _
  have hl : r.lastUseOk true false false = true :=
    lastUse_checked (h := h) elu
      (fun e => ⟨rfl, ea ▸ marked hA e⟩) (unmarked hB) (unmarked hC)
  have fa := regField_code 1 (w0)
  refine ⟨⟨by show (raw _ h).f < _; rw [hr, ef]; simp only [glue]; omega, by show (raw _ h).lu < _; rw [hr, elu]; exact lu_lt h,
    (Nat.zero_lt_succ _), (code_lt a), (Nat.zero_lt_succ _)⟩, head_of (by rw [hr, elu])
    (show 0x104 ≠ 0x100 by decide) (show 0x104 ≠ 0x102 by decide), ?_⟩
  show body (0x104) h (raw _ h) = _
  rw [hr]; clear hr ef
  unfold body bodyCtl
  simp only [ec, ed, ea, eb, hl, chk_of, someBind, beq_self_eq_true, ↓reduceIte, Nat.reduceLT, fa, em]
  rfl

theorem exit (h : Head) : Statement (.exit h) := by
  intro hw g k
  cases k
  obtain ⟨hA, hB, hC, hw⟩ : lastUseOk h.luA none = true ∧ lastUseOk h.luB none = true
      ∧ lastUseOk h.luC none = true ∧ (true) = true := wf_parts rfl hw
  clear hw
  obtain ⟨r, hr⟩ : ∃ r, raw (.exit h) h = r := ⟨_, rfl⟩
  have ef : r.f = glue [(12, 0), (8, 0)] := by subst hr; rfl
  have ec : r.c = 0 := by simp only [Raw.c, ef, glue]; omega
  have em : r.m = 0 := by simp only [Raw.m, ef, glue]; omega
  have ed : r.d = 0 := by subst hr; rfl
  have ea : r.a = 0 := by subst hr; rfl
  have eb : r.b = 0 := by subst hr; rfl
  have elu : r.lu = h.lu := by subst hr; exact Nat.zero_add _
  have hl : r.lastUseOk false false false = true :=
    lastUse_checked (h := h) elu
      (unmarked hA) (unmarked hB) (unmarked hC)
  refine ⟨⟨by show (raw _ h).f < _; rw [hr, ef]; simp only [glue]; omega, by show (raw _ h).lu < _; rw [hr, elu]; exact lu_lt h,
    (Nat.zero_lt_succ _), (Nat.zero_lt_succ _), (Nat.zero_lt_succ _)⟩, head_of (by rw [hr, elu])
    (show 0x105 ≠ 0x100 by decide) (show 0x105 ≠ 0x102 by decide), ?_⟩
  show body (0x105) h (raw _ h) = _
  rw [hr]; clear hr ef
  unfold body bodyCtl
  simp only [ec, ed, ea, eb, hl, chk_of, someBind, beq_self_eq_true, ↓reduceIte, Nat.reduceLT, em]

theorem rejoin (h : Head) : Statement (.rejoin h) := by
  intro hw g k
  cases k
  obtain ⟨hA, hB, hC, hw⟩ : lastUseOk h.luA none = true ∧ lastUseOk h.luB none = true
      ∧ lastUseOk h.luC none = true ∧ (true) = true := wf_parts rfl hw
  clear hw
  obtain ⟨r, hr⟩ : ∃ r, raw (.rejoin h) h = r := ⟨_, rfl⟩
  have ef : r.f = glue [(12, 0), (8, 0)] := by subst hr; rfl
  have ec : r.c = 0 := by simp only [Raw.c, ef, glue]; omega
  have em : r.m = 0 := by simp only [Raw.m, ef, glue]; omega
  have ed : r.d = 0 := by subst hr; rfl
  have ea : r.a = 0 := by subst hr; rfl
  have eb : r.b = 0 := by subst hr; rfl
  have elu : r.lu = h.lu := by subst hr; exact Nat.zero_add _
  have hl : r.lastUseOk false false false = true :=
    lastUse_checked (h := h) elu
      (unmarked hA) (unmarked hB) (unmarked hC)
  refine ⟨⟨by show (raw _ h).f < _; rw [hr, ef]; simp only [glue]; omega, by show (raw _ h).lu < _; rw [hr, elu]; exact lu_lt h,
    (Nat.zero_lt_succ _), (Nat.zero_lt_succ _), (Nat.zero_lt_succ _)⟩, head_of (by rw [hr, elu])
    (show 0x106 ≠ 0x100 by decide) (show 0x106 ≠ 0x102 by decide), ?_⟩
  show body (0x106) h (raw _ h) = _
  rw [hr]; clear hr ef
  unfold body bodyCtl
  simp only [ec, ed, ea, eb, hl, chk_of, someBind, beq_self_eq_true, ↓reduceIte, Nat.reduceLT, em]

theorem join (h : Head) (a : Reg) : Statement (.join h a) := by
  intro hw g k
  cases k
  obtain ⟨hA, hB, hC, hw⟩ : lastUseOk h.luA (some a) = true ∧ lastUseOk h.luB none = true
      ∧ lastUseOk h.luC none = true ∧ (true) = true := wf_parts rfl hw
  clear hw
  obtain ⟨r, hr⟩ : ∃ r, raw (.join h a) h = r := ⟨_, rfl⟩
  have ef : r.f = glue [(12, 0), (8, 0)] := by subst hr; rfl
  have ec : r.c = 0 := by simp only [Raw.c, ef, glue]; omega
  have em : r.m = 0 := by simp only [Raw.m, ef, glue]; omega
  have ed : r.d = 0 := by subst hr; rfl
  have ea : r.a = a.code := by subst hr; rfl
  have eb : r.b = 0 := by subst hr; rfl
  have elu : r.lu = h.lu := by subst hr; exact Nat.zero_add _
  have hl : r.lastUseOk true false false = true :=
    lastUse_checked (h := h) elu
      (fun e => ⟨rfl, ea ▸ marked hA e⟩) (unmarked hB) (unmarked hC)
  have fa := regField_code 1 (read_ok a)
  refine ⟨⟨by show (raw _ h).f < _; rw [hr, ef]; simp only [glue]; omega, by show (raw _ h).lu < _; rw [hr, elu]; exact lu_lt h,
    (Nat.zero_lt_succ _), (code_lt a), (Nat.zero_lt_succ _)⟩, head_of (by rw [hr, elu])
    (show 0x107 ≠ 0x100 by decide) (show 0x107 ≠ 0x102 by decide), ?_⟩
  show body (0x107) h (raw _ h) = _
  rw [hr]; clear hr ef
  unfold body bodyCtl
  simp only [ec, ed, ea, eb, hl, chk_of, someBind, beq_self_eq_true, ↓reduceIte, Nat.reduceLT, fa, em]
  rfl

theorem leave (h : Head) : Statement (.leave h) := by
  intro hw g k
  cases k
  obtain ⟨hA, hB, hC, hw⟩ : lastUseOk h.luA none = true ∧ lastUseOk h.luB none = true
      ∧ lastUseOk h.luC none = true ∧ (true) = true := wf_parts rfl hw
  clear hw
  obtain ⟨r, hr⟩ : ∃ r, raw (.leave h) h = r := ⟨_, rfl⟩
  have ef : r.f = glue [(12, 0), (8, 0)] := by subst hr; rfl
  have ec : r.c = 0 := by simp only [Raw.c, ef, glue]; omega
  have em : r.m = 0 := by simp only [Raw.m, ef, glue]; omega
  have ed : r.d = 0 := by subst hr; rfl
  have ea : r.a = 0 := by subst hr; rfl
  have eb : r.b = 0 := by subst hr; rfl
  have elu : r.lu = h.lu := by subst hr; exact Nat.zero_add _
  have hl : r.lastUseOk false false false = true :=
    lastUse_checked (h := h) elu
      (unmarked hA) (unmarked hB) (unmarked hC)
  refine ⟨⟨by show (raw _ h).f < _; rw [hr, ef]; simp only [glue]; omega, by show (raw _ h).lu < _; rw [hr, elu]; exact lu_lt h,
    (Nat.zero_lt_succ _), (Nat.zero_lt_succ _), (Nat.zero_lt_succ _)⟩, head_of (by rw [hr, elu])
    (show 0x108 ≠ 0x100 by decide) (show 0x108 ≠ 0x102 by decide), ?_⟩
  show body (0x108) h (raw _ h) = _
  rw [hr]; clear hr ef
  unfold body bodyCtl
  simp only [ec, ed, ea, eb, hl, chk_of, someBind, beq_self_eq_true, ↓reduceIte, Nat.reduceLT, em]

theorem nop (h : Head) : Statement (.nop h) := by
  intro hw g k
  cases k
  obtain ⟨hA, hB, hC, hw⟩ : lastUseOk h.luA none = true ∧ lastUseOk h.luB none = true
      ∧ lastUseOk h.luC none = true ∧ (true) = true := wf_parts rfl hw
  clear hw
  obtain ⟨r, hr⟩ : ∃ r, raw (.nop h) h = r := ⟨_, rfl⟩
  have ef : r.f = glue [(12, 0), (8, 0)] := by subst hr; rfl
  have ec : r.c = 0 := by simp only [Raw.c, ef, glue]; omega
  have em : r.m = 0 := by simp only [Raw.m, ef, glue]; omega
  have ed : r.d = 0 := by subst hr; rfl
  have ea : r.a = 0 := by subst hr; rfl
  have eb : r.b = 0 := by subst hr; rfl
  have elu : r.lu = h.lu := by subst hr; exact Nat.zero_add _
  have hl : r.lastUseOk false false false = true :=
    lastUse_checked (h := h) elu
      (unmarked hA) (unmarked hB) (unmarked hC)
  refine ⟨⟨by show (raw _ h).f < _; rw [hr, ef]; simp only [glue]; omega, by show (raw _ h).lu < _; rw [hr, elu]; exact lu_lt h,
    (Nat.zero_lt_succ _), (Nat.zero_lt_succ _), (Nat.zero_lt_succ _)⟩, head_of (by rw [hr, elu])
    (show 0x109 ≠ 0x100 by decide) (show 0x109 ≠ 0x102 by decide), ?_⟩
  show body (0x109) h (raw _ h) = _
  rw [hr]; clear hr ef
  unfold body bodyCtl
  simp only [ec, ed, ea, eb, hl, chk_of, someBind, beq_self_eq_true, ↓reduceIte, Nat.reduceLT, em]

theorem spawn (h : Head) (a : Reg) (b : Reg) (c : Reg) (pd : Pred) (n : Fin 9) : Statement (.spawn h a b c pd n) := by
  intro hw g k
  cases k
  obtain ⟨hA, hB, hC, hw⟩ : lastUseOk h.luA (some a) = true ∧ lastUseOk h.luB (if n == 0 then none else some b) = true
      ∧ lastUseOk h.luC (some c) = true ∧ (RegClass.ok .evenReg a && RegClass.ok (.run n.val) b && (n != 0 || b == .v 0)) = true := wf_parts rfl hw
  simp only [Bool.and_eq_true] at hw
  obtain ⟨⟨w0, w1⟩, w2⟩ := hw
  obtain ⟨r, hr⟩ : ∃ r, raw (.spawn h a b c pd n) h = r := ⟨_, rfl⟩
  have ef : r.f = glue [(3, pd.val), (4, n.val), (5, 0), (8, c.code)] := by subst hr; rfl
  have q0 := pd.isLt
  have q1 := n.isLt
  have ec : r.c = c.code := by simp only [Raw.c, ef, glue]; omega
  have em : cut [3, 4] r.m = [pd.val, n.val, 0] := by
    simp only [Raw.m, ef, glue, cut, List.cons.injEq]; refine ⟨?_, ?_, ?_, trivial⟩ <;> omega
  have ed : r.d = 0 := by subst hr; rfl
  have ea : r.a = a.code := by subst hr; rfl
  have eb : r.b = b.code := by subst hr; rfl
  have elu : r.lu = h.lu := by subst hr; exact Nat.zero_add _
  have x0 : (n != 0 || !r.luB) = true := by rw [luB_of elu]; unfold bne; cases q : n == 0 <;> rw [q] at hB <;> [rfl; exact notMarked hB]
  have hl : r.lastUseOk true true true = true :=
    lastUse_checked (h := h) elu
      (fun e => ⟨rfl, ea ▸ marked hA e⟩) (fun e => ⟨rfl, eb ▸ (by cases q : n == 0 <;> rw [q] at hB <;> [exact marked hB e; exact unmarked hB e])⟩) (fun e => ⟨rfl, ec ▸ marked hC e⟩)
  have fa := regField_code 1 (w0)
  have fb := regField_code 2 (w1)
  have fc := regField_code 3 (read_ok c)
  refine ⟨⟨by have qc := code_lt c; show (raw _ h).f < _; rw [hr, ef]; simp only [glue]; omega, by show (raw _ h).lu < _; rw [hr, elu]; exact lu_lt h,
    (code_lt b), (code_lt a), (Nat.zero_lt_succ _)⟩, head_of (by rw [hr, elu])
    (show 0x10a ≠ 0x100 by decide) (show 0x10a ≠ 0x102 by decide), ?_⟩
  show body (0x10a) h (raw _ h) = _
  rw [hr]; clear hr ef
  unfold body bodyCtl
  simp only [ec, ed, ea, eb, hl, chk_of, someBind, beq_self_eq_true, ↓reduceIte, Nat.reduceLT, finOfNat_val, finOf_val, fa, fb, fc, w2, x0, code_beq_zero, em]
  rfl

theorem launch (h : Head) (d : Reg) (a : Reg) (pd : Pred) : Statement (.launch h d a pd) := by
  intro hw g k
  cases k
  obtain ⟨hA, hB, hC, hw⟩ : lastUseOk h.luA (some a) = true ∧ lastUseOk h.luB none = true
      ∧ lastUseOk h.luC none = true ∧ (RegClass.ok .dest4 d && RegClass.ok .evenReg a) = true := wf_parts rfl hw
  simp only [Bool.and_eq_true] at hw
  obtain ⟨w0, w1⟩ := hw
  obtain ⟨r, hr⟩ : ∃ r, raw (.launch h d a pd) h = r := ⟨_, rfl⟩
  have ef : r.f = glue [(3, pd.val), (9, 0), (8, 0)] := by subst hr; rfl
  have q0 := pd.isLt
  have ec : r.c = 0 := by simp only [Raw.c, ef, glue]; omega
  have em : cut [3] r.m = [pd.val, 0] := by
    simp only [Raw.m, ef, glue, cut, List.cons.injEq]; refine ⟨?_, ?_, trivial⟩ <;> omega
  have ed : r.d = d.code := by subst hr; rfl
  have ea : r.a = a.code := by subst hr; rfl
  have eb : r.b = 0 := by subst hr; rfl
  have elu : r.lu = h.lu := by subst hr; exact Nat.zero_add _
  have hl : r.lastUseOk true false false = true :=
    lastUse_checked (h := h) elu
      (fun e => ⟨rfl, ea ▸ marked hA e⟩) (unmarked hB) (unmarked hC)
  have fd := regField_code 0 (w0)
  have fa := regField_code 1 (w1)
  refine ⟨⟨by show (raw _ h).f < _; rw [hr, ef]; simp only [glue]; omega, by show (raw _ h).lu < _; rw [hr, elu]; exact lu_lt h,
    (Nat.zero_lt_succ _), (code_lt a), (code_lt d)⟩, head_of (by rw [hr, elu])
    (show 0x10b ≠ 0x100 by decide) (show 0x10b ≠ 0x102 by decide), ?_⟩
  show body (0x10b) h (raw _ h) = _
  rw [hr]; clear hr ef
  unfold body bodyCtl
  simp only [ec, ed, ea, eb, hl, chk_of, someBind, beq_self_eq_true, ↓reduceIte, Nat.reduceLT, finOfNat_val, fd, fa, em]
  rfl

theorem lwait (h : Head) (d : Reg) (a : Reg) (pd : Pred) (test : Bool) : Statement (.lwait h d a pd test) := by
  intro hw g k
  cases k
  obtain ⟨hA, hB, hC, hw⟩ : lastUseOk h.luA (some a) = true ∧ lastUseOk h.luB none = true
      ∧ lastUseOk h.luC none = true ∧ (RegClass.ok .dest4 d) = true := wf_parts rfl hw
  have w0 := hw
  obtain ⟨r, hr⟩ : ∃ r, raw (.lwait h d a pd test) h = r := ⟨_, rfl⟩
  have ef : r.f = glue [(3, pd.val), (1, test.toNat), (8, 0), (8, 0)] := by subst hr; rfl
  have q0 := pd.isLt
  have q1 := toNat_lt test
  have ec : r.c = 0 := by simp only [Raw.c, ef, glue]; omega
  have em : cut [3, 1] r.m = [pd.val, test.toNat, 0] := by
    simp only [Raw.m, ef, glue, cut, List.cons.injEq]; refine ⟨?_, ?_, ?_, trivial⟩ <;> omega
  have ed : r.d = d.code := by subst hr; rfl
  have ea : r.a = a.code := by subst hr; rfl
  have eb : r.b = 0 := by subst hr; rfl
  have elu : r.lu = h.lu := by subst hr; exact Nat.zero_add _
  have hl : r.lastUseOk true false false = true :=
    lastUse_checked (h := h) elu
      (fun e => ⟨rfl, ea ▸ marked hA e⟩) (unmarked hB) (unmarked hC)
  have fd := regField_code 0 (w0)
  have fa := regField_code 1 (read_ok a)
  refine ⟨⟨by show (raw _ h).f < _; rw [hr, ef]; simp only [glue]; omega, by show (raw _ h).lu < _; rw [hr, elu]; exact lu_lt h,
    (Nat.zero_lt_succ _), (code_lt a), (code_lt d)⟩, head_of (by rw [hr, elu])
    (show 0x10c ≠ 0x100 by decide) (show 0x10c ≠ 0x102 by decide), ?_⟩
  show body (0x10c) h (raw _ h) = _
  rw [hr]; clear hr ef
  unfold body bodyCtl
  simp only [ec, ed, ea, eb, hl, chk_of, someBind, beq_self_eq_true, ↓reduceIte, Nat.reduceLT, finOfNat_val, toNat_beq_one, fd, fa, em]
  rfl

theorem kinit (h : Head) (a : Reg) (k : Fin 16) (dirMin : Bool) (f32 : Bool) : Statement (.kinit h a k dirMin f32) := by
  intro hw g k
  cases k
  obtain ⟨hA, hB, hC, hw⟩ : lastUseOk h.luA (some a) = true ∧ lastUseOk h.luB none = true
      ∧ lastUseOk h.luC none = true ∧ (RegClass.ok .pair a) = true := wf_parts rfl hw
  have w0 := hw
  obtain ⟨r, hr⟩ : ∃ r, raw (.kinit h a k dirMin f32) h = r := ⟨_, rfl⟩
  have ef : r.f = glue [(4, k.val), (1, dirMin.toNat), (1, f32.toNat), (6, 0), (8, 0)] := by subst hr; rfl
  have q0 := k.isLt
  have q1 := toNat_lt dirMin
  have q2 := toNat_lt f32
  have ec : r.c = 0 := by simp only [Raw.c, ef, glue]; omega
  have em : cut [4, 1, 1] r.m = [k.val, dirMin.toNat, f32.toNat, 0] := by
    simp only [Raw.m, ef, glue, cut, List.cons.injEq]; refine ⟨?_, ?_, ?_, ?_, trivial⟩ <;> omega
  have ed : r.d = 0 := by subst hr; rfl
  have ea : r.a = a.code := by subst hr; rfl
  have eb : r.b = 0 := by subst hr; rfl
  have elu : r.lu = h.lu := by subst hr; exact Nat.zero_add _
  have hl : r.lastUseOk true false false = true :=
    lastUse_checked (h := h) elu
      (fun e => ⟨rfl, ea ▸ marked hA e⟩) (unmarked hB) (unmarked hC)
  have fa := regField_code 1 (w0)
  refine ⟨⟨by show (raw _ h).f < _; rw [hr, ef]; simp only [glue]; omega, by show (raw _ h).lu < _; rw [hr, elu]; exact lu_lt h,
    (Nat.zero_lt_succ _), (code_lt a), (Nat.zero_lt_succ _)⟩, head_of (by rw [hr, elu])
    (show 0x10d ≠ 0x100 by decide) (show 0x10d ≠ 0x102 by decide), ?_⟩
  show body (0x10d) h (raw _ h) = _
  rw [hr]; clear hr ef
  unfold body bodyCtl
  simp only [ec, ed, ea, eb, hl, chk_of, someBind, beq_self_eq_true, ↓reduceIte, Nat.reduceLT, finOfNat_val, toNat_beq_one, fa, em]
  rfl

theorem kupd (h : Head) (f32 : Bool) (a : Reg) (b : Reg) (k : Fin 16) (rel : Bool) : Statement (.kupd h f32 a b k rel) := by
  intro hw g k
  cases k
  obtain ⟨hA, hB, hC, hw⟩ : lastUseOk h.luA (some a) = true ∧ lastUseOk h.luB (some b) = true
      ∧ lastUseOk h.luC none = true ∧ (true) = true := wf_parts rfl hw
  clear hw
  obtain ⟨r, hr⟩ : ∃ r, raw (.kupd h f32 a b k rel) h = r := ⟨_, rfl⟩
  have ef : r.f = glue [(4, k.val), (1, rel.toNat), (7, 0), (8, 0)] := by subst hr; rfl
  have q0 := k.isLt
  have q1 := toNat_lt rel
  have ec : r.c = 0 := by simp only [Raw.c, ef, glue]; omega
  have em : cut [4, 1] r.m = [k.val, rel.toNat, 0] := by
    simp only [Raw.m, ef, glue, cut, List.cons.injEq]; refine ⟨?_, ?_, ?_, trivial⟩ <;> omega
  have ed : r.d = 0 := by subst hr; rfl
  have ea : r.a = a.code := by subst hr; rfl
  have eb : r.b = b.code := by subst hr; rfl
  have elu : r.lu = h.lu := by subst hr; exact Nat.zero_add _
  have hl : r.lastUseOk true true false = true :=
    lastUse_checked (h := h) elu
      (fun e => ⟨rfl, ea ▸ marked hA e⟩) (fun e => ⟨rfl, eb ▸ marked hB e⟩) (unmarked hC)
  have fa := regField_code 1 (read_ok a)
  have fb := regField_code 2 (read_ok b)
  refine ⟨⟨by show (raw _ h).f < _; rw [hr, ef]; simp only [glue]; omega, by show (raw _ h).lu < _; rw [hr, elu]; exact lu_lt h,
    (code_lt b), (code_lt a), (Nat.zero_lt_succ _)⟩, head_of (by rw [hr, elu])
    (show 0x10e + f32.toNat ≠ 0x100 by cases f32 <;> decide) (show 0x10e + f32.toNat ≠ 0x102 by cases f32 <;> decide), ?_⟩
  show body (0x10e + f32.toNat) h (raw _ h) = _
  rw [hr]; clear hr ef
  cases f32 <;>
    (unfold body bodyCtl
     simp only [ec, ed, ea, eb, hl, chk_of, someBind, beq_self_eq_true, ↓reduceIte, Nat.reduceLT, Nat.reduceAdd, finOfNat_val, toNat_beq_one, fa, fb, Bool.toNat_true, Bool.toNat_false, Nat.reduceBEq, em]
     rfl)

theorem kread (h : Head) (d : Reg) (k : Fin 16) (acq : Bool) : Statement (.kread h d k acq) := by
  intro hw g k
  cases k
  obtain ⟨hA, hB, hC, hw⟩ : lastUseOk h.luA none = true ∧ lastUseOk h.luB none = true
      ∧ lastUseOk h.luC none = true ∧ (RegClass.ok .pair d) = true := wf_parts rfl hw
  have w0 := hw
  obtain ⟨r, hr⟩ : ∃ r, raw (.kread h d k acq) h = r := ⟨_, rfl⟩
  have ef : r.f = glue [(4, k.val), (1, acq.toNat), (7, 0), (8, 0)] := by subst hr; rfl
  have q0 := k.isLt
  have q1 := toNat_lt acq
  have ec : r.c = 0 := by simp only [Raw.c, ef, glue]; omega
  have em : cut [4, 1] r.m = [k.val, acq.toNat, 0] := by
    simp only [Raw.m, ef, glue, cut, List.cons.injEq]; refine ⟨?_, ?_, ?_, trivial⟩ <;> omega
  have ed : r.d = d.code := by subst hr; rfl
  have ea : r.a = 0 := by subst hr; rfl
  have eb : r.b = 0 := by subst hr; rfl
  have elu : r.lu = h.lu := by subst hr; exact Nat.zero_add _
  have hl : r.lastUseOk false false false = true :=
    lastUse_checked (h := h) elu
      (unmarked hA) (unmarked hB) (unmarked hC)
  have fd := regField_code 0 (w0)
  refine ⟨⟨by show (raw _ h).f < _; rw [hr, ef]; simp only [glue]; omega, by show (raw _ h).lu < _; rw [hr, elu]; exact lu_lt h,
    (Nat.zero_lt_succ _), (Nat.zero_lt_succ _), (code_lt d)⟩, head_of (by rw [hr, elu])
    (show 0x110 ≠ 0x100 by decide) (show 0x110 ≠ 0x102 by decide), ?_⟩
  show body (0x110) h (raw _ h) = _
  rw [hr]; clear hr ef
  unfold body bodyCtl
  simp only [ec, ed, ea, eb, hl, chk_of, someBind, beq_self_eq_true, ↓reduceIte, Nat.reduceLT, finOfNat_val, toNat_beq_one, fd, em]
  rfl

theorem check (h : Head) (d : Pred) (a : Reg) : Statement (.check h d a) := by
  intro hw g k
  cases k
  obtain ⟨hA, hB, hC, hw⟩ : lastUseOk h.luA (some a) = true ∧ lastUseOk h.luB none = true
      ∧ lastUseOk h.luC none = true ∧ (true) = true := wf_parts rfl hw
  clear hw
  obtain ⟨r, hr⟩ : ∃ r, raw (.check h d a) h = r := ⟨_, rfl⟩
  have ef : r.f = glue [(12, 0), (8, 0)] := by subst hr; rfl
  have ec : r.c = 0 := by simp only [Raw.c, ef, glue]; omega
  have em : r.m = 0 := by simp only [Raw.m, ef, glue]; omega
  have ed : r.d = d.val := by subst hr; rfl
  have ea : r.a = a.code := by subst hr; rfl
  have eb : r.b = 0 := by subst hr; rfl
  have elu : r.lu = h.lu := by subst hr; exact Nat.zero_add _
  have hl : r.lastUseOk true false false = true :=
    lastUse_checked (h := h) elu
      (fun e => ⟨rfl, ea ▸ marked hA e⟩) (unmarked hB) (unmarked hC)
  have fa := regField_code 1 (read_ok a)
  refine ⟨⟨by show (raw _ h).f < _; rw [hr, ef]; simp only [glue]; omega, by show (raw _ h).lu < _; rw [hr, elu]; exact lu_lt h,
    (Nat.zero_lt_succ _), (code_lt a), (pred_lt d)⟩, head_of (by rw [hr, elu])
    (show 0x111 ≠ 0x100 by decide) (show 0x111 ≠ 0x102 by decide), ?_⟩
  show body (0x111) h (raw _ h) = _
  rw [hr]; clear hr ef
  unfold body bodyCtl
  simp only [ec, ed, ea, eb, hl, chk_of, someBind, beq_self_eq_true, ↓reduceIte, Nat.reduceLT, predOf_val, fa, em]
  rfl

theorem abinit (h : Head) (a : Reg) (b : Reg) (c : Reg) : Statement (.abinit h a b c) := by
  intro hw g k
  cases k
  obtain ⟨hA, hB, hC, hw⟩ : lastUseOk h.luA (some a) = true ∧ lastUseOk h.luB (some b) = true
      ∧ lastUseOk h.luC (some c) = true ∧ (true) = true := wf_parts rfl hw
  clear hw
  obtain ⟨r, hr⟩ : ∃ r, raw (.abinit h a b c) h = r := ⟨_, rfl⟩
  have ef : r.f = glue [(12, 0), (8, c.code)] := by subst hr; rfl
  have ec : r.c = c.code := by simp only [Raw.c, ef, glue]; omega
  have em : r.m = 0 := by simp only [Raw.m, ef, glue]; omega
  have ed : r.d = 0 := by subst hr; rfl
  have ea : r.a = a.code := by subst hr; rfl
  have eb : r.b = b.code := by subst hr; rfl
  have elu : r.lu = h.lu := by subst hr; exact Nat.zero_add _
  have hl : r.lastUseOk true true true = true :=
    lastUse_checked (h := h) elu
      (fun e => ⟨rfl, ea ▸ marked hA e⟩) (fun e => ⟨rfl, eb ▸ marked hB e⟩) (fun e => ⟨rfl, ec ▸ marked hC e⟩)
  have fa := regField_code 1 (read_ok a)
  have fb := regField_code 2 (read_ok b)
  have fc := regField_code 3 (read_ok c)
  refine ⟨⟨by have qc := code_lt c; show (raw _ h).f < _; rw [hr, ef]; simp only [glue]; omega, by show (raw _ h).lu < _; rw [hr, elu]; exact lu_lt h,
    (code_lt b), (code_lt a), (Nat.zero_lt_succ _)⟩, head_of (by rw [hr, elu])
    (show 0x112 ≠ 0x100 by decide) (show 0x112 ≠ 0x102 by decide), ?_⟩
  show body (0x112) h (raw _ h) = _
  rw [hr]; clear hr ef
  unfold body bodyCtl
  simp only [ec, ed, ea, eb, hl, chk_of, someBind, beq_self_eq_true, ↓reduceIte, Nat.reduceLT, fa, fb, fc, em]
  rfl

theorem abarrive (h : Head) (d : Reg) (a : Reg) (b : Reg) : Statement (.abarrive h d a b) := by
  intro hw g k
  cases k
  obtain ⟨hA, hB, hC, hw⟩ : lastUseOk h.luA (some a) = true ∧ lastUseOk h.luB (some b) = true
      ∧ lastUseOk h.luC none = true ∧ (RegClass.ok .write d) = true := wf_parts rfl hw
  have w0 := hw
  obtain ⟨r, hr⟩ : ∃ r, raw (.abarrive h d a b) h = r := ⟨_, rfl⟩
  have ef : r.f = glue [(12, 0), (8, 0)] := by subst hr; rfl
  have ec : r.c = 0 := by simp only [Raw.c, ef, glue]; omega
  have em : r.m = 0 := by simp only [Raw.m, ef, glue]; omega
  have ed : r.d = d.code := by subst hr; rfl
  have ea : r.a = a.code := by subst hr; rfl
  have eb : r.b = b.code := by subst hr; rfl
  have elu : r.lu = h.lu := by subst hr; exact Nat.zero_add _
  have hl : r.lastUseOk true true false = true :=
    lastUse_checked (h := h) elu
      (fun e => ⟨rfl, ea ▸ marked hA e⟩) (fun e => ⟨rfl, eb ▸ marked hB e⟩) (unmarked hC)
  have fd := regField_code 0 (w0)
  have fa := regField_code 1 (read_ok a)
  have fb := regField_code 2 (read_ok b)
  refine ⟨⟨by show (raw _ h).f < _; rw [hr, ef]; simp only [glue]; omega, by show (raw _ h).lu < _; rw [hr, elu]; exact lu_lt h,
    (code_lt b), (code_lt a), (code_lt d)⟩, head_of (by rw [hr, elu])
    (show 0x113 ≠ 0x100 by decide) (show 0x113 ≠ 0x102 by decide), ?_⟩
  show body (0x113) h (raw _ h) = _
  rw [hr]; clear hr ef
  unfold body bodyCtl
  simp only [ec, ed, ea, eb, hl, chk_of, someBind, beq_self_eq_true, ↓reduceIte, Nat.reduceLT, fd, fa, fb, em]
  rfl

theorem abwait (h : Head) (a : Reg) (b : Reg) (gen : Bool) : Statement (.abwait h a b gen) := by
  intro hw g k
  cases k
  obtain ⟨hA, hB, hC, hw⟩ : lastUseOk h.luA (some a) = true ∧ lastUseOk h.luB (some b) = true
      ∧ lastUseOk h.luC none = true ∧ (true) = true := wf_parts rfl hw
  clear hw
  obtain ⟨r, hr⟩ : ∃ r, raw (.abwait h a b gen) h = r := ⟨_, rfl⟩
  have ef : r.f = glue [(1, gen.toNat), (11, 0), (8, 0)] := by subst hr; rfl
  have q0 := toNat_lt gen
  have ec : r.c = 0 := by simp only [Raw.c, ef, glue]; omega
  have em : cut [1] r.m = [gen.toNat, 0] := by
    simp only [Raw.m, ef, glue, cut, List.cons.injEq]; refine ⟨?_, ?_, trivial⟩ <;> omega
  have ed : r.d = 0 := by subst hr; rfl
  have ea : r.a = a.code := by subst hr; rfl
  have eb : r.b = b.code := by subst hr; rfl
  have elu : r.lu = h.lu := by subst hr; exact Nat.zero_add _
  have hl : r.lastUseOk true true false = true :=
    lastUse_checked (h := h) elu
      (fun e => ⟨rfl, ea ▸ marked hA e⟩) (fun e => ⟨rfl, eb ▸ marked hB e⟩) (unmarked hC)
  have fa := regField_code 1 (read_ok a)
  have fb := regField_code 2 (read_ok b)
  refine ⟨⟨by show (raw _ h).f < _; rw [hr, ef]; simp only [glue]; omega, by show (raw _ h).lu < _; rw [hr, elu]; exact lu_lt h,
    (code_lt b), (code_lt a), (Nat.zero_lt_succ _)⟩, head_of (by rw [hr, elu])
    (show 0x114 ≠ 0x100 by decide) (show 0x114 ≠ 0x102 by decide), ?_⟩
  show body (0x114) h (raw _ h) = _
  rw [hr]; clear hr ef
  unfold body bodyCtl
  simp only [ec, ed, ea, eb, hl, chk_of, someBind, beq_self_eq_true, ↓reduceIte, Nat.reduceLT, toNat_beq_one, fa, fb, em]
  rfl

theorem qinit (h : Head) (a : Reg) (b : Reg) (c : Reg) (q : Fin 8) : Statement (.qinit h a b c q) := by
  intro hw g k
  cases k
  obtain ⟨hA, hB, hC, hw⟩ : lastUseOk h.luA (some a) = true ∧ lastUseOk h.luB (some b) = true
      ∧ lastUseOk h.luC (some c) = true ∧ (true) = true := wf_parts rfl hw
  clear hw
  obtain ⟨r, hr⟩ : ∃ r, raw (.qinit h a b c q) h = r := ⟨_, rfl⟩
  have ef : r.f = glue [(3, q.val), (9, 0), (8, c.code)] := by subst hr; rfl
  have q0 := q.isLt
  have ec : r.c = c.code := by simp only [Raw.c, ef, glue]; omega
  have em : cut [3] r.m = [q.val, 0] := by
    simp only [Raw.m, ef, glue, cut, List.cons.injEq]; refine ⟨?_, ?_, trivial⟩ <;> omega
  have ed : r.d = 0 := by subst hr; rfl
  have ea : r.a = a.code := by subst hr; rfl
  have eb : r.b = b.code := by subst hr; rfl
  have elu : r.lu = h.lu := by subst hr; exact Nat.zero_add _
  have hl : r.lastUseOk true true true = true :=
    lastUse_checked (h := h) elu
      (fun e => ⟨rfl, ea ▸ marked hA e⟩) (fun e => ⟨rfl, eb ▸ marked hB e⟩) (fun e => ⟨rfl, ec ▸ marked hC e⟩)
  have fa := regField_code 1 (read_ok a)
  have fb := regField_code 2 (read_ok b)
  have fc := regField_code 3 (read_ok c)
  refine ⟨⟨by have qc := code_lt c; show (raw _ h).f < _; rw [hr, ef]; simp only [glue]; omega, by show (raw _ h).lu < _; rw [hr, elu]; exact lu_lt h,
    (code_lt b), (code_lt a), (Nat.zero_lt_succ _)⟩, head_of (by rw [hr, elu])
    (show 0x115 ≠ 0x100 by decide) (show 0x115 ≠ 0x102 by decide), ?_⟩
  show body (0x115) h (raw _ h) = _
  rw [hr]; clear hr ef
  unfold body bodyCtl
  simp only [ec, ed, ea, eb, hl, chk_of, someBind, beq_self_eq_true, ↓reduceIte, Nat.reduceLT, finOfNat_val, fa, fb, fc, em]
  rfl

theorem qacqFree (h : Head) (d : Reg) (q : Fin 8) : Statement (.qacqFree h d q) := by
  intro hw g k
  cases k
  obtain ⟨hA, hB, hC, hw⟩ : lastUseOk h.luA none = true ∧ lastUseOk h.luB none = true
      ∧ lastUseOk h.luC none = true ∧ (RegClass.ok .write d) = true := wf_parts rfl hw
  obtain ⟨r, hr⟩ : ∃ r, raw (.qacqFree h d q) h = r := ⟨_, rfl⟩
  have q0 := q.isLt
  have ef : r.f = glue [(3, q.val), (1, 0), (8, 0), (8, 0)] := by subst hr; rfl
  have ed : r.d = d.code := by subst hr; rfl
  have ea : r.a = 0 := by subst hr; rfl
  have eb : r.b = 0 := by subst hr; rfl
  have elu : r.lu = h.lu := by subst hr; exact Nat.zero_add _
  have hl : r.lastUseOk false false false = true :=
    lastUse_checked (h := h) elu (unmarked hA) (unmarked hB) (unmarked hC)
  have ec : r.c = 0 := by simp only [Raw.c, ef, glue]; omega
  have em : cut [3, 1] r.m = [q.val, 0, 0] := by
    simp only [Raw.m, ef, glue, cut, List.cons.injEq]; refine ⟨?_, ?_, ?_, trivial⟩ <;> omega
  have fd := regField_code 0 hw
  refine ⟨⟨by show (raw _ h).f < _; rw [hr, ef]; (try simp only [glue]); omega, by show (raw _ h).lu < _; rw [hr, elu]; exact lu_lt h,
    (Nat.zero_lt_succ _), (Nat.zero_lt_succ _), (code_lt d)⟩, head_of (by rw [hr, elu]) (show 0x116 ≠ 0x100 by decide) (show 0x116 ≠ 0x102 by decide), ?_⟩
  show body 0x116 h (raw _ h) = _
  rw [hr]; clear hr
  unfold body bodyCtl
  simp only [ed, ea, eb, hl, chk_of, someBind, beq_self_eq_true, ↓reduceIte, Nat.reduceLT, ec, em, fd, finOfNat_val]
  rfl

theorem qacqFull (h : Head) (d : Reg) (q : Fin 8) : Statement (.qacqFull h d q) := by
  intro hw g k
  cases k
  obtain ⟨hA, hB, hC, hw⟩ : lastUseOk h.luA none = true ∧ lastUseOk h.luB none = true
      ∧ lastUseOk h.luC none = true ∧ (RegClass.ok .write d) = true := wf_parts rfl hw
  obtain ⟨r, hr⟩ : ∃ r, raw (.qacqFull h d q) h = r := ⟨_, rfl⟩
  have q0 := q.isLt
  have ef : r.f = glue [(3, q.val), (1, 1), (8, 0), (8, 0)] := by subst hr; rfl
  have ed : r.d = d.code := by subst hr; rfl
  have ea : r.a = 0 := by subst hr; rfl
  have eb : r.b = 0 := by subst hr; rfl
  have elu : r.lu = h.lu := by subst hr; exact Nat.zero_add _
  have hl : r.lastUseOk false false false = true :=
    lastUse_checked (h := h) elu (unmarked hA) (unmarked hB) (unmarked hC)
  have ec : r.c = 0 := by simp only [Raw.c, ef, glue]; omega
  have em : cut [3, 1] r.m = [q.val, 1, 0] := by
    simp only [Raw.m, ef, glue, cut, List.cons.injEq]; refine ⟨?_, ?_, ?_, trivial⟩ <;> omega
  have fd := regField_code 0 hw
  refine ⟨⟨by show (raw _ h).f < _; rw [hr, ef]; (try simp only [glue]); omega, by show (raw _ h).lu < _; rw [hr, elu]; exact lu_lt h,
    (Nat.zero_lt_succ _), (Nat.zero_lt_succ _), (code_lt d)⟩, head_of (by rw [hr, elu]) (show 0x116 ≠ 0x100 by decide) (show 0x116 ≠ 0x102 by decide), ?_⟩
  show body 0x116 h (raw _ h) = _
  rw [hr]; clear hr
  unfold body bodyCtl
  simp only [ed, ea, eb, hl, chk_of, someBind, beq_self_eq_true, ↓reduceIte, Nat.reduceLT, Nat.reduceBEq, Bool.false_eq_true, ec, em, fd, finOfNat_val]
  rfl

theorem qrelFull (h : Head) (q : Fin 8) : Statement (.qrelFull h q) := by
  intro hw g k
  cases k
  obtain ⟨hA, hB, hC, hw⟩ : lastUseOk h.luA none = true ∧ lastUseOk h.luB none = true
      ∧ lastUseOk h.luC none = true ∧ (true) = true := wf_parts rfl hw
  obtain ⟨r, hr⟩ : ∃ r, raw (.qrelFull h q) h = r := ⟨_, rfl⟩
  have q0 := q.isLt
  have ef : r.f = glue [(3, q.val), (1, 0), (8, 0), (8, 0)] := by subst hr; rfl
  have ed : r.d = 0 := by subst hr; rfl
  have ea : r.a = 0 := by subst hr; rfl
  have eb : r.b = 0 := by subst hr; rfl
  have elu : r.lu = h.lu := by subst hr; exact Nat.zero_add _
  have hl : r.lastUseOk false false false = true :=
    lastUse_checked (h := h) elu (unmarked hA) (unmarked hB) (unmarked hC)
  have ec : r.c = 0 := by simp only [Raw.c, ef, glue]; omega
  have em : cut [3, 1] r.m = [q.val, 0, 0] := by
    simp only [Raw.m, ef, glue, cut, List.cons.injEq]; refine ⟨?_, ?_, ?_, trivial⟩ <;> omega
  refine ⟨⟨by show (raw _ h).f < _; rw [hr, ef]; (try simp only [glue]); omega, by show (raw _ h).lu < _; rw [hr, elu]; exact lu_lt h,
    (Nat.zero_lt_succ _), (Nat.zero_lt_succ _), (Nat.zero_lt_succ _)⟩, head_of (by rw [hr, elu]) (show 0x117 ≠ 0x100 by decide) (show 0x117 ≠ 0x102 by decide), ?_⟩
  show body 0x117 h (raw _ h) = _
  rw [hr]; clear hr
  unfold body bodyCtl
  simp only [ed, ea, eb, hl, chk_of, someBind, beq_self_eq_true, ↓reduceIte, Nat.reduceLT, ec, em, finOfNat_val]

theorem qrelFree (h : Head) (q : Fin 8) : Statement (.qrelFree h q) := by
  intro hw g k
  cases k
  obtain ⟨hA, hB, hC, hw⟩ : lastUseOk h.luA none = true ∧ lastUseOk h.luB none = true
      ∧ lastUseOk h.luC none = true ∧ (true) = true := wf_parts rfl hw
  obtain ⟨r, hr⟩ : ∃ r, raw (.qrelFree h q) h = r := ⟨_, rfl⟩
  have q0 := q.isLt
  have ef : r.f = glue [(3, q.val), (1, 1), (8, 0), (8, 0)] := by subst hr; rfl
  have ed : r.d = 0 := by subst hr; rfl
  have ea : r.a = 0 := by subst hr; rfl
  have eb : r.b = 0 := by subst hr; rfl
  have elu : r.lu = h.lu := by subst hr; exact Nat.zero_add _
  have hl : r.lastUseOk false false false = true :=
    lastUse_checked (h := h) elu (unmarked hA) (unmarked hB) (unmarked hC)
  have ec : r.c = 0 := by simp only [Raw.c, ef, glue]; omega
  have em : cut [3, 1] r.m = [q.val, 1, 0] := by
    simp only [Raw.m, ef, glue, cut, List.cons.injEq]; refine ⟨?_, ?_, ?_, trivial⟩ <;> omega
  refine ⟨⟨by show (raw _ h).f < _; rw [hr, ef]; (try simp only [glue]); omega, by show (raw _ h).lu < _; rw [hr, elu]; exact lu_lt h,
    (Nat.zero_lt_succ _), (Nat.zero_lt_succ _), (Nat.zero_lt_succ _)⟩, head_of (by rw [hr, elu]) (show 0x117 ≠ 0x100 by decide) (show 0x117 ≠ 0x102 by decide), ?_⟩
  show body 0x117 h (raw _ h) = _
  rw [hr]; clear hr
  unfold body bodyCtl
  simp only [ed, ea, eb, hl, chk_of, someBind, beq_self_eq_true, ↓reduceIte, Nat.reduceLT, Nat.reduceBEq, Bool.false_eq_true, ec, em, finOfNat_val]

theorem trap (h : Head) (a : Reg) (code : BitVec 12) : Statement (.trap h a code) := by
  intro hw g k
  cases k
  obtain ⟨hA, hB, hC, hw⟩ : lastUseOk h.luA (some a) = true ∧ lastUseOk h.luB none = true
      ∧ lastUseOk h.luC none = true ∧ (true) = true := wf_parts rfl hw
  clear hw
  obtain ⟨r, hr⟩ : ∃ r, raw (.trap h a code) h = r := ⟨_, rfl⟩
  have ef : r.f = glue [(12, code.toNat), (8, 0)] := by subst hr; rfl
  have q0 := code.isLt
  have ec : r.c = 0 := by simp only [Raw.c, ef, glue]; omega
  have em : cut [12] r.m = [code.toNat, 0] := by
    simp only [Raw.m, ef, glue, cut, List.cons.injEq]; refine ⟨?_, ?_, trivial⟩ <;> omega
  have ed : r.d = 0 := by subst hr; rfl
  have ea : r.a = a.code := by subst hr; rfl
  have eb : r.b = 0 := by subst hr; rfl
  have elu : r.lu = h.lu := by subst hr; exact Nat.zero_add _
  have hl : r.lastUseOk true false false = true :=
    lastUse_checked (h := h) elu
      (fun e => ⟨rfl, ea ▸ marked hA e⟩) (unmarked hB) (unmarked hC)
  have fa := regField_code 1 (read_ok a)
  refine ⟨⟨by show (raw _ h).f < _; rw [hr, ef]; simp only [glue]; omega, by show (raw _ h).lu < _; rw [hr, elu]; exact lu_lt h,
    (Nat.zero_lt_succ _), (code_lt a), (Nat.zero_lt_succ _)⟩, head_of (by rw [hr, elu])
    (show 0x118 ≠ 0x100 by decide) (show 0x118 ≠ 0x102 by decide), ?_⟩
  show body (0x118) h (raw _ h) = _
  rw [hr]; clear hr ef
  unfold body bodyCtl
  simp only [ec, ed, ea, eb, hl, chk_of, someBind, beq_self_eq_true, ↓reduceIte, Nat.reduceLT, BitVec.ofNat_toNat, BitVec.setWidth_eq, fa, em]
  rfl

theorem tret (h : Head) : Statement (.tret h) := by
  intro hw g k
  cases k
  obtain ⟨hA, hB, hC, hw⟩ : lastUseOk h.luA none = true ∧ lastUseOk h.luB none = true
      ∧ lastUseOk h.luC none = true ∧ (true) = true := wf_parts rfl hw
  clear hw
  obtain ⟨r, hr⟩ : ∃ r, raw (.tret h) h = r := ⟨_, rfl⟩
  have ef : r.f = glue [(12, 0), (8, 0)] := by subst hr; rfl
  have ec : r.c = 0 := by simp only [Raw.c, ef, glue]; omega
  have em : r.m = 0 := by simp only [Raw.m, ef, glue]; omega
  have ed : r.d = 0 := by subst hr; rfl
  have ea : r.a = 0 := by subst hr; rfl
  have eb : r.b = 0 := by subst hr; rfl
  have elu : r.lu = h.lu := by subst hr; exact Nat.zero_add _
  have hl : r.lastUseOk false false false = true :=
    lastUse_checked (h := h) elu
      (unmarked hA) (unmarked hB) (unmarked hC)
  refine ⟨⟨by show (raw _ h).f < _; rw [hr, ef]; simp only [glue]; omega, by show (raw _ h).lu < _; rw [hr, elu]; exact lu_lt h,
    (Nat.zero_lt_succ _), (Nat.zero_lt_succ _), (Nat.zero_lt_succ _)⟩, head_of (by rw [hr, elu])
    (show 0x119 ≠ 0x100 by decide) (show 0x119 ≠ 0x102 by decide), ?_⟩
  show body (0x119) h (raw _ h) = _
  rw [hr]; clear hr ef
  unfold body bodyCtl
  simp only [ec, ed, ea, eb, hl, chk_of, someBind, beq_self_eq_true, ↓reduceIte, Nat.reduceLT, em]

theorem getsr (h : Head) (d : Reg) (sr : BitVec 12) : Statement (.getsr h d sr) := by
  intro hw g k
  cases k
  obtain ⟨hA, hB, hC, hw⟩ : lastUseOk h.luA none = true ∧ lastUseOk h.luB none = true
      ∧ lastUseOk h.luC none = true ∧ (RegClass.ok .write d && srKnown sr.toNat) = true := wf_parts rfl hw
  simp only [Bool.and_eq_true] at hw
  obtain ⟨w0, w1⟩ := hw
  obtain ⟨r, hr⟩ : ∃ r, raw (.getsr h d sr) h = r := ⟨_, rfl⟩
  have ef : r.f = glue [(12, sr.toNat), (8, 0)] := by subst hr; rfl
  have q0 := sr.isLt
  have ec : r.c = 0 := by simp only [Raw.c, ef, glue]; omega
  have em : cut [12] r.m = [sr.toNat, 0] := by
    simp only [Raw.m, ef, glue, cut, List.cons.injEq]; refine ⟨?_, ?_, trivial⟩ <;> omega
  have ed : r.d = d.code := by subst hr; rfl
  have ea : r.a = 0 := by subst hr; rfl
  have eb : r.b = 0 := by subst hr; rfl
  have elu : r.lu = h.lu := by subst hr; exact Nat.zero_add _
  have hl : r.lastUseOk false false false = true :=
    lastUse_checked (h := h) elu
      (unmarked hA) (unmarked hB) (unmarked hC)
  have fd := regField_code 0 (w0)
  have fs := srField_ok w1
  refine ⟨⟨by show (raw _ h).f < _; rw [hr, ef]; simp only [glue]; omega, by show (raw _ h).lu < _; rw [hr, elu]; exact lu_lt h,
    (Nat.zero_lt_succ _), (Nat.zero_lt_succ _), (code_lt d)⟩, head_of (by rw [hr, elu])
    (show 0x11a ≠ 0x100 by decide) (show 0x11a ≠ 0x102 by decide), ?_⟩
  show body (0x11a) h (raw _ h) = _
  rw [hr]; clear hr ef
  unfold body bodyCtl
  simp only [ec, ed, ea, eb, hl, chk_of, someBind, beq_self_eq_true, ↓reduceIte, Nat.reduceLT, BitVec.ofNat_toNat, BitVec.setWidth_eq, fd, fs, okBind, em]
  rfl

theorem setsr (h : Head) (a : Reg) (sr : BitVec 12) : Statement (.setsr h a sr) := by
  intro hw g k
  cases k
  obtain ⟨hA, hB, hC, hw⟩ : lastUseOk h.luA (some a) = true ∧ lastUseOk h.luB none = true
      ∧ lastUseOk h.luC none = true ∧ (srKnown sr.toNat) = true := wf_parts rfl hw
  have w0 := hw
  obtain ⟨r, hr⟩ : ∃ r, raw (.setsr h a sr) h = r := ⟨_, rfl⟩
  have ef : r.f = glue [(12, sr.toNat), (8, 0)] := by subst hr; rfl
  have q0 := sr.isLt
  have ec : r.c = 0 := by simp only [Raw.c, ef, glue]; omega
  have em : cut [12] r.m = [sr.toNat, 0] := by
    simp only [Raw.m, ef, glue, cut, List.cons.injEq]; refine ⟨?_, ?_, trivial⟩ <;> omega
  have ed : r.d = 0 := by subst hr; rfl
  have ea : r.a = a.code := by subst hr; rfl
  have eb : r.b = 0 := by subst hr; rfl
  have elu : r.lu = h.lu := by subst hr; exact Nat.zero_add _
  have hl : r.lastUseOk true false false = true :=
    lastUse_checked (h := h) elu
      (fun e => ⟨rfl, ea ▸ marked hA e⟩) (unmarked hB) (unmarked hC)
  have fa := regField_code 1 (read_ok a)
  have fs := srField_ok w0
  refine ⟨⟨by show (raw _ h).f < _; rw [hr, ef]; simp only [glue]; omega, by show (raw _ h).lu < _; rw [hr, elu]; exact lu_lt h,
    (Nat.zero_lt_succ _), (code_lt a), (Nat.zero_lt_succ _)⟩, head_of (by rw [hr, elu])
    (show 0x11b ≠ 0x100 by decide) (show 0x11b ≠ 0x102 by decide), ?_⟩
  show body (0x11b) h (raw _ h) = _
  rw [hr]; clear hr ef
  unfold body bodyCtl
  simp only [ec, ed, ea, eb, hl, chk_of, someBind, beq_self_eq_true, ↓reduceIte, Nat.reduceLT, BitVec.ofNat_toNat, BitVec.setWidth_eq, fa, fs, okBind, em]
  rfl

theorem yield (h : Head) (a : Reg) : Statement (.yield h a) := by
  intro hw g k
  cases k
  obtain ⟨hA, hB, hC, hw⟩ : lastUseOk h.luA (some a) = true ∧ lastUseOk h.luB none = true
      ∧ lastUseOk h.luC none = true ∧ (true) = true := wf_parts rfl hw
  clear hw
  obtain ⟨r, hr⟩ : ∃ r, raw (.yield h a) h = r := ⟨_, rfl⟩
  have ef : r.f = glue [(12, 0), (8, 0)] := by subst hr; rfl
  have ec : r.c = 0 := by simp only [Raw.c, ef, glue]; omega
  have em : r.m = 0 := by simp only [Raw.m, ef, glue]; omega
  have ed : r.d = 0 := by subst hr; rfl
  have ea : r.a = a.code := by subst hr; rfl
  have eb : r.b = 0 := by subst hr; rfl
  have elu : r.lu = h.lu := by subst hr; exact Nat.zero_add _
  have hl : r.lastUseOk true false false = true :=
    lastUse_checked (h := h) elu
      (fun e => ⟨rfl, ea ▸ marked hA e⟩) (unmarked hB) (unmarked hC)
  have fa := regField_code 1 (read_ok a)
  refine ⟨⟨by show (raw _ h).f < _; rw [hr, ef]; simp only [glue]; omega, by show (raw _ h).lu < _; rw [hr, elu]; exact lu_lt h,
    (Nat.zero_lt_succ _), (code_lt a), (Nat.zero_lt_succ _)⟩, head_of (by rw [hr, elu])
    (show 0x11c ≠ 0x100 by decide) (show 0x11c ≠ 0x102 by decide), ?_⟩
  show body (0x11c) h (raw _ h) = _
  rw [hr]; clear hr ef
  unfold body bodyCtl
  simp only [ec, ed, ea, eb, hl, chk_of, someBind, beq_self_eq_true, ↓reduceIte, Nat.reduceLT, fa, em]
  rfl

theorem prio (h : Head) (a : Reg) : Statement (.prio h a) := by
  intro hw g k
  cases k
  obtain ⟨hA, hB, hC, hw⟩ : lastUseOk h.luA (some a) = true ∧ lastUseOk h.luB none = true
      ∧ lastUseOk h.luC none = true ∧ (true) = true := wf_parts rfl hw
  clear hw
  obtain ⟨r, hr⟩ : ∃ r, raw (.prio h a) h = r := ⟨_, rfl⟩
  have ef : r.f = glue [(12, 0), (8, 0)] := by subst hr; rfl
  have ec : r.c = 0 := by simp only [Raw.c, ef, glue]; omega
  have em : r.m = 0 := by simp only [Raw.m, ef, glue]; omega
  have ed : r.d = 0 := by subst hr; rfl
  have ea : r.a = a.code := by subst hr; rfl
  have eb : r.b = 0 := by subst hr; rfl
  have elu : r.lu = h.lu := by subst hr; exact Nat.zero_add _
  have hl : r.lastUseOk true false false = true :=
    lastUse_checked (h := h) elu
      (fun e => ⟨rfl, ea ▸ marked hA e⟩) (unmarked hB) (unmarked hC)
  have fa := regField_code 1 (read_ok a)
  refine ⟨⟨by show (raw _ h).f < _; rw [hr, ef]; simp only [glue]; omega, by show (raw _ h).lu < _; rw [hr, elu]; exact lu_lt h,
    (Nat.zero_lt_succ _), (code_lt a), (Nat.zero_lt_succ _)⟩, head_of (by rw [hr, elu])
    (show 0x11d ≠ 0x100 by decide) (show 0x11d ≠ 0x102 by decide), ?_⟩
  show body (0x11d) h (raw _ h) = _
  rw [hr]; clear hr ef
  unfold body bodyCtl
  simp only [ec, ed, ea, eb, hl, chk_of, someBind, beq_self_eq_true, ↓reduceIte, Nat.reduceLT, fa, em]
  rfl

theorem poolset (h : Head) (d : Reg) (a : Reg) : Statement (.poolset h d a) := by
  intro hw g k
  cases k
  obtain ⟨hA, hB, hC, hw⟩ : lastUseOk h.luA (some a) = true ∧ lastUseOk h.luB none = true
      ∧ lastUseOk h.luC none = true ∧ (RegClass.ok .dest4 d) = true := wf_parts rfl hw
  have w0 := hw
  obtain ⟨r, hr⟩ : ∃ r, raw (.poolset h d a) h = r := ⟨_, rfl⟩
  have ef : r.f = glue [(12, 0), (8, 0)] := by subst hr; rfl
  have ec : r.c = 0 := by simp only [Raw.c, ef, glue]; omega
  have em : r.m = 0 := by simp only [Raw.m, ef, glue]; omega
  have ed : r.d = d.code := by subst hr; rfl
  have ea : r.a = a.code := by subst hr; rfl
  have eb : r.b = 0 := by subst hr; rfl
  have elu : r.lu = h.lu := by subst hr; exact Nat.zero_add _
  have hl : r.lastUseOk true false false = true :=
    lastUse_checked (h := h) elu
      (fun e => ⟨rfl, ea ▸ marked hA e⟩) (unmarked hB) (unmarked hC)
  have fd := regField_code 0 (w0)
  have fa := regField_code 1 (read_ok a)
  refine ⟨⟨by show (raw _ h).f < _; rw [hr, ef]; simp only [glue]; omega, by show (raw _ h).lu < _; rw [hr, elu]; exact lu_lt h,
    (Nat.zero_lt_succ _), (code_lt a), (code_lt d)⟩, head_of (by rw [hr, elu])
    (show 0x140 ≠ 0x100 by decide) (show 0x140 ≠ 0x102 by decide), ?_⟩
  show body (0x140) h (raw _ h) = _
  rw [hr]; clear hr ef
  unfold body bodyEng
  simp only [ec, ed, ea, eb, hl, chk_of, someBind, beq_self_eq_true, ↓reduceIte, Nat.reduceLT, fd, fa, em]
  rfl

theorem poolq (h : Head) (d : Reg) (n : Fin 32) : Statement (.poolq h d n) := by
  intro hw g k
  cases k
  obtain ⟨hA, hB, hC, hw⟩ : lastUseOk h.luA none = true ∧ lastUseOk h.luB none = true
      ∧ lastUseOk h.luC none = true ∧ (RegClass.ok .write d) = true := wf_parts rfl hw
  have w0 := hw
  obtain ⟨r, hr⟩ : ∃ r, raw (.poolq h d n) h = r := ⟨_, rfl⟩
  have ef : r.f = glue [(5, n.val), (7, 0), (8, 0)] := by subst hr; rfl
  have q0 := n.isLt
  have ec : r.c = 0 := by simp only [Raw.c, ef, glue]; omega
  have em : cut [5] r.m = [n.val, 0] := by
    simp only [Raw.m, ef, glue, cut, List.cons.injEq]; refine ⟨?_, ?_, trivial⟩ <;> omega
  have ed : r.d = d.code := by subst hr; rfl
  have ea : r.a = 0 := by subst hr; rfl
  have eb : r.b = 0 := by subst hr; rfl
  have elu : r.lu = h.lu := by subst hr; exact Nat.zero_add _
  have hl : r.lastUseOk false false false = true :=
    lastUse_checked (h := h) elu
      (unmarked hA) (unmarked hB) (unmarked hC)
  have fd := regField_code 0 (w0)
  refine ⟨⟨by show (raw _ h).f < _; rw [hr, ef]; simp only [glue]; omega, by show (raw _ h).lu < _; rw [hr, elu]; exact lu_lt h,
    (Nat.zero_lt_succ _), (Nat.zero_lt_succ _), (code_lt d)⟩, head_of (by rw [hr, elu])
    (show 0x141 ≠ 0x100 by decide) (show 0x141 ≠ 0x102 by decide), ?_⟩
  show body (0x141) h (raw _ h) = _
  rw [hr]; clear hr ef
  unfold body bodyEng
  simp only [ec, ed, ea, eb, hl, chk_of, someBind, beq_self_eq_true, ↓reduceIte, Nat.reduceLT, finOfNat_val, fd, em]
  rfl

theorem talloc (h : Head) (m : Tile) : Statement (.talloc h m) := by
  intro hw g k
  cases k
  obtain ⟨hA, hB, hC, hw⟩ : lastUseOk h.luA none = true ∧ lastUseOk h.luB none = true
      ∧ lastUseOk h.luC none = true ∧ (true) = true := wf_parts rfl hw
  clear hw
  obtain ⟨r, hr⟩ : ∃ r, raw (.talloc h m) h = r := ⟨_, rfl⟩
  have ef : r.f = glue [(12, 0), (8, 0)] := by subst hr; rfl
  have ec : r.c = 0 := by simp only [Raw.c, ef, glue]; omega
  have em : r.m = 0 := by simp only [Raw.m, ef, glue]; omega
  have ed : r.d = m.val := by subst hr; rfl
  have ea : r.a = 0 := by subst hr; rfl
  have eb : r.b = 0 := by subst hr; rfl
  have elu : r.lu = h.lu := by subst hr; exact Nat.zero_add _
  have hl : r.lastUseOk false false false = true :=
    lastUse_checked (h := h) elu
      (unmarked hA) (unmarked hB) (unmarked hC)
  refine ⟨⟨by show (raw _ h).f < _; rw [hr, ef]; simp only [glue]; omega, by show (raw _ h).lu < _; rw [hr, elu]; exact lu_lt h,
    (Nat.zero_lt_succ _), (Nat.zero_lt_succ _), (tile_lt m)⟩, head_of (by rw [hr, elu])
    (show 0x144 ≠ 0x100 by decide) (show 0x144 ≠ 0x102 by decide), ?_⟩
  show body (0x144) h (raw _ h) = _
  rw [hr]; clear hr ef
  unfold body bodyEng
  simp only [ec, ed, ea, eb, hl, chk_of, someBind, beq_self_eq_true, ↓reduceIte, Nat.reduceLT, tileField_val, em]
  rfl

theorem tfree (h : Head) (m : Tile) : Statement (.tfree h m) := by
  intro hw g k
  cases k
  obtain ⟨hA, hB, hC, hw⟩ : lastUseOk h.luA none = true ∧ lastUseOk h.luB none = true
      ∧ lastUseOk h.luC none = true ∧ (true) = true := wf_parts rfl hw
  clear hw
  obtain ⟨r, hr⟩ : ∃ r, raw (.tfree h m) h = r := ⟨_, rfl⟩
  have ef : r.f = glue [(12, 0), (8, 0)] := by subst hr; rfl
  have ec : r.c = 0 := by simp only [Raw.c, ef, glue]; omega
  have em : r.m = 0 := by simp only [Raw.m, ef, glue]; omega
  have ed : r.d = m.val := by subst hr; rfl
  have ea : r.a = 0 := by subst hr; rfl
  have eb : r.b = 0 := by subst hr; rfl
  have elu : r.lu = h.lu := by subst hr; exact Nat.zero_add _
  have hl : r.lastUseOk false false false = true :=
    lastUse_checked (h := h) elu
      (unmarked hA) (unmarked hB) (unmarked hC)
  refine ⟨⟨by show (raw _ h).f < _; rw [hr, ef]; simp only [glue]; omega, by show (raw _ h).lu < _; rw [hr, elu]; exact lu_lt h,
    (Nat.zero_lt_succ _), (Nat.zero_lt_succ _), (tile_lt m)⟩, head_of (by rw [hr, elu])
    (show 0x145 ≠ 0x100 by decide) (show 0x145 ≠ 0x102 by decide), ?_⟩
  show body (0x145) h (raw _ h) = _
  rw [hr]; clear hr ef
  unfold body bodyEng
  simp only [ec, ed, ea, eb, hl, chk_of, someBind, beq_self_eq_true, ↓reduceIte, Nat.reduceLT, tileField_val, em]
  rfl

theorem stash (h : Head) (a : Reg) (b : Reg) (c : Reg) (w : Fin 4) : Statement (.stash h a b c w) := by
  intro hw g k
  cases k
  obtain ⟨hA, hB, hC, hw⟩ : lastUseOk h.luA (some a) = true ∧ lastUseOk h.luB (some b) = true
      ∧ lastUseOk h.luC (some c) = true ∧ (RegClass.ok .pair a) = true := wf_parts rfl hw
  have w0 := hw
  obtain ⟨r, hr⟩ : ∃ r, raw (.stash h a b c w) h = r := ⟨_, rfl⟩
  have ef : r.f = glue [(2, w.val), (10, 0), (8, c.code)] := by subst hr; rfl
  have q0 := w.isLt
  have ec : r.c = c.code := by simp only [Raw.c, ef, glue]; omega
  have em : cut [2] r.m = [w.val, 0] := by
    simp only [Raw.m, ef, glue, cut, List.cons.injEq]; refine ⟨?_, ?_, trivial⟩ <;> omega
  have ed : r.d = 0 := by subst hr; rfl
  have ea : r.a = a.code := by subst hr; rfl
  have eb : r.b = b.code := by subst hr; rfl
  have elu : r.lu = h.lu := by subst hr; exact Nat.zero_add _
  have hl : r.lastUseOk true true true = true :=
    lastUse_checked (h := h) elu
      (fun e => ⟨rfl, ea ▸ marked hA e⟩) (fun e => ⟨rfl, eb ▸ marked hB e⟩) (fun e => ⟨rfl, ec ▸ marked hC e⟩)
  have fa := regField_code 1 (w0)
  have fb := regField_code 2 (read_ok b)
  have fc := regField_code 3 (read_ok c)
  refine ⟨⟨by have qc := code_lt c; show (raw _ h).f < _; rw [hr, ef]; simp only [glue]; omega, by show (raw _ h).lu < _; rw [hr, elu]; exact lu_lt h,
    (code_lt b), (code_lt a), (Nat.zero_lt_succ _)⟩, head_of (by rw [hr, elu])
    (show 0x142 ≠ 0x100 by decide) (show 0x142 ≠ 0x102 by decide), ?_⟩
  show body (0x142) h (raw _ h) = _
  rw [hr]; clear hr ef
  unfold body bodyEng
  simp only [ec, ed, ea, eb, hl, chk_of, someBind, beq_self_eq_true, ↓reduceIte, Nat.reduceLT, finOfNat_val, fa, fb, fc, em]
  rfl

theorem unstash (h : Head) (w : Fin 4) : Statement (.unstash h w) := by
  intro hw g k
  cases k
  obtain ⟨hA, hB, hC, hw⟩ : lastUseOk h.luA none = true ∧ lastUseOk h.luB none = true
      ∧ lastUseOk h.luC none = true ∧ (true) = true := wf_parts rfl hw
  clear hw
  obtain ⟨r, hr⟩ : ∃ r, raw (.unstash h w) h = r := ⟨_, rfl⟩
  have ef : r.f = glue [(2, w.val), (10, 0), (8, 0)] := by subst hr; rfl
  have q0 := w.isLt
  have ec : r.c = 0 := by simp only [Raw.c, ef, glue]; omega
  have em : cut [2] r.m = [w.val, 0] := by
    simp only [Raw.m, ef, glue, cut, List.cons.injEq]; refine ⟨?_, ?_, trivial⟩ <;> omega
  have ed : r.d = 0 := by subst hr; rfl
  have ea : r.a = 0 := by subst hr; rfl
  have eb : r.b = 0 := by subst hr; rfl
  have elu : r.lu = h.lu := by subst hr; exact Nat.zero_add _
  have hl : r.lastUseOk false false false = true :=
    lastUse_checked (h := h) elu
      (unmarked hA) (unmarked hB) (unmarked hC)
  refine ⟨⟨by show (raw _ h).f < _; rw [hr, ef]; simp only [glue]; omega, by show (raw _ h).lu < _; rw [hr, elu]; exact lu_lt h,
    (Nat.zero_lt_succ _), (Nat.zero_lt_succ _), (Nat.zero_lt_succ _)⟩, head_of (by rw [hr, elu])
    (show 0x143 ≠ 0x100 by decide) (show 0x143 ≠ 0x102 by decide), ?_⟩
  show body (0x143) h (raw _ h) = _
  rw [hr]; clear hr ef
  unfold body bodyEng
  simp only [ec, ed, ea, eb, hl, chk_of, someBind, beq_self_eq_true, ↓reduceIte, Nat.reduceLT, finOfNat_val, em]

theorem cpy (h : Head) (dir : CpyDir) (d a : CpyOpd) (b c : Reg) (twoD ab : Bool) (q : Fin 8) (s : MScope) :
    Statement (.cpy h dir d a b c twoD ab q s) := by
  intro hw g k
  cases k
  obtain ⟨hA, hB, hC, hw⟩ : lastUseOk h.luA a.theReg = true ∧ lastUseOk h.luB (some b) = true
      ∧ lastUseOk h.luC (if ab then some c else none) = true
      ∧ (dir.dOk d && dir.aOk a && RegClass.ok (if twoD then .quadReg else .read) b && (ab || c == .v 0)
        && (d == .queue || q == 0)) = true := wf_parts rfl hw
  simp only [Bool.and_eq_true] at hw
  obtain ⟨⟨⟨⟨w0, w1⟩, w2⟩, w3⟩, w4⟩ := hw
  obtain ⟨r, hr⟩ : ∃ r, raw (.cpy h dir d a b c twoD ab q s) h = r := ⟨_, rfl⟩
  have ef : r.f = glue [(1, twoD.toNat), (1, ab.toNat), (1, (d == .queue).toNat), (3, q.val), (3, s.code), (3, 0),
    (8, c.code)] := by subst hr; rfl
  have q0 := toNat_lt twoD
  have q1 := toNat_lt ab
  have q2 := toNat_lt (d == .queue)
  have q3 := q.isLt
  have q4 : s.code < 8 := by cases s <;> decide
  have ec : r.c = c.code := by simp only [Raw.c, ef, glue]; omega
  have em : cut [1, 1, 1, 3, 3] r.m = [twoD.toNat, ab.toNat, (d == .queue).toNat, q.val, s.code, 0] := by
    simp only [Raw.m, ef, glue, cut, List.cons.injEq]; refine ⟨?_, ?_, ?_, ?_, ?_, ?_, trivial⟩ <;> omega
  have ed : r.d = d.code := by subst hr; rfl
  have ea : r.a = a.code := by subst hr; rfl
  have eb : r.b = b.code := by subst hr; rfl
  have elu : r.lu = h.lu := by subst hr; exact Nat.zero_add _
  have fa := cpyField_code 1 (k := dir.aKind) w1
  have fb := regField_code 2 w2
  have fc := regField_code 3 (read_ok c)
  have hl : r.lastUseOk (!dir.aTile) true ab = true :=
    lastUse_checked (h := h) elu (fun e => ea ▸ cpyKind_tile (k := dir.aKind) w1 hA e)
      (fun e => ⟨rfl, eb ▸ marked hB e⟩)
      (fun e => by
        cases z : ab <;> rw [z] at hC
        · exact unmarked hC e
        · exact ⟨rfl, ec ▸ marked hC e⟩)
  have k1 : (!(d == .queue) || dir.queueOk) = true := by
    simp only [CpyDir.dOk] at w0
    cases z : d == .queue
    · rfl
    · rw [z] at w0; exact w0
  have k2 : ((d == .queue) || q.val == 0) = true := by
    have e : (q.val == 0) = (q == 0) := fin8_beq q
    rw [e]; exact w4
  have k3 : (!(d == .queue) || d.code == 0) = true := by cases d <;> rfl
  have k4 : (ab || c.code == 0) = true := by rw [code_beq_zero]; exact w3
  have k2' : ((d == .queue) || q == 0) = true := w4
  refine ⟨⟨by have qc := code_lt c; show (raw _ h).f < _; rw [hr, ef]; simp only [glue]; omega, by show (raw _ h).lu < _; rw [hr, elu]; exact lu_lt h,
    code_lt b, cpyOpd_lt a, cpyOpd_lt d⟩, head_of (by rw [hr, elu])
    (show 0x146 + dir.code ≠ 0x100 by cases dir <;> decide) (show 0x146 + dir.code ≠ 0x102 by cases dir <;> decide), ?_⟩
  show body (0x146 + dir.code) h (raw _ h) = _
  rw [hr]; clear hr ef
  have lt : dir.code < 6 := by cases dir <;> decide
  have t1 : ∀ n, n ≤ 0x146 → (0x146 + dir.code < n ↔ False) := fun n hn => iff_false_intro (by omega)
  unfold body bodyEng
  simp only [t1, Nat.reduceLeDiff, (by omega : 0x146 + dir.code < 0x14c), (by omega : 0x146 + dir.code < 0x180), (by omega : 0x146 + dir.code - 0x146 = dir.code),
    cpyOf_code, em, ec, ed, ea, eb, hl, fa, fb, fc, k1, k2', k3, k4, mScope_of_code, finOfNat_val, toNat_beq_one, chk_of, someBind,
      beq_self_eq_true, ↓reduceIte]
  cases d with
  | queue => rfl
  | _ =>
    simp only [CpyDir.dOk] at w0
    have fd := cpyField_code (k := dir.dKind) 0 w0
    rw [fd]; rfl

theorem cpyh (h : Head) (d : Reg) (a : Reg) (b : Reg) (c : Reg) (size : Fin 8) (s : MScope) : Statement (.cpyh h d a b c size s) := by
  intro hw g k
  cases k
  obtain ⟨hA, hB, hC, hw⟩ : lastUseOk h.luA (some a) = true ∧ lastUseOk h.luB (some b) = true
      ∧ lastUseOk h.luC (some c) = true ∧ (RegClass.ok .pair d && decide (2 ≤ size.val)) = true := wf_parts rfl hw
  simp only [Bool.and_eq_true] at hw
  obtain ⟨w0, w1⟩ := hw
  obtain ⟨r, hr⟩ : ∃ r, raw (.cpyh h d a b c size s) h = r := ⟨_, rfl⟩
  have ef : r.f = glue [(3, size.val), (3, 0), (3, s.code), (3, 0), (8, c.code)] := by subst hr; rfl
  have q0 := size.isLt
  have q1 := (show s.code < 8 by cases s <;> decide)
  have ec : r.c = c.code := by simp only [Raw.c, ef, glue]; omega
  have em : cut [3, 3, 3] r.m = [size.val, 0, s.code, 0] := by
    simp only [Raw.m, ef, glue, cut, List.cons.injEq]; refine ⟨?_, ?_, ?_, ?_, trivial⟩ <;> omega
  have ed : r.d = d.code := by subst hr; rfl
  have ea : r.a = a.code := by subst hr; rfl
  have eb : r.b = b.code := by subst hr; rfl
  have elu : r.lu = h.lu := by subst hr; exact Nat.zero_add _
  have hl : r.lastUseOk true true true = true :=
    lastUse_checked (h := h) elu
      (fun e => ⟨rfl, ea ▸ marked hA e⟩) (fun e => ⟨rfl, eb ▸ marked hB e⟩) (fun e => ⟨rfl, ec ▸ marked hC e⟩)
  have fd := regField_code 0 (w0)
  have fa := regField_code 1 (read_ok a)
  have fb := regField_code 2 (read_ok b)
  have fc := regField_code 3 (read_ok c)
  refine ⟨⟨by have qc := code_lt c; show (raw _ h).f < _; rw [hr, ef]; simp only [glue]; omega, by show (raw _ h).lu < _; rw [hr, elu]; exact lu_lt h,
    (code_lt b), (code_lt a), (code_lt d)⟩, head_of (by rw [hr, elu])
    (show 0x14c ≠ 0x100 by decide) (show 0x14c ≠ 0x102 by decide), ?_⟩
  show body (0x14c) h (raw _ h) = _
  rw [hr]; clear hr ef
  unfold body bodyEng
  simp only [ec, ed, ea, eb, hl, chk_of, someBind, beq_self_eq_true, ↓reduceIte, Nat.reduceLT, finOfNat_val, mScope_of_code, fd, fa, fb, fc, w1, em]
  rfl

theorem binc (h : Head) (a : Reg) (b : Reg) (c : Reg) : Statement (.binc h a b c) := by
  intro hw g k
  cases k
  obtain ⟨hA, hB, hC, hw⟩ : lastUseOk h.luA (some a) = true ∧ lastUseOk h.luB (some b) = true
      ∧ lastUseOk h.luC (some c) = true ∧ (true) = true := wf_parts rfl hw
  clear hw
  obtain ⟨r, hr⟩ : ∃ r, raw (.binc h a b c) h = r := ⟨_, rfl⟩
  have ef : r.f = glue [(12, 0), (8, c.code)] := by subst hr; rfl
  have ec : r.c = c.code := by simp only [Raw.c, ef, glue]; omega
  have em : r.m = 0 := by simp only [Raw.m, ef, glue]; omega
  have ed : r.d = 0 := by subst hr; rfl
  have ea : r.a = a.code := by subst hr; rfl
  have eb : r.b = b.code := by subst hr; rfl
  have elu : r.lu = h.lu := by subst hr; exact Nat.zero_add _
  have hl : r.lastUseOk true true true = true :=
    lastUse_checked (h := h) elu
      (fun e => ⟨rfl, ea ▸ marked hA e⟩) (fun e => ⟨rfl, eb ▸ marked hB e⟩) (fun e => ⟨rfl, ec ▸ marked hC e⟩)
  have fa := regField_code 1 (read_ok a)
  have fb := regField_code 2 (read_ok b)
  have fc := regField_code 3 (read_ok c)
  refine ⟨⟨by have qc := code_lt c; show (raw _ h).f < _; rw [hr, ef]; simp only [glue]; omega, by show (raw _ h).lu < _; rw [hr, elu]; exact lu_lt h,
    (code_lt b), (code_lt a), (Nat.zero_lt_succ _)⟩, head_of (by rw [hr, elu])
    (show 0x14d ≠ 0x100 by decide) (show 0x14d ≠ 0x102 by decide), ?_⟩
  show body (0x14d) h (raw _ h) = _
  rw [hr]; clear hr ef
  unfold body bodyEng
  simp only [ec, ed, ea, eb, hl, chk_of, someBind, beq_self_eq_true, ↓reduceIte, Nat.reduceLT, fa, fb, fc, em]
  rfl

theorem binp (h : Head) : Statement (.binp h) := by
  intro hw g k
  cases k
  obtain ⟨hA, hB, hC, hw⟩ : lastUseOk h.luA none = true ∧ lastUseOk h.luB none = true
      ∧ lastUseOk h.luC none = true ∧ (true) = true := wf_parts rfl hw
  clear hw
  obtain ⟨r, hr⟩ : ∃ r, raw (.binp h) h = r := ⟨_, rfl⟩
  have ef : r.f = glue [(12, 0), (8, 0)] := by subst hr; rfl
  have ec : r.c = 0 := by simp only [Raw.c, ef, glue]; omega
  have em : r.m = 0 := by simp only [Raw.m, ef, glue]; omega
  have ed : r.d = 0 := by subst hr; rfl
  have ea : r.a = 0 := by subst hr; rfl
  have eb : r.b = 0 := by subst hr; rfl
  have elu : r.lu = h.lu := by subst hr; exact Nat.zero_add _
  have hl : r.lastUseOk false false false = true :=
    lastUse_checked (h := h) elu
      (unmarked hA) (unmarked hB) (unmarked hC)
  refine ⟨⟨by show (raw _ h).f < _; rw [hr, ef]; simp only [glue]; omega, by show (raw _ h).lu < _; rw [hr, elu]; exact lu_lt h,
    (Nat.zero_lt_succ _), (Nat.zero_lt_succ _), (Nat.zero_lt_succ _)⟩, head_of (by rw [hr, elu])
    (show 0x14e ≠ 0x100 by decide) (show 0x14e ≠ 0x102 by decide), ?_⟩
  show body (0x14e) h (raw _ h) = _
  rw [hr]; clear hr ef
  unfold body bodyEng
  simp only [ec, ed, ea, eb, hl, chk_of, someBind, beq_self_eq_true, ↓reduceIte, Nat.reduceLT, em]

theorem crel (h : Head) : Statement (.crel h) := by
  intro hw g k
  cases k
  obtain ⟨hA, hB, hC, hw⟩ : lastUseOk h.luA none = true ∧ lastUseOk h.luB none = true
      ∧ lastUseOk h.luC none = true ∧ (true) = true := wf_parts rfl hw
  clear hw
  obtain ⟨r, hr⟩ : ∃ r, raw (.crel h) h = r := ⟨_, rfl⟩
  have ef : r.f = glue [(12, 0), (8, 0)] := by subst hr; rfl
  have ec : r.c = 0 := by simp only [Raw.c, ef, glue]; omega
  have em : r.m = 0 := by simp only [Raw.m, ef, glue]; omega
  have ed : r.d = 0 := by subst hr; rfl
  have ea : r.a = 0 := by subst hr; rfl
  have eb : r.b = 0 := by subst hr; rfl
  have elu : r.lu = h.lu := by subst hr; exact Nat.zero_add _
  have hl : r.lastUseOk false false false = true :=
    lastUse_checked (h := h) elu
      (unmarked hA) (unmarked hB) (unmarked hC)
  refine ⟨⟨by show (raw _ h).f < _; rw [hr, ef]; simp only [glue]; omega, by show (raw _ h).lu < _; rw [hr, elu]; exact lu_lt h,
    (Nat.zero_lt_succ _), (Nat.zero_lt_succ _), (Nat.zero_lt_succ _)⟩, head_of (by rw [hr, elu])
    (show 0x14f ≠ 0x100 by decide) (show 0x14f ≠ 0x102 by decide), ?_⟩
  show body (0x14f) h (raw _ h) = _
  rw [hr]; clear hr ef
  unfold body bodyEng
  simp only [ec, ed, ea, eb, hl, chk_of, someBind, beq_self_eq_true, ↓reduceIte, Nat.reduceLT, em]

theorem fhnd (h : Head) (a : Reg) (n : Fin 8) : Statement (.fhnd h a n) := by
  intro hw g k
  cases k
  obtain ⟨hA, hB, hC, hw⟩ : lastUseOk h.luA (some a) = true ∧ lastUseOk h.luB none = true
      ∧ lastUseOk h.luC none = true ∧ (RegClass.ok .pair a) = true := wf_parts rfl hw
  have w0 := hw
  obtain ⟨r, hr⟩ : ∃ r, raw (.fhnd h a n) h = r := ⟨_, rfl⟩
  have ef : r.f = glue [(3, n.val), (9, 0), (8, 0)] := by subst hr; rfl
  have q0 := n.isLt
  have ec : r.c = 0 := by simp only [Raw.c, ef, glue]; omega
  have em : cut [3] r.m = [n.val, 0] := by
    simp only [Raw.m, ef, glue, cut, List.cons.injEq]; refine ⟨?_, ?_, trivial⟩ <;> omega
  have ed : r.d = 0 := by subst hr; rfl
  have ea : r.a = a.code := by subst hr; rfl
  have eb : r.b = 0 := by subst hr; rfl
  have elu : r.lu = h.lu := by subst hr; exact Nat.zero_add _
  have hl : r.lastUseOk true false false = true :=
    lastUse_checked (h := h) elu
      (fun e => ⟨rfl, ea ▸ marked hA e⟩) (unmarked hB) (unmarked hC)
  have fa := regField_code 1 (w0)
  refine ⟨⟨by show (raw _ h).f < _; rw [hr, ef]; simp only [glue]; omega, by show (raw _ h).lu < _; rw [hr, elu]; exact lu_lt h,
    (Nat.zero_lt_succ _), (code_lt a), (Nat.zero_lt_succ _)⟩, head_of (by rw [hr, elu])
    (show 0x150 ≠ 0x100 by decide) (show 0x150 ≠ 0x102 by decide), ?_⟩
  show body (0x150) h (raw _ h) = _
  rw [hr]; clear hr ef
  unfold body bodyEng
  simp only [ec, ed, ea, eb, hl, chk_of, someBind, beq_self_eq_true, ↓reduceIte, Nat.reduceLT, finOfNat_val, fa, em]
  rfl

theorem fetch (h : Head) (t : W2) (d : Reg) (a : Reg) (b : Reg) (n : Fin 8) (pd : Pred) : Statement (.fetch h t d a b n pd) := by
  intro hw g k
  cases k
  obtain ⟨hA, hB, hC, hw⟩ : lastUseOk h.luA (some a) = true ∧ lastUseOk h.luB (some b) = true
      ∧ lastUseOk h.luC none = true ∧ (RegClass.ok (if t.wide then .pair else .dest4) d) = true := wf_parts rfl hw
  have w0 := hw
  obtain ⟨r, hr⟩ : ∃ r, raw (.fetch h t d a b n pd) h = r := ⟨_, rfl⟩
  have ef : r.f = glue [(3, n.val), (3, pd.val), (6, 0), (8, 0)] := by subst hr; rfl
  have q0 := n.isLt
  have q1 := pd.isLt
  have ec : r.c = 0 := by simp only [Raw.c, ef, glue]; omega
  have em : cut [3, 3] r.m = [n.val, pd.val, 0] := by
    simp only [Raw.m, ef, glue, cut, List.cons.injEq]; refine ⟨?_, ?_, ?_, trivial⟩ <;> omega
  have ed : r.d = d.code := by subst hr; rfl
  have ea : r.a = a.code := by subst hr; rfl
  have eb : r.b = b.code := by subst hr; rfl
  have elu : r.lu = h.lu := by subst hr; exact Nat.zero_add _
  have hl : r.lastUseOk true true false = true :=
    lastUse_checked (h := h) elu
      (fun e => ⟨rfl, ea ▸ marked hA e⟩) (fun e => ⟨rfl, eb ▸ marked hB e⟩) (unmarked hC)
  have fd := regField_code 0 (w0)
  have fa := regField_code 1 (read_ok a)
  have fb := regField_code 2 (read_ok b)
  refine ⟨⟨by show (raw _ h).f < _; rw [hr, ef]; simp only [glue]; omega, by show (raw _ h).lu < _; rw [hr, elu]; exact lu_lt h,
    (code_lt b), (code_lt a), (code_lt d)⟩, head_of (by rw [hr, elu])
    (show 0x151 + t.code ≠ 0x100 by cases t <;> decide) (show 0x151 + t.code ≠ 0x102 by cases t <;> decide), ?_⟩
  show body (0x151 + t.code) h (raw _ h) = _
  rw [hr]; clear hr ef
  cases t <;>
    (unfold body bodyEng
     simp only [ec, ed, ea, eb, hl, chk_of, someBind, beq_self_eq_true, ↓reduceIte, Nat.reduceLT, Nat.reduceAdd, Nat.reduceSub, finOfNat_val, fd, fa, fb, W2.code, W2.of, em]
     rfl)

theorem mma (h : Head) (t : MmaTy) (d : Tile) (a : Tile) (b : Tile) (c : Tile) (sat : Bool) (bs : Bool) : Statement (.mma h t d a b c sat bs) := by
  intro hw g k
  cases k
  obtain ⟨hA, hB, hC, hw⟩ : lastUseOk h.luA none = true ∧ lastUseOk h.luB none = true
      ∧ lastUseOk h.luC none = true ∧ ((!sat || t.isInt) && (bs || c == 0)) = true := wf_parts rfl hw
  simp only [Bool.and_eq_true] at hw
  obtain ⟨w0, w1⟩ := hw
  obtain ⟨r, hr⟩ : ∃ r, raw (.mma h t d a b c sat bs) h = r := ⟨_, rfl⟩
  have ef : r.f = glue [(1, sat.toNat), (1, bs.toNat), (10, 0), (8, c.val)] := by subst hr; rfl
  have q0 := toNat_lt sat
  have q1 := toNat_lt bs
  have ec : r.c = c.val := by simp only [Raw.c, ef, glue]; omega
  have em : cut [1, 1] r.m = [sat.toNat, bs.toNat, 0] := by
    simp only [Raw.m, ef, glue, cut, List.cons.injEq]; refine ⟨?_, ?_, ?_, trivial⟩ <;> omega
  have ed : r.d = d.val := by subst hr; rfl
  have ea : r.a = a.val := by subst hr; rfl
  have eb : r.b = b.val := by subst hr; rfl
  have elu : r.lu = h.lu := by subst hr; exact Nat.zero_add _
  have hl : r.lastUseOk false false false = true :=
    lastUse_checked (h := h) elu
      (unmarked hA) (unmarked hB) (unmarked hC)
  refine ⟨⟨by have qc := tile_lt c; show (raw _ h).f < _; rw [hr, ef]; simp only [glue]; omega, by show (raw _ h).lu < _; rw [hr, elu]; exact lu_lt h,
    (tile_lt b), (tile_lt a), (tile_lt d)⟩, head_of (by rw [hr, elu])
    (show 0x180 + t.code ≠ 0x100 by cases t <;> decide) (show 0x180 + t.code ≠ 0x102 by cases t <;> decide), ?_⟩
  show body (0x180 + t.code) h (raw _ h) = _
  rw [hr]; clear hr ef
  cases t <;>
    (unfold body bodyMat
     simp only [ec, ed, ea, eb, hl, chk_of, someBind, beq_self_eq_true, ↓reduceIte, Nat.reduceLT, Nat.reduceAdd, Nat.reduceSub, toNat_beq_one, tileField_val, w0, w1, val_beq_zero, MmaTy.code, MmaTy.of, em]
     rfl)

theorem mmas (h : Head) (t : MmasTy) (d : Tile) (a : Tile) (b : Tile) (c : Tile) (sat : Bool) (bs : Bool) : Statement (.mmas h t d a b c sat bs) := by
  intro hw g k
  cases k
  obtain ⟨hA, hB, hC, hw⟩ : lastUseOk h.luA none = true ∧ lastUseOk h.luB none = true
      ∧ lastUseOk h.luC none = true ∧ ((!sat || t.isInt) && (bs || c == 0)) = true := wf_parts rfl hw
  simp only [Bool.and_eq_true] at hw
  obtain ⟨w0, w1⟩ := hw
  obtain ⟨r, hr⟩ : ∃ r, raw (.mmas h t d a b c sat bs) h = r := ⟨_, rfl⟩
  have ef : r.f = glue [(1, sat.toNat), (1, bs.toNat), (10, 0), (8, c.val)] := by subst hr; rfl
  have q0 := toNat_lt sat
  have q1 := toNat_lt bs
  have ec : r.c = c.val := by simp only [Raw.c, ef, glue]; omega
  have em : cut [1, 1] r.m = [sat.toNat, bs.toNat, 0] := by
    simp only [Raw.m, ef, glue, cut, List.cons.injEq]; refine ⟨?_, ?_, ?_, trivial⟩ <;> omega
  have ed : r.d = d.val := by subst hr; rfl
  have ea : r.a = a.val := by subst hr; rfl
  have eb : r.b = b.val := by subst hr; rfl
  have elu : r.lu = h.lu := by subst hr; exact Nat.zero_add _
  have hl : r.lastUseOk false false false = true :=
    lastUse_checked (h := h) elu
      (unmarked hA) (unmarked hB) (unmarked hC)
  refine ⟨⟨by have qc := tile_lt c; show (raw _ h).f < _; rw [hr, ef]; simp only [glue]; omega, by show (raw _ h).lu < _; rw [hr, elu]; exact lu_lt h,
    (tile_lt b), (tile_lt a), (tile_lt d)⟩, head_of (by rw [hr, elu])
    (show 0x190 + t.code ≠ 0x100 by cases t <;> decide) (show 0x190 + t.code ≠ 0x102 by cases t <;> decide), ?_⟩
  show body (0x190 + t.code) h (raw _ h) = _
  rw [hr]; clear hr ef
  cases t <;>
    (unfold body bodyMat
     simp only [ec, ed, ea, eb, hl, chk_of, someBind, beq_self_eq_true, ↓reduceIte, Nat.reduceLT, Nat.reduceAdd, Nat.reduceSub, toNat_beq_one, tileField_val, w0, w1, val_beq_zero, MmasTy.code, MmasTy.of, em]
     rfl)

theorem tzero (h : Head) (d : Tile) : Statement (.tzero h d) := by
  intro hw g k
  cases k
  obtain ⟨hA, hB, hC, hw⟩ : lastUseOk h.luA none = true ∧ lastUseOk h.luB none = true
      ∧ lastUseOk h.luC none = true ∧ (true) = true := wf_parts rfl hw
  clear hw
  obtain ⟨r, hr⟩ : ∃ r, raw (.tzero h d) h = r := ⟨_, rfl⟩
  have ef : r.f = glue [(12, 0), (8, 0)] := by subst hr; rfl
  have ec : r.c = 0 := by simp only [Raw.c, ef, glue]; omega
  have em : r.m = 0 := by simp only [Raw.m, ef, glue]; omega
  have ed : r.d = d.val := by subst hr; rfl
  have ea : r.a = 0 := by subst hr; rfl
  have eb : r.b = 0 := by subst hr; rfl
  have elu : r.lu = h.lu := by subst hr; exact Nat.zero_add _
  have hl : r.lastUseOk false false false = true :=
    lastUse_checked (h := h) elu
      (unmarked hA) (unmarked hB) (unmarked hC)
  refine ⟨⟨by show (raw _ h).f < _; rw [hr, ef]; simp only [glue]; omega, by show (raw _ h).lu < _; rw [hr, elu]; exact lu_lt h,
    (Nat.zero_lt_succ _), (Nat.zero_lt_succ _), (tile_lt d)⟩, head_of (by rw [hr, elu])
    (show 0x198 ≠ 0x100 by decide) (show 0x198 ≠ 0x102 by decide), ?_⟩
  show body (0x198) h (raw _ h) = _
  rw [hr]; clear hr ef
  unfold body bodyMat
  simp only [ec, ed, ea, eb, hl, chk_of, someBind, beq_self_eq_true, ↓reduceIte, Nat.reduceLT, tileField_val, em]
  rfl

theorem tfill (h : Head) (d : Tile) (a : Reg) : Statement (.tfill h d a) := by
  intro hw g k
  cases k
  obtain ⟨hA, hB, hC, hw⟩ : lastUseOk h.luA (some a) = true ∧ lastUseOk h.luB none = true
      ∧ lastUseOk h.luC none = true ∧ (true) = true := wf_parts rfl hw
  clear hw
  obtain ⟨r, hr⟩ : ∃ r, raw (.tfill h d a) h = r := ⟨_, rfl⟩
  have ef : r.f = glue [(12, 0), (8, 0)] := by subst hr; rfl
  have ec : r.c = 0 := by simp only [Raw.c, ef, glue]; omega
  have em : r.m = 0 := by simp only [Raw.m, ef, glue]; omega
  have ed : r.d = d.val := by subst hr; rfl
  have ea : r.a = a.code := by subst hr; rfl
  have eb : r.b = 0 := by subst hr; rfl
  have elu : r.lu = h.lu := by subst hr; exact Nat.zero_add _
  have hl : r.lastUseOk true false false = true :=
    lastUse_checked (h := h) elu
      (fun e => ⟨rfl, ea ▸ marked hA e⟩) (unmarked hB) (unmarked hC)
  have fa := regField_code 1 (read_ok a)
  refine ⟨⟨by show (raw _ h).f < _; rw [hr, ef]; simp only [glue]; omega, by show (raw _ h).lu < _; rw [hr, elu]; exact lu_lt h,
    (Nat.zero_lt_succ _), (code_lt a), (tile_lt d)⟩, head_of (by rw [hr, elu])
    (show 0x199 ≠ 0x100 by decide) (show 0x199 ≠ 0x102 by decide), ?_⟩
  show body (0x199) h (raw _ h) = _
  rw [hr]; clear hr ef
  unfold body bodyMat
  simp only [ec, ed, ea, eb, hl, chk_of, someBind, beq_self_eq_true, ↓reduceIte, Nat.reduceLT, tileField_val, fa, em]
  rfl

theorem tcvt (h : Head) (d : Tile) (a : Tile) (p : Fin 8) (src : TSrc) : Statement (.tcvt h d a p src) := by
  intro hw g k
  cases k
  obtain ⟨hA, hB, hC, hw⟩ : lastUseOk h.luA none = true ∧ lastUseOk h.luB none = true
      ∧ lastUseOk h.luC none = true ∧ (true) = true := wf_parts rfl hw
  clear hw
  obtain ⟨r, hr⟩ : ∃ r, raw (.tcvt h d a p src) h = r := ⟨_, rfl⟩
  have ef : r.f = glue [(3, p.val), (2, src.code), (7, 0), (8, 0)] := by subst hr; rfl
  have q0 := p.isLt
  have q1 := (show src.code < 4 by cases src <;> decide)
  have ec : r.c = 0 := by simp only [Raw.c, ef, glue]; omega
  have em : cut [3, 2] r.m = [p.val, src.code, 0] := by
    simp only [Raw.m, ef, glue, cut, List.cons.injEq]; refine ⟨?_, ?_, ?_, trivial⟩ <;> omega
  have ed : r.d = d.val := by subst hr; rfl
  have ea : r.a = a.val := by subst hr; rfl
  have eb : r.b = 0 := by subst hr; rfl
  have elu : r.lu = h.lu := by subst hr; exact Nat.zero_add _
  have hl : r.lastUseOk false false false = true :=
    lastUse_checked (h := h) elu
      (unmarked hA) (unmarked hB) (unmarked hC)
  refine ⟨⟨by show (raw _ h).f < _; rw [hr, ef]; simp only [glue]; omega, by show (raw _ h).lu < _; rw [hr, elu]; exact lu_lt h,
    (Nat.zero_lt_succ _), (tile_lt a), (tile_lt d)⟩, head_of (by rw [hr, elu])
    (show 0x19a ≠ 0x100 by decide) (show 0x19a ≠ 0x102 by decide), ?_⟩
  show body (0x19a) h (raw _ h) = _
  rw [hr]; clear hr ef
  unfold body bodyMat
  simp only [ec, ed, ea, eb, hl, chk_of, someBind, beq_self_eq_true, ↓reduceIte, Nat.reduceLT, finOfNat_val, tSrc_of_code, tileField_val, em]
  rfl

theorem ttrans (h : Head) (d : Tile) (a : Tile) (w : Fin 4) : Statement (.ttrans h d a w) := by
  intro hw g k
  cases k
  obtain ⟨hA, hB, hC, hw⟩ : lastUseOk h.luA none = true ∧ lastUseOk h.luB none = true
      ∧ lastUseOk h.luC none = true ∧ (true) = true := wf_parts rfl hw
  clear hw
  obtain ⟨r, hr⟩ : ∃ r, raw (.ttrans h d a w) h = r := ⟨_, rfl⟩
  have ef : r.f = glue [(2, w.val), (10, 0), (8, 0)] := by subst hr; rfl
  have q0 := w.isLt
  have ec : r.c = 0 := by simp only [Raw.c, ef, glue]; omega
  have em : cut [2] r.m = [w.val, 0] := by
    simp only [Raw.m, ef, glue, cut, List.cons.injEq]; refine ⟨?_, ?_, trivial⟩ <;> omega
  have ed : r.d = d.val := by subst hr; rfl
  have ea : r.a = a.val := by subst hr; rfl
  have eb : r.b = 0 := by subst hr; rfl
  have elu : r.lu = h.lu := by subst hr; exact Nat.zero_add _
  have hl : r.lastUseOk false false false = true :=
    lastUse_checked (h := h) elu
      (unmarked hA) (unmarked hB) (unmarked hC)
  refine ⟨⟨by show (raw _ h).f < _; rw [hr, ef]; simp only [glue]; omega, by show (raw _ h).lu < _; rw [hr, elu]; exact lu_lt h,
    (Nat.zero_lt_succ _), (tile_lt a), (tile_lt d)⟩, head_of (by rw [hr, elu])
    (show 0x19b ≠ 0x100 by decide) (show 0x19b ≠ 0x102 by decide), ?_⟩
  show body (0x19b) h (raw _ h) = _
  rw [hr]; clear hr ef
  unfold body bodyMat
  simp only [ec, ed, ea, eb, hl, chk_of, someBind, beq_self_eq_true, ↓reduceIte, Nat.reduceLT, finOfNat_val, tileField_val, em]
  rfl

theorem tadd (h : Head) (d : Tile) (a : Tile) (b : Tile) (t : TAddTy) : Statement (.tadd h d a b t) := by
  intro hw g k
  cases k
  obtain ⟨hA, hB, hC, hw⟩ : lastUseOk h.luA none = true ∧ lastUseOk h.luB none = true
      ∧ lastUseOk h.luC none = true ∧ (true) = true := wf_parts rfl hw
  clear hw
  obtain ⟨r, hr⟩ : ∃ r, raw (.tadd h d a b t) h = r := ⟨_, rfl⟩
  have ef : r.f = glue [(2, t.code), (10, 0), (8, 0)] := by subst hr; rfl
  have q0 := (show t.code < 4 by cases t <;> decide)
  have ec : r.c = 0 := by simp only [Raw.c, ef, glue]; omega
  have em : cut [2] r.m = [t.code, 0] := by
    simp only [Raw.m, ef, glue, cut, List.cons.injEq]; refine ⟨?_, ?_, trivial⟩ <;> omega
  have ed : r.d = d.val := by subst hr; rfl
  have ea : r.a = a.val := by subst hr; rfl
  have eb : r.b = b.val := by subst hr; rfl
  have elu : r.lu = h.lu := by subst hr; exact Nat.zero_add _
  have hl : r.lastUseOk false false false = true :=
    lastUse_checked (h := h) elu
      (unmarked hA) (unmarked hB) (unmarked hC)
  refine ⟨⟨by show (raw _ h).f < _; rw [hr, ef]; simp only [glue]; omega, by show (raw _ h).lu < _; rw [hr, elu]; exact lu_lt h,
    (tile_lt b), (tile_lt a), (tile_lt d)⟩, head_of (by rw [hr, elu])
    (show 0x19c ≠ 0x100 by decide) (show 0x19c ≠ 0x102 by decide), ?_⟩
  show body (0x19c) h (raw _ h) = _
  rw [hr]; clear hr ef
  unfold body bodyMat
  simp only [ec, ed, ea, eb, hl, chk_of, someBind, beq_self_eq_true, ↓reduceIte, Nat.reduceLT, TAddTy_of_code, tileField_val, em]
  rfl

theorem tred (h : Head) (d : Reg) (a : Tile) (col : Bool) (op : RedOp) (t : TSrc) : Statement (.tred h d a col op t) := by
  intro hw g k
  cases k
  obtain ⟨hA, hB, hC, hw⟩ : lastUseOk h.luA none = true ∧ lastUseOk h.luB none = true
      ∧ lastUseOk h.luC none = true ∧ (RegClass.ok .write d) = true := wf_parts rfl hw
  have w0 := hw
  obtain ⟨r, hr⟩ : ∃ r, raw (.tred h d a col op t) h = r := ⟨_, rfl⟩
  have ef : r.f = glue [(1, col.toNat), (2, op.code), (2, t.code), (7, 0), (8, 0)] := by subst hr; rfl
  have q0 := toNat_lt col
  have q1 := (show op.code < 4 by cases op <;> decide)
  have q2 := (show t.code < 4 by cases t <;> decide)
  have ec : r.c = 0 := by simp only [Raw.c, ef, glue]; omega
  have em : cut [1, 2, 2] r.m = [col.toNat, op.code, t.code, 0] := by
    simp only [Raw.m, ef, glue, cut, List.cons.injEq]; refine ⟨?_, ?_, ?_, ?_, trivial⟩ <;> omega
  have ed : r.d = d.code := by subst hr; rfl
  have ea : r.a = a.val := by subst hr; rfl
  have eb : r.b = 0 := by subst hr; rfl
  have elu : r.lu = h.lu := by subst hr; exact Nat.zero_add _
  have hl : r.lastUseOk false false false = true :=
    lastUse_checked (h := h) elu
      (unmarked hA) (unmarked hB) (unmarked hC)
  have fd := regField_code 0 (w0)
  refine ⟨⟨by show (raw _ h).f < _; rw [hr, ef]; simp only [glue]; omega, by show (raw _ h).lu < _; rw [hr, elu]; exact lu_lt h,
    (Nat.zero_lt_succ _), (tile_lt a), (code_lt d)⟩, head_of (by rw [hr, elu])
    (show 0x19d ≠ 0x100 by decide) (show 0x19d ≠ 0x102 by decide), ?_⟩
  show body (0x19d) h (raw _ h) = _
  rw [hr]; clear hr ef
  unfold body bodyMat
  simp only [ec, ed, ea, eb, hl, chk_of, someBind, beq_self_eq_true, ↓reduceIte, Nat.reduceLT, toNat_beq_one, redOp_of_code, tSrc_of_code, fd, tileField_val, em]
  rfl

theorem ttov (h : Head) (d : Reg) (a : Tile) (b : Reg) : Statement (.ttov h d a b) := by
  intro hw g k
  cases k
  obtain ⟨hA, hB, hC, hw⟩ : lastUseOk h.luA none = true ∧ lastUseOk h.luB (some b) = true
      ∧ lastUseOk h.luC none = true ∧ (RegClass.ok .write d) = true := wf_parts rfl hw
  have w0 := hw
  obtain ⟨r, hr⟩ : ∃ r, raw (.ttov h d a b) h = r := ⟨_, rfl⟩
  have ef : r.f = glue [(12, 0), (8, 0)] := by subst hr; rfl
  have ec : r.c = 0 := by simp only [Raw.c, ef, glue]; omega
  have em : r.m = 0 := by simp only [Raw.m, ef, glue]; omega
  have ed : r.d = d.code := by subst hr; rfl
  have ea : r.a = a.val := by subst hr; rfl
  have eb : r.b = b.code := by subst hr; rfl
  have elu : r.lu = h.lu := by subst hr; exact Nat.zero_add _
  have hl : r.lastUseOk false true false = true :=
    lastUse_checked (h := h) elu
      (unmarked hA) (fun e => ⟨rfl, eb ▸ marked hB e⟩) (unmarked hC)
  have fd := regField_code 0 (w0)
  have fb := regField_code 2 (read_ok b)
  refine ⟨⟨by show (raw _ h).f < _; rw [hr, ef]; simp only [glue]; omega, by show (raw _ h).lu < _; rw [hr, elu]; exact lu_lt h,
    (code_lt b), (tile_lt a), (code_lt d)⟩, head_of (by rw [hr, elu])
    (show 0x19e ≠ 0x100 by decide) (show 0x19e ≠ 0x102 by decide), ?_⟩
  show body (0x19e) h (raw _ h) = _
  rw [hr]; clear hr ef
  unfold body bodyMat
  simp only [ec, ed, ea, eb, hl, chk_of, someBind, beq_self_eq_true, ↓reduceIte, Nat.reduceLT, fd, tileField_val, fb, em]
  rfl

theorem vtot (h : Head) (d : Tile) (a : Reg) (b : Reg) : Statement (.vtot h d a b) := by
  intro hw g k
  cases k
  obtain ⟨hA, hB, hC, hw⟩ : lastUseOk h.luA (some a) = true ∧ lastUseOk h.luB (some b) = true
      ∧ lastUseOk h.luC none = true ∧ (true) = true := wf_parts rfl hw
  clear hw
  obtain ⟨r, hr⟩ : ∃ r, raw (.vtot h d a b) h = r := ⟨_, rfl⟩
  have ef : r.f = glue [(12, 0), (8, 0)] := by subst hr; rfl
  have ec : r.c = 0 := by simp only [Raw.c, ef, glue]; omega
  have em : r.m = 0 := by simp only [Raw.m, ef, glue]; omega
  have ed : r.d = d.val := by subst hr; rfl
  have ea : r.a = a.code := by subst hr; rfl
  have eb : r.b = b.code := by subst hr; rfl
  have elu : r.lu = h.lu := by subst hr; exact Nat.zero_add _
  have hl : r.lastUseOk true true false = true :=
    lastUse_checked (h := h) elu
      (fun e => ⟨rfl, ea ▸ marked hA e⟩) (fun e => ⟨rfl, eb ▸ marked hB e⟩) (unmarked hC)
  have fa := regField_code 1 (read_ok a)
  have fb := regField_code 2 (read_ok b)
  refine ⟨⟨by show (raw _ h).f < _; rw [hr, ef]; simp only [glue]; omega, by show (raw _ h).lu < _; rw [hr, elu]; exact lu_lt h,
    (code_lt b), (code_lt a), (tile_lt d)⟩, head_of (by rw [hr, elu])
    (show 0x19f ≠ 0x100 by decide) (show 0x19f ≠ 0x102 by decide), ?_⟩
  show body (0x19f) h (raw _ h) = _
  rw [hr]; clear hr ef
  unfold body bodyMat
  simp only [ec, ed, ea, eb, hl, chk_of, someBind, beq_self_eq_true, ↓reduceIte, Nat.reduceLT, tileField_val, fa, fb, em]
  rfl

theorem tlu (h : Head) (d : Tile) (a : Reg) (b : Reg) (n : Fin 32) (fx16 : Bool) : Statement (.tlu h d a b n fx16) := by
  intro hw g k
  cases k
  obtain ⟨hA, hB, hC, hw⟩ : lastUseOk h.luA none = true ∧ lastUseOk h.luB none = true
      ∧ lastUseOk h.luC none = true ∧ (RegClass.ok .vReg a && RegClass.ok .sReg b) = true := wf_parts rfl hw
  simp only [Bool.and_eq_true] at hw
  obtain ⟨w0, w1⟩ := hw
  obtain ⟨r, hr⟩ : ∃ r, raw (.tlu h d a b n fx16) h = r := ⟨_, rfl⟩
  have ef : r.f = glue [(5, n.val), (1, fx16.toNat), (6, 0), (8, 0)] := by subst hr; rfl
  have q0 := n.isLt
  have q1 := toNat_lt fx16
  have ec : r.c = 0 := by simp only [Raw.c, ef, glue]; omega
  have em : cut [5, 1] r.m = [n.val, fx16.toNat, 0] := by
    simp only [Raw.m, ef, glue, cut, List.cons.injEq]; refine ⟨?_, ?_, ?_, trivial⟩ <;> omega
  have ed : r.d = d.val := by subst hr; rfl
  have ea : r.a = a.code := by subst hr; rfl
  have eb : r.b = b.code := by subst hr; rfl
  have elu : r.lu = h.lu := by subst hr; exact Nat.zero_add _
  have hl : r.lastUseOk false false false = true :=
    lastUse_checked (h := h) elu
      (unmarked hA) (unmarked hB) (unmarked hC)
  have fa := regField_code 1 (w0)
  have fb := regField_code 2 (w1)
  refine ⟨⟨by show (raw _ h).f < _; rw [hr, ef]; simp only [glue]; omega, by show (raw _ h).lu < _; rw [hr, elu]; exact lu_lt h,
    (code_lt b), (code_lt a), (tile_lt d)⟩, head_of (by rw [hr, elu])
    (show 0x1a0 ≠ 0x100 by decide) (show 0x1a0 ≠ 0x102 by decide), ?_⟩
  show body (0x1a0) h (raw _ h) = _
  rw [hr]; clear hr ef
  unfold body bodyMat
  simp only [ec, ed, ea, eb, hl, chk_of, someBind, beq_self_eq_true, ↓reduceIte, Nat.reduceLT, finOfNat_val, toNat_beq_one, tileField_val, fa, fb, em]
  rfl

theorem ttrsLower (h : Head) (d : Tile) (a : Tile) (b : Reg) (n : Fin 32) (fx16 : Bool) (p : Bool) : Statement (.ttrsLower h d a b n fx16 p) := by
  intro hw g k
  cases k
  obtain ⟨hA, hB, hC, hw⟩ : lastUseOk h.luA none = true ∧ lastUseOk h.luB (if p then some b else none) = true
      ∧ lastUseOk h.luC none = true ∧ ((p || b == .v 0)) = true := wf_parts rfl hw
  have w0 := hw
  obtain ⟨r, hr⟩ : ∃ r, raw (.ttrsLower h d a b n fx16 p) h = r := ⟨_, rfl⟩
  have ef : r.f = glue [(5, n.val), (1, fx16.toNat), (1, p.toNat), (5, 0), (8, 0)] := by subst hr; rfl
  have q0 := n.isLt
  have q1 := toNat_lt fx16
  have q2 := toNat_lt p
  have ec : r.c = 0 := by simp only [Raw.c, ef, glue]; omega
  have em : cut [5, 1, 1] r.m = [n.val, fx16.toNat, p.toNat, 0] := by
    simp only [Raw.m, ef, glue, cut, List.cons.injEq]; refine ⟨?_, ?_, ?_, ?_, trivial⟩ <;> omega
  have ed : r.d = d.val := by subst hr; rfl
  have ea : r.a = a.val := by subst hr; rfl
  have eb : r.b = b.code := by subst hr; rfl
  have elu : r.lu = h.lu := by subst hr; exact Nat.zero_add _
  have x0 : (p || !r.luB) = true := by rw [luB_of elu]; cases p <;> [exact notMarked hB; rfl]
  have hl : r.lastUseOk false true false = true :=
    lastUse_checked (h := h) elu
      (unmarked hA) (fun e => ⟨rfl, eb ▸ (by cases p <;> [exact unmarked hB e; exact marked hB e])⟩) (unmarked hC)
  have fb := regField_code 2 (read_ok b)
  refine ⟨⟨by show (raw _ h).f < _; rw [hr, ef]; simp only [glue]; omega, by show (raw _ h).lu < _; rw [hr, elu]; exact lu_lt h,
    (code_lt b), (tile_lt a), (tile_lt d)⟩, head_of (by rw [hr, elu])
    (show 0x1a1 ≠ 0x100 by decide) (show 0x1a1 ≠ 0x102 by decide), ?_⟩
  show body (0x1a1) h (raw _ h) = _
  rw [hr]; clear hr ef
  unfold body bodyMat
  simp only [ec, ed, ea, eb, hl, chk_of, someBind, beq_self_eq_true, ↓reduceIte, Nat.reduceLT, finOfNat_val, toNat_beq_one, tileField_val, fb, w0, x0, code_beq_zero, em]
  rfl

theorem ttrsUpper (h : Head) (d : Tile) (a : Tile) (n : Fin 32) (fx16 : Bool) : Statement (.ttrsUpper h d a n fx16) := by
  intro hw g k
  cases k
  obtain ⟨hA, hB, hC, hw⟩ : lastUseOk h.luA none = true ∧ lastUseOk h.luB none = true
      ∧ lastUseOk h.luC none = true ∧ (true) = true := wf_parts rfl hw
  clear hw
  obtain ⟨r, hr⟩ : ∃ r, raw (.ttrsUpper h d a n fx16) h = r := ⟨_, rfl⟩
  have ef : r.f = glue [(5, n.val), (1, fx16.toNat), (6, 0), (8, 0)] := by subst hr; rfl
  have q0 := n.isLt
  have q1 := toNat_lt fx16
  have ec : r.c = 0 := by simp only [Raw.c, ef, glue]; omega
  have em : cut [5, 1] r.m = [n.val, fx16.toNat, 0] := by
    simp only [Raw.m, ef, glue, cut, List.cons.injEq]; refine ⟨?_, ?_, ?_, trivial⟩ <;> omega
  have ed : r.d = d.val := by subst hr; rfl
  have ea : r.a = a.val := by subst hr; rfl
  have eb : r.b = 0 := by subst hr; rfl
  have elu : r.lu = h.lu := by subst hr; exact Nat.zero_add _
  have hl : r.lastUseOk false false false = true :=
    lastUse_checked (h := h) elu
      (unmarked hA) (unmarked hB) (unmarked hC)
  refine ⟨⟨by show (raw _ h).f < _; rw [hr, ef]; simp only [glue]; omega, by show (raw _ h).lu < _; rw [hr, elu]; exact lu_lt h,
    (Nat.zero_lt_succ _), (tile_lt a), (tile_lt d)⟩, head_of (by rw [hr, elu])
    (show 0x1a2 ≠ 0x100 by decide) (show 0x1a2 ≠ 0x102 by decide), ?_⟩
  show body (0x1a2) h (raw _ h) = _
  rw [hr]; clear hr ef
  unfold body bodyMat
  simp only [ec, ed, ea, eb, hl, chk_of, someBind, beq_self_eq_true, ↓reduceIte, Nat.reduceLT, finOfNat_val, toNat_beq_one, tileField_val, em]
  rfl

theorem tjac (h : Head) (d : Reg) (a : Tile) (b : Reg) (c : Reg) (n : Fin 32) (fx16 : Bool) (pd : Pred) : Statement (.tjac h d a b c n fx16 pd) := by
  intro hw g k
  cases k
  obtain ⟨hA, hB, hC, hw⟩ : lastUseOk h.luA none = true ∧ lastUseOk h.luB (some b) = true
      ∧ lastUseOk h.luC none = true ∧ (RegClass.ok .vReg d && RegClass.ok .vReg b && RegClass.ok .sPair c) = true := wf_parts rfl hw
  simp only [Bool.and_eq_true] at hw
  obtain ⟨⟨w0, w1⟩, w2⟩ := hw
  obtain ⟨r, hr⟩ : ∃ r, raw (.tjac h d a b c n fx16 pd) h = r := ⟨_, rfl⟩
  have ef : r.f = glue [(5, n.val), (1, fx16.toNat), (3, pd.val), (3, 0), (8, c.code)] := by subst hr; rfl
  have q0 := n.isLt
  have q1 := toNat_lt fx16
  have q2 := pd.isLt
  have ec : r.c = c.code := by simp only [Raw.c, ef, glue]; omega
  have em : cut [5, 1, 3] r.m = [n.val, fx16.toNat, pd.val, 0] := by
    simp only [Raw.m, ef, glue, cut, List.cons.injEq]; refine ⟨?_, ?_, ?_, ?_, trivial⟩ <;> omega
  have ed : r.d = d.code := by subst hr; rfl
  have ea : r.a = a.val := by subst hr; rfl
  have eb : r.b = b.code := by subst hr; rfl
  have elu : r.lu = h.lu := by subst hr; exact Nat.zero_add _
  have hl : r.lastUseOk false true false = true :=
    lastUse_checked (h := h) elu
      (unmarked hA) (fun e => ⟨rfl, eb ▸ marked hB e⟩) (unmarked hC)
  have fd := regField_code 0 (w0)
  have fb := regField_code 2 (w1)
  have fc := regField_code 3 (w2)
  refine ⟨⟨by have qc := code_lt c; show (raw _ h).f < _; rw [hr, ef]; simp only [glue]; omega, by show (raw _ h).lu < _; rw [hr, elu]; exact lu_lt h,
    (code_lt b), (tile_lt a), (code_lt d)⟩, head_of (by rw [hr, elu])
    (show 0x1a3 ≠ 0x100 by decide) (show 0x1a3 ≠ 0x102 by decide), ?_⟩
  show body (0x1a3) h (raw _ h) = _
  rw [hr]; clear hr ef
  unfold body bodyMat
  simp only [ec, ed, ea, eb, hl, chk_of, someBind, beq_self_eq_true, ↓reduceIte, Nat.reduceLT, finOfNat_val, toNat_beq_one, fd, tileField_val, fb, fc, em]
  rfl

theorem tupd (h : Head) (d : Tile) (a : Reg) (b : Reg) (fx16 : Bool) : Statement (.tupd h d a b fx16) := by
  intro hw g k
  cases k
  obtain ⟨hA, hB, hC, hw⟩ : lastUseOk h.luA (some a) = true ∧ lastUseOk h.luB (some b) = true
      ∧ lastUseOk h.luC none = true ∧ (true) = true := wf_parts rfl hw
  clear hw
  obtain ⟨r, hr⟩ : ∃ r, raw (.tupd h d a b fx16) h = r := ⟨_, rfl⟩
  have ef : r.f = glue [(5, 0), (1, fx16.toNat), (6, 0), (8, 0)] := by subst hr; rfl
  have q0 := toNat_lt fx16
  have ec : r.c = 0 := by simp only [Raw.c, ef, glue]; omega
  have em : cut [5, 1] r.m = [0, fx16.toNat, 0] := by
    simp only [Raw.m, ef, glue, cut, List.cons.injEq]; refine ⟨?_, ?_, ?_, trivial⟩ <;> omega
  have ed : r.d = d.val := by subst hr; rfl
  have ea : r.a = a.code := by subst hr; rfl
  have eb : r.b = b.code := by subst hr; rfl
  have elu : r.lu = h.lu := by subst hr; exact Nat.zero_add _
  have hl : r.lastUseOk true true false = true :=
    lastUse_checked (h := h) elu
      (fun e => ⟨rfl, ea ▸ marked hA e⟩) (fun e => ⟨rfl, eb ▸ marked hB e⟩) (unmarked hC)
  have fa := regField_code 1 (read_ok a)
  have fb := regField_code 2 (read_ok b)
  refine ⟨⟨by show (raw _ h).f < _; rw [hr, ef]; simp only [glue]; omega, by show (raw _ h).lu < _; rw [hr, elu]; exact lu_lt h,
    (code_lt b), (code_lt a), (tile_lt d)⟩, head_of (by rw [hr, elu])
    (show 0x1a4 ≠ 0x100 by decide) (show 0x1a4 ≠ 0x102 by decide), ?_⟩
  show body (0x1a4) h (raw _ h) = _
  rw [hr]; clear hr ef
  unfold body bodyMat
  simp only [ec, ed, ea, eb, hl, chk_of, someBind, beq_self_eq_true, ↓reduceIte, Nat.reduceLT, toNat_beq_one, tileField_val, fa, fb, em]
  rfl

theorem xswapCompletion (id : Nat) : Statement (.xswapCompletion id) := no_word rfl
theorem loadCompletion (id : Nat) : Statement (.loadCompletion id) := no_word rfl
theorem existenceCompletion (id : Nat) : Statement (.existenceCompletion id) := no_word rfl
theorem atomPerform (id : Nat) : Statement (.atomPerform id) := no_word rfl
theorem launchCompletion (id : Nat) : Statement (.launchCompletion id) := no_word rfl
theorem kreadCompletion (id : Nat) : Statement (.kreadCompletion id) := no_word rfl
theorem unstashCompletion (id : Nat) : Statement (.unstashCompletion id) := no_word rfl
theorem cpyQueueSlotTake (id : Nat) : Statement (.cpyQueueSlotTake id) := no_word rfl
theorem copyCommandCompletion (id : Nat) : Statement (.copyCommandCompletion id) := no_word rfl
theorem binCommandCompletion (id : Nat) : Statement (.binCommandCompletion id) := no_word rfl
theorem fetchCompletion (id : Nat) : Statement (.fetchCompletion id) := no_word rfl
theorem tjacSweepEnd (id : Nat) : Statement (.tjacSweepEnd id) := no_word rfl
theorem matrixCommandCompletion (id : Nat) : Statement (.matrixCommandCompletion id) := no_word rfl
theorem matrixTransientError (id : Nat) : Statement (.matrixTransientError id) := no_word rfl
theorem invalidationComplete (id : Nat) : Statement (.invalidationComplete id) := no_word rfl
theorem descriptorReloadComplete (id : Nat) : Statement (.descriptorReloadComplete id) := no_word rfl
theorem packWarp (core : Nat) : Statement (.packWarp core) := no_word rfl
theorem incumbentUpdateArrival (part : Nat) (k : Nat) (f32 : Bool) (ups : List Upd) : Statement (.incumbentUpdateArrival part k f32 ups) := no_word rfl
theorem incumbentCopyUpdate (core : Nat) : Statement (.incumbentCopyUpdate core) := no_word rfl
theorem yieldExpiry (warp : Nat) (idx : Nat) : Statement (.yieldExpiry warp idx) := no_word rfl
theorem splitDrainEnd (core : Nat) : Statement (.splitDrainEnd core) := no_word rfl
theorem splitRelocateEnd (core : Nat) : Statement (.splitRelocateEnd core) := no_word rfl
theorem splitRemapEnd (core : Nat) : Statement (.splitRemapEnd core) := no_word rfl
theorem stashWriteback (block : Nat) (window : Nat) : Statement (.stashWriteback block window) := no_word rfl
theorem clauseHeaderFetch : Statement .clauseHeaderFetch := no_word rfl
theorem splitAged (warp : Nat) (idx : Nat) : Statement (.splitAged warp idx) := no_word rfl
theorem warpPreempt (warp : Nat) : Statement (.warpPreempt warp) := no_word rfl
theorem launchSlotArm (part : Nat) (slot : Nat) (arm : Half) : Statement (.launchSlotArm part slot arm) := no_word rfl
theorem blockPlacement (part : Nat) : Statement (.blockPlacement part) := no_word rfl
theorem blockRetire (kernel : Nat) : Statement (.blockRetire kernel) := no_word rfl
theorem pageWalk (part : Nat) (asid : Nat) (va : Word) : Statement (.pageWalk part asid va) := no_word rfl
theorem pageMigration (part : Nat) (asid : Nat) (va : Word) : Statement (.pageMigration part asid va) := no_word rfl
theorem lineEviction (core : Nat) (line : Nat) : Statement (.lineEviction core line) := no_word rfl
theorem correctedError (part : Nat) (c : Corrected) : Statement (.correctedError part c) := no_word rfl
theorem uncorrectableError (part : Nat) (line : Nat) (dirty : Bool) : Statement (.uncorrectableError part line dirty) := no_word rfl
theorem remoteRequest (part : Nat) (spkg : Nat) (spart : Nat) (va : Word) (op : RemoteOp) : Statement (.remoteRequest part spkg spart va op) := no_word rfl
theorem remoteResend (n : Nat) : Statement (.remoteResend n) := no_word rfl
theorem fabricPeerResponse (line : Nat) (answer : PeerAnswer) : Statement (.fabricPeerResponse line answer) := no_word rfl
theorem fabricDeliveryTimeout (line : Nat) (dirty : Bool) : Statement (.fabricDeliveryTimeout line dirty) := no_word rfl
theorem flitReceive (part : Nat) (link : Nat) (payload : List Byte) (keyBit : Nat) (crcOk : Bool) (tagOk : Bool) : Statement (.flitReceive part link payload keyBit crcOk tagOk) := no_word rfl
theorem parityExtensionReceive (link : Nat) (repair : Repair) : Statement (.parityExtensionReceive link repair) := no_word rfl
theorem planeRemap (plane : Nat) (up : Bool) : Statement (.planeRemap plane up) := no_word rfl
theorem remapAcknowledge : Statement .remapAcknowledge := no_word rfl
theorem routeUpdate (dest : Nat) (version : Nat) : Statement (.routeUpdate dest version) := no_word rfl
theorem keyRotation (link : LinkEnd) : Statement (.keyRotation link) := no_word rfl
theorem hostCxlWrite (addr : Word) (data : List Byte) : Statement (.hostCxlWrite addr data) := no_word rfl
theorem hostCxlRead (addr : Word) (len : Nat) : Statement (.hostCxlRead addr len) := no_word rfl
theorem create (arg0 : Half) (arg1 : Half) : Statement (.create arg0 arg1) := no_word rfl
theorem destroy (arg0 : Half) : Statement (.destroy arg0) := no_word rfl
theorem swapout (arg0 : Half) : Statement (.swapout arg0) := no_word rfl
theorem haltComplete (part : Nat) : Statement (.haltComplete part) := no_word rfl
theorem haltTimeout (part : Nat) : Statement (.haltTimeout part) := no_word rfl
theorem swapin (arg0 : Half) : Statement (.swapin arg0) := no_word rfl
theorem fwstage (arg0 : Half) (arg1 : Half) (image : List Byte) : Statement (.fwstage arg0 arg1 image) := no_word rfl
theorem getVersion (inst : Nat) : Statement (.getVersion inst) := no_word rfl
theorem getCapabilities (inst : Nat) : Statement (.getCapabilities inst) := no_word rfl
theorem negotiateAlgorithms (inst : Nat) (offered : Offer) :
    Statement (.negotiateAlgorithms inst offered) := no_word rfl
theorem getDigests (inst : Nat) : Statement (.getDigests inst) := no_word rfl
theorem getCertificate (inst : Nat) (slot : Nat) : Statement (.getCertificate inst slot) := no_word rfl
theorem challenge (inst : Nat) (slot : Nat) (nonce : List Byte) : Statement (.challenge inst slot nonce) := no_word rfl
theorem getMeasurements (inst : Nat) (index : Nat) (nonce : List Byte) : Statement (.getMeasurements inst index nonce) := no_word rfl
theorem keyExchange (inst : Nat) (exchange : List Byte) : Statement (.keyExchange inst exchange) := no_word rfl
theorem finish (inst : Nat) (verify : List Byte) : Statement (.finish inst verify) := no_word rfl
theorem endSession (inst : Nat) : Statement (.endSession inst) := no_word rfl
theorem unsupportedRequest (inst : Nat) : Statement (.unsupportedRequest inst) := no_word rfl
theorem sealRequest (inst : Nat) (record : List Byte) : Statement (.sealRequest inst record) := no_word rfl
theorem keyload (inst : Nat) (record : List Byte) : Statement (.keyload inst record) := no_word rfl
theorem keydrop (inst : Nat) (record : List Byte) : Statement (.keydrop inst record) := no_word rfl
theorem packageReset : Statement .packageReset := no_word rfl
theorem clockStepChange (clk : Nat) (therm : Bool) (power : Bool) : Statement (.clockStepChange clk therm power) := no_word rfl
theorem tlbinvAddress (part : Nat) (value : Half) : Statement (.tlbinvAddress part value) := no_word rfl
theorem tlbinvAsid (part : Nat) (value : Half) : Statement (.tlbinvAsid part value) := no_word rfl
theorem tlbinvPartition (part : Nat) (value : Half) : Statement (.tlbinvPartition part value) := no_word rfl
theorem qpost (part : Nat) (frame : Half) : Statement (.qpost part frame) := no_word rfl
theorem qpop (warp : Nat) (d : Reg) : Statement (.qpop warp d) := no_word rfl
theorem rgnselWrite (part : Nat) (value : Half) : Statement (.rgnselWrite part value) := no_word rfl
theorem reservationRangeWrite (part : Nat) (reg : Nat) (value : Half) : Statement (.reservationRangeWrite part reg value) := no_word rfl
theorem tscloRead (warp : Nat) (d : Reg) : Statement (.tscloRead warp d) := no_word rfl
theorem systemRegisterWrite (warp : Nat) (idx : Nat) (sr : BitVec 12) (value : Half) : Statement (.systemRegisterWrite warp idx sr value) := no_word rfl
theorem illegalOpcode (w : Word) : Statement (.illegalOpcode w) := no_word rfl

end Sys2Proof.Laws.FieldsReadBack
end

