-- ==== Sys2Proof/Laws/Time.lean ====
section
/-! SUPPORT. What passing time does to warps and splits (R167, R306). -/

namespace Sys2Proof.Machine

theorem event_warps (s : State) (core : Nat) (block : Option Nat) (src n : Nat) :
    (s.event core block src n).warps = s.warps := by
  unfold State.event
  repeat' split
  all_goals rfl

theorem foldl_event_warps {α : Type} (f : α → Nat) (g : α → Option Nat) (k : α → Nat) (n : Nat) (xs : List α) (t : State) :
    (xs.foldl (fun t x => t.event (f x) (g x) n (k x)) t).warps = t.warps := by
  induction xs generalizing t with
  | nil => rfl
  | cons x r ih => rw [List.foldl_cons, ih, event_warps]

theorem countReady_warps (s : State) (d : Nat) : (countReady s d).warps = s.warps := by
  unfold countReady; exact foldl_event_warps ..

theorem countClk_warps (s : State) (d : Nat) : (countClk s d).warps = s.warps := by
  unfold countClk; rw [foldl_event_warps]

/-- Every split counts the clk that pass, and nothing else of a warp changes. -/
theorem passTime_warps (s : State) (d : Nat) : (passTime s d).warps
    = s.warps.mapV fun n w => { w with splits := w.splits.mapV fun i p => s.passSplit d n w i p } := by
  have e : (passTime s d).warps = (countReady (countClk s d) d).warps.mapV fun n w =>
      { w with splits := w.splits.mapV fun i p => s.passSplit d n w i p } := rfl
  rw [e, countReady_warps, countClk_warps]

theorem passTime_split {s : State} {uid idx : Nat} {w : Warp} {p : Split} (d : Nat) (hw : s.warps.get? uid = some w)
    (hp : w.splits.get? idx = some p) :
    ∃ w', (passTime s d).warps.get? uid = some w' ∧ w'.splits.get? idx = some (s.passSplit d uid w idx p) := by
  refine ⟨{ w with splits := w.splits.mapV fun i q => s.passSplit d uid w i q }, ?_, ?_⟩
  · rw [passTime_warps, Tab.get?_mapV, hw]; rfl
  · rw [Tab.get?_mapV, hp]; rfl

end Sys2Proof.Machine
end

