-- ==== Sys2Proof/Laws/Trap.lean ====
section
/-! SUPPORT. Taking a trap and returning from one: what they leave of the warps. -/

namespace Sys2Proof.Machine

theorem Warp.setPreds_pred (w : Warp) (m : Lanes) (ps : List Lanes) (q : Pred) :
    (w.setPreds m ps).pred q = if q = 7 then allLanes else (w.pred q &&& ~~~m) ||| (ps.getD q.val 0 &&& m) := by
  unfold Warp.setPreds Warp.pred
  simp only [show List.range 7 = [0, 1, 2, 3, 4, 5, 6] from rfl, List.foldl_cons, List.foldl_nil]
  unfold Warp.setPred
  have e : ∀ i : Nat, i < 7 → ¬(Fin.ofNat 8 i = (7 : Fin 8)) := by decide
  simp only [e 0 (by decide), e 1 (by decide), e 2 (by decide), e 3 (by decide), e 4 (by decide), e 5 (by decide),
    e 6 (by decide), if_false, Tab.num_setNum]
  have hq : q = 0 ∨ q = 1 ∨ q = 2 ∨ q = 3 ∨ q = 4 ∨ q = 5 ∨ q = 6 ∨ q = 7 := by revert q; decide
  rcases hq with rfl | rfl | rfl | rfl | rfl | rfl | rfl | rfl <;> simp [Fin.ofNat]

theorem Warp.setPreds_same (w : Warp) (m : Lanes) (ps : List Lanes) :
    w.setPreds m ps = { w with preds := (w.setPreds m ps).preds } := by
  unfold Warp.setPreds
  simp only [show List.range 7 = [0, 1, 2, 3, 4, 5, 6] from rfl, List.foldl_cons, List.foldl_nil]
  unfold Warp.setPred
  have e : ∀ i : Nat, i < 7 → ¬(Fin.ofNat 8 i = (7 : Fin 8)) := by decide
  simp only [e 0 (by decide), e 1 (by decide), e 2 (by decide), e 3 (by decide), e 4 (by decide), e 5 (by decide),
    e 6 (by decide), if_false]

/-- The handling warp of a trap: nothing but predicates, splits and trap registers changes. -/
theorem Warp.enterHandler_eq (w : Warp) (i : Nat) (p : Split) (t : Trap) (sc : Scope) (others : List Nat) (tvec : Word) :
    w.enterHandler i p t sc others tvec = { w with
      trapRegs := trapRegsOf w.trapRegs t sc p.mask
      preds := (w.setPreds p.mask []).preds
      splits := w.splits.put i { p with
        pc := tvec, idx := 0, header := 0, fmt := 0, fst := 0, wait := .none, replay := none, origins := []
        unchosen := 0, yields := none
        saved := some ⟨w.predList, p.fmt, p.fst, sc, others, t.tpc, p.pc, p.header⟩ } } := by
  unfold Warp.enterHandler Warp.setSplit
  dsimp only
  rw [Warp.setPreds_same]
  rfl

/-- A suspended warp: its split of the unit waits for TRET, and nothing else changes. -/
theorem Warp.suspend_eq (w : Warp) (i : Nat) : w.suspend i = { w with
    suspended := true
    splits := (w.splits.get? i).elim w.splits fun q => w.splits.put i { q with wait := .trapped } } := by
  unfold Warp.suspend Warp.setSplit
  cases w.splits.get? i <;> rfl

theorem suspend_parts (rest : List UPart) (s : State) (hn : (rest.map UPart.uid).Nodup) :
    PartMap rest s (rest.foldl (fun s u => s.mapWarp u.uid fun w => w.suspend u.idx) s) fun x w => w.suspend x.idx :=
  PartMap.fold _ _ hn _

theorem suspend_others (rest : List UPart) (s : State) (n : Nat) (h : ∀ x ∈ rest, x.uid ≠ n) :
    (rest.foldl (fun s u => s.mapWarp u.uid fun w => w.suspend u.idx) s).warps.get? n = s.warps.get? n := by
  induction rest generalizing s with
  | nil => rfl
  | cons a r ih =>
    rw [List.foldl_cons, ih _ fun x hx => h x (List.mem_cons_of_mem _ hx)]
    unfold State.mapWarp
    split
    · exact Tab.get?_put_ne _ _ (h a (by simp)).symm
    · rfl

theorem suspend_mem (rest : List UPart) (s : State) :
    (rest.foldl (fun s u => s.mapWarp u.uid fun w => w.suspend u.idx) s).mem = s.mem := by
  induction rest generalizing s with
  | nil => rfl
  | cons a r ih => rw [List.foldl_cons, ih, State.mapWarp_mem]

theorem dropPages_all (rest : List UPart) (s : State) :
    (rest.foldl (fun s u => dropPages s u.uid) s).warps = s.warps ∧ (rest.foldl (fun s u => dropPages s u.uid) s).mem = s.mem
      ∧ (rest.foldl (fun s u => dropPages s u.uid) s).kernels = s.kernels := by
  induction rest generalizing s with
  | nil => exact ⟨rfl, rfl, rfl⟩
  | cons a r ih => exact ih _

/-- Taking a trap, from the state in which it has been recorded and counted. -/
theorem takeTrap_eq (s : State) (h : UPart) (rest : List UPart) (sc : Scope) (t : Trap) (w : Warp) (p : Split)
    (hw : s.warps.get? h.uid = some w) (hp : w.splits.get? h.idx = some p) :
    ∃ s0 s1 : State, (s0.warps = s.warps ∧ s0.mem = s.mem ∧ s0.kernels = s.kernels)
      ∧ (s1.warps = s.warps ∧ s1.mem = s.mem ∧ s1.kernels = s.kernels) ∧ takeTrap s (h :: rest) sc t =
      (if p.saved.isSome || (s.parts.get? (s.partOf w)).elim 0 Partition.tvec == 0 then
        abortKernel s0 ((s.blockOf w).elim 0 (·.kernel))
      else (rest.foldl (fun s u => s.mapWarp u.uid fun w => w.suspend u.idx) s1).mapWarp h.uid fun x =>
        x.enterHandler h.idx p t sc (rest.map (·.uid)) ((s.parts.get? (s.partOf w)).elim 0 Partition.tvec)) := by
  let s0 := s.record (Source.core w.core) t.code (s.partOf w) t.tpc (t.info1 ++ t.info0)
  let s2 := if t.code = Code.dataLost then s0.mapPart (s.partOf w) fun p => p.countErr 8 1 else s0
  have h2 : s2.warps = s.warps ∧ s2.mem = s.mem ∧ s2.kernels = s.kernels := by
    show (if _ then _ else _ : State).warps = _ ∧ (if _ then _ else _ : State).mem = _ ∧ (if _ then _ else _ : State).kernels = _
    split
    · unfold State.mapPart
      split <;> exact ⟨rfl, rfl, rfl⟩
    · exact ⟨rfl, rfl, rfl⟩
  have h3 := (s2.event_same w.core 8 1 (some w.block)).1
  let s3 := s2.event w.core (some w.block) 8 1
  have h4 : s3.warps = s.warps ∧ s3.mem = s.mem ∧ s3.kernels = s.kernels := by
    show (s2.event _ _ _ _).warps = _ ∧ (s2.event _ _ _ _).mem = _ ∧ (s2.event _ _ _ _).kernels = _
    rw [h3]
    exact h2
  refine ⟨s3, rest.foldl (fun (s : State) (u : UPart) => dropPages s u.uid) s3, h4, ?_, ?_⟩
  · have h5 := dropPages_all rest s3
    exact ⟨h5.1.trans h4.1, h5.2.1.trans h4.2.1, h5.2.2.trans h4.2.2⟩
  · unfold takeTrap
    simp only [hw, hp, s3, s2, s0]

end Sys2Proof.Machine
end

