-- ==== Sys2Proof/Tests/Slice0.lean ====
section
/-! SUPPORT. Tests: written-out words, ill-formed terms, states that meet the hypotheses of the statements, and single
steps with the results of the manual's worked examples. -/

open Sys2Proof Sys2Proof.Machine

namespace Sys2Proof.Tests

set_option Elab.async false

/-! ## Words written out from the spec's encodings -/

/-- A word by the fields of R201, guard p7: opcode, scope, flag select, D, A, B, last-use bits, C, modifier. -/
def word (op scope flag d a b lu c m : Nat) : Word :=
  BitVec.ofNat 64 (op * 2 ^ 55 + scope * 2 ^ 53 + flag * 2 ^ 51 + 7 * 2 ^ 48 + d * 2 ^ 39 + a * 2 ^ 31 + b * 2 ^ 23
    + lu * 2 ^ 20 + c * 2 ^ 12 + m)

/-- An M-form word by the fields of R36: opcode, flag select, D, A, B, last-use bits, memory scope, ordering, cache
policy, index mode, scale, offset from lit, offset. -/
def mword (op flag d a b lu sc ord cp mode scale lit off : Nat) : Word :=
  word op 0 flag d a b lu 0 (sc * 2 ^ 17 + ord * 2 ^ 15 + cp * 2 ^ 13 + mode * 2 ^ 10 + scale * 2 ^ 8 + lit * 2 ^ 7 + off)

/-- Lane scope, no flag, unguarded. -/
def lane : Head := ⟨.lane, .none, 7, false, false, false, false⟩
/-- Warp scope, no flag, unguarded. -/
def warp : Head := { lane with scope := .warp }
/-- Block scope, no flag, unguarded. -/
def blk : Head := { lane with scope := .block }
/-- Lane scope, flag A, unguarded. -/
def laneA : Head := { lane with flag := .a }
/-- Warp scope, flag A, unguarded. -/
def warpA : Head := { warp with flag := .a }
/-- Block scope, flag B, unguarded. -/
def blkB : Head := { blk with flag := .b }

/-- Whether every word of a list decodes to the instruction beside it. -/
def allDecode (l : List (Word × Instr)) : Bool := l.all fun x => decide (decode x.1 = .ok x.2)

theorem test_decode_arithmetic : allDecode
    [(word 0x000 0 0 1 2 3 0 0 0, .add lane .i32 (.v 1) (.v 2) (.v 3)),
     (word 0x001 0 0 10 0xCC 14 0 0 0, .add lane .i64 (.v 10) (.s 12) (.v 14)),
     (word 0x006 0 0 1 2 3 0 0 0, .sub lane .i16x2 (.v 1) (.v 2) (.v 3)),
     (word 0x009 0 0 1 2 3 0 0 0, .addsat lane .n32 (.v 1) (.v 2) (.v 3)),
     (word 0x00F 0 0 1 2 3 0 0 0, .subsat lane .i8x4 (.v 1) (.v 2) (.v 3)),
     (word 0x010 1 0 0xC5 0xF0 0xF9 0 0 0, .mul warp (.s 5) .lid .ones),
     (word 0x012 0 0 1 2 3 0 0 0, .mulhi lane .n32 (.v 1) (.v 2) (.v 3)),
     (word 0x013 0 0 1 2 3 0 4 0, .mad lane (.v 1) (.v 2) (.v 3) (.v 4)),
     (word 0x014 0 0 10 2 3 0 16 0, .madw lane .i32 (.v 10) (.v 2) (.v 3) (.v 16)),
     (word 0x016 0 0 1 2 3 0 0 0, .idiv lane .i32 (.v 1) (.v 2) (.v 3)),
     (word 0x019 0 0 1 2 3 0 0 0, .irem lane .n32 (.v 1) (.v 2) (.v 3)),
     (word 0x01D 0 0 10 12 14 0 0 0, .min lane .n64 (.v 10) (.v 12) (.v 14)),
     (word 0x021 0 0 1 2 3 0 0 0, .max lane .n32 (.v 1) (.v 2) (.v 3)),
     (word 0x027 0 0 1 2 0 0 0 0, .abs lane .i16x2 (.v 1) (.v 2)),
     (word 0x045 0 0 1 2 3 0 4 1, .dot2 lane (.v 1) (.v 2) (.v 3) (.v 4) true),
     (word 0x048 0 0 1 2 3 0 4 0, .dot4 lane .i8n8 (.v 1) (.v 2) (.v 3) (.v 4) false),
     (word 0x028 0 0 1 2 3 0 4 0, .sad lane (.v 1) (.v 2) (.v 3) (.v 4)),
     (word 0x044 0 0 10 12 3 0 0 6, .lea lane .i32 (.v 10) (.v 12) (.v 3) 2),
     (word 0x049 0 0 1 2 3 0 0 0, .shrr lane (.v 1) (.v 2) (.v 3)),
     (word 0x04B 0 0 1 2 3 0 0 0, .pack lane .i8x4 (.v 1) (.v 2) (.v 3)),
     (word 0x04C 0 0 10 2 0 0 0 0, .unpack lane (.v 10) (.v 2))] = true := by decide +kernel

theorem test_decode_logic : allDecode
    [(word 0x029 0 0 1 2 3 0 4 0xE8, .lop3 lane (.v 1) (.v 2) (.v 3) (.v 4) 0xE8),
     (word 0x02B 0 0 10 12 3 0 0 0, .shl lane true (.v 10) (.v 12) (.v 3)),
     (word 0x02D 0 0 1 2 3 0 0 0, .shr lane .i32 (.v 1) (.v 2) (.v 3)),
     (word 0x030 0 0 1 2 3 0 0 0, .rot lane (.v 1) (.v 2) (.v 3)),
     (word 0x031 0 0 1 2 3 7 4 1, .fsh ⟨.lane, .none, 7, false, true, true, true⟩ (.v 1) (.v 2) (.v 3) (.v 4) true),
     (word 0x033 0 0 1 2 3 0 4 0, .bfx lane .n32 (.v 1) (.v 2) (.v 3) (.v 4)),
     (word 0x034 0 0 1 2 3 1 4 0, .bfi ⟨.lane, .none, 7, false, false, false, true⟩ (.v 1) (.v 2) (.v 3) (.v 4)),
     (word 0x035 0 0 1 2 0 4 0 0, .popc ⟨.lane, .none, 7, false, true, false, false⟩ (.v 1) (.v 2)),
     (word 0x036 0 0 1 2 0 0 0 0, .clz lane (.v 1) (.v 2)), (word 0x037 0 0 1 2 0 0 0 0, .brev lane (.v 1) (.v 2)),
     (word 0x038 0 0 1 2 0 0 0 0, .ffs lane (.v 1) (.v 2))] = true := by decide +kernel

theorem test_decode_predicates_and_moves : allDecode
    [(word 0x03D 0 0 2 4 5 0 0 0x35, .cmp lane .i16x2 2 (.v 4) (.v 5) .ge 3),
     (word 0x03E 0 0 1 2 3 0 0 0xE, .sel lane (.v 1) (.v 2) (.v 3) 6 true),
     (word 0x03F 0 0 1 2 3 0 4 0x96, .plop lane 1 2 3 4 0x96), (word 0x040 0 0 1 0 0 0 0 0, .pmovGet lane (.v 1)),
     (word 0x040 0 0 0 2 0 0 0 0x85, .pmovSet lane (.v 2) 0x42), (word 0x041 0 0 0xF6 0xFC 0 0 0 0, .mov lane .fmt .clk),
     (word 0x042 0 0 1 0 0x12 0 0x34 0x567, .movi lane (.v 1) 0x1234567), (word 0x043 0 0 1 0 0x89 0 0xAB 0xCDE, .movu lane (.v 1) 0x89ABCDE)] = true := by
  decide +kernel

theorem test_decode_other_lanes : allDecode
    [(word 0x052 1 0 1 2 3 0 4 0x29, .shfl warp .down (.v 1) (.v 2) (.v 3) (.v 4) false 5 1),
     (word 0x055 1 0 1 2 3 0 4 5, .slide warp true (.v 1) (.v 2) (.v 3) (.v 4) true 2),
     (word 0x056 1 0 2 3 0 0 0 1, .vote warp (.any 2) 3 true), (word 0x057 1 0 2 3 0 0 0 0, .vote warp (.all 2) 3 false),
     (word 0x058 1 0 0xC2 3 0 0 0 2, .vote warp (.ballot (.s 2) true) 3 false),
     (word 0x059 1 0 1 2 0 0 0 4, .matchLanes warp (.v 1) (.v 2) 4),
     (word 0x05B 2 0 1 2 0 0 0 6, .reduce { lane with scope := .set } .n32 (.v 1) (.v 2) .max true),
     (word 0x05E 1 0 1 2 0 0 0 5, .scan warp .i32 (.v 1) (.v 2) .min true false),
     (word 0x060 1 0 0xC3 2 0 0 0 0, .xpair warp (.s 3) (.v 2)), (word 0x061 1 1 1 2 0 0 0 3, .xswap warpA (.v 1) (.v 2) 3),
     (word 0x062 1 0 1 2 3 0 0xC4 0, .intersect warp (.v 1) (.v 2) (.v 3) (.s 4)),
     (word 0x063 1 0 1 2 0xC7 0 4 0xD, .compact warp (.v 1) (.v 2) (.s 7) (.v 4) 5 true)] = true := by decide +kernel

theorem test_decode_float : allDecode
    [(word 0x080 0 0 1 2 3 0 0 4, .fadd lane .f32 (.v 1) (.v 2) (.v 3) .rne),
     (word 0x084 0 0 1 2 3 0 0 5, .fsub lane .f16x2 (.v 1) (.v 2) (.v 3) .rz),
     (word 0x088 0 0 1 2 3 0 0 6, .fmul lane .bf16x2 (.v 1) (.v 2) (.v 3) .ru),
     (word 0x089 0 0 1 2 3 0 4 7, .ffma lane .f32 (.v 1) (.v 2) (.v 3) (.v 4) .rd),
     (word 0x08C 0 0 1 2 3 0 4 0x18, .ffmaw lane (.v 1) (.v 2) (.v 3) (.v 4) .fmt true true),
     (word 0x08E 0 0 1 2 3 0 0 0, .fmin lane .f16x2 (.v 1) (.v 2) (.v 3)),
     (word 0x08F 0 0 1 2 3 0 0 0, .fmax lane .f32 (.v 1) (.v 2) (.v 3)),
     (word 0x092 0 0 1 2 3 0 0 0x26, .fcmp lane .f16x2 1 (.v 2) (.v 3) .ord 2),
     (word 0x093 0 0 1 2 0 0 0 4, .frnd lane (.v 1) (.v 2) .rne), (word 0x094 0 0 1 2 3 0 0 0, .fscale lane (.v 1) (.v 2) (.v 3) .fmt),
     (word 0x095 0 0 1 2 0 0 0 2, .fclass lane (.v 1) (.v 2) .bf16), (word 0x096 0 0 1 2 0 0 0 5, .frcp lane (.v 1) (.v 2) .rz),
     (word 0x097 0 0 1 2 0 0 0 0, .frsq lane (.v 1) (.v 2)), (word 0x098 0 0 1 2 0 0 0 6, .fsqrt lane (.v 1) (.v 2) .ru),
     (word 0x099 0 0 1 2 0 0 0 0, .fexp2 lane (.v 1) (.v 2)), (word 0x09A 0 0 1 2 0 0 0 0, .flog2 lane (.v 1) (.v 2)),
     (word 0x09B 0 0 1 2 0 0 0 0, .fsin lane (.v 1) (.v 2)), (word 0x09C 0 0 1 2 0 0 0 0, .fcos lane (.v 1) (.v 2)),
     (word 0x09D 0 0 1 2 0 0 0 0, .ftanh lane (.v 1) (.v 2)),
     (word 0x09F 0 0 1 2 3 0 4 0, .fdot2 lane .bf16 (.v 1) (.v 2) (.v 3) (.v 4) .fmt),
     (word 0x0A0 0 0 1 2 3 0 4 7, .fdot4 lane .e4m3 (.v 1) (.v 2) (.v 3) (.v 4) .rd)] = true := by decide +kernel

theorem test_decode_conversions : allDecode
    [(word 0x0B0 0 0 1 2 0 0 0 4, .cvt lane (.f32i32 .rne) (.v 1) (.v 2) (.v 0)),
     (word 0x0B4 0 0 1 2 3 0 0 5, .cvt lane (.f16x2f32 .rz) (.v 1) (.v 2) (.v 3)),
     (word 0x0B7 0 0 1 2 0 0 0 0x10, .cvt lane (.f32bf16 true) (.v 1) (.v 2) (.v 0)),
     (word 0x0B9 0 0 1 2 0 0 0 0x20, .cvt lane (.f32i8 2) (.v 1) (.v 2) (.v 0)),
     (word 0x0BA 0 0 1 12 14 0 4 0xC, .qpack lane (.v 1) (.v 12) (.v 14) (.v 4) .rne true),
     (word 0x0BB 0 0 10 2 3 0 0 0x35, .qunpack lane (.v 10) (.v 2) (.v 3) 3 .rz),
     (word 0x0BC 0 0 1 12 14 0 0 2, .qscale lane .x4 (.v 1) (.v 12) (.v 14)),
     (word 0x0BD 0 0 1 2 0 0 0 8, .fxcvtTo lane (.v 1) (.v 2) true),
     (word 0x0BE 0 0 1 2 0 0 0 7, .fxcvtFrom lane (.v 1) (.v 2) false .rd),
     (word 0x0BF 0 0 1 2 3 0 0 0, .setfmt lane (.v 1) (.v 2) (.v 3))] = true := by decide +kernel

theorem test_decode_memory : allDecode
    [(mword 0x0C4 1 8 0xC2 9 0 1 1 1 3 2 0 0x7F,
       .ld laneA .b128 (.v 8) ⟨.s 2, .n32 (.v 9), .core, .acq, .stream, 2, false⟩ 0x7F),
     (mword 0x0C7 0 5 0xF8 0xC6 1 5 2 3 5 0 1 0, .st ⟨.lane, .none, 7, false, false, false, true⟩ .b32 (.v 5)
       ⟨.zero, .n64 (.s 6), .sys, .rel, .bypass, 0, true⟩ 0),
     (mword 0x0CB 1 0xC4 0xC2 0 0 0 0 0 0 0 0 3, .ldc laneA .b64 (.s 4) ⟨.s 2, .none, .warp, .plain, .normal, 0, false⟩ 3),
     (mword 0x0CD 1 8 0xC2 0xF0 0 0 0 2 4 2 0 0x2F,
       .ldg laneA .b32 (.v 8) 2 ⟨.s 2, .i32 .lid, .warp, .plain, .retain, 2, false⟩ 0xF),
     (mword 0x0D0 0 8 0xC2 9 0 0 0 0 1 3 0 5, .scat lane .b64 (.v 8) ⟨.s 2, .n16 (.v 9), .warp, .plain, .normal, 3, false⟩ 5),
     (mword 0x0D1 1 7 0xC0 9 0 0 0 0 3 1 0 0x10,
       .lde laneA .b32 (.v 7) 1 ⟨.s 0, .n32 (.v 9), .warp, .plain, .normal, 1, false⟩ 0),
     (mword 0x0D4 1 8 0xC0 0 0 0 0 0 0 0 1 0x30, .ldr laneA .b64 (.v 8) 3 ⟨.s 0, .none, .warp, .plain, .normal, 0, true⟩ 0),
     (mword 0x0D5 1 1 0xC0 0 0 0 0 0 0 0 0 1, .ealloc laneA (.v 1) ⟨.s 0, .none, .warp, .plain, .normal, 0, false⟩ 1),
     (mword 0x0D6 0 0 0xC0 0 0 3 2 0 0 0 0 1, .erase lane ⟨.s 0, .none, .die, .rel, .normal, 0, false⟩ 1),
     (mword 0x0D7 0 4 0xC0 0 1 0 0 0 0 0 0 0,
       .eraser ⟨.lane, .none, 7, false, false, false, true⟩ (.v 4) ⟨.s 0, .none, .warp, .plain, .normal, 0, false⟩ 0),
     (mword 0x0D8 1 4 0xC0 0xC3 0 0 0 0 2 0 0 0, .etest laneA (.v 4) ⟨.s 0, .i16 (.s 3), .warp, .plain, .normal, 0, false⟩ 0),
     (mword 0x0F0 2 4 0xC0 0 1 4 3 0 0 0 0 2, .atom ⟨.lane, .b, 7, false, false, false, true⟩ .casB64 (.v 4)
       ⟨.s 0, .none, .pkg, .acqrel, .normal, 0, false⟩ 2),
     (mword 0x0F1 0 0 0 0 0 2 3 0 0 0 0 0, .fence lane .acqrel .gang),
     (word 0x0F2 3 0 0 0 0 0 0 0, .tokenTake blk), (word 0x0F2 3 0 0 0 0 0 0 1, .tokenPass blk),
     (mword 0x0F3 0 0 0xC0 0 0 0 0 2 0 0 0 4, .prefetch lane ⟨.s 0, .none, .warp, .plain, .retain, 0, false⟩ 4),
     (mword 0x0F4 0 9 0xC0 0 0 0 0 2 0 0 0 4, .reserve lane (.v 9) ⟨.s 0, .none, .warp, .plain, .retain, 0, false⟩ 4),
     (mword 0x0F5 0 0 0xC0 0 0 0 0 0 0 0 0 4, .discard lane ⟨.s 0, .none, .warp, .plain, .normal, 0, false⟩ 4),
     (mword 0x0F6 0 0 0xC0 0 0 0 0 0 0 0 0 4, .reqpage lane ⟨.s 0, .none, .warp, .plain, .normal, 0, false⟩ 4)] = true := by
  decide +kernel

theorem test_decode_control : allDecode
    [(BitVec.ofNat 64 (0x100 * 2 ^ 55 + 7 * 2 ^ 48 + 0x2001 * 2 ^ 14 + 0x1002), .bra lane 0x2001 0x1002),
     (word 0x101 0 0 0 0xC6 0 0 0 0x801, .brx lane (.s 6) 0x801),
     (BitVec.ofNat 64 (0x102 * 2 ^ 55 + 7 * 2 ^ 48 + 0xCA * 2 ^ 39 + 0x1ABC * 2 ^ 14 + 3), .call lane (.s 10) 0x1ABC 3),
     (word 0x103 0 0 0xCA 0xC6 0 0 0 5, .callx lane (.s 10) (.s 6) 5), (word 0x104 0 0 0 12 0 4 0 0, .ret { lane with luA := true } (.v 12)),
     (word 0x105 0 0 0 0 0 0 0 0, .exit lane), (word 0x106 0 0 0 0 0 0 0 0, .rejoin lane),
     (word 0x107 1 0 0 0xC6 0 0 0 0, .join warp (.s 6)), (word 0x108 1 0 0 0 0 0 0 0, .leave warp),
     (word 0x109 3 0 0 0 0 0 0 0, .nop blk), (word 0x10A 0 0 0 12 14 0 4 0x2F, .spawn lane (.v 12) (.v 14) (.v 4) 7 5),
     (word 0x10B 0 1 4 12 0 0 0 3, .launch laneA (.v 4) (.v 12) 3), (word 0x10C 0 0 4 5 0 0 0 0xB, .lwait lane (.v 4) (.v 5) 3 true),
     (word 0x10D 0 0 0 12 0 0 0 0x2F, .kinit lane (.v 12) 15 false true),
     (word 0x10E 0 0 0 4 5 0 0 2, .kupd lane false (.v 4) (.v 5) 2 false), (word 0x10F 0 0 0 4 5 0 0 0x10, .kupd lane true (.v 4) (.v 5) 0 true),
     (word 0x110 0 1 4 0 0 0 0 0x13, .kread laneA (.v 4) 3 true), (word 0x111 0 0 4 5 0 0 0 0, .check lane 4 (.v 5))] = true := by
  decide +kernel

theorem test_decode_synchronisation : allDecode
    [(word 0x112 1 0 0 4 5 0 6 0, .abinit warp (.v 4) (.v 5) (.v 6)), (word 0x113 0 0 3 4 5 0 0 0, .abarrive lane (.v 3) (.v 4) (.v 5)),
     (word 0x114 0 0 0 4 5 0 0 1, .abwait lane (.v 4) (.v 5) true), (word 0x115 1 0 0 4 5 0 6 7, .qinit warp (.v 4) (.v 5) (.v 6) 7),
     (word 0x116 1 0 0xC4 0 0 0 0 5, .qacqFree warp (.s 4) 5), (word 0x116 1 0 0xC4 0 0 0 0 0xD, .qacqFull warp (.s 4) 5),
     (word 0x117 1 0 0 0 0 0 0 6, .qrelFull warp 6), (word 0x117 1 0 0 0 0 0 0 0xE, .qrelFree warp 6),
     (word 0x118 0 0 0 0xF8 0 0 0 1, .trap lane .zero 1), (word 0x119 0 0 0 0 0 0 0 0, .tret lane),
     (word 0x11A 0 0 4 0 0 0 0 0xE6, .getsr lane (.v 4) 0xE6), (word 0x11B 0 0 0 4 0 0 0 0xE6, .setsr lane (.v 4) 0xE6),
     (word 0x11C 0 0 0 4 0 0 0 0, .yield lane (.v 4)), (word 0x11D 0 0 0 4 0 0 0 0, .prio lane (.v 4))] = true := by decide +kernel

theorem test_decode_pool_and_engines : allDecode
    [(word 0x140 1 1 4 5 0 0 0 0, .poolset warpA (.v 4) (.v 5)), (word 0x141 3 0 4 0 0 0 0 0x1F, .poolq blk (.v 4) 31),
     (word 0x142 1 0 0 12 5 0 6 3, .stash warp (.v 12) (.v 5) (.v 6) 3), (word 0x143 1 1 0 0 0 0 0 2, .unstash warpA 2),
     (word 0x144 1 0 0x3F 0 0 0 0 0, .talloc warp 63), (word 0x145 1 0 1 0 0 0 0 0, .tfree warp 1),
     (word 0x146 1 1 0 0xC2 5 0 0 0x6C, .cpy warpA .g2s .queue (.reg (.s 2)) (.v 5) (.v 0) false false 5 .core),
     (word 0x14A 1 1 2 0xC6 0xC8 0 0xC9 0x43, .cpy warpA .s2t (.tile 2) (.reg (.s 6)) (.s 8) (.s 9) true true 0 .core),
     (word 0x149 1 1 0xC6 2 5 0 0 0x140, .cpy warpA .t2g (.reg (.s 6)) (.tile 2) (.v 5) (.v 0) false false 0 .sys),
     (word 0x14C 1 1 0xC6 5 6 0 8 0x45, .cpyh warpA (.s 6) (.v 5) (.v 6) (.v 8) 5 .core),
     (word 0x14D 1 1 0 5 6 0 8 0, .binc warpA (.v 5) (.v 6) (.v 8)), (word 0x14E 1 1 0 0 0 0 0 0, .binp warpA),
     (word 0x14F 1 1 0 0 0 0 0 0, .crel warpA), (word 0x150 1 0 0 0xC6 0 0 0 4, .fhnd warp (.s 6) 4),
     (word 0x152 1 1 8 5 6 0 0 0x2C, .fetch warpA .b64 (.v 8) (.v 5) (.v 6) 4 5)] = true := by decide +kernel

theorem test_decode_matrix : allDecode
    [(word 0x188 3 2 3 0 1 0 2 3, .mma blkB .i16 3 0 1 2 true true), (word 0x197 1 1 3 0 1 0 0 1, .mmas warpA .i8 3 0 1 0 true false),
     (word 0x198 1 1 3 0 0 0 0 0, .tzero warpA 3), (word 0x199 1 1 3 5 0 0 0 0, .tfill warpA 3 (.v 5)),
     (word 0x19A 1 1 3 4 0 0 0 0x12, .tcvt warpA 3 4 2 .fx32), (word 0x19B 1 1 3 4 0 0 0 3, .ttrans warpA 3 4 3),
     (word 0x19C 1 1 3 4 5 0 0 2, .tadd warpA 3 4 5 .i32sat), (word 0x19D 1 1 3 4 0 0 0 0xD, .tred warpA (.v 3) 4 true .max .i32),
     (word 0x19E 1 1 3 4 5 0 0 0, .ttov warpA (.v 3) 4 (.v 5)), (word 0x19F 1 1 3 4 5 0 0 0, .vtot warpA 3 (.v 4) (.v 5)),
     (word 0x1A0 1 1 3 4 0xC5 0 0 0x3F, .tlu warpA 3 (.v 4) (.s 5) 31 true),
     (word 0x1A1 1 1 3 4 5 0 0 0x47, .ttrsLower warpA 3 4 (.v 5) 7 false true),
     (word 0x1A2 1 1 3 4 0 0 0 0x21, .ttrsUpper warpA 3 4 1 true),
     (word 0x1A3 1 1 3 4 5 0 0xC6 0xC2, .tjac warpA (.v 3) 4 (.v 5) (.s 6) 2 false 3),
     (word 0x1A4 1 1 3 5 6 0 0 0x20, .tupd warpA 3 (.v 5) (.v 6) true)] = true := by decide +kernel

/-- Words the manual assembles: the text of "One word, decoded", of the clauses of sections 12 to 19, of the escape word
of section 20, of TOKEN in section 21 and of the programs of sections 25 to 30. -/
theorem test_decode_manual_words : allDecode
    [(0x2107640000000020#64, .movi lane (.s 8) 32), (0x21076680000007E0#64, .movi lane (.s 13) 2016),
     (0x09870078E40F0000#64, .mad lane (.v 0) .wid (.s 8) .lid), (0x080704F8E7000000#64, .mul lane (.v 9) .wid (.s 14)),
     (0x800000000FFF4008#64, .bra { lane with guard := 0 } 0x3FFD 8), (0x610F00E000000000#64, .ld laneA .b32 (.v 1)
       ⟨.s 0, .none, .warp, .plain, .normal, 0, false⟩ 0),
     (0x0007018081600000#64, .add { lane with luA := true, luB := true } .i32 (.v 3) (.v 1) (.v 2)),
     (0x638701E200100000#64, .st { lane with luC := true } .b32 (.v 3) ⟨.s 4, .none, .warp, .plain, .normal, 0, false⟩ 0),
     (0x8287000000000000#64, .exit lane), (0x29270282648F8029#64, .shfl warp .down (.v 5) (.v 4) (.s 9) .zero false 5 1),
     (0x4487030384606000#64, .ffma { lane with luA := true, luB := true } .f32 (.v 6) (.v 7) (.v 8) (.v 6) .fmt),
     (0x6C8F6C6300098000#64, .atom laneA .addI32 (.s 24) ⟨.s 6, .none, .pkg, .acqrel, .normal, 0, false⟩ 0),
     (0x8787000587E00010#64, .kupd { lane with luA := true, luB := true } true (.v 11) (.v 15) 0 true),
     (0xA32F68616A0D5042#64, .cpy warpA .g2s (.reg (.s 16)) (.reg (.s 2)) (.s 20) (.s 21) false true 0 .core),
     (0xC0EF018000800000#64, .mma { blk with flag := .a } .f16 3 0 1 0 false false), (0x8C87000000000000#64, .tret lane),
     (0x8C00007C00000001#64, .trap { lane with guard := 0 } .zero 1), (0x7967000000000001#64, .tokenPass blk),
     (0x650F656165800E00#64, .ldc laneA .b32 (.s 10) ⟨.s 2, .n32 (.s 11), .warp, .plain, .normal, 2, false⟩ 0),
     (0x2287018165003001#64, .dot2 lane (.v 3) (.v 2) (.s 10) (.v 3) true),
     (0x2AA70101668F8004#64, .slide warp true (.v 2) (.v 2) (.s 13) .zero false 2),
     (0x1D070065E3000002#64, .cmp lane .n32 0 (.s 11) (.s 6) .lt 0), (0x2D476C0280000000#64, .reduce { lane with scope := .set } .i32
       (.s 24) (.v 5) .add false), (0x8A07007372000000#64, .abwait lane (.s 38) (.s 36) false),
     (0x8500006C0A00802F#64, .spawn { lane with guard := 0 } (.s 24) (.v 20) (.v 8) 7 5),
     (0x858D6A6F00000007#64, .launch { laneA with guard := 5 } (.s 20) (.s 30) 7),
     (0x29A70705728F802F#64, .shfl warp .xor (.v 14) (.v 10) (.s 37) .zero false 5 7),
     (0xA3AF7677F7000040#64, .cpy warpA .s2g (.reg (.s 44)) (.reg (.s 47)) (.s 46) (.v 0) false false 0 .core),
     (0x638765E278830E80#64, .st lane .b32 (.s 11) ⟨.s 4, .n32 .wid, .core, .rel, .normal, 2, true⟩ 0),
     (0x688F03E004800D10#64, .lde laneA .b32 (.v 7) 1 ⟨.s 0, .n32 (.v 9), .warp, .plain, .normal, 1, false⟩ 0),
     (0x738A04E203800E00#64, .atom { laneA with guard := 2 } .orB32 (.v 9)
       ⟨.s 4, .n32 (.v 7), .warp, .plain, .normal, 2, false⟩ 0)] = true := by decide +kernel

/-- Clause headers the manual assembles (R191): count, safe, waits, flags A and B, reconv. -/
theorem test_headers : Header.of 0xF003FF0000000000#64 = ⟨7, true, 3, 15, 15, false, 0, 0⟩
    ∧ Header.of 0x6000010000000000#64 = ⟨3, false, 0, 0, 1, false, 0, 0⟩
    ∧ Header.of 0x20010F0000000000#64 = ⟨1, false, 1, 0, 15, false, 0, 0⟩
    ∧ (Header.of 0xE000FF0000000000#64).legal = true ∧ (Header.of 0x0000FF0000000000#64).legal = false
    ∧ (Header.of 0x2000C10000000000#64).legal = false ∧ (Header.of 0x2000010100000000#64).legal = false := by
  decide +kernel

/-- The reasons a word is no instruction, in the order of R211: the opcode, the form, the operands, the scope. -/
theorem test_decode_refuses :
    (∀ op ∈ [0x04D, 0x04F, 0x064, 0x07F, 0x0A2, 0x0AF, 0x0F7, 0x0FF, 0x11E, 0x13F, 0x153, 0x17F, 0x1A5, 0x1FF],
      decode (word op 0 0 0 0 0 0 0 0) = .ok (.illegalOpcode (word op 0 0 0 0 0 0 0 0)))
    ∧ decode (word 0x000 0 3 1 2 3 0 0 0) = .error .form ∧ decode (word 0x000 0 1 1 2 3 0 0 0) = .error .form
    ∧ decode (word 0x000 0 0 1 2 3 1 0 0) = .error .form ∧ decode (word 0x000 0 0 1 0xC2 3 4 0 0) = .error .form
    ∧ decode (word 0x000 0 0 1 2 3 0 1 0) = .error .form ∧ decode (word 0x000 0 0 1 2 3 0 0 1) = .error .form
    ∧ decode (word 0x039 0 0 1 2 3 0 0 6) = .error .form ∧ decode (word 0x039 0 0 8 2 3 0 0 0) = .error .form
    ∧ decode (word 0x080 0 0 1 2 3 0 0 1) = .error .form ∧ decode (mword 0x0C2 1 1 0xC2 0 0 1 0 0 0 0 0 0) = .error .form
    ∧ decode (mword 0x0C2 1 1 0xC2 0 0 1 2 0 0 0 0 0) = .error .form
    ∧ decode (mword 0x0C2 1 1 0xC2 0 0 0 0 0 6 0 0 0) = .error .form
    ∧ decode (mword 0x0C2 1 1 0xC2 0 0 0 0 0 0 0 1 1) = .error .form
    ∧ decode (mword 0x0C2 1 1 0xC2 4 0 0 0 0 0 0 0 0) = .error .form
    ∧ decode (word 0x000 0 0 0xF0 2 3 0 0 0) = .error (.operand 0xF0 0)
    ∧ decode (word 0x001 0 0 10 13 14 0 0 0) = .error (.operand 13 1)
    ∧ decode (word 0x013 0 0 1 2 3 0 0xFE 0) = .error (.operand 0xFE 3)
    ∧ decode (mword 0x0C2 1 1 0xC3 0 0 0 0 0 0 0 0 0) = .error (.operand 0xC3 1)
    ∧ decode (mword 0x0C2 1 1 0xC2 0xFC 0 0 0 0 3 0 0 0) = .error (.operand 0xFC 2)
    ∧ decode (word 0x11A 0 0 1 0 0 0 0 0x017) = .error (.operand 0x017 5)
    ∧ decode (word 0x198 1 1 64 0 0 0 0 0) = .error (.operand 64 0)
    ∧ decode (word 0x058 0 0 1 2 0 0 0 0) = .error .scope ∧ decode (word 0x112 2 0 0 4 5 0 6 0) = .error .scope := by
  decide +kernel

/-- One ill-formed term for each check of well-formedness. -/
theorem test_illFormed : ∀ i ∈ ([
    .add { lane with flag := .a } .i32 (.v 1) (.v 2) (.v 3), .ld lane .b32 (.v 1) ⟨.s 2, .none, .warp, .plain, .normal, 0, false⟩ 0,
    .vote lane (.any 1) 2 false, .add { lane with luA := true } .i32 (.v 1) (.s 2) (.v 3),
    .add { lane with luB := true } .i32 (.v 1) (.v 2) .lid, .add { lane with luC := true } .i32 (.v 1) (.v 2) (.v 3),
    .mov lane .lid (.v 1), .add lane .i64 (.v 1) (.v 2) (.v 4), .add lane .i64 (.v 2) .lid (.v 4), .add lane .i64 (.v 2) (.v 4) (.s 5),
    .shl lane true (.v 1) (.v 2) (.v 3), .cmp lane .i32 1 (.v 2) (.v 3) .eq 2, .cmp lane .i64 1 (.v 3) (.v 4) .eq 0,
    .shfl warp .idx (.v 1) (.v 2) (.v 3) (.v 4) true 5 7, .vote warp (.ballot .clk false) 1 false, .reduce warp .i32 (.v 1) (.v 2) .add true,
    .scan warp .f32 (.v 1) (.v 2) .min false false, .intersect warp (.v 1) (.v 2) (.v 3) (.s 5),
    .compact warp (.v 1) (.v 2) (.v 3) (.v 4) 0 false, .fcmp lane .f32 1 (.v 2) (.v 3) .eq 2,
    .cvt lane (.f32i32 .fmt) (.v 1) (.v 2) (.v 3), .qpack lane (.v 1) (.v 3) (.v 4) (.v 5) .fmt false,
    .qscale lane .x1 (.v 1) (.v 2) (.v 3), .qscale lane .x2 (.v 1) (.v 3) (.v 0), .ld laneA .b128 (.v 2) ⟨.s 2, .none, .warp, .plain, .normal, 0, false⟩ 0,
    .ld laneA .b32 .bnd ⟨.s 2, .none, .warp, .plain, .normal, 0, false⟩ 0, .ld laneA .b32 (.v 1) ⟨.s 3, .none, .warp, .plain, .normal, 0, false⟩ 0,
    .ld laneA .b32 (.v 1) ⟨.s 2, .n32 .clk, .warp, .plain, .normal, 0, false⟩ 0, .ld laneA .b32 (.v 1) ⟨.s 2, .n64 (.v 1), .warp, .plain, .normal, 0, false⟩ 0,
    .ld laneA .b32 (.v 1) ⟨.s 2, .none, .core, .plain, .normal, 0, false⟩ 0, .ld laneA .b32 (.v 1) ⟨.s 2, .none, .core, .rel, .normal, 0, false⟩ 0,
    .ld laneA .b32 (.v 1) ⟨.s 2, .none, .warp, .plain, .normal, 0, true⟩ 1, .ldg laneA .b32 (.v 1) 2 ⟨.s 2, .none, .warp, .plain, .normal, 0, false⟩ 0,
    .scat lane .b32 (.v 1) ⟨.s 2, .n32 (.v 3), .warp, .plain, .normal, 0, true⟩ 0, .lde laneA .b32 (.v 1) 2 ⟨.s 2, .none, .warp, .plain, .normal, 0, true⟩ 3,
    .fence lane .plain .gang, .spawn lane (.v 2) (.v 190) (.v 4) 0 3, .spawn lane (.v 2) (.v 4) (.v 4) 0 0, .launch laneA .kw (.v 2) 0,
    .getsr lane (.v 1) 0x017, .setsr lane (.v 1) 0x110, .cpy warpA .s2g .queue (.reg (.s 2)) (.v 5) (.v 0) false false 0 .core,
    .cpy warpA .g2s (.tile 1) (.reg (.s 2)) (.v 5) (.v 0) false false 0 .core, .cpy warpA .g2s (.reg (.s 1)) (.reg (.s 3)) (.v 5) (.v 0) false false 0 .core,
    .cpy warpA .g2s (.reg (.s 1)) (.reg (.s 2)) (.v 6) (.v 0) true false 0 .core, .cpy warpA .g2s (.reg (.s 1)) (.reg (.s 2)) (.v 5) (.v 7) false false 0 .core,
    .cpy warpA .g2s (.reg (.s 1)) (.reg (.s 2)) (.v 5) (.v 0) false false 3 .core, .cpyh warpA (.s 2) (.v 1) (.v 2) (.v 3) 1 .core,
    .fetch warpA .b64 (.v 3) (.v 1) (.v 2) 0 0, .mma warpA .f16 1 2 3 0 true false, .mma warpA .f16 1 2 3 4 false false,
    .mmas warpA .f16 1 2 3 0 true false, .tlu warpA 1 (.s 2) (.s 3) 0 false, .tlu warpA 1 (.v 2) (.v 3) 0 false,
    .ttrsLower warpA 1 2 (.v 3) 0 false false, .tjac warpA (.v 1) 2 (.v 3) (.s 5) 0 false 0,
    .illegalOpcode (word 0x000 0 0 0 0 0 0 0 0)] : List Instr), i.wf = false := by decide +kernel
/-! ## States that meet the hypotheses of the statements -/

/-- The state in which the next step executes a word placed at reset: what its fetch leaves. -/
def stand (i : Instr) : State :=
  match nextMove (State.reset.withFetchWord 64 ((encode i).elim 0 (·.toNat))) with
  | .run j s => if j = i then s else State.reset
  | .rest _ => State.reset

/-- Whether a word issues in a state made from the one its fetch leaves, under a premise, with a kernel whose peak no
issue can exceed. -/
def meets (i : Instr) (f : State → State) (pre : State → IssueUnit → State → Bool) : Bool :=
  match (f (stand i)).issues i with
  | some (s1, u) => pre s1 u (emptied i u s1) && s1.peakOf u.kernel == 192
  | none => false

theorem rowsMapped_le (w : Warp) : w.rowsMapped ≤ 192 :=
  Nat.le_trans (List.length_filter_le ..) (Nat.le_of_eq List.length_range)

/-- What `meets` shows: the hypotheses of `Does`, `Ends`, `Goes`, `Stalls` and `Traps` hold together. -/
theorem meets_sound {i f pre} (h : meets i f pre = true) :
    ∃ (s s1 : State) (u : IssueUnit), s.issues i = some (s1, u) ∧ pre s1 u (emptied i u s1) = true ∧ ∀ t, overPeak s1 t u = none := by
  unfold meets at h
  split at h
  · rename_i s1 u e
    simp only [Bool.and_eq_true, beq_iff_eq] at h
    refine ⟨_, _, _, e, h.1, fun t => ?_⟩
    unfold overPeak
    rw [List.findSome?_eq_none_iff]
    intro x _
    split
    · rename_i w w1 _ _
      have := rowsMapped_le w1
      rw [if_neg (by simp only [decide_eq_true_eq]; omega)]
    · rfl
  · cases h

/-- A scalar register of the placed warp. -/
def setS (n : Nat) (x : Half) (s : State) : State := s.mapWarp 1 fun w => { w with sregs := w.sregs.put n x }
/-- A pair of scalar registers of the placed warp. -/
def setS2 (n : Nat) (x : Word) (s : State) : State := setS (n + 1) (hi32 x) (setS n (lo32 x) s)
/-- The placed block. -/
def inBlock (f : Block → Block) (s : State) : State := s.mapBlock 1 f
/-- The literal of the placed clause. -/
def setLit (x : Half) (s : State) : State := s.mapSplit 1 0 fun p => { p with header := hi32 p.header ++ x }

/-- Room for the results of an issue: eight more rows stay within the peak. -/
def roomy (s : State) (u : IssueUnit) (_ : State) : Bool :=
  u.parts.all fun x => (s.warps.get? x.uid).elim true fun w => decide (w.rowsMapped + 8 ≤ s.peakOf u.kernel)

/-- The hypotheses of `Computes` hold together for up to eight results. -/
theorem roomy_sound {i f} (h : meets i f roomy = true) :
    ∃ (s s1 : State) (u : IssueUnit), s.issues i = some (s1, u) ∧ ∀ ws : List RegResult, ws.length ≤ 8 → u.room s1 ws := by
  obtain ⟨s, s1, u, e, p, -⟩ := meets_sound h
  refine ⟨s, s1, u, e, fun ws l x hx w hw => .inr ?_⟩
  have q := List.all_eq_true.mp p x hx
  rw [hw] at q
  have n : w.newRows ws ≤ ws.length := List.length_filter_le ..
  have q' : w.rowsMapped + 8 ≤ s1.peakOf u.kernel := by simpa using q
  omega

/-- The instructions of a list issue with room. -/
def allRoomy (l : List Instr) : Bool := l.all fun i => meets i id roomy

theorem witness_IntegerArithmetic : allRoomy
    [.add lane .i32 (.v 1) (.v 2) (.v 3), .add lane .i64 (.v 2) (.v 4) (.v 6), .subsat lane .i8x4 (.v 1) (.v 2) (.v 3),
     .min lane .n64 (.v 2) (.v 4) (.v 6), .abs lane .i32 .zero .lid, .mulhi lane .i32 (.s 1) .lid .ones,
     .madw lane .n32 (.v 190) (.v 2) (.v 3) (.s 46), .idiv lane .i32 (.v 191) .lid .zero,
     .dot4 lane .n8 (.v 1) (.v 2) (.v 3) (.v 4) true, .sad lane (.v 1) (.v 2) (.v 3) (.v 4)] = true := by decide +kernel
theorem witness_LogicShiftsAndFields : allRoomy
    [.lop3 lane (.v 1) (.v 2) (.v 3) (.v 4) 0xE8, .shl lane true (.v 2) (.v 4) (.v 3), .shr lane .i64 (.v 2) (.v 4) (.v 3),
     .fsh lane (.v 1) (.v 2) (.v 3) (.v 4) true, .bfx lane .i32 (.v 1) (.v 2) (.v 3) (.v 4), .ffs lane (.v 1) .zero] = true := by
  decide +kernel
theorem witness_ComparesAndPredicates : allRoomy
    [.cmp lane .i16x2 1 (.v 2) (.v 3) .lt 2, .cmp lane .i64 7 (.v 2) (.v 4) .eq 0, .sel lane (.v 1) (.v 2) (.v 3) 0 true,
     .plop lane 1 2 3 7 0x96, .pmovGet lane (.v 1), .pmovSet lane (.v 1) 0x7F, .check lane 1 (.v 2)] = true := by decide +kernel
theorem witness_Moves : allRoomy [.mov lane .bnd .lid, .mov lane .fst .zero, .movi lane (.s 1) 0xFFFFFFF, .movu lane .kw 1] = true := by
  decide +kernel
theorem witness_OtherLanesAndLists : allRoomy
    [.shfl warp .xor (.v 1) (.v 2) (.v 3) (.v 4) false 0 1, .slide warp true (.v 1) (.v 2) (.v 3) (.v 4) true 2,
     .vote warp (.all 1) 2 true, .vote warp (.ballot (.s 1) true) 2 false, .matchLanes warp (.v 1) (.v 2) 7,
     .intersect warp (.v 1) (.v 2) (.v 3) (.s 46), .compact warp (.v 1) (.v 2) (.s 0) (.v 3) 1 true] = true := by decide +kernel
theorem witness_ReductionsAndScans : allRoomy
    [.reduce warp .i32 (.s 1) .lid .max false, .reduce warp .i64 (.v 2) (.v 4) .min false, .reduce warp .f32 (.v 1) (.v 2) .add false,
     .scan warp .i32 (.v 1) .lid .add true false, .scan warp .f32 (.v 1) (.v 2) .add false false] = true := by decide +kernel
theorem witness_FloatArithmetic : allRoomy
    [.fadd lane .f32 (.v 1) (.v 2) (.v 3) .rd, .fmul lane .bf16x2 (.v 1) (.v 2) (.v 3) .fmt,
     .ffma lane .f16x2 (.v 1) (.v 2) (.v 3) (.v 4) .rz, .ffmaw lane (.v 1) (.v 2) (.v 3) (.v 4) .ru true false,
     .fdot2 lane .f16 (.v 1) (.v 2) (.v 3) (.v 4) .rne, .fdot4 lane .e5m2 (.v 1) (.v 2) (.v 3) (.v 4) .fmt] = true := by decide +kernel
theorem witness_FloatComparesAndFunctions : allRoomy
    [.fmin lane .f32 (.v 1) (.v 2) (.v 3), .fcmp lane .f16x2 1 (.v 2) (.v 3) .uno 7, .frnd lane (.v 1) (.v 2) .rne,
     .fscale lane (.v 1) (.v 2) (.v 3) .fmt, .fclass lane (.v 1) (.v 2) .f16, .frcp lane (.v 1) .zero .ru, .fsqrt lane (.v 1) (.v 2) .fmt,
     .frsq lane (.v 1) (.v 2), .ftanh lane (.v 1) (.v 2)] = true := by decide +kernel
theorem witness_Conversions : allRoomy
    [.cvt lane (.bf16x2f32 .rz) (.v 1) (.v 2) (.v 3), .cvt lane (.f32i8 3) (.v 1) (.v 2) (.v 0), .fxcvtTo lane (.v 1) (.v 2) true,
     .fxcvtFrom lane (.v 1) (.v 2) false .fmt, .qscale lane .x4 (.v 1) (.v 2) (.v 4), .qpack lane (.v 1) (.v 2) (.v 4) (.v 6) .fmt true,
     .qunpack lane (.v 2) (.v 4) (.v 5) 3 .fmt] = true := by decide +kernel
theorem witness_LeaAndPacking : allRoomy
    [.lea lane .i32 (.v 2) (.v 4) (.v 6) 3, .pack lane .i16x2 (.v 1) (.v 2) (.v 3), .unpack lane (.v 2) (.v 4)] = true := by decide +kernel

/-! ### Memory -/

/-- All of some facts. -/
def allHold (l : List Bool) : Bool := l.all id

/-- The placed state with a command in flight, number 5. -/
def inFlight (w : Work) : State := { stand (.nop lane) with pend := [(5, ⟨0, [(1, allLanes)], 0, 5, 0, 1, [], none, w, [], false⟩)] }

/-- The state a word leaves, or the state before. -/
def after (i : Instr) (s : State) : State :=
  match exec i s with
  | .next t => t
  | _ => s

/-- The placed page, at an offset, in the pair s2. -/
def page (x : Word) (s : State) : State := setS2 2 (textVa + x) s
/-- The address fields with the base in s2 and no index. -/
def base2 : Addr := ⟨.s 2, .none, .warp, .plain, .normal, 0, false⟩
/-- The same, with a lane's number as the index, scaled by 8. -/
def perLane : Addr := { base2 with index := .n32 .lid, scale := 3 }
/-- The same, for a guarded access, whose bound is in lit. -/
def bounded : Addr := perLane
/-- The address fields of an atomic. -/
def atomAt : Addr := { base2 with mscope := .die, order := .acqrel }
/-- The base of the placed sparse region. -/
def regionVa : Word := 0x50000000000#64
/-- A sparse region with storage for two tiles of 256 bytes, mapped by a leaf of type 1, its base in s2. -/
def withRegion (s : State) : State :=
  setS2 2 regionVa (s.mapPart 0 fun p => { p with
    tlb := [(tlbKey 0 textVa, ⟨textLeaf, 0⟩), (tlbKey 0 regionVa, ⟨0x3E7#64, 1⟩)]
    regions := [(0, ⟨regionVa, 1, 4, 0, 0, 0, 0xDEADBEEF#32, true, 0, [], [], [(0, 0x20000, 256), (0, 0x20100, 256)], []⟩)] })
/-- The same with its first tile existing. -/
def withTile (s : State) : State :=
  (withRegion s).mapPart 0 fun p => { p with regions := p.regions.mapV fun _ g =>
    { g with tiles := [(0, 0x20000)], count := 1, carve := [(0, 0x20100, 256)] } }

/-- A state whose caches below the L1 hold nothing. -/
def cold (s : State) : State := s.mapPart 0 fun p => { p with l2 := [], llc := [] }
/-- The placed page mapped by tables in memory, below an ASID table at 0x100000, with nothing cached. -/
def withTables (s : State) : State :=
  { s.mapPart 0 (fun p => { p with sysregs := p.sysregs.put 0x0C8 0x100000, tlb := [] }) with
    mem := [(0x100000, 0x104001), (0x104000, 0x106001), (0x106200, 0x108001), (0x108000, 0x10A001), (0x10A000, textLeaf.toNat)].foldl
      (fun m x => setCells m (cellsFrom x.1 (leBytes 8 x.2))) s.mem }
/-- Lanes of a read whose checks find no cause. -/
def passes (r : State) (u : IssueUnit) (as : List LaneAcc) : Bool :=
  decide (u.lanes ≠ [] ∧ readsPending r u = false ∧ accessTrap u r as = none)
/-- A write of an ordering that waits for nothing. -/
def mayWrite (r : State) (u : IssueUnit) (o : Order) : Bool := decide (u.lanes ≠ [] ∧ writeWait u r o = none)
/-- A write that no re-establishment keeps waiting. -/
def noSpan (r : State) (u : IssueUnit) (as : List (UPart × Nat × Word)) : Bool :=
  decide (spanWait r u.part u.asid (as.map (·.2.2)) = none)
/-- The premise of a load. -/
def loads (acc : Acc) (m : Addr) (off : Int) (n : Nat) (r : State) (u : IssueUnit) (w : State) : Bool :=
  passes r u (checkLanes u n n acc w (u.addrs r m off n)).2
/-- The premise of a store to some addresses. -/
def stores (n : Nat) (as : State → IssueUnit → List (UPart × Nat × Word)) (r : State) (u : IssueUnit) (w : State) : Bool :=
  let c := checkLanes u n n .store w (as r u)
  let got := takeFaulted c.1 (missingLines c.1 u.part true n c.2)
  let born := births true got u.part (tilesOf c.2) []
  noSpan r u (as r u) && mayWrite r u .plain && (c.2.all fun a => tileReserved c.1 u.part a.place == false)
    && decide (accessTrap u r c.2 = none ∧ missingLines got u.part true n c.2 = [] ∧ existFullTrap u r c.2 born.2 = none)
/-- The addresses of guarded lanes. -/
def inside (m : Addr) (off : Int) (n : Nat) (r : State) (u : IssueUnit) : List (UPart × Nat × Word) :=
  (u.addrs r m off n).filter fun x => inBound u r m x.1 x.2.1
/-- The premise of an ATOM. -/
def atoms (m : Addr) (off : Int) (n : Nat) (r : State) (u : IssueUnit) (w : State) : Bool :=
  let c := checkLanes u n n .atom w (u.addrs r m off n)
  noSpan r u (u.addrs r m off n) && mayWrite r u m.order && (c.2.all fun a => atomWait c.1 u.part a == none)
    && decide (accessTrap u r c.2 = none ∧ existFullTrap u r c.2 (births false c.1 u.part (tilesOf c.2) []).2 = none)

theorem witness_Loads : allHold
    [meets (.ld laneA .b64 (.v 8) perLane 63) (page 0x100) (loads .load perLane 63 8),
     meets (.ld laneA .b8 (.v 191) base2 127) (page 0x100) (loads .load base2 (-1) 1),
     meets (.ldc laneA .b128 (.s 8) base2 1) (page 0xFFE0) fun r u w =>
      passes r u (checkLanes u 16 16 .load w ((u.addrs r base2 1 16).take 1)).2,
     meets (.ldg laneA .b32 (.v 8) 1 bounded 0) (fun s => setLit 5 (page 0x100 s)) fun r u w =>
      passes r u (checkLanes u 4 4 .load w (inside bounded 0 4 r u)).2,
     meets (.ldr laneA .b64 (.v 8) 1 perLane 0) (page 0x100) (loads .ldr perLane 0 8),
     meets (.lde laneA .b32 (.v 8) 1 perLane 0) withTile (loads .lde perLane 0 4),
     [false, true].all fun lde => let c : LoadCmd := ⟨.v 8, 4, none, if lde then 0x0D1 else 0x0B2, [⟨1, 0, 0, textVa, .bytes [1, 2, 3, 4], true⟩]⟩
      ((inFlight (.load c)).pend.get? 5).isSome && c.ready && c.exist == lde,
     ((inFlight (.result .exist ⟨[], [], [], 0, none⟩)).pend.get? 5).isSome] = true := by decide +kernel
theorem witness_StoresWrite : allHold
    [meets (.st lane .b32 (.v 8) perLane 0) (page 0x100) (stores 4 fun r u => u.addrs r perLane 0 4),
     meets (.st lane .b64 (.v 8) perLane 0) withTile (stores 8 fun r u => u.addrs r perLane 0 8),
     meets (.st lane .b32 (.v 8) base2 127) (page 0x104) (stores 4 fun r u => u.addrs r base2 (-1) 4),
     meets (.scat lane .b32 (.v 8) bounded 0) (fun s => setLit 5 (page 0x100 s)) (stores 4 (inside bounded 0 4)),
     meets (.scat lane .b64 (.v 8) bounded 0) (page 0x100) (stores 8 (inside bounded 0 8))] = true := by decide +kernel
theorem witness_Atomics : allHold
    [meets (.atom laneA .addI32 (.v 8) atomAt 0) (page 0x100) (atoms atomAt 0 4),
     meets (.atom laneA .casB64 (.v 8) atomAt 0) withTile (atoms atomAt 0 8),
     [(.phys 0x10100 none, true), (.fabric 0x100 none, false)].all fun x =>
      let ls : List AtomLane := [⟨1, 0, 0, textVa, x.1, 1, 0, none⟩]
      let s := inFlight (.atom .maxN64 (.v 8) ls)
      (s.pend.get? 5).any (fun q => q.work == .atom .maxN64 (.v 8) ls)
        && ((performLanes 5 0 1 (s.asidOfBlock 1) .maxN64 s ls).2.all fun a => a.got.isSome) == x.2] = true := by decide +kernel
theorem witness_ExistenceInstructions : allHold
    [meets (.ealloc laneA (.v 8) base2 0) withTile (fun r u w =>
      let c := checkLanes u 256 256 .exist w (u.addrs r base2 0 256)
      mayWrite r u base2.order && (c.2.all fun a => tileReserved c.1 u.part a.place == false)
        && decide (eallocTrap u r c.2 (births true c.1 u.part (tilesOf c.2) []).2 = none)),
     meets (.etest laneA (.v 8) base2 1) withTile (fun r u w => passes r u (checkLanes u 256 256 .etest w (u.addrs r base2 1 256)).2),
     meets (.erase lane base2 0) withTile (fun r u w =>
      let c := checkLanes u 256 256 .exist w (u.addrs r base2 0 256)
      let d := addCauses c.2 fun a => eraseCause c.1 u.part a 1
      mayWrite r u base2.order && decide (accessTrap u r d = none) && d.all fun a => anyReserved c.1 u.part a.place 1 == false),
     meets (.eraser lane (.v 8) base2 0) withTile (fun r u w =>
      let c := checkLanes u 256 256 .exist w (u.addrs r base2 0 256)
      let d := addCauses c.2 fun a => eraseCause c.1 u.part a (u.read r a.part (.v 8) a.lane).toNat
      mayWrite r u base2.order && decide (accessTrap u r d = none) && d.all fun a => anyReserved c.1 u.part a.place 0 == false)] = true := by decide +kernel
theorem witness_OrderingAndResidency : allHold
    [meets (.fence lane .acqrel .sys) id (fun r u _ => decide (u.lanes ≠ [] ∧ accessesPending r u = false)),
     meets (.fence lane .rel .warp) (fun s => after (.atom laneA .addI32 (.v 8) atomAt 0) (page 0 s)) (fun r u _ =>
      decide (u.lanes ≠ [] ∧ accessesPending r u = true)),
     meets (.tokenTake blk) (fun s => s.mapKernel 1 fun k => { k with det := true }) (fun r u _ =>
      decide (u.lanes ≠ [] ∧ tokenCode r u = none ∧ holdsToken r u = true)),
     meets (.tokenTake blk) (fun s => inBlock (fun b => { b with rank := 1 }) (s.mapKernel 1 fun k => { k with det := true }))
      (fun r u _ => decide (u.lanes ≠ [] ∧ tokenCode r u = none ∧ holdsToken r u = false)),
     meets (.tokenPass blk) (fun s => s.mapKernel 1 fun k => { k with det := true }) (fun r u _ =>
      decide (u.lanes ≠ [] ∧ tokenCode r u = none ∧ holdsToken r u = true ∧ engineBusy r u.block = false ∧ accessesPending r u = false)),
     meets (.prefetch lane perLane 0) (page 0) (fun r u _ => decide (canonTrap u r (u.addrs r perLane 0 128) = none)),
     meets (.reserve lane (.v 8) base2 0) (setS2 2 0xFFFFFFFFFFFFFF) (fun r u _ =>
      decide (canonTrap u r (u.addrs r base2 0 128) = none)),
     meets (.discard lane base2 0) (fun s => page 0 (withTables s)) (fun r u w => mayWrite r u base2.order
      && decide (accessTrap u r (checkLanes u 1 1 .discard w (u.addrs r base2 0 65536)).2 = none ∧ spanFull r u.part = false)),
     meets (.reqpage lane base2 0) (page 0) (fun r u w =>
      decide (accessTrap u r (checkLanes u 1 1 .reqpage w (u.addrs r base2 0 65536)).2 = none))]
    = true := by decide +kernel
theorem witness_AccessChecksTrap : allHold
    [meets (.ld laneA .b64 (.v 8) base2 0) (page 4) (fun r u w => decide (u.lanes ≠ [] ∧ readsPending r u = false
      ∧ (accessTrap u r (checkLanes u 8 8 .load w (u.addrs r base2 0 8)).2).isSome)),
     meets (.st lane .b32 (.v 8) base2 0) (setS2 2 (1#64 <<< 56)) (fun r u w => noSpan r u (u.addrs r base2 0 4) && decide (u.lanes ≠ [] ∧ writeWait u r base2.order = none
      ∧ (accessTrap u r (checkLanes u 4 4 .store w (u.addrs r base2 0 4)).2).isSome)),
     meets (.ldc laneA .b32 (.s 8) base2 0) (setS2 2 0x60000000000) (fun r u w => decide (u.lanes ≠ [] ∧ readsPending r u = false
      ∧ (accessTrap u r (checkLanes u 4 4 .load w ((u.addrs r base2 0 4).take 1)).2).isSome)),
     meets (.atom laneA .addI32 (.v 8) atomAt 0) (page 2) (fun r u w => noSpan r u (u.addrs r atomAt 0 4) && decide (u.lanes ≠ [] ∧ writeWait u r atomAt.order = none
      ∧ (accessTrap u r (checkLanes u 4 4 .atom w (u.addrs r atomAt 0 4)).2).isSome)),
     let s := (stand (.nop lane)).mapPart 0 fun p => { p with tlb := [(tlbKey 0 textVa, ⟨0x69#64, 0⟩)] }
     nonResident s 0 0 textVa && !nonResident (stand (.nop lane)) 0 0 (textVa + 2)] = true := by decide +kernel
theorem witness_StoresAndLoadsFrame : allHold
    [meets (.st lane .b32 (.v 8) base2 0) (page 0x100) (fun r u w =>
      stores 4 (fun r u => u.addrs r base2 0 4) r u w
        && decide (missingLines (checkLanes u 4 4 .store w (u.addrs r base2 0 4)).1 u.part true 4
          (checkLanes u 4 4 .store w (u.addrs r base2 0 4)).2 = [])),
     meets (.ld laneA .b32 (.v 8) base2 0) (page 0x100) (loads .load base2 0 4),
     let s := stand (.nop lane)
     ((s.parts.get? 0).bind fun p => p.tlb.get? (tlbKey 0 textVa)).any fun e => ebit e.leaf 9 && !ebit e.leaf 18 && ebit e.leaf 8
      && (resolve s 0 0 1 textVa 8 .store).isOk] = true := by decide +kernel
theorem witness_NonCanonicalAddressesFault : (1#64 <<< 56).toNat / 2 ^ 56 ≠ 0 := by decide
theorem witness_WordsWithoutLanes : allHold
    [meets (.ld { laneA with guard := 0 } .b32 (.v 8) base2 0) id (fun _ u _ => decide (u.lanes = [])),
     meets (.mma { blkB with guard := 0 } .f32 0 1 2 0 false false) id (fun _ u _ => decide (u.lanes = [])),
     meets (.exit { lane with guard := 0 }) id (fun _ u _ => decide (u.lanes = [])),
     meets (.fence { lane with guard := 0 } .acqrel .sys) id (fun _ u _ => decide (u.lanes = [])),
     meets (.callx { lane with guard := 0 } (.s 4) (.s 2) 3) id (fun _ u _ => decide (u.lanes = [])),
     meets (.tlu { warpA with guard := 0 } 3 (.v 4) (.s 5) 31 true) id (fun _ u _ => decide (u.lanes = [])),
     meets (.kupd { lane with guard := 0 } true (.v 4) (.v 5) 15 true) id (fun _ u _ => decide (u.lanes = []))] = true := by decide +kernel

/-! ### Control, launching, synchronisation -/

/-- The placed split. -/
def inSplit (f : Split → Split) (s : State) : State := s.mapSplit 1 0 f
/-- The placed split in supervisor mode. -/
def superv (s : State) : State := inSplit (fun p => { p with saved := some ⟨[], 0, 0, .lane, [], textVa, textVa, 1⟩ }) s
/-- A wait of the placed split. -/
def waiting (x : Wait) (s : State) : State := inSplit (fun p => { p with wait := x }) s
/-- Predicate p1 of the placed warp holds in its even lanes. -/
def evenLanes (s : State) : State := s.mapWarp 1 fun w => { w with preds := w.preds.put 1 0x55555555 }
/-- The kernel of the placed block. -/
def inKernel (f : Kernel → Kernel) (s : State) : State := s.mapKernel 1 f
/-- The placed warp is in a set. -/
def inSet (k : Nat) (s : State) : State :=
  inBlock (fun b => { b with sets := [(k, [1])] }) (s.mapWarp 1 fun w => { w with setId := some (k, 0) })

/-- Whether a unit has not waited at its word for what the word itself waits for. -/
def newly (r : State) (u : IssueUnit) : Bool := match u.waitOf r with
  | .lwait _ | .kinit _ _ | .command _ | .xpair _ | .abwait _ _ _ _ => false
  | _ => true
/-- The condition of the register forms of branches. -/
def agrees (a : Reg) (r : State) (u : IssueUnit) : Bool :=
  let t := u.once64 r a
  decide (u.lanes ≠ [] ∧ t.toNat % 8 = 0) && u.lanes.all fun x => u.read64 r x.1 a x.2 == t

theorem witness_Branches : allHold
    [meets (.bra lane 1 8) id (fun _ u w => decide (u.lanes ≠ []) && (branchMoves u w (u.offsetPc 1#14) (u.rpc 8#14)).isOk),
     meets (.bra { lane with guard := 1 } 0x3FFF 0) evenLanes (fun _ u w => decide (u.lanes ≠ [] ∧ u.parts.all (fun x =>
      x.act != 0 && x.live &&& ~~~x.act != 0)) && (branchMoves u w (u.offsetPc 0x3FFF#14) (u.rpc 0#14)).isOk),
     meets (.call lane (.s 4) 0x1FFF 0) id (fun _ u w => decide (u.lanes ≠ []) && (branchMoves u
      (u.write64 w (.s 4) fun _ _ => u.nextPc) (u.offsetPc 0x1FFF#14) (u.rpc 0#14)).isOk),
     meets (.brx lane (.s 2) 3) (page 0x80) (fun r u w => agrees (.s 2) r u && (branchMoves u w (u.once64 r (.s 2)) (u.rpc 3#12)).isOk),
     meets (.ret lane (.s 2)) (page 0x80) (fun r u w => agrees (.s 2) r u && (branchMoves u w (u.once64 r (.s 2)) none).isOk),
     meets (.callx lane (.s 4) (.s 2) 3) (page 0x80) (fun r u w => agrees (.s 2) r u
      && (branchMoves u (u.write64 w (.s 4) fun _ _ => u.nextPc) (u.once64 r (.s 2)) (u.rpc 3#12)).isOk)] = true := by decide +kernel
theorem witness_EndsRejoinsAndSets : allHold
    [meets (.exit lane) id (fun r u _ => decide (u.lanes ≠ [] ∧ unitFlagsSet r u = true ∧ (u.super = true ∨ unitRecords r u = []))),
     meets (.exit { lane with guard := 1 }) evenLanes (fun r u _ => decide (u.lanes ≠ [] ∧ unitFlagsSet r u = true
      ∧ (u.super = true ∨ unitRecords r u = []))),
     meets (.exit lane) (fun s => s.mapWarp 1 fun w => { w with flags := [(11, ⟨1, none⟩)] }) (fun r u _ =>
      decide (u.lanes ≠ [] ∧ unitFlagsSet r u = false)),
     meets (.rejoin lane) (inSplit fun p => { p with divs := [⟨1, some textVa, 0, 0⟩] }) (fun r u w => decide (u.lanes ≠ [])
      && (u.parts.all fun x => x.act == 0 || (rejoinPc r x).isSome)
      && (moveParts (fun p q => q.goto ((rejoinPc r p).getD 0)) (fun _ q => q.goto u.nextPc) (noteConflict w u) u.parts).isOk),
     meets (.join warp (.s 6)) (setS 6 7) (fun r u _ => u.lead.any fun x => decide ((u.read r x.1 (.s 6) x.2).toNat < 8
      ∧ ((r.warps.get? x.1.uid).bind (·.setId)) = none
      ∧ (((r.blocks.get? u.block).bind fun b => b.sets.get? 7).getD []).length < 16)),
     meets (.leave warp) (inSet 7) (fun r u _ => u.lead.any fun x =>
      ((r.warps.get? x.1.uid).bind (·.setId)) == some (7, 0))] = true := by decide +kernel
theorem witness_TrapAndReturnWords : allHold
    [meets (.trap { lane with guard := 1 } .lid 0xFFF) (fun s => evenLanes (s.mapPart 0 fun p => p.write 0x010 0x100)) (fun _ u w =>
      decide (u.lanes ≠ []) && (moveParts (fun _ q => q) (fun _ q => q.goto u.nextPc) w u.parts).isOk),
     meets (.tret lane) superv (fun _ u _ => u.lead.isSome)] = true := by decide +kernel
theorem witness_Launching : allHold
    [meets (.spawn lane (.s 2) (.s 4) (.v 4) 1 8) (page 0x100) (fun r u _ => decide (u.lanes ≠ [] ∧ 8 ≤ r.peakOf u.kernel
      ∧ accessTrap u r (spawnEntries u r (.s 2)) = none)),
     meets (.spawn lane (.s 2) (.v 0) (.v 4) 1 0) (page 8) (fun r u _ => decide (u.lanes ≠ [] ∧ 0 ≤ r.peakOf u.kernel
      ∧ accessTrap u r (spawnEntries u r (.s 2)) = none)),
     meets (.launch laneA (.v 4) (.s 2) 3) (page 0x80) (fun r u w => decide (u.lanes ≠ []
      ∧ accessTrap u r (launchCauses (checkLanes u 128 128 .load w (u.lanes.map fun x => (x.1, x.2, u.read64 r x.1 (.s 2) x.2))).2) = none)),
     let s := inFlight (.launch (.v 4) 3 1 [⟨1, 0, 0, textVa, .phys 65536 none, 0, 0, none⟩])
     (s.pend.get? 5).any fun q => launchWaits s q [⟨1, 0, 0, textVa, .phys 65536 none, 0, 0, none⟩] == false,
     meets (.lwait lane (.v 4) (.v 5) 3 true) id (fun _ u _ => decide (u.lanes ≠ [])),
     meets (.lwait lane (.v 4) (.v 5) 3 false) (waiting (.lwait [⟨1, 0, 4095, some 1⟩])) (fun r u _ =>
      decide (u.lanes ≠ [] ∧ u.waitOf r = .lwait [⟨1, 0, 4095, some 1⟩])),
     meets (.lwait lane (.v 4) (.s 5) 3 false)
      (fun s => setS 5 4095 (s.mapPart 0 fun p => { p with pool := [(4095, ⟨2, 1, some 1⟩)] }))
      (fun r u _ => decide (u.lanes ≠ []) && newly r u && !(lwaitWaits u r (lwaitLanes u r (.s 5))).isEmpty
        && (lwaitWaits u r (lwaitLanes u r (.s 5))).all fun x => x.got.isSome),
     [false, true].all fun full =>
      let s := inBlock (fun b => { b with scratchSize := if full then 17 * 2 ^ 16 else b.scratchSize }) ((stand (.nop lane)).mapCore 0 fun c =>
        { c with front := [⟨textVa, 1, 0, 0, [], 0, 1, 0, 1⟩] })
      (partOfCore s 0).any fun p =>
        let s1 := releaseHeld s [0]
        p.2.halt == .running && packReady (s.core 0)
        && ((packGroup s1 p.2 0 fun a => fitsNow s1 0 a || admitted s1 0 a).head?.bind fun r => s1.kernels.get? r.kernel).any fun k =>
          fitsNow s1 0 k.packAsk != full]
    = true := by decide +kernel
theorem witness_IncumbentRegisters : allHold
    [meets (.kinit lane (.v 12) 15 false true) id (fun r u _ => u.lead.isSome && newly r u
      && decide (readsPending r u = false ∧ incumbentBusy r u.uids u.core 15 false = false)),
     meets (.kinit lane (.v 12) 15 false true) (fun s => waiting (.kinit 15 3) (s.mapCore 0 fun c =>
      { c with bcast := [(15, 3, ⟨true, false, 0, 0⟩, [])] })) (fun r u _ =>
      decide (u.lead.isSome ∧ u.waitOf r = .kinit 15 3 ∧ copiesBehind r u.part 15 3 = true)),
     meets (.kinit lane (.v 12) 15 false true) (waiting (.kinit 15 3)) (fun r u _ =>
      decide (u.lead.isSome ∧ u.waitOf r = .kinit 15 3 ∧ copiesBehind r u.part 15 3 = false)),
     meets (.kupd lane true (.v 4) (.v 5) 15 true) id (fun _ u _ => decide (u.lanes ≠ [])),
     [(15, true), (0, false)].all fun x => meets (.kread laneA (.v 4) x.1 x.2) id (fun r u _ =>
      decide (u.lanes ≠ [] ∧ readsPending r u = false ∧ incumbentBusy r u.uids u.core x.1.val x.2 = false)),
     [false, true].all fun f => let s := inFlight (.kupd 15 f [(1, 2)] true)
      (arriving s 0 15 f [(1, 2)]).isSome && (s.incumbent 0 15).f32 == false,
     (arriving (inFlight (.kupd 15 false [(1, 2)] true)) 0 15 true [(1, 2)]).isNone,
     ((inFlight (.result .kread ⟨[], [], [], 0, none⟩)).pend.get? 5).isSome,
     let s := (stand (.nop lane)).mapCore 0 fun c => { c with bcast := [(15, 3, ⟨true, false, 0, 0⟩, [])] }
     (s.core 0).bcast == [(15, 3, ⟨true, false, 0, 0⟩, [])]] = true := by decide +kernel
theorem witness_ArriveWaitBarriers : allHold
    [meets (.abinit warp (.s 4) (.s 5) (.s 6)) (fun s => setS 5 65535 (setS 4 65520 s)) (fun r u _ => decide (u.lanes ≠ []
      ∧ abarTrap u r (u.once r (.s 4)) = none ∧ (u.once r (.s 5)).toNat ≤ 65535 ∧ readsPending r u = false)),
     meets (.abarrive lane (.v 3) (.s 4) .zero) (setS 4 65520) (fun r u _ => decide (u.lanes ≠ []
      ∧ abarTrap u r (u.once r (.s 4)) = none ∧ accessesPending r u = false)),
     [(true, .ones), (false, .zero)].all fun x => meets (.abwait lane (.s 4) x.2 true) (setS 4 16) (fun r u _ =>
      newly r u && decide (u.lanes ≠ [] ∧ abarTrap u r (u.once r (.s 4)) = none ∧ abarMet r u.block (u.once r (.s 4)).toNat true (u.once r x.2) = x.1)),
     [(0, true), (0, false), (1, false)].all fun x => meets (.abwait lane (.s 4) .zero true) (waiting (.abwait 16 true x.1 x.2)) (fun r u _ =>
      decide (u.lanes ≠ [] ∧ u.waitOf r = .abwait 16 true x.1 x.2))
        && (x.2 || abarMet (stand (.nop lane)) 1 16 true x.1 == (x.1 != 0))] = true := by decide +kernel
/-- The placed block with queue 7 of two slots. -/
def withQueue (free full tf tl : Nat) (s : State) : State :=
  inBlock (fun b => { b with queues := [(7, ⟨0, 2, 16, free, full, 0, 1, tf, tl⟩)] }) s
theorem witness_ProducerConsumerQueues : allHold
    [meets (.qinit warp (.s 4) (.s 5) (.s 6) 7) (fun s => setS 4 0 (setS 5 256 (setS 6 256 s))) (fun r u _ => decide (u.lanes ≠ []
      ∧ qinitTrap u r (u.once r (.s 4)) (u.once r (.s 5)) (u.once r (.s 6)) = none ∧ queueBusy r u.block 7 = false)),
     meets (.qinit warp (.s 4) (.s 5) (.s 6) 7) (fun s => setS 4 65520 (setS 5 1 (setS 6 16 s))) (fun r u _ => decide (u.lanes ≠ []
      ∧ qinitTrap u r (u.once r (.s 4)) (u.once r (.s 5)) (u.once r (.s 6)) = none ∧ queueBusy r u.block 7 = false)),
     meets (.qacqFree warp (.s 4) 7) (withQueue 1 0 0 1) (fun r u _ => decide (u.lanes ≠ []) && (queueOf r u.block 7).any fun x => x.free != 0),
     meets (.qacqFull warp (.s 4) 7) (withQueue 0 1 1 0) (fun r u _ => decide (u.lanes ≠ []) && (queueOf r u.block 7).any fun x => x.full != 0),
     meets (.qacqFree warp (.s 4) 7) (withQueue 0 1 1 0) (fun r u _ => decide (u.lanes ≠ []) && (queueOf r u.block 7).any fun x => x.free == 0),
     meets (.qacqFull warp (.s 4) 7) (withQueue 1 0 0 1) (fun r u _ => decide (u.lanes ≠ []) && (queueOf r u.block 7).any fun x => x.full == 0),
     meets (.qrelFull warp 7) (withQueue 0 1 1 0) (fun r u _ => decide (u.lanes ≠ []) && (queueOf r u.block 7).any fun x =>
      x.takenFree != 0 && !accessesPending r u),
     meets (.qrelFree warp 7) (withQueue 1 0 0 1) (fun r u _ => decide (u.lanes ≠ []) && (queueOf r u.block 7).any fun x =>
      x.takenFull != 0 && !accessesPending r u)] = true := by decide +kernel
theorem witness_SystemRegisters : allHold
    [meets (.getsr lane (.v 4) 0x0E0) id (fun _ u _ => decide (u.lanes ≠ [])),
     meets (.getsr lane (.v 4) 0x010) superv (fun _ u _ => decide (u.lanes ≠ [])),
     meets (.setsr lane (.s 4) 0x0E6) id (fun r u w => decide (u.lanes ≠ []) && newly r u
      && (writeParts u w 0x0E6 (u.once r (.s 4))).2 == none),
     meets (.setsr lane (.s 4) 0x0C6) superv (fun r u w => decide (u.lanes ≠ []) && newly r u
      && (writeParts u w 0x0C6 (u.once r (.s 4))).2.isSome && (writeParts u r 0x0C6 (u.once r (.s 4))).2.isSome),
     meets (.setsr lane (.s 4) 0x0C6) (fun s => superv (waiting (.command 5) s)) (fun r u _ =>
      decide (u.lanes ≠ [] ∧ u.waitOf r = .command 5 ∧ r.pend.get? 5 = none)),
     meets (.setsr lane (.s 4) 0x0C6) (fun s => superv (waiting (.command 5) { s with
      pend := [(5, ⟨0, [], 15, 0, 0, 0, [], none, .reload 0 [], [], false⟩)] })) (fun r u _ =>
      decide (u.lanes ≠ [] ∧ u.waitOf r = .command 5 ∧ (r.pend.get? 5).isSome)),
     let s := stand (.nop lane)
     (s.warps.get? 1).any fun w => w.splits.vals.head?.isSome && (s.parts.get? (s.partOf w)).isSome] = true := by decide +kernel
theorem witness_IssueControl : allHold
    [meets (.yield lane (.s 4)) (setS 4 4097) (fun _ u _ => decide (u.lanes ≠ [])),
     meets (.yield lane (.s 4)) (setS 4 0) (fun _ u _ => decide (u.lanes ≠ [])),
     meets (.prio lane (.s 4)) (setS 4 3) (fun _ u _ => decide (u.lanes ≠ [])),
     [none, some 0, some 1].all fun n => ((inSplit (fun p => { p with yields := n }) (stand (.nop lane))).warps.get? 1).any fun w =>
      (w.splits.get? 0).any fun p => p.yields == n] = true := by decide +kernel
theorem witness_RegisterEvents : allHold
    [((stand (.nop lane)).parts.get? 0).isSome,
     ((inFlight (.inval .all)).pend.get? 5).any fun q => q.work == .inval .all && !spanFull (inFlight (.inval .all)) q.part,
     let s := (inFlight (.inval .all)).mapPart 0 fun p => { p with issuectr := 2 ^ 30 }
     spanFull { s with pend := s.pend ++ [(6, ⟨0, [], 15, 0, 0, 1, [], none, .binp 1, [], false⟩)] } 0,
     [false, true].all fun busy =>
      let s0 := inFlight (.reload 255 [1])
      let s := if busy then { s0 with pend := (4, ⟨0, [(1, allLanes)], 0, 4, 0, 1, [], none, .atom .addI32 (.v 8) [], [], false⟩) :: s0.pend } else s0
      (s.pend.get? 5).any fun q => q.work == .reload 255 [1] && reloadWaits s q 255 [1] == busy] = true := by decide +kernel
theorem witness_PoolAndSplitChanges : allHold
    [meets (.poolset warpA (.v 4) (.s 5)) (setS 5 0x10101007) (fun r u w => decide (u.lanes ≠ []
      ∧ overPeak r (reserve w u (.v 4) 1) u = none ∧ poolCheck r u (u.once r (.s 5)) = some 4)),
     meets (.poolset warpA (.v 4) (.s 5)) (setS 5 0x10101010) (fun r u w => decide (u.lanes ≠ []
      ∧ overPeak r (reserve w u (.v 4) 1) u = none ∧ poolCheck r u (u.once r (.s 5)) = none)),
     [1, 2, 3].all fun n => (((stand (.nop lane)).mapCore 0 fun c => { c with change := some ⟨n, false, 0x10101010, 1, 5⟩ }).core 0).change
      == some ⟨n, false, 0x10101010, 1, 5⟩] = true := by decide +kernel
/-- The placed block with some tiles allocated. -/
def withTiles (l : List Nat) (s : State) : State := inBlock (fun b => { b with tiles := l.map fun n => (n, []) }) s
/-- A window of the placed block. -/
def win : Window := ⟨textVa, 256, 0, false, [(512, true, 0)]⟩
theorem witness_TilesAndStashWindows : allHold
    [meets (.talloc warp 63) id (fun r u _ => decide (u.lanes ≠ []) && (r.blocks.get? u.block).any fun b => decide (b.tiles.get? 63 = none
      ∧ b.tiles.length < (r.kernels.get? u.kernel).elim 0 (·.tiles))),
     meets (.tfree warp 63) (withTiles [63]) (fun r u _ => decide (u.lanes ≠ []) && (r.blocks.get? u.block).any fun b => (b.tiles.get? 63).isSome
      && !tileBusy r u.block 63),
     meets (.stash warp (.s 2) (.s 4) (.s 5) 3) (fun s => page 0 (setS 4 65536 s)) (fun r u w =>
      (r.blocks.get? u.block).any fun b => stashTrap u r b 3 (u.once64 r (.s 2)) (u.once r (.s 4)) (u.once r (.s 5)) == none
        && match stashPages w u.part u.asid (rangePages (u.once64 r (.s 2)) (u.once r (.s 4)).toNat) with
          | .ok x => x.2.length == 1 && x.2.all fun y => stashable x.1 u.part y.2
          | .error _ => false),
     meets (.unstash warpA 3) (inBlock fun b => { b with windows := [(3, win)] }) (fun r u _ => decide (u.lanes ≠ []
      ∧ ((r.blocks.get? u.block).bind fun b => b.windows.get? 3) = some win ∧ win.closing = false)),
     ((inFlight (.unstash 1 3)).pend.get? 5).any fun q => q.work == .unstash 1 3,
     ((inBlock (fun b => { b with windows := [(3, win)] }) (stand (.nop lane))).blocks.get? 1).any fun b => (b.windows.get? 3) == some win]
    = true := by decide +kernel

/-! ### Engines, matrix commands, pairs -/

/-- The operands of a copy of a row of 128 bytes between the page and scratch. -/
def copying (s : State) : State := page 0x100 (setS 4 0x200 (setS 5 128 s))
/-- What CPY checks first, with a premise on its operands. -/
def copies (dir : CpyDir) (d a : CpyOpd) (b c : Reg) (twoD ab : Bool) (qn : Option Nat) (f : CopyOps → Bool) (r : State)
    (u : IssueUnit) (_ : State) : Bool :=
  let o := copyOps u r dir d a b c twoD ab
  decide (u.lanes ≠ [] ∧ copyTrap u r o dir twoD qn = none) && f o
/-- A copy into a slot of queue 7. -/
def queued (waiting : Bool) : Work := .copy ⟨1, .g2s, 0, textVa, 1, 16, 0, 0, none, some 7, .core, 0x146, false, none, 0⟩ waiting

theorem witness_CopyEngine : allHold
    [meets (.cpy warpA .g2s (.reg (.s 4)) (.reg (.s 2)) .zero (.v 0) false false 0 .core) copying
      (copies .g2s (.reg (.s 4)) (.reg (.s 2)) .zero (.v 0) false false none fun o => o.rb == 0)
      && meets (.cpy warpA .g2s (.reg (.s 4)) (.reg (.s 2)) .zero (.v 0) false false 0 .core) copying (fun r u _ => !accessesPending r u),
     meets (.cpy warpA .g2s (.reg (.s 4)) (.reg (.s 2)) (.s 5) (.v 0) false false 0 .core) copying
      (copies .g2s (.reg (.s 4)) (.reg (.s 2)) (.s 5) (.v 0) false false none fun o => o.rb == 128)
      && meets (.cpy warpA .g2s (.reg (.s 4)) (.reg (.s 2)) (.s 5) (.v 0) false false 0 .core) copying (fun r u _ => !accessesPending r u),
     meets (.cpy warpA .g2s .queue (.reg (.s 2)) (.s 5) (.v 0) false false 7 .core)
      (fun s => inBlock (fun b => { b with queues := [(7, ⟨0, 2, 128, 2, 0, 0, 0, 0, 0⟩)] }) (copying s))
      (copies .g2s .queue (.reg (.s 2)) (.s 5) (.v 0) false false (some 7) fun o => o.rb == 128),
     meets (.cpy warpA .s2g (.reg (.s 2)) (.reg (.s 4)) (.s 5) (.v 0) false false 0 .core) copying
      (fun r u w => copies .s2g (.reg (.s 2)) (.reg (.s 4)) (.s 5) (.v 0) false false none (fun o => o.rb == 128) r u w
        && (!accessesPending r u && (copiesWait r (engineOf r u.part u.block u.opcode r.fab.faulted)
          [(copyOps u r .s2g (.reg (.s 2)) (.reg (.s 4)) (.s 5) (.v 0) false false).cmd u.block u.opcode .s2g none .core]).isNone)),
     let s := inBlock (fun b => { b with queues := [(7, ⟨0, 2, 16, 1, 0, 1, 0, 0, 0⟩)] }) (inFlight (queued true))
     (s.pend.get? 5).any fun q => q.work == queued true && (queueOf s 1 7).any (fun x => 0 < x.free) && firstInQueue s 5 q && partRuns s q.part,
     let s := inFlight (queued false)
     partRuns s 0 && decide (copyMissing s (engineOf s 0 1 0x146 []) ⟨1, .g2s, 0, textVa, 1, 16, 0, 0, none, some 7, .core, 0x146, false, none, 0⟩ = [])]
    = true := by decide +kernel
/-- The placed block with a hold list. -/
def withHolds (l : List Hold) (s : State) : State := inBlock (fun b => { b with holds := l }) s
/-- A patched entry. -/
def held : Hold := ⟨textVa + 0x100, 0, 1, 0x400, 2, .core, some 16⟩
theorem witness_BinningAndHeldCopies : allHold
    [meets (.binc warpA (.s 4) .lid (.s 6)) (fun s => setS 4 49152 (setS 6 4096 s)) (fun r u _ => decide (u.lanes ≠ [] ∧ u.once r (.s 6) ≠ 0
      ∧ (u.once r (.s 6)).toNat ≤ 4096 ∧ (u.once r (.s 4)).toNat % 4 = 0
      ∧ (u.once r (.s 4)).toNat + 4 * (u.once r (.s 6)).toNat ≤ (r.blocks.get? u.block).elim 0 (·.scratchSize) ∧ accessesPending r u = false)),
     meets (.binc warpA (.s 4) .lid (.s 6)) (fun s => setS 4 65532 (setS 6 1 s)) (fun r u _ => decide (u.lanes ≠ [] ∧ u.once r (.s 6) ≠ 0
      ∧ (u.once r (.s 6)).toNat ≤ 4096 ∧ (u.once r (.s 4)).toNat % 4 = 0
      ∧ (u.once r (.s 4)).toNat + 4 * (u.once r (.s 6)).toNat ≤ (r.blocks.get? u.block).elim 0 (·.scratchSize) ∧ accessesPending r u = false)),
     meets (.binp warpA) id (fun r u _ => decide (u.lanes ≠ [] ∧ accessesPending r u = false)),
     ((inFlight (.binc 1 0 4 [0, 3, 4])).pend.get? 5).any fun q => q.work == .binc 1 0 4 [0, 3, 4],
     ((inFlight (.binp 1)).pend.get? 5).isSome && ((inFlight (.binp 1)).blocks.get? 1).isSome,
     meets (.cpyh warpA (.s 2) (.s 4) (.s 5) (.s 6) 2 .core) (fun s => withHolds (List.replicate 15 held) (page 4 s)) (fun r u _ =>
      decide (u.lanes ≠ [] ∧ cpyhTrap u r (u.once64 r (.s 2)) (u.once r (.s 4)) (u.once r (.s 6)) = none)),
     meets (.crel warpA) (withHolds [held]) (fun r u _ => (r.blocks.get? u.block).any fun x => decide (u.lanes ≠ []
      ∧ crelCheck u r x = none ∧ accessesPending r u = false
      ∧ (copiesWait r (engineOf r u.part u.block u.opcode r.fab.faulted) (x.holds.map fun e => e.cmd u.block)).isNone)),
     meets (.crel warpA) id (fun r u _ => (r.blocks.get? u.block).any fun x => x.holds == [] && crelCheck u r x == none),
     ((inFlight (.crel none)).pend.get? 5).any fun q => q.work == .crel none && partRuns (inFlight (.crel none)) q.part] = true := by decide +kernel
/-- A descriptor of a dense array of 32 by 32 words at the placed page. -/
def denseDesc : List Byte :=
  leBytes 8 textVa.toNat ++ leBytes 8 0 ++ leBytes 8 0 ++ leBytes 2 32 ++ leBytes 2 32 ++ [0, 0] ++ leBytes 2 8
theorem witness_FetchUnit : allHold
    [meets (.fhnd warp (.s 2) 7) (fun s => page 0x100 (cold { s with mem := setCells s.mem (cellsFrom (textPa + 0x100) denseDesc) })) (fun r u w =>
      u.lead.any fun x =>
        let c := checkLanes u 32 32 .engineRead w [(x.1, x.2, u.read64 r x.1 (.s 2) x.2)]
        let p := ((c.2.head?).map (·.place)).getD .absent
        let c1 := takeFaulted c.1 (placeMissing c.1 u.part false p 32)
        decide (readsPending r u = false ∧ inAperture (u.read64 r x.1 (.s 2) x.2) = false ∧ accessTrap u r c.2 = none ∧ placeMissing c1 u.part false p 32 = [] ∧ placeLost c1 u.part p 32 = false
          ∧ (Desc.ofBytes (placeBytes (touchAll c1 u .normal false c.2) u.part p 32)).refusal = none)),
     meets (.fetch warpA .b32 (.v 8) .lid (.s 4) 7 3) (fun s => setS 4 31 (inBlock (fun b => { b with handles := [(7, ⟨textVa, denseDesc⟩)] }) s))
      (fun r u _ => decide (u.lanes ≠ []) && ((r.blocks.get? u.block).bind fun x => x.handles.get? 7) == some ⟨textVa, denseDesc⟩
        && u.lanes.all fun x => indexFails (Desc.ofBytes denseDesc) false (u.read r x.1 .lid x.2).toNat (u.read r x.1 (.s 4) x.2).toNat == none),
     meets (.fetch warpA .b64 (.v 8) .lid (.s 4) 7 3) (fun s => setS 4 30 (inBlock (fun b => { b with handles := [(7, ⟨textVa, denseDesc⟩)] }) s))
      (fun r u _ => decide (u.lanes ≠ []) && u.lanes.all fun x =>
        indexFails (Desc.ofBytes denseDesc) true (u.read r x.1 .lid x.2).toNat (u.read r x.1 (.s 4) x.2).toNat == none),
     (fetchLanes ⟨0, 0, 1, 0x151, []⟩ 0 (Desc.ofBytes denseDesc) false (cold (stand (.nop lane))) [(1, 0, 31, 31)]).isOk] = true := by
  decide +kernel

/-- Tiles m0 to m3 allocated, and a fmt. -/
def tiled (fmt : Half) (s : State) : State := withTiles [0, 1, 2, 3] (inSplit (fun p => { p with fmt := fmt }) s)
/-- The premise of a matrix command on some tiles. -/
def bound (l : List Nat) (r : State) (u : IssueUnit) (_ : State) : Bool := decide (u.lanes ≠ [] ∧ unboundTrap u r l = none)
theorem witness_MatrixMultiply : allHold
    [meets (.mma warpA .f32 0 1 2 0 false false) (tiled 0) (fun r u _ =>
      decide (u.lanes ≠ [] ∧ mmaTrap u r (Sys2Proof.Machine.MmaTy.code .f32) false [0, 1, 2] = none)),
     meets (.mma blkB .i8 0 1 2 0 true false) (tiled 0x90) (fun r u _ =>
      decide (u.lanes ≠ [] ∧ mmaTrap u r (Sys2Proof.Machine.MmaTy.code .i8) false [0, 1, 2] = none)),
     meets (.mma warpA .e4m3 0 1 2 3 false true) (tiled 0x1040) (fun r u _ =>
      decide (u.lanes ≠ [] ∧ mmaTrap u r (Sys2Proof.Machine.MmaTy.code .e4m3) true [0, 1, 2, 3] = none)),
     meets (.mmas warpA .f16 0 1 2 0 false false) (tiled 0x10) (fun r u _ => decide (u.lanes ≠ []
      ∧ mmaTrap u r (Sys2Proof.Machine.MmasTy.code .f16) false [0, 1, 2] = none))] = true := by decide +kernel
theorem witness_TileUtilitiesAndCompletion : allHold
    [meets (.tzero warpA 3) (tiled 0) (bound [3]), meets (.tfill warpA 3 .lid) (tiled 0) (bound [3]),
     meets (.vtot warpA 3 .lid (.s 4)) (fun s => setS 4 31 (tiled 0 s)) (fun r u w => bound [3] r u w && decide ((u.once r (.s 4)).toNat < 32)),
     meets (.tcvt warpA 0 1 7 .f32) (tiled 0x700) (fun r u w => bound [0, 1] r u w && decide (fmtD u.fmt ≠ 13 ∧ 7 * boxBits (fmtD u.fmt) < 32)),
     meets (.tcvt warpA 0 1 0 .fx32) (tiled 0) (fun r u w => bound [0, 1] r u w && decide (fmtD u.fmt ≠ 13 ∧ 0 * boxBits (fmtD u.fmt) < 32)),
     meets (.ttrans warpA 0 1 3) (tiled 0) (bound [0, 1]), meets (.tadd warpA 0 1 2 .i32sat) (tiled 0) (bound [0, 1, 2]),
     meets (.tred warpA (.v 3) 1 true .max .i32) (tiled 0) (bound [1]),
     meets (.ttov warpA (.v 3) 1 (.s 4)) (fun s => setS 4 31 (tiled 0 s)) (fun r u w => bound [1] r u w && decide ((u.once r (.s 4)).toNat < 32)),
     [0, 3, 4].all fun n => ((inFlight (.result (.matrix 0x198 n) ⟨[], [], [], 0, none⟩)).pend.get? 5).isSome] = true := by decide +kernel
/-- A Jacobi iteration of one unknown in flight. -/
def jacobi (done : Nat) : Work := .tjac [[0x10000]] [0] [0] [0] 1 done 3 0 0 32 (.v 3) (.s 6) 1 0 0
theorem witness_TileSolver : allHold
    [meets (.tlu warpA 3 (.v 4) (.s 5) 31 true) (tiled 0) (bound [3]),
     meets (.ttrsUpper warpA 0 1 31 false) (tiled 0) (bound [0, 1]),
     meets (.ttrsLower warpA 0 1 (.v 0) 0 true false) (tiled 0) (bound [0, 1]),
     meets (.ttrsLower warpA 0 1 .lid 7 false true) (tiled 0) (fun r u w => bound [0, 1] r u w
      && u.lead.any fun x => (List.range 8).all fun i => decide ((u.read r x.1 .lid i).toNat < 8)),
     meets (.tupd warpA 3 (.s 5) (.s 6) true) (fun s => setS 5 57344 (setS 6 1024 (tiled 0 s))) (fun r u w => bound [3] r u w
      && tupdTrap u r (u.once r (.s 5)) (u.once r (.s 6)) == none && !accessesPending r u),
     meets (.tjac warpA (.v 3) 1 (.v 5) (.s 6) 31 false 3) (fun s => setS 6 65535 (tiled 0 s)) (fun r u w => bound [1] r u w
      && decide (0 < (u.once r (.s 6)).toNat ∧ (u.once r (.s 6)).toNat ≤ 65535)),
     ((inFlight (jacobi 2)).pend.get? 5).any fun q => q.work == jacobi 2,
     let s := inFlight (jacobi 0)
     (s.pend.get? 5).any fun q => q.work == jacobi 0 && !deadlinePassed s 0 && !haltRequested s q.part] = true := by decide +kernel
/-- The pairing tag in s4, and what the pairing table of partition 0 holds. -/
def pairing (tag : Half) (t : List (Nat × Nat × Half)) (s : State) : State :=
  setS 4 tag (s.mapPart 0 fun p => { p with pairTable := t })
/-- A second warp, on core 1, alone in its pairing wait. -/
def other (s : State) : State := { s with warps := s.warps.put 2 { setupWarp s with core := 1, block := 1 } }
/-- What XPAIR finds for its tag once its old pair is gone. -/
def pairs (f : State → IssueUnit → Half → Bool) (r : State) (u : IssueUnit) (w : State) : Bool :=
  u.lead.any fun x => newly r u && f (dissolvePair w x.1.uid) u (u.read r x.1 (.s 4) x.2 &&& 0xFFFF#32)
/-- The placed warp paired with warp 2. -/
def paired (s : State) : State := (other s).mapWarp 1 fun w => { w with pair := some ⟨2, 4⟩ }
/-- The partner's XSWAP in flight. -/
def offered : Work := .xswap 4 (.v 8) 3 allLanes [] (some 1) none
theorem witness_PairedWarpsAndFormat : allHold
    [meets (.xpair warp (.v 8) (.s 4)) (pairing 0x10000 []) (pairs fun _ _ t => t == 0),
     meets (.xpair warp (.v 8) (.s 4)) (fun s => other (pairing 7 [(0, 2, 7)] s)) (pairs fun s u t => t != 0 && (findPartner s u.part u.core t).isSome),
     meets (.xpair warp (.v 8) (.s 4)) (pairing 7 (List.replicate 64 (0, 9, 8))) (pairs fun s u t =>
      t != 0 && findPartner s u.part u.core t == none && decide (64 ≤ pairWaiters s u.part (dieOf u.core))),
     meets (.xpair warp (.v 8) (.s 4)) (pairing 7 (List.replicate 63 (0, 9, 8))) (pairs fun s u t =>
      t != 0 && findPartner s u.part u.core t == none && decide (pairWaiters s u.part (dieOf u.core) < 64)),
     meets (.xpair warp (.v 8) (.s 4)) (waiting (.xpair (some 0))) (fun r u _ => decide (u.lead.isSome ∧ u.waitOf r = .xpair (some 0))),
     meets (.xswap warpA (.v 8) .lid 3) id (fun r u _ => u.lead.any fun x => ((r.warps.get? x.1.uid).bind (·.pair)) == none),
     meets (.xswap warpA (.v 8) .lid 3) paired (fun r u w => u.lead.any fun x => ((r.warps.get? x.1.uid).bind (·.pair)) == some ⟨2, 4⟩
      && findSwap ((reserve w u (.v 8) 1).mapWarp x.1.uid fun y => { y with pair := some ⟨2, 5⟩ }) 2 4 == none),
     meets (.xswap warpA (.v 8) .lid 3) (fun s => { paired s with pend := [(6, ⟨0, [(2, allLanes)], 0, 5, 0, 1, [], none, offered, [], false⟩)] })
      (fun r u w => u.lead.any fun x => ((r.warps.get? x.1.uid).bind (·.pair)) == some ⟨2, 4⟩
        && (findSwap ((reserve w u (.v 8) 1).mapWarp x.1.uid fun y => { y with pair := some ⟨2, 5⟩ }) 2 4).any fun q =>
          q.1 == 6 && q.2.work == offered),
     ((inFlight (.result .load ⟨[], [], [], 0, none⟩)).pend.get? 5).isSome,
     ((inFlight (.xswap 4 (.v 8) 3 allLanes [] (some 1) (some (1, [])))).pend.get? 5).isSome,
     meets (.setfmt lane (.v 8) .lid .ones) id (fun _ u _ => u.lead.isSome)] = true := by decide +kernel
theorem witness_IntegerProductsAndTransposes :
    let m : MmaArgs := ⟨12, 12, false, [], [], [], [], false, false, 0, true⟩
    8 ≤ m.aFmt ∧ m.aFmt ≤ 12 ∧ m.sparse = false ∧ 8 ≤ m.bFmt ∧ m.bFmt ≤ 12 ∧ kOf m.bFmt = kOf m.aFmt ∧ m.sat = true
    ∧ ({ m with sat := false } : MmaArgs).sat = false := by decide +kernel
theorem witness_PoolControlAndAbsentTiles : allHold
    [[(0, 5), (1, 5)].all fun x => meets (.nop lane) (fun s => s.mapPart 0 fun p => p.write 0x0E5 x.1) (fun r u _ =>
      (r.parts.get? u.part).isSome && !u.super && (((r.parts.get? u.part).elim 0 fun p => p.sys 0x0E5).getLsbD 0 == (x.1 == 1))
        && !poolBad 0x10101010 && (r.core u.core).change.isNone && !(((heldAsk r u.core).floor :: coreFloors r u.core).any (belowFloor 0x10101010))),
     ((withRegion (stand (.nop lane))).region? 0 0).any fun g => g.tiles.get? 0 == none,
     [(0x20, 0), (0x28, 4), (0x2A, 5)].all fun x => let bs : List Byte := List.replicate 19 0 ++ [BitVec.ofNat 8 x.1]
      decide (fieldOf bs 19 1 / 32 % 2 = 1 ∧ fieldOf bs 19 1 / 2 % 16 = x.2)] = true := by decide +kernel

/-! ### Events, the fabric, the host, the Kiln, steps, traps -/

/-- The placed state: the word has been fetched, nothing else is going on. -/
def placed : State := stand (.nop lane)
/-- The same at a known time, its scheduler having issued just now. -/
def timed : State := { placed with tsc := 0, clk := 7, issued := [(0, 7)] }
/-- The placed state with its partition changed. -/
def inPart (f : Partition → Partition) : State := placed.mapPart 0 f

/-- The placed split at its header, waiting or not, with a header that is fetched from its place. -/
def atHeader (header : Word) (f : Split → Split) : State :=
  let s := inSplit (fun p => f { p with idx := 0, header := header }) placed
  { s with mem := setCells s.mem (cellsFrom textPa (leBytes 8 header.toNat)) }
/-- The conditions of the clauses about a header read, with a test of the state the read leaves and the split that read it. -/
def reads (s : State) (ok : State → Warp → Split → Word → Bool) : Bool :=
  s.act == (1, 0) && (s.warps.get? 1).any fun w => !w.suspended && (w.splits.get? 0).any fun p => p.idx == 0 && !p.stopped && p.wait == .none
    && let x := w.mergeAll 0 p.coincides
      let s0 := s.setWarp 1 x
      (x.splits.get? 0).any fun q => q.wait == .none && match fetchWord s0 (s0.partOf x) (s0.asidOf x) x.block q.pc with
        | .ok (s1, h) => (s1.warps.get? 1).any fun w1 => ok s1 w1 q h
        | .error _ => false
/-- A legal header whose wait mask is empty, and one that waits on flag B. -/
def goes (s1 : State) (w1 : Warp) (q : Split) (h : Word) : Bool :=
  (Header.of h).legal && (pageCheck s1 w1 q.pc (Header.of h)).isNone && waitedRecords w1 (Header.of h).wait == []
theorem witness_HeadersAgeingAndHalting : allHold
    [reads (atHeader 0x0000FF0000000000#64 id) fun _ _ _ h => !(Header.of h).legal,
     reads (inSplit (fun p => { p with pc := textVa + 0xFFF8 }) { cold (atHeader textHeader id) with
      mem := setCells placed.mem (cellsFrom (textPa + 0xFFF8) (leBytes 8 textHeader.toNat)) }) fun s1 w1 q h =>
        (Header.of h).legal && (pageCheck s1 w1 q.pc (Header.of h)).isSome,
     reads (atHeader (textHeader ||| 0x8000000000#64) fun p => { p with divs := [⟨9, some textVa, 0, 0⟩] }) fun s1 w1 q h =>
      (Header.of h).legal && (pageCheck s1 w1 q.pc (Header.of h)).isNone && (Header.of h).reconv && (q.reconvAt q.pc).isSome,
     reads (atHeader textHeader id) fun s1 w1 q h => goes s1 w1 q h && (q.reconvAt q.pc).isNone && w1.flagsSet (Header.of h).wait,
     reads ((atHeader (textHeader ||| 0x0FFF000000000000#64) id).mapWarp 1 fun w => { w with flags := [(11, ⟨1, none⟩)] }) fun s1 w1 q h =>
      goes s1 w1 q h && (q.reconvAt q.pc).isNone && !w1.flagsSet (Header.of h).wait,
     ((atHeader textHeader fun p => { p with wait := .flags, unchosen := 0 }).warps.get? 1).any fun w => (w.splits.get? 0).any fun p =>
      p.wait == .flags && w.mergeAll 0 p.coincides == w && waitedRecords w (Header.of p.header).wait == [] && w.flagsSet (Header.of p.header).wait,
     [0, 255, 256].all fun n => let s := inSplit (fun p => { p with unchosen := n }) placed
      (s.warps.get? 1).any fun w => (w.splits.get? 0).any fun p => splitReady s 1 w p,
     [(timed, true, true), ({ timed with issued := [] }, true, false), (inSplit (fun p => { p with yields := some 5 }) timed, false, true)].all
      fun x => (x.1.warps.get? 1).any fun w => (w.splits.get? 0).any fun p =>
        splitReady x.1 1 w p == x.2.1 && issuedNow x.1 1 0 w == x.2.2,
     [false, true].all fun b => let s := (inPart fun p => { p with halt := .halting }).mapWarp 1 fun w => { w with suspended := b }
      (s.warps.get? 1).any fun w => w.suspended == b && (s.parts.get? (s.partOf w)).any fun p => p.halt == .halting] = true := by decide +kernel
/-- A launch record in slot 63, with its state byte and one more field. -/
def slotted (st : Byte) (gx : Nat) (field : Nat × List Byte) : State :=
  let parts : List (Nat × List Byte) :=
    [(0, leBytes 8 0x40000000000 ++ leBytes 4 gx ++ leBytes 2 1 ++ leBytes 2 1), (60, [st]), field]
  { placed with mem := parts.foldl (fun m x => setCells m (cellsFrom (128 * 63 + x.1) x.2)) placed.mem }
/-- Where there are placements and no preferred stack, one of them is chosen. -/
theorem placement_chosen {s p k} (h : affinityStack s k = none) (ne : placements s p k ≠ []) :
    ∃ cores, choosePlacement s p k = some cores ∧ cores ∈ placements s p k := by
  unfold choosePlacement
  simp only [h, List.isEmpty_nil, if_true]
  have : Config.choice s.draws (placements s p k).length % Nat.max 1 (placements s p k).length < (placements s p k).length := by
    cases e : placements s p k with
    | nil => exact absurd e ne
    | cons a r => exact Nat.lt_of_lt_of_eq (Nat.mod_lt _ (by simp [Nat.max_def])) (by simp [Nat.max_def])
  exact ⟨_, List.getElem?_eq_getElem this, List.getElem_mem this⟩
/-- The hypotheses of `placement_chosen` for the first ready kernel, with a test of every placement. -/
def places (s : State) (ok : Kernel → List Nat → Bool) : Bool :=
  (s.parts.get? 0).any fun p => (firstReady s 0).any fun x =>
    affinityStack s x.2 == none && placements s p x.2 != [] && (placements s p x.2).all (ok x.2)
theorem witness_LaunchSlotsAndPlacement : allHold
    [(placed.parts.get? 0).isSome, (2#32).getLsbD 0 == false,
     slotState (slotted 1 1 (0, [])) 0 63 == 1, slotState (slotted 2 1 (0, [])) 0 63 == 2,
     [(65535, 1, (0, []), none), (65535, 3, (0, []), some .malformed), (1, 1, (20, List.replicate 4 0xFF), some .never),
      (1, 1, (40, leBytes 8 0x60000000000), some .cwa)].all fun
        (x : Nat × Half × (Nat × List Byte) × Option Refused) => let s := slotted 3 x.1 x.2.2.1
      (s.parts.get? 0).any fun p => slotState s 0 63 == 3 && x.2.1.getLsbD 0
        && LaunchRec.refusal s 0 (slotAsid s 0 63) (slotRecord s p 63) (slotReserved s 0 63 x.2.1) == x.2.2.2,
     let s := inKernel (fun k => { k with gx := 2, nextBid := 1 }) placed
     (s.parts.get? 0).any fun p => p.halt == .running && heldCores s p == [] && (firstReady s 0).isSome,
     [(8, true), (24, false)].all fun (x : Half × Bool) => let s := inKernel (fun k => { k with gx := 2, nextBid := 1, pool := x.1 }) placed
      places s fun k cores => cores.all (fun c => fitsNow s c k.ask) == x.2,
     let s := (inKernel (fun k => { k with gx := 2, nextBid := 1 }) placed).mapCore 3 fun c => { c with held := some (1, false) }
     (s.parts.get? 0).any fun p => let hs := heldCores s p
      p.halt == .running && hs == [(3, 1)] && (hs.all fun h => !(s.core h.1).admitting) && (hs.map (·.2)).head? == some 1
        && let s1 := releaseHeld s (hs.map (·.1))
          (s1.kernels.get? 1).any fun k => k.ready s1 && hs.length == k.gblk + 1 && hs.all fun h => fitsNow s1 h.1 k.ask,
     let s := placed.mapCore 3 fun c => { c with held := some (1, false), change := some ⟨1, true, 0x10101010, 1, 0⟩ }
     (s.parts.get? 0).any fun p => p.halt == .running && heldCores s p == [(3, 1)] && (heldCores s p).any fun h => (s.core h.1).admitting,
     let s := inKernel (fun k => { k with det := true, ended := [0] }) placed
     (s.kernels.get? 1).any fun k => k.det && k.ended.contains k.retired && partRuns s k.part]
    = true := by decide +kernel
/-- The placed page mapped by tables in memory. -/
def mapped : State := withTables placed
/-- The same, by a leaf that permits nothing. -/
def barred : State := { mapped with mem := setCells mapped.mem (cellsFrom 0x10A000 (leBytes 8 (textLeaf.toNat - 0xE0))) }
/-- A partition of eight quarters, on two base stacks, with frame 2 ready in the quarantine. -/
def twoPart : Partition :=
  { Partition.start 0 8 0 1 with qlist := [(2, 5)], issuectr := 6, sysregs := (Partition.start 0 8 0 1).sysregs.put 0x0C8 0x100000 }
/-- The mapped page in it. -/
def twoStacks : State := { mapped with parts := [(0, twoPart)] }
/-- Where the free hash of frames puts frames 1 and 2 on different stacks, a migration of the placed page has a frame to go to. -/
theorem witness_migration (h : Config.stackOf 2 % 2 ≠ Config.stackOf 1 % 2) :
    twoStacks.parts.get? 0 = some twoPart ∧ (walk twoStacks 0 0 textVa).map (·.leaf) = some textLeaf
      ∧ efield textLeaf 24 40 * 2 ^ 16 = textPa ∧ newFrames twoStacks 0 twoPart textPa ≠ [] ∧ frameWants twoStacks textPa = [] := by
  refine ⟨rfl, by decide +kernel, by decide +kernel, ?_, by decide +kernel⟩
  have q : exceeds (quiesctr twoStacks 0) 5 = true ∧ twoStacks.foreign 0 131072 = false := by decide +kernel
  have hm : ((2, 5) : Word × Half) ∈ twoPart.qlist := List.mem_singleton.2 rfl
  have hs : twoPart.stackOf 131072 ≠ twoPart.stackOf textPa := fun e => h (Nat.add_left_cancel e)
  refine List.ne_nil_of_mem (List.mem_filter.2 ⟨hm, ?_⟩)
  have e : ((2 : Word).toNat) * 2 ^ 16 = 131072 := by decide
  dsimp only
  rw [e, q.1, q.2, bne_iff_ne.2 hs]
  rfl
theorem witness_WalksLinesAndErrors : allHold
    [!inAperture textVa && decide (textVa.toNat < 2 ^ 56), (walk mapped 0 0 textVa).any fun w => leafType w.leaf != 2 && cacheable w.leaf .load
      && ((walkTouch mapped 0 0 textVa).parts.get? 0).isSome,
     (walk barred 0 0 textVa).any fun w => !cacheable w.leaf .load && !cacheable w.leaf .store && !cacheable w.leaf .fetch,
     (walk placed 0 0 textVa).isNone,
     (mapped.parts.get? 0).any fun p => (walk mapped 0 0 textVa).any fun w => (p.sys 0x0C0).getLsbD 0 && leafType w.leaf == 0
      && w.level == 0 && !ebit w.leaf 19 && !ebit w.leaf 18 && !frameBusy mapped (efield w.leaf 24 40 * 2 ^ 16) && !spanFull mapped 0
      && (leafKey mapped 0 w.leaf).isSome,
     ((placed.mapCore 0 fun c => { c with l1 := [(512, ⟨true, false, 1, 1⟩)] }).core 0).l1.get? 512 == some ⟨true, false, 1, 1⟩,
     (placed.core 0).l1.get? 512 == none && (partOfCore placed 0).any fun x => ((x.2.l2At (dieOf 0)).get? 512).isSome
      && ((x.2.l2At (dieOf 0)).get? 511).isNone && ((x.2.l2At (dieOf 0)).get? (2 ^ 60)).isNone,
     (placed.parts.get? 0).any fun p => newFrames placed 0 p 65536 == [],
     (placed.parts.get? 0).isSome, placed.pwrClk == 28,
     { placed with pwrClk := 14 + 1 }.pwrClk == 14 + 1, { placed with pwrClk := 27 }.pwrClk + 1 == 28] = true := by decide +kernel
/-- A fabric line of package 1, asked for by partition 0, and a write-back of it. -/
def peerLine : Nat := 2 ^ 54 / 128 + 5
def asking : State := askPeer timed (.share peerLine none)
def writingBack : State := sendMsg timed (lineMsg peerLine (.writeBack (List.replicate 128 1)))
/-- An ATOM sent to it, an answer to a peer, and a recall from one. -/
def atomSent : State := sendMsg timed (lineMsg peerLine (.atom .addI32 5 0 0 1 0))
def answering : State := sendMsg timed ⟨0, 8, 5, .answer 0 [], 0, 0⟩
def recalling : State := sendMsg timed ⟨0, 8, 5, .recall 512 true, 0, 0⟩
/-- A message sent that a state holds, with the number its line is named by. -/
def sent (s : State) (which : FabMsg → Bool) (ok : FabMsg → Bool) : Bool :=
  s.fab.unacked.any fun x => (s.fab.messageFor x.2.tag which).any ok
/-- A link in some condition. -/
def linked (attempts : Nat) (damaged : Option (List Byte × Nat)) (prev : Option Nat) : State :=
  placed.setLink 15 ⟨true, attempts, damaged, 3, prev, 0, 0, 0⟩
theorem witness_FabricEvents : allHold
    [(placed.parts.get? 0).any fun p => p.exportFor 1 2 == none && Sys2Proof.Machine.RemoteOp.wellFormed (.read 128) 0,
     [(false, Sys2Proof.RemoteOp.read 1, true), (true, .write [7], true), (false, .write [7], false)].all fun x =>
      let e : Half := BitVec.ofNat 32 (2 ^ 31 + (if x.1 then 2 ^ 30 else 0) + 2 * 2 ^ 20 + 1 * 2 ^ 10)
      let s := inPart fun p => { p with fxent := [(63, e)] }
      (s.parts.get? 0).any fun p => p.exportFor 1 2 == some e && Sys2Proof.Machine.RemoteOp.wellFormed x.2.1 127
        && (Sys2Proof.Machine.RemoteOp.acc x.2.1 == .load || e.getLsbD 30) == x.2.2
        && decide (p.asidFirst ≤ e.toNat % 1024 ∧ e.toNat % 1024 < p.asidFirst + p.asidCount),
     let e : Half := BitVec.ofNat 32 (2 ^ 31 + 2 * 2 ^ 20 + 1 * 2 ^ 10 + 1)
     let s := inPart fun p => { p with fxent := [(0, e)] }
     (s.parts.get? 0).any fun p => p.exportFor 1 2 == some e && decide (p.asidFirst + p.asidCount ≤ e.toNat % 1024),
     [0, 1].all fun t => let s := { placed with tsc := 0, fab := { placed.fab with retries := [(lineMsg peerLine (.ask true), t)] } }
      s.fab.retries[0]? == some (lineMsg peerLine (.ask true), t) && decide (t ≤ s.tsc) == (t == 0),
     sent asking FabMsg.request fun m => m.body == .ask false, sent writingBack FabMsg.request fun m => m.writes,
     sent atomSent FabMsg.request fun m => m.atoms, sent answering (fun m => !m.request && !m.isRecall) fun _ => true,
     sent recalling FabMsg.isRecall fun _ => true, !placed.lost.contains (2 ^ 60 + peerLine),
     [false, true].all fun d => let s := { placed with fab := { placed.fab with dirty := if d then [peerLine] else [] } }
      s.fab.dirty.contains peerLine == d,
     [(false, asking), (true, writingBack)].all fun x => [0, 50000].all fun t => let s := { x.2 with tsc := x.2.tsc + t }
      ((s.fab.unacked ++ s.fab.waiting).find? fun y => decide (y.2.tag = (lineMsg peerLine .released).tag ∧ y.2.writes = x.1
        ∧ y.2.sent + 50000 ≤ s.tsc)).isSome == (t != 0),
     { placed with fab := { placed.fab with remap := some (3, [0]) } }.fab.remap == some (3, [0]),
     (placed.fab.link 15).up && (placed.fab.link 15).attempts == 0,
     [3, 10].all fun n => let l := (linked n (some ([], 1)) none).fab.link 15
      l.up && decide (2 < l.attempts) && l.damaged == some ([], 1) && decide (l.attempts < 10) == (n == 3),
     [1, 2].all fun n => let l := (linked n (some ([1], 0)) none).fab.link 15
      l.damaged == some ([1], 0) && decide (0 < l.attempts ∧ l.attempts ≤ 2),
     ((linked 0 none (some 2)).fab.link 15).damaged == none, ((linked 1 (some ([1], 0)) none).fab.link 15).prevKey == none,
     asking.fab.unacked.all fun x => x.2.dest != 7] = true := by decide +kernel
theorem witness_HostAccesses : allHold
    [decide (0 < ([1] : List Byte).length ∧ (0x5FFFFFFFFF#64).toNat % 128 + 1 ≤ 128 ∧ (0x5FFFFFFFFF#64).toNat < 384 * 2 ^ 30),
     partAt placed 0x1000 != none, hostWants placed 0x10100 true == [],
     hostWants { placed with fab := { placed.fab with peers := [⟨0x10100 / 128, 0, 8, 5, true⟩] } } 0x10100 false != [], partAt placed 0x5FFFFFFFFF == none, decide (65532 < 65536 ∧ 65532 % 4 = 0)] = true := by decide +kernel
/-- The package up, with no partition. -/
def open_ : State := { State.reset with kiln := { State.reset.kiln with phase := 7, busy := false } }
theorem witness_PartitionLifetime : allHold
    [!open_.kiln.busy && !open_.kiln.recovery, createCode open_ 7 2 14 0 1024 == 0, createCode open_ 7 16 0 0 1024 == 0,
     createCode open_ 7 3 0 0 1 == 1, createCode placed 0 2 2 1 1 == 2, createCode placed 1 2 0 1 1 == 3, createCode placed 1 2 2 0 1 == 4,
     createCode open_ 7 2 14 1 1024 == 4, !placed.kiln.busy && !placed.kiln.recovery && (placed.parts.get? 0).isSome] = true := by
  decide +kernel
theorem witness_HaltAndSwap : allHold
    [[HaltState.running, .halting, .swapped].all fun h => ((inPart fun p => { p with halt := h }).parts.get? 0).any fun p => p.halt == h,
     let s := inSplit (fun p => { p with stopped := true }) (inPart fun p => { p with halt := .halting })
     let s := { s with tsc := 20000 }
     (s.parts.get? 0).any fun p => p.halt == .halting && haltReady s 0 p && decide (s.tsc ≤ s.kiln.haltAt + 20000),
     let s := { (inPart fun p => { p with halt := .halting }) with tsc := 20001 }
     (s.parts.get? 0).any fun p => p.halt == .halting && !haltReady s 0 p && decide (s.kiln.haltAt + 20000 < s.tsc)] = true := by
  decide +kernel
theorem witness_BootAndFirmware : allHold
    [({ open_ with kiln := { open_.kiln with staged := some [] } } : State).kiln.staged == some [], !open_.kiln.busy] = true := by decide +kernel
theorem witness_Attestation : allHold
    [8 < 9 && open_.kiln.phase == 7, open_.kiln.stage 8 == 0, (open_.setSession 8 [1]).kiln.stage 8 == 1,
     (open_.setSession 8 [2]).kiln.stage 8 == 2] = true := by decide +kernel
/-- Partition 0 with an established session on its instance. -/
def session : State := placed.setSession 1 [2]
/-- A key record for it. -/
def keyRec (op slot len : Nat) : List Byte :=
  [BitVec.ofNat 8 op, BitVec.ofNat 8 slot, 0, 0] ++ bindingOf session 1 ++ List.replicate (len - 36) 0
theorem witness_KeyRecords : allHold
    [session.kiln.stage 1 == 2 && (session.parts.get? 0).any fun p => !p.launchedOnce && !p.sealed,
     [(1, 0, 36), (2, 1, 100), (2, 63, 100), (3, 63, 36)].all fun x => keyRecordOk (keyRec x.1 x.2.1 x.2.2) x.1 x.2.2
      && (((keyRec x.1 x.2.1 x.2.2).drop 4).take 32) == bindingOf session 1,
     [true, false].all fun b => let s := session.mapPart 0 fun p => { p with sealed := true, launchedOnce := b, keys := [(63, [])] }
      bindingOf s 1 == bindingOf session 1
        && (s.parts.get? 0).any fun p => p.sealed && p.launchedOnce == b && (p.keys.get? 63).isSome && p.keys.get? 1 == none,
     (session.kernels.any fun k => k.2.part == 0), { session with kernels := [] }.kernels.all fun k => k.2.part != 0] = true := by
  decide +kernel

/-- The word of a no-operation placed at reset. -/
def fetched : State := State.reset.withFetchWord 64 ((encode (.nop lane)).elim 0 (·.toNat))
/-- What a step in the turn of scheduler 0 starts from, with the word its split runs. -/
def turns (a : State) (idx : Nat) : Bool :=
  let f := { freshClk a 0 with port := 1 }
  (choose f 0).any fun x =>
    let b := { f with act := (x.1, x.2.2.1), owner := f.owner.put 0 (splitKey x.1 x.2.2.1), issued := f.issued.put 0 f.clk }
    b.warpAborted x.2.1 == false && b.warpHalting x.2.1 == false && x.2.2.2.idx == idx && (dominatedLanes b x.2.1 x.2.2.2 == 0
      && match fetchWord b (b.partOf x.2.1) (b.asidOf x.2.1) x.2.1.block x.2.2.2.at_ with
        | .ok (_, w) => decide (decode w = .ok (.nop lane))
        | .error _ => false)
theorem witness_StepRunsTheFetchedWord : allHold
    [fetched.agenda == [.port 0], turns (tick { fetched with agenda := [] }) 1,
     let s := { inSplit (fun p => { p with idx := 0 }) fetched with agenda := [], draws := 6 }
     decide (s.draws % 8 ≠ 7) && (headerSplit (tick s)).any fun x => x.2.2.2.idx == 0
      && ({ tick s with act := (x.1, x.2.2.1) } : State).warpAborted x.2.1 == false
      && ({ tick s with act := (x.1, x.2.2.1) } : State).warpHalting x.2.1 == false,
     let s := { fetched with agenda := [], draws := 6 }
     decide (s.draws % 8 ≠ 7) && (headerSplit (tick s)).isNone && nearestPort (tick s) == some 0 && turns (tick s) 1,
     match resolve fetched 0 0 1 (textVa + 8) 8 .fetch with
      | .ok x => !placeLost x.1 0 x.2 8
      | .error _ => false,
     (Instr.qpost 0 1).head == none] = true := by decide +kernel
theorem witness_StepsKeepMemoryCanonical : State.reset.memWf ∧ fetched.memWf ∧ (match step fetched with
    | .next _ => true
    | _ => false) = true := by decide +kernel
theorem witness_DecodeInvertsEncode : (Instr.nop lane).wf = true ∧ (encode (.nop lane)).isSome := by decide +kernel
theorem witness_TrapEntry : allHold
    [let s := other (inPart fun p => p.write 0x010 0x100)
     (s.warps.get? 1).any fun w => (w.splits.get? 0).any fun p => p.saved.isNone && (s.parts.get? (s.partOf w)).elim 0 Partition.tvec == 0x100
      && (s.warps.get? 2).isSome,
     (placed.warps.get? 1).any fun w => (placed.parts.get? (placed.partOf w)).elim 0 Partition.tvec == 0,
     ((superv placed).warps.get? 1).any fun w => (w.splits.get? 0).any fun p => p.saved.isSome,
     (placed.warps.get? placed.act.1).any fun w => (w.splits.get? placed.act.2).isSome
      && rowOf (Raw.of (0x3207000000000000#64).toNat).op == none] = true := by decide +kernel
/-- The placed split in the handler of a trap taken with warp 2 at the first word of its clause. -/
def handling : State := (inSplit (fun p => { p with saved := some ⟨[], 0, 0, .block, [2], textVa + 8, textVa, textHeader⟩ }) (other placed)).mapWarp 1
  fun w => { w with trapRegs := { w.trapRegs with tpcHi := hi32 (textVa + 8), tpcLo := lo32 (textVa + 8) } }
/-- The state, warp and saved values of a return. -/
def returns (s : State) (ok : State → Warp → Saved → Word → Bool) : Bool :=
  (s.warps.get? 1).any fun w => (w.splits.get? 0).any fun p => p.saved.any fun v => ok s w v (w.trapRegs.tpcHi ++ w.trapRegs.tpcLo)
theorem witness_TrapReturn : allHold
    [returns (superv placed) fun s w v tpc => v.suspended == [] && resumeIdx v tpc == none && (rereadHeader s w v tpc).2.2 == none,
     returns handling fun s w v tpc => v.suspended == [2] && resumeIdx v tpc == some 1 && (rereadHeader s w v tpc).2.2 == none
      && (fetchWord s (s.partOf w) (s.asidOf w) w.block v.pc).isOk,
     returns (handling.mapPart 0 fun p => { p with tlb := [] }) fun s w v tpc => resumeIdx v tpc == some 1
      && (rereadHeader s w v tpc).2.2 == some Code.pageFault && !(fetchWord s (s.partOf w) (s.asidOf w) w.block v.pc).isOk,
     [Wait.trapped, .flags].all fun x => ((waiting x placed).warps.get? 1).any fun w => (w.splits.get? 0).any fun q => q.wait == x,
     1 ≤ 1 && (textVa + 8) == textVa + BitVec.ofNat 64 (8 * 1), [1, 2].all fun k => textVa + 0x80 != textVa + BitVec.ofNat 64 (8 * k)] = true := by
  decide +kernel
theorem witness_PrivilegeChecks : allHold
    [(placed.warps.get? placed.act.1).any fun w => (w.splits.get? placed.act.2).any fun p => p.saved.isNone
      && p.idx == (Header.of p.header).count && !srUser (0x0E5#12).toNat && srUser (0x10F#12).toNat && !srUser (0x110#12).toNat,
     (inSet 3 placed).warps.get? 1 |>.any fun w => w.setId.isSome,
     ((superv placed).warps.get? 1).any fun w => (w.splits.get? 0).any fun p => p.saved.isSome && p.idx == (Header.of p.header).count,
     (placed.warps.get? 1).any fun w => (w.splits.get? 0).any fun p =>
      ((dynamicCheck (.getsr lane (.v 1) 0x010) lane w p).map (·.1)) == some Code.privilege,
     srKnown (0xFFF#12).toNat == false] = true := by decide +kernel
theorem witness_ConstantRegisters : allHold
    [(placed.warps.get? 1).any fun w => !w.packed && w.setId == none && w.vregs.get? 191 == none] = true := by decide +kernel

/-! ## Single steps, with the results the manual's worked examples give (rules named), or worked out by hand -/

/-- A word executed in a state made from the one its fetch leaves, and a test of the state it leaves. -/
def runs (i : Instr) (f : State → State) (ok : State → Bool) : Bool :=
  match exec i (f (stand i)) with
  | .next t => ok t
  | _ => false
/-- The placed warp's part. -/
def me : UPart := ⟨1, 0, allLanes, allLanes, 0⟩
/-- A lane of a register of the placed warp. -/
def at_ (t : State) (r : Reg) (l : Nat) : Half := t.reg me r l
/-- A vector register of the placed warp. -/
def setV (n : Nat) (f : Nat → Half) (s : State) : State :=
  s.mapWarp 1 fun w => { w with vregs := w.vregs.put n (.row (rowOfLanes f)) }
/-- The fst bits of the placed split. -/
def fstOf1 (t : State) : Half := at_ t .fst 0
/-- The placed split. -/
def split1 (t : State) : Split := ((t.warps.get? 1).bind fun w => w.splits.get? 0).getD setupSplit

/-- R229, R230, R231: sums wrap; a saturating sum clamps and sets fst.sat; division by 0 gives all ones and fst.invalid. -/
theorem test_integer : allHold
    [runs (.add lane .i32 (.v 1) .lid .ones) id fun t => at_ t (.v 1) 0 == 0xFFFFFFFF && at_ t (.v 1) 31 == 30,
     runs (.add lane .i64 (.v 2) (.s 4) (.s 6)) (fun s => setS2 4 0xFFFFFFFF (setS2 6 1 s)) fun t => at_ t (.v 2) 3 == 0 && at_ t (.v 3) 3 == 1,
     runs (.addsat lane .i32 (.v 1) (.s 4) (.s 4)) (setS 4 0x7FFFFFFF) fun t => at_ t (.v 1) 0 == 0x7FFFFFFF && (fstOf1 t).getLsbD 0,
     runs (.idiv lane .i32 (.v 1) .lid .zero) id fun t => at_ t (.v 1) 5 == 0xFFFFFFFF,
     runs (.idiv lane .i32 (.v 1) (.s 4) (.s 5)) (fun s => setS 4 0xFFFFFFF9 (setS 5 2 s)) fun t => at_ t (.v 1) 0 == 0xFFFFFFFD,
     runs (.irem lane .i32 (.v 1) (.s 4) (.s 5)) (fun s => setS 4 0xFFFFFFF9 (setS 5 2 s)) fun t => at_ t (.v 1) 0 == 0xFFFFFFFF,
     runs (.mulhi lane .i32 (.v 1) .ones (.s 5)) (setS 5 2) fun t => at_ t (.v 1) 0 == 0xFFFFFFFF,
     runs (.madw lane .n32 (.v 2) .ones .ones (.s 6)) (setS2 6 1) fun t => at_ t (.v 2) 0 == 2 && at_ t (.v 3) 0 == 0xFFFFFFFE,
     runs (.min lane .i8x4 (.v 1) (.s 4) .zero) (setS 4 0x017F80FF) fun t => at_ t (.v 1) 0 == 0x000080FF,
     runs (.dot4 lane .i8 (.v 1) (.s 4) (.s 5) .ones false) (fun s => setS 4 0x01020304 (setS 5 0xFF010101 s)) fun t => at_ t (.v 1) 0 == 7,
     runs (.sad lane (.v 1) (.s 4) (.s 5) .zero) (fun s => setS 4 0x01FF0010 (setS 5 0xFF010020 s)) fun t => at_ t (.v 1) 0 == 254 + 254 + 16]
    = true := by decide +kernel
/-- R232, R233, R234: shifts by the width or more, the funnel shift, bit fields, and a LOP3 table of three-way exclusive or. -/
theorem test_logic : allHold
    [runs (.lop3 lane (.v 1) (.s 4) (.s 5) .ones 0x96) (fun s => setS 4 0xF0 (setS 5 0xCC s)) fun t => at_ t (.v 1) 0 == 0xFFFFFFC3,
     runs (.shl lane false (.v 1) .ones (.s 4)) (setS 4 32) fun t => at_ t (.v 1) 0 == 0,
     runs (.shr lane .i32 (.v 1) (.s 5) (.s 4)) (fun s => setS 4 40 (setS 5 0x80000000 s)) fun t => at_ t (.v 1) 0 == 0xFFFFFFFF,
     runs (.fsh lane (.v 1) (.s 4) (.s 5) (.s 6) false) (fun s => setS 4 0x12345678 (setS 5 0x9ABCDEF0 (setS 6 8 s))) fun t => at_ t (.v 1) 0 == 0x3456789A,
     runs (.shrr lane (.v 1) (.s 4) (.s 5)) (fun s => setS 4 6 (setS 5 2 s)) fun t => at_ t (.v 1) 0 == 2,
     runs (.popc lane (.v 1) .lid) id fun t => at_ t (.v 1) 31 == 5, runs (.clz lane (.v 1) .lid) id fun t => at_ t (.v 1) 0 == 32 && at_ t (.v 1) 16 == 27,
     runs (.brev lane (.v 1) .lid) id fun t => at_ t (.v 1) 1 == 0x80000000, runs (.ffs lane (.v 1) .lid) id fun t => at_ t (.v 1) 12 == 2]
    = true := by decide +kernel
/-- R235 to R238: compares, selection, moves; a write to zero is discarded. -/
theorem test_predicates_and_moves : allHold
    [runs (.cmp lane .i32 1 .lid (.s 4) .lt 0) (setS 4 16) fun t => t.predOf me 1 == 0xFFFF,
     runs (.sel lane (.v 1) .ones .lid 1 true) evenLanes fun t => at_ t (.v 1) 3 == 0xFFFFFFFF && at_ t (.v 1) 4 == 4,
     runs (.plop lane 2 1 1 7 0x80) evenLanes fun t => t.predOf me 2 == 0x55555555,
     runs (.movu lane (.s 4) 0xABCDEF1) (setS 4 0x12345678) fun t => at_ t (.s 4) 0 == 0xABCDEF18,
     runs (.mov lane .zero .lid) id fun t => at_ t .zero 9 == 0,
     runs (.lea lane .i32 (.v 2) (.s 4) (.s 6) 3) (fun s => setS2 4 0x100 (setS 6 0xFFFFFFFF s)) fun t => at_ t (.v 2) 0 == 0xF8 && at_ t (.v 3) 0 == 0]
    = true := by decide +kernel
/-- R241, "Edges and dead lanes, worked": SHFL.down with lane 20 cancelled; SLIDE.b16.up by one. -/
theorem test_shfl_and_slide_worked : allHold
    [runs (.shfl warp .down (.v 5) (.v 4) (.s 9) .zero false 5 1) (fun s => setS 9 16 (setV 4 (fun l => BitVec.ofNat 32 (10 + l))
        (inSplit (fun p => { p with mask := 0xFFEFFFFF }) s))) fun t =>
      at_ t (.v 5) 0 == 26 && at_ t (.v 5) 15 == 41 && at_ t (.v 5) 4 == 0 && at_ t (.v 5) 16 == 0 && t.predOf me 1 == 0xFFEF,
     runs (.slide warp true (.v 6) (.v 3) (.s 11) .zero false 2) (fun s => setS 11 1 (setV 3 (fun l =>
        if l = 0 then 0x00020001 else if l = 1 then 0x00040003 else 0) s)) fun t =>
      at_ t (.v 6) 0 == 0x00010000 && at_ t (.v 6) 1 == 0x00030002 && !(t.predOf me 2).getLsbD 0 && (t.predOf me 2).getLsbD 1] = true := by
  decide +kernel
/-- R246, "Window intersection, worked"; sums and scans of the lane numbers; the ballot of the even lanes. -/
theorem test_lists_and_reductions : allHold
    [runs (.intersect warp (.v 3) (.v 1) (.v 2) (.s 20)) (fun s =>
        setV 1 (fun l => ([2, 5, 9, 14, 20, 31, 40, 50] : List Half).getD l 0xFFFFFFFF)
          (setV 2 (fun l => ([3, 5, 14, 15, 31, 33, 60, 70] : List Half).getD l 0xFFFFFFFF) s)) fun t =>
      (List.range 9).map (at_ t (.v 3)) == [0xFFFFFFFF, 1, 0xFFFFFFFF, 2, 0xFFFFFFFF, 4, 0xFFFFFFFF, 0xFFFFFFFF, 0xFFFFFFFF]
        && at_ t (.s 20) 0 == 8 && at_ t (.s 21) 0 == 6,
     runs (.compact warp (.v 1) .lid (.s 4) .ones 1 true) evenLanes fun t => at_ t (.v 1) 0 == 1 && at_ t (.v 1) 15 == 31
      && at_ t (.v 1) 16 == 0xFFFFFFFF && at_ t (.s 4) 0 == 16,
     runs (.reduce warp .i32 (.s 4) .lid .add false) id fun t => at_ t (.s 4) 0 == 496,
     runs (.scan warp .i32 (.v 1) .lid .add true false) id fun t => at_ t (.v 1) 0 == 0 && at_ t (.v 1) 4 == 6,
     runs (.vote warp (.ballot (.s 4) false) 1 false) evenLanes fun t => at_ t (.s 4) 0 == 0x55555555,
     runs (.matchLanes warp (.v 1) .zero 1) id fun t => at_ t (.v 1) 7 == 0xFFFFFFFF && t.predOf me 1 == 0xFFFFFFFF] = true := by
  decide +kernel
/-- R174, R176, R260, R179: rounding, an invalid operation, the conversions of R260's examples, a product-sum rounded
once, and the block scale of the largest magnitude 300 for E4M3. -/
theorem test_floats : allHold
    [runs (.fadd lane .f32 (.v 1) (.s 4) (.s 5) .rne) (fun s => setS 4 0x3F800000 (setS 5 0x33800000 s)) fun t => at_ t (.v 1) 0 == 0x3F800000,
     runs (.fadd lane .f32 (.v 1) (.s 4) (.s 5) .ru) (fun s => setS 4 0x3F800000 (setS 5 0x33800000 s)) fun t => at_ t (.v 1) 0 == 0x3F800001,
     runs (.fmul lane .f32 (.v 1) .zero (.s 5) .rne) (setS 5 0x7F800000) fun t => at_ t (.v 1) 0 == 0x7FC00000 && (fstOf1 t).getLsbD 2,
     runs (.ffma lane .f32 (.v 1) (.s 4) (.s 4) (.s 5) .rne) (fun s => setS 4 0x3F800001 (setS 5 0xBF800002 s)) fun t => at_ t (.v 1) 0 == 0x28800000,
     runs (.cvt lane (.f32i32 .rne) (.v 1) (.s 4) (.v 0)) (setS 4 16777217) fun t => at_ t (.v 1) 0 == 0x4B800000,
     runs (.cvt lane (.i32f32 .rz) (.v 1) (.s 4) (.v 0)) (setS 4 0xC02CCCCD) fun t => at_ t (.v 1) 0 == 0xFFFFFFFE,
     runs (.qscale lane .x1 (.v 1) (.s 4) (.v 0)) (fun s => setS 4 0x43960000 (inSplit (fun p => { p with fmt := 0x400 }) s)) fun t =>
      at_ t (.v 1) 0 == 127,
     runs (.frcp lane (.v 1) .zero .rne) id fun t => at_ t (.v 1) 0 == 0x7F800000 && fstOf1 t == 0,
     runs (.fclass lane (.v 1) .zero .f32) id fun t => at_ t (.v 1) 0 != 0] = true := by decide +kernel
/-- R279, "A wrapping counter, worked": four lanes of ATOM.inc.n32 with bound 2 on a word that holds 1. -/
theorem test_atom_inc_worked :
    let s := { inFlight (.atom .incN32 (.v 6) ((List.range 4).map fun l => ⟨1, l, l, textVa + 0x100, .scratch 1 0, 2, 0, none⟩)) with
      blocks := (inBlock (fun b => b.writeScratch 0 [1, 0, 0, 0]) placed).blocks }
    (match exec (.atomPerform 5) s with
      | .next t => (List.range 4).map (at_ t (.v 6)) == [1, 2, 0, 1] && ((t.blocks.get? 1).elim [] fun b => b.bytes 0 4) == [2, 0, 0, 0]
      | _ => false) = true := by decide +kernel
/-- R275, R30: a store writes its bytes from the least significant one; lanes of a warp write their own words. -/
theorem test_store_scratch :
    runs (.st lane .b32 (.s 5) { perLane with scale := 2 } 0) (fun s => setS 5 0x04030201 (setS2 2 0x00FF000000000000 s)) (fun t =>
      (t.blocks.get? 1).any fun b => b.bytes 0 5 == [1, 2, 3, 4, 1] && b.bytes 124 5 == [1, 2, 3, 4, 0]) = true := by decide +kernel
/-- R299, "Ties and order, worked". -/
theorem test_incumbent_worked :
    let arrives := fun (ups : List (Half × Half)) (v m : Half) =>
      let s := setIncumbent (inFlight (.kupd 0 false ups false)) 0 0 ⟨false, false, 10, 7⟩ []
      match exec (.incumbentUpdateArrival 0 0 false ups) s with
      | .next t => (t.incumbent 0 0).value == v && (t.incumbent 0 0).witness == m && t.pend == []
      | _ => false
    (arrives [(9, 1), (10, 3), (10, 5), (12, 8)] 12 8 && arrives [(9, 1), (10, 3), (10, 5)] 10 3) = true := by decide +kernel
/-- "Three bins, worked" (R320, R322): counts 3, 2, 2, then lengths 12, 8, 8 of items of 4 bytes. -/
theorem test_bins_worked :
    (match exec (.binCommandCompletion 5) (inFlight (.binc 1 0x40 3 [0, 2, 1, 0, 2, 0, 9, 1])) with
      | .next t => ((t.blocks.get? 1).elim [] fun b => b.bytes 0x40 12) == leBytes 4 3 ++ leBytes 4 2 ++ leBytes 4 2
        && ((t.blocks.get? 1).elim [] fun b => (patchHolds b ((List.range 3).map fun i =>
          ⟨textVa, 0x100, BitVec.ofNat 32 i, 0x40, 2, .core, none⟩)).1.map (·.len)) == [some 12, some 8, some 8]
      | _ => false) = true := by decide +kernel
/-- R301, R302, R303: arrivals complete a phase; a slot's offset. -/
theorem test_barrier_and_queue : allHold
    [runs (.abarrive lane (.v 3) .zero .zero) (inBlock fun b => b.writeScratch 0 (leBytes 4 32 ++ leBytes 4 0 ++ List.replicate 8 0)) fun t =>
      at_ t (.v 3) 0 == 0 && (t.blocks.get? 1).any fun b => decide ((b.abar 0).gen ≤ 1),
     runs (.qacqFree warp (.s 4) 7) (inBlock fun b => { b with queues := [(7, ⟨0x100, 4, 32, 2, 0, 3, 0, 0, 0⟩)] }) fun t =>
      at_ t (.s 4) 0 == 0x160 && (queueOf t 1 7).any fun q => q.free == 1 && q.pi == 0] = true := by decide +kernel
/-- R52, R309, "Worked example: two kernels on one core": the pool word 0x08370001 answers code 4. -/
theorem test_poolset_worked :
    runs (.poolset warpA (.v 4) (.s 5)) (setS 5 0x08370001) (fun t => at_ t (.v 4) 0 == 4) = true := by decide +kernel
/-- R289, R290, R291: a branch goes to target clauses counted from its own header; a call leaves the next clause. -/
theorem test_transfers : allHold
    [runs (.bra lane 4 0) id fun t => (split1 t).pc == textVa + 32 && (split1 t).idx == 0,
     runs (.bra lane 0x3FFF 0) id fun t => (split1 t).pc == textVa - 8,
     runs (.call lane (.s 4) 4 0) id fun t => (split1 t).pc == textVa + 32 && at_ t (.s 4) 0 == 0x10 && at_ t (.s 5) 0 == 0x400,
     runs (.nop lane) id fun t => (split1 t).pc == textVa + 16 && (split1 t).idx == 0,
     runs (.exit { lane with guard := 1 }) evenLanes fun t => (split1 t).mask == 0xAAAAAAAA && (split1 t).pc == textVa + 16] = true := by
  decide +kernel
/-- R346, R347, R304: TRAP at lanes 0 to 3 of a split, the others go on; the code stands in tinfo1. -/
theorem test_trap :
    runs (.trap { lane with guard := 1 } .lid 0x123) (fun s => (s.mapPart 0 fun p => p.write 0x010 0x4000).mapWarp 1 fun w =>
      { w with preds := w.preds.put 1 0xF }) (fun t => (t.warps.get? 1).any fun w => w.trapRegs.tmask == 0xF
        && w.trapRegs.tcause.toNat % 256 == Code.swTrap && w.trapRegs.tinfo == [0, 0x123, 0, 0] && w.trapRegs.tpcLo == 8
        && w.splits.any fun p => p.2.mask == 0xF && p.2.pc == 0x4000 && p.2.saved.isSome) = true := by decide +kernel
/-- "A walk, worked" (R85, R86, R89, R94): the entries of the manual, at its addresses. -/
theorem test_walk_worked :
    let s := { placed.mapPart 0 (fun p => { p with sysregs := p.sysregs.put 0x0C8 0x01000000, asidCount := 1024, tlb := [] }) with
      mem := [(0x01000028, 0x1000000001), (0x1000000000, 0x1000002001), (0x1000002100, 0x1000004001), (0x1000004000, 0x1000006001),
        (0x1000006020, 0x400012000063)].foldl (fun m x => setCells m (cellsFrom x.1 (leBytes 8 x.2))) []
      kiln := { placed.kiln with quarters := (List.range 16).map fun q => (q, 0) } }
    (match resolve s 0 5 1 0x20000040100 4 .load, resolve s 0 5 1 0x20000040100 4 .store with
      | .ok x, .ok y => x.2 == .phys 0x4000120100 none && plain64 x.1 none 0x1000006020 == 0x400012000163
        && plain64 y.1 none 0x1000006020 == 0x400012000363
      | _, _ => false) = true := by decide +kernel
/-- R361, "Eight blocks, worked": the rank order of a grid of 4 by 2. -/
theorem test_ranks_worked : ({ setupKernel with gx := 4, gy := 2, det := true }.order_) = [0, 1, 5, 4, 7, 6, 2, 3] := by decide +kernel
/-- R332, "One group, worked": the scaled product 4 × 2 × 2^-1 × 2^2 = 16 in C[0][5]. -/
theorem test_mma_worked :
    let m : MmaArgs := ⟨4, 4, false, [(0, 0x48)], [(160, 0x40)], [], (List.range 256).map fun i =>
      (i, if i = 0 then 0x7F7F7F7E else if i = 74 then 0x7F7F7F81 else 0x7F7F7F7F), true, true, 0x1040, false⟩
    (m.result.1.find? fun x => x.1 == 5) = some (5, 0x41800000#32) := by decide +kernel
/-- R339, R340, "Factor and solve, worked". -/
theorem test_solver_worked :
    let x := tluRun 32 8 2 [[0x100, 0x200], [0x300, 0x400]]
    let lu : Mat := [[0x300, 0x400], [0x55, 0xAC]]
    (x.m == lu && x.piv == [1, 1] && x.z == none && x.st == 0
      && (lowerColumn 32 8 2 lu [0x600, 0x500]).1 == [0x600, 0x302] && (upperColumn 32 8 2 lu [0x600, 0x302]).1 == [-0x3F8, 0x47A]
      && (tluRun 32 8 2 [[0, 0x200], [0, 0x300]]).m == [[1, 0x200], [0, 0x300]] && (tluRun 32 8 2 [[0, 0x200], [0, 0x300]]).z == some 0)
      = true := by decide +kernel

end Sys2Proof.Tests
end

section
/-! PROOFS. The register poolctl and the checks of a pool word it opens (R42, R52), and the default word of a region's
absent tiles (R72, R73). -/

namespace Sys2Proof.Machine

/-! ## poolctl -/

/-- At CREATE poolctl holds the reset value of R42, whatever the partition owns. -/
theorem Partition.start_sys_poolctl (first count asidFirst asidCount : Nat) :
    (Partition.start first count asidFirst asidCount).sys 0x0E5 = 1 := rfl

/-- poolctl is an ordinary register of the map whose write mask keeps bit 0 (R5, R42). -/
theorem Partition.write_poolctl (p : Partition) (x : Half) :
    p.write 0x0E5 x = { p with sysregs := p.sysregs.setNum 0x0E5 (x &&& 1#32) } := rfl

theorem Partition.sys_write_poolctl (p : Partition) (x : Half) : (p.write 0x0E5 x).sys 0x0E5 = x &&& 1#32 := by
  simp [Partition.write_poolctl, Partition.sys, Tab.num_setNum]

/-! ## The checks of a pool word -/

/-- Check 1 of R52: with upool 0 a word asked for at user level is refused before anything else of it is looked at. -/
theorem poolCheck_of_not_upool {s : State} {u : IssueUnit} {p : Partition} (x : Half) (hp : s.parts.get? u.part = some p)
    (hu : u.super = false) (h : (p.sys 0x0E5).getLsbD 0 = false) : poolCheck s u x = some 5 := by
  simp only [poolCheck, hp, hu, h, Option.elim, Bool.not_false, Bool.and_self, if_true]

/-- With upool 1, counts within their limits and no change running, checks 1 to 4 of R52 pass, and checks 5 to 8 give
the code. -/
theorem poolCheck_of_upool {s : State} {u : IssueUnit} {x : Half} {p : Partition} (hp : s.parts.get? u.part = some p)
    (h : (p.sys 0x0E5).getLsbD 0 = true) (hx : poolBad x = false) (hc : (s.core u.core).change = none) :
    poolCheck s u x = roomCode s u.core (!u.super) x := by
  simp [poolCheck, hp, h, hx, hc, Core.busyCode]

/-- Code 5 of checks 5 to 8 stands for a floor alone: where none is passed below, the room checks answer other codes. -/
theorem roomCode_ne_five_of_floors {s : State} {core : Nat} {x : Half} (user : Bool)
    (hf : ((heldAsk s core).floor :: coreFloors s core).any (belowFloor x) = false) : roomCode s core user x ≠ some 5 := by
  have hfloor : (user && ((heldAsk s core).floor :: coreFloors s core).any fun f => belowFloor x f) = false := by
    rw [hf, Bool.and_false]
  simp only [roomCode, hfloor, Bool.false_eq_true, if_false]
  split_ifs <;> simp

/-! ## The default word of absent tiles -/

/-- A byte of a tile that does not exist is the default byte of its region (R73). -/
theorem placeByte_of_absent {s : State} {part r t : Nat} {g : Region} (o : Nat) (k : Key) (i : Nat)
    (hg : s.region? part r = some g) (ht : g.tiles.get? t = none) :
    placeByte s part (.tile r t o k) i = g.dfltByte (o + i) := by
  simp only [placeByte, hg, ht]

/-- The default word that the bytes of a descriptor name, by dkind and dfmt; `none` where R72 refuses the format. -/
def descriptorWord (bs : List Byte) : Option Half :=
  if fieldOf bs 19 1 / 32 % 2 = 0 then some (BitVec.ofNat 32 (fieldOf bs 20 4)) else nanWord (fieldOf bs 19 1 / 2 % 16)

theorem descriptorWord_of_dkind_zero {bs : List Byte} (h : fieldOf bs 19 1 / 32 % 2 = 0) :
    descriptorWord bs = some (BitVec.ofNat 32 (fieldOf bs 20 4)) := if_pos h

theorem descriptorWord_of_dkind_one {bs : List Byte} (h : fieldOf bs 19 1 / 32 % 2 = 1) :
    descriptorWord bs = nanWord (fieldOf bs 19 1 / 2 % 16) := if_neg (by omega)

/-- Only the formats of codes 0 to 4 have a NaN of their own word (R73). -/
theorem nanWord_of_four_lt {f : Nat} (h : 4 < f) : nanWord f = none := by
  have hne : f ≠ 0 ∧ f ≠ 1 ∧ f ≠ 2 ∧ f ≠ 3 ∧ f ≠ 4 := by omega
  simp [nanWord, hne]

/-- The descriptors that R72 refuses: of no tile size, without a default word, empty, or with a field out of form. -/
def descriptorRefused (bs : List Byte) : Prop :=
  fieldOf bs 19 1 / 2 ^ 6 = 3 ∨ (descriptorWord bs).isNone ∨ fieldOf bs 8 4 = 0 ∨ fieldOf bs 16 3 ≠ 0
    ∨ fieldOf bs 0 8 % 2 ^ 26 ≠ 0 ∨ 2 ^ 56 ≤ fieldOf bs 0 8 ∨ fieldOf bs 24 8 % 128 ≠ 0

theorem Region.load_of_refused (g : Region) {bs : List Byte} (h : descriptorRefused bs) :
    g.load bs = { g with valid := false } := if_pos h

theorem Region.load_pattern_of_accepted (g : Region) {bs : List Byte} (h : ¬ descriptorRefused bs) :
    (g.load bs).pattern = (descriptorWord bs).getD 0 := congrArg Region.pattern (if_neg h)

/-- A descriptor whose bytes name no default word is refused (R72). -/
theorem Region.load_valid_of_no_word (g : Region) {bs : List Byte} (h : descriptorWord bs = none) :
    (g.load bs).valid = false := by
  have href : descriptorRefused bs := .inr (.inl (by simp [h]))
  rw [g.load_of_refused href]

/-- A region in use after a load has the default word that its descriptor names. -/
theorem Region.load_pattern_of_valid {g : Region} {bs : List Byte} {word : Half} (hv : (g.load bs).valid = true)
    (hw : descriptorWord bs = some word) : (g.load bs).pattern = word := by
  have hacc : ¬ descriptorRefused bs := fun href => by simp [g.load_of_refused href] at hv
  rw [g.load_pattern_of_accepted hacc, hw, Option.getD_some]

/-! ## The obligation -/

end Sys2Proof.Machine

namespace Sys2Proof
open Machine

/-- Settles O60, from the mask of poolctl, the codes of the checks of a pool word, and the word a descriptor names. -/
theorem poolControlAndAbsentTiles : Obligations.PoolControlAndAbsentTiles := by
  refine ⟨Partition.start_sys_poolctl, Partition.sys_write_poolctl, ?closed, ?opened, ?absent, ?descriptor⟩
  case closed => exact fun s u x p hp hu h => poolCheck_of_not_upool x hp hu h
  case opened =>
    intro s u x p hp hu h hx hc hf
    rw [poolCheck_of_upool hp h hx hc]
    exact roomCode_ne_five_of_floors _ hf
  case absent => exact fun s part r t o k i g hg ht => placeByte_of_absent o k i hg ht
  case descriptor =>
    intro g bs
    refine ⟨fun hv => ⟨fun h0 => ?_, fun h1 => ?_⟩, fun h1 hf => ?_⟩
    · exact Region.load_pattern_of_valid hv (descriptorWord_of_dkind_zero h0)
    · have hnan : ∀ f word, nanWord f = some word → fieldOf bs 19 1 / 2 % 16 = f → (g.load bs).pattern = word :=
        fun f word hw hf => Region.load_pattern_of_valid hv (by rw [descriptorWord_of_dkind_one h1, hf, hw])
      exact ⟨hnan 0 _ rfl, hnan 1 _ rfl, hnan 2 _ rfl, hnan 3 _ rfl, hnan 4 _ rfl⟩
    · exact g.load_valid_of_no_word (by rw [descriptorWord_of_dkind_one h1, nanWord_of_four_lt hf])

end Sys2Proof
end

section
/-! PROOFS. Lists and tables over a range of numbers, the words that TTRANS makes of the elements of a tile (R336), and
the words and status of the integer MMA (R185). -/

namespace Sys2Proof.Machine

/-! ## Lists and tables over ranges -/

theorem mapIdx_map_range {α β : Type} (f : Nat → α → β) (g : Nat → α) (n : Nat) :
    ((List.range n).map g).mapIdx f = (List.range n).map fun i => f i (g i) :=
  List.ext_getElem (by simp) fun i _ _ => by simp

/-- Rows of one length laid end to end are one row, whose places count through them. -/
theorem flatMap_range_map_range {α : Type} (f : Nat → Nat → α) (m : Nat) (hm : 0 < m) (n : Nat) :
    ((List.range n).flatMap fun i => (List.range m).map (f i)) = (List.range (n * m)).map fun k => f (k / m) (k % m) := by
  induction n with
  | zero => simp
  | succ n ih =>
    have hlast : ∀ k < m, (n * m + k) / m = n ∧ (n * m + k) % m = k := fun k hk =>
      ⟨by rw [Nat.add_comm, Nat.add_mul_div_right k n hm, Nat.div_eq_of_lt hk, Nat.zero_add],
        by rw [Nat.add_comm, Nat.add_mul_mod_self_right, Nat.mod_eq_of_lt hk]⟩
    rw [List.range_succ, List.flatMap_append, ih, Nat.succ_mul, List.range_add, List.map_append, List.flatMap_singleton,
      List.map_map]
    refine congrArg _ (List.map_congr_left fun k hk => ?_)
    obtain ⟨hdiv, hmod⟩ := hlast k (List.mem_range.1 hk)
    rw [Function.comp_apply, hdiv, hmod]

/-- Words written at all numbers below `n` are read back there; the others stand as they were. -/
theorem num_setTileWords_range (t : TileData) (f : Nat → Half) (n k : Nat) :
    (setTileWords t ((List.range n).map fun i => (i, f i))).num k = if k < n then f k else t.num k := by
  induction n with
  | zero => rfl
  | succ n ih =>
    have hstep : setTileWords t ((List.range (n + 1)).map fun i => (i, f i))
        = (setTileWords t ((List.range n).map fun i => (i, f i))).setNum n (f n) := by
      simp [setTileWords, List.range_succ]
    rw [hstep, Tab.num_setNum, ih]
    by_cases hk : k = n
    · simp [hk]
    · simp only [hk, if_false, Nat.lt_succ_iff_lt_or_eq, or_false]

/-! ## Packed words -/

/-- Word `k` of those that elements of `w` bits make. -/
def packWord (w : Nat) (xs : List Nat) (k : Nat) : Half :=
  BitVec.ofNat 32 (((List.range (32 / w)).map fun e => xs.getD (k * (32 / w) + e) 0 % 2 ^ w * 2 ^ (w * e)).foldl (· + ·) 0)

theorem packElems_eq_map (w : Nat) (xs : List Nat) : packElems w xs = (List.range w).map (packWord w xs) := rfl

/-- The digits of word `k` in base 2^w. -/
def wordDigits (w : Nat) (xs : List Nat) (k : Nat) : List Nat :=
  (List.range (32 / w)).map fun e => xs.getD (k * (32 / w) + e) 0 % 2 ^ w

theorem wordDigits_lt {w : Nat} {xs : List Nat} {k x : Nat} (hx : x ∈ wordDigits w xs k) : x < 2 ^ w := by
  obtain ⟨e, -, rfl⟩ := List.mem_map.1 hx
  exact Nat.mod_lt _ (Nat.two_pow_pos w)

theorem packWord_eq_ofDigits (w : Nat) (xs : List Nat) (k : Nat) :
    packWord w xs k = BitVec.ofNat 32 (Nat.ofDigits (2 ^ w) (wordDigits w xs k)) := by
  rw [Nat.ofDigits_eq_sum_mapIdx, wordDigits, mapIdx_map_range, List.sum_eq_foldl]
  simp only [packWord, Nat.pow_mul]

/-! ## The words of a transposed tile -/

/-- Word `k` of square `sq` of row `i` of a transposed tile: elements of column `i` of the square. -/
def squareWord (w : Nat) (a : TileData) (i sq k : Nat) : Half :=
  packWord w ((List.range 32).map fun j => rowField a j (w * (32 * sq + i)) w) k

/-- Word `n` of a transposed tile: words count through the squares of a row, 32 words to a row. -/
def transposedWord (w : Nat) (a : TileData) (n : Nat) : Half := squareWord w a (n / 32) (n % 32 / w) (n % 32 % w)

/-- A field lies within its width. -/
theorem rowField_mod (t : TileData) (i lo w : Nat) : rowField t i lo w % 2 ^ w = rowField t i lo w := Nat.mod_mod ..

/-- Elements of each of the four widths of TTRANS fill a word. -/
theorem width_mul_count : ∀ wd : Fin 4, 32 / 2 ^ wd.val * (32 / (32 / 2 ^ wd.val)) = 32 := by decide

section
variable {w : Nat} (hw : w * (32 / w) = 32)
include hw

theorem width_pos : 0 < w := Nat.pos_of_ne_zero fun h => by simp [h] at hw

theorem packWord_toNat (xs : List Nat) (k : Nat) :
    (packWord w xs k).toNat = Nat.ofDigits (2 ^ w) (wordDigits w xs k) := by
  have hlt := Nat.ofDigits_lt_base_pow_length (Nat.one_lt_two_pow (width_pos hw).ne') fun x => wordDigits_lt (xs := xs) (k := k)
  have hlen : (wordDigits w xs k).length = 32 / w := by simp [wordDigits]
  rw [hlen, ← Nat.pow_mul, hw] at hlt
  rw [packWord_eq_ofDigits, BitVec.toNat_ofNat, Nat.mod_eq_of_lt hlt]

/-- A field of a packed word is the element put there. -/
theorem packWord_field (xs : List Nat) (k : Nat) {e : Nat} (he : e < 32 / w) :
    (packWord w xs k).toNat / 2 ^ (w * e) % 2 ^ w = xs.getD (k * (32 / w) + e) 0 % 2 ^ w := by
  have hlen : e < (wordDigits w xs k).length := by simpa [wordDigits] using he
  rw [packWord_toNat hw, Nat.pow_mul,
    Nat.ofDigits_div_pow_eq_ofDigits_drop e (Nat.two_pow_pos w) _ fun _ => wordDigits_lt, List.drop_eq_getElem_cons hlen,
    Nat.ofDigits_cons, Nat.add_mul_mod_self_left]
  simp [wordDigits]

/-- TTRANS writes every word of its tile once, in order. -/
theorem transposed_words (a : TileData) :
    (transposed w a).1 = (List.range 1024).map fun n => (n, transposedWord w a n) := by
  have hrow : ∀ i, (((List.range (32 / w)).flatMap fun sq =>
        packElems w ((List.range 32).map fun j => rowField a j (w * (32 * sq + i)) w)).mapIdx fun k x => (32 * i + k, x))
      = (List.range 32).map fun k => (32 * i + k, squareWord w a i (k / w) (k % w)) := fun i => by
    have hflat := flatMap_range_map_range (squareWord w a i) w (width_pos hw) (32 / w)
    rw [Nat.mul_comm (32 / w), hw] at hflat
    exact (congrArg _ hflat).trans (mapIdx_map_range ..)
  have htile := flatMap_range_map_range (fun i k => (32 * i + k, squareWord w a i (k / w) (k % w))) 32 (by decide) 32
  simp only [Nat.div_add_mod] at htile
  simp only [transposed, hrow]
  exact htile

/-- Element `k * (32 / w) + e` of square `sq` lies in word `k` of the square's `w` words, as the word's element `e`. -/
theorem field_place (sq k : Nat) {e : Nat} (he : e < 32 / w) :
    w * (32 * sq + (k * (32 / w) + e)) / 32 = w * sq + k ∧ w * (32 * sq + (k * (32 / w) + e)) % 32 = w * e := by
  have hlt : w * e < 32 := hw ▸ Nat.mul_lt_mul_of_pos_left he (width_pos hw)
  have hsum : w * (32 * sq + (k * (32 / w) + e)) = w * e + 32 * (w * sq + k) := by
    calc w * (32 * sq + (k * (32 / w) + e)) = w * e + 32 * (w * sq) + w * (32 / w) * k := by ring
      _ = w * e + 32 * (w * sq + k) := by rw [hw]; ring
  omega

/-- Word `k` of square `sq` is word `w * sq + k` of its row. -/
theorem transposedWord_of_place (a : TileData) (i : Nat) {sq k : Nat} (hsq : sq < 32 / w) (hk : k < w) :
    w * sq + k < 32 ∧ transposedWord w a (32 * i + (w * sq + k)) = squareWord w a i sq k := by
  have hlt : w * sq + k < 32 := by
    calc w * sq + k < w * (sq + 1) := by rw [Nat.mul_succ]; omega
      _ ≤ w * (32 / w) := Nat.mul_le_mul_left w hsq
      _ = 32 := hw
  have hrow : (32 * i + (w * sq + k)) / 32 = i ∧ (32 * i + (w * sq + k)) % 32 = w * sq + k := by omega
  refine ⟨hlt, ?_⟩
  rw [transposedWord, hrow.1, hrow.2, Nat.mul_add_div (width_pos hw), Nat.div_eq_of_lt hk, Nat.mul_add_mod,
    Nat.mod_eq_of_lt hk, Nat.add_zero]

/-- Element (i, 32 sq + j) of the transposed tile is element (j, 32 sq + i) of the tile (R336). -/
theorem rowField_transposed (a : TileData) {i sq j : Nat} (hi : i < 32) (hsq : sq < 32 / w) (hj : j < 32) :
    rowField (setTileWords [] (transposed w a).1) i (w * (32 * sq + j)) w = rowField a j (w * (32 * sq + i)) w := by
  have hper : 0 < 32 / w := Nat.zero_lt_of_lt hsq
  have he : j % (32 / w) < 32 / w := Nat.mod_lt _ hper
  have hk : j / (32 / w) < w := Nat.div_lt_of_lt_mul (by rwa [Nat.mul_comm, hw])
  have hj' : j / (32 / w) * (32 / w) + j % (32 / w) = j := Nat.div_add_mod' ..
  obtain ⟨hdiv, hmod⟩ := field_place hw sq (j / (32 / w)) he
  obtain ⟨hlt, hword⟩ := transposedWord_of_place hw a i hsq hk
  rw [hj'] at hdiv hmod
  calc rowField (setTileWords [] (transposed w a).1) i (w * (32 * sq + j)) w
      = (squareWord w a i sq (j / (32 / w))).toNat / 2 ^ (w * (j % (32 / w))) % 2 ^ w := by
        rw [rowField, transposed_words hw, num_setTileWords_range, hdiv, hmod, if_pos (by omega), hword]
    _ = rowField a j (w * (32 * sq + i)) w := by
        rw [squareWord, packWord_field hw _ _ he, hj']
        simp [hj, rowField_mod]

end

/-! ## Words and status gathered from the elements of a tile -/

theorem allElems_congr {f g : Nat → Nat → Half × Half} (h : ∀ i < 32, ∀ j < 32, f i j = g i j) :
    allElems f = allElems g :=
  List.flatMap_congr fun i hi => List.map_congr_left fun j hj => by
    rw [h i (List.mem_range.1 hi) j (List.mem_range.1 hj)]

theorem mem_allElems {f : Nat → Nat → Half × Half} {x : Nat × Half × Half} :
    x ∈ allElems f ↔ ∃ i < 32, ∃ j < 32, (32 * i + j, f i j) = x := by
  simp [allElems]

theorem mem_gather_allElems (f : Nat → Nat → Half × Half) (st : Half) {i j : Nat} (hi : i < 32) (hj : j < 32) :
    (32 * i + j, (f i j).1) ∈ (gather (allElems f) st).1 :=
  List.mem_map.2 ⟨_, mem_allElems.2 ⟨i, hi, j, hj, rfl⟩, rfl⟩

/-- A status bit gathered is one of the bits it is gathered from. -/
theorem gather_status_getLsbD (xs : List (Nat × Half × Half)) (st : Half) (b : Nat) :
    (gather xs st).2.getLsbD b = (st.getLsbD b || xs.any fun x => x.2.2.getLsbD b) := by
  simp only [gather]
  induction xs generalizing st with
  | nil => simp
  | cons x xs ih => rw [List.foldl_cons, ih, BitVec.getLsbD_or, List.any_cons, Bool.or_assoc]

theorem gather_allElems_status_eq_zero {f : Nat → Nat → Half × Half} (h : ∀ i j, (f i j).2 = 0) :
    (gather (allElems f) 0).2 = 0 :=
  BitVec.eq_of_getLsbD_eq fun b _ => by
    have hnone : (allElems f).any (fun x => x.2.2.getLsbD b) = false := List.any_eq_false.2 fun x hx => by
      obtain ⟨i, -, j, -, rfl⟩ := mem_allElems.1 hx
      simp [h]
    rw [gather_status_getLsbD, hnone, Bool.or_false]

theorem gather_allElems_status_of_bit {f : Nat → Nat → Half × Half} (st : Half) {i j b : Nat} (hi : i < 32) (hj : j < 32)
    (h : (f i j).2.getLsbD b = true) : (gather (allElems f) st).2.getLsbD b = true := by
  have hany : (allElems f).any (fun x => x.2.2.getLsbD b) = true :=
    List.any_eq_true.2 ⟨_, mem_allElems.2 ⟨i, hi, j, hj, rfl⟩, h⟩
  rw [gather_status_getLsbD, hany, Bool.or_true]

/-! ## The integer MMA -/

theorem isFloatCode_of_int {code : Nat} (h8 : 8 ≤ code) (h12 : code ≤ 12) : isFloatCode code = false := by
  have hne : ¬ code ≤ 7 ∧ code ≠ 13 := by omega
  simp [isFloatCode, hne]

/-- Without absent places the sum runs over all K products. -/
theorem intDot_map_some_range (f g : Nat → Int) (n : Nat) :
    intDot (((List.range n).map f).map some) ((List.range n).map g)
      = ((List.range n).map fun k => f k * g k).foldl (· + ·) 0 := by
  rw [intDot, List.map_map, List.zip_map', List.filterMap_map, ← List.filterMap_eq_map]
  rfl

/-- The exact sum of C and the K products of row `i` of A and stored row `j` of B (R185). -/
def MmaArgs.exactSum (m : MmaArgs) (i j : Nat) : Int :=
  (m.c.num (32 * i + j)).toInt + ((List.range (kOf m.aFmt)).map fun n =>
    codeInt m.aFmt (tileCode m.a m.aFmt i n) * codeInt m.bFmt (tileCode m.b m.bFmt j n)).foldl (· + ·) 0

/-- The word and status of one element: the sum wrapped, or with .sat clamped once (R185). -/
def MmaArgs.sumElem (m : MmaArgs) (i j : Nat) : Half × Half :=
  if m.sat then Res.sat (satSigned 32 (m.exactSum i j)) else (BitVec.ofInt 32 (m.exactSum i j), 0)

theorem MmaArgs.aInts_of_dense {m : MmaArgs} (hd : m.sparse = false) (i : Nat) :
    m.aInts i = ((rowInts m.a m.aFmt i).map some, false) := by
  simp [MmaArgs.aInts, hd]

theorem MmaArgs.intElem_eq_sumElem {m : MmaArgs} (hk : kOf m.bFmt = kOf m.aFmt) (i j : Nat) :
    intElem m.sat (m.c.num (32 * i + j)) ((rowInts m.a m.aFmt i).map some) (rowInts m.b m.bFmt j) = m.sumElem i j := by
  simp only [intElem, rowInts, hk, intDot_map_some_range]
  rfl

section
variable {m : MmaArgs} (h8 : 8 ≤ m.aFmt) (h12 : m.aFmt ≤ 12) (hd : m.sparse = false) (hk : kOf m.bFmt = kOf m.aFmt)
include h8 h12 hd hk

/-- A dense MMA of codes 8 to 12 gathers its elements' words and status, and no other status. -/
theorem MmaArgs.result_of_int : m.result = gather (allElems m.sumElem) 0 := by
  have hpoint : ¬ 14 ≤ m.aFmt := by omega
  have hstatus : ((List.range 32).map m.aInts).any (·.2) = false := by simp [MmaArgs.aInts_of_dense hd]
  rw [MmaArgs.result, isFloatCode_of_int h8 h12, if_neg Bool.false_ne_true, MmaArgs.ints, hstatus]
  refine congrArg (gather · 0) (allElems_congr fun i hi j hj => ?_)
  rw [if_neg hpoint, ← MmaArgs.intElem_eq_sumElem hk]
  simp [hi, hj, MmaArgs.aInts_of_dense hd]

/-- Without .sat each word is the exact sum wrapped, and no status is set (R185). -/
theorem MmaArgs.result_of_wrapped (hs : m.sat = false) {i j : Nat} (hi : i < 32) (hj : j < 32) :
    (32 * i + j, BitVec.ofInt 32 (m.exactSum i j)) ∈ m.result.1 ∧ m.result.2 = 0 := by
  have helem : ∀ i j, m.sumElem i j = (BitVec.ofInt 32 (m.exactSum i j), 0) := fun i j => by simp [MmaArgs.sumElem, hs]
  have hmem := mem_gather_allElems m.sumElem 0 hi hj
  rw [helem] at hmem
  rw [MmaArgs.result_of_int h8 h12 hd hk]
  exact ⟨hmem, gather_allElems_status_eq_zero fun i j => by rw [helem]⟩

/-- With .sat each word is the exact sum clamped once, and fst.sat is set where the clamp applied (R185). -/
theorem MmaArgs.result_of_clamped (hs : m.sat = true) {i j : Nat} (hi : i < 32) (hj : j < 32) :
    (32 * i + j, (satSigned 32 (m.exactSum i j)).1) ∈ m.result.1
      ∧ ((satSigned 32 (m.exactSum i j)).2 = true → m.result.2 &&& 1#32 = 1#32) := by
  have helem : m.sumElem i j = Res.sat (satSigned 32 (m.exactSum i j)) := by simp [MmaArgs.sumElem, hs]
  have hmem := mem_gather_allElems m.sumElem 0 hi hj
  rw [helem] at hmem
  rw [MmaArgs.result_of_int h8 h12 hd hk]
  refine ⟨hmem, fun hclamp => ?_⟩
  have hbit : (m.sumElem i j).2.getLsbD 0 = true := by simp [helem, Res.sat, hclamp, flagIf, fstSat]
  rw [BitVec.and_one_eq_setWidth_ofBool_getLsbD, gather_allElems_status_of_bit 0 hi hj hbit]
  rfl

end

end Sys2Proof.Machine

namespace Sys2Proof
open Machine

/-- Settles O59, from the words that an integer MMA gathers and the fields of the words that TTRANS packs. -/
theorem integerProductsAndTransposes : Obligations.IntegerProductsAndTransposes := by
  refine ⟨?products, ?transposes⟩
  case products =>
    intro m h8 h12 hd i hi j hj k v _ _ hk
    exact ⟨fun hs => MmaArgs.result_of_wrapped h8 h12 hd hk hs hi hj,
      fun hs => MmaArgs.result_of_clamped h8 h12 hd hk hs hi hj⟩
  case transposes =>
    intro wd a w
    have hw : w * (32 / w) = 32 := width_mul_count wd
    exact ⟨rfl, fun i hi sq hsq j hj => rowField_transposed hw a hi hsq hj⟩

end Sys2Proof
end

section
/-! PROOFS. LEA, its scale and its modifier (R238), and the packing instructions (R239). -/

namespace Sys2Proof.Machine

/-! ## LEA -/

@[simp] theorem sgnVal_i32 (a : Half) : sgnVal .i32 a = a.toInt := rfl

@[simp] theorem sgnVal_n32 (a : Half) : sgnVal .n32 a = a.toNat := rfl

/-- The index is extended by its type and then scaled; the sum wraps (R238). -/
theorem givesPair_lea (h : Head) (t : Sgn) (d a b : Reg) (k : Fin 4) :
    GivesPair (.lea h t d a b k) d fun _ g => g.wide a + BitVec.ofInt 64 (sgnVal t (g b) * 2 ^ k.val) :=
  givesPair_of rfl (fun _ => rfl) fun _ _ _ => rfl

theorem leaBit_eq_ite (t : Sgn) : t.leaBit = if t = .i32 then 1 else 0 := by cases t <;> rfl

theorem leaBit_lt_two (t : Sgn) : t.leaBit < 2 := by cases t <;> decide

/-- The modifier of LEA, the low twelve bits of its form field: log2 s below the type's bit (R238). -/
theorem lea_modifier (h : Head) (t : Sgn) (d a b : Reg) (k : Fin 4) :
    (Instr.lea h t d a b k).operands.f % 4096 = k.val + 4 * t.leaBit := by
  have hbit := leaBit_lt_two t
  have hscale := k.isLt
  have hform : (Instr.lea h t d a b k).operands.f = glue [(2, k.val), (1, t.leaBit), (9, 0), (8, 0)] := rfl
  rw [hform]
  simp only [glue]
  omega

theorem lea_modifier_scale (h : Head) (t : Sgn) (d a b : Reg) (k : Fin 4) :
    (Instr.lea h t d a b k).operands.f % 4096 % 4 = k.val := by
  rw [lea_modifier, Nat.add_mul_mod_self_left, Nat.mod_eq_of_lt k.isLt]

theorem lea_modifier_type (h : Head) (t : Sgn) (d a b : Reg) (k : Fin 4) :
    (Instr.lea h t d a b k).operands.f % 4096 / 4 = if t = .i32 then 1 else 0 := by
  rw [lea_modifier, Nat.add_mul_div_left _ _ (by decide), Nat.div_eq_of_lt k.isLt, Nat.zero_add, leaBit_eq_ite]

/-! ## PACK and UNPACK -/

/-- The elements of PACK are clamped, and fst.sat is set where a clamp applied (R239). -/
theorem givesStatus_pack (h : Head) (t : PackTy) (d a b : Reg) :
    GivesStatus (.pack h t d a b) d fun _ g => Res.sat (packOf t (g a) (g b)) :=
  givesStatus_of rfl (fun _ => rfl) fun _ _ _ => rfl

/-- Each element of UNPACK is sign-extended to its half of the pair (R239). -/
theorem givesPair_unpack (h : Head) (d a : Reg) :
    GivesPair (.unpack h d a) d fun _ g => (elem16 (g a) 1).signExtend 32 ++ (elem16 (g a) 0).signExtend 32 :=
  givesPair_of rfl (fun _ => rfl) fun _ _ _ => rfl

end Sys2Proof.Machine

namespace Sys2Proof
open Machine

/-- Settles O58, from what the three instructions give for every type and the fields of LEA's modifier. -/
theorem leaAndPacking : Obligations.LeaAndPacking := by
  refine ⟨?lea, ?pack, ?unpack⟩
  case lea =>
    intro h d a b k
    have hgives := fun t => givesPair_lea h t d a b k
    exact ⟨by simpa only [sgnVal_n32] using hgives .n32, by simpa only [sgnVal_i32] using hgives .i32,
      fun t => ⟨rfl, lea_modifier_scale h t d a b k, lea_modifier_type h t d a b k⟩⟩
  case pack => exact fun h d a b => ⟨givesStatus_pack h .i16x2 d a b, givesStatus_pack h .i8x4 d a b, rfl, rfl⟩
  case unpack => exact fun h d a => ⟨givesPair_unpack h d a, rfl⟩

end Sys2Proof
end

section
/-! PROOFS. What YIELD, YIELD_EXPIRY and PRIO do to the issue of splits (R167, R306). -/

namespace Sys2Proof.Machine

/-! ## YIELD and PRIO at issue -/

theorem exec_yield (h : Head) (a : Reg) (s : State) : exec (.yield h a) s = execYield h a s := rfl

theorem exec_prio (h : Head) (a : Reg) (s : State) : exec (.prio h a) s = execPrio h a s := rfl

/-- The choice that YIELD and PRIO make first: a unit with lanes takes the effect. -/
theorem ite_lanes {α : Type} {u : IssueUnit} (hu : u.lanes ≠ []) (x y : α) : (if u.lanes.isEmpty then x else y) = y :=
  if_neg fun he => hu (List.isEmpty_iff.1 he)

/-! ## Holds -/

/-- A split whose hold has clk left is not ready, whatever else is true of it (R306). -/
theorem splitReady_of_yields_succ (s : State) (uid : Nat) (w : Warp) {p : Split} {n : Nat} (h : p.yields = some (n + 1)) :
    splitReady s uid w p = false := by
  simp [splitReady, h]

theorem passSplit_yields (s : State) (d uid : Nat) (w : Warp) (i : Nat) (p : Split) :
    (s.passSplit d uid w i p).yields = p.yields.map (· - d) := rfl

/-! ## A split changed -/

/-- The warp with a split changed, if it exists: what `mapSplit` does to its warp. -/
def Warp.mapSplit (w : Warp) (i : Nat) (f : Split → Split) : Warp :=
  match w.splits.get? i with
  | some p => w.setSplit i (f p)
  | none => w

theorem State.mapSplit_eq_mapWarp (s : State) (u i : Nat) (f : Split → Split) :
    s.mapSplit u i f = s.mapWarp u (·.mapSplit i f) := rfl

theorem Warp.mapSplit_only (w : Warp) (i : Nat) (f : Split → Split) :
    w.mapSplit i f = { w with splits := (w.mapSplit i f).splits } := by
  unfold Warp.mapSplit
  split <;> rfl

theorem Warp.mapSplit_get (w : Warp) (i k : Nat) (f : Split → Split) :
    (w.mapSplit i f).splits.get? k = if k = i then (w.splits.get? i).map f else w.splits.get? k := by
  unfold Warp.mapSplit
  split
  next p hp => simp only [Warp.setSplit, Tab.get?_put, hp, Option.map_some]
  next hp =>
    by_cases hk : k = i
    · simp [hk, hp]
    · rw [if_neg hk]

/-! ## YIELD_EXPIRY -/

/-- A split as YIELD_EXPIRY leaves it: only a hold that has passed is ended. -/
def Split.expire (p : Split) : Split := if p.yields = some 0 then { p with yields := none } else p

theorem exec_yieldExpiry (uid idx : Nat) (s : State) :
    exec (.yieldExpiry uid idx) s = .next (s.mapSplit uid idx Split.expire) := rfl

end Sys2Proof.Machine

namespace Sys2Proof
open Machine

/-- Settles O23, from the effects of the two words at issue, what time does to a hold, and the frame of a change of one
split. -/
theorem issueControl : Obligations.IssueControl := by
  refine ⟨fun h a => ⟨?yield, ?prio⟩, ?held, ?counted, ?expiry⟩
  case yield => exact does_of rfl (exec_yield h a) fun _ _ _ hu => ite_lanes hu _ _
  case prio => exact does_of rfl (exec_prio h a) fun _ _ _ hu => ite_lanes hu _ _
  case held => exact fun s uid w p n hy => splitReady_of_yields_succ s uid w hy
  case counted =>
    intro s uid idx w p n d hw hp hy
    obtain ⟨w', hw', hp'⟩ := passTime_split d hw hp
    exact ⟨w', _, hw', hp', by rw [passSplit_yields, hy, Option.map_some]⟩
  case expiry =>
    intro uid idx s w p hw hp
    refine ⟨s.mapSplit uid idx Split.expire, exec_yieldExpiry uid idx s, ?_⟩
    rw [State.mapSplit_eq_mapWarp]
    refine ⟨State.mapWarp_only s uid _, fun n hn => ?_, w.mapSplit idx Split.expire, ?_, w.mapSplit_only idx _,
      fun n hn => ?_, ?_⟩
    · rw [State.mapWarp_get, if_neg hn]
    · rw [State.mapWarp_get, if_pos rfl, hw, Option.map_some]
    · rw [Warp.mapSplit_get, if_neg hn]
    · rw [Warp.mapSplit_get, if_pos rfl, hp, Option.map_some, Split.expire]

end Sys2Proof
end

section
/-! PROOFS. What every instruction and event does to memory: exec answers a next state always, and memory in it is in
canonical form where it was before (log 5). -/

namespace Sys2Proof.Machine

/-- An outcome is a next state, and memory in it is in canonical form where it is so before. -/
def Keeps (s : State) : Host.Outcome State Fault Refusal → Prop
  | .next t => s.mem.wf = true → t.mem.wf = true
  | _ => False

theorem Keeps.of_mem {s t : State} (h : t.mem = s.mem) : Keeps s (.next t) := fun hs => h ▸ hs

theorem issue_next (i : Instr) (h : Head) (eff : IssueUnit → State → State → Effect) (s : State) :
    ∃ t, issue i h eff s = .next t := by
  unfold issue
  dsimp only
  repeat' split
  all_goals exact ⟨_, rfl⟩

theorem issue_keeps {i : Instr} {h : Head} {eff : IssueUnit → State → State → Effect} {s : State}
    (he : ∀ u r w, r.mem.wf = true → w.mem.wf = true → EffectWf (eff u r w)) : Keeps s (issue i h eff s) := by
  obtain ⟨t, ht⟩ := issue_next i h eff s
  rw [ht]
  intro hs
  have hm := issue_memWf i h eff s hs he
  rwa [ht] at hm

theorem onPart_keeps {s : State} {part : Nat} {f : Partition → State} (hf : ∀ p, (f p).mem = s.mem) :
    Keeps s (onPart s part f) := by
  unfold onPart
  split
  · exact .of_mem rfl
  · exact .of_mem (hf _)

theorem onInstance_keeps {s t : State} {inst : Nat} (ht : t.mem = s.mem) : Keeps s (onInstance s inst t) := by
  unfold onInstance
  split
  · exact .of_mem ht
  · exact .of_mem rfl

theorem keyRecord_keeps {s : State} {inst op len : Nat} {record : List Byte} {body : Nat → Partition → Nat → State}
    (hb : ∀ part p slot, (body part p slot).mem = s.mem) : Keeps s (keyRecord s inst op len record body) := by
  unfold keyRecord
  repeat' split
  · exact .of_mem rfl
  · exact .of_mem (keyReply_mem s 1)
  · exact .of_mem (keyReply_mem s 1)
  · exact .of_mem (keyReply_mem s 2)
  · exact .of_mem (hb _ _ _)

theorem Keeps.ite {s : State} {c : Prop} [Decidable c] {a b : Host.Outcome State Fault Refusal} (ha : Keeps s a)
    (hb : Keeps s b) : Keeps s (if c then a else b) := by
  split
  · exact ha
  · exact hb

/-! ## Words with effects of several steps -/


theorem execAtom_keeps (h : Head) (op : AtomOp) (d : Reg) (m : Addr) (off : BitVec 7) (s : State) :
    Keeps s (execAtom h op d m off s) := by
  refine issue_keeps fun u r w hr hw => ?_
  dsimp only
  (repeat' split) <;> simp only [EffectWf_done, EffectWf_trap, EffectWf_wait, hr, hw]
  rw [IssueUnit.start_mem, reserve_mem]
  exact performDiscarded_memWf _ _ _ _ _ (births_memWf _ _ _ _ _ (checkLanes_memWf _ _ _ _ _ _ hw))

theorem execDiscard_keeps (h : Head) (m : Addr) (off : BitVec 7) (s : State) : Keeps s (execDiscard h m off s) := by
  refine issue_keeps fun u r w hr hw => ?_
  dsimp only
  (repeat' split) <;> simp only [EffectWf_done, EffectWf_trap, EffectWf_wait, hr, hw]
  exact foldl_memWf _ (fun _ _ => discardPage_memWf _ _ _ _) _ _ (checkLanes_memWf _ _ _ _ _ _ hw)

theorem execReqpage_keeps (h : Head) (m : Addr) (off : BitVec 7) (s : State) : Keeps s (execReqpage h m off s) := by
  refine issue_keeps fun u r w _ hw => ?_
  dsimp only
  split
  · trivial
  · exact foldl_memWf _ (fun _ _ => postRequest_memWf _ _ _ _) _ _ (checkLanes_memWf _ _ _ _ _ _ hw)

theorem execRejoin_keeps (h : Head) (s : State) : Keeps s (execRejoin h s) := by
  refine issue_keeps fun u r w _ hw => ?_
  (repeat' split)
  · exact hw
  · trivial
  · exact ExceptWf.ok (moveParts_memWf _ _ _ _ ((congrArg Tab.wf (noteConflict_mem w u)).trans hw)) ‹_›
  · trivial

theorem execTrap_keeps (h : Head) (a : Reg) (code : BitVec 12) (s : State) : Keeps s (execTrap h a code s) := by
  refine issue_keeps fun u r w hr hw => ?_
  (repeat' split) <;> simp only [EffectWf_done, EffectWf_trap, EffectWf_trapIn, hw]
  exact ExceptWf.ok (moveParts_memWf _ _ _ _ hr) ‹_›

theorem writeParts_memWf {u : IssueUnit} {w s1 : State} {n : Nat} {x : Half} {k : Option Nat} (hw : w.mem.wf = true)
    (e : writeParts u w n x = (s1, k)) : s1.mem.wf = true := by
  rw [← writeParts_mem u w n x, e] at hw
  exact hw

theorem execSetsr_keeps (h : Head) (a : Reg) (sr : BitVec 12) (s : State) : Keeps s (execSetsr h a sr s) := by
  refine issue_keeps fun u r w hr hw => ?_
  (repeat' split) <;> simp only [EffectWf_done, EffectWf_wait, hr, hw]
  · exact writeParts_memWf hw ‹_›
  · exact writeParts_memWf hr ‹_›
  · exact writeParts_memWf hr ‹_›

theorem execStash_keeps (h : Head) (a b c : Reg) (n : Fin 4) (s : State) : Keeps s (execStash h a b c n s) := by
  refine issue_keeps fun u r w _ hw => ?_
  dsimp only
  (repeat' split) <;> simp only [EffectWf_done, EffectWf_trap, hw]
  rw [State.mapBlock_mem, State.draw_mem]
  exact ExceptWf.fst (stashPages_memWf _ _ _ _ hw) ‹_›

theorem execCpy_keeps (h : Head) (dir : CpyDir) (d a : CpyOpd) (b c : Reg) (twoD ab : Bool) (q : Fin 8) (sc : MScope)
    (s : State) : Keeps s (execCpy h dir d a b c twoD ab q sc s) := by
  refine issue_keeps fun u r w hr hw => ?_
  have hbar : ∀ o : Option Half, (o.elim w fun a => abarUpdate w u.block a.toNat 0 0).mem.wf = true := fun o => by
    cases o with
    | none => exact hw
    | some a => exact (congrArg Tab.wf (abarUpdate_mem ..)).trans hw
  dsimp only
  split
  · exact hw
  · split
    · trivial
    · generalize (if d = .queue then some q.val else none) = qn
      split
      · exact hr
      · split
        · exact hbar _
        · split
          · split
            · exact OptionWf.of (copiesWait_memWf _ _ _ hr) ‹_›
            · simp [hw]
          · simp [hw]

theorem execCrel_keeps (h : Head) (s : State) : Keeps s (execCrel h s) := by
  refine issue_keeps fun u r w hr hw => ?_
  dsimp only
  (repeat' split) <;> simp only [EffectWf_done, EffectWf_trap, EffectWf_wait, IssueUnit.start_mem, hr, hw]
  case h_1 => exact OptionWf.of (copiesWait_memWf _ _ _ hr) ‹_›
  case h_2 => simp [hw]

theorem execFetchCompletion_keeps (id : Nat) (s : State) : Keeps s (execFetchCompletion id s) := by
  unfold execFetchCompletion
  cases s.pend.get? id with
  | none => exact .of_mem rfl
  | some q =>
    dsimp only
    split
    case h_1 hd wide d pd lanes asid core _ =>
      have hf := fetchLanes_memWf ⟨q.part, asid, q.block, if wide then 0x152 else 0x151, q.faults⟩ core
        (Desc.ofBytes hd.desc) wide s lanes
      cases hr : fetchLanes ⟨q.part, asid, q.block, if wide then 0x152 else 0x151, q.faults⟩ core
        (Desc.ofBytes hd.desc) wide s lanes with
      | ok x => exact fun hs => deliver_memWf _ _ _ _ _ (ExceptWf.of (hf hs) hr)
      | error e => cases e with
        | waits l => exact .of_mem (askPeer_mem s l)
        | err e => exact fun hs => deliver_memWf _ _ _ _ _ hs
    case h_2 => exact .of_mem rfl

theorem execIncumbentCopyUpdate_keeps (core : Nat) (s : State) : Keeps s (execIncumbentCopyUpdate core s) := by
  unfold execIncumbentCopyUpdate
  split
  · exact .of_mem rfl
  · intro hs
    exact settle_memWf _ (afterCore_memWf _ _ (checkWaiting_memWf _ _ hs))

/-- An admission keeps memory canonical, whether it packs or places. -/
theorem startAdmission_memWf_packs (s : State) (kid : Nat) (packs : Bool) (a : Ask) (cores : List Nat)
    (hs : s.mem.wf = true) : (startAdmission s kid packs a cores).mem.wf = true := by
  refine foldl_memWf _ (fun s c hs => ?_) _ _ hs
  dsimp only
  split
  · exact hs
  · exact enterPhase_memWf _ _ _ hs

theorem execPackWarp_keeps (core : Nat) (s : State) : Keeps s (execPackWarp core s) := by
  unfold execPackWarp
  cases partOfCore s core with
  | none => exact .of_mem rfl
  | some x =>
    have hrel := releaseHeld_mem s [core]
    dsimp only
    split
    · exact .of_mem rfl
    · split
      · exact .of_mem rfl
      · split
        · exact .of_mem hrel
        · split
          · exact .of_mem ((startPacked_mem ..).trans hrel)
          · exact fun hs => startAdmission_memWf_packs _ _ _ _ _ (hrel ▸ hs)

theorem execFabricPeerResponse_keeps (line : Nat) (answer : PeerAnswer) (s : State) :
    Keeps s (execFabricPeerResponse line answer s) := by
  intro hs
  split
  · simp [hs]
  · cases s.fab.messageFor line _ <;> simp [hs]
  · cases s.fab.messageFor line _ <;> simp [hs]
  · cases s.fab.messageFor line _ <;> simp [hs]

theorem execCreate_keeps (arg0 arg1 : Half) (s : State) : Keeps s (execCreate arg0 arg1 s) := by
  refine fun hs => mailbox_memWf _ _ _ _ _ _ hs fun t ht => ?_
  dsimp only
  split <;> simp [ht]

theorem execDestroy_keeps (arg0 : Half) (s : State) : Keeps s (execDestroy arg0 s) := by
  refine fun hs => mailbox_memWf _ _ _ _ _ _ hs fun t ht => ?_
  dsimp only
  split <;> simp [ht]

theorem execSwapout_keeps (arg0 : Half) (s : State) : Keeps s (execSwapout arg0 s) := by
  refine fun hs => mailbox_memWf _ _ _ _ _ _ hs fun t ht => ?_
  (repeat' split) <;> simp [ht]

theorem execSwapin_keeps (arg0 : Half) (s : State) : Keeps s (execSwapin arg0 s) := by
  refine fun hs => mailbox_memWf _ _ _ _ _ _ hs fun t ht => ?_
  (repeat' split) <;> simp [ht]

theorem execFwstage_keeps (arg0 arg1 : Half) (image : List Byte) (s : State) : Keeps s (execFwstage arg0 arg1 image s) := by
  refine fun hs => mailbox_memWf _ _ _ _ _ _ hs fun t ht => ?_
  dsimp only
  (repeat' split) <;> simp [ht]

theorem execHostCxlWrite_keeps (addr : Word) (data : List Byte) (s : State) : Keeps s (execHostCxlWrite addr data s) := by
  unfold execHostCxlWrite
  dsimp only
  (repeat' split) <;> intro hs
  · exact hostAccess_memWf _ _ _ _ _ hs fun t ht => hostWrite_memWf _ _ _ ht
  · exact barWrite_memWf _ _ _ hs
  · exact hs

/-- A read of the BAR0 window leaves memory as it was (R384). -/
theorem snapshot_keeps (s : State) (o : Nat) (x : List Byte) : Keeps s (.next { snapshot s o with hostOut := x }) :=
  .of_mem (snapshot_mem s o)

theorem execHostCxlRead_keeps (addr : Word) (len : Nat) (s : State) : Keeps s (execHostCxlRead addr len s) := by
  unfold execHostCxlRead
  refine .ite ?_ (.ite ?_ (.of_mem rfl))
  · exact fun hs => hostAccess_memWf _ _ _ _ _ hs fun t ht => (congrArg Tab.wf (hostRead_mem t _ _)).trans ht
  · exact snapshot_keeps _ _ _

/-! ## Events -/

theorem execXswapCompletion_keeps (id : Nat) (s : State) : Keeps s (execXswapCompletion id s) := by
  unfold execXswapCompletion
  (repeat' split) <;> intro hs <;> simp [hs]

theorem execLoadCompletion_keeps (id : Nat) (s : State) : Keeps s (execLoadCompletion id s) := by
  unfold execLoadCompletion
  (repeat' split) <;> intro hs <;> simp [hs]

theorem execExistenceCompletion_keeps (id : Nat) (s : State) : Keeps s (execExistenceCompletion id s) := by
  unfold execExistenceCompletion
  (repeat' split) <;> intro hs <;> simp [hs]

theorem execAtomPerform_keeps (id : Nat) (s : State) : Keeps s (execAtomPerform id s) := by
  unfold execAtomPerform
  dsimp only
  (repeat' split) <;> intro hs <;> simp [hs]

theorem execLaunchSlotArm_keeps (part slot : Nat) (arm : Half) (s : State) :
    Keeps s (execLaunchSlotArm part slot arm s) := by
  unfold execLaunchSlotArm
  (repeat' split) <;> intro hs <;> simp [hs]

theorem execLaunchCompletion_keeps (id : Nat) (s : State) : Keeps s (execLaunchCompletion id s) := by
  unfold execLaunchCompletion
  (repeat' split) <;> intro hs <;> simp [hs]

theorem execIncumbentUpdateArrival_keeps (part k : Nat) (f32 : Bool) (ups : List Upd) (s : State) :
    Keeps s (execIncumbentUpdateArrival part k f32 ups s) := by
  unfold execIncumbentUpdateArrival
  (repeat' split) <;> intro hs <;> simp [hs]

theorem execKreadCompletion_keeps (id : Nat) (s : State) : Keeps s (execKreadCompletion id s) := by
  unfold execKreadCompletion
  (repeat' split) <;> intro hs <;> simp [hs]

theorem execYieldExpiry_keeps (uid idx : Nat) (s : State) : Keeps s (execYieldExpiry uid idx s) :=
  .of_mem (State.mapSplit_mem ..)

theorem execInvalidationComplete_keeps (id : Nat) (s : State) : Keeps s (execInvalidationComplete id s) := by
  unfold execInvalidationComplete
  (repeat' split) <;> intro hs <;> simp [hs]

theorem execDescriptorReloadComplete_keeps (id : Nat) (s : State) : Keeps s (execDescriptorReloadComplete id s) := by
  unfold execDescriptorReloadComplete
  (repeat' split) <;> intro hs <;> simp [hs]

theorem execTlbinvAddress_keeps (part : Nat) (value : Half) (s : State) :
    Keeps s (execTlbinvAddress part value s) :=
  onPart_keeps fun p => by simp

theorem execTlbinvAsid_keeps (part : Nat) (value : Half) (s : State) : Keeps s (execTlbinvAsid part value s) :=
  onPart_keeps fun p => by simp

theorem execTlbinvPartition_keeps (part : Nat) (_value : Half) (s : State) :
    Keeps s (execTlbinvPartition part _value s) :=
  onPart_keeps fun p => by simp

theorem execQpost_keeps (part : Nat) (frame : Half) (s : State) : Keeps s (execQpost part frame s) :=
  onPart_keeps fun p => by simp

theorem execQpop_keeps (warp : Nat) (d : Reg) (s : State) : Keeps s (execQpop warp d s) := by
  unfold execQpop
  intro hs
  simp [hs]

theorem execTscloRead_keeps (warp : Nat) (d : Reg) (s : State) : Keeps s (execTscloRead warp d s) := by
  unfold execTscloRead
  intro hs
  simp [hs]

theorem execRgnselWrite_keeps (part : Nat) (value : Half) (s : State) : Keeps s (execRgnselWrite part value s) :=
  onPart_keeps fun p => by simp

theorem execReservationRangeWrite_keeps (part reg : Nat) (value : Half) (s : State) :
    Keeps s (execReservationRangeWrite part reg value s) :=
  onPart_keeps fun p => by simp

theorem execSystemRegisterWrite_keeps (warp idx : Nat) (sr : BitVec 12) (value : Half) (s : State) :
    Keeps s (execSystemRegisterWrite warp idx sr value s) := by
  unfold execSystemRegisterWrite
  intro hs
  simp [hs]

theorem execSplitDrainEnd_keeps (core : Nat) (s : State) : Keeps s (execSplitDrainEnd core s) := by
  unfold execSplitDrainEnd
  (repeat' split) <;> intro hs <;> simp [hs]

theorem execSplitRelocateEnd_keeps (core : Nat) (s : State) : Keeps s (execSplitRelocateEnd core s) := by
  unfold execSplitRelocateEnd
  (repeat' split) <;> intro hs <;> simp [hs]

theorem execSplitRemapEnd_keeps (core : Nat) (s : State) : Keeps s (execSplitRemapEnd core s) := by
  unfold execSplitRemapEnd
  (repeat' split) <;> intro hs <;> simp [hs]

theorem execUnstashCompletion_keeps (id : Nat) (s : State) : Keeps s (execUnstashCompletion id s) := by
  unfold execUnstashCompletion
  (repeat' split) <;> intro hs <;> simp [hs]

theorem execStashWriteback_keeps (block window : Nat) (s : State) : Keeps s (execStashWriteback block window s) :=
  .of_mem (State.mapBlock_mem ..)

theorem execLineEviction_keeps (core line : Nat) (s : State) : Keeps s (execLineEviction core line s) := by
  unfold execLineEviction
  (repeat' split) <;> intro hs <;> simp [hs]

theorem execCpyQueueSlotTake_keeps (id : Nat) (s : State) : Keeps s (execCpyQueueSlotTake id s) := by
  unfold execCpyQueueSlotTake
  dsimp only
  (repeat' split) <;> intro hs <;> simp [hs]

theorem execCopyCommandCompletion_keeps (id : Nat) (s : State) : Keeps s (execCopyCommandCompletion id s) := by
  unfold execCopyCommandCompletion
  dsimp only
  (repeat' split) <;> intro hs <;> simp [hs]

theorem execBinCommandCompletion_keeps (id : Nat) (s : State) : Keeps s (execBinCommandCompletion id s) := by
  unfold execBinCommandCompletion
  (repeat' split) <;> intro hs <;> simp [hs]

theorem execMatrixCommandCompletion_keeps (id : Nat) (s : State) : Keeps s (execMatrixCommandCompletion id s) := by
  unfold execMatrixCommandCompletion
  (repeat' split) <;> intro hs <;> simp [hs]

theorem execMatrixTransientError_keeps (id : Nat) (s : State) : Keeps s (execMatrixTransientError id s) := by
  unfold execMatrixTransientError
  (repeat' split) <;> intro hs <;> simp [hs]

theorem execTjacSweepEnd_keeps (id : Nat) (s : State) : Keeps s (execTjacSweepEnd id s) := by
  unfold execTjacSweepEnd
  dsimp only
  (repeat' split) <;> intro hs <;> simp [hs]

theorem execBlockPlacement_keeps (part : Nat) (s : State) : Keeps s (execBlockPlacement part s) := by
  unfold execBlockPlacement
  (repeat' split) <;> intro hs <;> simp [hs]

theorem execBlockRetire_keeps (kernel : Nat) (s : State) : Keeps s (execBlockRetire kernel s) := by
  unfold execBlockRetire
  (repeat' split) <;> intro hs <;> simp [hs]

theorem execClauseHeaderFetch_keeps (s : State) : Keeps s (execClauseHeaderFetch s) := by
  unfold execClauseHeaderFetch
  dsimp only
  (repeat' split) <;> intro hs <;> simp [hs]

theorem execSplitAged_keeps (warp idx : Nat) (s : State) : Keeps s (execSplitAged warp idx s) := by
  unfold execSplitAged
  (repeat' split) <;> intro hs <;> simp [hs]

theorem execWarpPreempt_keeps (warp : Nat) (s : State) : Keeps s (execWarpPreempt warp s) := by
  unfold execWarpPreempt
  (repeat' split) <;> intro hs <;> simp [hs]

theorem execPageWalk_keeps (part asid : Nat) (va : Word) (s : State) : Keeps s (execPageWalk part asid va s) := by
  unfold execPageWalk
  (repeat' split) <;> intro hs <;> simp [hs]

theorem execPageMigration_keeps (part asid : Nat) (va : Word) (s : State) :
    Keeps s (execPageMigration part asid va s) := by
  unfold execPageMigration
  dsimp only
  (repeat' split) <;> intro hs <;> simp [hs]

theorem execCorrectedError_keeps (part : Nat) (c : Corrected) (s : State) :
    Keeps s (execCorrectedError part c s) := by
  unfold execCorrectedError
  (repeat' split) <;> intro hs <;> simp [hs]

theorem execUncorrectableError_keeps (part line : Nat) (dirty : Bool) (s : State) :
    Keeps s (execUncorrectableError part line dirty s) := by
  unfold execUncorrectableError
  (repeat' split) <;> intro hs <;> simp [hs]

theorem execRemoteRequest_keeps (part spkg spart : Nat) (va : Word) (op : RemoteOp) (s : State) :
    Keeps s (execRemoteRequest part spkg spart va op s) := by
  unfold execRemoteRequest
  dsimp only
  (repeat' split) <;> intro hs <;> simp [hs]

theorem execRemoteResend_keeps (n : Nat) (s : State) : Keeps s (execRemoteResend n s) := by
  unfold execRemoteResend
  (repeat' split) <;> intro hs <;> simp [hs]

theorem execFabricDeliveryTimeout_keeps (line : Nat) (dirty : Bool) (s : State) :
    Keeps s (execFabricDeliveryTimeout line dirty s) := by
  unfold execFabricDeliveryTimeout
  (repeat' split) <;> intro hs <;> simp [hs]

theorem execPlaneRemap_keeps (plane : Nat) (up : Bool) (s : State) : Keeps s (execPlaneRemap plane up s) := by
  unfold execPlaneRemap
  (repeat' split) <;> intro hs <;> simp [hs]

theorem execRemapAcknowledge_keeps (s : State) : Keeps s (execRemapAcknowledge s) := by
  unfold execRemapAcknowledge
  (repeat' split) <;> intro hs <;> simp [hs]

theorem execFlitReceive_keeps (part link : Nat) (payload : List Byte) (keyBit : Nat) (crcOk tagOk : Bool) (s : State) :
    Keeps s (execFlitReceive part link payload keyBit crcOk tagOk s) := by
  unfold execFlitReceive
  dsimp only
  (repeat' split) <;> intro hs <;> simp [hs]

theorem execParityExtensionReceive_keeps (link : Nat) (repair : Repair) (s : State) :
    Keeps s (execParityExtensionReceive link repair s) := by
  unfold execParityExtensionReceive
  dsimp only
  (repeat' split) <;> intro hs <;> simp [hs]

theorem execKeyRotation_keeps (link : LinkEnd) (s : State) : Keeps s (execKeyRotation link s) := by
  unfold execKeyRotation
  dsimp only
  (repeat' split) <;> intro hs <;> simp [hs]

theorem execRouteUpdate_keeps (dest version : Nat) (s : State) : Keeps s (execRouteUpdate dest version s) := by
  unfold execRouteUpdate
  dsimp only
  (repeat' split) <;> intro hs <;> simp [hs]

theorem execPackageReset_keeps (s : State) : Keeps s (execPackageReset s) := by
  unfold execPackageReset
  intro _
  simp

theorem execHaltComplete_keeps (part : Nat) (s : State) : Keeps s (execHaltComplete part s) := by
  unfold execHaltComplete
  (repeat' split) <;> intro hs <;> simp [hs]

theorem execHaltTimeout_keeps (part : Nat) (s : State) : Keeps s (execHaltTimeout part s) := by
  unfold execHaltTimeout
  (repeat' split) <;> intro hs <;> simp [hs]

theorem execGetVersion_keeps (inst : Nat) (s : State) : Keeps s (execGetVersion inst s) :=
  onInstance_keeps (by simp)

theorem execGetCapabilities_keeps (inst : Nat) (s : State) : Keeps s (execGetCapabilities inst s) :=
  onInstance_keeps (by simp)

theorem execNegotiateAlgorithms_keeps (inst : Nat) (offered : Offer) (s : State) :
    Keeps s (execNegotiateAlgorithms inst offered s) :=
  onInstance_keeps (by (repeat' split) <;> simp)

theorem execGetDigests_keeps (inst : Nat) (s : State) : Keeps s (execGetDigests inst s) :=
  onInstance_keeps (by simp)

theorem execGetCertificate_keeps (inst slot : Nat) (s : State) : Keeps s (execGetCertificate inst slot s) :=
  onInstance_keeps (by (repeat' split) <;> simp)

theorem execChallenge_keeps (inst slot : Nat) (nonce : List Byte) (s : State) :
    Keeps s (execChallenge inst slot nonce s) :=
  onInstance_keeps (by (repeat' split) <;> simp)

theorem execGetMeasurements_keeps (inst index : Nat) (nonce : List Byte) (s : State) :
    Keeps s (execGetMeasurements inst index nonce s) :=
  onInstance_keeps (by (repeat' split) <;> simp)

theorem execKeyExchange_keeps (inst : Nat) (exchange : List Byte) (s : State) :
    Keeps s (execKeyExchange inst exchange s) :=
  onInstance_keeps (by (repeat' split) <;> simp)

theorem execFinish_keeps (inst : Nat) (verify : List Byte) (s : State) : Keeps s (execFinish inst verify s) :=
  onInstance_keeps (by (repeat' split) <;> simp)

theorem execEndSession_keeps (inst : Nat) (s : State) : Keeps s (execEndSession inst s) :=
  onInstance_keeps (by (repeat' split) <;> simp)

theorem execUnsupportedRequest_keeps (inst : Nat) (s : State) : Keeps s (execUnsupportedRequest inst s) :=
  onInstance_keeps (by simp)

theorem execSeal_keeps (inst : Nat) (record : List Byte) (s : State) : Keeps s (execSeal inst record s) :=
  keyRecord_keeps fun part p slot => by (repeat' split) <;> simp

theorem execKeyload_keeps (inst : Nat) (record : List Byte) (s : State) : Keeps s (execKeyload inst record s) :=
  keyRecord_keeps fun part p slot => by (repeat' split) <;> simp

theorem execKeydrop_keeps (inst : Nat) (record : List Byte) (s : State) : Keeps s (execKeydrop inst record s) :=
  keyRecord_keeps fun part p slot => by (repeat' split) <;> simp

theorem execClockStepChange_keeps (clk : Nat) (therm power : Bool) (s : State) :
    Keeps s (execClockStepChange clk therm power s) := by
  unfold execClockStepChange
  (repeat' split) <;> intro hs <;> simp [hs]

theorem execIllegalOpcode_keeps (x : Word) (s : State) : Keeps s (execIllegalOpcode x s) := by
  unfold execIllegalOpcode
  (repeat' split) <;> intro hs <;> simp [hs]

/-! ## Every instruction -/

/-- Every instruction and event answers a next state, and keeps memory canonical: the word's effect where it has a word,
the event's own lemma where it has none. -/
theorem exec_keeps (i : Instr) (s : State) : Keeps s (exec i s) := by
  cases i with
  | addsat | subsat | abs | mul | mulhi | mad | madw | idiv | irem | dot2 | dot4 | sad | lop3 | rot | fsh | shrr
  | bfx | bfi | popc | clz | brev | ffs | sel | plop | pmovGet | pmovSet | mov | movi | movu | lea | pack | unpack
  | fadd | fsub | fmul | ffma | ffmaw | fmin | fmax | fcmp | frnd | fscale | fclass | frcp | fsqrt | frsq | fexp2
  | flog2 | fsin | fcos | ftanh | fdot2 | fdot4 | cvt | fxcvtTo | fxcvtFrom | qscale | qpack | qunpack | shfl
  | slide | matchLanes | intersect | compact | bra | call | nop | poolq | mma | mmas | tzero | tfill | ttrans | tadd
  | tred =>
    dsimp only [exec]; exact issue_keeps fun _ _ _ _ hw => by simp [hw]
  | add | sub | min | max | shl | shr | cmp | setfmt | vote | reduce | scan | ld | ldg | ldr | lde | st | scat
  | erase | eraser | fence | tokenTake | tokenPass | brx | callx | ret | exit | leave | tret | spawn | kinit | kupd
  | kread | check | qacqFree | qacqFull | qrelFull | qrelFree | yield | prio | getsr | talloc | tfree | unstash
  | binp | tcvt | tlu | ttrsUpper =>
    dsimp only [exec]; exact issue_keeps fun _ _ _ hr hw => by (repeat' split) <;> simp [hr, hw]
  | xpair | xswap | ldc | ealloc | etest | prefetch | reserve | launch | join | lwait | abinit | abarrive | abwait
  | qinit | poolset | binc | cpyh | fhnd | fetch | ttov | vtot | ttrsLower | tjac | tupd =>
    dsimp only [exec]; exact issue_keeps fun _ _ _ hr hw => by dsimp only; (repeat' split) <;> simp [hr, hw]
  | xswapCompletion id => exact execXswapCompletion_keeps id s
  | loadCompletion id => exact execLoadCompletion_keeps id s
  | existenceCompletion id => exact execExistenceCompletion_keeps id s
  | atom h op d m off => exact execAtom_keeps h op d m off s
  | atomPerform id => exact execAtomPerform_keeps id s
  | discard h m off => exact execDiscard_keeps h m off s
  | reqpage h m off => exact execReqpage_keeps h m off s
  | launchSlotArm part slot arm => exact execLaunchSlotArm_keeps part slot arm s
  | launchCompletion id => exact execLaunchCompletion_keeps id s
  | rejoin h => exact execRejoin_keeps h s
  | trap h a code => exact execTrap_keeps h a code s
  | incumbentUpdateArrival part k f32 ups => exact execIncumbentUpdateArrival_keeps part k f32 ups s
  | kreadCompletion id => exact execKreadCompletion_keeps id s
  | incumbentCopyUpdate core => exact execIncumbentCopyUpdate_keeps core s
  | yieldExpiry warp idx => exact execYieldExpiry_keeps warp idx s
  | setsr h a sr => exact execSetsr_keeps h a sr s
  | invalidationComplete id => exact execInvalidationComplete_keeps id s
  | descriptorReloadComplete id => exact execDescriptorReloadComplete_keeps id s
  | tlbinvAddress part value => exact execTlbinvAddress_keeps part value s
  | tlbinvAsid part value => exact execTlbinvAsid_keeps part value s
  | tlbinvPartition part value => exact execTlbinvPartition_keeps part value s
  | qpost part frame => exact execQpost_keeps part frame s
  | qpop warp d => exact execQpop_keeps warp d s
  | tscloRead warp d => exact execTscloRead_keeps warp d s
  | rgnselWrite part value => exact execRgnselWrite_keeps part value s
  | reservationRangeWrite part reg value => exact execReservationRangeWrite_keeps part reg value s
  | systemRegisterWrite warp idx sr value => exact execSystemRegisterWrite_keeps warp idx sr value s
  | splitDrainEnd core => exact execSplitDrainEnd_keeps core s
  | splitRelocateEnd core => exact execSplitRelocateEnd_keeps core s
  | splitRemapEnd core => exact execSplitRemapEnd_keeps core s
  | stash h a b c w => exact execStash_keeps h a b c w s
  | unstashCompletion id => exact execUnstashCompletion_keeps id s
  | stashWriteback block window => exact execStashWriteback_keeps block window s
  | lineEviction core line => exact execLineEviction_keeps core line s
  | cpy h dir d a b c twoD ab q sc => exact execCpy_keeps h dir d a b c twoD ab q sc s
  | cpyQueueSlotTake id => exact execCpyQueueSlotTake_keeps id s
  | copyCommandCompletion id => exact execCopyCommandCompletion_keeps id s
  | binCommandCompletion id => exact execBinCommandCompletion_keeps id s
  | crel h => exact execCrel_keeps h s
  | fetchCompletion id => exact execFetchCompletion_keeps id s
  | matrixCommandCompletion id => exact execMatrixCommandCompletion_keeps id s
  | matrixTransientError id => exact execMatrixTransientError_keeps id s
  | tjacSweepEnd id => exact execTjacSweepEnd_keeps id s
  | blockPlacement part => exact execBlockPlacement_keeps part s
  | blockRetire kernel => exact execBlockRetire_keeps kernel s
  | packWarp core => exact execPackWarp_keeps core s
  | clauseHeaderFetch => exact execClauseHeaderFetch_keeps s
  | splitAged warp idx => exact execSplitAged_keeps warp idx s
  | warpPreempt warp => exact execWarpPreempt_keeps warp s
  | pageWalk part asid va => exact execPageWalk_keeps part asid va s
  | pageMigration part asid va => exact execPageMigration_keeps part asid va s
  | correctedError part c => exact execCorrectedError_keeps part c s
  | uncorrectableError part line dirty => exact execUncorrectableError_keeps part line dirty s
  | remoteRequest part spkg spart va op => exact execRemoteRequest_keeps part spkg spart va op s
  | remoteResend n => exact execRemoteResend_keeps n s
  | fabricPeerResponse line answer => exact execFabricPeerResponse_keeps line answer s
  | fabricDeliveryTimeout line dirty => exact execFabricDeliveryTimeout_keeps line dirty s
  | planeRemap plane up => exact execPlaneRemap_keeps plane up s
  | remapAcknowledge => exact execRemapAcknowledge_keeps s
  | flitReceive part link payload keyBit crcOk tagOk => exact execFlitReceive_keeps part link payload keyBit crcOk tagOk s
  | parityExtensionReceive link repair => exact execParityExtensionReceive_keeps link repair s
  | keyRotation link => exact execKeyRotation_keeps link s
  | routeUpdate dest version => exact execRouteUpdate_keeps dest version s
  | packageReset => exact execPackageReset_keeps s
  | create arg0 arg1 => exact execCreate_keeps arg0 arg1 s
  | destroy arg0 => exact execDestroy_keeps arg0 s
  | swapout arg0 => exact execSwapout_keeps arg0 s
  | haltComplete part => exact execHaltComplete_keeps part s
  | haltTimeout part => exact execHaltTimeout_keeps part s
  | swapin arg0 => exact execSwapin_keeps arg0 s
  | fwstage arg0 arg1 image => exact execFwstage_keeps arg0 arg1 image s
  | getVersion inst => exact execGetVersion_keeps inst s
  | getCapabilities inst => exact execGetCapabilities_keeps inst s
  | negotiateAlgorithms inst offered => exact execNegotiateAlgorithms_keeps inst offered s
  | getDigests inst => exact execGetDigests_keeps inst s
  | getCertificate inst slot => exact execGetCertificate_keeps inst slot s
  | challenge inst slot nonce => exact execChallenge_keeps inst slot nonce s
  | getMeasurements inst index nonce => exact execGetMeasurements_keeps inst index nonce s
  | keyExchange inst exchange => exact execKeyExchange_keeps inst exchange s
  | finish inst verify => exact execFinish_keeps inst verify s
  | endSession inst => exact execEndSession_keeps inst s
  | unsupportedRequest inst => exact execUnsupportedRequest_keeps inst s
  | sealRequest inst record => exact execSeal_keeps inst record s
  | keyload inst record => exact execKeyload_keeps inst record s
  | keydrop inst record => exact execKeydrop_keeps inst record s
  | clockStepChange clk therm power => exact execClockStepChange_keeps clk therm power s
  | hostCxlWrite addr data => exact execHostCxlWrite_keeps addr data s
  | hostCxlRead addr len => exact execHostCxlRead_keeps addr len s
  | illegalOpcode w => exact execIllegalOpcode_keeps w s

theorem step_keeps (s : State) : Keeps s (step s) := by
  have hm := nextMove_memWf s
  unfold step
  cases hn : nextMove s with
  | run i t =>
    rw [hn] at hm
    have he := exec_keeps i t
    dsimp only
    cases ho : exec i t with
    | next r => exact fun hs => by rw [ho] at he; exact he (hm hs)
    | _ => rw [ho] at he; exact he
  | rest t => rw [hn] at hm; exact hm

end Sys2Proof.Machine

namespace Sys2Proof
open Machine

/-- Settles O46, since a step keeps memory canonical in the next state it answers. -/
theorem stepsKeepMemoryCanonical : Obligations.StepsKeepMemoryCanonical := by
  intro s t hs ht
  have hk := step_keeps s
  rw [ht] at hk
  exact hk hs

/-- Settles O45: what a step keeps, it keeps in a next state. -/
theorem everyStepAnswersANextState : Obligations.EveryStepAnswersANextState := by
  intro s
  have hk := step_keeps s
  cases hs : step s with
  | next t => exact ⟨t, rfl⟩
  | _ => rw [hs] at hk; exact hk.elim

end Sys2Proof
end

section
/-! PROOFS. Decoding the word of a well-formed instruction: the fields of a word are cut back, and every instruction's
fields are read back (R201-R211). -/

namespace Sys2Proof.Laws

/-- Every instruction's fields read back: the lemma of its constructor. -/
theorem fieldsReadBack (i : Instr) : FieldsReadBack.Statement i :=
  match i with
  | .add h t d a b => FieldsReadBack.add h t d a b
  | .sub h t d a b => FieldsReadBack.sub h t d a b
  | .addsat h t d a b => FieldsReadBack.addsat h t d a b
  | .subsat h t d a b => FieldsReadBack.subsat h t d a b
  | .min h t d a b => FieldsReadBack.min h t d a b
  | .max h t d a b => FieldsReadBack.max h t d a b
  | .abs h t d a => FieldsReadBack.abs h t d a
  | .mul h d a b => FieldsReadBack.mul h d a b
  | .mulhi h t d a b => FieldsReadBack.mulhi h t d a b
  | .mad h d a b c => FieldsReadBack.mad h d a b c
  | .madw h t d a b c => FieldsReadBack.madw h t d a b c
  | .idiv h t d a b => FieldsReadBack.idiv h t d a b
  | .irem h t d a b => FieldsReadBack.irem h t d a b
  | .dot2 h d a b c sat => FieldsReadBack.dot2 h d a b c sat
  | .dot4 h t d a b c sat => FieldsReadBack.dot4 h t d a b c sat
  | .sad h d a b c => FieldsReadBack.sad h d a b c
  | .lop3 h d a b c lut => FieldsReadBack.lop3 h d a b c lut
  | .shl h wide d a b => FieldsReadBack.shl h wide d a b
  | .shr h t d a b => FieldsReadBack.shr h t d a b
  | .rot h d a b => FieldsReadBack.rot h d a b
  | .fsh h d a b c right => FieldsReadBack.fsh h d a b c right
  | .shrr h d a b => FieldsReadBack.shrr h d a b
  | .bfx h t d a b c => FieldsReadBack.bfx h t d a b c
  | .bfi h d a b c => FieldsReadBack.bfi h d a b c
  | .popc h d a => FieldsReadBack.popc h d a
  | .clz h d a => FieldsReadBack.clz h d a
  | .brev h d a => FieldsReadBack.brev h d a
  | .ffs h d a => FieldsReadBack.ffs h d a
  | .cmp h t d a b cond e => FieldsReadBack.cmp h t d a b cond e
  | .sel h d a b p neg => FieldsReadBack.sel h d a b p neg
  | .plop h d a b c lut => FieldsReadBack.plop h d a b c lut
  | .pmovGet h d => FieldsReadBack.pmovGet h d
  | .pmovSet h a mask => FieldsReadBack.pmovSet h a mask
  | .mov h d a => FieldsReadBack.mov h d a
  | .movi h d imm => FieldsReadBack.movi h d imm
  | .movu h d imm => FieldsReadBack.movu h d imm
  | .lea h t d a b s => FieldsReadBack.lea h t d a b s
  | .pack h t d a b => FieldsReadBack.pack h t d a b
  | .unpack h d a => FieldsReadBack.unpack h d a
  | .shfl h m d a b c keep e pd => FieldsReadBack.shfl h m d a b c keep e pd
  | .slide h half d a b c down pd => FieldsReadBack.slide h half d a b c down pd
  | .vote h t a neg => FieldsReadBack.vote h t a neg
  | .matchLanes h d a pd => FieldsReadBack.matchLanes h d a pd
  | .reduce h t d a op mem => FieldsReadBack.reduce h t d a op mem
  | .scan h t d a op excl mem => FieldsReadBack.scan h t d a op excl mem
  | .intersect h d a b c => FieldsReadBack.intersect h d a b c
  | .compact h d a b c p neg => FieldsReadBack.compact h d a b c p neg
  | .xpair h d a => FieldsReadBack.xpair h d a
  | .xswap h d a pd => FieldsReadBack.xswap h d a pd
  | .fadd h t d a b rm => FieldsReadBack.fadd h t d a b rm
  | .fsub h t d a b rm => FieldsReadBack.fsub h t d a b rm
  | .fmul h t d a b rm => FieldsReadBack.fmul h t d a b rm
  | .ffma h t d a b c rm => FieldsReadBack.ffma h t d a b c rm
  | .ffmaw h d a b c rm bf16 hi => FieldsReadBack.ffmaw h d a b c rm bf16 hi
  | .fmin h t d a b => FieldsReadBack.fmin h t d a b
  | .fmax h t d a b => FieldsReadBack.fmax h t d a b
  | .fcmp h t d a b cond e => FieldsReadBack.fcmp h t d a b cond e
  | .frnd h d a rm => FieldsReadBack.frnd h d a rm
  | .fscale h d a b rm => FieldsReadBack.fscale h d a b rm
  | .fclass h d a t => FieldsReadBack.fclass h d a t
  | .frcp h d a rm => FieldsReadBack.frcp h d a rm
  | .fsqrt h d a rm => FieldsReadBack.fsqrt h d a rm
  | .frsq h d a => FieldsReadBack.frsq h d a
  | .fexp2 h d a => FieldsReadBack.fexp2 h d a
  | .flog2 h d a => FieldsReadBack.flog2 h d a
  | .fsin h d a => FieldsReadBack.fsin h d a
  | .fcos h d a => FieldsReadBack.fcos h d a
  | .ftanh h d a => FieldsReadBack.ftanh h d a
  | .fdot2 h t d a b c rm => FieldsReadBack.fdot2 h t d a b c rm
  | .fdot4 h t d a b c rm => FieldsReadBack.fdot4 h t d a b c rm
  | .cvt h t d a b => FieldsReadBack.cvt h t d a b
  | .fxcvtTo h d a fx16 => FieldsReadBack.fxcvtTo h d a fx16
  | .fxcvtFrom h d a fx16 rm => FieldsReadBack.fxcvtFrom h d a fx16 rm
  | .qscale h k d a b => FieldsReadBack.qscale h k d a b
  | .qpack h d a b c rm h1 => FieldsReadBack.qpack h d a b c rm h1
  | .qunpack h d a b n rm => FieldsReadBack.qunpack h d a b n rm
  | .setfmt h d a b => FieldsReadBack.setfmt h d a b
  | .ld h t d m off => FieldsReadBack.ld h t d m off
  | .ldc h t d m off => FieldsReadBack.ldc h t d m off
  | .ldg h t d pd m off => FieldsReadBack.ldg h t d pd m off
  | .ldr h t d pd m off => FieldsReadBack.ldr h t d pd m off
  | .st h t d m off => FieldsReadBack.st h t d m off
  | .scat h t d m off => FieldsReadBack.scat h t d m off
  | .lde h t d pd m off => FieldsReadBack.lde h t d pd m off
  | .ealloc h d m off => FieldsReadBack.ealloc h d m off
  | .erase h m off => FieldsReadBack.erase h m off
  | .eraser h d m off => FieldsReadBack.eraser h d m off
  | .etest h d m off => FieldsReadBack.etest h d m off
  | .atom h op d m off => FieldsReadBack.atom h op d m off
  | .fence h order s => FieldsReadBack.fence h order s
  | .tokenTake h => FieldsReadBack.tokenTake h
  | .tokenPass h => FieldsReadBack.tokenPass h
  | .prefetch h m off => FieldsReadBack.prefetch h m off
  | .reserve h d m off => FieldsReadBack.reserve h d m off
  | .discard h m off => FieldsReadBack.discard h m off
  | .reqpage h m off => FieldsReadBack.reqpage h m off
  | .bra h target reconv => FieldsReadBack.bra h target reconv
  | .brx h a reconv => FieldsReadBack.brx h a reconv
  | .call h d target reconv => FieldsReadBack.call h d target reconv
  | .callx h d a reconv => FieldsReadBack.callx h d a reconv
  | .ret h a => FieldsReadBack.ret h a
  | .exit h => FieldsReadBack.exit h
  | .rejoin h => FieldsReadBack.rejoin h
  | .join h a => FieldsReadBack.join h a
  | .leave h => FieldsReadBack.leave h
  | .nop h => FieldsReadBack.nop h
  | .spawn h a b c pd n => FieldsReadBack.spawn h a b c pd n
  | .launch h d a pd => FieldsReadBack.launch h d a pd
  | .lwait h d a pd test => FieldsReadBack.lwait h d a pd test
  | .kinit h a k dirMin f32 => FieldsReadBack.kinit h a k dirMin f32
  | .kupd h f32 a b k rel => FieldsReadBack.kupd h f32 a b k rel
  | .kread h d k acq => FieldsReadBack.kread h d k acq
  | .check h d a => FieldsReadBack.check h d a
  | .abinit h a b c => FieldsReadBack.abinit h a b c
  | .abarrive h d a b => FieldsReadBack.abarrive h d a b
  | .abwait h a b gen => FieldsReadBack.abwait h a b gen
  | .qinit h a b c q => FieldsReadBack.qinit h a b c q
  | .qacqFree h d q => FieldsReadBack.qacqFree h d q
  | .qacqFull h d q => FieldsReadBack.qacqFull h d q
  | .qrelFull h q => FieldsReadBack.qrelFull h q
  | .qrelFree h q => FieldsReadBack.qrelFree h q
  | .trap h a code => FieldsReadBack.trap h a code
  | .tret h => FieldsReadBack.tret h
  | .getsr h d sr => FieldsReadBack.getsr h d sr
  | .setsr h a sr => FieldsReadBack.setsr h a sr
  | .yield h a => FieldsReadBack.yield h a
  | .prio h a => FieldsReadBack.prio h a
  | .poolset h d a => FieldsReadBack.poolset h d a
  | .poolq h d n => FieldsReadBack.poolq h d n
  | .talloc h m => FieldsReadBack.talloc h m
  | .tfree h m => FieldsReadBack.tfree h m
  | .stash h a b c w => FieldsReadBack.stash h a b c w
  | .unstash h w => FieldsReadBack.unstash h w
  | .cpy h dir d a b c twoD ab q s => FieldsReadBack.cpy h dir d a b c twoD ab q s
  | .cpyh h d a b c size s => FieldsReadBack.cpyh h d a b c size s
  | .binc h a b c => FieldsReadBack.binc h a b c
  | .binp h => FieldsReadBack.binp h
  | .crel h => FieldsReadBack.crel h
  | .fhnd h a n => FieldsReadBack.fhnd h a n
  | .fetch h t d a b n pd => FieldsReadBack.fetch h t d a b n pd
  | .mma h t d a b c sat bs => FieldsReadBack.mma h t d a b c sat bs
  | .mmas h t d a b c sat bs => FieldsReadBack.mmas h t d a b c sat bs
  | .tzero h d => FieldsReadBack.tzero h d
  | .tfill h d a => FieldsReadBack.tfill h d a
  | .tcvt h d a p src => FieldsReadBack.tcvt h d a p src
  | .ttrans h d a w => FieldsReadBack.ttrans h d a w
  | .tadd h d a b t => FieldsReadBack.tadd h d a b t
  | .tred h d a col op t => FieldsReadBack.tred h d a col op t
  | .ttov h d a b => FieldsReadBack.ttov h d a b
  | .vtot h d a b => FieldsReadBack.vtot h d a b
  | .tlu h d a b n fx16 => FieldsReadBack.tlu h d a b n fx16
  | .ttrsLower h d a b n fx16 p => FieldsReadBack.ttrsLower h d a b n fx16 p
  | .ttrsUpper h d a n fx16 => FieldsReadBack.ttrsUpper h d a n fx16
  | .tjac h d a b c n fx16 pd => FieldsReadBack.tjac h d a b c n fx16 pd
  | .tupd h d a b fx16 => FieldsReadBack.tupd h d a b fx16
  | .xswapCompletion id => FieldsReadBack.xswapCompletion id
  | .loadCompletion id => FieldsReadBack.loadCompletion id
  | .existenceCompletion id => FieldsReadBack.existenceCompletion id
  | .atomPerform id => FieldsReadBack.atomPerform id
  | .launchCompletion id => FieldsReadBack.launchCompletion id
  | .kreadCompletion id => FieldsReadBack.kreadCompletion id
  | .unstashCompletion id => FieldsReadBack.unstashCompletion id
  | .cpyQueueSlotTake id => FieldsReadBack.cpyQueueSlotTake id
  | .copyCommandCompletion id => FieldsReadBack.copyCommandCompletion id
  | .binCommandCompletion id => FieldsReadBack.binCommandCompletion id
  | .fetchCompletion id => FieldsReadBack.fetchCompletion id
  | .tjacSweepEnd id => FieldsReadBack.tjacSweepEnd id
  | .matrixCommandCompletion id => FieldsReadBack.matrixCommandCompletion id
  | .matrixTransientError id => FieldsReadBack.matrixTransientError id
  | .invalidationComplete id => FieldsReadBack.invalidationComplete id
  | .descriptorReloadComplete id => FieldsReadBack.descriptorReloadComplete id
  | .packWarp core => FieldsReadBack.packWarp core
  | .incumbentUpdateArrival part k f32 ups => FieldsReadBack.incumbentUpdateArrival part k f32 ups
  | .incumbentCopyUpdate core => FieldsReadBack.incumbentCopyUpdate core
  | .yieldExpiry warp idx => FieldsReadBack.yieldExpiry warp idx
  | .splitDrainEnd core => FieldsReadBack.splitDrainEnd core
  | .splitRelocateEnd core => FieldsReadBack.splitRelocateEnd core
  | .splitRemapEnd core => FieldsReadBack.splitRemapEnd core
  | .stashWriteback block window => FieldsReadBack.stashWriteback block window
  | .clauseHeaderFetch => FieldsReadBack.clauseHeaderFetch
  | .splitAged warp idx => FieldsReadBack.splitAged warp idx
  | .warpPreempt warp => FieldsReadBack.warpPreempt warp
  | .launchSlotArm part slot arm => FieldsReadBack.launchSlotArm part slot arm
  | .blockPlacement part => FieldsReadBack.blockPlacement part
  | .blockRetire kernel => FieldsReadBack.blockRetire kernel
  | .pageWalk part asid va => FieldsReadBack.pageWalk part asid va
  | .pageMigration part asid va => FieldsReadBack.pageMigration part asid va
  | .lineEviction core line => FieldsReadBack.lineEviction core line
  | .correctedError part c => FieldsReadBack.correctedError part c
  | .uncorrectableError part line dirty => FieldsReadBack.uncorrectableError part line dirty
  | .remoteRequest part spkg spart va op => FieldsReadBack.remoteRequest part spkg spart va op
  | .remoteResend n => FieldsReadBack.remoteResend n
  | .fabricPeerResponse line answer => FieldsReadBack.fabricPeerResponse line answer
  | .fabricDeliveryTimeout line dirty => FieldsReadBack.fabricDeliveryTimeout line dirty
  | .flitReceive part link payload keyBit crcOk tagOk => FieldsReadBack.flitReceive part link payload keyBit crcOk tagOk
  | .parityExtensionReceive link repair => FieldsReadBack.parityExtensionReceive link repair
  | .planeRemap plane up => FieldsReadBack.planeRemap plane up
  | .remapAcknowledge => FieldsReadBack.remapAcknowledge
  | .routeUpdate dest version => FieldsReadBack.routeUpdate dest version
  | .keyRotation link => FieldsReadBack.keyRotation link
  | .hostCxlWrite addr data => FieldsReadBack.hostCxlWrite addr data
  | .hostCxlRead addr len => FieldsReadBack.hostCxlRead addr len
  | .create arg0 arg1 => FieldsReadBack.create arg0 arg1
  | .destroy arg0 => FieldsReadBack.destroy arg0
  | .swapout arg0 => FieldsReadBack.swapout arg0
  | .haltComplete part => FieldsReadBack.haltComplete part
  | .haltTimeout part => FieldsReadBack.haltTimeout part
  | .swapin arg0 => FieldsReadBack.swapin arg0
  | .fwstage arg0 arg1 image => FieldsReadBack.fwstage arg0 arg1 image
  | .getVersion inst => FieldsReadBack.getVersion inst
  | .getCapabilities inst => FieldsReadBack.getCapabilities inst
  | .negotiateAlgorithms inst offered => FieldsReadBack.negotiateAlgorithms inst offered
  | .getDigests inst => FieldsReadBack.getDigests inst
  | .getCertificate inst slot => FieldsReadBack.getCertificate inst slot
  | .challenge inst slot nonce => FieldsReadBack.challenge inst slot nonce
  | .getMeasurements inst index nonce => FieldsReadBack.getMeasurements inst index nonce
  | .keyExchange inst exchange => FieldsReadBack.keyExchange inst exchange
  | .finish inst verify => FieldsReadBack.finish inst verify
  | .endSession inst => FieldsReadBack.endSession inst
  | .unsupportedRequest inst => FieldsReadBack.unsupportedRequest inst
  | .sealRequest inst record => FieldsReadBack.sealRequest inst record
  | .keyload inst record => FieldsReadBack.keyload inst record
  | .keydrop inst record => FieldsReadBack.keydrop inst record
  | .packageReset => FieldsReadBack.packageReset
  | .clockStepChange clk therm power => FieldsReadBack.clockStepChange clk therm power
  | .tlbinvAddress part value => FieldsReadBack.tlbinvAddress part value
  | .tlbinvAsid part value => FieldsReadBack.tlbinvAsid part value
  | .tlbinvPartition part value => FieldsReadBack.tlbinvPartition part value
  | .qpost part frame => FieldsReadBack.qpost part frame
  | .qpop warp d => FieldsReadBack.qpop warp d
  | .rgnselWrite part value => FieldsReadBack.rgnselWrite part value
  | .reservationRangeWrite part reg value => FieldsReadBack.reservationRangeWrite part reg value
  | .tscloRead warp d => FieldsReadBack.tscloRead warp d
  | .systemRegisterWrite warp idx sr value => FieldsReadBack.systemRegisterWrite warp idx sr value
  | .illegalOpcode w => FieldsReadBack.illegalOpcode w
theorem flagOf_code (f : Flag) : Flag.of f.code = some f := by cases f <;> rfl

/-- Fields of their widths are cut back out of the number they make. -/
theorem cut_glue (fs : List (Nat × Nat)) (k x : Nat) (h : ∀ c ∈ fs, c.2 < 2 ^ c.1) :
    cut (fs.map Prod.fst) (glue (fs ++ [(k, x)])) = fs.map Prod.snd ++ [x] := by
  induction fs with
  | nil => simp [cut, glue]
  | cons c r ih =>
    have hc := h c (List.mem_cons_self ..)
    simp only [List.map_cons, List.cons_append, cut, glue, Nat.add_mul_mod_self_left, Nat.mod_eq_of_lt hc,
      Nat.add_mul_div_left _ _ (Nat.two_pow_pos c.1), Nat.div_eq_of_lt hc, Nat.zero_add,
      ih fun d hd => h d (List.mem_cons_of_mem _ hd)]

/-- Fields of their widths make a number of the sum of the widths. -/
theorem glue_lt (fs : List (Nat × Nat)) (h : ∀ c ∈ fs, c.2 < 2 ^ c.1) : glue fs < 2 ^ (fs.map Prod.fst).sum := by
  induction fs with
  | nil => simp [glue]
  | cons c r ih =>
    have hc := h c (List.mem_cons_self ..)
    have hr := ih fun d hd => h d (List.mem_cons_of_mem _ hd)
    rw [List.map_cons, List.sum_cons, Nat.pow_add, glue]
    calc c.2 + 2 ^ c.1 * glue r < 2 ^ c.1 * (glue r + 1) := by rw [Nat.mul_add, Nat.mul_one]; omega
      _ ≤ 2 ^ c.1 * 2 ^ (r.map Prod.fst).sum := Nat.mul_le_mul_left _ hr

/-- The fields of a word below its opcode, with their widths (R201). -/
def Raw.fields (r : Raw) : List (Nat × Nat) :=
  [(20, r.f), (3, r.lu), (8, r.b), (8, r.a), (8, r.d), (1, r.neg), (3, r.guard), (2, r.flag), (2, r.scope)]

/-- The word of an instruction with common fields `h` (R201). -/
def wordOf (i : Instr) (h : Head) : Nat := glue (Raw.fields (raw i h) ++ [(9, i.opcode)])

theorem encode_eq_wordOf {i : Instr} {h : Head} (hh : i.head = some h) :
    encode i = some (BitVec.ofNat 64 (wordOf i h)) := by
  cases i <;> cases hh <;> rfl

theorem raw_fields_lt {i : Instr} {h : Head} (hf : Fits (raw i h)) : ∀ c ∈ Raw.fields (raw i h), c.2 < 2 ^ c.1 := by
  obtain ⟨hf, hl, hb, ha, hd⟩ := hf
  have hn : h.neg.toNat < 2 := toNat_lt h.neg
  have hk : h.flag.code < 4 := by cases h.flag <;> decide
  have hs : h.scope.code < 4 := by cases h.scope <;> decide
  simp only [Raw.fields, List.forall_mem_cons]
  exact ⟨hf, hl, hb, ha, hd, hn, h.guard.isLt, hk, hs, by simp⟩

/-- The fields of the word of an instruction are those the encoder wrote: each has its width (R201). -/
theorem rawOf_wordOf {i : Instr} {h : Head} (hf : Fits (raw i h)) (ho : i.opcode < 2 ^ 9) :
    Raw.of (BitVec.ofNat 64 (wordOf i h)).toNat = raw i h := by
  have hlt : wordOf i h < 2 ^ 64 := glue_lt _ fun c hc => by
    obtain hc | hc := List.mem_append.1 hc
    · exact raw_fields_lt hf c hc
    · cases List.mem_singleton.1 hc; exact ho
  have hcut := cut_glue (Raw.fields (raw i h)) 9 i.opcode (raw_fields_lt hf)
  have hcut : cut [20, 3, 8, 8, 8, 1, 3, 2, 2] (wordOf i h) = _ := hcut
  rw [BitVec.toNat_ofNat, Nat.mod_eq_of_lt hlt, Raw.of, hcut]
  rfl

/-- An opcode of the map has nine bits (R201, R209). -/
theorem opcode_lt_of_rowOf {op : Nat} {row : Row} (h : rowOf op = some row) : op < 2 ^ 9 := by
  by_contra hn
  unfold rowOf at h
  repeat rw [if_neg (by omega)] at h
  cases h

/-- The decoder reads back a well-formed instruction with common fields. -/
theorem decode_wordOf {i : Instr} {h : Head} (hh : i.head = some h) (hw : i.wf = true) :
    decode (BitVec.ofNat 64 (wordOf i h)) = .ok i := by
  obtain ⟨hfit, hhead, hbody⟩ := fieldsReadBack i hw h hh
  obtain ⟨row, hrow, hasync, hscope⟩ : ∃ row, rowOf i.opcode = some row ∧ (row.async == !(h.flag == .none)) = true
      ∧ row.scopes.has h.scope = true := by
    unfold Instr.wf Instr.headOk at hw
    cases hr : rowOf i.opcode with
    | none => simp [hh, hr] at hw
    | some row =>
      simp only [hh, hr, Bool.and_eq_true] at hw
      obtain ⟨⟨⟨⟨⟨ha, hs⟩, -⟩, -⟩, -⟩, -⟩ := hw
      exact ⟨row, rfl, ha, hs⟩
  unfold decode
  rw [rawOf_wordOf hfit (opcode_lt_of_rowOf hrow)]
  have hop : (raw i h).op = i.opcode := rfl
  have hflag : Flag.of (raw i h).flag = some h.flag := flagOf_code h.flag
  simp only [hop, hrow, hflag, hhead, hasync, hscope, hbody, if_true]

/-- Every instruction but a word of no opcode has its word from its common fields. -/
theorem encode_cases {i : Instr} {w : Word} (h : encode i = some w) :
    (i = .illegalOpcode w) ∨ ∃ g, i.head = some g ∧ w = BitVec.ofNat 64 (wordOf i g) := by
  cases hh : i.head with
  | some g =>
    rw [encode_eq_wordOf hh] at h
    exact .inr ⟨g, rfl, (Option.some.inj h).symm⟩
  | none =>
    by_cases hi : ∃ x, i = .illegalOpcode x
    · obtain ⟨x, rfl⟩ := hi
      cases h
      exact .inl rfl
    · unfold encode at h
      split at h
      · exact absurd ⟨_, rfl⟩ hi
      · rw [hh] at h; cases h

/-- A word whose opcode is unassigned decodes to the row ILLEGAL_OPCODE (R209). -/
theorem decode_of_unassigned {w : Word} (h : rowOf (w.toNat / 2 ^ 55) = none) : decode w = .ok (.illegalOpcode w) := by
  have hop : (Raw.of w.toNat).op = w.toNat / 2 ^ 55 := by
    simp only [Raw.of, cut, Nat.div_div_eq_div_mul, ← Nat.pow_add]
  unfold decode
  simp only [hop, h]

end Sys2Proof.Laws

namespace Sys2Proof
open Laws

/-- Settles O48: a word comes from an instruction's common fields, or is a word of an unassigned opcode. -/
theorem decodeInvertsEncode : Obligations.DecodeInvertsEncode := by
  intro i w hw he
  obtain rfl | ⟨h, hh, rfl⟩ := encode_cases he
  · have hw : (rowOf (w.toNat / 2 ^ 55)).isNone = true := hw
    exact decode_of_unassigned (Option.isNone_iff_eq_none.1 hw)
  · exact decode_wordOf hh hw

end Sys2Proof
end

section
/-! PROOFS. Integer instructions: what the sums, products and quotients of R229-R231 give, lane by lane. -/

namespace Sys2Proof.Machine

/-! ## ADD to ABS (R229) -/

theorem add_gives (h : Head) (d a b : Reg) (t : AddTy) (ht : t ≠ .i64) :
    Gives (.add h t d a b) d fun _ g => addOf t (g a) (g b) :=
  gives_plain rfl (fun s => show execAdd h t d a b s = _ from rfl) fun _ _ _ => if_neg ht

theorem sub_gives (h : Head) (d a b : Reg) (t : AddTy) (ht : t ≠ .i64) :
    Gives (.sub h t d a b) d fun _ g => subOf t (g a) (g b) :=
  gives_plain rfl (fun s => show execSub h t d a b s = _ from rfl) fun _ _ _ => if_neg ht

theorem addsat_gives (h : Head) (d a b : Reg) (t : SatTy) :
    GivesStatus (.addsat h t d a b) d fun _ g => Res.sat (addsatOf t (g a) (g b)) :=
  givesStatus_of rfl (fun s => show execAddsat h t d a b s = _ from rfl) fun _ _ _ => rfl

theorem subsat_gives (h : Head) (d a b : Reg) (t : SatTy) :
    GivesStatus (.subsat h t d a b) d fun _ g => Res.sat (subsatOf t (g a) (g b)) :=
  givesStatus_of rfl (fun s => show execSubsat h t d a b s = _ from rfl) fun _ _ _ => rfl

theorem min_gives (h : Head) (d a b : Reg) (t : MinTy) (ht : ¬ (t = .i64 ∨ t = .n64)) :
    Gives (.min h t d a b) d fun _ g => minOf t (g a) (g b) :=
  gives_plain rfl (fun s => show execMin h t d a b s = _ from rfl) fun _ _ _ => if_neg ht

theorem max_gives (h : Head) (d a b : Reg) (t : MinTy) (ht : ¬ (t = .i64 ∨ t = .n64)) :
    Gives (.max h t d a b) d fun _ g => maxOf t (g a) (g b) :=
  gives_plain rfl (fun s => show execMax h t d a b s = _ from rfl) fun _ _ _ => if_neg ht

theorem min_givesPair (h : Head) (d a b : Reg) (t : MinTy) (ht : t = .i64 ∨ t = .n64) :
    GivesPair (.min h t d a b) d fun _ g => minWide t (g.wide a) (g.wide b) :=
  givesPair_of rfl (fun s => show execMin h t d a b s = _ from rfl) fun _ _ _ => if_pos ht

theorem max_givesPair (h : Head) (d a b : Reg) (t : MinTy) (ht : t = .i64 ∨ t = .n64) :
    GivesPair (.max h t d a b) d fun _ g => maxWide t (g.wide a) (g.wide b) :=
  givesPair_of rfl (fun s => show execMax h t d a b s = _ from rfl) fun _ _ _ => if_pos ht

theorem abs_gives (h : Head) (d a : Reg) (t : AbsTy) : Gives (.abs h t d a) d fun _ g => absOf t (g a) :=
  gives_plain rfl (fun s => show execAbs h t d a s = _ from rfl) fun _ _ _ => rfl

/-! ## MUL to IREM (R230) -/

theorem mulhi_gives (h : Head) (d a b : Reg) (t : Sgn) :
    Gives (.mulhi h t d a b) d fun _ g => BitVec.ofInt 32 (sgnVal t (g a) * sgnVal t (g b) / 2 ^ 32) :=
  gives_plain rfl (fun s => show execMulhi h t d a b s = _ from rfl) fun _ _ _ => rfl

theorem madw_gives (h : Head) (d a b c : Reg) (t : Sgn) :
    GivesPair (.madw h t d a b c) d fun _ g => BitVec.ofInt 64 (sgnVal t (g a) * sgnVal t (g b)) + g.wide c :=
  givesPair_of rfl (fun s => show execMadw h t d a b c s = _ from rfl) fun _ _ _ => rfl

theorem idiv_gives (h : Head) (d a b : Reg) (t : Sgn) :
    GivesStatus (.idiv h t d a b) d fun _ g => idivOf t (g a) (g b) :=
  givesStatus_of rfl (fun s => show execIdiv h t d a b s = _ from rfl) fun _ _ _ => rfl

theorem irem_gives (h : Head) (d a b : Reg) (t : Sgn) :
    GivesStatus (.irem h t d a b) d fun _ g => iremOf t (g a) (g b) :=
  givesStatus_of rfl (fun s => show execIrem h t d a b s = _ from rfl) fun _ _ _ => rfl

theorem idivOf_i32 (x y : Half) : idivOf .i32 x y =
    if y = 0 then (BitVec.allOnes 32, fstInvalid)
    else if x = 0x80000000#32 ∧ y = BitVec.allOnes 32 then (0x80000000#32, fstOverflow)
    else (BitVec.ofInt 32 (x.toInt.tdiv y.toInt), 0) := by
  unfold idivOf
  rw [sgnVal_i32, sgnVal_i32]
  simp only [true_and]

/-- Of an unsigned quotient nothing overflows. -/
theorem idivOf_n32 (x y : Half) : idivOf .n32 x y =
    if y = 0 then (BitVec.allOnes 32, fstInvalid) else (BitVec.ofInt 32 ((x.toNat : Int).tdiv y.toNat), 0) := by
  unfold idivOf
  rw [sgnVal_n32, sgnVal_n32]
  simp only [reduceCtorEq, false_and, if_false]

/-! ## DOT2, DOT4 and SAD (R231) -/

theorem dot2_gives (h : Head) (d a b c : Reg) (sat : Bool) :
    GivesStatus (.dot2 h d a b c sat) d fun _ g => dotEnd sat false ((g c).toInt
      + (elem16 (g a) 0).toInt * (elem16 (g b) 0).toInt + (elem16 (g a) 1).toInt * (elem16 (g b) 1).toInt) :=
  givesStatus_of rfl (fun s => show execDot2 h d a b c sat s = _ from rfl) fun _ _ _ => rfl

theorem dot4_gives (h : Head) (d a b c : Reg) (t : Dot4Ty) (sat : Bool) :
    GivesStatus (.dot4 h t d a b c sat) d fun _ g =>
      dotEnd sat (t == .n8) ((if t = .n8 then ((g c).toNat : Int) else (g c).toInt) + dot4Sum t (g a) (g b)) :=
  givesStatus_of rfl (fun s => show execDot4 h t d a b c sat s = _ from rfl) fun _ _ _ => rfl

end Sys2Proof.Machine

namespace Sys2Proof
open Machine

/-- Settles O1: each word issues one lane-wise effect, and its element function at the given type is the form claimed. -/
theorem integerArithmetic : Obligations.IntegerArithmetic := by
  refine ⟨⟨?sums, ?saturating, ?extremes, ?magnitudes⟩, ?mul, ?mad, ?division, ?dots, ?sad⟩
  case sums =>
    intro h d a b
    exact ⟨add_gives h d a b .i32 nofun, givesPair_of rfl (fun s => show execAdd h .i64 d a b s = _ from rfl) fun _ _ _ => rfl,
      add_gives h d a b .i16x2 nofun, add_gives h d a b .i8x4 nofun,
      sub_gives h d a b .i32 nofun, givesPair_of rfl (fun s => show execSub h .i64 d a b s = _ from rfl) fun _ _ _ => rfl,
      sub_gives h d a b .i16x2 nofun, sub_gives h d a b .i8x4 nofun⟩
  case saturating =>
    intro h d a b
    exact ⟨addsat_gives h d a b .i32, addsat_gives h d a b .n32, addsat_gives h d a b .i16x2, addsat_gives h d a b .i8x4,
      subsat_gives h d a b .i32, subsat_gives h d a b .n32, subsat_gives h d a b .i16x2, subsat_gives h d a b .i8x4⟩
  case extremes =>
    intro h d a b
    exact ⟨min_gives h d a b .i32 nofun, min_gives h d a b .n32 nofun,
      min_givesPair h d a b .i64 (.inl rfl), min_givesPair h d a b .n64 (.inr rfl),
      min_gives h d a b .i16x2 nofun, min_gives h d a b .i8x4 nofun,
      max_gives h d a b .i32 nofun, max_gives h d a b .n32 nofun,
      max_givesPair h d a b .i64 (.inl rfl), max_givesPair h d a b .n64 (.inr rfl),
      max_gives h d a b .i16x2 nofun, max_gives h d a b .i8x4 nofun⟩
  case magnitudes =>
    intro h d a
    exact ⟨abs_gives h d a .i32, abs_gives h d a .i16x2⟩
  case mul =>
    intro h d a b
    exact ⟨gives_plain rfl (fun s => show execMul h d a b s = _ from rfl) fun _ _ _ => rfl,
      mulhi_gives h d a b .i32, mulhi_gives h d a b .n32⟩
  case mad =>
    intro h d a b c
    exact ⟨gives_plain rfl (fun s => show execMad h d a b c s = _ from rfl) fun _ _ _ => rfl,
      madw_gives h d a b c .i32, madw_gives h d a b c .n32⟩
  case division =>
    intro h d a b
    have signed := idiv_gives h d a b .i32
    have unsigned := idiv_gives h d a b .n32
    simp only [idivOf_i32] at signed
    simp only [idivOf_n32] at unsigned
    exact ⟨signed, unsigned, irem_gives h d a b .i32, irem_gives h d a b .n32⟩
  case dots =>
    intro h d a b c sat
    exact ⟨dot2_gives h d a b c sat, dot4_gives h d a b c .i8 sat, dot4_gives h d a b c .n8 sat,
      dot4_gives h d a b c .i8n8 sat⟩
  case sad =>
    intro h d a b c
    exact gives_plain rfl (fun s => show execSad h d a b c s = _ from rfl) fun _ _ _ => rfl

end Sys2Proof
end

section
/-! PROOFS. Bitwise logic, shifts, fields, compares, predicates and moves (R232-R237). -/

namespace Sys2Proof.Machine

/-- An instruction without status: its results are its writes, one after the other. -/
theorem computes_writes {i : Instr} {h : Head} {eff : IssueUnit → State → State → Effect}
    {ws : State → IssueUnit → List RegResult} {ps : State → IssueUnit → List PredResult}
    (hh : i.head = some h) (hx : ∀ s, exec i s = issue i h eff s)
    (he : ∀ u r w, eff u r w
      = .done ((ps r u).foldl (fun s p => u.writePred s p.1 p.2) ((ws r u).foldl (fun s p => u.write s p.1 p.2) w)))
    (hv : ∀ r u, (vectorsOf (ws r u)).Nodup) : Computes i ws ps fun _ _ => 0 :=
  computes_of hh hx (fun u r w => by rw [he, IssueUnit.results, orFst_zero]) hv

/-- D receives a value of one source. -/
theorem gives_lane1 {i : Instr} {h : Head} {eff : IssueUnit → State → State → Effect} {d a : Reg} {f : Half → Half}
    (hh : i.head = some h) (hx : ∀ s, exec i s = issue i h eff s)
    (he : ∀ u r w, eff u r w = lane1 u r w d a fun x => (f x, 0)) : Gives i d fun _ g => f (g a) :=
  gives_plain hh hx he

theorem vectorsOf_nil : (vectorsOf []).Nodup := List.nodup_nil

/-! ## Shifts and bit fields -/

theorem shl_gives (h : Head) (d a b : Reg) : Gives (.shl h false d a b) d fun _ g => shlOf (g a) (g b).toNat :=
  gives_plain rfl (fun s => show execShl h false d a b s = _ from rfl) fun _ _ _ => rfl

theorem shl_givesPair (h : Head) (d a b : Reg) :
    GivesPair (.shl h true d a b) d fun _ g => shlOf (g.wide a) (g b).toNat :=
  givesPair_of rfl (fun s => show execShl h true d a b s = _ from rfl) fun _ _ _ => rfl

theorem fsh_gives (h : Head) (d a b c : Reg) (right : Bool) :
    Gives (.fsh h d a b c right) d fun _ g => fshOf right (g a) (g b) (g c) :=
  gives_plain rfl (fun s => show execFsh h d a b c right s = _ from rfl) fun _ _ _ => rfl

theorem ffsOf_eq (x : Half) : ffsOf x =
    (((List.range 32).find? fun i => x.getLsbD i).map (BitVec.ofNat 32)).getD (BitVec.allOnes 32) := by
  unfold ffsOf
  cases (List.range 32).find? fun i => x.getLsbD i <;> rfl

/-! ## Compares -/

theorem cmp_givesPreds_half (h : Head) (d : Pred) (a b : Reg) (cond : Cond) (e : Pred) (t : CmpTy)
    (ht : t = .i32 ∨ t = .n32) :
    GivesPreds (.cmp h t d a b cond e) [(d, fun _ g => cmpHalf t cond 0 (g a) (g b))] := by
  obtain rfl | rfl := ht
  · exact givesPreds_of rfl (fun s => show execCmp h .i32 d a b cond e s = _ from rfl) fun _ _ _ => rfl
  · exact givesPreds_of rfl (fun s => show execCmp h .n32 d a b cond e s = _ from rfl) fun _ _ _ => rfl

theorem cmp_givesPreds_word (h : Head) (d : Pred) (a b : Reg) (cond : Cond) (e : Pred) (t : CmpTy)
    (ht : t = .i64 ∨ t = .n64) :
    GivesPreds (.cmp h t d a b cond e) [(d, fun _ g => cmpWord t cond (g.wide a) (g.wide b))] := by
  obtain rfl | rfl := ht
  · exact givesPreds_of rfl (fun s => show execCmp h .i64 d a b cond e s = _ from rfl) fun _ _ _ => rfl
  · exact givesPreds_of rfl (fun s => show execCmp h .n64 d a b cond e s = _ from rfl) fun _ _ _ => rfl

theorem cmp_givesPreds_packed (h : Head) (d : Pred) (a b : Reg) (cond : Cond) (e : Pred) :
    GivesPreds (.cmp h .i16x2 d a b cond e) [(d, fun _ g => cmpHalf .i16x2 cond 0 (g a) (g b)),
      (e, fun _ g => cmpHalf .i16x2 cond 1 (g a) (g b))] :=
  givesPreds_of rfl (fun s => show execCmp h .i16x2 d a b cond e s = _ from rfl) fun _ _ _ => rfl

/-! ## Predicates -/

theorem predBits_eq (u : IssueUnit) (s : State) (x : UPart) (l : Nat) : predBits u s x l =
    BitVec.ofNat 32 ((List.range 8).foldr (fun i n => ((s.predOf x (Fin.ofNat 8 i)).getLsbD l).toNat + 2 * n) 0) := by
  unfold predBits
  simp only [u.pred_eq]

/-- Writes under a test are the writes of what the test keeps. -/
theorem foldl_if_eq_foldl_filter {α β : Type} (p : α → Bool) (f : β → α → β) (xs : List α) (b : β) :
    xs.foldl (fun b a => if p a then f b a else b) b = (xs.filter p).foldl f b := by
  rw [List.foldl_filter]

end Sys2Proof.Machine

namespace Sys2Proof
open Machine

/-- Settles O2: each word issues one lane-wise effect, whose element function is the form claimed. -/
theorem logicShiftsAndFields : Obligations.LogicShiftsAndFields := by
  refine ⟨?lop3, ?shifts, ?fields, ?counts⟩
  case lop3 =>
    intro h d a b c lut
    exact gives_plain rfl (fun s => show execLop3 h d a b c lut s = _ from rfl) fun _ _ _ => rfl
  case shifts =>
    intro h d a b
    exact ⟨shl_gives h d a b, shl_givesPair h d a b,
      gives_plain rfl (fun s => show execShr h .n32 d a b s = _ from rfl) fun _ _ _ => rfl,
      givesPair_of rfl (fun s => show execShr h .n64 d a b s = _ from rfl) fun _ _ _ => rfl,
      gives_plain rfl (fun s => show execShr h .i32 d a b s = _ from rfl) fun _ _ _ => rfl,
      givesPair_of rfl (fun s => show execShr h .i64 d a b s = _ from rfl) fun _ _ _ => rfl,
      gives_plain rfl (fun s => show execRot h d a b s = _ from rfl) fun _ _ _ => rfl,
      gives_plain rfl (fun s => show execShrr h d a b s = _ from rfl) fun _ _ _ => rfl⟩
  case fields =>
    intro h d a b c
    exact ⟨fsh_gives h d a b c false, fsh_gives h d a b c true,
      fun t => gives_plain rfl (fun s => show execBfx h t d a b c s = _ from rfl) fun _ _ _ => rfl,
      gives_plain rfl (fun s => show execBfi h d a b c s = _ from rfl) fun _ _ _ => rfl⟩
  case counts =>
    intro h d a
    have ffs : Gives (.ffs h d a) d fun _ g => ffsOf (g a) := gives_plain rfl (fun s => show execFfs h d a s = _ from rfl) fun _ _ _ => rfl
    simp only [ffsOf_eq] at ffs
    exact ⟨gives_lane1 (f := fun x => BitVec.ofNat 32 (popcOf x)) rfl (fun s => show execPopc h d a s = _ from rfl)
        fun _ _ _ => rfl,
      gives_lane1 (f := fun x => BitVec.ofNat 32 (clzOf x)) rfl (fun s => show execClz h d a s = _ from rfl)
        fun _ _ _ => rfl,
      gives_lane1 (f := brevOf) rfl (fun s => show execBrev h d a s = _ from rfl) fun _ _ _ => rfl, ffs⟩

/-- Settles O3: the tests of a lane's operands are written as they stand; CHECK by whether an incumbent it reads is busy. -/
theorem comparesAndPredicates : Obligations.ComparesAndPredicates := by
  refine ⟨?cmp, ?sel, ?plop, ?pmovGet, ?pmovSet, ?check⟩
  case cmp =>
    intro h d a b cond e
    exact ⟨cmp_givesPreds_half h d a b cond e .i32 (.inl rfl), cmp_givesPreds_half h d a b cond e .n32 (.inr rfl),
      cmp_givesPreds_word h d a b cond e .i64 (.inl rfl), cmp_givesPreds_word h d a b cond e .n64 (.inr rfl),
      cmp_givesPreds_packed h d a b cond e⟩
  case sel =>
    intro h d a b p neg
    refine computes_of rfl (fun s => show execSel h d a b p neg s = _ from rfl) (fun u r w => ?_) fun _ _ =>
      vectorsOf_single _ _
    simp only [laneRes, u.pred_eq, u.status_zero]
    rfl
  case plop =>
    intro h d a b c lut
    refine computes_writes rfl (fun s => show execPlop h d a b c lut s = _ from rfl) (fun u r w => ?_) fun _ _ =>
      vectorsOf_nil
    simp only [u.pred_eq]
    rfl
  case pmovGet =>
    intro h d
    refine computes_of rfl (fun s => show execPmovGet h d s = _ from rfl) (fun u r w => ?_) fun _ _ =>
      vectorsOf_single _ _
    simp only [laneRes, predBits_eq, u.status_zero]
    rfl
  case pmovSet =>
    intro h a mask
    refine givesPreds_of rfl (fun s => show execPmovSet h a mask s = _ from rfl) fun u r w => ?_
    rw [List.foldl_map, foldl_if_eq_foldl_filter]
    rfl
  case check =>
    intro h d a
    refine ⟨?_, fun k => ?_⟩
    · refine computesIf_of rfl (fun s => show execCheck h d a s = _ from rfl) (fun u r w hk => ?_) fun _ _ => vectorsOf_nil
      simp only [hk, IssueUnit.results, orFst_zero]
      rfl
    · refine stalls_of rfl (fun s => show execCheck h d a s = _ from rfl) fun r u w hk => ?_
      simp only [hk]

/-- Settles O4: one lane-wise write of A, of the immediate, or of the immediate over the low bits of D. -/
theorem moves : Obligations.Moves :=
  ⟨fun h d a => gives_plain rfl (fun s => show execMov h d a s = _ from rfl) fun _ _ _ => rfl,
    fun h d imm => ⟨gives_plain rfl (fun s => show execMovi h d imm s = _ from rfl) fun _ _ _ => rfl,
    gives_plain rfl (fun s => show execMovu h d imm s = _ from rfl) fun _ _ _ => rfl⟩⟩

end Sys2Proof
end

section
/-! PROOFS. Values between lanes: shuffles, votes, lists, reductions and scans (R240-R247). -/

namespace Sys2Proof.Machine

/-! ## Shuffles and slides (R241, R242) -/

/-- A source lane that passes a test, by the test or by the filter. -/
theorem bind_if_eq_filter {α : Type} (p : α → Bool) (o : Option α) :
    (o.bind fun t => if p t then some t else none) = o.filter p := by
  cases o <;> rfl

/-- What is written depends on the value of each lane alone. -/
theorem IssueUnit.write_congr {u : IssueUnit} {w : State} {d : Reg} {f g : UPart → Nat → Half}
    (hfg : ∀ x l, f x l = g x l) : u.write w d f = u.write w d g := by rw [funext₂ hfg]

/-- The values a lane of SLIDE takes: of its source lane where it is there, else of C. -/
theorem slideValue_eq (o : Option Nat) (f : Nat → Half) (c : Half) :
    (match o with
      | some t => f t
      | none => c) = (o.map f).getD c := by cases o <;> rfl

/-- The element a lane of SLIDE takes: of its source lane where it is there, else of C. -/
theorem slideElem_eq (o : Option Nat) (f : Nat → BitVec 16) (c : BitVec 16) :
    (match o with
      | some t => f t
      | none => c) = (o.map f).getD c := by cases o <;> rfl

theorem shfl_computes (h : Head) (m : ShflMode) (d a b c : Reg) (keep : Bool) (e : Fin 6) (pd : Pred) :
    Computes (.shfl h m d a b c keep e pd)
      (fun s u => [(d, fun x l =>
        match (shflSource m e.val l (u.read s x b l)).filter x.act.getLsbD with
        | some t => u.read s x a t
        | none => if keep then u.read s x a l else u.read s x c l)])
      (fun s u => [(pd, fun x l => ((shflSource m e.val l (u.read s x b l)).filter x.act.getLsbD).isSome)]) fun _ _ => 0 := by
  refine computes_writes rfl (fun s => show execShfl h m d a b c keep e pd s = _ from rfl) (fun u r w => ?_)
    fun _ _ => vectorsOf_single _ _
  simp only [bind_if_eq_filter]
  rfl

theorem slide_computes (h : Head) (d a b c : Reg) (down : Bool) (pd : Pred) :
    Computes (.slide h false d a b c down pd)
      (fun s u => [(d, fun x l => ((slideSource down 1 l (u.read s x b l).toNat x.act).map (u.read s x a)).getD
        (u.read s x c l))])
      (fun s u => [(pd, fun x l => (slideSource down 1 l (u.read s x b l).toNat x.act).isSome)]) (fun _ _ => 0) := by
  refine computes_writes rfl (fun s => show execSlide h false d a b c down pd s = _ from rfl) (fun u r w => ?_)
    fun _ _ => vectorsOf_single _ _
  simp only [Bool.false_eq_true, if_false, Bool.not_false, Bool.true_or, Bool.and_true]
  exact congrArg (fun v => Effect.done (u.writePred v pd _)) (IssueUnit.write_congr fun x l => slideValue_eq _ _ _)

theorem slide_half_computes (h : Head) (d a b c : Reg) (down : Bool) (pd : Pred) :
    Computes (.slide h true d a b c down pd)
      (fun s u => [(d, fun x l =>
        let el := fun k => ((slideSource down 2 (2 * l + k) (u.read s x b l).toNat x.act).map fun t =>
          elem16 (u.read s x a (t / 2)) (t % 2)).getD (elem16 (u.read s x c l) 0)
        pack16 (el 0) (el 1))])
      (fun s u => [(pd, fun x l => (slideSource down 2 (2 * l) (u.read s x b l).toNat x.act).isSome
        && (slideSource down 2 (2 * l + 1) (u.read s x b l).toNat x.act).isSome)]) fun _ _ => 0 := by
  refine computes_writes rfl (fun s => show execSlide h true d a b c down pd s = _ from rfl) (fun u r w => ?_)
    fun _ _ => vectorsOf_single _ _
  simp only [if_true, Bool.not_true, Bool.false_or, Nat.add_zero]
  exact congrArg (fun v => Effect.done (u.writePred v pd _))
    (IssueUnit.write_congr fun x l => congrArg₂ pack16 (slideElem_eq _ _ _) (slideElem_eq _ _ _))

/-! ## Votes (R243) -/

theorem vote_any (h : Head) (q a : Pred) (neg : Bool) : Computes (.vote h (.any q) a neg) (fun _ _ => [])
    (fun s _ => [(q, fun x _ => (if neg then ~~~(s.predOf x a) else s.predOf x a) &&& x.act != 0)]) fun _ _ => 0 := by
  refine computes_writes rfl (fun s => show execVote h (.any q) a neg s = _ from rfl) (fun u r w => ?_)
    fun _ _ => vectorsOf_nil
  simp only [vote_lanes]
  rfl

theorem vote_all (h : Head) (q a : Pred) (neg : Bool) : Computes (.vote h (.all q) a neg) (fun _ _ => [])
    (fun s _ => [(q, fun x _ => (if neg then ~~~(s.predOf x a) else s.predOf x a) &&& x.act == x.act)]) fun _ _ => 0 := by
  refine computes_writes rfl (fun s => show execVote h (.all q) a neg s = _ from rfl) (fun u r w => ?_)
    fun _ _ => vectorsOf_nil
  simp only [vote_lanes]
  rfl

theorem vote_ballot (h : Head) (d : Reg) (cnt : Bool) (a : Pred) (neg : Bool) :
    Computes (.vote h (.ballot d cnt) a neg)
      (fun s _ => [(d, fun x _ => if cnt then
          BitVec.ofNat 32 (Lanes.count ((if neg then ~~~(s.predOf x a) else s.predOf x a) &&& x.act))
        else (if neg then ~~~(s.predOf x a) else s.predOf x a) &&& x.act)])
      (fun _ _ => []) fun _ _ => 0 := by
  refine computes_writes rfl (fun s => show execVote h (.ballot d cnt) a neg s = _ from rfl) (fun u r w => ?_)
    fun _ _ => vectorsOf_single _ _
  simp only [vote_lanes, laneRes, u.status_zero, orFst_zero]
  rfl

/-! ## Lists (R246, R247) -/

/-- Of a vector register and scalars one vector register is written. -/
theorem vectorsOf_with_scalars (d : Reg) (k k' : Fin 48) (f g g' : UPart → Nat → Half) :
    (vectorsOf [(d, f), (.s k, g), (.s k', g')]).Nodup := by
  unfold vectorsOf
  cases d <;> simp

/-- The place of a value in a list, all ones for padding and for a value that is not there. -/
theorem findPlace_eq (ys : List Half) (v : Half) :
    (if v = BitVec.allOnes 32 then v
      else match ys.findIdx? fun y => y == v with
        | some j => BitVec.ofNat 32 j
        | none => BitVec.allOnes 32)
    = if v = BitVec.allOnes 32 then BitVec.allOnes 32
      else ((ys.findIdx? fun y => y == v).map (BitVec.ofNat 32)).getD (BitVec.allOnes 32) := by
  split
  · assumption
  · cases ys.findIdx? fun y => y == v <;> rfl

theorem intersect_computes (h : Head) (d a b : Reg) (k : Fin 48) : Computes (.intersect h d a b (.s k))
    (fun s u =>
      let xs := listOf u s a
      let ys := listOf u s b
      [(d, fun x l => if u.read s x a l = BitVec.allOnes 32 then BitVec.allOnes 32
          else ((ys.findIdx? fun y => y == u.read s x a l).map (BitVec.ofNat 32)).getD (BitVec.allOnes 32)),
        (.s k, fun _ _ => BitVec.ofNat 32 (advanceCounts xs ys).1),
        (Reg.plus (.s k) 1, fun _ _ => BitVec.ofNat 32 (advanceCounts xs ys).2)]) (fun _ _ => []) fun _ _ => 0 := by
  refine computes_writes rfl (fun s => show execIntersect h d a b (.s k) s = _ from rfl) (fun u r w => ?_)
    fun _ _ => vectorsOf_with_scalars _ _ _ _ _ _
  exact congrArg (fun v => Effect.done (u.write (u.write v _ _) _ _)) (IssueUnit.write_congr fun x l => findPlace_eq _ _)

/-- The value a lane of COMPACT takes: the selected one at its place, else of C. -/
theorem compactValue_eq (o : Option Half) (c : Half) :
    (match o with
      | some v => v
      | none => c) = o.getD c := by cases o <;> rfl

theorem compact_computes (h : Head) (d a : Reg) (k : Fin 48) (c : Reg) (p : Pred) (neg : Bool) :
    Computes (.compact h d a (.s k) c p neg)
      (fun s u =>
        let xs := (u.lanes.filter fun x => (s.predOf x.1 p).getLsbD x.2 != neg).map fun x => u.read s x.1 a x.2
        [(d, fun x l => (xs[(u.lanes.findIdx? fun y => y.1.uid == x.uid && y.2 == l).getD 0]?).getD (u.read s x c l)),
          (.s k, fun _ _ => BitVec.ofNat 32 xs.length)]) (fun _ _ => []) fun _ _ => 0 := by
  refine computes_writes rfl (fun s => show execCompact h d a (.s k) c p neg s = _ from rfl) (fun u r w => ?_)
    fun r u => ?_
  · simp only [u.pred_eq]
    exact congrArg (fun v => Effect.done (u.write v _ _)) (IssueUnit.write_congr fun x l => compactValue_eq _ _)
  · unfold vectorsOf
    cases d <;> simp

/-! ## Reductions and scans (R244, R245) -/

theorem reduce_half (h : Head) (d a : Reg) (op : RedOp) (mem : Bool) (t : RedTy) (ht : t = .i32 ∨ t = .n32) :
    Computes (.reduce h t d a op mem)
      (fun s u => [(d, fun _ l => (foldSome (redInt op (t == .n32)) (redElems u mem l (u.read s · a ·))).getD 0)])
      (fun _ _ => []) fun _ _ => 0 := by
  obtain rfl | rfl := ht
  · exact computes_writes rfl (fun s => show execReduce h .i32 d a op mem s = _ from rfl) (fun _ _ _ => rfl)
      fun _ _ => vectorsOf_single _ _
  · exact computes_writes rfl (fun s => show execReduce h .n32 d a op mem s = _ from rfl) (fun _ _ _ => rfl)
      fun _ _ => vectorsOf_single _ _

theorem reduce_word (h : Head) (d a : Reg) (op : RedOp) (mem : Bool) : Computes (.reduce h .i64 d a op mem)
    (fun s u => let v := fun l => (foldSome (redWide op) (redElems u mem l (u.read64 s · a ·))).getD 0
      [(d, fun _ l => lo32 (v l)), (Reg.plus d 1, fun _ l => hi32 (v l))])
    (fun _ _ => []) fun _ _ => 0 :=
  computes_writes rfl (fun s => show execReduce h .i64 d a op mem s = _ from rfl) (fun _ _ _ => rfl)
    fun _ _ => vectorsOf_pair _ _ _

theorem reduce_float (h : Head) (d a : Reg) (op : RedOp) (mem : Bool) : Computes (.reduce h .f32 d a op mem)
    (fun s u => [(d, fun _ l => (floatTree op (fmtFlush u.fmt) (redElems u mem l (u.read s · a ·))).1)])
    (fun _ _ => [])
    fun s u => redStatus u mem fun l => (floatTree op (fmtFlush u.fmt) (redElems u mem l (u.read s · a ·))).2 :=
  computes_of rfl (fun s => show execReduce h .f32 d a op mem s = _ from rfl) (fun _ _ _ => rfl)
    fun _ _ => vectorsOf_single _ _

/-- One place more for an inclusive scan. -/
theorem scanPlaces_eq (excl : Bool) : (if excl then 0 else 1) = (!excl).toNat := by cases excl <;> rfl

theorem scan_int (h : Head) (d a : Reg) (op : RedOp) (excl mem : Bool) : Computes (.scan h .i32 d a op excl mem)
    (fun s u => [(d, fun x l => (foldSome (redInt op false) (cutElems (ownPlace u mem x l + (!excl).toNat)
      (redElems u mem l (u.read s · a ·)))).getD (scanIdentity op))]) (fun _ _ => []) fun _ _ => 0 := by
  refine computes_writes rfl (fun s => show execScan h .i32 d a op excl mem s = _ from rfl) (fun u r w => ?_)
    fun _ _ => vectorsOf_single _ _
  simp only [scanPlaces_eq]
  rfl

theorem scan_float (h : Head) (d a : Reg) (op : RedOp) (excl mem : Bool) : Computes (.scan h .f32 d a op excl mem)
    (fun s u => [(d, fun x l => (floatTree .add (fmtFlush u.fmt) (cutElems (ownPlace u mem x l + (!excl).toNat)
      (redElems u mem l (u.read s · a ·)))).1)]) (fun _ _ => [])
    fun s u => u.status fun x l => (floatTree .add (fmtFlush u.fmt) (cutElems (ownPlace u mem x l + (!excl).toNat)
      (redElems u mem l (u.read s · a ·)))).2 := by
  refine computes_of rfl (fun s => show execScan h .f32 d a op excl mem s = _ from rfl) (fun u r w => ?_)
    fun _ _ => vectorsOf_single _ _
  simp only [scanPlaces_eq]
  rfl

end Sys2Proof.Machine

namespace Sys2Proof
open Machine

/-- Settles O5: what each of the words writes, its source lanes and lists put as the statement puts them. -/
theorem otherLanesAndLists : Obligations.OtherLanesAndLists := by
  refine ⟨⟨shfl_computes, fun h d a b c down pd => ⟨slide_computes h d a b c down pd, slide_half_computes h d a b c down pd⟩,
    ?votes, ?matchLanes⟩, intersect_computes, compact_computes⟩
  case votes =>
    intro h d q a neg
    exact ⟨vote_any h q a neg, vote_all h q a neg, vote_ballot h d false a neg, vote_ballot h d true a neg⟩
  case matchLanes =>
    intro h d a pd
    exact computes_writes rfl (fun s => show execMatchLanes h d a pd s = _ from rfl) (fun _ _ _ => rfl)
      fun _ _ => vectorsOf_single _ _

/-- Settles O6: the combined elements are those the unit's effect combines, one write for each form. -/
theorem reductionsAndScans : Obligations.ReductionsAndScans := by
  refine ⟨?reduce, fun h d a op excl mem => ⟨scan_int h d a op excl mem, scan_float h d a op excl mem⟩⟩
  intro h d a op mem
  exact ⟨reduce_half h d a op mem .i32 (.inl rfl), reduce_half h d a op mem .n32 (.inr rfl), reduce_word h d a op mem,
    reduce_float h d a op mem⟩

end Sys2Proof
end

section
/-! PROOFS. Float and conversion instructions (R251-R264): one lane-wise effect each, with the status of its results. -/

namespace Sys2Proof.Machine

/-- D and fst receive a result of one source. -/
theorem givesStatus_lane1 {i : Instr} {h : Head} {eff : IssueUnit → State → State → Effect} {d a : Reg}
    {f : Bool → Half → Res} (hh : i.head = some h) (hx : ∀ s, exec i s = issue i h eff s)
    (he : ∀ u r w, eff u r w = lane1 u r w d a (f u.flush)) : GivesStatus i d fun u g => f (fmtFlush u.fmt) (g a) :=
  givesStatus_of hh hx he

/-! ## FCMP (R256) -/

theorem fcmp_f32 (h : Head) (d : Pred) (a b : Reg) (cond : FCond) (e : Pred) :
    Computes (.fcmp h .f32 d a b cond e) (fun _ _ => [])
      (fun s u => [(d, fun x l => (fcmpElem .f32 cond (fmtFlush u.fmt) 0 (u.read s x a l) (u.read s x b l)).1)])
      fun s u => u.status fun x l =>
        flagIf (fcmpElem .f32 cond (fmtFlush u.fmt) 0 (u.read s x a l) (u.read s x b l)).2 fstInvalid := by
  refine computes_of rfl (fun s => show execFcmp h .f32 d a b cond e s = _ from rfl) (fun u r w => ?_)
    fun _ _ => List.nodup_nil
  simp only [reduceCtorEq, if_false, decide_false, Bool.false_and, Bool.or_false]
  rfl

theorem fcmp_f16x2 (h : Head) (d : Pred) (a b : Reg) (cond : FCond) (e : Pred) :
    Computes (.fcmp h .f16x2 d a b cond e) (fun _ _ => [])
      (fun s u => [(d, fun x l => (fcmpElem .f16x2 cond (fmtFlush u.fmt) 0 (u.read s x a l) (u.read s x b l)).1),
        (e, fun x l => (fcmpElem .f16x2 cond (fmtFlush u.fmt) 1 (u.read s x a l) (u.read s x b l)).1)])
      fun s u => u.status fun x l =>
        flagIf ((fcmpElem .f16x2 cond (fmtFlush u.fmt) 0 (u.read s x a l) (u.read s x b l)).2
          || (fcmpElem .f16x2 cond (fmtFlush u.fmt) 1 (u.read s x a l) (u.read s x b l)).2) fstInvalid := by
  refine computes_of rfl (fun s => show execFcmp h .f16x2 d a b cond e s = _ from rfl) (fun u r w => ?_)
    fun _ _ => List.nodup_nil
  simp only [if_true, decide_true, Bool.true_and]
  rfl

/-! ## QSCALE and QUNPACK (R262, R264) -/

theorem qscale_computes (h : Head) (k : QK) (d a b : Reg) : Computes (.qscale h k d a b)
    (fun s u => [(d, fun x l => match emaxOf (fmtD u.fmt) with
      | none => 0xFF#32
      | some e => BitVec.ofNat 32 (scaleCode e (qscaleBlock u s k a b x l)))]) (fun _ _ => [])
    fun _ u => u.status fun _ _ => if (emaxOf (fmtD u.fmt)).isNone then fstFormat else 0 := by
  refine computes_of rfl (fun s => show execQscale h k d a b s = _ from rfl) (fun u r w => ?_)
    fun _ _ => vectorsOf_single _ _
  cases he : emaxOf (fmtD u.fmt) with
  | none => rfl
  | some e => rfl

theorem qunpack_computes (h : Head) (d a b : Reg) (n : Fin 4) (rm : Rm) : Computes (.qunpack h d a b n rm)
    (fun s u => [(d, fun x l => (qunpackOf u.fmt (rmOf rm u.fmt) n.val 0 (u.read s x a l) (u.read s x b l)).1),
      (Reg.plus d 1, fun x l => (qunpackOf u.fmt (rmOf rm u.fmt) n.val 1 (u.read s x a l) (u.read s x b l)).1)])
    (fun _ _ => [])
    fun s u => u.status fun x l => (qunpackOf u.fmt (rmOf rm u.fmt) n.val 0 (u.read s x a l) (u.read s x b l)).2
      ||| (qunpackOf u.fmt (rmOf rm u.fmt) n.val 1 (u.read s x a l) (u.read s x b l)).2 :=
  computes_of rfl (fun s => show execQunpack h d a b n rm s = _ from rfl) (fun _ _ _ => rfl)
    fun _ _ => vectorsOf_pair _ _ _

end Sys2Proof.Machine

namespace Sys2Proof
open Machine

/-- Settles O7: one lane-wise effect with status for each word, its element function the one claimed. -/
theorem floatArithmetic : Obligations.FloatArithmetic := by
  refine ⟨?sums, ?wide, ?dot2, ?dot4⟩
  case sums =>
    intro h d a b rm t
    exact ⟨givesStatus_of rfl (fun s => show execFadd h t d a b rm s = _ from rfl) fun _ _ _ => rfl,
      givesStatus_of rfl (fun s => show execFsub h t d a b rm s = _ from rfl) fun _ _ _ => rfl,
      givesStatus_of rfl (fun s => show execFmul h t d a b rm s = _ from rfl) fun _ _ _ => rfl,
      fun c => givesStatus_of rfl (fun s => show execFfma h t d a b c rm s = _ from rfl) fun _ _ _ => rfl⟩
  case wide =>
    intro h d a b c rm bf16 hi
    exact givesStatus_of rfl (fun s => show execFfmaw h d a b c rm bf16 hi s = _ from rfl) fun _ _ _ => rfl
  case dot2 =>
    intro h t d a b c rm
    exact givesStatus_of rfl (fun s => show execFdot2 h t d a b c rm s = _ from rfl) fun _ _ _ => rfl
  case dot4 =>
    intro h t d a b c rm
    exact givesStatus_of rfl (fun s => show execFdot4 h t d a b c rm s = _ from rfl) fun _ _ _ => rfl

/-- Settles O8: one lane-wise effect for each word; the compares of FCMP go to predicates, with their status. -/
theorem floatComparesAndFunctions : Obligations.FloatComparesAndFunctions := by
  refine ⟨⟨?extremes, ?fcmp, ?frnd, ?fscale, ?fclass⟩, ?rounded, ?approximate⟩
  case extremes =>
    intro h d a b t
    exact ⟨givesStatus_of rfl (fun s => show execFmin h t d a b s = _ from rfl) fun _ _ _ => rfl,
      givesStatus_of rfl (fun s => show execFmax h t d a b s = _ from rfl) fun _ _ _ => rfl⟩
  case fcmp =>
    intro h d a b cond e
    exact ⟨fcmp_f32 h d a b cond e, fcmp_f16x2 h d a b cond e⟩
  case frnd =>
    intro h d a rm
    exact givesStatus_of rfl (fun s => show execFrnd h d a rm s = _ from rfl) fun _ _ _ => rfl
  case fscale =>
    intro h d a b rm
    exact givesStatus_of rfl (fun s => show execFscale h d a b rm s = _ from rfl) fun _ _ _ => rfl
  case fclass =>
    intro h d a t
    exact gives_plain rfl (fun s => show execFclass h d a t s = _ from rfl) fun _ _ _ => rfl
  case rounded =>
    intro h d a rm
    exact ⟨givesStatus_of rfl (fun s => show execFrcp h d a rm s = _ from rfl) fun _ _ _ => rfl,
      givesStatus_of rfl (fun s => show execFsqrt h d a rm s = _ from rfl) fun _ _ _ => rfl⟩
  case approximate =>
    intro h d a
    exact ⟨givesStatus_lane1 (f := frsqOf) rfl (fun s => show execFrsq h d a s = _ from rfl) fun _ _ _ => rfl,
      givesStatus_lane1 (f := fexp2Of) rfl (fun s => show execFexp2 h d a s = _ from rfl) fun _ _ _ => rfl,
      givesStatus_lane1 (f := flog2Of) rfl (fun s => show execFlog2 h d a s = _ from rfl) fun _ _ _ => rfl,
      givesStatus_lane1 (f := fsinOf) rfl (fun s => show execFsin h d a s = _ from rfl) fun _ _ _ => rfl,
      givesStatus_lane1 (f := fcosOf) rfl (fun s => show execFcos h d a s = _ from rfl) fun _ _ _ => rfl,
      givesStatus_lane1 (f := ftanhOf) rfl (fun s => show execFtanh h d a s = _ from rfl) fun _ _ _ => rfl⟩

/-- Settles O9: one lane-wise effect with status for each word; QSCALE by whether D's format has a scale. -/
theorem conversions : Obligations.Conversions := by
  refine ⟨?cvt, ?fxcvtTo, ?fxcvtFrom, qscale_computes, ?qpack, qunpack_computes⟩
  case cvt =>
    intro h t d a b
    exact givesStatus_of rfl (fun s => show execCvt h t d a b s = _ from rfl) fun _ _ _ => rfl
  case fxcvtTo =>
    intro h d a fx16
    exact givesStatus_of rfl (fun s => show execFxcvtTo h d a fx16 s = _ from rfl) fun _ _ _ => rfl
  case fxcvtFrom =>
    intro h d a fx16 rm
    exact givesStatus_of rfl (fun s => show execFxcvtFrom h d a fx16 rm s = _ from rfl) fun _ _ _ => rfl
  case qpack =>
    intro h d a b c rm h1
    exact givesStatus_of rfl (fun s => show execQpack h d a b c rm h1 s = _ from rfl) fun _ _ _ => rfl

end Sys2Proof
end

section
/-! PROOFS. Accesses to memory: loads, stores, atomics and existence instructions (R80-R84, R267-R280). -/

namespace Sys2Proof.Machine

/-! ## Loads -/

/-- A load with no earlier read pending and no lane with a cause starts. -/
theorem loadEffect_done {u : IssueUnit} {h : Head} {r w : State} {d : Reg} {size : Nat} {pd : Option Pred} {opcode : Nat}
    {acc : Acc} {pol : Policy} {addrs : List (UPart × Nat × Word)} {pred : State → LaneAcc → Bool}
    {c : State × List LaneAcc} {s1 : State} (hu : u.lanes ≠ []) (hr : readsPending r u = false)
    (hc : checkLanes u size size acc w addrs = c) (ht : accessTrap u r c.2 = none)
    (hs : touchAll c.1 u pol false c.2 = s1) :
    loadEffect u h r w d size pd opcode acc pol addrs pred =
      .done (startLoad u h s1 d size pd opcode (loadLanes u s1 size c.2 (pred s1)) c.2) := by
  unfold loadEffect
  rw [ite_lanes hu, hr]
  simp only [Bool.false_eq_true, if_false, hc, ht, hs]

/-! ## Completions of loads and existence instructions -/

theorem exec_loadCompletion_load {s : State} {id : Nat} {q : Pend} {c : LoadCmd} (hq : s.pend.get? id = some q)
    (hw : q.work = .load c) : exec (.loadCompletion id) s = .next (if c.exist then s else finishLoad s id q c) := by
  show execLoadCompletion id s = _
  unfold execLoadCompletion
  simp only [hq, hw]

theorem exec_loadCompletion_exist {s : State} {id : Nat} {q : Pend} {r : Result} (hq : s.pend.get? id = some q)
    (hw : q.work = .result .exist r) : exec (.loadCompletion id) s = .next s := by
  show execLoadCompletion id s = _
  unfold execLoadCompletion
  simp only [hq, hw]

theorem exec_existenceCompletion_load {s : State} {id : Nat} {q : Pend} {c : LoadCmd} (hq : s.pend.get? id = some q)
    (hw : q.work = .load c) : exec (.existenceCompletion id) s = .next (if c.exist then finishLoad s id q c else s) := by
  show execExistenceCompletion id s = _
  unfold execExistenceCompletion
  simp only [hq, hw]

theorem exec_existenceCompletion_exist {s : State} {id : Nat} {q : Pend} {r : Result} (hq : s.pend.get? id = some q)
    (hw : q.work = .result .exist r) : exec (.existenceCompletion id) s = .next (deliver s id q false r) := by
  show execExistenceCompletion id s = _
  unfold execExistenceCompletion
  simp only [hq, hw]

theorem finishLoad_ready {s : State} {id : Nat} {q : Pend} {c : LoadCmd} (hc : c.ready = true) :
    finishLoad s id q c = deliver s id q false (c.resultIn s q.warps q.order) := if_pos hc

/-! ## Stores -/

/-- No lane of some accesses meets what a test finds. -/
theorem find?_eq_none_of_forall {α : Type} {p : α → Bool} {xs : List α} (h : ∀ x ∈ xs, p x = false) :
    xs.find? p = none := by
  rw [List.find?_eq_none]
  intro x hx
  rw [h x hx]
  exact Bool.false_ne_true

/-- A store that waits for nothing and meets no cause writes. -/
theorem storeEffect_done {u : IssueUnit} {r w : State} {d : Reg} {size : Nat} {m : Addr}
    {addrs : List (UPart × Nat × Word)} {c : State × List LaneAcc} {got : State} {b : State × List (Nat × Nat × Nat)}
    (hu : u.lanes ≠ []) (hw : writeWait u r m.order = none) (hs : spanWait r u.part u.asid (addrs.map (·.2.2)) = none)
    (hc : checkLanes u size size .store w addrs = c) (ht : accessTrap u r c.2 = none)
    (hr : ∀ a ∈ c.2, tileReserved c.1 u.part a.place = false)
    (hg : takeFaulted c.1 (missingLines c.1 u.part true size c.2) = got)
    (hm : missingLines got u.part true size c.2 = []) (hb : births true got u.part (tilesOf c.2) [] = b)
    (hf : existFullTrap u r c.2 b.2 = none) :
    storeEffect u r w d size m addrs = .done (writePlaces (touchAll b.1 u m.policy true c.2) u.part
      (c.2.map fun a => (a.place, storeBytes u r d size a.part a.lane))) := by
  unfold storeEffect
  rw [ite_lanes hu, hw, hs]
  simp only [Option.orElse, hc, ht, hg, hm, hb, hf, find?_eq_none_of_forall hr, List.isEmpty_nil, Bool.not_true,
    Bool.false_eq_true, if_false]
  rfl

/-! ## ATOM_PERFORM and ERASE -/

theorem exec_atomPerform {s : State} {id : Nat} {q : Pend} {op : AtomOp} {d : Reg} {lanes : List AtomLane}
    (hq : s.pend.get? id = some q) (hw : q.work = .atom op d lanes) :
    exec (.atomPerform id) s =
      let x := performLanes id q.part q.block (s.asidOfBlock q.block) op s lanes
      if x.2.all fun a => a.got.isSome then
        .next (deliver x.1 id q false (LoadCmd.resultIn
          ⟨d, AtomOp.bytes op, none, AtomOp.opcode op, x.2.map fun a => a.loaded false⟩ x.1 q.warps q.order))
      else .next (setWork x.1 id (.atom op d x.2)) := by
  show execAtomPerform id s = _
  unfold execAtomPerform
  simp only [hq, hw]

/-- ERASE and ERASER that wait for nothing and meet no cause erase. -/
theorem eraseEffect_done {u : IssueUnit} {r w : State} {o : Order} {addrs : List (UPart × Nat × Word)}
    {n : UPart → Nat → Nat} {c : State × List LaneAcc} {as : List LaneAcc} (hu : u.lanes ≠ [])
    (hw : writeWait u r o = none) (hc : checkLanes u 256 256 .exist w addrs = c)
    (has : addCauses c.2 (fun a => eraseCause c.1 u.part a (n a.part a.lane)) = as) (ht : accessTrap u r as = none)
    (hr : ∀ a ∈ as, anyReserved c.1 u.part a.place (n a.part a.lane) = false) :
    eraseEffect u r w o addrs n = .done (as.foldl (fun s a => eraseFrom s u.part a.place (n a.part a.lane)) c.1) := by
  unfold eraseEffect
  rw [ite_lanes hu, hw]
  simp only [hc, has, ht, find?_eq_none_of_forall hr]

end Sys2Proof.Machine

namespace Sys2Proof
open Machine

/-- Settles O10: with the checks passed the effect of a load is its start; a completion goes by the command's kind. -/
theorem loads : Obligations.Loads := by
  refine ⟨⟨?ld, ?ldc, ?predicated⟩, ?ready, ?result⟩
  case ld =>
    intro h t d m off
    exact does_of rfl (fun s => show execLd h t d m off s = _ from rfl) fun _ _ _ ⟨hu, hr, ht⟩ => loadEffect_done hu hr rfl ht rfl
  case ldc =>
    intro h t d m off
    refine does_of rfl (fun s => show execLdc h t d m off s = _ from rfl) fun r u w ⟨hu, hr, ht⟩ => ?_
    dsimp only at ht ⊢
    simp only [ite_lanes hu, hr, ht, Bool.false_eq_true, if_false]
  case predicated =>
    intro h t d pd m off
    exact ⟨does_of rfl (fun s => show execLdg h t d pd m off s = _ from rfl)
        fun _ _ _ ⟨hu, hr, ht⟩ => loadEffect_done hu hr rfl ht rfl,
      does_of rfl (fun s => show execLdr h t d pd m off s = _ from rfl)
        fun _ _ _ ⟨hu, hr, ht⟩ => loadEffect_done hu hr rfl ht rfl,
      does_of rfl (fun s => show execLde h t d pd m off s = _ from rfl)
        fun _ _ _ ⟨hu, hr, ht⟩ => loadEffect_done hu hr rfl ht rfl⟩
  case ready =>
    intro id s q c hq hw hc
    rw [exec_loadCompletion_load hq hw, exec_existenceCompletion_load hq hw, finishLoad_ready hc]
    constructor <;> intro he <;> rw [he] <;> exact ⟨rfl, rfl⟩
  case result =>
    intro id s q res hq hw
    exact ⟨exec_existenceCompletion_exist hq hw, exec_loadCompletion_exist hq hw⟩

/-- Settles O11: with nothing to wait for and no cause the effect of a store is its writes. -/
theorem storesWrite : Obligations.StoresWrite := by
  constructor
  · intro h t d m off
    exact does_of rfl (fun s => show execSt h t d m off s = _ from rfl)
      fun _ _ _ ⟨hu, hw, hs, ht, hr, hm, hf⟩ => storeEffect_done hu hw hs rfl ht hr rfl hm rfl hf
  · intro h t d m off
    exact does_of rfl (fun s => show execScat h t d m off s = _ from rfl)
      fun _ _ _ ⟨hu, hw, hs, ht, hr, hm, hf⟩ => storeEffect_done hu hw hs rfl ht hr rfl hm rfl hf

/-- Settles O12: the effect of ATOM starts the command; its performance delivers where every lane has been performed. -/
theorem atomics : Obligations.Atomics := by
  constructor
  · intro h op d m off
    refine does_of rfl (fun s => show execAtom h op d m off s = _ from rfl) fun r u w ⟨hu, hw, hs, ht, ha, hf⟩ => ?_
    dsimp only at ht ha hf ⊢
    simp only [ite_lanes hu, hw, hs, Option.orElse, ht, List.findSome?_eq_none_iff.2 ha, hf]
  · intro id s q op d lanes hq hw
    refine ⟨fun hall => ?_, fun ⟨a, ha, hg⟩ => ?_⟩ <;> rw [exec_atomPerform hq hw]
    · exact if_pos (List.all_eq_true.2 hall)
    · refine if_neg fun hall => ?_
      have := List.all_eq_true.1 hall a ha
      rw [hg] at this
      exact absurd this Bool.false_ne_true

/-- Settles O13: with nothing to wait for and no cause, each existence instruction's effect is the one claimed. -/
theorem existenceInstructions : Obligations.ExistenceInstructions := by
  refine ⟨?ealloc, ?etest, ?erase⟩
  case ealloc =>
    intro h d m off
    refine does_of rfl (fun s => show execEalloc h d m off s = _ from rfl) fun r u w ⟨hu, hw, hr, ht⟩ => ?_
    dsimp only at hr ht ⊢
    simp only [ite_lanes hu, hw, existAddrs, find?_eq_none_of_forall hr, ht]
  case etest =>
    intro h d m off
    refine does_of rfl (fun s => show execEtest h d m off s = _ from rfl) fun r u w ⟨hu, hr, ht⟩ => ?_
    dsimp only at ht ⊢
    simp only [ite_lanes hu, hr, existAddrs, ht, Bool.false_eq_true, if_false]
  case erase =>
    intro h d m off
    exact ⟨does_of rfl (fun s => show execErase h m off s = _ from rfl)
        fun _ _ _ ⟨hu, hw, ht, hr⟩ => eraseEffect_done hu hw rfl rfl ht hr,
      does_of rfl (fun s => show execEraser h d m off s = _ from rfl)
        fun _ _ _ ⟨hu, hw, ht, hr⟩ => eraseEffect_done hu hw rfl rfl ht hr⟩

end Sys2Proof
end

section
/-! PROOFS. Fences, the token, prefetches, reservations, DISCARD and REQPAGE (R281-R286). -/

namespace Sys2Proof.Machine

/-- An acquire that is not of warp scope, as FENCE tests it. -/
theorem fence_drops_iff {order : Order} {sc : MScope} :
    (Order.acquires order && sc != .warp) = true ↔ (order = .acq ∨ order = .acqrel) ∧ sc ≠ .warp := by
  unfold Order.acquires
  simp

/-- A fence with nothing left to order: the cache is dropped for an acquire at core scope or wider. -/
theorem fence_done (order : Order) (sc : MScope) (u : IssueUnit) (w : State) :
    (if Order.acquires order && sc != .warp then Effect.done (dropFetchCache w u.core) else .done w) =
      .done (if (order = .acq ∨ order = .acqrel) ∧ sc ≠ .warp then w.mapCore u.core fun c => { c with fcache := [] } else w) := by
  by_cases h : (order = .acq ∨ order = .acqrel) ∧ sc ≠ .warp
  · rw [if_pos h, if_pos (fence_drops_iff.2 h)]; rfl
  · rw [if_neg h, if_neg fun h' => h (fence_drops_iff.1 h')]

end Sys2Proof.Machine

namespace Sys2Proof
open Machine

/-- Settles O14: each word's effect under its condition, by what the condition says of each test it makes. -/
theorem orderingAndResidency : Obligations.OrderingAndResidency := by
  refine ⟨⟨?fence, ?fenceWaits, ?token, ?prefetch⟩, fun h m off => ⟨?discard, ?reqpage⟩⟩
  case fence =>
    intro h order sc
    refine does_of rfl (fun s => show execFence h order sc s = _ from rfl) fun r u w ⟨hu, hp⟩ => ?_
    rw [ite_lanes hu, hp, if_neg Bool.false_ne_true, fence_done]
  case fenceWaits =>
    intro h order sc
    refine stalls_of rfl (fun s => show execFence h order sc s = _ from rfl) fun r u w ⟨hu, hp⟩ => ?_
    rw [ite_lanes hu, if_pos hp]
    rfl
  case token =>
    refine fun h => ⟨?_, ?_, ?_⟩
    · refine does_of rfl (fun s => show execTokenTake h s = _ from rfl) fun r u w ⟨hu, hc, ht⟩ => ?_
      simp only [ite_lanes hu, hc, ht, if_true]
    · refine stalls_of rfl (fun s => show execTokenTake h s = _ from rfl) fun r u w ⟨hu, hc, ht⟩ => ?_
      simp only [ite_lanes hu, hc, ht, Bool.false_eq_true, if_false]
    · refine does_of rfl (fun s => show execTokenPass h s = _ from rfl) fun r u w ⟨hu, hc, ht, he, hp⟩ => ?_
      simp only [ite_lanes hu, hc, ht, he, hp, Bool.not_true, Bool.false_eq_true, if_false]
  case prefetch =>
    refine fun h m off => ⟨?_, fun d => ?_⟩
    · refine does_of rfl (fun s => show execPrefetch h m off s = _ from rfl) fun r u w hc => ?_
      simp only [hc]
    · refine does_of rfl (fun s => show execReserve h d m off s = _ from rfl) fun r u w hc => ?_
      simp only [hc]
  case discard =>
    refine does_of rfl (fun s => show execDiscard h m off s = _ from rfl) fun r u w ⟨hu, hw, ht, hs⟩ => ?_
    simp only [ite_lanes hu, hw, ht, hs, Bool.false_eq_true, if_false]
  case reqpage =>
    refine does_of rfl (fun s => show execReqpage h m off s = _ from rfl) fun r u w ht => ?_
    simp only [ht]

end Sys2Proof
end

section
/-! PROOFS. Transfers of control, ends, sets, TRAP and TRET, launches (R288-R297, R304). -/

namespace Sys2Proof.Machine

/-! ## Branches (R289, R290) -/

/-- No element meets what a test finds. -/
theorem any_eq_false_of_forall {α : Type} {p : α → Bool} {xs : List α} (h : ∀ x ∈ xs, p x = false) :
    xs.any p = false := by
  rw [List.any_eq_false]
  intro x hx
  rw [h x hx]
  exact Bool.false_ne_true

theorem branchTo_moved {u : IssueUnit} {r w s1 : State} {t : Word} {rpc : Option Word} (hu : u.lanes ≠ [])
    (hm : branchMoves u w t rpc = .ok s1) : branchTo u r w t rpc = .moved s1 := by
  unfold branchTo
  rw [ite_lanes hu, hm]

/-- The lead lane of a unit is one of its lanes. -/
theorem IssueUnit.exists_lead {u : IssueUnit} (hu : u.lanes ≠ []) : ∃ x ∈ u.lanes, u.lead = some x := by
  unfold IssueUnit.lead
  cases hl : u.lanes with
  | nil => exact absurd hl hu
  | cons x xs => exact ⟨x, List.mem_cons_self, rfl⟩

/-- A target that every taken lane holds and that is a multiple of 8 is the target taken. -/
theorem indirect_agreed {u : IssueUnit} {r : State} {a : Reg} {t : Word} (hu : u.lanes ≠ [])
    (ht : ∀ x ∈ u.lanes, u.read64 r x.1 a x.2 = t) (h8 : t.toNat % 8 = 0) : indirect u r a = .ok t := by
  obtain ⟨x, hx, hlead⟩ := u.exists_lead hu
  have hsame : (u.lanes.any fun y => u.read64 r y.1 a y.2 != t) = false :=
    any_eq_false_of_forall fun y hy => by rw [ht y hy, bne_self_eq_false]
  unfold indirect
  simp only [hlead, ht x hx, hsame, Bool.false_eq_true, if_false, h8, ne_eq, not_true]

/-- A part that is on one side of a branch goes there as a whole (R290). -/
theorem movePart_whole {s : State} {x : UPart} (tp op : Split → Split) (hx : x.act = 0 ∨ x.live &&& ~~~x.act = 0) :
    movePart s x tp op = some (s.mapSplit x.uid x.idx fun p => if x.act = 0 then op p else tp p) := by
  unfold movePart
  by_cases ha : x.act = 0
  · simp only [ha, if_true]
  · simp only [ha, if_false, hx.resolve_left ha, if_true]

theorem moveParts_whole (tp op : UPart → Split → Split) (s : State) (xs : List UPart)
    (hxs : ∀ x ∈ xs, x.act = 0 ∨ x.live &&& ~~~x.act = 0) :
    moveParts tp op s xs =
      .ok (xs.foldl (fun s x => s.mapSplit x.uid x.idx fun p => if x.act = 0 then op x p else tp x p) s) := by
  induction xs generalizing s with
  | nil => rfl
  | cons x xs ih =>
    unfold moveParts
    rw [movePart_whole _ _ (hxs x List.mem_cons_self)]
    exact ih _ fun y hy => hxs y (List.mem_cons_of_mem _ hy)

/-- A part that is on one side of a branch records no divergence (R135). -/
theorem branchSide_whole {x : UPart} (hx : x.act = 0 ∨ x.live &&& ~~~x.act = 0) (id side : Nat) (rpc : Option Word)
    (pc : Word) (p : Split) : branchSide id side rpc pc x p = p.goto pc := by
  unfold branchSide
  rcases hx with ha | ha <;> rw [ha] <;> simp

theorem branchMoves_whole {u : IssueUnit} (w : State) (t : Word) (rpc : Option Word)
    (hu : ∀ x ∈ u.parts, x.act = 0 ∨ x.live &&& ~~~x.act = 0) :
    branchMoves u w t rpc = .ok (u.parts.foldl (fun s x => s.mapSplit x.uid x.idx fun p =>
      p.goto (if x.act = 0 then u.nextPc else t)) (noteConflict { w with seq := w.seq + 1 } u)) := by
  unfold branchMoves
  rw [moveParts_whole _ _ _ _ hu]
  congr 1
  refine List.foldl_ext _ _ _ fun s x hx => ?_
  congr 1
  funext p
  rw [branchSide_whole (hu x hx), branchSide_whole (hu x hx)]
  split <;> rfl

/-! ## Ends and rejoins (R291, R292) -/

/-- EXIT meets no record to trap with: in supervisor mode, and where its warps hold none. -/
theorem exit_noRecord {r : State} {u : IssueUnit} (h : u.super = true ∨ unitRecords r u = []) :
    (if u.super then none else earliest (unitRecords r u)) = none := by
  rcases h with h | h <;> rw [h]
  · rfl
  · exact ite_self _

theorem rejoin_allRecorded {r : State} {u : IssueUnit} (h : ∀ x ∈ u.parts, x.act ≠ 0 → (rejoinPc r x).isSome) :
    (u.parts.any fun p => p.act != 0 && (rejoinPc r p).isNone) = false := by
  refine any_eq_false_of_forall fun x hx => ?_
  by_cases ha : x.act = 0
  · rw [ha, bne_self_eq_false, Bool.false_and]
  · rw [Option.isNone_eq_false_iff.2 (h x hx ha), Bool.and_false]

/-! ## Launches (R295-R297) -/

theorem exec_launchCompletion {s : State} {id : Nat} {q : Pend} {d : Reg} {pd : Pred} {k : Nat} {lanes : List AtomLane}
    (hq : s.pend.get? id = some q) (hw : q.work = .launch d pd k lanes) (hl : launchWaits s q lanes = false) :
    exec (.launchCompletion id) s = .next
      (let x := launchLanes q k s lanes
       deliver x.1 id q false (LoadCmd.resultIn ⟨d, 4, some pd, 0x10B, x.2⟩ x.1 q.warps q.order)) := by
  show execLaunchCompletion id s = _
  unfold execLaunchCompletion
  simp only [hq, hw, hl, Bool.false_eq_true, if_false]

end Sys2Proof.Machine

namespace Sys2Proof
open Machine

/-- Settles O15: an agreed target is the target, and the parts are moved there; whole parts divide nothing. -/
theorem branches : Obligations.Branches := by
  refine ⟨?direct, ?indirect, fun u w t rpc hu => branchMoves_whole w t rpc hu⟩
  case direct =>
    intro h target reconv f
    exact ⟨goes_of rfl (fun s => show execBra h target reconv s = _ from rfl) fun _ _ _ ⟨hu, hm⟩ => branchTo_moved hu hm,
      fun d => goes_of rfl (fun s => show execCall h d target reconv s = _ from rfl)
        fun _ _ _ ⟨hu, hm⟩ => branchTo_moved hu hm⟩
  case indirect =>
    intro h a reconv t f
    refine ⟨?_, ?_, fun d => ?_⟩
    · refine goes_of rfl (fun s => show execBrx h a reconv s = _ from rfl) fun r u w ⟨⟨hu, ht, h8⟩, hm⟩ => ?_
      simp only [indirect_agreed hu ht h8, branchTo_moved hu hm]
    · refine goes_of rfl (fun s => show execRet h a s = _ from rfl) fun r u w ⟨⟨hu, ht, h8⟩, hm⟩ => ?_
      simp only [indirect_agreed hu ht h8, branchTo_moved hu hm]
    · refine goes_of rfl (fun s => show execCallx h d a reconv s = _ from rfl) fun r u w ⟨⟨hu, ht, h8⟩, hm⟩ => ?_
      simp only [indirect_agreed hu ht h8, branchTo_moved hu hm]

/-- Settles O16: each word's effect under its condition, by what the condition says of each test it makes. -/
theorem endsRejoinsAndSets : Obligations.EndsRejoinsAndSets := by
  refine ⟨fun h => ⟨?exit, ?exitWaits, fun f => ?rejoin, ?nop⟩, fun h x l => ⟨fun a k => ?join, fun k sid => ?leave⟩⟩
  case exit =>
    refine goes_of rfl (fun s => show execExit h s = _ from rfl) fun r u w ⟨hu, hf, hr⟩ => ?_
    simp only [ite_lanes hu, hf, Bool.not_true, Bool.false_eq_true, if_false, exit_noRecord hr]
  case exitWaits =>
    refine stalls_of rfl (fun s => show execExit h s = _ from rfl) fun r u w ⟨hu, hf⟩ => ?_
    simp only [ite_lanes hu, hf, Bool.not_false, if_true]
  case rejoin =>
    refine goes_of rfl (fun s => show execRejoin h s = _ from rfl) fun r u w ⟨hu, hr, hm⟩ => ?_
    simp only [ite_lanes hu, rejoin_allRecorded hr, Bool.false_eq_true, if_false, hm]
  case nop => exact does_of rfl (fun s => show execNop h s = _ from rfl) fun _ _ _ _ => rfl
  case join =>
    refine does_of rfl (fun s => show execJoin h a s = _ from rfl) fun r u w ⟨hl, hk, hlt, hset, hm⟩ => ?_
    simp only [hl, hk, Nat.not_le.2 hlt, if_false, hset, Option.isSome_none, Bool.false_eq_true, Nat.not_le.2 hm]
  case leave =>
    refine does_of rfl (fun s => show execLeave h s = _ from rfl) fun r u w ⟨hl, _⟩ => ?_
    simp only [hl]

/-- Settles O17: TRAP's effect is a trap of its taken lanes in the moved state, TRET's the return of the handling split. -/
theorem trapAndReturnWords : Obligations.TrapAndReturnWords := by
  refine ⟨?trap, fun h x l => ?tret⟩
  case trap =>
    intro h a code s s1 u s2 hi hu hm
    rw [exec_issues (i := .trap h a code) rfl (fun s => show execTrap h a code s = _ from rfl) hi]
    simp only [ite_lanes hu, hm, settleEffect]
  case tret =>
    refine goes_of rfl (fun s => show execTret h s = _ from rfl) fun r u w hl => ?_
    simp only [hl]

/-- Settles O18: the words' effects under their conditions, then the completion and the packing behind them. -/
theorem launching : Obligations.Launching := by
  refine ⟨?spawn, ?launch, ?completion, fun h d a pd => ⟨?test, fun ls => ?met, ?first⟩, ?pack⟩
  case spawn =>
    intro h a b c pd n
    refine does_of rfl (fun s => show execSpawn h a b c pd n s = _ from rfl) fun r u w ⟨hu, hn, ht⟩ => ?_
    simp only [ite_lanes hu, Nat.not_lt.2 hn, if_false, ht]
  case launch =>
    intro h d a pd
    refine does_of rfl (fun s => show execLaunch h d a pd s = _ from rfl) fun r u w ⟨hu, ht⟩ => ?_
    simp only [ite_lanes hu, ht]
  case completion =>
    intro id s q d pd k lanes hq hw hl
    exact exec_launchCompletion hq hw hl
  case test =>
    refine does_of rfl (fun s => show execLwait h d a pd true s = _ from rfl) fun r u w hu => ?_
    simp only [ite_lanes hu, if_true]
  case met =>
    refine does_of rfl (fun s => show execLwait h d a pd false s = _ from rfl) fun r u w ⟨hu, hw, hg⟩ => ?_
    simp only [ite_lanes hu, Bool.false_eq_true, if_false, hw, List.all_eq_true.2 hg, if_true]
  case first =>
    refine does_of rfl (fun s => show execLwait h d a pd false s = _ from rfl) fun r u w hpre => ?_
    obtain ⟨hu, hw, hg⟩ := hpre
    simp only [ite_lanes hu, Bool.false_eq_true, if_false]
    exact if_pos (List.all_eq_true.2 hg)
  case pack =>
    intro core s part p k hp hrun hready s1 rs hk
    have hexec : exec (.packWarp core) s =
        if fitsNow s1 core k.packAsk then .next (startPacked s1 part core k rs)
        else .next (startAdmission s1 ((rs.head?).elim 0 (·.kernel)) true k.packAsk [core]) := by
      show execPackWarp core s = _
      unfold execPackWarp
      simp only [hp, hrun, hready, ne_eq, not_true, if_false, Bool.not_true, Bool.false_eq_true]
      rw [hk]
    exact ⟨fun hf => by rw [hexec, if_pos hf], fun hf => by rw [hexec, if_neg (by rw [hf]; exact Bool.false_ne_true)]⟩

end Sys2Proof
end

section
/-! PROOFS. Incumbents, arrive-wait barriers and queues (R298-R303). -/

namespace Sys2Proof.Machine

/-! ## Updates on their way to the home (R299, R300) -/

/-- A KUPD that arrives is on its way to its partition with the contents named, and waits for nothing more. -/
theorem arriving_spec {s : State} {part k : Nat} {f32 : Bool} {ups : List Upd} {id : Nat} {q : Pend}
    (h : arriving s part k f32 ups = some (id, q)) :
    q.part = part ∧ ∃ rel, q.work = .kupd k f32 ups rel ∧ kupdWaits s q k rel = false := by
  have hq := List.find?_some h
  simp only [Bool.and_eq_true, beq_iff_eq] at hq
  obtain ⟨hpart, hwork⟩ := hq
  refine ⟨hpart, ?_⟩
  split at hwork
  next j f us rel hw =>
    simp only [Bool.and_eq_true, beq_iff_eq, Bool.not_eq_true'] at hwork
    obtain ⟨⟨⟨rfl, rfl⟩, rfl⟩, hwait⟩ := hwork
    exact ⟨rel, hw, hwait⟩
  next => exact absurd hwork Bool.false_ne_true

theorem exec_incumbentUpdateArrival_some {s : State} {part k : Nat} {f32 : Bool} {ups : List Upd} {id : Nat} {q : Pend}
    (h : arriving s part k f32 ups = some (id, q)) :
    exec (.incumbentUpdateArrival part k f32 ups) s
      = .next (deliver (applyUpdates s q k f32 ups) id q false Result.empty) := by
  show execIncumbentUpdateArrival part k f32 ups s = _
  unfold execIncumbentUpdateArrival
  rw [h]

theorem exec_incumbentUpdateArrival_none {s : State} {part k : Nat} {f32 : Bool} {ups : List Upd}
    (h : arriving s part k f32 ups = none) : exec (.incumbentUpdateArrival part k f32 ups) s = .next s := by
  show execIncumbentUpdateArrival part k f32 ups s = _
  unfold execIncumbentUpdateArrival
  rw [h]

theorem applyUpdates_match {s : State} {q : Pend} {k : Nat} {f32 : Bool} (ups : List Upd)
    (h : (s.incumbent q.part k).f32 = f32) : applyUpdates s q k f32 ups =
      if ((s.incumbent q.part k).applyAll ups).2 then
        dieUpdates (setIncumbent s q.part k ((s.incumbent q.part k).applyAll ups).1 (q.warps.map (·.1))) q.part 1
      else s := by
  unfold applyUpdates
  dsimp only
  rw [h, bne_self_eq_false, if_neg Bool.false_ne_true]

theorem applyUpdates_mismatch {s : State} {q : Pend} {k : Nat} {f32 : Bool} (ups : List Upd)
    (h : (s.incumbent q.part k).f32 ≠ f32) :
    applyUpdates s q k f32 ups = s.countErr Source.kiln q.part 11 (BitVec.ofNat 64 k) := by
  unfold applyUpdates
  exact if_pos (bne_iff_ne.2 h)

theorem exec_kreadCompletion {s : State} {id : Nat} {q : Pend} {r : Result} (hq : s.pend.get? id = some q)
    (hw : q.work = .result .kread r) : exec (.kreadCompletion id) s = .next (deliver s id q false r) := by
  show execKreadCompletion id s = _
  unfold execKreadCompletion
  simp only [hq, hw]

theorem exec_incumbentCopyUpdate {s : State} {core k n : Nat} {i : Incumbent} {ws : List Nat}
    {rest : List (Nat × Nat × Incumbent × List Nat)} (h : (s.core core).bcast = (k, n, i, ws) :: rest) :
    exec (.incumbentCopyUpdate core) s = .next (settle (afterCore (checkWaiting
      (s.mapCore core fun c => { c with copies := c.copies.put k i, bcast := rest }) core) core)) := by
  show execIncumbentCopyUpdate core s = _
  unfold execIncumbentCopyUpdate
  simp only [h]

end Sys2Proof.Machine

namespace Sys2Proof
open Machine

/-- Settles O19: the words' effects under their conditions; an update that arrives by its type, a copy by its oldest
broadcast. -/
theorem incumbentRegisters : Obligations.IncumbentRegisters := by
  refine ⟨fun h a k dirMin f32 x l => ⟨?kinit, fun j n => ?behind, fun j n => ?met⟩, ?kupd, ?arrives, ?noneArrives, ?arriving,
    ?kread, fun id s q res hq hw => exec_kreadCompletion hq hw, fun core s k n i ws rest hb => exec_incumbentCopyUpdate hb⟩
  case kinit =>
    refine stalls_of rfl (fun s => show execKinit h a k dirMin f32 s = _ from rfl) fun r u w hpre => ?_
    obtain ⟨hl, hw, hr, hb⟩ := hpre
    simp only [hl, hr, hb, Bool.false_eq_true, if_false]
  case behind =>
    refine stalls_of rfl (fun s => show execKinit h a k dirMin f32 s = _ from rfl) fun r u w ⟨hl, hw, hc⟩ => ?_
    simp only [hl, hw, hc, if_true]
  case met =>
    refine does_of rfl (fun s => show execKinit h a k dirMin f32 s = _ from rfl) fun r u w ⟨hl, hw, hc⟩ => ?_
    simp only [hl, hw, hc, Bool.false_eq_true, if_false]
  case kupd =>
    intro h f32 a b k rel
    exact does_of rfl (fun s => show execKupd h f32 a b k rel s = _ from rfl) fun r u w hu => ite_lanes hu _ _
  case arrives =>
    intro part k f32 ups s id q ha
    obtain ⟨rfl, -⟩ := arriving_spec ha
    rw [exec_incumbentUpdateArrival_some ha]
    exact ⟨fun ht => by rw [applyUpdates_match ups ht], fun ht => by rw [applyUpdates_mismatch ups ht]⟩
  case noneArrives =>
    intro part k f32 ups s ha
    exact exec_incumbentUpdateArrival_none ha
  case arriving =>
    intro part k f32 ups s id q ha
    exact arriving_spec ha
  case kread =>
    intro h d k acq
    refine does_of rfl (fun s => show execKread h d k acq s = _ from rfl) fun r u w ⟨hu, hr, hb⟩ => ?_
    simp only [ite_lanes hu, hr, hb, Bool.false_eq_true, if_false]

/-- Settles O20: each word's effect under its condition; an ABWAIT by the wait its split holds. -/
theorem arriveWaitBarriers : Obligations.ArriveWaitBarriers := by
  refine ⟨?abinit, ?abarrive, fun h a b gen => ⟨?met, ?unmet, fun o g v m => ⟨?again, ?waits⟩⟩⟩
  case abinit =>
    intro h a b c
    refine does_of rfl (fun s => show execAbinit h a b c s = _ from rfl) fun r u w ⟨hu, ht, hn, hr⟩ => ?_
    simp only [ite_lanes hu, ht, Nat.not_lt.2 hn, hr, Bool.false_eq_true, if_false]
  case abarrive =>
    intro h d a b
    refine does_of rfl (fun s => show execAbarrive h d a b s = _ from rfl) fun r u w ⟨hu, ht, hp⟩ => ?_
    simp only [ite_lanes hu, ht, hp, Bool.false_eq_true, if_false]
  case met =>
    refine does_of rfl (fun s => show execAbwait h a b gen s = _ from rfl) fun r u w hpre => ?_
    obtain ⟨⟨hu, hw, ht⟩, hm⟩ := hpre
    dsimp only at hm
    simp only [ite_lanes hu, ht, hm, if_true]
  case unmet =>
    refine stalls_of rfl (fun s => show execAbwait h a b gen s = _ from rfl) fun r u w hpre => ?_
    obtain ⟨⟨hu, hw, ht⟩, hm⟩ := hpre
    dsimp only at hm
    simp only [ite_lanes hu, ht, hm, Bool.false_eq_true, if_false]
  case again =>
    refine does_of rfl (fun s => show execAbwait h a b gen s = _ from rfl) fun r u w ⟨hu, hw, hm⟩ => ?_
    have hmet : (m || abarMet r u.block o g v) = true := by simpa only [Bool.or_eq_true] using hm
    simp only [ite_lanes hu, hw, hmet, if_true]
  case waits =>
    refine stalls_of rfl (fun s => show execAbwait h a b gen s = _ from rfl) fun r u w ⟨hu, hw, hm, ho⟩ => ?_
    simp only [ite_lanes hu, hw, hm, ho, Bool.or_false, Bool.false_eq_true, if_false]

/-- Settles O21: each word's effect under its condition, by the counts of the queue it names. -/
theorem producerConsumerQueues : Obligations.ProducerConsumerQueues := by
  refine ⟨?qinit, fun h d q x => ⟨?takeFree, ?takeFull, ?noFree, ?noFull⟩, fun h q x => ⟨?fill, ?release⟩⟩
  case qinit =>
    intro h a b c q
    refine does_of rfl (fun s => show execQinit h a b c q s = _ from rfl) fun r u w ⟨hu, ht, hb⟩ => ?_
    simp only [ite_lanes hu, ht, hb, Bool.false_eq_true, if_false]
  case takeFree =>
    refine does_of rfl (fun s => show execQacqFree h d q s = _ from rfl) fun r u w ⟨hu, hq, hf⟩ => ?_
    simp only [ite_lanes hu, hq, hf, if_false, Queue.takeFree]
  case takeFull =>
    refine does_of rfl (fun s => show execQacqFull h d q s = _ from rfl) fun r u w ⟨hu, hq, hf⟩ => ?_
    simp only [ite_lanes hu, hq, hf, if_false, Queue.takeFull]
  case noFree =>
    refine stalls_of rfl (fun s => show execQacqFree h d q s = _ from rfl) fun r u w ⟨hu, hq, hf⟩ => ?_
    simp only [ite_lanes hu, hq, hf, if_true]
  case noFull =>
    refine stalls_of rfl (fun s => show execQacqFull h d q s = _ from rfl) fun r u w ⟨hu, hq, hf⟩ => ?_
    simp only [ite_lanes hu, hq, hf, if_true]
  case fill =>
    refine does_of rfl (fun s => show execQrelFull h q s = _ from rfl) fun r u w ⟨hu, hq, ht, hp⟩ => ?_
    simp only [ite_lanes hu, hq, ht, hp, Bool.false_eq_true, if_false, Queue.fill]
  case release =>
    refine does_of rfl (fun s => show execQrelFree h q s = _ from rfl) fun r u w ⟨hu, hq, ht, hp⟩ => ?_
    simp only [ite_lanes hu, hq, ht, hp, Bool.false_eq_true, if_false, Queue.release]

end Sys2Proof
end

section
/-! PROOFS. System registers and the events behind registers of a partition (R5, R66, R71, R92, R93, R99, R305). -/

namespace Sys2Proof.Machine

/-! ## Covers of an invalidation (R92) -/

theorem and_0x3FF_toNat (v : Half) : (v &&& 0x3FF#32).toNat = v.toNat % 1024 := by
  rw [BitVec.toNat_and]
  exact Nat.and_two_pow_sub_one_eq_mod v.toNat 10

/-- What a tlbinv value covers, from its kind and the rest of its bits. -/
theorem coverOf_of_toNat {p : Partition} {x : Half} {kind asid : Nat} (hx : x.toNat = 2 ^ 30 * kind + asid)
    (ha : asid < 1024) : coverOf p x =
      if kind = 0 then .address asid (p.sys 0x0CC ++ p.sys 0x0CB) else if kind = 1 then .asid asid else .all := by
  have hkind : x.toNat / 2 ^ 30 = kind := by omega
  have hasid : x.toNat % 2 ^ 10 = asid := by omega
  unfold coverOf
  simp only [hkind, hasid]

theorem coverOf_address (p : Partition) (v : Half) :
    coverOf p (v &&& 0x3FF#32) = .address (v.toNat % 1024) (p.sys 0x0CC ++ p.sys 0x0CB) :=
  coverOf_of_toNat (kind := 0) (by rw [and_0x3FF_toNat, Nat.mul_zero, Nat.zero_add]) (Nat.mod_lt _ (by decide))

theorem coverOf_asid (p : Partition) (v : Half) :
    coverOf p ((v &&& 0x3FF#32) ||| 0x40000000#32) = .asid (v.toNat % 1024) := by
  have hlt : v.toNat % 1024 < 1024 := Nat.mod_lt _ (by decide)
  refine coverOf_of_toNat (kind := 1) ?_ hlt
  rw [BitVec.toNat_or, and_0x3FF_toNat, Nat.or_comm, Nat.two_pow_add_eq_or_of_lt (i := 30) (by omega) 1]
  rfl

/-! ## Steps behind the registers of a partition -/

theorem onPart_some {s : State} {part : Nat} {p : Partition} (f : Partition → State) (hp : s.parts.get? part = some p) :
    onPart s part f = .next (f p) := by
  unfold onPart
  rw [hp]

theorem State.mapPart_get_self {s : State} {part : Nat} {p : Partition} (f : Partition → Partition)
    (hp : s.parts.get? part = some p) : (s.mapPart part f).parts.get? part = some (f p) := by
  rw [State.mapPart_get, if_pos rfl, hp, Option.map_some]

/-- A write to RGNSEL selects the region and starts its reload (R71). -/
theorem partWrite_rgnsel {s : State} {part : Nat} {p : Partition} (x : Half) (ws : List Nat)
    (hp : s.parts.get? part = some p) : (partWrite s part 0x0C6 x ws).1 =
      startReload (s.mapPart part fun p => { p with sysregs := p.sysregs.setNum 0x0C6 (x &&& 0xFF#32) }) part
        (x.toNat % 256) ws := by
  unfold partWrite
  simp only [State.mapPart_get_self _ hp]
  rfl

/-! ## Reads that a warp makes (R99, R399) -/

theorem warpRead_of {s : State} {uid : Nat} {w : Warp} {q : Split} (d : Reg) (n : Nat) (hw : s.warps.get? uid = some w)
    (hq : w.splits.vals.head? = some q) : warpRead s uid d n =
      (sysReadEffect s uid n).mapWarp uid fun y => y.writeLate d y.lanes (fun _ => sysRead s w q n) (sysRead s w q n) := by
  unfold warpRead
  simp only [hw, hq]

theorem sysRead_tsclo (s : State) (w : Warp) (q : Split) : sysRead s w q 0x0FA = s.tscLo := rfl

theorem sysReadEffect_tsclo {s : State} {uid : Nat} {w : Warp} (hw : s.warps.get? uid = some w) :
    sysReadEffect s uid 0x0FA = s.mapWarp uid fun w => { w with tsHi := s.tscHi } := by
  unfold sysReadEffect
  rw [hw]
  rfl

theorem sysRead_qpop {s : State} {w : Warp} {p : Partition} (q : Split) (hp : s.parts.get? (s.partOf w) = some p) :
    sysRead s w q 0x0D1 = (popFrame s (s.partOf w) p).elim (BitVec.ofNat 32 0xFFFFFFFF) fun e => lo32 e.1 := by
  unfold sysRead
  simp only [isTrapReg, hp]
  rfl

theorem sysReadEffect_qpop {s : State} {uid : Nat} {w : Warp} {p : Partition} (hw : s.warps.get? uid = some w)
    (hp : s.parts.get? (s.partOf w) = some p) : sysReadEffect s uid 0x0D1 = match popFrame s (s.partOf w) p with
      | some e => s.mapPart (s.partOf w) fun p => { p with qlist := p.qlist.erase e }
      | none => s := by
  unfold sysReadEffect
  simp only [hw, hp]
  rfl

/-! ## Completions (R71, R93) -/

theorem exec_invalidationComplete {s : State} {id : Nat} {q : Pend} {c : Cover} (hq : s.pend.get? id = some q)
    (hw : q.work = .inval c) : exec (.invalidationComplete id) s =
      if spanFull s q.part then .next s
      else .next (({ s with pend := s.pend.del id }).mapPart q.part fun p => p.invalidate c) := by
  show execInvalidationComplete id s = _
  unfold execInvalidationComplete
  simp only [hq, hw]

theorem exec_descriptorReloadComplete {s : State} {id : Nat} {q : Pend} {r : Nat} {ws : List Nat}
    (hq : s.pend.get? id = some q) (hw : q.work = .reload r ws) : exec (.descriptorReloadComplete id) s =
      .next (if reloadWaits s q r ws then s else reloadRegion { s with pend := s.pend.del id } q.part r) := by
  show execDescriptorReloadComplete id s = _
  unfold execDescriptorReloadComplete
  simp only [hq, hw]

end Sys2Proof.Machine

namespace Sys2Proof
open Machine

/-- Settles O22: GETSR and SETSR by the wait of their unit; the single accesses by what a read gives and changes. -/
theorem systemRegisters : Obligations.SystemRegisters := by
  refine ⟨?getsr, ?setsr, ?starts, fun h a sr id => ⟨?met, ?waits⟩, ?write, ?reads⟩
  case getsr =>
    intro h d sr
    exact does_of rfl (fun s => show execGetsr h d sr s = _ from rfl) fun r u w hu => ite_lanes hu _ _
  case setsr =>
    intro h a sr f
    refine does_of rfl (fun s => show execSetsr h a sr s = _ from rfl) fun r u w hpre => ?_
    obtain ⟨hu, hw, hp⟩ := hpre
    simp only [ite_lanes hu, hp]
  case starts =>
    intro h a sr f id
    refine stalls_of rfl (fun s => show execSetsr h a sr s = _ from rfl) fun r u w hpre => ?_
    obtain ⟨hu, hw, hsome, hp⟩ := hpre
    obtain ⟨n, hn⟩ := Option.isSome_iff_exists.1 hsome
    have hpair : writeParts u w sr.toNat (u.once r a) = ((writeParts u w sr.toNat (u.once r a)).1, some n) :=
      Prod.ext rfl hn
    simp only [ite_lanes hu]
    rw [hpair]
    simp only [hp]
  case met =>
    refine does_of rfl (fun s => show execSetsr h a sr s = _ from rfl) fun r u w ⟨hu, hw, hp⟩ => ?_
    simp only [ite_lanes hu, hw, hp, Option.isSome_none, Bool.false_eq_true, if_false]
  case waits =>
    refine stalls_of rfl (fun s => show execSetsr h a sr s = _ from rfl) fun r u w ⟨hu, hw, hp⟩ => ?_
    simp only [ite_lanes hu, hw, hp, if_true]
  case write => exact fun warp idx sr value s => rfl
  case reads =>
    intro warp d s w q hw hq
    refine ⟨?_, fun p hp => ?_⟩
    · show Host.Outcome.next (warpRead s warp d 0x0FA) = _
      rw [warpRead_of d _ hw hq, sysRead_tsclo, sysReadEffect_tsclo hw]
    · show Host.Outcome.next (warpRead s warp d 0x0D1) = _
      rw [warpRead_of d _ hw hq, sysRead_qpop q hp, sysReadEffect_qpop hw hp]
      rfl

/-- Settles O24: each write starts its step on the partition; a completion goes by what it waits for. -/
theorem registerEvents : Obligations.RegisterEvents := by
  refine ⟨fun part value s p hp => ⟨?address, ?asid, ?all, ?post, ?reload, fun reg hlo hhi => ?range⟩,
    fun id s q hq => ⟨?inval, ?descriptor⟩⟩
  case address =>
    show onPart s part (fun p => startInval s part (coverOf p (value &&& 0x3FF#32))) = _
    rw [onPart_some _ hp, coverOf_address, startInval]
  case asid =>
    show onPart s part (fun p => startInval s part (coverOf p ((value &&& 0x3FF#32) ||| 0x40000000#32))) = _
    rw [onPart_some _ hp, coverOf_asid, startInval]
  case all => exact onPart_some _ hp
  case post => exact onPart_some _ hp
  case reload =>
    show onPart s part (fun _ => (partWrite s part 0x0C6 value []).1) = _
    rw [onPart_some _ hp, partWrite_rgnsel value [] hp, startReload]
  case range =>
    show onPart s part (fun _ => if 0x0A0 ≤ reg ∧ reg ≤ 0x0BF then s.mapPart part fun p => p.write reg value else s) = _
    rw [onPart_some _ hp, if_pos ⟨hlo, hhi⟩]
  case inval =>
    intro c hw
    rw [exec_invalidationComplete hq hw]
    exact ⟨fun h => by rw [h]; rfl, fun h => if_pos h⟩
  case descriptor =>
    intro r ws hw
    rw [exec_descriptorReloadComplete hq hw]
    exact ⟨fun h => by rw [h]; rfl, fun h => by rw [if_pos h]⟩

end Sys2Proof
end

section
/-! PROOFS. The core pool, tiles and stash windows (R41-R56, R64, R309-R313). -/

namespace Sys2Proof.Machine

/-! ## Phases of a change of split (R51) -/

theorem exec_splitDrainEnd {s : State} {core : Nat} {ch : Change} (hc : (s.core core).change = some ch) (h1 : ch.state = 1) :
    exec (.splitDrainEnd core) s = .next (enterPhase (s.mapCore core fun c =>
      { c with l1 := c.l1.filter fun t => decide (t.1 % (64 * c.cch) < 64 * poolCch ch.target) }) core 2) := by
  show execSplitDrainEnd core s = _
  unfold execSplitDrainEnd
  simp only [hc, h1, if_true]

theorem exec_splitRelocateEnd {s : State} {core : Nat} {ch : Change} (hc : (s.core core).change = some ch)
    (h2 : ch.state = 2) : exec (.splitRelocateEnd core) s = .next (enterPhase s core 3) := by
  show execSplitRelocateEnd core s = _
  unfold execSplitRelocateEnd
  simp only [hc, h2, if_true]

theorem exec_splitRemapEnd {s : State} {core : Nat} {ch : Change} (hc : (s.core core).change = some ch)
    (h3 : ch.state = 3) : exec (.splitRemapEnd core) s = .next (enterPhase s core 4) := by
  show execSplitRemapEnd core s = _
  unfold execSplitRemapEnd
  simp only [hc, h3, if_true]

/-! ## Stash windows (R64, R312, R313) -/

theorem exec_unstashCompletion {s : State} {id : Nat} {q : Pend} {b n : Nat} (hq : s.pend.get? id = some q)
    (hw : q.work = .unstash b n) : exec (.unstashCompletion id) s =
      .next (deliver (s.mapBlock b fun x => x.closeWindow n) id q false Result.empty) := by
  show execUnstashCompletion id s = _
  unfold execUnstashCompletion
  simp only [hq, hw]

/-- What STASH_WRITEBACK does to a block: the lines its window owns are clean. -/
theorem exec_stashWriteback {s : State} {block window : Nat} {x : Block} {w : Window} (hb : s.blocks.get? block = some x)
    (hw : x.windows.get? window = some w) :
    let w1 : Window := { w with owned := w.owned.map fun o => (o.1, false, o.2.2) }
    let x1 : Block := { x with windows := x.windows.put window w1 }
    exec (.stashWriteback block window) s = .next { s with blocks := s.blocks.put block x1 } := by
  show execStashWriteback block window s = _
  unfold execStashWriteback State.mapBlock
  simp only [hb, hw]

end Sys2Proof.Machine

namespace Sys2Proof
open Machine

/-- Settles O25: POOLSET by its check, POOLQ as one write, the events by the phase of the change. -/
theorem poolAndSplitChanges : Obligations.PoolAndSplitChanges := by
  refine ⟨?refused, ?starts, ?poolq,
    fun core s ch hc => ⟨exec_splitDrainEnd hc, exec_splitRelocateEnd hc, exec_splitRemapEnd hc⟩⟩
  case refused =>
    intro h d a c
    refine does_of rfl (fun s => show execPoolset h d a s = _ from rfl) fun r u w ⟨hu, hp, hc⟩ => ?_
    simp only [ite_lanes hu, hp, hc]
  case starts =>
    intro h d a
    refine does_of rfl (fun s => show execPoolset h d a s = _ from rfl) fun r u w ⟨hu, hp, hc⟩ => ?_
    simp only [ite_lanes hu, hp, hc]
  case poolq =>
    intro h d n
    exact computes_writes rfl (fun s => show execPoolq h d n s = _ from rfl) (fun _ _ _ => rfl)
      fun _ _ => vectorsOf_single _ _

/-- Settles O26: each word's effect under its condition, then what the two events do to the window they name. -/
theorem tilesAndStashWindows : Obligations.TilesAndStashWindows := by
  refine ⟨?talloc, ?tfree, ?stash, ?unstash, fun id s q b n hq hw => exec_unstashCompletion hq hw,
    fun block window s x w hb hw => exec_stashWriteback hb hw⟩
  case talloc =>
    intro h m b
    refine does_of rfl (fun s => show execTalloc h m s = _ from rfl) fun r u w ⟨hu, hb, hm, hlt⟩ => ?_
    simp only [ite_lanes hu, hb, hm, Option.isSome_none, Bool.false_eq_true, if_false, Nat.not_le.2 hlt]
  case tfree =>
    intro h m b
    refine does_of rfl (fun s => show execTfree h m s = _ from rfl) fun r u w ⟨hu, hb, hm, ht⟩ => ?_
    simp only [ite_lanes hu, hb, Option.elim_some, hm, ht, Bool.not_true, Bool.false_eq_true, if_false]
  case stash =>
    intro h a b c n x f
    refine does_of rfl (fun s => show execStash h a b c n s = _ from rfl) fun r u w ⟨hu, hx, ht, hp, hs⟩ => ?_
    have hall : ((f r u w).2.find? fun y => !stashable (f r u w).1 u.part y.2) = none :=
      find?_eq_none_of_forall fun y hy => by rw [hs y hy, Bool.not_true]
    simp only [ite_lanes hu, hx, ht, hp, hall]
    rfl
  case unstash =>
    intro h n x
    refine does_of rfl (fun s => show execUnstash h n s = _ from rfl) fun r u w ⟨hu, hx, hc⟩ => ?_
    simp only [ite_lanes hu, hx, hc, Bool.false_eq_true, if_false]

end Sys2Proof
end

section
/-! PROOFS. Engines: the copy engine, binning and held copies, the fetch unit (R314-R326). -/

namespace Sys2Proof.Machine

/-! ## CPY (R314-R318) -/

/-- A copy of bytes, or one through a queue, is not the copy of nothing that completes at once. -/
theorem cpy_moves {d : CpyOpd} {n rb : Nat} (h : rb ≠ 0 ∨ d = .queue) :
    ¬ (rb = 0 ∧ (if d = .queue then some n else none).isNone) := by
  rintro ⟨hrb, hq⟩
  rcases h with h | h
  · exact h hrb
  · rw [if_pos h] at hq
    exact absurd hq Bool.false_ne_true

/-- A copy of no bytes that names no queue. -/
theorem cpy_nothing {d : CpyOpd} {n rb : Nat} (h : rb = 0) (hd : d ≠ .queue) :
    rb = 0 ∧ (if d = .queue then some n else none).isNone := ⟨h, by rw [if_neg hd]; rfl⟩

theorem exec_cpyQueueSlotTake {s : State} {id : Nat} {q : Pend} {c : CopyCmd} {n : Nat} {x : Queue}
    (hq : s.pend.get? id = some q) (hw : q.work = .copy c true) (hn : c.queue = some n)
    (hx : queueOf s c.block n = some x) (hfree : 0 < x.free) (hfirst : firstInQueue s id q = true)
    (hruns : partRuns s q.part = true) : exec (.cpyQueueSlotTake id) s =
      .next (setWork (setQueue s c.block n x.takeFree.1) id
        (.copy { c with dst := BitVec.ofNat 64 x.takeFree.2 } false)) := by
  show execCpyQueueSlotTake id s = _
  unfold execCpyQueueSlotTake
  simp only [hq, hw, hn, Option.getD_some, hx, hfree, hfirst, hruns, and_self, if_true]

theorem exec_copyCommandCompletion_made {s : State} {id : Nat} {q : Pend} {c : CopyCmd} (hq : s.pend.get? id = some q)
    (hw : q.work = .copy c false) (hruns : partRuns s q.part = true) (hran : c.ran = true) :
    exec (.copyCommandCompletion id) s = .next (finishCopy s id q c c.err) := by
  show execCopyCommandCompletion id s = _
  unfold execCopyCommandCompletion
  simp only [hq, hw, hruns, hran, Bool.not_true, Bool.false_eq_true, if_false, if_true]

theorem exec_copyCommandCompletion_now {s : State} {id : Nat} {q : Pend} {c : CopyCmd} (hq : s.pend.get? id = some q)
    (hw : q.work = .copy c false) (hruns : partRuns s q.part = true) (hran : c.ran = false)
    (hm : copyMissing s (engineOf s q.part c.block c.opcode q.faults) c = []) :
    exec (.copyCommandCompletion id) s = .next
      (let x := runCopy s (engineOf s q.part c.block c.opcode q.faults) c
       finishCopy x.1 id q c x.2) := by
  show execCopyCommandCompletion id s = _
  unfold execCopyCommandCompletion
  simp only [hq, hw, hruns, hran, hm, Bool.not_true, Bool.false_eq_true, if_false]

/-! ## Binning and held copies (R320-R323) -/

theorem exec_copyCommandCompletion_crel {s : State} {id : Nat} {q : Pend} {e : Option ErrRec}
    (hq : s.pend.get? id = some q) (hw : q.work = .crel e) (hruns : partRuns s q.part = true) :
    exec (.copyCommandCompletion id) s =
      .next (deliver s id q false { Result.empty with err := e.map fun x => { x with order := q.order } }) := by
  show execCopyCommandCompletion id s = _
  unfold execCopyCommandCompletion
  simp only [hq, hw, hruns, Bool.not_true, Bool.false_eq_true, if_false]

theorem exec_binCommandCompletion_binc {s : State} {id : Nat} {q : Pend} {b array nb : Nat} {bins : List Nat}
    (hq : s.pend.get? id = some q) (hw : q.work = .binc b array nb bins) :
    exec (.binCommandCompletion id) s = .next (deliver
      (s.mapBlock b fun x => bins.foldl (fun x i => x.count array nb i) x) id q false Result.empty) := by
  show execBinCommandCompletion id s = _
  unfold execBinCommandCompletion
  simp only [hq, hw]

theorem exec_binCommandCompletion_binp {s : State} {id : Nat} {q : Pend} {b : Nat} {x : Block}
    (hq : s.pend.get? id = some q) (hw : q.work = .binp b) (hx : s.blocks.get? b = some x) :
    exec (.binCommandCompletion id) s = .next (deliver
      (s.mapBlock b fun y => { y with holds := (patchHolds x x.holds).1 }) id q false
      { Result.empty with err := (patchHolds x x.holds).2.map fun e => { e with order := q.order } }) := by
  show execBinCommandCompletion id s = _
  unfold execBinCommandCompletion
  simp only [hq, hw, hx]

/-! ## FETCH (R326) -/

theorem exec_fetchCompletion_ok {s s1 : State} {id : Nat} {q : Pend} {hd : Handle} {wide : Bool} {d : Reg} {pd : Pred}
    {lanes : List (Nat × Nat × Nat × Nat)} {asid core : Nat} {ls : List LaneLoad} {st : Half}
    (hq : s.pend.get? id = some q) (hw : q.work = .fetch hd wide d pd lanes asid core)
    (hf : fetchLanes ⟨q.part, asid, q.block, if wide then 0x152 else 0x151, q.faults⟩ core (Desc.ofBytes hd.desc) wide s
      lanes = .ok (s1, ls, st)) :
    exec (.fetchCompletion id) s = .next (deliver s1 id q false { LoadCmd.result
      ⟨d, if wide then 8 else 4, some pd, if wide then 0x152 else 0x151, ls⟩ q.warps q.order with fst := st }) := by
  show execFetchCompletion id s = _
  unfold execFetchCompletion
  simp only [hq, hw, hf]

end Sys2Proof.Machine

namespace Sys2Proof
open Machine

/-- Settles O27: CPY by what it copies and where, then the slot taken and the completion. -/
theorem copyEngine : Obligations.CopyEngine := by
  refine ⟨fun h dir d a b c twoD ab q sc => ⟨?nothing, ?later, ?now⟩,
    fun id s q c n x hq hw hn hx hfree hfirst hruns => exec_cpyQueueSlotTake hq hw hn hx hfree hfirst hruns,
    fun id s q c hq hw hruns => ⟨exec_copyCommandCompletion_made hq hw hruns, exec_copyCommandCompletion_now hq hw hruns⟩⟩
  case nothing =>
    refine does_of rfl (fun s => show execCpy h dir d a b c twoD ab q sc s = _ from rfl) fun r u w ⟨hu, ht, hp, hrb, hd⟩ => ?_
    dsimp only at ht hrb ⊢
    rw [ite_lanes hu, ht, hp]
    dsimp only
    rw [if_neg Bool.false_ne_true, if_pos (cpy_nothing hrb hd)]
  case later =>
    refine does_of rfl (fun s => show execCpy h dir d a b c twoD ab q sc s = _ from rfl) fun r u w ⟨hu, ht, hrb, hp, hk⟩ => ?_
    dsimp only at ht hrb ⊢
    rw [ite_lanes hu, ht, hp]
    dsimp only
    rw [if_neg Bool.false_ne_true, if_neg (cpy_moves hrb), if_neg hk]
  case now =>
    refine does_of rfl (fun s => show execCpy h dir d a b c twoD ab q sc s = _ from rfl)
      fun r u w ⟨hu, ht, hrb, hk, hp, hc⟩ => ?_
    dsimp only at ht hrb hc ⊢
    rw [ite_lanes hu, ht, hp]
    dsimp only
    rw [if_neg Bool.false_ne_true, if_neg (cpy_moves hrb), if_pos hk, hc]

/-- Settles O28: each word's effect under its condition, then the completions by the command's kind. -/
theorem binningAndHeldCopies : Obligations.BinningAndHeldCopies := by
  refine ⟨?binc, ?binp, fun id s q hq => ⟨fun b array nb bins hw => exec_binCommandCompletion_binc hq hw,
    fun b x hw hx => exec_binCommandCompletion_binp hq hw hx⟩, ?cpyh, ?crel,
    fun id s q e hq hw hruns => exec_copyCommandCompletion_crel hq hw hruns⟩
  case binc =>
    intro h a b c
    refine does_of rfl (fun s => show execBinc h a b c s = _ from rfl) fun r u w ⟨hu, hn, hle, h4, hs, hp⟩ => ?_
    simp only [ite_lanes hu, hn, Nat.not_lt.2 hle, or_self, if_false, h4, ne_eq, not_true, Nat.not_lt.2 hs, hp,
      Bool.false_eq_true]
  case binp =>
    intro h
    refine does_of rfl (fun s => show execBinp h s = _ from rfl) fun r u w ⟨hu, hp⟩ => ?_
    simp only [ite_lanes hu, hp, Bool.false_eq_true, if_false]
  case cpyh =>
    intro h d a b c size sc
    refine does_of rfl (fun s => show execCpyh h d a b c size sc s = _ from rfl) fun r u w ⟨hu, ht⟩ => ?_
    simp only [ite_lanes hu, ht]
  case crel =>
    intro h x
    refine does_of rfl (fun s => show execCrel h s = _ from rfl) fun r u w ⟨hu, hx, ht, hp, hc⟩ => ?_
    dsimp only at hc
    simp only [ite_lanes hu, hx, ht, hp, hc, Bool.false_eq_true, if_false]

/-- Settles O29: with the checks passed FHND keeps what it read and FETCH starts; the completion reads the elements. -/
theorem fetchUnit : Obligations.FetchUnit := by
  refine ⟨fun h a n x l => ?fhnd, fun h t d a b n pd hd => ?fetch, ?completion⟩
  case fhnd =>
    refine does_of rfl (fun s => show execFhnd h a n s = _ from rfl) fun r u w ⟨hl, hr, ha, ht, hm, hlost, href⟩ => ?_
    dsimp only at ht hm hlost href ⊢
    simp only [hl, hr, ha, ht, hm, hlost, href, Bool.false_eq_true, if_false]
  case fetch =>
    refine does_of rfl (fun s => show execFetch h t d a b n pd s = _ from rfl) fun r u w ⟨hu, hh, hi⟩ => ?_
    dsimp only at hi ⊢
    have hnone : (u.lanes.find? fun x => (indexFails (Desc.ofBytes hd.desc) (t == .b64) (u.read r x.1 a x.2).toNat
        (u.read r x.1 b x.2).toNat).isSome) = none :=
      find?_eq_none_of_forall fun x hx => by rw [hi x hx, Option.isSome_none]
    simp only [ite_lanes hu, hh, hnone]
  case completion =>
    intro id s q hd wide d pd lanes asid core hq hw op s1 ls st hf
    exact exec_fetchCompletion_ok hq hw hf

end Sys2Proof
end

section
/-! PROOFS. Matrix commands and the tile solver (R327-R343): with its checks passed each is in flight with its result. -/

namespace Sys2Proof.Machine

/-! ## Matrix commands -/

theorem startMatrix_eq (u : IssueUnit) (h : Head) (w : State) (tiles : List Nat) (x : Result) :
    startMatrix u h w tiles x = .done (u.commits h tiles w x) := rfl

/-- A utility command on bound tiles is in flight with its result. -/
theorem utility_done {u : IssueUnit} {h : Head} {r w : State} {tiles : List Nat} (f : Result) (hu : u.lanes ≠ [])
    (ht : unboundTrap u r tiles = none) : utility u h r w tiles f = .done (u.commits h tiles w f) := by
  unfold utility
  rw [ite_lanes hu, ht, startMatrix_eq]

theorem mmaEffect_done {u : IssueUnit} {h : Head} {r w : State} {code : Nat} {sparse : Bool} {d a b c : Tile}
    {sat bs : Bool} (hu : u.lanes ≠ []) (ht : mmaTrap u r code bs ([d.val, a.val, b.val] ++ if bs then [c.val] else []) = none) :
    mmaEffect u h r w code sparse d a b c sat bs =
      .done (u.commits h ([d.val, a.val, b.val] ++ if bs then [c.val] else []) w (tileResult u d.val (MmaArgs.result
        { aFmt := code, bFmt := fmtB u.fmt, sparse := sparse, a := tileOfBlock r u.block a.val
          b := tileOfBlock r u.block b.val, c := tileOfBlock r u.block d.val
          scale := if bs then tileOfBlock r u.block c.val else [], scA := scalesA (fmtBsm u.fmt) code
          scB := scalesB (fmtBsm u.fmt) (fmtB u.fmt), fmt := u.fmt, sat := sat }))) := by
  unfold mmaEffect
  rw [ite_lanes hu]
  dsimp only
  rw [ht]
  rfl

/-! ## Completion and transient errors (R328) -/

theorem exec_matrixCommandCompletion {s : State} {id : Nat} {q : Pend} {op n : Nat} {res : Result}
    (hq : s.pend.get? id = some q) (hw : q.work = .result (.matrix op n) res) : exec (.matrixCommandCompletion id) s =
      .next (deliver (s.event ((s.blocks.get? q.block).elim 0 (·.core)) (some q.block) 3 1) id q true res) := by
  show execMatrixCommandCompletion id s = _
  unfold execMatrixCommandCompletion
  simp only [hq, hw]
  rfl

theorem exec_matrixTransientError_retry {s : State} {id : Nat} {q : Pend} {op n : Nat} {res : Result}
    (hq : s.pend.get? id = some q) (hw : q.work = .result (.matrix op n) res) (hn : n < 3) :
    exec (.matrixTransientError id) s =
      .next ((setWork s id (.result (.matrix op (n + 1)) res)).countErr (Source.core (s.coreOf q.block)) q.part 6 0) := by
  show execMatrixTransientError id s = _
  unfold execMatrixTransientError
  simp only [hq, hw, hn, if_true]

theorem exec_matrixTransientError_fourth {s : State} {id : Nat} {q : Pend} {op n : Nat} {res : Result}
    (hq : s.pend.get? id = some q) (hw : q.work = .result (.matrix op n) res) (hn : n = 3) :
    exec (.matrixTransientError id) s =
      .next (setWork s id (.result (.matrix op 4) (res.failed (fourthError op q.order)))) := by
  show execMatrixTransientError id s = _
  unfold execMatrixTransientError
  simp only [hq, hw, hn, Nat.lt_irrefl, if_false, if_true]

/-! ## TTRS (R340) and TJAC (R342) -/

/-- Where every row index is in the system no pivot is outside it. -/
theorem pivots_inside {f : Nat → Nat} {k : Nat} (hf : ∀ i < k, f i < k) :
    ((List.range k).find? fun l => decide (k ≤ ((List.range k).map f).getD l 0)) = none := by
  refine find?_eq_none_of_forall fun l hl => decide_eq_false ?_
  have hlt := List.mem_range.1 hl
  have := hf l hlt
  simp only [List.getD_eq_getElem?_getD, List.getElem?_map, List.getElem?_range hlt, Option.map_some, Option.getD_some]
  omega

theorem exec_tjacSweepEnd {s : State} {id : Nat} {q : Pend} {a : Mat} {b x0 x : List Int} {n done limit : Nat}
    {dead : Half} {qp wd : Nat} {d c : Reg} {pd : Pred} {st : Half} {e : Nat} (hq : s.pend.get? id = some q)
    (hw : q.work = .tjac a b x0 x n done limit dead qp wd d c pd st e) : exec (.tjacSweepEnd id) s =
      if done + 1 = limit ∨ deadlinePassed s dead ∨ haltRequested s q.part then
        .next (deliver (s.event ((s.blocks.get? q.block).elim 0 (·.core)) (some q.block) 3 1) id q true
          (tjacResult q (sweep wd qp a b x).1 n (done + 1) limit d c pd (st ||| (sweep wd qp a b x).2)))
      else .next (setWork s id (.tjac a b x0 (sweep wd qp a b x).1 n (done + 1) limit dead qp wd d c pd
        (st ||| (sweep wd qp a b x).2) e)) := by
  show execTjacSweepEnd id s = _
  unfold execTjacSweepEnd
  simp only [hq, hw]
  rfl

end Sys2Proof.Machine

namespace Sys2Proof
open Machine

/-- Settles O30: with the checks passed both forms are in flight with the product of the tiles as they stand. -/
theorem matrixMultiply : Obligations.MatrixMultiply := by
  intro h d a b c sat bs
  exact ⟨fun t => does_of rfl (fun s => show execMma h t d a b c sat bs s = _ from rfl)
      fun _ _ _ ⟨hu, ht⟩ => mmaEffect_done hu ht,
    fun t => does_of rfl (fun s => show execMmas h t d a b c sat bs s = _ from rfl)
      fun _ _ _ ⟨hu, ht⟩ => mmaEffect_done hu ht⟩

/-- Settles O31: the utility commands start on bound tiles; completion and transient errors by the runs made. -/
theorem tileUtilitiesAndCompletion : Obligations.TileUtilitiesAndCompletion := by
  refine ⟨⟨fun h d => ⟨?tzero, fun a => ?tfill, fun a b x l => ?vtot⟩,
      fun h d a => ⟨fun p src => ?tcvt, fun wd => ?ttrans, fun b t => ?tadd⟩,
      fun h a d b => ⟨fun col op t => ?tred, ?ttov⟩⟩,
    fun id s q op n res hq hw => ⟨exec_matrixCommandCompletion hq hw, exec_matrixTransientError_retry hq hw,
      exec_matrixTransientError_fourth hq hw⟩⟩
  case tzero =>
    refine does_of rfl (fun s => show execTzero h d s = _ from rfl) fun r u w ⟨hu, ht⟩ => ?_
    rw [utility_done _ hu ht]
    simp only [tileResult, filled, Result.empty]
  case tfill =>
    refine does_of rfl (fun s => show execTfill h d a s = _ from rfl) fun r u w ⟨hu, ht⟩ => ?_
    rw [utility_done _ hu ht]
    simp only [tileResult, filled, Result.empty]
  case vtot =>
    refine does_of rfl (fun s => show execVtot h d a b s = _ from rfl) fun r u w ⟨hl, ht, hb⟩ => ?_
    simp only [hl, ht, Nat.not_le.2 hb, if_false, startMatrix_eq]
    rfl
  case tcvt =>
    refine does_of rfl (fun s => show execTcvt h d a p src s = _ from rfl) fun r u w ⟨⟨hu, ht⟩, hf, hp⟩ => ?_
    simp only [ite_lanes hu, ht, hf, Nat.not_le.2 hp, if_false, startMatrix_eq]
    rfl
  case ttrans =>
    exact does_of rfl (fun s => show execTtrans h d a wd s = _ from rfl) fun _ _ _ ⟨hu, ht⟩ => utility_done _ hu ht
  case tadd =>
    exact does_of rfl (fun s => show execTadd h d a b t s = _ from rfl) fun _ _ _ ⟨hu, ht⟩ => utility_done _ hu ht
  case tred =>
    refine does_of rfl (fun s => show execTred h d a col op t s = _ from rfl) fun r u w ⟨hu, ht⟩ => ?_
    dsimp only
    rw [ite_lanes hu, utility_done _ hu ht]
    rfl
  case ttov =>
    refine does_of rfl (fun s => show execTtov h d a b s = _ from rfl) fun r u w ⟨⟨hu, ht⟩, hb⟩ => ?_
    simp only [ht, ite_lanes hu, Nat.not_le.2 hb, if_false, startMatrix_eq]
    rfl

/-- Settles O32: the solver's commands start with what their systems give; a sweep ends the command or goes on. -/
theorem tileSolver : Obligations.TileSolver := by
  refine ⟨fun h d a b n fx16 => ?tlu, fun h d a n fx16 => ⟨?upper, fun b x l => ⟨?lower, ?pivoted⟩⟩,
    fun h d a b fx16 => ?tupd, fun h d a b c n fx16 pd x l => ?tjac, ?sweep⟩
  case tlu =>
    refine does_of rfl (fun s => show execTlu h d a b n fx16 s = _ from rfl) fun r u w ⟨hu, ht⟩ => ?_
    simp only [ite_lanes hu, ht, startMatrix_eq]
    rfl
  case upper =>
    refine does_of rfl (fun s => show execTtrsUpper h d a n fx16 s = _ from rfl) fun r u w ⟨hu, ht⟩ => ?_
    simp only [ite_lanes hu, ht]
    rfl
  case lower =>
    refine does_of rfl (fun s => show execTtrsLower h d a b n fx16 false s = _ from rfl) fun r u w ⟨hl, ht⟩ => ?_
    simp only [hl, ht, Bool.false_eq_true, if_false]
    rfl
  case pivoted =>
    refine does_of rfl (fun s => show execTtrsLower h d a b n fx16 true s = _ from rfl) fun r u w ⟨hl, ht, hp⟩ => ?_
    simp only [hl, ht, if_true, pivots_inside hp]
    rfl
  case tupd =>
    refine does_of rfl (fun s => show execTupd h d a b fx16 s = _ from rfl) fun r u w ⟨hu, ht, hc, hp⟩ => ?_
    simp only [ite_lanes hu, firstOf, List.findSome?, ht, hc, id, hp, Bool.false_eq_true, if_false, startMatrix_eq]
    rfl
  case tjac =>
    refine does_of rfl (fun s => show execTjac h d a b c n fx16 pd s = _ from rfl) fun r u w ⟨hl, ht, hpos, hle⟩ => ?_
    simp only [hl, ht, Nat.pos_iff_ne_zero.1 hpos, Nat.not_lt.2 hle, or_self, if_false]
    rfl
  case sweep =>
    intro id s q a b x0 x n done limit dead qp wd d c pd st e hq hw
    rw [exec_tjacSweepEnd hq hw]
    refine ⟨fun hend => if_pos hend, fun hlim hdead hhalt => if_neg ?_⟩
    rw [hdead, hhalt]
    exact fun hend => hend.elim hlim fun h => h.elim Bool.false_ne_true Bool.false_ne_true

end Sys2Proof
end

section
/-! PROOFS. Paired warps and fmt (R248, R249, R265). -/

namespace Sys2Proof.Machine

/-- A unit that waits in no XPAIR has obtained nothing from one. -/
theorem pairWait_fresh {u : IssueUnit} {r : State} (h : ∀ role, u.waitOf r ≠ .xpair role) : u.pairWait r = none := by
  unfold IssueUnit.pairWait
  split
  next k hk => exact absurd hk (h k)
  next => rfl

theorem pairWait_of {u : IssueUnit} {r : State} {k : Option Half} (h : u.waitOf r = .xpair k) : u.pairWait r = some k := by
  unfold IssueUnit.pairWait
  rw [h]

theorem exec_xswapCompletion_alone {s : State} {id : Nat} {q : Pend} {res : Result} (hq : s.pend.get? id = some q)
    (hw : q.work = .result .load res) : exec (.xswapCompletion id) s = .next (deliver s id q false res) := by
  show execXswapCompletion id s = _
  unfold execXswapCompletion
  simp only [hq, hw]

theorem exec_xswapCompletion_both {s : State} {id : Nat} {q : Pend} {k : Nat} {d : Reg} {pd : Pred} {mask m : Lanes}
    {vals v : Row} {o : Option Nat} (hq : s.pend.get? id = some q)
    (hw : q.work = .xswap k d pd mask vals o (some (m, v))) : exec (.xswapCompletion id) s =
      .next (deliver s id q false
        ⟨[⟨(q.warps.headD (0, 0)).1, d, mask, rowOfLanes fun l => if m.getLsbD l then Row.lane v l else Row.lane vals l⟩],
          [⟨(q.warps.headD (0, 0)).1, pd, mask, m⟩], [], 0, none⟩) := by
  show execXswapCompletion id s = _
  unfold execXswapCompletion
  simp only [hq, hw, xswapResult]

end Sys2Proof.Machine

namespace Sys2Proof
open Machine

/-- Settles O33: XPAIR by its wait, tag and partner, XSWAP by its pair and the partner's XSWAP, then the completion. -/
theorem pairedWarpsAndFormat : Obligations.PairedWarpsAndFormat := by
  refine ⟨fun h d a x l => ⟨?zeroTag, fun o => ?second, ?full, ?first, fun k => ?role⟩,
    fun h d a pd x l => ⟨?alone, fun p => ⟨?offers, fun id q k d2 pd2 m2 v2 o2 got => ?answers⟩⟩,
    fun id s q hq => ⟨fun res hw => exec_xswapCompletion_alone hq hw,
      fun k d pd mask vals o m v hw => exec_xswapCompletion_both hq hw⟩, fun h d a b x l => ?setfmt⟩
  case zeroTag =>
    refine does_of rfl (fun s => show execXpair h d a s = _ from rfl) fun r u w ⟨hl, hf, ht⟩ => ?_
    dsimp only at ht
    simp only [hl, pairWait_fresh hf, ht, if_true]
  case second =>
    refine does_of rfl (fun s => show execXpair h d a s = _ from rfl) fun r u w ⟨hl, hf, ht, ho⟩ => ?_
    dsimp only at ht ho
    simp only [hl, pairWait_fresh hf, ht, if_false, ho]
  case full =>
    refine does_of rfl (fun s => show execXpair h d a s = _ from rfl) fun r u w ⟨hl, hf, ht, ho, hn⟩ => ?_
    dsimp only at ht ho
    simp only [hl, pairWait_fresh hf, ht, if_false, ho, hn, if_true]
  case first =>
    refine stalls_of rfl (fun s => show execXpair h d a s = _ from rfl) fun r u w ⟨hl, hf, ht, ho, hn⟩ => ?_
    dsimp only at ht ho
    simp only [hl, pairWait_fresh hf, ht, if_false, ho, Nat.not_le.2 hn]
  case role =>
    refine does_of rfl (fun s => show execXpair h d a s = _ from rfl) fun r u w ⟨hl, hw⟩ => ?_
    simp only [hl, pairWait_of hw]
  case alone =>
    refine does_of rfl (fun s => show execXswap h d a pd s = _ from rfl) fun r u w ⟨hl, hp⟩ => ?_
    simp only [hl, hp]
  case offers =>
    refine does_of rfl (fun s => show execXswap h d a pd s = _ from rfl) fun r u w ⟨hl, hp, hs⟩ => ?_
    dsimp only at hs
    simp only [hl, hp, hs]
  case answers =>
    refine does_of rfl (fun s => show execXswap h d a pd s = _ from rfl) fun r u w ⟨hl, hp, hs, hq⟩ => ?_
    dsimp only at hs
    simp only [hl, hp, hs, hq]
  case setfmt =>
    refine does_of rfl (fun s => show execSetfmt h d a b s = _ from rfl) fun r u w hl => ?_
    simp only [hl]

end Sys2Proof
end

section
/-! PROOFS. The reset state, words of the manual, constant registers, privilege and access checks. -/

namespace Sys2Proof.Machine

/-! ## Writes that change no warp (R207, R208) -/

/-- A pass over the parts of a unit that changes no warp leaves every warp as it was. -/
theorem foldl_mapWarp_id (ps : List UPart) (s : State) (n : Nat) :
    let t := ps.foldl (fun s p => s.mapWarp p.uid fun w => w) s
    t.warps.get? n = s.warps.get? n ∧ t = { s with warps := t.warps } := by
  induction ps generalizing s with
  | nil => exact ⟨rfl, rfl⟩
  | cons p ps ih =>
    obtain ⟨hget, honly⟩ := ih (s.mapWarp p.uid fun w => w)
    refine ⟨?_, ?_⟩
    · rw [List.foldl_cons, hget, State.mapWarp_get]
      simp
    · rw [List.foldl_cons]
      refine honly.trans ?_
      rw [State.mapWarp_only s]

/-- A register whose writes are discarded (R207). -/
theorem IssueUnit.write_discarded {d : Reg} (hd : ∀ (w : Warp) i m f x, w.writeReg i d m f x = w) (u : IssueUnit)
    (s : State) (n : Nat) (f : UPart → Nat → Half) :
    (u.write s d f).warps.get? n = s.warps.get? n ∧ u.write s d f = { s with warps := (u.write s d f).warps } := by
  unfold IssueUnit.write
  split
  next => exact ⟨rfl, rfl⟩
  next => simpa only [hd] using foldl_mapWarp_id u.parts s n

theorem IssueUnit.writePred_seven (u : IssueUnit) (s : State) (n : Nat) (f : UPart → Nat → Bool) :
    (u.writePred s 7 f).warps.get? n = s.warps.get? n
      ∧ u.writePred s 7 f = { s with warps := (u.writePred s 7 f).warps } :=
  foldl_mapWarp_id u.parts s n

/-! ## The checks of a word (R210, R211) -/

/-- A word that no check of the split stops but its privilege. -/
theorem dynamicCheck_privilege {i : Instr} {h : Head} {w : Warp} {p : Split}
    (hend : endsClause i.opcode = true → p.idx = (Header.of p.header).count) (hflag : h.flag = .none)
    (hset : h.scope = .set → w.setId.isSome) :
    dynamicCheck i h w p = if Instr.needsSuper i && p.saved.isNone then
      some (Code.privilege, BitVec.ofNat 32 i.opcode, BitVec.ofNat 32 (Instr.srNumber i)) else none := by
  have h1 : (endsClause i.opcode && p.idx != (Header.of p.header).count) = false := by
    cases he : endsClause i.opcode
    · rfl
    · simp [hend he]
  have h2 : (h.scope == .set && w.setId.isNone) = false := by
    by_cases hs : h.scope = .set
    · have := hset hs
      cases hw : w.setId <;> simp_all
    · simp [hs]
  unfold dynamicCheck
  simp only [h1, h2, hflag, Bool.false_eq_true, if_false, bne_self_eq_false, Bool.false_and]

/-- A word that a check stops takes its trap. -/
theorem exec_checked {i : Instr} {h : Head} {eff : IssueUnit → State → State → Effect} {s : State} {w : Warp} {p : Split}
    {c : Nat} {a b : Half} (hx : exec i s = issue i h eff s) (hw : s.warps.get? s.act.1 = some w) (hp : w.splits.get? s.act.2 = some p)
    (hc : dynamicCheck i h w p = some (c, a, b)) :
    exec i s = .next (takeWordTrap s s.act.1 s.act.2 w p c a b 0 0) := by
  rw [hx]
  unfold issue
  simp only [hw, hp, hc]

/-- Only words that need supervisor mode meet PRIVILEGE. -/
theorem needsSuper_of_privilege {i : Instr} {h : Head} {w : Warp} {p : Split} {a b : Half}
    (hc : dynamicCheck i h w p = some (Code.privilege, a, b)) : Instr.needsSuper i = true := by
  have hcode : Code.illegalClause ≠ Code.privilege ∧ Code.illegalForm ≠ Code.privilege
      ∧ Code.illegalScope ≠ Code.privilege := by decide
  obtain ⟨hclause, hform, hscope⟩ := hcode
  unfold dynamicCheck at hc
  dsimp only at hc
  split_ifs at hc with _ _ _ hs
  · exact absurd (congrArg Prod.fst (Option.some.inj hc)) hclause
  · exact absurd (congrArg Prod.fst (Option.some.inj hc)) hform
  · exact absurd (congrArg Prod.fst (Option.some.inj hc)) hscope
  · exact (Bool.and_eq_true_iff.1 hs).1

theorem srUser_iff (n : Nat) : srUser n = true ↔
    n ∈ [0x0E0, 0x0E1, 0x0E4, 0x0E6, 0x0E7, 0x0F0, 0x0F1, 0x0F8, 0x0FA, 0x0FB] ∨ (0x100 ≤ n ∧ n ≤ 0x10F) := by
  simp only [srUser, Bool.or_eq_true, decide_eq_true_eq, List.mem_cons, List.not_mem_nil, or_false]

/-- A register of user level that only reads takes no write (R305). -/
theorem sysWrite_readOnly (s : State) (uid i n : Nat) (x : Half)
    (hn : n ∈ [0x0E0, 0x0E4, 0x0F0, 0x0F1, 0x0F8, 0x0FA, 0x0FB]) : sysWrite s uid i n x = (s, none) := by
  have hwarp : ∀ w, warpWrite w i n x = none := by
    intro w
    simp only [List.mem_cons, List.not_mem_nil, or_false] at hn
    rcases hn with rfl | rfl | rfl | rfl | rfl | rfl | rfl <;> rfl
  have hcore : ∀ c b, coreWrite c s.clk b n x = none := by
    intro c b
    simp only [List.mem_cons, List.not_mem_nil, or_false] at hn
    rcases hn with rfl | rfl | rfl | rfl | rfl | rfl | rfl <;> rfl
  unfold sysWrite
  split
  next => rfl
  next =>
    simp only [hwarp, hcore]
    exact if_pos (by simpa using hn)

/-! ## The checks of an access (R28, R37) -/

theorem resolve_nonCanonical {s : State} {part asid blk : Nat} {ea : Word} {n : Nat} {acc : Acc}
    (h : 2 ^ 56 ≤ ea.toNat) : resolve s part asid blk ea n acc = .error Code.pageFault := by
  have hap : inAperture ea = false := by simp only [inAperture, decide_eq_false_iff_not]; omega
  unfold resolve
  simp only [hap, Bool.false_eq_true, if_false, if_pos h]

theorem resolveLane_nonCanonical {s : State} {part asid blk uid l : Nat} {ea : Word} {n : Nat} {acc : Acc}
    (h : 2 ^ 56 ≤ ea.toNat) : resolveLane s part asid blk uid l ea n acc = .error Code.pageFault := by
  unfold resolveLane
  simp only [h, or_true, if_true, resolve_nonCanonical h]

theorem nonResident_nonCanonical {s : State} {part asid : Nat} {ea : Word} (h : 2 ^ 56 ≤ ea.toNat) :
    nonResident s part asid ea = false := by
  unfold nonResident
  simp only [show ¬ ea.toNat < 2 ^ 56 by omega, decide_false, Bool.and_false, Bool.false_and]

theorem checkLane_misaligned {u : IssueUnit} {s : State} {uid l : Nat} {ea : Word} {size align : Nat} {acc : Acc}
    (h : acc ≠ .ldr ∨ nonResident s u.part u.asid ea = false) (ha : ea.toNat % align ≠ 0) :
    checkLane u s uid l ea size align acc = (s, some Code.misaligned, 0, .absent) := by
  have hr : ¬ (acc = .ldr ∧ nonResident s u.part u.asid ea = true) := by
    rintro ⟨hl, hn⟩
    rcases h with h | h
    · exact h hl
    · exact Bool.false_ne_true (h.symm.trans hn)
  unfold checkLane
  rw [if_neg hr, if_pos ha]

theorem checkLane_nonCanonical {u : IssueUnit} {s : State} {uid l : Nat} {ea : Word} {size align : Nat} {acc : Acc}
    (ha : ea.toNat % align = 0) (h : 2 ^ 56 ≤ ea.toNat) :
    checkLane u s uid l ea size align acc = (s, some Code.pageFault, 0, .absent) := by
  unfold checkLane
  simp only [nonResident_nonCanonical h, Bool.false_eq_true, and_false, if_false, ha, ne_eq, not_true_eq_false,
    resolveLane_nonCanonical h]

end Sys2Proof.Machine

namespace Sys2Proof
open Machine

/-- Settles O47: the reset state lists nothing. -/
theorem resetState : Obligations.ResetState := by
  unfold Obligations.ResetState
  exact ⟨rfl, rfl, rfl, rfl, rfl, rfl, Tab.wf_nil, rfl, rfl, rfl, rfl, rfl, rfl, rfl, rfl, rfl, fun _ => rfl,
    fun _ => ⟨rfl, rfl, rfl, rfl⟩⟩

/-- Settles O49: each word is decoded. -/
theorem manualWordsDecode : Obligations.ManualWordsDecode := by
  unfold Obligations.ManualWordsDecode
  decide +kernel

/-- Settles O56: names of constants read themselves, and their writes leave each warp. -/
theorem constantRegisters : Obligations.ConstantRegisters := by
  unfold Obligations.ConstantRegisters
  refine ⟨fun s w p l => ⟨rfl, rfl, rfl, rfl, rfl, fun hp => ?_, fun hs => ?_, fun i hi => ?_, rfl⟩,
    fun u s n => ⟨fun f d hd => u.write_discarded ?_ s n f, u.writePred_seven s n⟩⟩
  · simp [readReg, hp]
  · simp [readReg, State.ident, hs]
  · rw [readReg, hi]
    rfl
  · simp only [List.mem_cons, List.not_mem_nil, or_false] at hd
    rcases hd with rfl | rfl | rfl | rfl | rfl | rfl | rfl | rfl | rfl <;> exact fun _ _ _ _ _ => rfl

/-- Settles O52: of the checks of a word, only the last asks for the level, and only for TRET, GETSR and SETSR. -/
theorem privilegeChecks : Obligations.PrivilegeChecks := by
  unfold Obligations.PrivilegeChecks
  refine ⟨srUser_iff, fun s h w p hw hp hs hf hset => ⟨fun hi => ?_, fun d sr hu => ?_, fun a sr hu => ?_⟩,
    fun h w p hf hset => ⟨fun hs hi => ?_, fun r sr hu => ?_⟩, fun i h w p a b hc => ?_,
    fun h r sr hk => ⟨?_, ?_⟩, fun s uid i n x hn => sysWrite_readOnly s uid i n x hn⟩
  · refine exec_checked (show execTret h s = _ from rfl) hw hp ?_
    rw [dynamicCheck_privilege (fun _ => hi) hf hset, hs]
    rfl
  · refine exec_checked (show execGetsr h d sr s = _ from rfl) hw hp ?_
    rw [dynamicCheck_privilege (by simp [endsClause, Instr.opcode]) hf hset, hs]
    simp [Instr.needsSuper, hu, Instr.srNumber, Instr.opcode]
  · refine exec_checked (show execSetsr h a sr s = _ from rfl) hw hp ?_
    rw [dynamicCheck_privilege (by simp [endsClause, Instr.opcode]) hf hset, hs]
    simp [Instr.needsSuper, hu, Instr.srNumber, Instr.opcode]
  · rw [dynamicCheck_privilege (fun _ => hi) hf hset]
    simp [Option.isSome_iff_ne_none.1 hs]
  · rw [dynamicCheck_privilege (by simp [endsClause, Instr.opcode]) hf hset, dynamicCheck_privilege (by simp [endsClause, Instr.opcode]) hf hset]
    rcases hu with hu | hu <;> simp [Instr.needsSuper, hu, Option.isSome_iff_ne_none.1]
  · have hn := needsSuper_of_privilege hc
    unfold Instr.needsSuper at hn
    split at hn
    next h' => exact .inl ⟨h', rfl⟩
    next h' r sr => exact .inr ⟨h', r, sr, .inl rfl⟩
    next h' r sr => exact .inr ⟨h', r, sr, .inr rfl⟩
    next => cases hn
  · simp [Instr.wf, Instr.operandsOk, hk]
  · simp [Instr.wf, Instr.operandsOk, hk]

/-- Settles O53: the check of a lane asks in this order, and a word whose lane has a cause traps. -/
theorem accessChecksTrap : Obligations.AccessChecksTrap := by
  unfold Obligations.AccessChecksTrap
  refine ⟨fun u s uid l ea size align acc => checkLane_misaligned, fun u s uid l ea size align acc => checkLane_nonCanonical,
    fun u s uid l ea size align hn => if_pos ⟨rfl, hn⟩, fun h d m off t => ⟨fun ty => ⟨?_, ?_⟩, fun ty => ?_, fun op => ?_⟩⟩
  · refine traps_of rfl (fun s => show execLd h ty d m off s = _ from rfl) fun r u w ⟨hu, hr, ht⟩ => ?_
    dsimp only at ht
    unfold loadEffect
    simp only [ite_lanes hu, hr, ht, Bool.false_eq_true, if_false]
  · refine traps_of rfl (fun s => show execSt h ty d m off s = _ from rfl) fun r u w ⟨hu, hw, hs, ht⟩ => ?_
    dsimp only at ht
    unfold storeEffect
    simp only [ite_lanes hu, hw, hs, ht, Option.orElse_none]
  · refine traps_of rfl (fun s => show execLdc h ty d m off s = _ from rfl) fun r u w ⟨hu, hr, ht⟩ => ?_
    dsimp only at ht ⊢
    simp only [ite_lanes hu, hr, ht, Bool.false_eq_true, if_false]
  · refine traps_of rfl (fun s => show execAtom h op d m off s = _ from rfl) fun r u w ⟨hu, hw, hs, ht⟩ => ?_
    dsimp only at ht ⊢
    simp only [ite_lanes hu, hw, hs, ht, Option.orElse_none]

/-- Settles O54: an address past 2^56 is in no aperture. -/
theorem nonCanonicalAddressesFault : Obligations.NonCanonicalAddressesFault := by
  unfold Obligations.NonCanonicalAddressesFault
  intro s part asid blk ea n acc h
  exact resolve_nonCanonical (by omega)

end Sys2Proof
end

section
/-! PROOFS. Words whose guard leaves no active lane (R142). -/

namespace Sys2Proof.Machine

variable {u : IssueUnit}

theorem ite_noLanes {α : Type} (hu : u.lanes = []) (x y : α) : (if u.lanes.isEmpty then x else y) = x :=
  if_pos (List.isEmpty_iff.2 hu)

theorem IssueUnit.lead_noLanes (hu : u.lanes = []) : u.lead = none := by
  unfold IssueUnit.lead
  rw [hu]
  rfl

theorem IssueUnit.write_noLanes (hu : u.lanes = []) (s : State) (r : Reg) (f : UPart → Nat → Half) :
    u.write s r f = s := by
  unfold IssueUnit.write
  rw [u.lead_noLanes hu]

theorem IssueUnit.write64_noLanes (hu : u.lanes = []) (s : State) (r : Reg) (f : UPart → Nat → Word) :
    u.write64 s r f = s := by
  unfold IssueUnit.write64
  rw [u.write_noLanes hu, u.write_noLanes hu]

/-- The target of a register branch is not read without a lane. -/
theorem indirect_noLanes (hu : u.lanes = []) (r : State) (a : Reg) : indirect u r a = .ok 0 := by
  unfold indirect
  rw [u.lead_noLanes hu]

theorem branchTo_noLanes (hu : u.lanes = []) (r w : State) (t : Word) (rpc : Option Word) :
    branchTo u r w t rpc = .done w := ite_noLanes hu _ _

/-- The word only moves on where no lane is active. -/
abbrev Idles (i : Instr) : Prop := Does i (fun _ u _ => u.lanes = []) fun _ _ w => w

/-- A word whose effect first asks for a lane. -/
theorem idles_of_guard {i : Instr} {h : Head} {f : IssueUnit → State → State → Effect} (hh : i.head = some h)
    (hx : ∀ s, exec i s = issue i h (fun u r w => if u.lanes.isEmpty then .done w else f u r w) s) : Idles i :=
  does_of hh hx fun _ _ _ hu => ite_noLanes hu _ _

/-- Loads, stores and words on single lines (R271-R279). -/
theorem access_words_idle (h : Head) (d : Reg) (m : Addr) (off : BitVec 7) :
    (∀ t, Idles (.ld h t d m off)) ∧
    (∀ t, Idles (.st h t d m off)) ∧
    (∀ t, Idles (.ldc h t d m off)) ∧
    (∀ op, Idles (.atom h op d m off)) ∧
    Idles (.ealloc h d m off) ∧
    Idles (.etest h d m off) ∧
    Idles (.erase h m off) ∧
    Idles (.eraser h d m off) ∧
    Idles (.discard h m off) :=
  ⟨fun t => idles_of_guard rfl fun s => show execLd h t d m off s = _ from rfl,
   fun t => idles_of_guard rfl fun s => show execSt h t d m off s = _ from rfl,
   fun t => idles_of_guard rfl fun s => show execLdc h t d m off s = _ from rfl,
   fun op => idles_of_guard rfl fun s => show execAtom h op d m off s = _ from rfl,
   idles_of_guard rfl fun s => show execEalloc h d m off s = _ from rfl,
   idles_of_guard rfl fun s => show execEtest h d m off s = _ from rfl,
   idles_of_guard rfl fun s => show execErase h m off s = _ from rfl,
   idles_of_guard rfl fun s => show execEraser h d m off s = _ from rfl,
   idles_of_guard rfl fun s => show execDiscard h m off s = _ from rfl⟩

/-- Loads with a predicate of their own. -/
theorem tested_loads_idle (h : Head) (t : W2) (d : Reg) (pd : Pred) (m : Addr) (off : BitVec 4) :
    Idles (.ldg h t d pd m off) ∧
    Idles (.ldr h t d pd m off) ∧
    Idles (.lde h t d pd m off) :=
  ⟨idles_of_guard rfl fun s => show execLdg h t d pd m off s = _ from rfl,
   idles_of_guard rfl fun s => show execLdr h t d pd m off s = _ from rfl,
   idles_of_guard rfl fun s => show execLde h t d pd m off s = _ from rfl⟩

/-- Arrive-wait barriers and queues (R301-R303). -/
theorem barrier_words_idle (h : Head) (d a b c : Reg) :
    Idles (.abinit h a b c) ∧
    Idles (.abarrive h d a b) ∧
    (∀ gen, Idles (.abwait h a b gen)) ∧
    (∀ q, Idles (.qinit h a b c q)) ∧
    (∀ q, Idles (.qacqFree h d q)) ∧
    (∀ q, Idles (.qacqFull h d q)) ∧
    (∀ q, Idles (.qrelFull h q)) ∧
    (∀ q, Idles (.qrelFree h q)) :=
  ⟨idles_of_guard rfl fun s => show execAbinit h a b c s = _ from rfl,
   idles_of_guard rfl fun s => show execAbarrive h d a b s = _ from rfl,
   fun gen => idles_of_guard rfl fun s => show execAbwait h a b gen s = _ from rfl,
   fun q => idles_of_guard rfl fun s => show execQinit h a b c q s = _ from rfl,
   fun q => idles_of_guard rfl fun s => show execQacqFree h d q s = _ from rfl,
   fun q => idles_of_guard rfl fun s => show execQacqFull h d q s = _ from rfl,
   fun q => idles_of_guard rfl fun s => show execQrelFull h q s = _ from rfl,
   fun q => idles_of_guard rfl fun s => show execQrelFree h q s = _ from rfl⟩

/-- Copies, binning and the fetch unit (R315-R327). -/
theorem copy_words_idle (h : Head) (a b c : Reg) :
    Idles (.binc h a b c) ∧
    Idles (.binp h) ∧
    Idles (.crel h) ∧
    (∀ dir x y twoD ab q sc, Idles (.cpy h dir x y b c twoD ab q sc)) ∧
    (∀ d z sc, Idles (.cpyh h d a b c z sc)) ∧
    (∀ t d n pd, Idles (.fetch h t d a b n pd)) :=
  ⟨idles_of_guard rfl fun s => show execBinc h a b c s = _ from rfl,
   idles_of_guard rfl fun s => show execBinp h s = _ from rfl,
   idles_of_guard rfl fun s => show execCrel h s = _ from rfl,
   fun dir x y twoD ab q sc => idles_of_guard rfl fun s => show execCpy h dir x y b c twoD ab q sc s = _ from rfl,
   fun d z sc => idles_of_guard rfl fun s => show execCpyh h d a b c z sc s = _ from rfl,
   fun t d n pd => idles_of_guard rfl fun s => show execFetch h t d a b n pd s = _ from rfl⟩

/-- MMA and MMAS (R330, R333). -/
theorem product_words_idle (h : Head) (d a b c : Tile) (sat bs : Bool) :
    (∀ t, Idles (.mma h t d a b c sat bs)) ∧
    (∀ t, Idles (.mmas h t d a b c sat bs)) :=
  ⟨fun t => idles_of_guard rfl fun s => show execMma h t d a b c sat bs s = _ from rfl,
   fun t => idles_of_guard rfl fun s => show execMmas h t d a b c sat bs s = _ from rfl⟩

/-- Tile utilities on tiles (R334-R337), TALLOC and TFREE. -/
theorem utility_words_idle (h : Head) (d a b : Tile) :
    Idles (.tzero h d) ∧
    (∀ w, Idles (.ttrans h d a w)) ∧
    (∀ t, Idles (.tadd h d a b t)) ∧
    (∀ p src, Idles (.tcvt h d a p src)) ∧
    Idles (.talloc h d) ∧
    Idles (.tfree h d) :=
  ⟨idles_of_guard rfl fun s => show execTzero h d s = _ from rfl,
   fun w => idles_of_guard rfl fun s => show execTtrans h d a w s = _ from rfl,
   fun t => idles_of_guard rfl fun s => show execTadd h d a b t s = _ from rfl,
   fun p src => idles_of_guard rfl fun s => show execTcvt h d a p src s = _ from rfl,
   idles_of_guard rfl fun s => show execTalloc h d s = _ from rfl,
   idles_of_guard rfl fun s => show execTfree h d s = _ from rfl⟩

/-- System registers, ends and launches. -/
theorem control_words_idle (h : Head) (d a : Reg) :
    (∀ sr, Idles (.getsr h d sr)) ∧
    (∀ sr, Idles (.setsr h a sr)) ∧
    Idles (.exit h) ∧
    (∀ b c pd n, Idles (.spawn h a b c pd n)) ∧
    (∀ pd, Idles (.launch h d a pd)) ∧
    (∀ pd test, Idles (.lwait h d a pd test)) ∧
    (∀ x b k y, Idles (.kupd h x a b k y)) ∧
    (∀ k y, Idles (.kread h d k y)) ∧
    Idles (.poolset h d a) :=
  ⟨fun sr => idles_of_guard rfl fun s => show execGetsr h d sr s = _ from rfl,
   fun sr => idles_of_guard rfl fun s => show execSetsr h a sr s = _ from rfl,
   idles_of_guard rfl fun s => show execExit h s = _ from rfl,
   fun b c pd n => idles_of_guard rfl fun s => show execSpawn h a b c pd n s = _ from rfl,
   fun pd => idles_of_guard rfl fun s => show execLaunch h d a pd s = _ from rfl,
   fun pd test => idles_of_guard rfl fun s => show execLwait h d a pd test s = _ from rfl,
   fun x b k y => idles_of_guard rfl fun s => show execKupd h x a b k y s = _ from rfl,
   fun k y => idles_of_guard rfl fun s => show execKread h d k y s = _ from rfl,
   idles_of_guard rfl fun s => show execPoolset h d a s = _ from rfl⟩

/-- Fences, the token and stash windows. -/
theorem order_words_idle (h : Head) :
    (∀ o sc, Idles (.fence h o sc)) ∧
    Idles (.tokenTake h) ∧
    Idles (.tokenPass h) ∧
    (∀ a b c w, Idles (.stash h a b c w)) ∧
    (∀ w, Idles (.unstash h w)) :=
  ⟨fun o sc => idles_of_guard rfl fun s => show execFence h o sc s = _ from rfl,
   idles_of_guard rfl fun s => show execTokenTake h s = _ from rfl,
   idles_of_guard rfl fun s => show execTokenPass h s = _ from rfl,
   fun a b c w => idles_of_guard rfl fun s => show execStash h a b c w s = _ from rfl,
   fun w => idles_of_guard rfl fun s => show execUnstash h w s = _ from rfl⟩

/-- The tile solver (R338-R341) and TFILL. -/
theorem solver_words_idle (h : Head) (d : Tile) (a b : Reg) :
    Idles (.tfill h d a) ∧
    (∀ x, Idles (.tupd h d a b x)) ∧
    (∀ n x, Idles (.tlu h d a b n x)) ∧
    (∀ e n x, Idles (.ttrsUpper h d e n x)) :=
  ⟨idles_of_guard rfl fun s => show execTfill h d a s = _ from rfl,
   fun x => idles_of_guard rfl fun s => show execTupd h d a b x s = _ from rfl,
   fun n x => idles_of_guard rfl fun s => show execTlu h d a b n x s = _ from rfl,
   fun e n x => idles_of_guard rfl fun s => show execTtrsUpper h d e n x s = _ from rfl⟩

theorem scat_idles (h : Head) (t : W2) (d : Reg) (m : Addr) (off : BitVec 7) : Idles (.scat h t d m off) :=
  idles_of_guard rfl fun s => show execScat h t d m off s = _ from rfl

/-! ## Branches (R289, R290) -/

theorem bra_idles (h : Head) (t r : BitVec 14) : Idles (.bra h t r) :=
  does_of rfl (fun s => show execBra h t r s = _ from rfl) fun _ _ _ hu => branchTo_noLanes hu _ _ _ _

theorem brx_idles (h : Head) (a : Reg) (r : BitVec 12) : Idles (.brx h a r) :=
  does_of rfl (fun s => show execBrx h a r s = _ from rfl) fun r u w hu => by
    rw [indirect_noLanes hu]
    exact branchTo_noLanes hu _ _ _ _

theorem call_idles (h : Head) (d : Reg) (t r : BitVec 14) : Idles (.call h d t r) :=
  does_of rfl (fun s => show execCall h d t r s = _ from rfl) fun r u w hu => by
    rw [u.write64_noLanes hu]
    exact branchTo_noLanes hu _ _ _ _

theorem callx_idles (h : Head) (d a : Reg) (r : BitVec 12) : Idles (.callx h d a r) :=
  does_of rfl (fun s => show execCallx h d a r s = _ from rfl) fun r u w hu => by
    rw [indirect_noLanes hu, u.write64_noLanes hu]
    exact branchTo_noLanes hu _ _ _ _

theorem ret_idles (h : Head) (a : Reg) : Idles (.ret h a) :=
  does_of rfl (fun s => show execRet h a s = _ from rfl) fun r u w hu => by
    rw [indirect_noLanes hu]
    exact branchTo_noLanes hu _ _ _ _

/-! ## Words that ask for the lead lane -/

theorem fhnd_idles (h : Head) (a : Reg) (n : Fin 8) :
    Idles (.fhnd h a n) :=
  does_of rfl (fun s => show execFhnd h a n s = _ from rfl) fun _ u _ hu => by simp only [u.lead_noLanes hu]

theorem vtot_idles (h : Head) (d : Tile) (a b : Reg) :
    Idles (.vtot h d a b) :=
  does_of rfl (fun s => show execVtot h d a b s = _ from rfl) fun _ u _ hu => by simp only [u.lead_noLanes hu]

theorem ttrsLower_idles (h : Head) (d a : Tile) (b : Reg) (n : Fin 32) (x p : Bool) :
    Idles (.ttrsLower h d a b n x p) :=
  does_of rfl (fun s => show execTtrsLower h d a b n x p s = _ from rfl) fun _ u _ hu => by simp only [u.lead_noLanes hu]

theorem tjac_idles (h : Head) (d : Reg) (a : Tile) (b c : Reg) (n : Fin 32) (x : Bool) (pd : Pred) :
    Idles (.tjac h d a b c n x pd) :=
  does_of rfl (fun s => show execTjac h d a b c n x pd s = _ from rfl) fun _ u _ hu => by simp only [u.lead_noLanes hu]

theorem kinit_idles (h : Head) (a : Reg) (k : Fin 16) (x y : Bool) :
    Idles (.kinit h a k x y) :=
  does_of rfl (fun s => show execKinit h a k x y s = _ from rfl) fun _ u _ hu => by simp only [u.lead_noLanes hu]

/-! ## Tile rows to registers -/

theorem ttov_idles (h : Head) (d : Reg) (a : Tile) (b : Reg) : Idles (.ttov h d a b) :=
  does_of rfl (fun s => show execTtov h d a b s = _ from rfl) fun r u w hu => by
    dsimp only
    simp only [ite_noLanes hu]
    split <;> rfl

theorem tred_idles (h : Head) (d : Reg) (a : Tile) (col : Bool) (op : RedOp) (t : TSrc) : Idles (.tred h d a col op t) :=
  does_of rfl (fun s => show execTred h d a col op t s = _ from rfl) fun r u w hu => by
    unfold utility
    simp only [ite_noLanes hu]

end Sys2Proof.Machine

namespace Sys2Proof
open Machine

/-- Settles O57: each word's effect first asks for an active lane, or for the lead lane, of which there is none. -/
theorem wordsWithoutLanes : Obligations.WordsWithoutLanes := by
  unfold Obligations.WordsWithoutLanes
  refine ⟨fun h d m off => ?_, tested_loads_idle, scat_idles, fun h d a b c => ?_, fun h d a b c sat bs => ?_,
    fun h d a => ⟨tred_idles h d a, ttov_idles h d a⟩, fun h d a sr => ?_, fun h => ?_, fun h d a b x => ?_,
    fun h d a b c pd n => ?_⟩
  · obtain ⟨ld, st, ldc, atom, ealloc, etest, erase, eraser, discard⟩ := access_words_idle h d m off
    exact ⟨fun t => ⟨ld t, st t⟩, ldc, atom, ealloc, etest, erase, eraser, discard⟩
  · obtain ⟨abinit, abarrive, abwait, qinit, qacqFree, qacqFull, qrelFull, qrelFree⟩ := barrier_words_idle h d a b c
    obtain ⟨binc, binp, crel, cpy, -⟩ := copy_words_idle h a b c
    exact ⟨abinit, abarrive, abwait, fun q => ⟨qinit q, qacqFree q, qacqFull q, qrelFull q, qrelFree q⟩, binc, binp,
      crel, fun dir dd aa twoD ab q sc => cpy dir dd aa twoD ab q sc⟩
  · obtain ⟨mma, mmas⟩ := product_words_idle h d a b c sat bs
    obtain ⟨tzero, ttrans, tadd, tcvt, talloc, tfree⟩ := utility_words_idle h d a b
    exact ⟨mma, mmas, tzero, ttrans, tadd, tcvt, talloc, tfree⟩
  · obtain ⟨getsr, setsr, exit, -⟩ := control_words_idle h d a
    exact ⟨getsr sr, setsr sr, exit, bra_idles h, fun r => ⟨brx_idles h a r, callx_idles h d a r⟩, call_idles h d,
      ret_idles h a⟩
  · obtain ⟨fence, take, pass, stash, unstash⟩ := order_words_idle h
    refine ⟨fence, take, pass, fun a b c w => ⟨stash a b c w, unstash w⟩, fun d a => ?_, fun d a b c z sc => ?_,
      fhnd_idles h, fun t d a b n pd => ?_⟩
    · obtain ⟨-, -, -, -, -, -, -, -, poolset⟩ := control_words_idle h d a
      exact poolset
    · obtain ⟨-, -, -, -, cpyh, -⟩ := copy_words_idle h a b c
      exact cpyh d z sc
    · obtain ⟨-, -, -, -, -, fetch⟩ := copy_words_idle h a b b
      exact fetch t d n pd
  · obtain ⟨tfill, tupd, tlu, ttrsUpper⟩ := solver_words_idle h d a b
    exact ⟨tfill, vtot_idles h d a b, tupd x, fun n => ⟨tlu n x, fun e p => ⟨ttrsLower_idles h d e a n x p, ttrsUpper e n x⟩⟩,
      fun r c n pd => tjac_idles h r d b c n x pd⟩
  · obtain ⟨-, -, -, spawn, launch, lwait, kupd, kread, -⟩ := control_words_idle h d a
    exact ⟨spawn b c pd n, launch pd, lwait pd, fun k x y => ⟨kinit_idles h a k x y, kupd x b k y, kread k y⟩⟩

end Sys2Proof
end

section
/-! PROOFS. Taking a trap and returning from one (R346-R352). -/

namespace Sys2Proof.Machine

/-! ## The handling warp (R346, R347) -/

/-- A split that takes a trap at user level, in a partition with a handler. -/
theorem takeTrap_handled {s : State} {h : UPart} {w : Warp} {p : Split} (rest : List UPart) (sc : Scope) (t : Trap)
    (hw : s.warps.get? h.uid = some w) (hp : w.splits.get? h.idx = some p) (hs : p.saved = none)
    (htv : (s.parts.get? (s.partOf w)).elim 0 Partition.tvec ≠ 0) :
    ∃ s1 : State, s1.warps = s.warps ∧ s1.mem = s.mem ∧ takeTrap s (h :: rest) sc t =
      (rest.foldl (fun s u => s.mapWarp u.uid fun w => w.suspend u.idx) s1).mapWarp h.uid fun x =>
        x.enterHandler h.idx p t sc (rest.map (·.uid)) ((s.parts.get? (s.partOf w)).elim 0 Partition.tvec) := by
  obtain ⟨_, s1, -, ⟨hwarps, hmem, -⟩, heq⟩ := takeTrap_eq s h rest sc t w p hw hp
  refine ⟨s1, hwarps, hmem, heq.trans (if_neg ?_)⟩
  simpa [hs] using htv

/-- What the handling warp has of p0-p6: the unit's lanes are cleared (R347). -/
theorem Warp.enterHandler_pred (w : Warp) (i : Nat) (p : Split) (t : Trap) (sc : Scope) (others : List Nat) (tvec : Word)
    (q : Pred) : (w.enterHandler i p t sc others tvec).pred q = if q = 7 then allLanes else w.pred q &&& ~~~p.mask := by
  have hpreds : (w.enterHandler i p t sc others tvec).preds = (w.setPreds p.mask []).preds := by
    rw [Warp.enterHandler_eq]
  rw [Warp.pred_congr hpreds, Warp.setPreds_pred]
  simp

/-! ## Where a trap returns to (R192, R351) -/

theorem resumeIdx_word {v : Saved} {tpc : Word} {k : Nat} (h1 : 1 ≤ k) (hc : k ≤ (Header.of v.header).count)
    (hk : k < 2 ^ 60) (ht : tpc = v.pc + BitVec.ofNat 64 (8 * k)) : resumeIdx v tpc = some k := by
  have hd : (tpc - v.pc).toNat = 8 * k := by
    rw [ht, BitVec.add_comm, BitVec.add_sub_cancel, BitVec.toNat_ofNat, Nat.mod_eq_of_lt (by omega)]
  unfold resumeIdx
  simp only [hd]
  rw [if_pos ⟨by omega, by omega, by omega⟩, Nat.mul_div_cancel_left k (by omega)]

theorem resumeIdx_header {v : Saved} {tpc : Word}
    (h : ∀ k, 1 ≤ k → k ≤ (Header.of v.header).count → tpc ≠ v.pc + BitVec.ofNat 64 (8 * k)) :
    resumeIdx v tpc = none := by
  unfold resumeIdx
  refine if_neg fun ⟨hmod, hle, hcount⟩ => h _ (by omega) hcount ?_
  rw [Nat.mul_div_cancel' (Nat.dvd_of_mod_eq_zero hmod), BitVec.ofNat_toNat, BitVec.setWidth_eq, BitVec.add_comm,
    BitVec.sub_add_cancel]

/-- A split resumed at a word within the trapping clause. -/
theorem Split.resumeAt_word {v : Saved} {tpc : Word} {k : Nat} (h : resumeIdx v tpc = some k) (p : Split) (hdr : Word)
    (wt : Wait) (again : Option (List Nat)) : p.resumeAt v tpc hdr wt again =
      { p with pc := v.pc, idx := k, header := hdr, wait := wt, replay := again, origins := [], unchosen := 0 } := by
  unfold Split.resumeAt
  rw [h]

/-- A split resumed at a clause header. -/
theorem Split.resumeAt_header {v : Saved} {tpc : Word} (h : resumeIdx v tpc = none) (p : Split) (hdr : Word)
    (wt : Wait) (again : Option (List Nat)) : p.resumeAt v tpc hdr wt again =
      { p with pc := tpc, idx := 0, wait := .none, replay := none, origins := [], unchosen := 0 } := by
  unfold Split.resumeAt
  rw [h]

/-- Wherever a split resumes, its lanes, fmt, fst and level stay, and whether a halt has stopped it. -/
theorem Split.resumeAt_keeps (p : Split) (v : Saved) (tpc hdr : Word) (wt : Wait) (again : Option (List Nat)) :
    (p.resumeAt v tpc hdr wt again).mask = p.mask ∧ (p.resumeAt v tpc hdr wt again).fmt = p.fmt
      ∧ (p.resumeAt v tpc hdr wt again).fst = p.fst ∧ (p.resumeAt v tpc hdr wt again).saved = p.saved := by
  unfold Split.resumeAt
  split <;> exact ⟨rfl, rfl, rfl, rfl⟩

theorem Split.resumeAt_none (p : Split) (v : Saved) (tpc hdr : Word) (again : Option (List Nat)) :
    (p.resumeAt v tpc hdr .none again).wait = .none := by
  unfold Split.resumeAt
  split <;> rfl

/-- What a warp that resumes does with a split of it. -/
def Split.resumed (q : Split) (v : Saved) (tpc header : Word) : Split :=
  { (if q.wait = .trapped then q.resumeAt v tpc header (if tpc = v.word then .rendezvous v.scope else .none) none else q) with
    stopped := false }

theorem Warp.resume_eq (w : Warp) (v : Saved) (tpc header : Word) : w.resume v tpc header =
    { w with suspended := false, splits := w.splits.mapV fun _ q => q.resumed v tpc header } := rfl

/-! ## The handling split goes on at user level -/

/-- The split record of the lanes that leave the handler. -/
def Split.leaving (p : Split) (v : Saved) (tpc header : Word) (unit : List Nat) : Split :=
  { p with fmt := v.fmt, fst := v.fst, saved := none }.resumeAt v tpc header .none (if tpc = v.word then some unit else none)

theorem Warp.leaveHandler_eq {w : Warp} {i : Nat} {v : Saved} {p : Split} (hp : w.splits.get? i = some p)
    (hv : p.saved = some v) (tpc header : Word) (unit : List Nat) : w.leaveHandler i v tpc header unit = { w with
      preds := (w.setPreds p.mask v.preds).preds
      splits := w.splits.put i (p.leaving v tpc header unit) } := by
  unfold Warp.leaveHandler
  simp only [hp, hv, bne_self_eq_false, Bool.false_eq_true, if_false]
  rw [Warp.setPreds_same]
  rfl

end Sys2Proof.Machine

namespace Sys2Proof
open Machine

/-- Settles O50: the handling warp enters the handler, the other parts are suspended, and what is recorded and counted
touches no warp. -/
theorem trapEntry : Obligations.TrapEntry := by
  unfold Obligations.TrapEntry
  refine ⟨fun s h rest sc t w p hw hp hne hnd => ?_, fun s h rest sc t w p hw hp => ⟨fun hs htv => ?_, fun ha => ?_⟩,
    fun s x w p hw hp hx => ?_⟩
  · intro tvec hs htv
    obtain ⟨s1, hwarps, -, heq⟩ := takeTrap_handled rest sc t hw hp hs htv
    have hget : (takeTrap s (h :: rest) sc t).warps.get? h.uid
        = some (w.enterHandler h.idx p t sc (rest.map (·.uid)) tvec) := by
      rw [heq, State.mapWarp_get, if_pos rfl, suspend_others rest s1 _ hne, hwarps, hw]
      rfl
    have hpred := w.enterHandler_pred h.idx p t sc (rest.map (·.uid)) tvec
    rw [Warp.enterHandler_eq] at hget
    simp only [Warp.enterHandler_eq] at hpred
    exact ⟨_, _, hget, Tab.get?_put_self _ _ _, fun n hn => Tab.get?_put_ne _ _ hn, rfl, rfl, rfl, rfl, rfl, rfl, rfl, hpred,
      rfl, rfl, rfl, rfl, rfl, rfl, rfl, rfl, rfl, rfl, rfl, rfl⟩
  · obtain ⟨s1, hwarps, hmem, heq⟩ := takeTrap_handled rest sc t hw hp hs htv
    refine ⟨?_, fun n hn hr => ?_, fun hnd x hx hxh y hy => ?_⟩
    · rw [heq, State.mapWarp_mem, suspend_mem, hmem]
    · rw [heq, State.mapWarp_get, if_neg hn, suspend_others rest s1 n hr, hwarps]
    · obtain ⟨-, -, hparts⟩ := suspend_parts rest s1 hnd
      rw [heq, State.mapWarp_get, if_neg hxh, hparts x hx, hwarps, hy, Option.map_some]
      exact congrArg some (y.suspend_eq x.idx)
  · obtain ⟨s0, _, hs0, -, heq⟩ := takeTrap_eq s h rest sc t w p hw hp
    obtain ⟨hwarps, hmem, hkernels⟩ := hs0
    refine ⟨s0, hwarps, hmem, hkernels, heq.trans (if_pos ?_)⟩
    simpa using ha
  · show execIllegalOpcode x s = _
    unfold execIllegalOpcode
    simp only [hw, hp, hx, Option.bind_some, Option.map_some, Option.isNone_none, if_true]
    rfl

/-- Settles O51: at the place `resumeIdx` gives, with what the trap saved. -/
theorem trapReturn : Obligations.TrapReturn := by
  unfold Obligations.TrapReturn
  refine ⟨fun w i v tpc header unit p hp hv => ?_, fun s u i w p v hw hp hv => ?_, fun s w v tpc => ⟨fun h => ?_, fun h => ?_⟩,
    fun x v tpc header => ⟨rfl, fun n => ⟨fun hn => ?_, fun q hq => ?_⟩⟩⟩
  · rw [Warp.leaveHandler_eq hp hv]
    have hpred := w.setPreds_pred p.mask v.preds
    generalize w.setPreds p.mask v.preds = w1 at hpred ⊢
    obtain ⟨hmask, hfmt, hfst, hsaved⟩ := Split.resumeAt_keeps { p with fmt := v.fmt, fst := v.fst, saved := none } v tpc
      header .none (if tpc = v.word then some unit else none)
    refine ⟨fun q => (Warp.pred_congr (w := w1) rfl q).trans (hpred q),
      fun n hn => Tab.get?_put_ne _ _ hn, rfl, rfl, rfl, rfl, rfl, rfl,
      p.leaving v tpc header unit, Tab.get?_put_self _ _ _, hfmt, hfst, hsaved, hmask, Split.resumeAt_none _ _ _ _ _,
      fun k h1 hc hk ht => ?_, fun h => ?_⟩
    · rw [Split.leaving, Split.resumeAt_word (resumeIdx_word h1 hc hk ht)]
      exact ⟨rfl, rfl, rfl⟩
    · rw [Split.leaving, Split.resumeAt_header (resumeIdx_header h)]
      exact ⟨rfl, rfl⟩
  · obtain ⟨hwarps, hkernels⟩ := rereadHeader_keeps (s := s) (w := w) (v := v)
      (tpc := w.trapRegs.tpcHi ++ w.trapRegs.tpcLo) rfl
    refine ⟨hwarps, hkernels, fun hf => ?_, fun c hf => ?_⟩
    · unfold returnTrap
      simp only [hw, hp, hv]
      rw [hf]
    · unfold returnTrap
      simp only [hw, hp, hv]
      rw [hf]
  · unfold rereadHeader
    rw [h]
    rfl
  · have hsome : (resumeIdx v tpc).isNone = false := by
      cases hr : resumeIdx v tpc
      · exact absurd hr h
      · rfl
    unfold rereadHeader
    simp only [hsome, Bool.false_eq_true, if_false]
    exact ⟨fun t x hf => by rw [hf], fun c hf => by rw [hf]⟩
  · rw [Warp.resume_eq, Tab.get?_mapV, hn]
    rfl
  · rw [Warp.resume_eq, Tab.get?_mapV, hq]
    refine ⟨_, rfl, rfl, fun hne => by simp only [Split.resumed, if_neg hne], fun ht => ?_⟩
    simp only [Split.resumed, if_pos ht]
    obtain ⟨hmask, hfmt, hfst, hsaved⟩ := q.resumeAt_keeps v tpc header (if tpc = v.word then .rendezvous v.scope else .none)
      none
    refine ⟨hmask, hfmt, hfst, hsaved, fun k h1 hc hk htpc => ?_, fun h => ?_⟩
    · rw [Split.resumeAt_word (resumeIdx_word h1 hc hk htpc)]
      exact ⟨rfl, rfl, rfl, rfl⟩
    · rw [Split.resumeAt_header (resumeIdx_header h)]
      exact ⟨rfl, rfl, rfl⟩

end Sys2Proof
end

section
/-! PROOFS. What stores, loads and translations leave unchanged (R90, R271, R275). -/

namespace Sys2Proof.Machine

/-! ## Caches leave the regions of a partition -/

/-- What every step of a pass leaves, the pass leaves. -/
theorem State.foldl_leaves {α β : Type} {f : State → α → State} (g : State → β) (hf : ∀ s a, g (f s a) = g s)
    (xs : List α) (s : State) : g (xs.foldl f s) = g s := by
  induction xs generalizing s with
  | nil => rfl
  | cons a xs ih => exact (ih _).trans (hf s a)

theorem State.region?_congr {s t : State} (h : t.parts = s.parts) (part r : Nat) : t.region? part r = s.region? part r := by
  unfold State.region?
  rw [h]

/-- A change of a partition that leaves its regions. -/
theorem State.region?_mapPart (s : State) (n : Nat) {f : Partition → Partition} (hf : ∀ p, (f p).regions = p.regions)
    (part r : Nat) : (s.mapPart n f).region? part r = s.region? part r := by
  unfold State.region?
  rw [State.mapPart_get]
  split
  next =>
    cases s.parts.get? part
    · rfl
    · exact congrArg (Tab.get? · r) (hf _)
  next => rfl

theorem State.event_parts (s : State) (core : Nat) (block : Option Nat) (src n : Nat) :
    (s.event core block src n).parts = s.parts := by
  unfold State.event
  split
  next => split <;> rfl
  next => rfl

theorem State.dieEvent_parts (s : State) (core src n : Nat) : (s.dieEvent core src n).parts = s.parts := by
  unfold State.dieEvent
  split
  next => rfl
  next =>
    refine State.foldl_leaves State.parts (fun t i => ?_) _ s
    dsimp only
    split <;> rfl

theorem flit_parts (s : State) (src dst line : Nat) : (flit s src dst line).parts = s.parts := by
  unfold flit
  split
  · rfl
  · exact State.dieEvent_parts _ _ _ _

variable {part r : Nat}

theorem recallFlits_region? (s : State) (p : Nat) (keep : Option Nat) (line : Nat) (write : Bool) :
    (recallFlits s p keep line write).region? part r = s.region? part r := by
  unfold recallFlits
  split
  · rfl
  · exact State.foldl_leaves (State.region? · part r) (fun t d => State.region?_congr ((flit_parts _ _ _ _).trans (flit_parts _ _ _ _)) _ _) _ _

theorem recallOthers_region? (s : State) (p core line : Nat) (write : Bool) :
    (recallOthers s p core line write).region? part r = s.region? part r := by
  unfold recallOthers
  refine (State.region?_mapPart _ _ (fun _ => ?_) _ _).trans (recallFlits_region? s p _ line write)
  rfl

theorem recallLine_region? (s : State) (p : Nat) (keep : Option Nat) (line : Nat) (write : Bool) :
    (recallLine s p keep line write).region? part r = s.region? part r := by
  refine State.region?_mapPart _ _ (fun _ => ?_) _ _
  rfl

theorem Partition.llcPut_regions (p : Partition) (step line : Nat) (cls : Option Nat) (pol : Policy) :
    (p.llcPut step line cls pol).regions = p.regions := by
  unfold Partition.llcPut
  split <;> rfl

theorem Partition.arrive_regions (p : Partition) (step : Nat) (who : Option (Nat × Word)) (line : Nat) (pol : Policy) :
    (p.arrive step who line pol).regions = p.regions := by
  unfold Partition.arrive
  split
  · exact Partition.llcPut_regions _ _ _ _ _
  · exact Partition.llcPut_regions _ _ _ _ _

theorem coreArrives_region? (s : State) (p core block : Nat) (who : Option (Nat × Word)) (line : Nat) (pol : Policy) :
    (coreArrives s p core block who line pol).region? part r = s.region? part r := by
  have hcross : (crossDies s p core line).parts = s.parts := by
    unfold crossDies
    split
    · rfl
    · exact (flit_parts _ _ _ _).trans (flit_parts _ _ _ _)
  unfold coreArrives arriveHome
  dsimp only
  rw [State.region?_mapPart _ _ fun q => q.arrive_regions _ _ _ _]
  refine State.region?_congr ?_ _ _
  split
  · exact hcross
  · exact (State.event_parts _ _ _ _ _).trans hcross

theorem l2Use_region? (s : State) (p die line : Nat) (pol : Policy) (own : Bool) :
    (l2Use s p die line pol own).region? part r = s.region? part r := by
  unfold l2Use
  split
  next => rfl
  next q _ =>
    split
    next =>
      refine State.region?_mapPart _ _ (fun _ => ?_) _ _
      rfl
    next =>
      dsimp only
      refine (State.region?_mapPart _ _ (fun _ => ?_) _ _).trans (State.region?_congr ?_ _ _)
      · rfl
      cases (fillSet (q.l2At die) (fun l => q.l2Same l line) 16 line ⟨own, pol == .retain, fillUse s.draws pol, 0⟩).2
      · rfl
      · dsimp only [Option.elim]
        split
        · exact flit_parts _ _ _ _
        · rfl

theorem throughL2_region? (s : State) (p core block : Nat) (who : Option (Nat × Word)) (line : Nat) (pol : Policy)
    (own : Bool) : (throughL2 s p core block who line pol own).region? part r = s.region? part r := by
  have hmiss : ∀ held : Bool, (if held then s else (s.event core (some block) 5 1).dieEvent core 1 1).parts = s.parts := by
    intro held
    split
    · rfl
    · exact (State.dieEvent_parts _ _ _ _).trans (State.event_parts _ _ _ _ _)
  unfold throughL2
  dsimp only
  rw [l2Use_region?]
  split
  · exact State.region?_congr (hmiss _) _ _
  · exact (coreArrives_region? _ _ _ _ _ _ _).trans (State.region?_congr (hmiss _) _ _)

theorem cacheAccess_region? (s : State) (p core block : Nat) (who : Option (Nat × Word)) (line : Nat) (pol : Policy)
    (write : Bool) : (cacheAccess s p core block who line pol write).region? part r = s.region? part r := by
  unfold cacheAccess
  dsimp only
  rw [State.region?_congr (State.mapCore_parts _ _ _)]
  split
  · split
    · rw [throughL2_region?, recallOthers_region?]
    · exact recallOthers_region? _ _ _ _ _
  · rw [throughL2_region?, State.region?_congr (State.event_parts _ _ _ _ _), recallOthers_region?]

theorem touchWindow_region? (s : State) (p core block : Nat) (who : Option (Nat × Word)) (n line : Nat) (write : Bool) :
    (touchWindow s p core block who n line write).region? part r = s.region? part r := by
  unfold touchWindow
  dsimp only
  rw [State.region?_congr (State.mapBlock_parts _ _ _), recallLine_region?]
  split
  · rfl
  · rw [coreArrives_region?, recallFlits_region?]

theorem touchAll_region? (s : State) (u : IssueUnit) (pol : Policy) (write : Bool) (as : List LaneAcc) :
    (touchAll s u pol write as).region? part r = s.region? part r := by
  refine State.foldl_leaves (State.region? · part r) (fun t x => ?_) _ s
  unfold touch
  split
  · exact touchWindow_region? _ _ _ _ _ _ _ _
  · exact cacheAccess_region? _ _ _ _ _ _ _ _

/-- The bytes of a place are where they were before the caches were used. -/
theorem placeCells_touchAll (s : State) (u : IssueUnit) (pol : Policy) (write : Bool) (as : List LaneAcc) (p : Place)
    (bs : List Byte) : placeCells (touchAll s u pol write as) part p bs = placeCells s part p bs := by
  unfold placeCells
  simp only [touchAll_region?]

/-! ## What a load in flight leaves of the warps (R50, R197) -/

/-- Between two states warps differ in their rows awaited and their flags alone. -/
def MarksOnly (s t : State) : Prop :=
  ∀ n y, s.warps.get? n = some y → ∃ y', t.warps.get? n = some y' ∧ y' = { y with pending := y'.pending, flags := y'.flags }

theorem MarksOnly.of_warps {s t : State} (h : t.warps = s.warps) : MarksOnly s t :=
  fun _ y hy => ⟨y, h ▸ hy, rfl⟩

theorem MarksOnly.trans {s t r : State} (h : MarksOnly s t) (h' : MarksOnly t r) : MarksOnly s r := by
  intro n y hy
  obtain ⟨y1, hy1, he1⟩ := h n y hy
  obtain ⟨y2, hy2, he2⟩ := h' n y1 hy1
  refine ⟨y2, hy2, he2.trans ?_⟩
  rw [he1]

theorem MarksOnly.mapWarp (s : State) (u : Nat) {f : Warp → Warp}
    (hf : ∀ w, f w = { w with pending := (f w).pending, flags := (f w).flags }) : MarksOnly s (s.mapWarp u f) := by
  intro n y hy
  rw [State.mapWarp_get, hy]
  split
  · exact ⟨f y, rfl, hf y⟩
  · exact ⟨y, rfl, rfl⟩

theorem MarksOnly.foldl {α : Type} {f : State → α → State} (hf : ∀ s a, MarksOnly s (f s a)) (xs : List α) (s : State) :
    MarksOnly s (xs.foldl f s) := by
  induction xs generalizing s with
  | nil => exact .of_warps rfl
  | cons a xs ih => exact (hf s a).trans (ih _)

theorem reserve_marksOnly (s : State) (u : IssueUnit) (d : Reg) (n : Nat) : MarksOnly s (reserve s u d n) :=
  .foldl (fun t p => by
    split
    · exact .of_warps rfl
    · exact .mapWarp _ _ fun _ => rfl) _ s

theorem startCommand_marksOnly (s : State) (part : Nat) (warps : List (Nat × Lanes)) (flag block : Nat) (tiles : List Nat)
    (queue : Option Nat) (conflict : Bool) (work : Work) :
    MarksOnly s (startCommand s part warps flag block tiles queue conflict work) := by
  refine (MarksOnly.foldl (fun t u => MarksOnly.mapWarp t u.1 (f := fun w => w.setFlag flag
    { w.flag flag with count := (w.flag flag).count + 1 }) fun w => ?_) warps s).trans (.of_warps rfl)
  unfold Warp.setFlag
  split <;> rfl

theorem startLoad_marksOnly (u : IssueUnit) (h : Head) (s : State) (d : Reg) (size : Nat) (pd : Option Pred) (opcode : Nat)
    (lanes : List LaneLoad) (as : List LaneAcc) : MarksOnly s (startLoad u h s d size pd opcode lanes as) :=
  ((reserve_marksOnly s u d _).trans (.of_warps (askAll_keeps _ _).1)).trans (startCommand_marksOnly _ _ _ _ _ _ _ _ _)

theorem startLoad_kernels (u : IssueUnit) (h : Head) (s : State) (d : Reg) (size : Nat) (pd : Option Pred) (opcode : Nat)
    (lanes : List LaneLoad) (as : List LaneAcc) : (startLoad u h s d size pd opcode lanes as).kernels = s.kernels := by
  have hstart : ∀ (t : State) w, (u.start t h [] none w).kernels = t.kernels := by
    intro t w
    refine State.foldl_leaves State.kernels (fun t x => ?_) u.warps t
    exact State.mapWarp_kernels t x.1 _
  have hreserve : (reserve s u d (sizeRegs size)).kernels = s.kernels :=
    State.foldl_leaves State.kernels (fun t p => by
      split
      · rfl
      · exact State.mapWarp_kernels _ _ _) u.parts s
  exact (hstart _ _).trans ((askAll_keeps _ _).2.trans hreserve)

/-! ## Translations that are cached (R90) -/

/-- A cached translation serves an access that neither writes an unmarked page nor needs another walk. -/
theorem TlbEntry.walksAgain_false {e : TlbEntry} {acc : Acc}
    (hw : acc.writes = true → ebit e.leaf 9 = true ∧ ebit e.leaf 18 = false)
    (ha : acc.hints = false → ebit e.leaf 8 = true) (hd : acc ≠ .discard) : e.walksAgain acc = false := by
  unfold TlbEntry.walksAgain
  have h1 : (acc.writes && (!ebit e.leaf 9 || ebit e.leaf 18)) = false := by
    cases h : acc.writes
    · rfl
    · simp [hw h]
  have h2 : (!acc.hints && !ebit e.leaf 8) = false := by
    cases h : acc.hints
    · simp [ha h]
    · rfl
  rw [h1, h2]
  simpa using hd

theorem xlate_cached {s s1 : State} {part asid : Nat} {ea : Word} {acc : Acc} {p : Partition} {e : TlbEntry} {x : Xlat}
    (hp : s.parts.get? part = some p) (he : p.tlb.get? (tlbKey asid ea) = some e) (ha : e.walksAgain acc = false)
    (hx : xlate s part asid ea acc = .ok (s1, x)) : s1 = s ∧ x.leaf = e.leaf := by
  unfold xlate at hx
  simp only [hp, Option.bind_some, he, ha, Bool.false_eq_true, if_false] at hx
  split_ifs at hx
  cases hx
  exact ⟨rfl, rfl⟩

theorem framePlace_read {s s1 : State} {part asid : Nat} {va : Word} {acc : Acc} {x : Xlat} {k : Key} {pl : Place}
    (hw : acc.writes = true → ebit x.leaf 18 = false) (h : framePlace s part asid va acc x k = .ok (s1, pl)) : s1 = s := by
  unfold framePlace at h
  dsimp only at h
  split at h
  next hd =>
    rw [if_neg fun hc => Bool.false_ne_true ((hw hc).symm.trans hd)] at h
    cases h
    rfl
  next =>
    cases h
    rfl

theorem classPlace_read {s s1 : State} {part asid : Nat} {va : Word} {acc : Acc} {x : Xlat} {pl : Place}
    (hw : acc.writes = true → ebit x.leaf 18 = false) (h : classPlace s part asid va acc x = .ok (s1, pl)) : s1 = s := by
  unfold classPlace at h
  split at h
  next =>
    unfold absentPlace at h
    split at h <;> cases h <;> rfl
  next =>
    split at h
    next => cases h
    next k _ =>
      unfold keyedPlace at h
      dsimp only at h
      split at h
      · split at h
        · cases h
        · cases h
        · exact framePlace_read hw h
      · split at h
        · split at h
          · cases h
          · cases h
          · split at h <;> cases h
            rfl
        · split at h
          · split at h <;> cases h
            rfl
          · split at h <;> cases h <;> rfl

theorem resolve_cached {s s1 : State} {part asid blk : Nat} {ea : Word} {n : Nat} {acc : Acc} {p : Partition}
    {e : TlbEntry} {pl : Place} (hap : inAperture ea = false) (hp : s.parts.get? part = some p)
    (he : p.tlb.get? (tlbKey asid ea) = some e) (ha : e.walksAgain acc = false)
    (hw : acc.writes = true → ebit e.leaf 18 = false) (h : resolve s part asid blk ea n acc = .ok (s1, pl)) : s1 = s := by
  unfold resolve at h
  simp only [hap, Bool.false_eq_true, if_false] at h
  split at h
  next => cases h
  next =>
    split at h
    next => cases h
    next s2 x hx =>
      obtain ⟨rfl, hleaf⟩ := xlate_cached hp he ha hx
      exact classPlace_read (hleaf ▸ hw) h

end Sys2Proof.Machine

namespace Sys2Proof
open Machine

/-- Settles O55: the writes change the bytes of their cells, the caches keep the regions that place them, and a load that
starts marks rows and flags. -/
theorem storesAndLoadsFrame : Obligations.StoresAndLoadsFrame := by
  unfold Obligations.StoresAndLoadsFrame
  refine ⟨fun h t d m off s s1 u => ?_, fun h t d m off s s1 u => ?_, fun s part => rfl,
    fun s part asid blk ea n acc p e hap hp he hw ha hd s1 pl h => ?_⟩
  · intro n w c born hi hu hww hsw ht hres hmiss hfull
    have hdone : storeEffect u s1 w d n m (u.addrs s1 m off.toInt n) = .done (writePlaces (touchAll born.1 u m.policy true c.2)
        u.part (c.2.map fun a => (a.place, storeBytes u s1 d n a.part a.lane))) :=
      storeEffect_done (got := c.1) hu hww hsw rfl ht hres (by rw [hmiss]; rfl) hmiss rfl hfull
    have hexec := exec_issues (i := .st h t d m off) rfl (fun s => show execSt h t d m off s = _ from rfl) hi
    rw [hdone] at hexec
    have hborn := births_keeps true c.1 u.part (tilesOf c.2) []
    have hchecks := checkLanes_keeps u n n .store w (u.addrs s1 m off.toInt n)
    refine ⟨_, hexec, fun hr => ?_, ?_, ?_, fun pa hpa => ?_⟩
    · rw [hexec]
      unfold settleEffect
      dsimp only
      rw [hr]
      rfl
    · exact (writePlaces_keeps _ _ _).1.trans ((touchAll_keeps _ _ _ _ _).1.trans (hborn.1.trans hchecks.1))
    · exact (writePlaces_keeps _ _ _).2.trans ((touchAll_keeps _ _ _ _ _).2.trans (hborn.2.trans hchecks.2))
    · unfold State.byte
      rw [writePlaces_num, touchAll_mem]
      intro x hx cell hcell
      obtain ⟨a, ha, rfl⟩ := List.mem_map.1 hx
      rw [placeCells_touchAll] at hcell
      exact hpa a ha cell hcell
  · intro n w c touched t1 hi hu hr ht
    have hdone : loadEffect u h s1 w d n none u.opcode .load m.policy (u.addrs s1 m off.toInt n) (fun _ _ => true)
        = .done t1 := loadEffect_done hu hr rfl ht rfl
    have hexec := exec_issues (i := .ld h t d m off) rfl (fun s => show execLd h t d m off s = _ from rfl) hi
    rw [hdone] at hexec
    have hchecks := checkLanes_keeps u n n .load w (u.addrs s1 m off.toInt n)
    have htouch := touchAll_keeps c.1 u m.policy false c.2
    refine ⟨hexec, fun hr => ?_, ?_, ?_, ?_⟩
    · rw [hexec]
      unfold settleEffect
      dsimp only
      rw [hr]
      rfl
    · exact (startLoad_mem _ _ _ _ _ _ _ _ _).trans (touchAll_mem _ _ _ _ _)
    · exact (startLoad_kernels _ _ _ _ _ _ _ _ _).trans (htouch.2.trans hchecks.2)
    · exact (MarksOnly.of_warps (htouch.1.trans hchecks.1)).trans (startLoad_marksOnly _ _ _ _ _ _ _ _ _)
  · exact resolve_cached hap hp he (TlbEntry.walksAgain_false hw ha hd) (fun hc => (hw hc).2) h

end Sys2Proof
end

section
/-! PROOFS. What a step runs (R167, R192). -/

namespace Sys2Proof.Machine

/-- A split whose kernel goes on and whose partition lets it issue. -/
theorem splitMove_goesOn {s : State} {uid i : Nat} {w : Warp} {p : Split} (ha : s.warpAborted w = false)
    (hh : s.warpHalting w = false ∨ p.atSafePoint = false) :
    (p.idx = 0 → splitMove s uid i w p = .run .clauseHeaderFetch s)
      ∧ (p.idx ≠ 0 → dominatedLanes s w p = 0 → splitMove s uid i w p = wordMove s uid i w p) := by
  have hsafe : (s.warpHalting w && p.atSafePoint) = false := by
    rcases hh with h | h
    · rw [h, Bool.false_and]
    · rw [h, Bool.and_false]
  unfold splitMove
  simp only [ha, hsafe, Bool.false_eq_true, if_false]
  refine ⟨fun h0 => by rw [if_pos h0], fun h0 hd => ?_⟩
  rw [if_neg h0]
  simp only [hd, if_true]

/-- A split at a word that can be fetched and decodes runs its instruction. -/
theorem wordMove_decodes {s c : State} {uid i : Nat} {w : Warp} {p : Split} {x : Word} {ins : Instr}
    (hf : fetchWord s (s.partOf w) (s.asidOf w) w.block p.at_ = .ok (c, x)) (hd : decode x = .ok ins) :
    wordMove s uid i w p = .run ins c := by
  unfold wordMove
  rw [hf]
  dsimp only
  rw [hd]

theorem step_run {s c : State} {i : Instr} (h : nextMove s = .run i c) : step s = exec i c := by
  unfold step
  rw [h]

/-- The scheduler whose turn it is. -/
theorem nextMove_port {s a : State} {n : Nat} (h : (∃ r, s.agenda = .port n :: r ∧ a = tick { s with agenda := r })
      ∨ (s.agenda = [] ∧ s.draws % 8 ≠ 7 ∧ a = tick s ∧ headerSplit a = none ∧ nearestPort a = some n)) :
    nextMove s = portMove a n := by
  unfold nextMove
  rcases h with ⟨r, hr, rfl⟩ | ⟨hr, hd, rfl, hh, hn⟩
  · rw [hr]
  · rw [hr]
    simp only [hd, if_false, hh, hn]

end Sys2Proof.Machine

namespace Sys2Proof
open Machine

/-- Settles O44: the next move is that of the split chosen, of the split at a header, or of the agenda's event. -/
theorem stepRunsTheFetchedWord : Obligations.StepRunsTheFetchedWord := by
  unfold Obligations.StepRunsTheFetchedWord
  refine ⟨fun s a n uid w i p hturn => ?_, fun s part asid blk va c place hal hres hlost => ?_,
    fun s uid w i p hag hd hhead h0 => ?_, fun s r i hag hnone hill => ?_⟩
  · intro f hchoose b hab hhalt c x ins h0 hdom hfetch hdec
    refine step_run ((nextMove_port hturn).trans ?_)
    have hport : portMove a n = splitMove b uid i w p := by
      unfold portMove
      dsimp only
      rw [show choose { freshClk a n with port := (n + 1) % 1024 } n = some (uid, w, i, p) from hchoose]
    rw [hport, (splitMove_goesOn hab hhalt).2 h0 hdom, wordMove_decodes hfetch hdec]
  · refine ⟨touchText c part asid blk va place, ?_⟩
    unfold fetchWord
    simp only [hal, ne_eq, not_true_eq_false, if_false, hres, hlost, Bool.false_eq_true]
  · intro b hab hhalt
    refine step_run ?_
    have hmove : nextMove s = headerMove (tick s) (uid, w, i, p) := by
      unfold nextMove
      rw [hag]
      simp only [hd, if_false, hhead]
    rw [hmove]
    exact (splitMove_goesOn hab hhalt).1 h0
  · refine step_run ?_
    have hev : Instr.isEvent i = true := by
      unfold Instr.isEvent
      rw [hnone]
      split
      next x => exact absurd rfl (hill x)
      next => rfl
    unfold nextMove
    rw [hag]
    simp only [hev, if_true]

end Sys2Proof
end

section
/-! PROOFS. Clause headers, ageing of splits and stopping of warps (R136, R167, R190-R196, R200, R354). -/

namespace Sys2Proof.Machine

/-! ## The clause header (R190-R195, R200) -/

theorem exec_clauseHeaderFetch {s : State} {w x : Warp} {p q : Split} (hw : s.warps.get? s.act.1 = some w)
    (hp : w.splits.get? s.act.2 = some p) (hsus : w.suspended = false) (hat : p.atHeader = true)
    (hx : w.mergeAll s.act.2 p.coincides = x) (hq : x.splits.get? s.act.2 = some q) :
    exec .clauseHeaderFetch s = .next (headerFetch (s.setWarp s.act.1 x) s.act.1 s.act.2 x q) := by
  show execClauseHeaderFetch s = _
  unfold execClauseHeaderFetch
  simp only [hw, hp, hsus, hat, hx, State.setWarp_get, if_true, Option.bind_some, hq, Option.map_some, Bool.not_true,
    Bool.or_self, Bool.false_eq_true, if_false]

/-- A header that has been fetched is obeyed. -/
theorem headerFetch_fetched {s s1 : State} {uid i : Nat} {w w1 : Warp} {q : Split} {header : Word} (hq : q.wait ≠ .flags)
    (hf : fetchWord s (s.partOf w) (s.asidOf w) w.block q.pc = .ok (s1, header)) (hw : s1.warps.get? uid = some w1) :
    headerFetch s uid i w q = headerArrive s1 uid i w1 q header := by
  unfold headerFetch
  rw [if_neg hq, hf]
  dsimp only
  rw [hw]

theorem headerFetch_waiting {s : State} {uid i : Nat} {w : Warp} {p : Split} (hp : p.wait = .flags) :
    headerFetch s uid i w p = headerWait s uid i w p p.header := by
  unfold headerFetch
  rw [if_pos hp]

section
variable {s : State} {uid i : Nat} {w : Warp} {q : Split} {header : Word}

theorem headerArrive_illegal (h : (Header.of header).legal = false) : headerArrive s uid i w q header =
    takeWordTrap s uid i w q Code.illegalClause (lo32 header) (hi32 header) 0 0 := by
  unfold headerArrive
  simp only [h, Bool.not_false, if_true]

variable (hlegal : (Header.of header).legal = true)
include hlegal

theorem headerArrive_pageFault {c : Nat} {va : Word} (h : pageCheck s w q.pc (Header.of header) = some (c, va)) :
    headerArrive s uid i w q header =
      takeTrap s [soloPart uid i q] .lane { fetchTrap c va w q with tpc := q.pc } := by
  unfold headerArrive
  simp only [hlegal, Bool.not_true, Bool.false_eq_true, if_false, h]

variable (hpage : pageCheck s w q.pc (Header.of header) = none)
include hpage

theorem headerArrive_reconverges {d : Div} (hr : (Header.of header).reconv = true) (hd : q.reconvAt q.pc = some d) :
    headerArrive s uid i w q header = afterWait (s.mapSplit uid i fun y => { y with wait := .reconv d.id }) w.block := by
  unfold headerArrive
  simp only [hlegal, Bool.not_true, Bool.false_eq_true, if_false, hpage, hr, if_true, hd]

theorem headerArrive_waits (hr : (Header.of header).reconv = false ∨ q.reconvAt q.pc = none) :
    headerArrive s uid i w q header = headerWait s uid i w q header := by
  have hnone : (if (Header.of header).reconv then q.reconvAt q.pc else none) = none := by
    rcases hr with hr | hr
    · simp [hr]
    · simp [hr]
  unfold headerArrive
  simp only [hlegal, Bool.not_true, Bool.false_eq_true, if_false, hpage, hnone]

end

/-- With no record to trap, a header waits for its flags alone. -/
theorem headerWait_noRecord {w : Warp} {q : Split} {header : Word}
    (h : q.saved.isSome ∨ waitedRecords w (Header.of header).wait = []) (s : State) (uid i : Nat) :
    headerWait s uid i w q header = if w.flagsSet (Header.of header).wait then
      s.mapSplit uid i fun y => { y with header := header, idx := 1, wait := .none, origins := [] }
    else s.mapSplit uid i fun y => { y with header := header, wait := .flags } := by
  have hrecs : (if q.saved.isSome then [] else waitedRecords w (Header.of header).wait) = [] := by
    rcases h with h | h
    · rw [if_pos h]
    · rw [h, ite_self]
  unfold headerWait
  simp only [hrecs]
  rfl

/-! ## Ageing (R137, R167) -/

theorem exec_splitAged {warp idx : Nat} {s : State} {w : Warp} {p : Split} (hw : s.warps.get? warp = some w)
    (hp : w.splits.get? idx = some p) (hr : splitReady s warp w p = true) : exec (.splitAged warp idx) s =
      if decide (256 ≤ p.unchosen) then .next { s with agenda := s.agenda ++ [.port w.port] } else .next s := by
  show execSplitAged warp idx s = _
  unfold execSplitAged
  simp only [hw, hp, hr, Option.bind_some, Option.map_some, Bool.true_and]

/-- In the choice an aged split comes first. -/
theorem choiceKey_aged (s : State) {x y : Nat × Warp × Nat × Split} (hx : 256 ≤ x.2.2.2.unchosen)
    (hy : y.2.2.2.unchosen < 256) :
    keyLt (choiceKey s x) (choiceKey s y) = true ∧ keyLt (choiceKey s y) (choiceKey s x) = false := by
  unfold choiceKey
  dsimp only
  rw [if_pos hx, if_neg (Nat.not_le.2 hy)]
  exact ⟨rfl, rfl⟩

/-! ## Stopping of warps (R91, R354) -/

theorem exec_warpPreempt {warp : Nat} {s : State} {w : Warp} {p : Partition} (hw : s.warps.get? warp = some w)
    (hp : s.parts.get? (s.partOf w) = some p) (hh : p.halt = .halting) : exec (.warpPreempt warp) s =
      .next ((dropPages s warp).setWarp warp { w with splits := w.splits.mapV fun _ p =>
        if w.suspended || p.atSafePoint then { p with stopped := true } else p }) := by
  show execWarpPreempt warp s = _
  unfold execWarpPreempt
  simp only [hw, hp, hh, Option.elim_some, beq_self_eq_true, if_true]

end Sys2Proof.Machine

namespace Sys2Proof
open Machine

/-- Settles O34: each answer of a header, the ageing that passing time counts, and the splits that stop. -/
theorem headersAgeingAndHalting : Obligations.HeadersAgeingAndHalting := by
  unfold Obligations.HeadersAgeingAndHalting
  refine ⟨fun s w p q s1 w1 header hw hp hsus hidx hstop => ⟨fun hwait => ?_, fun hwait hmerge hrec hflags => ?_⟩,
    fun warp idx s w p hw hp hr => ⟨fun h => ?_, fun h => ?_⟩, fun s x y hx hy => choiceKey_aged s hx hy,
    fun s uid idx w p d hw hp => ?_, fun s => rfl, fun warp s w p hw hp hh => ?_⟩
  · intro x s0 hq hqw hfetch hw1
    have hat : p.atHeader = true := by simp [Split.atHeader, hidx, hstop, hwait]
    have hexec : exec .clauseHeaderFetch s = .next (headerArrive s1 s.act.1 s.act.2 w1 q header) := by
      rw [exec_clauseHeaderFetch hw hp hsus hat rfl hq, headerFetch_fetched (by rw [hqw]; exact Wait.noConfusion) hfetch hw1]
    refine ⟨fun hl => ?_, fun c va hl hpg => ?_, fun hl hpg => ⟨fun d hr hd => ?_, fun hr hrec => ⟨fun hf => ?_, fun hf => ?_⟩⟩⟩
    · rw [hexec, headerArrive_illegal hl]
    · rw [hexec, headerArrive_pageFault hl hpg]
      rfl
    · rw [hexec, headerArrive_reconverges hl hpg hr hd]
    · rw [hexec, headerArrive_waits hl hpg hr, headerWait_noRecord hrec, if_pos hf]
    · rw [hexec, headerArrive_waits hl hpg hr, headerWait_noRecord hrec, if_neg (by rw [hf]; exact Bool.false_ne_true)]
  · have hat : p.atHeader = true := by simp [Split.atHeader, hidx, hstop, hwait]
    rw [exec_clauseHeaderFetch hw hp hsus hat hmerge hp, headerFetch_waiting hwait, headerWait_noRecord hrec, if_pos hflags]
  · rw [exec_splitAged hw hp hr, if_pos (decide_eq_true h)]
    rfl
  · rw [exec_splitAged hw hp hr, if_neg (by simpa using h)]
  · obtain ⟨w', hw', hp'⟩ := passTime_split d hw hp
    refine ⟨w', _, hw', hp', fun hr hi => ?_, fun hr hi => ?_, fun hr => ?_⟩
    · simp [State.passSplit, hr, State.unissued, hi]
    · simp [State.passSplit, hr, State.unissued, hi]
    · simp [State.passSplit, hr]
  · refine ⟨_, exec_warpPreempt hw hp hh, rfl, fun n hn => ?_, _, by rw [State.setWarp_get, if_pos rfl], rfl, fun i => ?_⟩
    · rw [State.setWarp_get, if_neg hn]
      rfl
    · rw [Tab.get?_mapV]
      simp only [Bool.or_eq_true]

end Sys2Proof
end

section
/-! PROOFS. Launch slots, placement of blocks and retirement (R152-R160, R356-R366). -/

namespace Sys2Proof.Machine

/-! ## The arm word of a launch slot -/

/-- The arm word is written, and the home observes it. -/
theorem exec_launchSlotArm {part slot : Nat} {arm : Half} {s t : State} {p : Partition} (hp : s.parts.get? part = some p)
    (hslot : slot < 64) (ht : writeBytes s (p.key 0) (p.frame + 128 * slot + 56) (leBytes 4 arm.toNat) = t) :
    exec (.launchSlotArm part slot arm) s = .next (observeArm t part slot arm) := by
  show execLaunchSlotArm part slot arm s = _
  unfold execLaunchSlotArm
  simp only [hp, Nat.not_le.2 hslot, if_false, ht]

section
variable {t : State} {part slot : Nat} {arm : Half} {p : Partition} (hp : t.parts.get? part = some p)
include hp

theorem observeArm_clear (ha : arm.getLsbD 0 = false) : observeArm t part slot arm = t := by
  unfold observeArm
  simp only [hp, ha, Bool.not_false, if_true]

theorem observeArm_busy (ha : arm.getLsbD 0 = true) (hb : slotState t part slot = 1 ∨ slotState t part slot = 2) :
    observeArm t part slot arm = t.countErr Source.kiln part 12 (BitVec.ofNat 64 slot) := by
  unfold observeArm
  simp only [hp, ha, Bool.not_true, Bool.false_eq_true, if_false, if_pos hb]

/-- A free slot is answered by what its record is refused for. -/
theorem observeArm_free (ha : arm.getLsbD 0 = true) (h1 : slotState t part slot ≠ 1) (h2 : slotState t part slot ≠ 2)
    {why : Option Refused} (hwhy : LaunchRec.refusal t part (slotAsid t part slot) (slotRecord t p slot)
      (slotReserved t part slot arm) = why) : observeArm t part slot arm = match (generalizing := false) why with
      | some .malformed => slotStatus (refusedWord t part (slotAsid t part slot) (slotRecord t p slot) (arm >>> 16) 1) part slot
          (arm >>> 16) 1 4
      | some .never => slotStatus (refusedWord t part (slotAsid t part slot) (slotRecord t p slot) (arm >>> 16) 2) part slot
          (arm >>> 16) 2 4
      | some .cwa => slotStatus t part slot (arm >>> 16) 3 4
      | none => slotStatus (acceptKernel t (LaunchRec.kernel (slotRecord t p slot) t part (slotAsid t part slot) 0 none
          (some slot) none (arm >>> 16) [])) part slot (arm >>> 16) 0 1 := by
  unfold observeArm
  simp only [hp, ha, Bool.not_true, Bool.false_eq_true, if_false, h1, h2, or_self, hwhy] <;> rfl

end

/-! ## Placement -/

theorem exec_blockPlacement_first {part : Nat} {s : State} {p : Partition} {kid : Nat} {k : Kernel}
    (hp : s.parts.get? part = some p) (hrun : p.halt = .running) (hheld : heldCores s p = [])
    (hfirst : firstReady s part = some (kid, k)) :
    exec (.blockPlacement part) s = .next (startPlacement s p kid k) := by
  show execBlockPlacement part s = _
  unfold execBlockPlacement
  simp only [hp, hrun, ne_eq, not_true_eq_false, if_false, hheld, hfirst]

theorem exec_blockPlacement_held {part : Nat} {s : State} {p : Partition} {hs : List (Nat × Nat)}
    (hp : s.parts.get? part = some p) (hrun : p.halt = .running) (hheld : heldCores s p = hs) (hne : hs ≠ []) :
    exec (.blockPlacement part) s =
      .next (if hs.any fun h => (s.core h.1).admitting then s else finishPlacement s hs) := by
  show execBlockPlacement part s = _
  unfold execBlockPlacement
  simp only [hp, hrun, ne_eq, not_true_eq_false, if_false, hheld]

theorem startPlacement_chosen {s : State} {p : Partition} {k : Kernel} {cores : List Nat} (kid : Nat)
    (h : choosePlacement s p k = some cores) : startPlacement s p kid k =
      if cores.all fun c => fitsNow s c k.ask then placeOn s.draw kid k cores
      else startAdmission s.draw kid false k.ask cores := by
  unfold startPlacement
  simp only [h]

/-- An admission that every core has ended places its block or gang. -/
theorem finishPlacement_fits {s : State} {hs : List (Nat × Nat)} {kid : Nat} {k : Kernel}
    (hkid : (hs.map (·.2)).head? = some kid) (hk : (releaseHeld s (hs.map (·.1))).kernels.get? kid = some k)
    (hready : k.ready (releaseHeld s (hs.map (·.1))) = true) (hlen : hs.length = k.gblk + 1)
    (hfits : ∀ h ∈ hs, fitsNow (releaseHeld s (hs.map (·.1))) h.1 k.ask = true) :
    finishPlacement s hs = placeOn (releaseHeld s (hs.map (·.1))) kid k (hs.map (·.1)) := by
  have hhead : (hs.head?).elim 0 (·.2) = kid := by
    cases hs with
    | nil => cases hkid
    | cons a r => exact Option.some.inj hkid
  unfold finishPlacement
  simp only [hhead, hk, hready, hlen, beq_self_eq_true, Bool.and_self, List.all_eq_true.2 hfits, if_true]

end Sys2Proof.Machine

namespace Sys2Proof
open Machine

/-- Settles O35: what the home answers an arm word, the placement chosen, and the rank that retires next. -/
theorem launchSlotsAndPlacement : Obligations.LaunchSlotsAndPlacement := by
  unfold Obligations.LaunchSlotsAndPlacement
  refine ⟨fun part slot arm s p hp hslot => ?_, fun part s p kid k hp hrun hheld hfirst => ⟨fun cores hc => ⟨fun hfit => ?_,
    fun ⟨c, hc', hfit⟩ => ?_⟩, fun hnone => ?_⟩, fun part s p hs kid k hp hrun hheld hne => ⟨fun ⟨h, hh, had⟩ => ?_, ?_⟩,
    fun kernel s k hk hdet hended hruns => ?_⟩
  · intro t r why word
    have ht : t.parts.get? part = some p := hp
    have hexec := exec_launchSlotArm (arm := arm) hp hslot rfl
    refine ⟨fun ha => ?_, fun ha hb => ?_, fun ha h1 h2 => ⟨fun hw => ?_, fun hw => ?_, fun hw => ?_, fun hw => ?_⟩⟩
    · rw [hexec, observeArm_clear ht ha]
    · rw [hexec, observeArm_busy ht ha hb]
    · rw [hexec, observeArm_free ht ha h1 h2 hw]
    · rw [hexec, observeArm_free ht ha h1 h2 hw]
    · rw [hexec, observeArm_free ht ha h1 h2 hw]
    · rw [hexec, observeArm_free ht ha h1 h2 hw]
  · rw [exec_blockPlacement_first hp hrun hheld hfirst, startPlacement_chosen kid hc, if_pos (List.all_eq_true.2 hfit)]
  · rw [exec_blockPlacement_first hp hrun hheld hfirst, startPlacement_chosen kid hc, if_neg fun hall =>
      Bool.false_ne_true (hfit.symm.trans (List.all_eq_true.1 hall c hc'))]
  · rw [exec_blockPlacement_first hp hrun hheld hfirst]
    unfold startPlacement
    rw [hnone]
  · rw [exec_blockPlacement_held hp hrun hheld hne, if_pos (List.any_eq_true.2 ⟨h, hh, had⟩)]
  · intro s1 hadm hkid hk hready hlen hfits
    rw [exec_blockPlacement_held hp hrun hheld hne, if_neg fun hany => ?_, finishPlacement_fits hkid hk hready hlen hfits]
    obtain ⟨h, hh, had⟩ := List.any_eq_true.1 hany
    exact Bool.false_ne_true ((hadm h hh).symm.trans had)
  · have hretires : (k.det && k.ended.contains k.retired && partRuns s k.part) = true := by
      rw [hdet, hended, hruns, Bool.and_self, Bool.and_self]
    show execBlockRetire kernel s = _
    unfold execBlockRetire
    rw [hk]
    dsimp only
    rw [if_pos hretires]
    unfold State.mapKernel
    rw [hk]

end Sys2Proof
end

section
/-! PROOFS. Walks, migration, lines, errors and clock steps (R24, R25, R58, R68, R85-R99, R357, R396). -/

namespace Sys2Proof.Machine

/-- A partition of the table changed. -/
theorem State.mapPart_some {s : State} {n : Nat} {p : Partition} (h : s.parts.get? n = some p) (f : Partition → Partition) :
    s.mapPart n f = { s with parts := s.parts.put n (f p) } := by
  unfold State.mapPart
  rw [h]

/-! ## Walks (R85, R89, R90) -/

theorem exec_pageWalk {part asid : Nat} {va : Word} (hap : inAperture va = false) (hva : va.toNat < 2 ^ 56) (s : State) :
    exec (.pageWalk part asid va) s = .next (cacheWalk s part asid va [.load, .store, .fetch]) := by
  show execPageWalk part asid va s = _
  unfold execPageWalk
  simp only [hap, Bool.false_eq_true, Nat.not_le.2 hva, or_self, if_false]

/-- What a walk caches: the translation of a page that is resident and serves some access. -/
theorem cacheWalk_some {s : State} {part asid : Nat} {va : Word} {w : Walk} (hw : walk s part asid va = some w)
    (accs : List Acc) : cacheWalk s part asid va accs =
      if (leafType w.leaf == 2 && !ebit w.leaf 20) || !accs.any (cacheable w.leaf) then walkTouch s part asid va
      else (walkTouch s part asid va).mapPart part fun p => { p with tlb := p.tlb.put (tlbKey asid va) ⟨w.leaf, w.level⟩ } := by
  unfold cacheWalk
  rw [hw]

theorem cacheWalk_none {s : State} {part asid : Nat} {va : Word} (hw : walk s part asid va = none) (accs : List Acc) :
    cacheWalk s part asid va accs = s := by
  unfold cacheWalk
  rw [hw]

/-- The test of `cacheWalk` for the accesses of PAGE_WALK. -/
theorem notKept_iff (e : Word) :
    ((leafType e == 2 && !ebit e 20) || !([Acc.load, .store, .fetch].any (cacheable e))) = false ↔
      (leafType e ≠ 2 ∨ ebit e 20 = true)
        ∧ (cacheable e .load = true ∨ cacheable e .store = true ∨ cacheable e .fetch = true) := by
  simp only [Bool.or_eq_false_iff, Bool.and_eq_false_iff, beq_eq_false_iff_ne, ne_eq, Bool.not_eq_false', List.any_cons,
    List.any_nil, Bool.or_false, Bool.or_eq_true]

/-! ## Migration (R68) -/

theorem exec_pageMigration {part asid : Nat} {va : Word} {s : State} {p : Partition} {w : Walk} {k : Key} {old : Nat}
    {es : List (Word × Half)} (hap : inAperture va = false) (hva : va.toNat < 2 ^ 56) (hp : s.parts.get? part = some p)
    (hw : walk s part asid va = some w) (hk : leafKey s part w.leaf = some k)
    (hold : efield w.leaf 24 40 * 2 ^ 16 = old) (hes : newFrames s part p old = es) :
    exec (.pageMigration part asid va) s = match es[Config.choice s.draws es.length % Nat.max 1 es.length]? with
      | some e =>
        if !mayMigrate s part p w old then .next s
        else if (frameWants s old).isEmpty then .next (movePage (walkTouch s.draw part asid va) part asid va k w old e)
        else .next (askAll s (frameWants s old))
      | none => .next s := by
  show execPageMigration part asid va s = _
  unfold execPageMigration
  simp only [hap, Bool.false_eq_true, Nat.not_le.2 hva, or_self, if_false, hp, hw, hold, hes]
  split
  next e k' he hk' =>
    cases hk.symm.trans hk'
    simp only [he]
  next h =>
    cases he : es[Config.choice s.draws es.length % Nat.max 1 es.length]?
    · rfl
    · exact (h _ _ he hk).elim

/-- The number of a frame that a migration takes is that of one of the list. -/
theorem isSome_getElem?_choice {α : Type} {es : List α} (h : es ≠ []) (n : Nat) :
    (es[n % Nat.max 1 es.length]?).isSome := by
  have hlen : 0 < es.length := List.length_pos_iff.2 h
  have hmax : Nat.max 1 es.length = es.length := Nat.max_eq_right hlen
  rw [hmax, List.getElem?_eq_getElem (Nat.mod_lt _ hlen)]
  rfl

theorem mem_newFrames {s : State} {part : Nat} {p : Partition} {old : Nat} {e : Word × Half}
    (h : e ∈ newFrames s part p old) : e ∈ p.qlist ∧ s.foreign part (e.1.toNat * 2 ^ 16) = false
      ∧ p.stackOf (e.1.toNat * 2 ^ 16) ≠ p.stackOf old := by
  obtain ⟨hmem, htest⟩ := List.mem_filter.1 h
  simp only [Bool.and_eq_true, Bool.not_eq_true', bne_iff_ne, ne_eq] at htest
  obtain ⟨⟨-, hforeign⟩, hstack⟩ := htest
  exact ⟨hmem, hforeign, hstack⟩

/-! ## Lines -/

theorem exec_lineEviction_l1 {core line : Nat} {s : State} {t : LineTag} (h : (s.core core).l1.get? line = some t) :
    exec (.lineEviction core line) s = .next (s.mapCore core fun c => { c with l1 := c.l1.del line }) := by
  show execLineEviction core line s = _
  unfold execLineEviction
  simp only [h]

theorem exec_lineEviction_below {core line : Nat} {s : State} {part : Nat} {p : Partition}
    (h : (s.core core).l1.get? line = none) (hp : partOfCore s core = some (part, p)) :
    exec (.lineEviction core line) s = .next (evictBelow s part p core line) := by
  show execLineEviction core line s = _
  unfold execLineEviction
  simp only [h, hp]

end Sys2Proof.Machine

namespace Sys2Proof
open Machine

/-- Settles O36: what a walk caches, where a migration goes, and what errors and clock steps change. -/
theorem walksLinesAndErrors : Obligations.WalksLinesAndErrors := by
  unfold Obligations.WalksLinesAndErrors
  refine ⟨⟨fun part asid va s hap hva => ⟨fun w hw => ?_, fun hw => ?_⟩, fun part asid va s p w k hap hva hp hw hk => ?_,
    fun core line s => ⟨fun t ht => exec_lineEviction_l1 ht, fun part p hl1 hpart => ⟨fun t ht => ?_,
      fun hl2 => ⟨fun hline => ?_, fun hline => ?_⟩⟩⟩⟩,
    fun part c s p hp => ?_, fun part line s p hp => ⟨?_, ?_⟩, fun clk therm power s => ⟨fun h1 h2 h3 => ?_,
      fun h1 h2 h3 h4 => ?_, fun h1 h2 => ?_⟩⟩
  · intro s1 kept serves
    rw [exec_pageWalk hap hva, cacheWalk_some hw]
    refine ⟨fun p hkept hserves hp => ?_, fun hno => ?_⟩
    · rw [(notKept_iff w.leaf).2 ⟨hkept, hserves⟩, if_neg Bool.false_ne_true, State.mapPart_some hp]
    · rw [if_pos (Bool.of_not_eq_false fun h => hno ((notKept_iff w.leaf).1 h))]
  · rw [exec_pageWalk hap hva, cacheWalk_none hw]
  · intro old es
    have hexec := exec_pageMigration hap hva hp hw hk (old := old) (es := es) rfl rfl
    refine ⟨fun hon hty hlev hdet hdis hbusy hspan => ?_, fun hne => isSome_getElem?_choice hne _, fun hnil => ?_,
      fun e he => mem_newFrames he⟩
    · have hmay : mayMigrate s part p w old = true := by
        unfold mayMigrate
        rw [hon, hty, hlev, hdet, hdis, hbusy, hspan]
        rfl
      rw [hexec]
      cases es[Config.choice s.draws es.length % Nat.max 1 es.length]?
      · rfl
      · simp only [hmay, Bool.not_true, Bool.false_eq_true, if_false, List.isEmpty_iff]
        split <;> rfl
    · rw [hexec, hnil]
      rfl
  · rw [exec_lineEviction_below hl1 hpart]
    unfold evictBelow
    dsimp only
    rw [ht]
    rfl
  · rw [exec_lineEviction_below hl1 hpart]
    unfold evictBelow
    simp only [hl2, Option.isSome_none, Bool.false_eq_true, Nat.not_le.2 hline, if_false]
  · rw [exec_lineEviction_below hl1 hpart]
    unfold evictBelow
    simp only [hl2, Option.isSome_none, Bool.false_eq_true, if_false, if_pos hline]
  · have hexec : exec (.correctedError part c) s
        = .next (s.countErr (Corrected.source c) part (Corrected.index c) 0) := by
      show execCorrectedError part c s = _
      unfold execCorrectedError
      simp only [hp]
    refine ⟨_, hexec, rfl, State.countErr_mem _ _ _ _ _, ?_, ?_, (State.countErr_keeps _ _ _ _ _).1⟩
    · unfold State.countErr
      rw [State.mapPart_some hp]
      rfl
    · unfold State.countErr
      rw [State.mapPart_some hp]
      rfl
  · show execUncorrectableError part line false s = _
    unfold execUncorrectableError
    simp only [hp, Bool.false_eq_true, if_false]
  · show execUncorrectableError part line true s = _
    unfold execUncorrectableError
    simp only [hp, if_true]
  · show execClockStepChange clk therm power s = _
    unfold execClockStepChange
    exact if_pos (.inl ⟨h1, h2, by simpa using h3⟩)
  · show execClockStepChange clk therm power s = _
    unfold execClockStepChange
    exact if_pos (.inr (.inl ⟨h1, h2, by simp [h3, h4]⟩))
  · show execClockStepChange clk therm power s = _
    unfold execClockStepChange
    rw [if_pos (.inr (.inr ⟨h1, .inl h2⟩)), h1]

end Sys2Proof
end

section
/-! PROOFS. The Mortar fabric (R58, R100, R372-R379). -/

namespace Sys2Proof.Machine

/-! ## Requests of peers and messages sent again (R100, R372) -/

theorem exec_remoteRequest {part spkg spart : Nat} {va : Word} {op : RemoteOp} {s : State} {p : Partition}
    (hp : s.parts.get? part = some p) (hop : RemoteOp.wellFormed op va = true) :
    exec (.remoteRequest part spkg spart va op) s = match p.exportFor spkg spart with
      | none => .next (answerFault s ⟨part, 8 * spkg + spart % 8, va.toNat / 128⟩ Code.protection)
      | some e =>
        if (RemoteOp.acc op != .load && !e.getLsbD 30)
          || !decide (p.asidFirst ≤ e.toNat % 2 ^ 10 ∧ e.toNat % 2 ^ 10 < p.asidFirst + p.asidCount) then
          .next (answerFault s ⟨part, 8 * spkg + spart % 8, va.toNat / 128⟩ Code.protection)
        else .next (serveRemote s ⟨part, 8 * spkg + spart % 8, va.toNat / 128⟩ (e.toNat % 2 ^ 10) va op) := by
  show execRemoteRequest part spkg spart va op s = _
  unfold execRemoteRequest
  simp only [hp, hop, Bool.not_true, Bool.false_eq_true, if_false] <;> rfl

theorem exec_remoteResend {n : Nat} {s : State} {m : FabMsg} {t : Nat} (h : s.fab.retries[n]? = some (m, t)) :
    exec (.remoteResend n) s = if t ≤ s.tsc then
      .next (sendMsg { s with fab := { s.fab with retries := s.fab.retries.erase (m, t) } } m) else .next s := by
  show execRemoteResend n s = _
  unfold execRemoteResend
  rw [h]

/-! ## What a peer sends (R373, R374) -/

/-- The answer to the oldest request about a line. -/
theorem exec_fabricPeerResponse_answer {line : Nat} {s : State} {m : FabMsg}
    (h : s.fab.messageFor line FabMsg.request = some m) :
    (∀ bs, exec (.fabricPeerResponse line (.data bs)) s = .next (answered s m (.data bs)))
      ∧ (∀ us, exec (.fabricPeerResponse line (.retry us)) s = .next (answered s m (.retry us)))
      ∧ ∀ f, exec (.fabricPeerResponse line (.fault f)) s = .next (answered s m (.fault f)) := by
  refine ⟨fun bs => ?_, fun us => ?_, fun f => ?_⟩
  · show execFabricPeerResponse line (.data bs) s = _
    unfold execFabricPeerResponse
    simp only [h, Option.elim_some]
  · show execFabricPeerResponse line (.retry us) s = _
    unfold execFabricPeerResponse
    simp only [h, Option.elim_some]
  · show execFabricPeerResponse line (.fault f) s = _
    unfold execFabricPeerResponse
    simp only [h, Option.elim_some]

theorem FabMsg.body_of_writes {m : FabMsg} (h : m.writes = true) : ∃ bs, m.body = .writeBack bs := by
  unfold FabMsg.writes at h
  split at h
  next bs hb => exact ⟨bs, hb⟩
  next => cases h

theorem FabMsg.body_of_atoms {m : FabMsg} (h : m.atoms = true) : ∃ a b c d e f, m.body = .atom a b c d e f := by
  unfold FabMsg.atoms at h
  split at h
  next a b c d e f hb => exact ⟨a, b, c, d, e, f, hb⟩
  next => cases h

/-- The recall of a line that is not lost. -/
theorem exec_fabricPeerResponse_recall {line : Nat} {s : State} {dirty : Bool} (inv : Bool)
    (hlost : s.lost.contains (2 ^ 60 + line) = false) (hd : s.fab.dirty.contains line = dirty) :
    exec (.fabricPeerResponse line (.recall inv)) s = .next
      (let m := lineMsg line (if dirty then .writeBack ((s.fab.lines.get? line).getD []) else .released)
       if inv then if dirty then evictFabric s line else sendMsg (evictFabric s line) m
       else sendMsg { s with fab := { s.fab with dirty := s.fab.dirty.filter fun l => l != line,
                                                 owned := s.fab.owned.filter fun l => l != line } } m) := by
  show execFabricPeerResponse line (.recall inv) s = _
  unfold execFabricPeerResponse
  simp only [recalledLine, hlost, hd, Bool.not_false, Bool.and_true]

/-! ## Planes (R376) -/

/-- Counting what is sent changes the links alone. -/
theorem foldl_countSent_only (ps : List Nat) (s : State) :
    ps.foldl countSent s = { s with fab := { s.fab with links := (ps.foldl countSent s).fab.links } } := by
  induction ps generalizing s with
  | nil => rfl
  | cons p ps ih =>
    have hone : countSent s p = { s with fab := { s.fab with links := (countSent s p).fab.links } } := by
      unfold countSent
      split <;> rfl
    rw [List.foldl_cons]
    refine (ih (countSent s p)).trans ?_
    rw [hone]

/-- Sending what waits changes the messages and the links alone. -/
theorem flushWaiting_only (s : State) : flushWaiting s = { s with fab := { s.fab with
    unacked := (flushWaiting s).fab.unacked, waiting := (flushWaiting s).fab.waiting
    links := (flushWaiting s).fab.links } } := by
  unfold flushWaiting
  dsimp only
  rw [foldl_countSent_only]

theorem flushWaiting_waiting (s : State) :
    (flushWaiting s).fab.waiting = s.fab.waiting.filter fun x => s.fab.blocked x.1 x.2.dest := by
  unfold flushWaiting
  dsimp only
  rw [foldl_countSent_only]
  simp only [Bool.not_not]

/-- With a plane alive and nothing being remapped no message waits. -/
theorem Fabric.blocked_false {f : Fabric} (hr : f.remap = none) (ha : f.alive ≠ 0) (a pkg : Nat) :
    f.blocked a pkg = false := by
  have hm : f.moving a = false := by
    unfold Fabric.moving
    rw [hr]
    rfl
  unfold Fabric.blocked
  rw [hm, Bool.false_and, Bool.or_false, beq_eq_false_iff_ne]
  exact ha

/-- The fabric after the next acknowledgement of a remap. -/
def remapAcked (s : State) (as : List Nat) : Fabric :=
  if remapPeer s = 1024 then resendDead { s.fab with map := s.fab.newMap as, remap := none, acked := [] } fun _ => true
  else resendDead { s.fab with acked := (s.fab.acked ++ [remapPeer s]).dedup } fun m => m.dest == remapPeer s

theorem exec_remapAcknowledge {s : State} {pl : Nat} {as : List Nat} (h : s.fab.remap = some (pl, as)) :
    exec .remapAcknowledge s = .next (flushWaiting { s with fab := remapAcked s as }) := by
  show execRemapAcknowledge s = _
  unfold execRemapAcknowledge
  rw [h]
  rfl

/-- The last acknowledgement ends the remap. -/
theorem remapAcked_last {s : State} (h : remapPeer s = 1024) (as : List Nat) :
    remapAcked s as = resendDead { s.fab with map := s.fab.newMap as, remap := none, acked := [] } fun _ => true := if_pos h

/-! ## Flits (R377, R378) -/

theorem exec_flitReceive {part link : Nat} {payload : List Byte} {keyBit : Nat} {s : State} (hl : link < 16)
    (hup : (s.fab.link link).up = true) (hlen : payload.length = 256) (crcOk tagOk : Bool) :
    exec (.flitReceive part link payload keyBit crcOk tagOk) s =
      let l := s.fab.link link
      if l.attempts = 0 then
        if crcOk then .next (goodFlit s link l payload keyBit tagOk) else .next (keepDamaged s part link l payload keyBit)
      else if l.attempts ≤ 2 ∨ l.damaged ≠ some (payload, keyBit) then .next s
      else if crcOk then .next (goodFlit s link l payload keyBit tagOk)
      else if l.attempts < 10 then .next (s.setLink link { l with attempts := l.attempts + 1 })
      else .next (failLink s link l) := by
  have hno : ¬(16 ≤ link ∨ !(s.fab.link link).up ∨ payload.length ≠ 256) := by
    rw [hup, hlen]
    simp only [Bool.not_true, Bool.false_eq_true, ne_eq, not_true_eq_false, or_self, or_false]
    omega
  show execFlitReceive part link payload keyBit crcOk tagOk s = _
  unfold execFlitReceive
  dsimp only
  rw [if_neg hno]

theorem exec_parityExtensionReceive {link : Nat} {repair : Repair} {s : State} {payload : List Byte} {keyBit : Nat}
    (hd : (s.fab.link link).damaged = some (payload, keyBit)) (h0 : 0 < (s.fab.link link).attempts)
    (h2 : (s.fab.link link).attempts ≤ 2) : exec (.parityExtensionReceive link repair) s
      = .next (if repair.symbols ≤ 16 * (s.fab.link link).attempts then
          goodFlit s link (s.fab.link link) payload keyBit repair.tagOk
        else s.setLink link { s.fab.link link with attempts := (s.fab.link link).attempts + 1 }) := by
  have hno : ¬((s.fab.link link).attempts = 0 ∨ 2 < (s.fab.link link).attempts) := by omega
  show execParityExtensionReceive link repair s = _
  unfold execParityExtensionReceive
  dsimp only
  rw [hd]
  dsimp only
  rw [if_neg hno]
  split <;> rfl

theorem exec_keyRotation {link : Nat} {s : State} {tx : Bool} (hl : link < 16) (hup : (s.fab.link link).up = true)
    (h : tx = true ∨ (s.fab.link link).damaged = none ∨ (s.fab.link link).prevKey = none) :
    exec (.keyRotation ⟨link, tx⟩) s =
      let l := s.fab.link link
      if tx then .next (s.setLink link { l with txKey := l.txKey + 1, txFlits := 0 })
      else .next (s.setLink link { l with key := l.key + 1, prevKey := some l.key, flits := 0 }) := by
  have hno : ¬(16 ≤ link ∨ !(s.fab.link link).up ∨
      (!tx ∧ (s.fab.link link).damaged.isSome ∧ (s.fab.link link).prevKey.isSome)) := by
    rw [hup]
    rcases h with h | h | h <;> simp [h, hl]
  show execKeyRotation ⟨link, tx⟩ s = _
  unfold execKeyRotation
  dsimp only
  rw [if_neg hno]

end Sys2Proof.Machine

namespace Sys2Proof
open Machine

/-- Settles O37: each event's equation, in the cases of the statement. -/
theorem fabricEvents : Obligations.FabricEvents := by
  unfold Obligations.FabricEvents
  refine ⟨⟨fun part spkg spart va op s p hp hop => ?_, fun n s m t hm => ⟨fun h => ?_, fun h => ?_⟩, fun line s m hm => ?_,
    fun line s m hm => ?_, fun line s m data hm => ?_, fun line s hlost => ?_, fun line dirty s => ?_⟩,
    fun plane s hs => ?_, fun s pl as hr => ?_, fun part link payload keyBit tagOk s hl hup hlen => ⟨fun h0 => ?_,
      fun h2 hd => ?_⟩, fun link repair s payload keyBit => exec_parityExtensionReceive,
    fun link s hl hup => ⟨exec_keyRotation hl hup (.inl rfl), fun h => exec_keyRotation hl hup (.inr h)⟩,
    fun dest version s hun => ?_⟩
  · intro k
    rw [exec_remoteRequest hp hop]
    refine ⟨fun he => by rw [he], fun e he => ⟨fun hw hlo hhi => ?_, fun hno => ?_⟩⟩
    · have hpass : ((RemoteOp.acc op != .load && !e.getLsbD 30)
          || !decide (p.asidFirst ≤ e.toNat % 2 ^ 10 ∧ e.toNat % 2 ^ 10 < p.asidFirst + p.asidCount)) = false := by
        rcases hw with hw | hw <;> simp [hw, hlo, hhi]
      rw [he]
      dsimp only
      rw [hpass, if_neg Bool.false_ne_true]
      rfl
    · have hfail : ((RemoteOp.acc op != .load && !e.getLsbD 30)
          || !decide (p.asidFirst ≤ e.toNat % 2 ^ 10 ∧ e.toNat % 2 ^ 10 < p.asidFirst + p.asidCount)) = true := by
        rcases hno with ⟨hw, hb⟩ | hno | hno
        · rw [hb, bne_iff_ne.2 hw]
          rfl
        · simp [Nat.not_le.2 hno]
        · simp [Nat.not_lt.2 hno]
      rw [he]
      dsimp only
      rw [hfail, if_pos rfl]
  · rw [exec_remoteResend hm, if_pos h]
  · rw [exec_remoteResend hm, if_neg (Nat.not_le.2 h)]
  · intro s1
    obtain ⟨hdata, hretry, hfault⟩ := exec_fabricPeerResponse_answer hm
    refine ⟨fun bs => ⟨fun own hb => ?_, fun hw => ?_, fun ha => ?_⟩, fun us => hretry us, fun f => hfault f⟩
    · rw [hdata]
      unfold answered
      simp only [hb]
      rfl
    · obtain ⟨_, hb⟩ := FabMsg.body_of_writes hw
      rw [hdata]
      unfold answered
      simp only [hb]
      rfl
    · obtain ⟨_, _, _, _, _, _, hb⟩ := FabMsg.body_of_atoms ha
      rw [hdata]
      unfold answered
      simp only [hb]
      rfl
  · show execFabricPeerResponse line .ack s = _
    unfold execFabricPeerResponse
    simp only [hm, Option.elim_some]
  · show execFabricPeerResponse line (.released data) s = _
    unfold execFabricPeerResponse
    simp only [hm, Option.elim_some]
  · intro kept
    exact ⟨fun hd => ⟨exec_fabricPeerResponse_recall true hlost hd, exec_fabricPeerResponse_recall false hlost hd⟩,
      fun hd => ⟨exec_fabricPeerResponse_recall true hlost hd, exec_fabricPeerResponse_recall false hlost hd⟩⟩
  · intro late
    have htest : (fun x : Nat × FabMsg => x.2.tag == line && x.2.writes == dirty && decide (x.2.sent + 50000 ≤ s.tsc))
        = fun x => decide (late x) := by
      funext x
      rw [Bool.eq_iff_iff]
      simp only [late, Bool.and_eq_true, beq_iff_eq, decide_eq_true_eq, and_assoc]
    have hexec : exec (.fabricDeliveryTimeout line dirty) s =
        match (s.fab.unacked ++ s.fab.waiting).find? fun x => decide (late x) with
        | some m => .next (failMessage s Code.asyncError m.2)
        | none => .next s := by
      rw [← htest]
      rfl
    refine ⟨fun m hm => by rw [hexec, hm], fun hno => ?_⟩
    rw [hexec, List.find?_eq_none.2 fun x hx => by simpa using hno x hx]
  · constructor
    · show execPlaneRemap plane true s = _
      unfold execPlaneRemap
      rw [if_neg (Nat.not_le.2 hs), if_pos rfl]
    · show execPlaneRemap plane false s = _
      unfold execPlaneRemap
      rw [if_neg (Nat.not_le.2 hs), if_neg Bool.false_ne_true]
  · refine ⟨_, exec_remapAcknowledge hr, ?_⟩
    split
    next hlast =>
      rw [remapAcked_last hlast]
      refine ⟨?_, ?_, ?_, fun ha => ?_, ?_⟩
      · rw [flushWaiting_only]; rfl
      · rw [flushWaiting_only]; rfl
      · rw [flushWaiting_only]; rfl
      · rw [flushWaiting_waiting, List.filter_eq_nil_iff]
        intro x _
        have hb := Fabric.blocked_false (f := remapAcked s as) (by rw [remapAcked_last hlast]; rfl)
          (by rw [remapAcked_last hlast]; exact ha) x.1 x.2.dest
        rw [remapAcked_last hlast] at hb
        rw [hb]
        exact Bool.false_ne_true
      · rw [flushWaiting_only]; rfl
    next hmore =>
      rw [remapAcked, if_neg hmore]
  · exact ⟨(exec_flitReceive hl hup hlen true tagOk).trans (if_pos h0),
      (exec_flitReceive hl hup hlen false tagOk).trans (if_pos h0)⟩
  · have h0 : (s.fab.link link).attempts ≠ 0 := by omega
    have hno : ¬((s.fab.link link).attempts ≤ 2 ∨ (s.fab.link link).damaged ≠ some (payload, keyBit)) := by
      rw [hd]
      simp only [ne_eq, not_true_eq_false, or_false]
      omega
    refine ⟨?_, ?_⟩
    · rw [exec_flitReceive hl hup hlen true tagOk]
      dsimp only
      rw [if_neg h0, if_neg hno, if_pos rfl]
    · rw [exec_flitReceive hl hup hlen false tagOk]
      dsimp only
      rw [if_neg h0, if_neg hno, if_neg Bool.false_ne_true]
      split <;> rfl
  · intro old
    have hany : ∀ g : Nat × FabMsg → Bool, (s.fab.unacked.any fun x => x.2.dest == dest && g x) = false := by
      intro g
      rw [List.any_eq_false]
      intro x hx
      simp [hun x hx]
    show execRouteUpdate dest version s = _
    unfold execRouteUpdate
    dsimp only
    have h1 := hany fun x => x.2.version == old && old != version % 2
    have h2 := hany fun x => x.2.version != old
    simp only [Bool.and_assoc, old] at h1 h2 ⊢
    simp only [h1, h2, Bool.false_eq_true, if_false]
    split <;> rfl

end Sys2Proof
end

section
/-! PROOFS. Accesses of the host, and the life, halt and swap of a partition (R380-R386, R354-R356). -/

namespace Sys2Proof.Machine

/-! ## Accesses of the host (R380-R383) -/

theorem leNat_leBytes (n x : Nat) : leNat (leBytes n x) = x % 256 ^ n := by
  induction n generalizing x with
  | zero => exact (Nat.mod_one x).symm
  | succ n ih =>
    have hdiv : x % 256 ^ (n + 1) = x % 256 + 256 * (x / 256 % 256 ^ n) := by
      rw [Nat.pow_succ, Nat.mul_comm, Nat.mod_mul]
    simp only [leBytes, leNat, ih, hdiv, BitVec.toNat_ofNat]

theorem leBytes_length (n x : Nat) : (leBytes n x).length = n := by
  induction n generalizing x with
  | zero => rfl
  | succ n ih => exact congrArg (· + 1) (ih _)

/-- An access of the host to one line of device memory. -/
theorem inHdm_line {a n : Nat} (h0 : 0 < n) (hline : a % 128 + n ≤ 128) (ha : a < 384 * 2 ^ 30) : inHdm a n = true := by
  unfold inHdm quarterBytes
  exact decide_eq_true ⟨h0, hline, by omega⟩

/-- The access itself, or what peers must give back first. -/
theorem hostAccess_cases (s : State) (i : Instr) (pa : Nat) (write : Bool) (body : State → State) :
    (hostWants s pa write = [] → hostAccess s i pa write body = body { s with hostWait := s.hostWait.erase i })
      ∧ (hostWants s pa write ≠ [] → hostAccess s i pa write body =
        askAll { s with hostWait := s.hostWait.erase i ++ [i] } (hostWants s pa write)) := by
  have hsame : hostWants { s with hostWait := s.hostWait.erase i } pa write = hostWants s pa write := rfl
  unfold hostAccess
  simp only [hsame]
  cases hostWants s pa write with
  | nil => exact ⟨fun _ => rfl, fun h => absurd rfl h⟩
  | cons a r => exact ⟨fun h => absurd h (List.cons_ne_nil a r), fun _ => rfl⟩

theorem exec_hostCxlWrite {addr : Word} {data : List Byte} (h : inHdm addr.toNat data.length = true) (s : State) :
    exec (.hostCxlWrite addr data) s =
      .next (hostAccess s (.hostCxlWrite addr data) addr.toNat true fun s => hostWrite s addr.toNat data) := by
  show execHostCxlWrite addr data s = _
  unfold execHostCxlWrite
  simp only [h, if_true]

theorem exec_hostCxlRead {addr : Word} {n : Nat} (h : inHdm addr.toNat n = true) (s : State) :
    exec (.hostCxlRead addr n) s =
      .next (hostAccess s (.hostCxlRead addr n) addr.toNat false fun s => hostRead s addr.toNat n) := by
  show execHostCxlRead addr n s = _
  unfold execHostCxlRead
  simp only [h, if_true]

/-- The BAR0 window lies past device memory. -/
theorem inHdm_bar0 (o n : Nat) : inHdm (bar0 + o) n = false := by
  unfold inHdm bar0 quarterBytes
  exact decide_eq_false fun ⟨_, _, h⟩ => by omega

theorem bar0_mod_four {o : Nat} (h : o % 4 = 0) : (bar0 + o) % 4 = 0 := by
  unfold bar0
  omega

/-- A word of the BAR0 window at an offset. -/
theorem exec_hostCxlWrite_bar {addr : Word} {o : Nat} (ha : addr.toNat = bar0 + o) (ho : o < 65536) (h4 : o % 4 = 0)
    (x : Half) (s : State) : exec (.hostCxlWrite addr (leBytes 4 x.toNat)) s = .next (barWrite s o x) := by
  have hword : BitVec.ofNat 32 (leNat (leBytes 4 x.toNat)) = x := by
    rw [leNat_leBytes]
    rw [Nat.mod_eq_of_lt (show x.toNat < 256 ^ 4 from x.isLt), BitVec.ofNat_toNat, BitVec.setWidth_eq]
  show execHostCxlWrite addr (leBytes 4 x.toNat) s = _
  unfold execHostCxlWrite
  simp only [ha, inHdm_bar0, Bool.false_eq_true, if_false, leBytes_length, Nat.le_add_right, Nat.add_lt_add_iff_left, ho,
    bar0_mod_four h4, and_self, if_true, Nat.add_sub_cancel_left, hword]

theorem exec_hostCxlRead_bar {addr : Word} {o : Nat} (ha : addr.toNat = bar0 + o) (ho : o < 65536) (h4 : o % 4 = 0)
    (s : State) : exec (.hostCxlRead addr 4) s = .next { snapshot s o with hostOut := leBytes 4 (barRead s o).toNat } := by
  show execHostCxlRead addr 4 s = _
  unfold execHostCxlRead
  simp only [ha, inHdm_bar0, Bool.false_eq_true, if_false, Nat.le_add_right, Nat.add_lt_add_iff_left, ho,
    bar0_mod_four h4, and_self, if_true, Nat.add_sub_cancel_left]

theorem toNat_bar0 {o : Nat} (ho : o < 65536) : (BitVec.ofNat 64 (2 ^ 40 + o) : Word).toNat = bar0 + o := by
  rw [BitVec.toNat_ofNat, Nat.mod_eq_of_lt (by omega)]
  rfl

/-! ## The mailbox (R384) -/

/-- The state in which a command that the mailbox takes is carried out. -/
def State.commanded (s : State) (cmd : Nat) (args : List Half) : State :=
  { s with kiln := { s.kiln with busy := true, begun := true, latched := none, mbcmd := BitVec.ofNat 32 cmd
                                 mbarg := args ++ s.kiln.mbarg.drop args.length } }

/-- A command that no recovery refuses: in recovery the mailbox takes FWSTAGE, command 8, alone. -/
theorem mailbox_of_not_refused {s : State} (hb : s.kiln.busy = false) {cmd : Nat}
    (hr : (s.kiln.recovery && cmd != 8) = false) (i : Instr) (args : List Half) (part : Nat) (body : State → State) :
    mailbox s i cmd args part body = body (s.commanded cmd args) := by
  have htakes : s.kiln.takes i cmd = true := by
    unfold Kiln.takes
    rw [hb]
    rfl
  unfold mailbox
  simp only [htakes, hb, Bool.not_true, Bool.false_eq_true, if_false]
  exact if_neg (ne_true_of_eq_false hr)

theorem mailbox_idle {s : State} (hb : s.kiln.busy = false) (hr : s.kiln.recovery = false) (i : Instr) (cmd : Nat)
    (args : List Half) (part : Nat) (body : State → State) :
    mailbox s i cmd args part body = body (s.commanded cmd args) :=
  mailbox_of_not_refused hb (by rw [hr, Bool.false_and]) i args part body

/-! ## CREATE and DESTROY (R385) -/

theorem zeroQuarters_byte (s : State) (first count pa : Nat) : (zeroQuarters s first count).byte pa =
    if first * (24 * 2 ^ 30) ≤ pa ∧ pa < first * (24 * 2 ^ 30) + count * (24 * 2 ^ 30) then 0 else s.byte pa := by
  unfold State.byte zeroQuarters zeroFill quarterBytes
  dsimp only
  rw [Tab.num_drop]
  simp only [decide_eq_true_eq]

theorem freshCores_get (s : State) (first count c : Nat) : (freshCores s first count).cores.get? c =
    if 16 * first ≤ c ∧ c < 16 * (first + count) then none else s.cores.get? c := by
  unfold freshCores
  dsimp only
  rw [Tab.get?_drop]
  simp only [decide_eq_true_eq]

theorem Tab.exists_mem_of_get? {α : Type} {m : Tab α} {n : Nat} {x : α} (h : m.get? n = some x) : (n, x) ∈ m := by
  induction m with
  | nil => cases h
  | cons c r ih =>
    obtain ⟨k, v⟩ := c
    unfold Tab.get? at h
    split at h
    next hk =>
      cases h
      rw [hk]
      exact List.mem_cons_self
    next => exact List.mem_cons_of_mem _ (ih h)

/-- A block of a kernel of a partition is one of its blocks. -/
theorem mem_partBlocks {s : State} {b : Nat} {x : Block} {k : Kernel} (hb : s.blocks.get? b = some x)
    (hk : s.kernels.get? x.kernel = some k) : b ∈ partBlocks s k.part := by
  refine List.mem_map.2 ⟨(b, x), List.mem_filter.2 ⟨Tab.exists_mem_of_get? hb, ?_⟩, rfl⟩
  simp [hk]

/-- Entries that a filter keeps pass its test. -/
theorem ne_of_mem_filter_bne {α : Type} {xs : List α} {g : α → Nat} {n : Nat} : ∀ x ∈ xs.filter fun x => g x != n, g x ≠ n :=
  fun _ hx => bne_iff_ne.1 (List.mem_filter.1 hx).2

/-- The state without a partition, its blocks, cores and memory. -/
def vacated (y : State) (n : Nat) (bs : List Nat) (x : Partition) : State :=
  let s2 := freshCores (zeroQuarters (clearPartition y n bs) x.first x.count) x.first x.count
  { s2 with parts := s2.parts.del n, kiln := { s2.kiln with quarters := s2.kiln.quarters.filter fun q => q.2 != n } }.answer 0 n

theorem vacated_parts (y : State) (n : Nat) (bs : List Nat) (x : Partition) : (vacated y n bs x).parts.get? n = none :=
  (Tab.get?_del _ _ _).trans (if_pos rfl)

/-- What is listed for other partitions alone. -/
theorem vacated_lists (y : State) (n : Nat) (bs : List Nat) (x : Partition) :
    (∀ q ∈ (vacated y n bs x).kiln.quarters, q.2 ≠ n) ∧ (∀ k ∈ (vacated y n bs x).kernels, k.2.part ≠ n)
      ∧ ∀ q ∈ (vacated y n bs x).pend, q.2.part ≠ n :=
  ⟨ne_of_mem_filter_bne, ne_of_mem_filter_bne, ne_of_mem_filter_bne⟩

/-- The blocks of the partition and their warps are gone. -/
theorem vacated_block (y : State) (n : Nat) {bs : List Nat} (x : Partition) {b : Nat} (h : b ∈ bs) :
    (vacated y n bs x).blocks.get? b = none ∧ ∀ w ∈ (vacated y n bs x).warps, w.2.block ≠ b := by
  have hmem : bs.contains b = true := List.contains_iff_mem.2 h
  refine ⟨(Tab.get?_drop _ bs.contains b).trans (if_pos hmem), fun w hw he => ?_⟩
  have hkept := (List.mem_filter.1 hw).2
  rw [he, hmem] at hkept
  exact Bool.false_ne_true hkept

/-- The state that CREATE leaves where no check fails. -/
def created (c : State) (p count first af ac : Nat) : State :=
  let s1 := freshCores (zeroQuarters c first count) first count
  { s1 with
    parts := s1.parts.put p (Partition.start first count af ac)
    kiln := { s1.kiln with quarters := (List.range count).foldl (fun t i => t.put (first + i) p) s1.kiln.quarters } }.answer 0 p

section
variable {s c : State} (hb : s.kiln.busy = false) (hr : s.kiln.recovery = false)
include hb hr

theorem exec_create {a0 a1 : Half} {p count first af ac : Nat} (hc : s.commanded 1 [a0, a1] = c) (hp : argPart a0 = p)
    (hcount : a0.toNat / 2 ^ 4 % 2 ^ 5 = count) (hfirst : a0.toNat % 2 ^ 4 = first)
    (haf : a1.toNat / 2 ^ 16 % 2 ^ 10 = af) (hac : a1.toNat % 2 ^ 11 = ac) :
    exec (.create a0 a1) s = .next (if createCode c p count first af ac ≠ 0 then c.answer (createCode c p count first af ac) p
      else created c p count first af ac) := by
  show execCreate a0 a1 s = _
  unfold execCreate
  dsimp only
  rw [mailbox_idle hb hr, hc, hp, hcount, hfirst, haf, hac]
  rfl

theorem exec_destroy {a0 : Half} {n : Nat} {x : Partition} (hc : s.commanded 2 [a0] = c) (hn : argPart a0 = n)
    (hp : c.parts.get? n = some x) :
    exec (.destroy a0) s = .next (vacated (dropFabric (endKernels c n) n) n (partBlocks c n) x) := by
  show execDestroy a0 s = _
  unfold execDestroy
  dsimp only
  rw [mailbox_idle hb hr, hc, hn]
  simp only [hp]
  rfl

/-! ## SWAPOUT and SWAPIN (R386) -/

theorem exec_swapout {a0 : Half} {n : Nat} {x : Partition} (hc : s.commanded 3 [a0] = c) (hn : argPart a0 = n)
    (hp : c.parts.get? n = some x) : exec (.swapout a0) s = .next (if x.halt ≠ .running then c.answer 5 n else
      { c.mapPart n fun x => { x with halt := .halting } with kiln := { c.kiln with part := n, haltAt := c.tsc } }) := by
  show execSwapout a0 s = _
  unfold execSwapout
  dsimp only
  rw [mailbox_idle hb hr, hc, hn]
  simp only [hp]

/-- Event counters of the cores of a partition that SWAPIN sets to 0. -/
def swapCounters (s : State) (x : Partition) : State :=
  { s with cores := s.cores.mapV fun i c =>
    if x.coreList.contains i then { c with evctl := [], evblk := [], evcnt := [], evnow := [] } else c }

theorem exec_swapin {a0 : Half} {n : Nat} {x : Partition} (hc : s.commanded 4 [a0] = c) (hn : argPart a0 = n)
    (hp : c.parts.get? n = some x) : exec (.swapin a0) s = .next (if x.halt ≠ .swapped then c.answer 5 n else
      (swapCounters ((resumeWarps c n).mapPart n fun x => { x with halt := .running, shadow := none }) x).answer 0 n) := by
  show execSwapin a0 s = _
  unfold execSwapin
  dsimp only
  rw [mailbox_idle hb hr, hc, hn]
  simp only [hp]
  rfl

end

theorem Partition.mem_coreList {x : Partition} {c : Nat} (h1 : 16 * x.first ≤ c) (h2 : c < 16 * (x.first + x.count)) :
    x.coreList.contains c = true := by
  rw [List.contains_iff_mem]
  exact List.mem_map.2 ⟨c - 16 * x.first, List.mem_range.2 (by omega), by omega⟩

theorem swapCounters_core {s : State} {x : Partition} {c : Nat} (hc : x.coreList.contains c = true) :
    ((swapCounters s x).core c).evctl = [] ∧ ((swapCounters s x).core c).evcnt = [] := by
  unfold State.core swapCounters
  dsimp only
  rw [Tab.get?_mapV]
  cases s.cores.get? c with
  | none => exact ⟨rfl, rfl⟩
  | some y =>
    simp only [Option.map_some, Option.getD_some, hc, if_true, and_self]

end Sys2Proof.Machine

namespace Sys2Proof
open Machine

/-- Settles O38: an access of the host is to a line of device memory or to the window past it. -/
theorem hostAccesses : Obligations.HostAccesses := by
  unfold Obligations.HostAccesses
  refine ⟨fun addr data s h0 hline ha => ?_, fun addr n s h0 hline ha => ?_,
    fun o s ho h4 => ⟨fun x => exec_hostCxlWrite_bar (toNat_bar0 ho) ho h4 x s, exec_hostCxlRead_bar (toNat_bar0 ho) ho h4 s⟩⟩
  · intro i s1
    obtain ⟨hnone, hsome⟩ := hostAccess_cases s i addr.toNat true fun s => hostWrite s addr.toNat data
    rw [exec_hostCxlWrite (inHdm_line h0 hline ha)]
    exact ⟨fun h => congrArg _ (hnone h), fun h => congrArg _ (hsome h)⟩
  · intro i s1
    obtain ⟨hnone, hsome⟩ := hostAccess_cases s i addr.toNat false fun s => hostRead s addr.toNat n
    rw [exec_hostCxlRead (inHdm_line h0 hline ha)]
    refine ⟨fun h => congrArg _ (hnone h), fun h => congrArg _ (hsome h), fun hp => ?_⟩
    have hwants : hostWants s addr.toNat false = [] := by
      unfold hostWants
      rw [hp]
    refine congrArg _ ((hnone hwants).trans ?_)
    unfold hostRead
    rw [show partAt { s with hostWait := s.hostWait.erase i } addr.toNat = none from hp]

/-- Settles O39: what CREATE and DESTROY do to each table. -/
theorem partitionLifetime : Obligations.PartitionLifetime := by
  unfold Obligations.PartitionLifetime
  refine ⟨fun a0 a1 s hb hr => ?_, fun a0 s x hb hr hp => ?_⟩
  · intro p count first af ac c
    have hexec : exec (.create a0 a1) s = .next (if createCode s p count first af ac ≠ 0 then
        c.answer (createCode s p count first af ac) p else created c p count first af ac) :=
      exec_create (c := c) (p := p) (count := count) (first := first) (af := af) (ac := ac) hb hr rfl rfl rfl rfl rfl rfl
    refine ⟨fun hcode => ?_, fun hcode => ⟨created c p count first af ac, ?_, rfl, rfl, rfl, rfl,
      fun n => freshCores_get _ _ _ n, fun pa => zeroQuarters_byte _ _ _ pa⟩⟩
    · rw [hexec, if_pos hcode]
    · rw [hexec, if_neg (not_not_intro hcode)]
  · obtain ⟨n, hn⟩ : ∃ n, a0.toNat / 2 ^ 24 % 8 = n := ⟨_, rfl⟩
    obtain ⟨c, hc⟩ : ∃ c, s.commanded 2 [a0] = c := ⟨_, rfl⟩
    have hsame : c.blocks = s.blocks ∧ c.kernels = s.kernels ∧ c.parts = s.parts := by
      rw [← hc]
      exact ⟨rfl, rfl, rfl⟩
    obtain ⟨hblocks, hkernels, hparts⟩ := hsame
    rw [hn] at hp ⊢
    have hexec := exec_destroy hb hr hc hn (hparts ▸ hp)
    generalize dropFabric (endKernels c n) n = y at hexec
    obtain ⟨hquarters, hkern, hpend⟩ := vacated_lists y n (partBlocks c n) x
    refine ⟨_, hexec, vacated_parts _ _ _ _, rfl, rfl, hquarters, hkern, fun b k ⟨z, hz, hk⟩ hkp => ?_, hpend,
      fun i h1 h2 => ?_, fun pa h1 h2 => ?_⟩
    · exact vacated_block y n x (hkp ▸ mem_partBlocks (hblocks ▸ hz) (hkernels ▸ hk))
    · exact (freshCores_get _ _ _ i).trans (if_pos ⟨h1, h2⟩)
    · exact (zeroQuarters_byte _ _ _ pa).trans (if_pos ⟨h1, h2⟩)

/-- Settles O40: a command in each state of a partition, and the end of a halt. -/
theorem haltAndSwap : Obligations.HaltAndSwap := by
  unfold Obligations.HaltAndSwap
  refine ⟨fun a0 s x hb hr hp => ?_, fun part s p hp hh => ⟨fun hready ht => ?_, fun hno => ?_, fun ht => ?_⟩⟩
  · intro n
    have hout := exec_swapout (n := n) (x := x) (a0 := a0) hb hr rfl rfl hp
    have hin := exec_swapin (n := n) (x := x) (a0 := a0) hb hr rfl rfl hp
    have hput : ∀ f, (s.commanded 3 [a0]).mapPart n f =
        { s.commanded 3 [a0] with parts := s.parts.put n (f x) } := State.mapPart_some hp
    have hputIn : ∀ f, (resumeWarps (s.commanded 4 [a0]) n).mapPart n f =
        { resumeWarps (s.commanded 4 [a0]) n with parts := s.parts.put n (f x) } := State.mapPart_some hp
    rw [hput] at hout
    rw [hputIn] at hin
    refine ⟨fun h => ⟨_, hout.trans (congrArg _ (if_neg (not_not_intro h))), rfl, rfl, rfl, rfl, rfl, rfl⟩,
      fun h => ⟨_, hout.trans (congrArg _ (if_pos h)), rfl, rfl⟩,
      fun h => ⟨_, hin.trans (congrArg _ (if_neg (not_not_intro h))), rfl, rfl, rfl, rfl,
        fun i h1 h2 => swapCounters_core (Partition.mem_coreList h1 h2), rfl⟩,
      fun h => ⟨_, hin.trans (congrArg _ (if_pos h)), rfl, rfl⟩⟩
  · show execHaltComplete part s = _
    unfold execHaltComplete
    simp only [hp]
    rw [if_pos ⟨hh, hready, ht⟩]
  · show execHaltComplete part s = _
    unfold execHaltComplete
    simp only [hp]
    refine if_neg fun ⟨_, hready, ht⟩ => ?_
    rcases hno with hno | hno
    · exact Bool.false_ne_true (hno.symm.trans hready)
    · omega
  · show execHaltTimeout part s = _
    unfold execHaltTimeout
    simp only [hp]
    rw [if_pos ⟨hh, ht⟩]

end Sys2Proof
end

section
/-! PROOFS. Firmware, attestation and key records (R387-R394). -/

namespace Sys2Proof.Machine

/-! ## Bring-up and firmware (R391, R392, R394) -/

theorem exec_packageReset {s : State} {image : List Byte} (h : s.kiln.staged = some image) :
    exec .packageReset s = .next (if s.kiln.accepts image = true then bringUp s image else enterRecovery s) := by
  show execPackageReset s = _
  unfold execPackageReset
  rw [h]
  rfl

/-- Whatever trains, a package that is up has nothing from before, and the image it runs. -/
theorem bringUp_cleared (s : State) (image : List Byte) :
    (bringUp s image).parts = [] ∧ (bringUp s image).kernels = [] ∧ (bringUp s image).warps = [] ∧ (bringUp s image).mem = []
      ∧ (bringUp s image).kiln.recovery = false ∧ (bringUp s image).kiln.staged = some image
      ∧ (bringUp s image).kiln.fwHash = sha256 image := by
  unfold bringUp
  dsimp only
  split <;> exact ⟨rfl, rfl, rfl, rfl, rfl, rfl, rfl⟩

/-- The mailbox is open where training succeeds; else bring-up stays in its step 2. -/
theorem bringUp_phase (s : State) (image : List Byte) :
    (bringUp s image).kiln.phase = 7 ∧ (bringUp s image).kiln.busy = false ∧ (bringUp s image).kiln.code = 0
      ∨ (bringUp s image).kiln.phase = 2 ∧ (bringUp s image).kiln.busy = true ∧ (bringUp s image).kiln.code = 1 := by
  unfold bringUp
  dsimp only
  split
  · exact .inl ⟨rfl, rfl, rfl⟩
  · exact .inr ⟨rfl, rfl, rfl⟩

/-- FWSTAGE on an idle mailbox, in recovery as well. -/
theorem exec_fwstage {s : State} (hb : s.kiln.busy = false) (a0 a1 : Half) (image : List Byte) {c : State}
    (hc : s.commanded 8 [a0, a1, BitVec.ofNat 32 image.length] = c) :
    exec (.fwstage a0 a1 image) s = .next (if (!c.kiln.accepts image) = true then c.answer 1 0
      else if c.kiln.recovery = true then bringUp { c with kiln := { c.kiln with staged := some image } } image
      else { c with kiln := { c.kiln with staged := some image } }.answer 0 0) := by
  show execFwstage a0 a1 image s = _
  unfold execFwstage
  rw [mailbox_of_not_refused hb (Bool.and_false _), hc]

/-! ## Requests of attestation (R387, R388) -/

/-- Each of the nine answers once the package is up. -/
theorem onInstance_up {s : State} {inst : Nat} (hi : inst < 9) (hp : s.kiln.phase = 7) (t : State) :
    onInstance s inst t = .next t :=
  if_pos ⟨hi, hp⟩

theorem exec_getMeasurements {s : State} {inst : Nat} (hi : inst < 9) (hp : s.kiln.phase = 7) (index : Nat)
    (nonce : List Byte) : ∃ t, exec (.getMeasurements inst index nonce) s = .next t ∧
      match measurement s inst index with
      | some bs => (t.kiln.reply.drop 4).take bs.length = bs ∧ t = { s with kiln := { s.kiln with reply := t.kiln.reply } }
      | none => t = spdmError s 1 := by
  refine ⟨_, onInstance_up hi hp _, ?_⟩
  cases measurement s inst index with
  | none => rfl
  | some bs =>
    have hreply : ∀ sig : List Byte,
        ((([0x13, 0x60, 0, 0].map (BitVec.ofNat 8) ++ bs ++ sig : List Byte)).drop 4).take bs.length = bs :=
      fun sig => List.take_left
    exact ⟨hreply _, rfl⟩

theorem exec_finish {s : State} {inst : Nat} (hi : inst < 9) (hp : s.kiln.phase = 7) (hstage : s.kiln.stage inst = 1)
    (v : List Byte) : exec (.finish inst v) s = .next (if Config.verifies 1 v then
      spdmAnswer (s.setSession inst (2 :: (s.kiln.session inst).drop 1)) 0x65 10 v 32
      else spdmError (s.setSession inst [0]) 6) :=
  (onInstance_up hi hp _).trans (congrArg _ (if_neg (not_not_intro hstage)))

theorem exec_keyExchange {s : State} {inst : Nat} (hi : inst < 9) (hp : s.kiln.phase = 7) (ex : List Byte) :
    exec (.keyExchange inst ex) s = .next (if s.kiln.stage inst = 0 then
      spdmAnswer (s.setSession inst (1 :: ex.map (·.toNat))) 0x64 9 ex 128 else spdmError s 0x0A) :=
  (onInstance_up hi hp _).trans (congrArg _ (ite_not ..))

/-! ## Key records (R389) -/

section
variable {s : State} {inst : Nat} {p : Partition} {record : List Byte} (hi : inst < 8)
  (hstage : s.kiln.stage (inst + 1) = 2) (hp : s.parts.get? inst = some p)
  (hbind : (record.drop 4).take 32 = bindingOf s (inst + 1))
include hi hstage hp hbind

/-- A record that passes the checks common to the three operations. -/
theorem keyRecord_ok {op len : Nat} (hok : keyRecordOk record op len = true) (body : Nat → Partition → Nat → State) :
    keyRecord s (inst + 1) op len record body = .next (body inst p (record.getD 1 0).toNat) := by
  have hopen : ¬(s.kiln.stage (inst + 1) ≠ 2 ∨ 9 ≤ inst + 1) := by omega
  unfold keyRecord
  simp only [hopen, if_false, Nat.succ_ne_zero, Nat.add_sub_cancel, hp, hok, hbind, Bool.not_true, Bool.false_eq_true,
    not_true_eq_false, ne_eq]

theorem exec_sealRequest (hok : keyRecordOk record 1 36 = true) :
    exec (.sealRequest (inst + 1) record) s = .next (if p.launchedOnce = true then keyReply s 3 else keyReply
      { s with parts := s.parts.put inst { p with
        sealed := true, keys := p.keys.put 0 (hkdfExpand64 (sessionSecret s.kiln (inst + 1)) slot0Label) } } 0) := by
  show execSeal (inst + 1) record s = _
  unfold execSeal
  rw [keyRecord_ok hi hstage hp hbind hok]
  rw [State.mapPart_some hp]

theorem exec_keyload (hok : keyRecordOk record 2 100 = true) {slot : Nat} (hslot : (record.getD 1 0).toNat = slot) :
    exec (.keyload (inst + 1) record) s = .next (if (!p.sealed) = true then keyReply s 3
      else if (p.keys.get? slot).isSome = true then keyReply s 4
      else keyReply { s with parts := s.parts.put inst { p with keys := p.keys.put slot (record.drop 36) } } 0) := by
  show execKeyload (inst + 1) record s = _
  unfold execKeyload
  rw [keyRecord_ok hi hstage hp hbind hok, hslot]
  rw [State.mapPart_some hp]

theorem exec_keydrop (hok : keyRecordOk record 3 36 = true) {slot : Nat} (hslot : (record.getD 1 0).toNat = slot) :
    exec (.keydrop (inst + 1) record) s = .next (if (!p.sealed) = true then keyReply s 3
      else if (s.kernels.any fun k => k.2.part == inst) = true then keyReply s 5
      else keyReply { s with parts := s.parts.put inst { p with keys := p.keys.del slot } } 0) := by
  show execKeydrop (inst + 1) record s = _
  unfold execKeydrop
  rw [keyRecord_ok hi hstage hp hbind hok, hslot]
  rw [State.mapPart_some hp]

end

/-- Whether a kernel of a partition exists, as KEYDROP asks it. -/
theorem any_kernel_of {s : State} {part : Nat} :
    (s.kernels.any fun k => k.2.part == part) = true ↔ ∃ k ∈ s.kernels, k.2.part = part := by
  simp only [List.any_eq_true, beq_iff_eq]

end Sys2Proof.Machine

namespace Sys2Proof
open Machine

/-- Settles O41: what the ROM does with an image, and what bring-up leaves. -/
theorem bootAndFirmware : Obligations.BootAndFirmware := by
  unfold Obligations.BootAndFirmware
  refine ⟨fun s image himage => ⟨fun h => ?_, fun h => ?_⟩, fun a0 a1 image s hb => ?_, fun s image => ?_⟩
  · rw [exec_packageReset himage, if_pos h]
  · rw [exec_packageReset himage, if_neg (ne_true_of_eq_false h)]
    exact ⟨_, rfl, rfl, rfl, rfl, rfl, rfl, rfl, rfl, himage, rfl⟩
  · intro c staged
    have hexec := exec_fwstage hb a0 a1 image (c := c) rfl
    have haccepts : c.kiln.accepts image = s.kiln.accepts image := rfl
    have hrecovery : c.kiln.recovery = s.kiln.recovery := rfl
    rw [haccepts, hrecovery] at hexec
    refine ⟨fun h => ?_, fun h hr => ?_, fun h hr => ?_⟩
    · rw [hexec, if_pos (by rw [h, Bool.not_false])]
    · rw [hexec, if_neg (by rw [h]; exact Bool.false_ne_true), if_pos hr]
    · rw [hexec, if_neg (by rw [h]; exact Bool.false_ne_true), if_neg (ne_true_of_eq_false hr)]
  · obtain ⟨hparts, hkernels, hwarps, hmem, hrecovery, hstaged, hhash⟩ := bringUp_cleared s image
    exact ⟨hparts, hkernels, hwarps, hmem, hrecovery, hstaged, hhash, bringUp_phase s image⟩

/-- Settles O42: each request gets its reply once the package is up. -/
theorem attestation : Obligations.Attestation := by
  unfold Obligations.Attestation
  intro inst s hi hp
  have hreply : ∀ t, onInstance s inst t = .next t := onInstance_up hi hp
  exact ⟨hreply _, hreply _, fun _ => hreply _, hreply _, fun _ => hreply _, fun _ _ => hreply _,
    exec_getMeasurements hi hp, exec_keyExchange hi hp, fun v hstage => exec_finish hi hp hstage v,
    fun hstage => (hreply _).trans (congrArg _ (if_neg hstage)), hreply _⟩

/-- Settles O43: the code of the first check that fails, or the keys changed. -/
theorem keyRecords : Obligations.KeyRecords := by
  unfold Obligations.KeyRecords
  intro inst s p record hi hstage hp hbind
  have hopen (h : p.sealed = true) : ¬(!p.sealed) = true := by
    rw [h]
    exact Bool.false_ne_true
  have hclosed (h : p.sealed = false) : (!p.sealed) = true := by rw [h, Bool.not_false]
  refine ⟨fun hok => ?_, fun hok => ?_, fun hok => ?_⟩
  · rw [exec_sealRequest hi hstage hp hbind hok]
    exact ⟨fun h => congrArg _ (if_pos h), fun h => congrArg _ (if_neg (ne_true_of_eq_false h))⟩
  · intro slot
    rw [exec_keyload hi hstage hp hbind hok (slot := slot) rfl]
    refine ⟨fun h => ?_, fun h hused => ?_, fun h hfree => ?_⟩
    · rw [if_pos (hclosed h)]
    · rw [if_neg (hopen h), if_pos hused]
    · rw [if_neg (hopen h), if_neg (by rw [hfree]; exact Bool.false_ne_true)]
  · intro slot
    rw [exec_keydrop hi hstage hp hbind hok (slot := slot) rfl]
    refine ⟨fun h => ?_, fun h hrun => ?_, fun h hidle => ?_⟩
    · rw [if_pos (hclosed h)]
    · rw [if_neg (hopen h), if_pos (any_kernel_of.2 hrun)]
    · rw [if_neg (hopen h), if_neg fun hany => ?_]
      obtain ⟨k, hk, hpart⟩ := any_kernel_of.1 hany
      exact hidle k hk hpart

end Sys2Proof
end
